-- ==== Sys2Proof/Word.lean ====
section
/-!
DEFINITION. The word types of the device (R6, R29, R39) and the plainest arithmetic on them, with a
record of four like things (four towers, four tiers, four lanes of a bead).
-/

namespace Sys2Proof

abbrev Byte := BitVec 8
abbrev Half := BitVec 16
abbrev Word := BitVec 32
abbrev DWord := BitVec 64

/-- A six-bit register number (R141). -/
abbrev Reg := BitVec 6

/-- A set of the four lanes of one bead: bit k is lane place k (R39). -/
abbrev Mask := BitVec 4

/-- A tower, a tier, or a lane place: 0 to 3 (R9, R39). -/
abbrev Four := Fin 4

/-- Four like things, named by 0 to 3. -/
structure Quad (α : Type) where
  k0 : α
  k1 : α
  k2 : α
  k3 : α
deriving DecidableEq, Repr

def Quad.get {α : Type} (q : Quad α) (k : Four) : α :=
  match k with
  | 0 => q.k0
  | 1 => q.k1
  | 2 => q.k2
  | 3 => q.k3

def Quad.set {α : Type} (q : Quad α) (k : Four) (x : α) : Quad α :=
  match k with
  | 0 => { q with k0 := x }
  | 1 => { q with k1 := x }
  | 2 => { q with k2 := x }
  | 3 => { q with k3 := x }

/-- Every place through a function of its number. -/
def Quad.mapIdx {α β : Type} (f : Four → α → β) (q : Quad α) : Quad β :=
  ⟨f 0 q.k0, f 1 q.k1, f 2 q.k2, f 3 q.k3⟩

def Quad.map {α β : Type} (f : α → β) (q : Quad α) : Quad β := q.mapIdx fun _ => f

/-- One place through a function, the others as they stand. -/
def Quad.upd {α : Type} (q : Quad α) (k : Four) (f : α → α) : Quad α := q.set k (f (q.get k))

def Quad.toList {α : Type} (q : Quad α) : List α := [q.k0, q.k1, q.k2, q.k3]

def Quad.fill {α : Type} (x : α) : Quad α := ⟨x, x, x, x⟩

/-- The four numbers, rising. -/
def Four.all : List Four := [0, 1, 2, 3]

/-- The low two bits of a number as one of four. -/
def Four.ofNat (n : Nat) : Four := ⟨n % 4, Nat.mod_lt n (by decide)⟩

end Sys2Proof
end

