-- ==== Sys2Proof/Syntax.lean ====
section
/-!
DEFINITION. The instructions of the device: one constructor for each row of spec/opcode_table.json, in its order. A word's
fields stand as the table lays them out; a step of the hardware that has no encoding names what it acts on, and carries as
operands what the manual leaves to the outside world or to no stated choice (log 5).
-/

namespace Sys2Proof

/-- One failing vertical connection that a STACK_TEST meets (R366): logical column, boundary, connection; whether the
boundary has no unused spare left for it is counted by the test (log 24). -/
structure ConnFail where
  col : BitVec 6
  boundary : BitVec 2
  conn : BitVec 11
deriving DecidableEq, Repr

/-- How a self-test ends (R365): passed, or faults that spare rows repaired, or failed. -/
inductive TestVerdict where
  | pass | repaired | failed
deriving DecidableEq, Repr

/-- What a tower's start meets (R361 to R363; log 24): the columns whose cores (with the tier), store or vertical
connections (with the boundary) fail the self-test, the local stack that fails HBM training, the uncorrected error that the tower
meets (unit, index, place within it), the STATE in which it stays beyond the time, and whether no leader is elected. -/
structure TowerStart where
  coreBad : List (Nat × Four)
  storeBad : List Nat
  vertBad : List (Nat × Four)
  stackBad : Option Four
  uncorrected : Option (Byte × Byte × Byte)
  stalls : Option (BitVec 2)
  noLeader : Bool
deriving DecidableEq, Repr

/-- An error met by the codes of R364: unit, index, place within the unit, word or line, whether corrected, and the
launches whose state or data an uncorrected one struck. -/
structure ErrorEvent where
  unit : Byte
  index : Byte
  sub : Byte
  loc : Word
  corrected : Bool
  launches : List Nat
deriving DecidableEq, Repr

/-- The words of R155 and the steps of the table that have no word. -/
inductive Instr where
  /-- R175. Branch with per-lane guard; a guarded BRA pushes a reconvergence entry in every bead of the group and may split the group. -/
  | bra (g : BitVec 3) (off : BitVec 20)
  /-- R176. Branch taken per bead by the guard of its lowest active lane, pushing nothing. -/
  | br (g : BitVec 3) (off : BitVec 20)
  /-- R177. Whole issue group branches when the guard holds in any active lane. -/
  | brany (g : BitVec 3) (off : BitVec 20)
  /-- R177. Whole issue group branches when the guard holds in every active lane. -/
  | brall (g : BitVec 3) (off : BitVec 20)
  /-- R178. Acts as BRA and writes the return address to s63 in beads whose lanes call. -/
  | call (g : BitVec 3) (off : BitVec 20)
  /-- R180. Per-bead transfer to s63 when the guard holds in the bead's lowest active lane. -/
  | ret (g : BitVec 3)
  /-- R180. Per-bead register-indirect jump to s[a]. -/
  | jmpr (a : Reg) (g : BitVec 3)
  /-- R180. Per-bead register-indirect call to s[a], writing A + 4 to s63. -/
  | callr (a : Reg) (g : BitVec 3)
  /-- R45. Acts on the top reconvergence entry: starts the not-taken path or pops the entry. -/
  | join
  /-- R182. Ends the lanes whose guard holds, applying JOINs while a bead has no active lane. -/
  | exit (g : BitVec 3)
  /-- R42. The bead waits at the CLASP until every live bead of its strand waits at one. -/
  | clasp
  /-- R185. Moves the issue group to the back of its slot's round-robin order. -/
  | yield
  /-- R186. Advances the PC and changes nothing else. -/
  | nop
  /-- R188. Scalar add modulo 2^64. -/
  | sadd (d a b : Reg) (g : BitVec 3)
  /-- R188. Scalar subtract modulo 2^64. -/
  | ssub (d a b : Reg) (g : BitVec 3)
  /-- R188. Scalar multiply, low 64 bits. -/
  | smul (d a b : Reg) (g : BitVec 3)
  /-- R188. Scalar signed multiply, high 64 bits. -/
  | smulh (d a b : Reg) (g : BitVec 3)
  /-- R188. Scalar unsigned multiply, high 64 bits. -/
  | smulhn (d a b : Reg) (g : BitVec 3)
  /-- R189. Scalar signed division truncating toward zero, never trapping. -/
  | sdiv (d a b : Reg) (g : BitVec 3)
  /-- R189. Scalar unsigned division, never trapping. -/
  | sdivn (d a b : Reg) (g : BitVec 3)
  /-- R189. Scalar signed remainder. -/
  | srem (d a b : Reg) (g : BitVec 3)
  /-- R189. Scalar unsigned remainder. -/
  | sremn (d a b : Reg) (g : BitVec 3)
  /-- R188. Scalar bitwise and. -/
  | sand (d a b : Reg) (g : BitVec 3)
  /-- R188. Scalar bitwise or. -/
  | sor (d a b : Reg) (g : BitVec 3)
  /-- R188. Scalar bitwise xor. -/
  | sxor (d a b : Reg) (g : BitVec 3)
  /-- R188. Scalar shift left by y[5:0]. -/
  | sshl (d a b : Reg) (g : BitVec 3)
  /-- R188. Scalar logical shift right by y[5:0]. -/
  | sshr (d a b : Reg) (g : BitVec 3)
  /-- R188. Scalar arithmetic shift right by y[5:0]. -/
  | ssra (d a b : Reg) (g : BitVec 3)
  /-- R188. Scalar signed minimum. -/
  | smin (d a b : Reg) (g : BitVec 3)
  /-- R188. Scalar signed maximum. -/
  | smax (d a b : Reg) (g : BitVec 3)
  /-- R188. Scalar unsigned minimum. -/
  | sminn (d a b : Reg) (g : BitVec 3)
  /-- R188. Scalar unsigned maximum. -/
  | smaxn (d a b : Reg) (g : BitVec 3)
  /-- R188. Scalar set to 1 when equal. -/
  | sseq (d a b : Reg) (g : BitVec 3)
  /-- R188. Scalar set to 1 when signed less than. -/
  | sslt (d a b : Reg) (g : BitVec 3)
  /-- R188. Scalar set to 1 when unsigned less than. -/
  | ssltn (d a b : Reg) (g : BitVec 3)
  /-- R188. Scalar select of x or y by the old s[d]. -/
  | ssel (d a b : Reg) (g : BitVec 3)
  /-- R190. Scalar add of an extended immediate. -/
  | saddi (d a : Reg) (g : BitVec 3) (imm : BitVec 8)
  /-- R190. Scalar and with an immediate. -/
  | sandi (d a : Reg) (g : BitVec 3) (imm : BitVec 8)
  /-- R190. Scalar or with an immediate. -/
  | sori (d a : Reg) (g : BitVec 3) (imm : BitVec 8)
  /-- R190. Scalar xor with an immediate. -/
  | sxori (d a : Reg) (g : BitVec 3) (imm : BitVec 8)
  /-- R190. Scalar shift left by an immediate. -/
  | sshli (d a : Reg) (g : BitVec 3) (imm : BitVec 8)
  /-- R190. Scalar logical shift right by an immediate. -/
  | sshri (d a : Reg) (g : BitVec 3) (imm : BitVec 8)
  /-- R190. Scalar arithmetic shift right by an immediate. -/
  | ssrai (d a : Reg) (g : BitVec 3) (imm : BitVec 8)
  /-- R190. Loads an extended immediate into a scalar register. -/
  | sli (d : Reg) (g : BitVec 3) (imm : BitVec 8)
  /-- R192. Reads a special register into a scalar or vector register. -/
  | srd (d : Reg) (code : BitVec 10)
  /-- R193. Writes an RW special register from s[a]. -/
  | swr (a : Reg) (code : BitVec 10)
  /-- R194. Moves a scalar register into a vector register or pair in each active lane. -/
  | vmovs (d a : Reg) (pair hi : BitVec 1)
  /-- R195. Moves one lane of a vector register into a scalar register. -/
  | smovv (d a : Reg) (pair sx low : BitVec 1) (k : BitVec 2)
  /-- R198. Writes FMT of every bead of the group from the lowest bead's s[a][11:0]. -/
  | sfmt (a : Reg)
  /-- R201. Vector add modulo 2^32. -/
  | vadd (d a b : Reg) (g : BitVec 3)
  /-- R201. Vector subtract. -/
  | vsub (d a b : Reg) (g : BitVec 3)
  /-- R201. Vector multiply, low 32 bits. -/
  | vmul (d a b : Reg) (g : BitVec 3)
  /-- R201. Vector signed multiply, high 32 bits. -/
  | vmulh (d a b : Reg) (g : BitVec 3)
  /-- R201. Vector unsigned multiply, high 32 bits. -/
  | vmulhn (d a b : Reg) (g : BitVec 3)
  /-- R201. Vector integer multiply-add into the old d. -/
  | vmad (d a b : Reg) (g : BitVec 3)
  /-- R201. Vector bitwise and. -/
  | vand (d a b : Reg) (g : BitVec 3)
  /-- R201. Vector bitwise or. -/
  | vor (d a b : Reg) (g : BitVec 3)
  /-- R201. Vector bitwise xor. -/
  | vxor (d a b : Reg) (g : BitVec 3)
  /-- R201. Vector and-not. -/
  | vandn (d a b : Reg) (g : BitVec 3)
  /-- R201. Vector shift left by y[4:0]. -/
  | vshl (d a b : Reg) (g : BitVec 3)
  /-- R201. Vector logical shift right. -/
  | vshr (d a b : Reg) (g : BitVec 3)
  /-- R201. Vector arithmetic shift right. -/
  | vsra (d a b : Reg) (g : BitVec 3)
  /-- R201. Vector signed minimum. -/
  | vmin (d a b : Reg) (g : BitVec 3)
  /-- R201. Vector signed maximum. -/
  | vmax (d a b : Reg) (g : BitVec 3)
  /-- R201. Vector unsigned minimum. -/
  | vminn (d a b : Reg) (g : BitVec 3)
  /-- R201. Vector unsigned maximum. -/
  | vmaxn (d a b : Reg) (g : BitVec 3)
  /-- R201. Vector integer absolute value. -/
  | vabs (d a : Reg) (g : BitVec 3)
  /-- R201. Vector integer negation. -/
  | vneg (d a : Reg) (g : BitVec 3)
  /-- R201. Vector population count. -/
  | vpopc (d a : Reg) (g : BitVec 3)
  /-- R201. Vector count of leading zeros. -/
  | vclz (d a : Reg) (g : BitVec 3)
  /-- R201. Vector bit reversal. -/
  | vbrev (d a : Reg) (g : BitVec 3)
  /-- R201. Vector select of x or y by the old d. -/
  | vsel (d a b : Reg) (g : BitVec 3)
  /-- R201. Vector bit-for-bit move. -/
  | vmov (d a : Reg) (g : BitVec 3)
  /-- R202. Vector add of an immediate. -/
  | vaddi (d a : Reg) (g : BitVec 3) (imm : BitVec 8)
  /-- R202. Vector and with an immediate. -/
  | vandi (d a : Reg) (g : BitVec 3) (imm : BitVec 8)
  /-- R202. Vector or with an immediate. -/
  | vori (d a : Reg) (g : BitVec 3) (imm : BitVec 8)
  /-- R202. Vector xor with an immediate. -/
  | vxori (d a : Reg) (g : BitVec 3) (imm : BitVec 8)
  /-- R202. Vector shift left by an immediate. -/
  | vshli (d a : Reg) (g : BitVec 3) (imm : BitVec 8)
  /-- R202. Vector logical shift right by an immediate. -/
  | vshri (d a : Reg) (g : BitVec 3) (imm : BitVec 8)
  /-- R202. Vector arithmetic shift right by an immediate. -/
  | vsrai (d a : Reg) (g : BitVec 3) (imm : BitVec 8)
  /-- R202. Loads a 32-bit immediate into a vector register. -/
  | vli (d : Reg) (g : BitVec 3) (imm : BitVec 8)
  /-- R203. Sets a predicate where vector values are equal. -/
  | vseq (d : BitVec 3) (a b : Reg) (g : BitVec 3)
  /-- R203. Sets a predicate where vector values differ. -/
  | vsne (d : BitVec 3) (a b : Reg) (g : BitVec 3)
  /-- R203. Signed less-than comparison into a predicate. -/
  | vslt (d : BitVec 3) (a b : Reg) (g : BitVec 3)
  /-- R203. Signed less-or-equal comparison into a predicate. -/
  | vsle (d : BitVec 3) (a b : Reg) (g : BitVec 3)
  /-- R203. Unsigned less-than comparison into a predicate. -/
  | vsltn (d : BitVec 3) (a b : Reg) (g : BitVec 3)
  /-- R203. Unsigned less-or-equal comparison into a predicate. -/
  | vslen (d : BitVec 3) (a b : Reg) (g : BitVec 3)
  /-- R203. f32 equality comparison into a predicate. -/
  | vfseq (d : BitVec 3) (a b : Reg) (g : BitVec 3)
  /-- R203. f32 inequality comparison into a predicate. -/
  | vfsne (d : BitVec 3) (a b : Reg) (g : BitVec 3)
  /-- R203. f32 less-than comparison into a predicate. -/
  | vfslt (d : BitVec 3) (a b : Reg) (g : BitVec 3)
  /-- R203. f32 less-or-equal comparison into a predicate. -/
  | vfsle (d : BitVec 3) (a b : Reg) (g : BitVec 3)
  /-- R203. f32 unordered test into a predicate. -/
  | vfsun (d : BitVec 3) (a b : Reg) (g : BitVec 3)
  /-- R203. Predicate and. -/
  | pand (d a b g : BitVec 3)
  /-- R203. Predicate or. -/
  | por (d a b g : BitVec 3)
  /-- R203. Predicate xor. -/
  | pxor (d a b g : BitVec 3)
  /-- R203. Predicate and-not. -/
  | pandn (d a b g : BitVec 3)
  /-- R203. Predicate move. -/
  | pmov (d a g : BitVec 3)
  /-- R204. Vector unsigned bit-field extract. -/
  | vbfe (d a b : Reg) (g : BitVec 3)
  /-- R204. Vector signed bit-field extract. -/
  | vbfes (d a b : Reg) (g : BitVec 3)
  /-- R204. Vector bit-field insert into the old d. -/
  | vbfi (d a b : Reg) (g : BitVec 3)
  /-- R205. FP32 add, rounded once. -/
  | vfadd (d a b : Reg) (g : BitVec 3)
  /-- R205. FP32 subtract. -/
  | vfsub (d a b : Reg) (g : BitVec 3)
  /-- R205. FP32 multiply. -/
  | vfmul (d a b : Reg) (g : BitVec 3)
  /-- R205. FP32 fused multiply-add with the old d. -/
  | vfma (d a b : Reg) (g : BitVec 3)
  /-- R205. FP32 fused multiply-subtract. -/
  | vfms (d a b : Reg) (g : BitVec 3)
  /-- R205. FP32 fused negated multiply-add. -/
  | vfnma (d a b : Reg) (g : BitVec 3)
  /-- R206. FP32 minimum with -0 below +0. -/
  | vfmin (d a b : Reg) (g : BitVec 3)
  /-- R206. FP32 maximum with -0 below +0. -/
  | vfmax (d a b : Reg) (g : BitVec 3)
  /-- R205. Clears the sign bit. -/
  | vfabs (d a : Reg) (g : BitVec 3)
  /-- R205. Inverts the sign bit. -/
  | vfneg (d a : Reg) (g : BitVec 3)
  /-- R205. Copies the sign of b onto a. -/
  | vfcps (d a b : Reg) (g : BitVec 3)
  /-- R207. Rounds f32 to an integral value by the selected mode. -/
  | vfrnd (d a : Reg) (g : BitVec 3)
  /-- R207. Writes a one-hot class mask of an f32 value. -/
  | vfcls (d a : Reg) (g : BitVec 3)
  /-- R208. Packed bf16x2 or f16x2 add. -/
  | vhadd (d a b : Reg) (g : BitVec 3) (h : BitVec 1)
  /-- R208. Packed 16-bit subtract. -/
  | vhsub (d a b : Reg) (g : BitVec 3) (h : BitVec 1)
  /-- R208. Packed 16-bit multiply. -/
  | vhmul (d a b : Reg) (g : BitVec 3) (h : BitVec 1)
  /-- R208. Packed 16-bit fused multiply-add. -/
  | vhfma (d a b : Reg) (g : BitVec 3) (h : BitVec 1)
  /-- R208. Packed 16-bit minimum. -/
  | vhmin (d a b : Reg) (g : BitVec 3) (h : BitVec 1)
  /-- R208. Packed 16-bit maximum. -/
  | vhmax (d a b : Reg) (g : BitVec 3) (h : BitVec 1)
  /-- R209. Reciprocal within 1 ulp. -/
  | vrcp (d a : Reg) (g : BitVec 3)
  /-- R209. Reciprocal square root. -/
  | vrsq (d a : Reg) (g : BitVec 3)
  /-- R209. Correctly rounded square root. -/
  | vsqrt (d a : Reg) (g : BitVec 3)
  /-- R209. Correctly rounded division. -/
  | vfdiv (d a b : Reg) (g : BitVec 3)
  /-- R209. Base-2 exponential. -/
  | vexp2 (d a : Reg) (g : BitVec 3)
  /-- R209. Base-2 logarithm. -/
  | vlog2 (d a : Reg) (g : BitVec 3)
  /-- R209. Sine in radians. -/
  | vsin (d a : Reg) (g : BitVec 3)
  /-- R209. Cosine in radians. -/
  | vcos (d a : Reg) (g : BitVec 3)
  /-- R209. Hyperbolic tangent. -/
  | vtanh (d a : Reg) (g : BitVec 3)
  /-- R82. Converts between the format pair that fn selects, with groups placed as R211 states. -/
  | vcvt (d a b : Reg) (g : BitVec 3) (fn : BitVec 5)
  /-- R214. Reads the present lane named by v[b] in each active lane. -/
  | vshfl (d a b : Reg) (g : BitVec 3)
  /-- R214. Butterfly shuffle by xor of the lane number. -/
  | vshflx (d a b : Reg) (g : BitVec 3)
  /-- R214. Shuffle from a lower lane. -/
  | vshflu (d a b : Reg) (g : BitVec 3)
  /-- R214. Shuffle from a higher lane. -/
  | vshfld (d a b : Reg) (g : BitVec 3)
  /-- R214. Broadcasts the lowest present lane's value. -/
  | vbcst (d a : Reg) (g : BitVec 3)
  /-- R214. Writes a mask of present lanes with nonzero values. -/
  | vvote (d a : Reg) (g : BitVec 3)
  /-- R215. Reduces the values of present lanes in ascending order into every active lane. -/
  | vreds (d a : Reg) (op : BitVec 5) (g : BitVec 3)
  /-- R215. Inclusive or exclusive scan over present lanes. -/
  | vscan (d a : Reg) (excl : BitVec 1) (op : BitVec 5) (g : BitVec 3)
  /-- R218. Per-lane global load counted in l, setting pending bits. -/
  | vld (d a b : Reg) (g : BitVec 3) (na sx : BitVec 1) (size : BitVec 3)
  /-- R218. Per-lane global store counted in s. -/
  | vst (d a b : Reg) (g : BitVec 3) (na : BitVec 1) (size : BitVec 3)
  /-- R220. Per-bead scalar load from global memory. -/
  | sld (d a b : Reg) (g : BitVec 3) (sx : BitVec 1) (size : BitVec 3)
  /-- R220. Per-bead scalar store to global memory. -/
  | sst (d a b : Reg) (g size : BitVec 3)
  /-- R221. Per-lane load from the gang's scratch. -/
  | vlds (d a b : Reg) (g : BitVec 3) (sx : BitVec 1) (size : BitVec 3)
  /-- R222. Dequantising scratch load writing k f32 registers scaled under FMT. -/
  | vldsDq (d a b : Reg) (g : BitVec 3)
  /-- R221. Per-lane store to the gang's scratch. -/
  | vsts (d a b : Reg) (g size : BitVec 3)
  /-- R223. Per-lane atomic read-modify-write at the scope's point, returning the old value. -/
  | vatom (d a b : Reg) (scope : BitVec 3) (op : BitVec 5)
  /-- R225. Per-lane reduction contribution to an accumulator line or the home L2 slice. -/
  | vred (d a b : Reg) (scope : BitVec 3) (op : BitVec 5)
  /-- R228. Waits for earlier loads, then releases and/or acquires at its scope. -/
  | fence (acq rel : BitVec 1) (scope : BitVec 3)
  /-- R124. Waits for the bead's reductions, at tower scope or wider evicts accumulator lines and retries deferred records, then releases. -/
  | settle (scope : BitVec 3)
  /-- R161. Waits until the l, s and t counts are at or below their immediates, clearing covered pending bits. -/
  | wait (l s t : BitVec 6)
  /-- R240. Issues an asynchronous copy from global memory to scratch into the open batch. -/
  | acopy (d a : Reg)
  /-- R240. Issues an asynchronous copy from scratch to global memory. -/
  | acopyo (d a : Reg)
  /-- R242. Issues a tensor-map box copy with zero fill into scratch. -/
  | acopyt (d a : Reg)
  /-- R243. Issues a gather of indexed rows into scratch. -/
  | acopyg (d a geo : Reg)
  /-- R246. Closes the workgroup's open batch and returns its number. -/
  | cclose (d : Reg)
  /-- R246. Waits for every copy of batches 1 to n, then acquires their destinations. -/
  | cwait (a : Reg)
  /-- R250. Writes a tile control register or a pitch register. -/
  | tcfg (td : BitVec 3) (s : Reg) (target : BitVec 3)
  /-- R251. Loads 32 bytes into a codebook register. -/
  | tcb (cb : BitVec 2) (s : Reg) (scr : BitVec 1)
  /-- R251. Zeroes a tile's data and side band. -/
  | tzero (td : BitVec 3)
  /-- R253. Loads tile data or side-band rows. -/
  | tld (td : BitVec 3) (s : Reg) (sb scr : BitVec 1)
  /-- R253. Stores tile data or side-band rows. -/
  | tst (ta : BitVec 3) (s : Reg) (sb scr : BitVec 1)
  /-- R253. Loads a tile transposed. -/
  | tldt (td : BitVec 3) (s : Reg) (scr : BitVec 1)
  /-- R257. Dense tile product drained as reductions to memory. -/
  | tmma (ta tb : BitVec 3) (s : Reg) (scope : BitVec 3)
  /-- R258. Dense tile product written into part p of slice q of a destination tile. -/
  | tmmab (td ta tb : BitVec 3) (sat : BitVec 1) (p q : BitVec 3)
  /-- R257. Structured-sparse tile product drained to memory. -/
  | tmmas (ta tb : BitVec 3) (s : Reg) (scope : BitVec 3)
  /-- R258. Structured-sparse tile product written into a tile. -/
  | tmmasb (td ta tb : BitVec 3) (sat : BitVec 1) (p q : BitVec 3)
  /-- R260. Quantises FP32 rows to mx8 or mx4 blocks with E8M0 scales. -/
  | tquant (td : BitVec 3) (s : Reg) (scr : BitVec 1)
  /-- R260. Quantises FP32 rows to c4 codebook indices. -/
  | tqcb (td : BitVec 3) (s : Reg) (scr : BitVec 1)
  /-- R263. Issues a bank-unit matrix-vector command on BANK weights, capturing x and the codebook. -/
  | bgemv (d a : Reg) (scope : BitVec 3) (geo : Reg)
  /-- R134. Waits until earlier acknowledged stores to BANK pages have reached HBM. -/
  | bfence
  /-- R232. Each bead arrives at a barrier word without waiting and returns the phase. -/
  | bara (d a : Reg) (scr : BitVec 1) (scope : BitVec 3)
  /-- R232. Waits until the barrier phase differs from the token in s[d], then acquires. -/
  | barw (d a : Reg) (scr : BitVec 1) (scope : BitVec 3)
  /-- R232. Arrives at a barrier word and waits for the phase to complete. -/
  | bar (d a : Reg) (scr : BitVec 1) (scope : BitVec 3)
  /-- R233. Arrives at the launch's grid barrier instance and waits for every workgroup. -/
  | gbar
  /-- R234. Waits until the signal word meets its condition, writes the value and acquires. -/
  | sigw (d a : Reg) (cond : BitVec 2) (scope : BitVec 3)
  /-- R234. Releases, then atomically adds to or sets a signal word and announces it to all wake tables. -/
  | sigp (d a : Reg) (set : BitVec 1) (scope : BitVec 3)
  /-- R237. Removes the oldest work record into scratch, waiting unless TRY. -/
  | wpop (d a : Reg) (try_ : BitVec 1) (q : BitVec 4)
  /-- R268. Releases at system scope, stops the group and requests a host system call. -/
  | trap (d a : Reg) (call : BitVec 10)
  /-- R269. Breakpoint trap with code 0x21. -/
  | brk (call : BitVec 10)
  /-- R270. Acquires register blocks for the strand, waiting in the core's RACQ queue. -/
  | racqWait (blocks : BitVec 7)
  /-- R270. Tries to acquire register blocks, writing the grant to a predicate. -/
  | racqTry (d : BitVec 3) (blocks : BitVec 7)
  /-- R271. Releases register blocks and serves the core's RACQ queue. -/
  | rrel (blocks : BitVec 7)
  /-- R273. Requests or ends a ratio-2 lease for the workgroup and writes the grant predicate. -/
  | boost (d : BitVec 3) (us : BitVec 10)
  /-- R274. Sets the workgroup's validity mark. -/
  | wmark (valid : BitVec 1)
  /-- R275. Writes the ns remaining to the divert instant or deadline. -/
  | dlr (d : Reg)
  /-- R276. Writes the front-end cycle count since workgroup start. -/
  | clk (d : Reg)
  /-- R277. Writes the issuing tower's time. -/
  | time (d : Reg)
  /-- R150. Immediate-extension prefix applying to the bead's next word. -/
  | pfxX (payload : BitVec 24)
  /-- R151. Modifier prefix carrying guard negation, M-prime guard, rounding, saturation and cache policy. -/
  | pfxM (neg : BitVec 1) (guard rnd : BitVec 3) (sat : BitVec 1) (cache : BitVec 2)
  /-- R152. Hint prefix with no architectural effect. -/
  | pfxH (branch : BitVec 2) (reuseB reuseA : BitVec 1)
  /-- R217. A global access's translation and permission checks complete, or trap or park it. -/
  | accessConfirm (id : Nat)
  /-- R160. A counted load writes its destination registers and leaves the l count in order. -/
  | loadComplete (id : Nat)
  /-- R160. A store is acknowledged at the column store or scratch part and leaves the s count. -/
  | storeAck (id : Nat)
  /-- R114. A reduction contribution, drain element or bank result is applied atomically at its target. -/
  | reductionApply (id : Nat)
  /-- R126. Firmware flushes each faulted accumulator line again at least every 100 us. -/
  | faultedLineReflush (t : Four) (col : Nat) (asid : Half) (va : DWord)
  /-- R244. A copy's writes are acknowledged, its range-lock entries freed and stalled copies issued. -/
  | copyComplete (id : Nat)
  /-- R247. A copy meeting a page not present holds and writes a recoverable fault record. -/
  | copyPageHold (id : Nat) (moved : List Nat)
  /-- R247. A copy meeting a translation error or withheld permission stops and completes with an error. -/
  | copyError (id : Nat) (moved : List Nat)
  /-- R254. A tile load, store or quantiser word completes and leaves the t count. -/
  | tileOpComplete (id : Nat)
  /-- R259. A product's last slice ends; its result goes to a drain buffer or destination tile. -/
  | matrixProductComplete (id : Nat)
  /-- R263. The weight range of a BGEMV is confirmed or traps 0x09, 0x0A or 0x11. -/
  | bgemvConfirm (id : Nat)
  /-- R263. A bank unit delivers a row total as one ADD.f32 reduction. -/
  | bgemvRowDeliver (id : Nat)
  /-- R46. The hardware strings agreeing beads of parted strands into a fresh strand. -/
  | restring (gang member : Nat) (beads : List (Nat × Nat))
  /-- R297. A LAUNCH node's acceptance: checks, bucket, patches, phase acquire and placement. -/
  | launch (t : Four) (queue : Nat) (ctr : Word)
  /-- R298. A named tower receives a launch's gang list and places its gangs. -/
  | placementForward (t : Four) (launch : Nat)
  /-- R128. A gang whose strands have all ended waits for copies, settles at device scope and releases. -/
  | gangRetire (gang : Nat)
  /-- R65. The launch unit may save a gang whose live strands have waited 50 us while a placement cannot be met. -/
  | parkGang (gang : Nat)
  /-- R335. A save writes context and scratch to a cellar slot and frees the gang's resources. -/
  | gangSaveComplete (gang : Nat)
  /-- R338. A queued saved gang is placed, its context written back and its members resumed. -/
  | gangRestore (gang : Nat)
  /-- R235. A resident waiting bead's condition is checked again at least every 2 us. -/
  | waitRecheck (gang member grp : Nat)
  /-- R235. Firmware checks every parked wait record at least every 100 us. -/
  | parkedRecordCheck (gang : Nat)
  /-- R291. A write to a queue's wake register is judged against the latest accepted tail and kicks the queue. -/
  | wakeRegisterWrite (t : Four) (queue : Nat) (v : DWord)
  /-- R286. A NOP node ends at once. -/
  | nodeNop (t : Four) (queue : Nat) (ctr : Word)
  /-- R287. Appends records to a hardware work queue once it has room. -/
  | feed (t : Four) (queue : Nat) (ctr : Word)
  /-- R288. Releases at system scope and exchanges a value at a VA. -/
  | write (t : Four) (queue : Nat) (ctr : Word)
  /-- R288. Acts as SIGP at system scope. -/
  | signal (t : Four) (queue : Nat) (ctr : Word)
  /-- R288. Waits for a memory condition as SIGW at system scope. -/
  | waitmem (t : Four) (queue : Nat) (ctr : Word)
  /-- R289. Moves bytes through the tower's copy engine. -/
  | copy (t : Four) (queue : Nat) (ctr : Word)
  /-- R289. Sets the slot's phase and performs the phase acquire. -/
  | phase (t : Four) (queue : Nat) (ctr : Word)
  /-- R289. Writes the tower time to a VA. -/
  | timestamp (t : Four) (queue : Nat) (ctr : Word)
  /-- R285. A node writes state, status and end time, releases and decrements or skips its successors. -/
  | nodeEnd (t : Four) (queue : Nat) (ctr : Word)
  /-- R296. Firmware unmaps idle queues and maps runnable queues by effective priority. -/
  | schedulingPass (t : Four)
  /-- R292. After running nodes finish their step, the dispatcher state is saved and latched kicks are handled. -/
  | queueUnmapComplete (t : Four) (queue : Nat)
  /-- R294. A mapped queue's effective slice expires and a scheduling pass runs. -/
  | sliceExpiry (t : Four) (queue : Nat)
  /-- R303. Every 10 us the governor samples sensors and sets each core's ratio within the column budget. -/
  | governorEvaluation (t : Four) (samples : List Nat)
  /-- R310. At a migration point the workgroup's state crosses to the new core. -/
  | layerMove (gang member : Nat)
  /-- R312. When members reach migration points and copies land, the gang moves to the new column. -/
  | columnMove (gang : Nat)
  /-- R312. A pending column move not ready within 20 us is cancelled. -/
  | columnMoveCancel (gang : Nat)
  /-- R307. Every 1 ms the power microcontroller sets the coolant valve openings. -/
  | valveUpdate (t : Four) (base : List Nat)
  /-- R317. The power microcontroller changes a stack's data rate under its policy. -/
  | hbmStateChange (t : Four) (stack : Four) (temp traffic : Nat)
  /-- R317. A retraining channel resumes accepting its queued requests. -/
  | hbmRetrainComplete (t : Four) (stack : Four)
  /-- R316. A core without strands for 50 us gates. -/
  | coreGate (t : Four) (col : Nat) (tier : Four)
  /-- R316. An empty column gates after 50 us, emptying its cache part. -/
  | columnGate (t : Four) (col : Nat)
  /-- R316. A gated core or column finishes its 2 us wake. -/
  | coreWake (t : Four) (col : Nat) (tier : Four)
  /-- R273. A lease expires and its share returns to the column budget. -/
  | boostLeaseExpiry (gang member : Nat)
  /-- R266. A trap record is written to the trap ring once it has room. -/
  | trapRecordWrite (t : Four)
  /-- R327. A fault record is written to the fault ring once it has room. -/
  | faultRecordWrite (t : Four)
  /-- R326. A write to TRAPQ.CONS takes effect only between the old CONS and PROD. -/
  | trapqConsWrite (t : Four) (v : DWord)
  /-- R326. A write to FLTQ.CONS takes effect only between the old CONS and PROD. -/
  | fltqConsWrite (t : Four) (v : DWord)
  /-- R330. A reply block resumes the stopped strand at the code-dependent PC. -/
  | resume (t : Four) (block : DWord)
  /-- R331. A reply kills the launch in every named tower. -/
  | kill (t : Four) (block : DWord)
  /-- R330. A reply diverts the launch, or kills it when WRAP is 0. -/
  | divert (t : Four) (block : DWord)
  /-- R329. A fault reply replays attached units and resumes held copies. -/
  | retry (t : Four) (index : Word)
  /-- R329. A fault reply turns attached units into 0x09 traps and stops held copies with an error. -/
  | fail (t : Four) (index : Word)
  /-- R272. A group that has neither issued nor left a wait for the period traps with 0x3F. -/
  | watchdog (gang member grp : Nat)
  /-- R343. Tower time reaches the divert instant and the launch is diverted. -/
  | divertInstant (t : Four) (launch : Nat)
  /-- R344. Another named tower diverts within 2 us of a diversion arising elsewhere. -/
  | remoteDivert (t : Four) (launch : Nat)
  /-- R351. Tower time reaches DEADLINE and the launch is killed in that tower. -/
  | deadlineKill (t : Four) (launch : Nat)
  /-- R357. A write to ADMQ.TAIL publishes admin commands for execution in order. -/
  | admqTailWrite (t : Four) (v : DWord)
  /-- R358. Creates an address space with its root table. -/
  | createSpace (t : Four)
  /-- R122. Destroys an address space, evicting its accumulator lines. -/
  | destroySpace (t : Four)
  /-- R279. Creates a user queue with its ring and QCB. -/
  | createQueue (t : Four)
  /-- R358. Destroys an idle user queue. -/
  | destroyQueue (t : Four)
  /-- R358. Binds a hardware work queue to an address space and restarts SEQ. -/
  | bindWq (t : Four)
  /-- R377. Configures the trap or fault ring, writing held records into it. -/
  | setRing (t : Four)
  /-- R324. Evicts, writes back, waits and drops cached translations of a range. -/
  | xlateInval (t : Four)
  /-- R23. Sets a column's scratch carve-out, writing back its cache part. -/
  | setCarveout (t : Four)
  /-- R358. Sets the number of hardware queue slots. -/
  | setSlots (t : Four)
  /-- R358. Sets the watchdog period. -/
  | setWatchdog (t : Four)
  /-- R371. Sets the valve law coefficients of a layer. -/
  | setValves (t : Four)
  /-- R371. Sets a stack's HBM frequency policy. -/
  | setHbm (t : Four)
  /-- R359. Marks or clears columns as draining. -/
  | drain (t : Four)
  /-- R365. Tests a unit once its column is empty and draining. -/
  | selfTest (t : Four) (verdict : TestVerdict)
  /-- R366. Tests and remaps a grid row's vertical connections, writing a log. -/
  | stackTest (t : Four) (failing : List ConnFail)
  /-- R113. Enters or leaves maintenance mode. -/
  | maint (t : Four)
  /-- R367. Sets the module id and enabled Wasko ports. -/
  | setLink (t : Four)
  /-- R368. Opens an inbound window onto an address space's VA range. -/
  | openWindow (t : Four)
  /-- R368. Closes an inbound window not in use. -/
  | closeWindow (t : Four)
  /-- R369. Verifies and installs a signed firmware patch. -/
  | patch (t : Four)
  /-- R370. Writes a signed attestation report. -/
  | attest (t : Four)
  /-- R361. Restarts the module, optionally clearing the failed-start count. -/
  | restart (t : Four) (starts : List (Quad TowerStart))
  /-- R368. A write to LINKQ.TAIL publishes link-queue descriptors. -/
  | linkqTailWrite (t : Four) (v : DWord)
  /-- R368. An outbound descriptor's transfer is striped across ports that are up. -/
  | linkTransfer (t : Four) (slot : Nat)
  /-- R374. A transfer ends, writing its completion word and advancing LINKQ.HEAD. -/
  | linkTransferComplete (t : Four) (slot : Nat) (status : Byte) (data : List Byte)
  /-- R368. An inbound peer access is translated in its window's space and performed at system scope. -/
  | peerAccess (t : Four) (win : Byte) (peer : Half) (off : DWord) (len : Nat) (write : Option (List Byte))
  /-- R367. A port whose CRC retries exceed the limit over 1 s goes down. -/
  | portDown (t : Four) (port : Four) (retries : Word)
  /-- R367. A Wasko port changes state and raises the link interrupt. -/
  | portStateChange (t : Four) (port : Four) (state : BitVec 2) (peersw : Half)
  /-- R360. The leader rewrites the lease expiry every 2 ms. -/
  | leaseRenew (t : Four)
  /-- R360. A follower claims a lapsed lease after its rank delay. -/
  | leaseClaim (t : Four)
  /-- R361. Towers enter maintenance mode and step through self-test, training and links to READY. -/
  | reset (starts : List (Quad TowerStart))
  /-- R361. READY not reached by all towers within 5 s fails the start. -/
  | startTimeout (starts : List (Quad TowerStart))
  /-- R341. A relayed 1588 sample disciplines tower time and may lock or lose lock. -/
  | ptpSample (t : Four) (reference : Nat)
  /-- R341. A locked tower loses lock after 10 ms without a sample. -/
  | lockTimeout (t : Four)
  /-- R364. An ECC or CRC error is corrected or kills the launch, and is logged. -/
  | errorDetected (t : Four) (e : ErrorEvent)
  /-- R365. After an error, a unit is tested once empty and returned or retired. -/
  | targetedSelfTest (t : Four) (unit index : Byte) (verdict : TestVerdict)
  /-- R10. A host write to a register with no row of its own sets RW fields and clears W1C bits. -/
  | registerWrite (t : Four) (off : BitVec 18) (size : Nat) (v : DWord)
  /-- R292. A queue map into a slot completes: the held or latched tail is applied, PENDING cleared, the SRT measurement of the preceding unmap closed and the dispatcher started. -/
  | queueMapComplete (t : Four) (queue : Nat)
  /-- R359. A SELF_TEST or STACK_TEST whose columns are not empty and draining within 100 ms fails with COLUMN_BUSY. -/
  | selfTestTimeout (t : Four)
  /-- R361. Loss of power clears BOOTSTAT.FAILS and the accepted patch, which otherwise survive resets. -/
  | powerLoss
  /-- R103. The host die reads or writes device memory over UCIe as a system-scope agent, with its releases and acquires. -/
  | hostAccess (asid : Half) (va : DWord) (len : Nat) (write : Option (List Byte))
deriving DecidableEq, Repr

end Sys2Proof
end

