-- ==== Sys2Proof/Machine/Legal.lean ====
section
/-!
DEFINITION. What the field values of a word name (R69, R83, R141, R147, R155, R156, R196), and which values are illegal
(R157, R143) or reserved (R158). Reserved bits that no field of the instruction shows are the decoder's.
-/

namespace Sys2Proof.Machine

/-- The special registers of R196. -/
inductive SReg where
  | lane | tid | bead | strand | role | wgx | wgy | wgz | stage | gang | gangpos | ngx | ngy | ngz | nstage | sbase
  | col | tier | tower | ratio | shape (k : Four) | bucket | padx | pady | dpc | why
deriving DecidableEq, Repr

/-- R196, by code10. -/
def SReg.ofCode (c : BitVec 10) : Option SReg :=
  match c.toNat with
  | 0x000 => some .lane
  | 0x001 => some .tid
  | 0x002 => some .bead
  | 0x003 => some .strand
  | 0x004 => some .role
  | 0x008 => some .wgx
  | 0x009 => some .wgy
  | 0x00A => some .wgz
  | 0x00B => some .stage
  | 0x00C => some .gang
  | 0x00D => some .gangpos
  | 0x010 => some .ngx
  | 0x011 => some .ngy
  | 0x012 => some .ngz
  | 0x013 => some .nstage
  | 0x014 => some .sbase
  | 0x018 => some .col
  | 0x019 => some .tier
  | 0x01A => some .tower
  | 0x01B => some .ratio
  | 0x020 => some (.shape 0)
  | 0x021 => some (.shape 1)
  | 0x022 => some (.shape 2)
  | 0x023 => some (.shape 3)
  | 0x024 => some .bucket
  | 0x025 => some .padx
  | 0x026 => some .pady
  | 0x030 => some .dpc
  | 0x031 => some .why
  | _ => none

/-- Kind V: one value per lane (R196). -/
def SReg.perLane : SReg → Bool
  | .lane | .tid => true
  | _ => false

/-- Access RW (R196). -/
def SReg.writable : SReg → Bool
  | .dpc | .why => true
  | _ => false

/-- Register groups are named by a multiple of their size (R143). -/
def aligned (r : Reg) (k : Nat) : Bool := r.toNat % k == 0

/-- Registers an access of size code z moves (R156, R218). -/
def sizeRegs (z : BitVec 3) : Nat := if z == 4 then 4 else if z == 3 then 2 else 1

/-- Bytes of an access of size code z (R156). -/
def sizeBytes (z : BitVec 3) : Nat := 2 ^ z.toNat

/-- Registers that VATOM's operand group holds (R223). -/
def atomRegs (op : BitVec 5) : Nat :=
  if op == 13 then 4 else if op == 1 || op == 11 || op == 12 then 2 else 1

/-- Registers that VATOM writes (R223). -/
def atomDests (op : BitVec 5) : Nat := if op == 13 || op == 1 || op == 11 then 2 else 1

/-- Registers that VCVT fn reads from a; 0 for those that FMT decides (R82). -/
def cvtSrcs (fn : BitVec 5) : Nat :=
  match fn.toNat with
  | 8 | 9 | 22 | 23 | 26 => 4
  | 12 => 8
  | 14 => 2
  | 29 => 0
  | _ => 1

/-- Registers that VCVT fn writes at d; 0 for those that FMT decides (R82). -/
def cvtDests (fn : BitVec 5) : Nat :=
  match fn.toNat with
  | 6 | 7 | 15 => 2
  | 10 | 11 | 16 | 17 | 24 | 25 => 4
  | 13 => 8
  | 30 => 0
  | _ => 1

/-- Groups of FMT-decided size are checked at execution (R211). -/
def groupOk (r : Reg) (k : Nat) : Bool := k == 0 || aligned r k

/-- Field values that R157 makes illegal (code 0x01). A VMOVS or SMOVV of a pair with the HI or SX bit set as well is the
reserved form of R194 and R195 whatever its register, so an odd register does not make it illegal (the model's choice, log 32). The
unassigned code10 of R192 is judged with these, at check 1 of R159, though R157 does not list it (the model's choice, log 32). -/
def illegalFields : Instr → Bool
  | .srd _ c => (SReg.ofCode c).isNone
  | .swr _ c => (SReg.ofCode c).isNone
  | .vmovs d _ pair hi => pair == 1 && hi == 0 && !aligned d 2
  | .smovv _ a pair sx _ _ => pair == 1 && sx == 0 && !aligned a 2
  | .vcvt d a _ _ fn => fn == 31 || !groupOk a (cvtSrcs fn) || !groupOk d (cvtDests fn)
  | .vreds _ _ op _ => decide (11 ≤ op.toNat)
  | .vscan _ _ _ op _ => decide (11 ≤ op.toNat)
  | .vld d _ _ _ _ _ z => decide (4 < z.toNat) || !aligned d (sizeRegs z)
  | .vst d _ _ _ _ z => decide (4 < z.toNat) || !aligned d (sizeRegs z)
  | .sld _ _ _ _ _ z => decide (3 < z.toNat)
  | .sst _ _ _ _ z => decide (3 < z.toNat)
  | .vlds d _ _ _ _ z => decide (4 < z.toNat) || !aligned d (sizeRegs z)
  | .vsts d _ _ _ z => decide (4 < z.toNat) || !aligned d (sizeRegs z)
  | .vatom d _ _ _ op => decide (15 ≤ op.toNat) || !aligned d (atomRegs op)
  | .vred d _ _ _ op => decide (10 ≤ op.toNat) || (op == 2 && !aligned d 2)
  | _ => false

/-- Scope codes 6 and 7 are reserved (R147). -/
def badScope (s : BitVec 3) : Bool := decide (6 ≤ s.toNat)

/-- Field values that R158, or the instruction's own rule, makes reserved (code 0x02). -/
def reservedFields : Instr → Bool
  | .vmovs _ _ pair hi => pair == 1 && hi == 1
  | .smovv _ _ pair sx low k => (pair == 1 && sx == 1) || (low == 1 && k != 0)
  | .vcvt _ _ b _ fn => b != 0 && !(fn == 2 || fn == 3)
  | .vld _ _ _ _ _ sx z => sx == 1 && decide (2 ≤ z.toNat)
  | .sld _ _ _ _ sx z => sx == 1 && decide (3 ≤ z.toNat)
  | .vlds _ _ _ _ sx z => sx == 1 && decide (2 ≤ z.toNat)
  | .vatom _ _ _ scope _ => badScope scope
  | .vred _ _ _ scope _ => badScope scope
  | .fence acq rel scope => badScope scope || (acq == 0 && rel == 0)
  | .settle scope => badScope scope
  | .tcfg td _ target => decide (3 ≤ target.toNat) || (target != 0 && td != 0)
  | .tmma _ _ _ scope => badScope scope
  | .tmmas _ _ _ scope => badScope scope
  | .bgemv _ _ scope _ => badScope scope
  | .bara _ _ scr scope => badScope scope || (scr == 1 && decide (3 ≤ scope.toNat))
  | .barw _ _ scr scope => badScope scope || (scr == 1 && decide (3 ≤ scope.toNat))
  | .bar _ _ scr scope => badScope scope || (scr == 1 && decide (3 ≤ scope.toNat))
  | .sigw _ _ cond scope => badScope scope || cond == 3
  | .sigp _ _ _ scope => badScope scope
  | .boost _ us => decide (1000 < us.toNat)
  | .pfxM _ _ rnd _ cache => decide (6 ≤ rnd.toNat) || cache == 3
  | .pfxH branch _ _ => branch == 3
  | _ => false

end Sys2Proof.Machine
end

