-- ==== Sys2Proof/WellFormed.lean ====
section
/-!
DEFINITION. A well-formed instruction: one whose fields hold no value that R157 makes illegal or R158 reserved. A step of
the hardware, which has no word, is well formed whatever it names.
-/

namespace Sys2Proof

/-- Every field holds a value the manual gives a meaning. -/
def Instr.wellFormed (i : Instr) : Bool := !Machine.illegalFields i && !Machine.reservedFields i

end Sys2Proof
end

