-- ==== Sys2Proof/Decode.lean ====
section
/-!
DEFINITION. Decoding (R139 to R159): the fields of a word by its form (R140), the instruction they name by the opcode map
(R155, R156), and whether the word is illegal (R157) or holds a reserved value (R158). The encoder follows, written from
the same tables, then the words laid out in memory (R6, R139).
-/

namespace Sys2Proof

/-! ### The forms of R140 -/

def formA (maj d a b : BitVec 6) (g : BitVec 3) (fn : BitVec 5) : Word := maj ++ d ++ a ++ b ++ g ++ fn
def formB (maj d a : BitVec 6) (g fn : BitVec 3) (imm : BitVec 8) : Word := maj ++ d ++ a ++ g ++ fn ++ imm
def formC (maj : BitVec 6) (g fn : BitVec 3) (off : BitVec 20) : Word := maj ++ g ++ fn ++ off
def formS (maj d a : BitVec 6) (c : BitVec 10) (fn : BitVec 4) : Word := maj ++ d ++ a ++ c ++ fn
def formT (maj : BitVec 6) (td ta tb : BitVec 3) (s : BitVec 6) (ctl : BitVec 7) (fn : BitVec 4) : Word :=
  maj ++ td ++ ta ++ tb ++ s ++ ctl ++ fn
def formP (maj : BitVec 6) (kind : BitVec 2) (payload : BitVec 24) : Word := maj ++ kind ++ payload

def major (w : Word) : BitVec 6 := w.extractLsb' 26 6
def fieldD (w : Word) : BitVec 6 := w.extractLsb' 20 6
def fieldA (w : Word) : BitVec 6 := w.extractLsb' 14 6
def fieldB (w : Word) : BitVec 6 := w.extractLsb' 8 6
def guardA (w : Word) : BitVec 3 := w.extractLsb' 5 3
def fnA (w : Word) : BitVec 5 := w.extractLsb' 0 5
def guardB (w : Word) : BitVec 3 := w.extractLsb' 11 3
def fnB (w : Word) : BitVec 3 := w.extractLsb' 8 3
def imm8 (w : Word) : BitVec 8 := w.extractLsb' 0 8
def guardC (w : Word) : BitVec 3 := w.extractLsb' 23 3
def fnC (w : Word) : BitVec 3 := w.extractLsb' 20 3
def offC (w : Word) : BitVec 20 := w.extractLsb' 0 20
def code10 (w : Word) : BitVec 10 := w.extractLsb' 4 10
def fnS (w : Word) : BitVec 4 := w.extractLsb' 0 4
def fieldTd (w : Word) : BitVec 3 := w.extractLsb' 23 3
def fieldTa (w : Word) : BitVec 3 := w.extractLsb' 20 3
def fieldTb (w : Word) : BitVec 3 := w.extractLsb' 17 3
def fieldTs (w : Word) : BitVec 6 := w.extractLsb' 11 6
def fieldCtl (w : Word) : BitVec 7 := w.extractLsb' 4 7
def kindP (w : Word) : BitVec 2 := w.extractLsb' 24 2
def payload (w : Word) : BitVec 24 := w.extractLsb' 0 24

/-! ### The decoder -/

/-- What a word is: an instruction; one whose fields hold a reserved value or whose unused bits are not zero (code 0x02,
after the prefixes are judged, R159); or no instruction at all (code 0x01). -/
inductive Decoded where
  | ok (i : Instr)
  | reserved (i : Instr)
  | illegal
deriving DecidableEq, Repr

/-- The verdict on a word that names instruction i, `clean` when its unused bits are zero. -/
def verdict (clean : Bool) (i : Instr) : Decoded :=
  if Machine.illegalFields i then .illegal
  else if clean && !Machine.reservedFields i then .ok i
  else .reserved i

/-- Major 0x00: control branches (R155). -/
def decode00 (w : Word) : Decoded :=
  match (fnC w).toNat with
  | 0 => verdict true (.bra (guardC w) (offC w))
  | 1 => verdict true (.br (guardC w) (offC w))
  | 2 => verdict true (.brany (guardC w) (offC w))
  | 3 => verdict true (.brall (guardC w) (offC w))
  | 4 => verdict true (.call (guardC w) (offC w))
  | _ => .illegal

/-- Major 0x01: transfers (R155). -/
def decode01 (w : Word) : Decoded :=
  match (fnA w).toNat with
  | 0 => verdict (fieldD w == 0 && fieldA w == 0 && fieldB w == 0) (.ret (guardA w))
  | 1 => verdict (fieldD w == 0 && fieldB w == 0) (.jmpr (fieldA w) (guardA w))
  | 2 => verdict (fieldD w == 0 && fieldB w == 0) (.callr (fieldA w) (guardA w))
  | 3 => verdict (fieldD w == 0 && fieldA w == 0 && fieldB w == 0 && guardA w == 0) .join
  | 4 => verdict (fieldD w == 0 && fieldA w == 0 && fieldB w == 0) (.exit (guardA w))
  | 5 => verdict (fieldD w == 0 && fieldA w == 0 && fieldB w == 0 && guardA w == 0) (.clasp)
  | 6 => verdict (fieldD w == 0 && fieldA w == 0 && fieldB w == 0 && guardA w == 0) (.yield)
  | 7 => verdict (fieldD w == 0 && fieldA w == 0 && fieldB w == 0 && guardA w == 0) (.nop)
  | _ => .illegal

/-- Major 0x02: scalar (R155). -/
def decode02 (w : Word) : Decoded :=
  match (fnA w).toNat with
  | 0 => verdict true (.sadd (fieldD w) (fieldA w) (fieldB w) (guardA w))
  | 1 => verdict true (.ssub (fieldD w) (fieldA w) (fieldB w) (guardA w))
  | 2 => verdict true (.smul (fieldD w) (fieldA w) (fieldB w) (guardA w))
  | 3 => verdict true (.smulh (fieldD w) (fieldA w) (fieldB w) (guardA w))
  | 4 => verdict true (.smulhn (fieldD w) (fieldA w) (fieldB w) (guardA w))
  | 5 => verdict true (.sdiv (fieldD w) (fieldA w) (fieldB w) (guardA w))
  | 6 => verdict true (.sdivn (fieldD w) (fieldA w) (fieldB w) (guardA w))
  | 7 => verdict true (.srem (fieldD w) (fieldA w) (fieldB w) (guardA w))
  | 8 => verdict true (.sremn (fieldD w) (fieldA w) (fieldB w) (guardA w))
  | 9 => verdict true (.sand (fieldD w) (fieldA w) (fieldB w) (guardA w))
  | 10 => verdict true (.sor (fieldD w) (fieldA w) (fieldB w) (guardA w))
  | 11 => verdict true (.sxor (fieldD w) (fieldA w) (fieldB w) (guardA w))
  | 12 => verdict true (.sshl (fieldD w) (fieldA w) (fieldB w) (guardA w))
  | 13 => verdict true (.sshr (fieldD w) (fieldA w) (fieldB w) (guardA w))
  | 14 => verdict true (.ssra (fieldD w) (fieldA w) (fieldB w) (guardA w))
  | 15 => verdict true (.smin (fieldD w) (fieldA w) (fieldB w) (guardA w))
  | 16 => verdict true (.smax (fieldD w) (fieldA w) (fieldB w) (guardA w))
  | 17 => verdict true (.sminn (fieldD w) (fieldA w) (fieldB w) (guardA w))
  | 18 => verdict true (.smaxn (fieldD w) (fieldA w) (fieldB w) (guardA w))
  | 19 => verdict true (.sseq (fieldD w) (fieldA w) (fieldB w) (guardA w))
  | 20 => verdict true (.sslt (fieldD w) (fieldA w) (fieldB w) (guardA w))
  | 21 => verdict true (.ssltn (fieldD w) (fieldA w) (fieldB w) (guardA w))
  | 22 => verdict true (.ssel (fieldD w) (fieldA w) (fieldB w) (guardA w))
  | _ => .illegal

/-- Major 0x03: scalar immediate (R155). -/
def decode03 (w : Word) : Decoded :=
  match (fnB w).toNat with
  | 0 => verdict true (.saddi (fieldD w) (fieldA w) (guardB w) (imm8 w))
  | 1 => verdict true (.sandi (fieldD w) (fieldA w) (guardB w) (imm8 w))
  | 2 => verdict true (.sori (fieldD w) (fieldA w) (guardB w) (imm8 w))
  | 3 => verdict true (.sxori (fieldD w) (fieldA w) (guardB w) (imm8 w))
  | 4 => verdict true (.sshli (fieldD w) (fieldA w) (guardB w) (imm8 w))
  | 5 => verdict true (.sshri (fieldD w) (fieldA w) (guardB w) (imm8 w))
  | 6 => verdict true (.ssrai (fieldD w) (fieldA w) (guardB w) (imm8 w))
  | 7 => verdict (fieldA w == 0) (.sli (fieldD w) (guardB w) (imm8 w))
  | _ => .illegal

/-- Major 0x04: moves (R155). -/
def decode04 (w : Word) : Decoded :=
  match (fnS w).toNat with
  | 0 => verdict (fieldA w == 0) (.srd (fieldD w) (code10 w))
  | 1 => verdict (fieldD w == 0) (.swr (fieldA w) (code10 w))
  | 2 => verdict ((code10 w).extractLsb' 2 8 == 0) (.vmovs (fieldD w) (fieldA w) ((code10 w).extractLsb' 1 1) ((code10 w).extractLsb' 0 1))
  | 3 => verdict ((code10 w).extractLsb' 5 5 == 0) (.smovv (fieldD w) (fieldA w) ((code10 w).extractLsb' 4 1) ((code10 w).extractLsb' 3 1) ((code10 w).extractLsb' 2 1) ((code10 w).extractLsb' 0 2))
  | 4 => verdict (fieldD w == 0 && code10 w == 0) (.sfmt (fieldA w))
  | _ => .illegal

/-- Major 0x06: vector integer (R155). -/
def decode06 (w : Word) : Decoded :=
  match (fnA w).toNat with
  | 0 => verdict true (.vadd (fieldD w) (fieldA w) (fieldB w) (guardA w))
  | 1 => verdict true (.vsub (fieldD w) (fieldA w) (fieldB w) (guardA w))
  | 2 => verdict true (.vmul (fieldD w) (fieldA w) (fieldB w) (guardA w))
  | 3 => verdict true (.vmulh (fieldD w) (fieldA w) (fieldB w) (guardA w))
  | 4 => verdict true (.vmulhn (fieldD w) (fieldA w) (fieldB w) (guardA w))
  | 5 => verdict true (.vmad (fieldD w) (fieldA w) (fieldB w) (guardA w))
  | 6 => verdict true (.vand (fieldD w) (fieldA w) (fieldB w) (guardA w))
  | 7 => verdict true (.vor (fieldD w) (fieldA w) (fieldB w) (guardA w))
  | 8 => verdict true (.vxor (fieldD w) (fieldA w) (fieldB w) (guardA w))
  | 9 => verdict true (.vandn (fieldD w) (fieldA w) (fieldB w) (guardA w))
  | 10 => verdict true (.vshl (fieldD w) (fieldA w) (fieldB w) (guardA w))
  | 11 => verdict true (.vshr (fieldD w) (fieldA w) (fieldB w) (guardA w))
  | 12 => verdict true (.vsra (fieldD w) (fieldA w) (fieldB w) (guardA w))
  | 13 => verdict true (.vmin (fieldD w) (fieldA w) (fieldB w) (guardA w))
  | 14 => verdict true (.vmax (fieldD w) (fieldA w) (fieldB w) (guardA w))
  | 15 => verdict true (.vminn (fieldD w) (fieldA w) (fieldB w) (guardA w))
  | 16 => verdict true (.vmaxn (fieldD w) (fieldA w) (fieldB w) (guardA w))
  | 17 => verdict (fieldB w == 0) (.vabs (fieldD w) (fieldA w) (guardA w))
  | 18 => verdict (fieldB w == 0) (.vneg (fieldD w) (fieldA w) (guardA w))
  | 19 => verdict (fieldB w == 0) (.vpopc (fieldD w) (fieldA w) (guardA w))
  | 20 => verdict (fieldB w == 0) (.vclz (fieldD w) (fieldA w) (guardA w))
  | 21 => verdict (fieldB w == 0) (.vbrev (fieldD w) (fieldA w) (guardA w))
  | 22 => verdict true (.vsel (fieldD w) (fieldA w) (fieldB w) (guardA w))
  | 23 => verdict (fieldB w == 0) (.vmov (fieldD w) (fieldA w) (guardA w))
  | _ => .illegal

/-- Major 0x07: vector immediate (R155). -/
def decode07 (w : Word) : Decoded :=
  match (fnB w).toNat with
  | 0 => verdict true (.vaddi (fieldD w) (fieldA w) (guardB w) (imm8 w))
  | 1 => verdict true (.vandi (fieldD w) (fieldA w) (guardB w) (imm8 w))
  | 2 => verdict true (.vori (fieldD w) (fieldA w) (guardB w) (imm8 w))
  | 3 => verdict true (.vxori (fieldD w) (fieldA w) (guardB w) (imm8 w))
  | 4 => verdict true (.vshli (fieldD w) (fieldA w) (guardB w) (imm8 w))
  | 5 => verdict true (.vshri (fieldD w) (fieldA w) (guardB w) (imm8 w))
  | 6 => verdict true (.vsrai (fieldD w) (fieldA w) (guardB w) (imm8 w))
  | 7 => verdict (fieldA w == 0) (.vli (fieldD w) (guardB w) (imm8 w))
  | _ => .illegal

/-- Major 0x08: comparisons and predicates (R155). -/
def decode08 (w : Word) : Decoded :=
  match (fnA w).toNat with
  | 0 => verdict ((fieldD w).extractLsb' 3 3 == 0) (.vseq ((fieldD w).extractLsb' 0 3) (fieldA w) (fieldB w) (guardA w))
  | 1 => verdict ((fieldD w).extractLsb' 3 3 == 0) (.vsne ((fieldD w).extractLsb' 0 3) (fieldA w) (fieldB w) (guardA w))
  | 2 => verdict ((fieldD w).extractLsb' 3 3 == 0) (.vslt ((fieldD w).extractLsb' 0 3) (fieldA w) (fieldB w) (guardA w))
  | 3 => verdict ((fieldD w).extractLsb' 3 3 == 0) (.vsle ((fieldD w).extractLsb' 0 3) (fieldA w) (fieldB w) (guardA w))
  | 4 => verdict ((fieldD w).extractLsb' 3 3 == 0) (.vsltn ((fieldD w).extractLsb' 0 3) (fieldA w) (fieldB w) (guardA w))
  | 5 => verdict ((fieldD w).extractLsb' 3 3 == 0) (.vslen ((fieldD w).extractLsb' 0 3) (fieldA w) (fieldB w) (guardA w))
  | 6 => verdict ((fieldD w).extractLsb' 3 3 == 0) (.vfseq ((fieldD w).extractLsb' 0 3) (fieldA w) (fieldB w) (guardA w))
  | 7 => verdict ((fieldD w).extractLsb' 3 3 == 0) (.vfsne ((fieldD w).extractLsb' 0 3) (fieldA w) (fieldB w) (guardA w))
  | 8 => verdict ((fieldD w).extractLsb' 3 3 == 0) (.vfslt ((fieldD w).extractLsb' 0 3) (fieldA w) (fieldB w) (guardA w))
  | 9 => verdict ((fieldD w).extractLsb' 3 3 == 0) (.vfsle ((fieldD w).extractLsb' 0 3) (fieldA w) (fieldB w) (guardA w))
  | 10 => verdict ((fieldD w).extractLsb' 3 3 == 0) (.vfsun ((fieldD w).extractLsb' 0 3) (fieldA w) (fieldB w) (guardA w))
  | 11 => verdict ((fieldD w).extractLsb' 3 3 == 0 && (fieldA w).extractLsb' 3 3 == 0 && (fieldB w).extractLsb' 3 3 == 0) (.pand ((fieldD w).extractLsb' 0 3) ((fieldA w).extractLsb' 0 3) ((fieldB w).extractLsb' 0 3) (guardA w))
  | 12 => verdict ((fieldD w).extractLsb' 3 3 == 0 && (fieldA w).extractLsb' 3 3 == 0 && (fieldB w).extractLsb' 3 3 == 0) (.por ((fieldD w).extractLsb' 0 3) ((fieldA w).extractLsb' 0 3) ((fieldB w).extractLsb' 0 3) (guardA w))
  | 13 => verdict ((fieldD w).extractLsb' 3 3 == 0 && (fieldA w).extractLsb' 3 3 == 0 && (fieldB w).extractLsb' 3 3 == 0) (.pxor ((fieldD w).extractLsb' 0 3) ((fieldA w).extractLsb' 0 3) ((fieldB w).extractLsb' 0 3) (guardA w))
  | 14 => verdict ((fieldD w).extractLsb' 3 3 == 0 && (fieldA w).extractLsb' 3 3 == 0 && (fieldB w).extractLsb' 3 3 == 0) (.pandn ((fieldD w).extractLsb' 0 3) ((fieldA w).extractLsb' 0 3) ((fieldB w).extractLsb' 0 3) (guardA w))
  | 15 => verdict ((fieldD w).extractLsb' 3 3 == 0 && (fieldA w).extractLsb' 3 3 == 0 && fieldB w == 0) (.pmov ((fieldD w).extractLsb' 0 3) ((fieldA w).extractLsb' 0 3) (guardA w))
  | _ => .illegal

/-- Major 0x09: bit fields (R155). -/
def decode09 (w : Word) : Decoded :=
  match (fnA w).toNat with
  | 0 => verdict true (.vbfe (fieldD w) (fieldA w) (fieldB w) (guardA w))
  | 1 => verdict true (.vbfes (fieldD w) (fieldA w) (fieldB w) (guardA w))
  | 2 => verdict true (.vbfi (fieldD w) (fieldA w) (fieldB w) (guardA w))
  | _ => .illegal

/-- Major 0x0A: FP32 (R155). -/
def decode0A (w : Word) : Decoded :=
  match (fnA w).toNat with
  | 0 => verdict true (.vfadd (fieldD w) (fieldA w) (fieldB w) (guardA w))
  | 1 => verdict true (.vfsub (fieldD w) (fieldA w) (fieldB w) (guardA w))
  | 2 => verdict true (.vfmul (fieldD w) (fieldA w) (fieldB w) (guardA w))
  | 3 => verdict true (.vfma (fieldD w) (fieldA w) (fieldB w) (guardA w))
  | 4 => verdict true (.vfms (fieldD w) (fieldA w) (fieldB w) (guardA w))
  | 5 => verdict true (.vfnma (fieldD w) (fieldA w) (fieldB w) (guardA w))
  | 6 => verdict true (.vfmin (fieldD w) (fieldA w) (fieldB w) (guardA w))
  | 7 => verdict true (.vfmax (fieldD w) (fieldA w) (fieldB w) (guardA w))
  | 8 => verdict (fieldB w == 0) (.vfabs (fieldD w) (fieldA w) (guardA w))
  | 9 => verdict (fieldB w == 0) (.vfneg (fieldD w) (fieldA w) (guardA w))
  | 10 => verdict true (.vfcps (fieldD w) (fieldA w) (fieldB w) (guardA w))
  | 11 => verdict (fieldB w == 0) (.vfrnd (fieldD w) (fieldA w) (guardA w))
  | 12 => verdict (fieldB w == 0) (.vfcls (fieldD w) (fieldA w) (guardA w))
  | _ => .illegal

/-- Major 0x0B: packed halves (R155). -/
def decode0B (w : Word) : Decoded :=
  match ((fnA w).extractLsb' 0 4).toNat with
  | 0 => verdict true (.vhadd (fieldD w) (fieldA w) (fieldB w) (guardA w) ((fnA w).extractLsb' 4 1))
  | 1 => verdict true (.vhsub (fieldD w) (fieldA w) (fieldB w) (guardA w) ((fnA w).extractLsb' 4 1))
  | 2 => verdict true (.vhmul (fieldD w) (fieldA w) (fieldB w) (guardA w) ((fnA w).extractLsb' 4 1))
  | 3 => verdict true (.vhfma (fieldD w) (fieldA w) (fieldB w) (guardA w) ((fnA w).extractLsb' 4 1))
  | 4 => verdict true (.vhmin (fieldD w) (fieldA w) (fieldB w) (guardA w) ((fnA w).extractLsb' 4 1))
  | 5 => verdict true (.vhmax (fieldD w) (fieldA w) (fieldB w) (guardA w) ((fnA w).extractLsb' 4 1))
  | _ => .illegal

/-- Major 0x0C: special functions (R155). -/
def decode0C (w : Word) : Decoded :=
  match (fnA w).toNat with
  | 0 => verdict (fieldB w == 0) (.vrcp (fieldD w) (fieldA w) (guardA w))
  | 1 => verdict (fieldB w == 0) (.vrsq (fieldD w) (fieldA w) (guardA w))
  | 2 => verdict (fieldB w == 0) (.vsqrt (fieldD w) (fieldA w) (guardA w))
  | 3 => verdict true (.vfdiv (fieldD w) (fieldA w) (fieldB w) (guardA w))
  | 4 => verdict (fieldB w == 0) (.vexp2 (fieldD w) (fieldA w) (guardA w))
  | 5 => verdict (fieldB w == 0) (.vlog2 (fieldD w) (fieldA w) (guardA w))
  | 6 => verdict (fieldB w == 0) (.vsin (fieldD w) (fieldA w) (guardA w))
  | 7 => verdict (fieldB w == 0) (.vcos (fieldD w) (fieldA w) (guardA w))
  | 8 => verdict (fieldB w == 0) (.vtanh (fieldD w) (fieldA w) (guardA w))
  | _ => .illegal

/-- Major 0x0E: cross-lane (R155). -/
def decode0E (w : Word) : Decoded :=
  match (fnA w).toNat with
  | 0 => verdict true (.vshfl (fieldD w) (fieldA w) (fieldB w) (guardA w))
  | 1 => verdict true (.vshflx (fieldD w) (fieldA w) (fieldB w) (guardA w))
  | 2 => verdict true (.vshflu (fieldD w) (fieldA w) (fieldB w) (guardA w))
  | 3 => verdict true (.vshfld (fieldD w) (fieldA w) (fieldB w) (guardA w))
  | 4 => verdict (fieldB w == 0) (.vbcst (fieldD w) (fieldA w) (guardA w))
  | 5 => verdict (fieldB w == 0) (.vvote (fieldD w) (fieldA w) (guardA w))
  | 6 => verdict ((fieldB w).extractLsb' 5 1 == 0) (.vreds (fieldD w) (fieldA w) ((fieldB w).extractLsb' 0 5) (guardA w))
  | 7 => verdict true (.vscan (fieldD w) (fieldA w) ((fieldB w).extractLsb' 5 1) ((fieldB w).extractLsb' 0 5) (guardA w))
  | _ => .illegal

/-- Major 0x12 (R156). -/
def decode12 (w : Word) : Decoded :=
  if (fnA w).extractLsb' 4 1 == 0 then verdict (true) (.sld (fieldD w) (fieldA w) (fieldB w) (guardA w) ((fnA w).extractLsb' 3 1) ((fnA w).extractLsb' 0 3))
  else verdict ((fnA w).extractLsb' 3 1 == 0) (.sst (fieldD w) (fieldA w) (fieldB w) (guardA w) ((fnA w).extractLsb' 0 3))

/-- Major 0x13 (R156): size 5 is the dequantising load, of VLDS only. -/
def decode13 (w : Word) : Decoded :=
  if (fnA w).extractLsb' 4 1 == 0 then
    if (fnA w).extractLsb' 0 3 == 5 then verdict ((fnA w).extractLsb' 3 1 == 0) (.vldsDq (fieldD w) (fieldA w) (fieldB w) (guardA w))
    else verdict (true) (.vlds (fieldD w) (fieldA w) (fieldB w) (guardA w) ((fnA w).extractLsb' 3 1) ((fnA w).extractLsb' 0 3))
  else verdict ((fnA w).extractLsb' 3 1 == 0) (.vsts (fieldD w) (fieldA w) (fieldB w) (guardA w) ((fnA w).extractLsb' 0 3))

/-- Major 0x16: fences (R155). -/
def decode16 (w : Word) : Decoded :=
  match (fnS w).toNat with
  | 0 => verdict (fieldD w == 0 && fieldA w == 0 && (code10 w).extractLsb' 5 5 == 0) (.fence ((code10 w).extractLsb' 4 1) ((code10 w).extractLsb' 3 1) ((code10 w).extractLsb' 0 3))
  | 1 => verdict (fieldD w == 0 && fieldA w == 0 && (code10 w).extractLsb' 3 7 == 0) (.settle ((code10 w).extractLsb' 0 3))
  | 2 => verdict ((code10 w).extractLsb' 6 4 == 0) (.wait (fieldD w) (fieldA w) ((code10 w).extractLsb' 0 6))
  | _ => .illegal

/-- Major 0x18: copies (R155). -/
def decode18 (w : Word) : Decoded :=
  match (fnS w).toNat with
  | 0 => verdict (code10 w == 0) (.acopy (fieldD w) (fieldA w))
  | 1 => verdict (code10 w == 0) (.acopyo (fieldD w) (fieldA w))
  | 2 => verdict (code10 w == 0) (.acopyt (fieldD w) (fieldA w))
  | 3 => verdict ((code10 w).extractLsb' 6 4 == 0) (.acopyg (fieldD w) (fieldA w) ((code10 w).extractLsb' 0 6))
  | 4 => verdict (fieldA w == 0 && code10 w == 0) (.cclose (fieldD w))
  | 5 => verdict (fieldD w == 0 && code10 w == 0) (.cwait (fieldA w))
  | _ => .illegal

/-- Major 0x1A: tile configuration (R155). -/
def decode1A (w : Word) : Decoded :=
  match (fnS w).toNat with
  | 0 => verdict (fieldTa w == 0 && fieldTb w == 0 && (fieldCtl w).extractLsb' 3 4 == 0) (.tcfg (fieldTd w) (fieldTs w) ((fieldCtl w).extractLsb' 0 3))
  | 1 => verdict ((fieldTd w).extractLsb' 2 1 == 0 && fieldTa w == 0 && fieldTb w == 0 && (fieldCtl w).extractLsb' 1 6 == 0) (.tcb ((fieldTd w).extractLsb' 0 2) (fieldTs w) ((fieldCtl w).extractLsb' 0 1))
  | 2 => verdict (fieldTa w == 0 && fieldTb w == 0 && fieldTs w == 0 && fieldCtl w == 0) (.tzero (fieldTd w))
  | _ => .illegal

/-- Major 0x1B: tile loads and stores (R155). -/
def decode1B (w : Word) : Decoded :=
  match (fnS w).toNat with
  | 0 => verdict (fieldTa w == 0 && fieldTb w == 0 && (fieldCtl w).extractLsb' 2 5 == 0) (.tld (fieldTd w) (fieldTs w) ((fieldCtl w).extractLsb' 1 1) ((fieldCtl w).extractLsb' 0 1))
  | 1 => verdict (fieldTd w == 0 && fieldTb w == 0 && (fieldCtl w).extractLsb' 2 5 == 0) (.tst (fieldTa w) (fieldTs w) ((fieldCtl w).extractLsb' 1 1) ((fieldCtl w).extractLsb' 0 1))
  | 2 => verdict (fieldTa w == 0 && fieldTb w == 0 && (fieldCtl w).extractLsb' 1 6 == 0) (.tldt (fieldTd w) (fieldTs w) ((fieldCtl w).extractLsb' 0 1))
  | _ => .illegal

/-- Major 0x1C: matrix products (R155). -/
def decode1C (w : Word) : Decoded :=
  match (fnS w).toNat with
  | 0 => verdict (fieldTd w == 0 && (fieldCtl w).extractLsb' 3 4 == 0) (.tmma (fieldTa w) (fieldTb w) (fieldTs w) ((fieldCtl w).extractLsb' 0 3))
  | 1 => verdict (fieldTs w == 0) (.tmmab (fieldTd w) (fieldTa w) (fieldTb w) ((fieldCtl w).extractLsb' 6 1) ((fieldCtl w).extractLsb' 3 3) ((fieldCtl w).extractLsb' 0 3))
  | 2 => verdict (fieldTd w == 0 && (fieldCtl w).extractLsb' 3 4 == 0) (.tmmas (fieldTa w) (fieldTb w) (fieldTs w) ((fieldCtl w).extractLsb' 0 3))
  | 3 => verdict (fieldTs w == 0) (.tmmasb (fieldTd w) (fieldTa w) (fieldTb w) ((fieldCtl w).extractLsb' 6 1) ((fieldCtl w).extractLsb' 3 3) ((fieldCtl w).extractLsb' 0 3))
  | _ => .illegal

/-- Major 0x1D: quantiser (R155). -/
def decode1D (w : Word) : Decoded :=
  match (fnS w).toNat with
  | 0 => verdict (fieldTa w == 0 && fieldTb w == 0 && (fieldCtl w).extractLsb' 1 6 == 0) (.tquant (fieldTd w) (fieldTs w) ((fieldCtl w).extractLsb' 0 1))
  | 1 => verdict (fieldTa w == 0 && fieldTb w == 0 && (fieldCtl w).extractLsb' 1 6 == 0) (.tqcb (fieldTd w) (fieldTs w) ((fieldCtl w).extractLsb' 0 1))
  | _ => .illegal

/-- Major 0x20: bank units (R155). -/
def decode20 (w : Word) : Decoded :=
  match (fnS w).toNat with
  | 0 => verdict ((code10 w).extractLsb' 9 1 == 0) (.bgemv (fieldD w) (fieldA w) ((code10 w).extractLsb' 6 3) ((code10 w).extractLsb' 0 6))
  | 1 => verdict (fieldD w == 0 && fieldA w == 0 && code10 w == 0) (.bfence)
  | _ => .illegal

/-- Major 0x22: barriers, signals, work queues (R155). -/
def decode22 (w : Word) : Decoded :=
  match (fnS w).toNat with
  | 0 => verdict ((code10 w).extractLsb' 4 6 == 0) (.bara (fieldD w) (fieldA w) ((code10 w).extractLsb' 3 1) ((code10 w).extractLsb' 0 3))
  | 1 => verdict ((code10 w).extractLsb' 4 6 == 0) (.barw (fieldD w) (fieldA w) ((code10 w).extractLsb' 3 1) ((code10 w).extractLsb' 0 3))
  | 2 => verdict ((code10 w).extractLsb' 4 6 == 0) (.bar (fieldD w) (fieldA w) ((code10 w).extractLsb' 3 1) ((code10 w).extractLsb' 0 3))
  | 3 => verdict (fieldD w == 0 && fieldA w == 0 && code10 w == 0) (.gbar)
  | 4 => verdict ((code10 w).extractLsb' 5 5 == 0) (.sigw (fieldD w) (fieldA w) ((code10 w).extractLsb' 3 2) ((code10 w).extractLsb' 0 3))
  | 5 => verdict ((code10 w).extractLsb' 4 6 == 0) (.sigp (fieldD w) (fieldA w) ((code10 w).extractLsb' 3 1) ((code10 w).extractLsb' 0 3))
  | 6 => verdict ((code10 w).extractLsb' 5 5 == 0) (.wpop (fieldD w) (fieldA w) ((code10 w).extractLsb' 4 1) ((code10 w).extractLsb' 0 4))
  | _ => .illegal

/-- Major 0x24: system (R155). -/
def decode24 (w : Word) : Decoded :=
  match (fnS w).toNat with
  | 0 => verdict true (.trap (fieldD w) (fieldA w) (code10 w))
  | 1 => verdict (fieldD w == 0 && fieldA w == 0) (.brk (code10 w))
  | 2 =>
    if (code10 w).extractLsb' 8 1 == 0 then verdict (fieldD w == 0 && fieldA w == 0 && (code10 w).extractLsb' 9 1 == 0 && (code10 w).extractLsb' 0 1 == 0) (.racqWait ((code10 w).extractLsb' 1 7))
    else verdict ((fieldD w).extractLsb' 3 3 == 0 && fieldA w == 0 && (code10 w).extractLsb' 9 1 == 0 && (code10 w).extractLsb' 0 1 == 0) (.racqTry ((fieldD w).extractLsb' 0 3) ((code10 w).extractLsb' 1 7))
  | 3 => verdict (fieldD w == 0 && fieldA w == 0 && (code10 w).extractLsb' 8 2 == 0 && (code10 w).extractLsb' 0 1 == 0) (.rrel ((code10 w).extractLsb' 1 7))
  | 4 => verdict ((fieldD w).extractLsb' 3 3 == 0 && fieldA w == 0) (.boost ((fieldD w).extractLsb' 0 3) (code10 w))
  | 5 => verdict (fieldD w == 0 && fieldA w == 0 && (code10 w).extractLsb' 1 9 == 0) (.wmark ((code10 w).extractLsb' 0 1))
  | 6 => verdict (fieldA w == 0 && code10 w == 0) (.dlr (fieldD w))
  | 7 => verdict (fieldA w == 0 && code10 w == 0) (.clk (fieldD w))
  | 8 => verdict (fieldA w == 0 && code10 w == 0) (.time (fieldD w))
  | _ => .illegal

/-- Major 0x3F: prefixes (R155). -/
def decode3F (w : Word) : Decoded :=
  match (kindP w).toNat with
  | 0 => verdict true (.pfxX (payload w))
  | 1 => verdict ((payload w).extractLsb' 0 14 == 0) (.pfxM ((payload w).extractLsb' 23 1) ((payload w).extractLsb' 20 3) ((payload w).extractLsb' 17 3) ((payload w).extractLsb' 16 1) ((payload w).extractLsb' 14 2))
  | 2 => verdict ((payload w).extractLsb' 4 20 == 0) (.pfxH ((payload w).extractLsb' 2 2) ((payload w).extractLsb' 1 1) ((payload w).extractLsb' 0 1))
  | _ => .illegal

/-- The opcode map of R155; every other major is illegal (R157). -/
def decodeWord (w : Word) : Decoded :=
  match (major w).toNat with
  | 0x00 => decode00 w
  | 0x01 => decode01 w
  | 0x02 => decode02 w
  | 0x03 => decode03 w
  | 0x04 => decode04 w
  | 0x06 => decode06 w
  | 0x07 => decode07 w
  | 0x08 => decode08 w
  | 0x09 => decode09 w
  | 0x0A => decode0A w
  | 0x0B => decode0B w
  | 0x0C => decode0C w
  | 0x0D => verdict true (.vcvt (fieldD w) (fieldA w) (fieldB w) (guardA w) (fnA w))
  | 0x0E => decode0E w
  | 0x10 => verdict true (.vld (fieldD w) (fieldA w) (fieldB w) (guardA w) ((fnA w).extractLsb' 4 1) ((fnA w).extractLsb' 3 1) ((fnA w).extractLsb' 0 3))
  | 0x11 => verdict ((fnA w).extractLsb' 3 1 == 0) (.vst (fieldD w) (fieldA w) (fieldB w) (guardA w) ((fnA w).extractLsb' 4 1) ((fnA w).extractLsb' 0 3))
  | 0x12 => decode12 w
  | 0x13 => decode13 w
  | 0x14 => verdict true (.vatom (fieldD w) (fieldA w) (fieldB w) (guardA w) (fnA w))
  | 0x15 => verdict true (.vred (fieldD w) (fieldA w) (fieldB w) (guardA w) (fnA w))
  | 0x16 => decode16 w
  | 0x18 => decode18 w
  | 0x1A => decode1A w
  | 0x1B => decode1B w
  | 0x1C => decode1C w
  | 0x1D => decode1D w
  | 0x20 => decode20 w
  | 0x22 => decode22 w
  | 0x24 => decode24 w
  | 0x3F => decode3F w
  | _ => .illegal

/-- A P-form word (R149). -/
def isPrefixWord (w : Word) : Bool := major w == 0x3F

/-! ### The encoder -/

/-- The word of an instruction (R140, R155, R156); a step of the hardware has none. -/
def encode : Instr → Option Word
  | .bra g off => some (formC 0x0#6 g 0x0#3 off)
  | .br g off => some (formC 0x0#6 g 0x1#3 off)
  | .brany g off => some (formC 0x0#6 g 0x2#3 off)
  | .brall g off => some (formC 0x0#6 g 0x3#3 off)
  | .call g off => some (formC 0x0#6 g 0x4#3 off)
  | .ret g => some (formA 0x1#6 0x0#6 0x0#6 0x0#6 g 0x0#5)
  | .jmpr a g => some (formA 0x1#6 0x0#6 a 0x0#6 g 0x1#5)
  | .callr a g => some (formA 0x1#6 0x0#6 a 0x0#6 g 0x2#5)
  | .join => some (formA 0x1#6 0x0#6 0x0#6 0x0#6 0x0#3 0x3#5)
  | .exit g => some (formA 0x1#6 0x0#6 0x0#6 0x0#6 g 0x4#5)
  | .clasp => some (formA 0x1#6 0x0#6 0x0#6 0x0#6 0x0#3 0x5#5)
  | .yield => some (formA 0x1#6 0x0#6 0x0#6 0x0#6 0x0#3 0x6#5)
  | .nop => some (formA 0x1#6 0x0#6 0x0#6 0x0#6 0x0#3 0x7#5)
  | .sadd d a b g => some (formA 0x2#6 d a b g 0x0#5)
  | .ssub d a b g => some (formA 0x2#6 d a b g 0x1#5)
  | .smul d a b g => some (formA 0x2#6 d a b g 0x2#5)
  | .smulh d a b g => some (formA 0x2#6 d a b g 0x3#5)
  | .smulhn d a b g => some (formA 0x2#6 d a b g 0x4#5)
  | .sdiv d a b g => some (formA 0x2#6 d a b g 0x5#5)
  | .sdivn d a b g => some (formA 0x2#6 d a b g 0x6#5)
  | .srem d a b g => some (formA 0x2#6 d a b g 0x7#5)
  | .sremn d a b g => some (formA 0x2#6 d a b g 0x8#5)
  | .sand d a b g => some (formA 0x2#6 d a b g 0x9#5)
  | .sor d a b g => some (formA 0x2#6 d a b g 0xA#5)
  | .sxor d a b g => some (formA 0x2#6 d a b g 0xB#5)
  | .sshl d a b g => some (formA 0x2#6 d a b g 0xC#5)
  | .sshr d a b g => some (formA 0x2#6 d a b g 0xD#5)
  | .ssra d a b g => some (formA 0x2#6 d a b g 0xE#5)
  | .smin d a b g => some (formA 0x2#6 d a b g 0xF#5)
  | .smax d a b g => some (formA 0x2#6 d a b g 0x10#5)
  | .sminn d a b g => some (formA 0x2#6 d a b g 0x11#5)
  | .smaxn d a b g => some (formA 0x2#6 d a b g 0x12#5)
  | .sseq d a b g => some (formA 0x2#6 d a b g 0x13#5)
  | .sslt d a b g => some (formA 0x2#6 d a b g 0x14#5)
  | .ssltn d a b g => some (formA 0x2#6 d a b g 0x15#5)
  | .ssel d a b g => some (formA 0x2#6 d a b g 0x16#5)
  | .saddi d a g imm => some (formB 0x3#6 d a g 0x0#3 imm)
  | .sandi d a g imm => some (formB 0x3#6 d a g 0x1#3 imm)
  | .sori d a g imm => some (formB 0x3#6 d a g 0x2#3 imm)
  | .sxori d a g imm => some (formB 0x3#6 d a g 0x3#3 imm)
  | .sshli d a g imm => some (formB 0x3#6 d a g 0x4#3 imm)
  | .sshri d a g imm => some (formB 0x3#6 d a g 0x5#3 imm)
  | .ssrai d a g imm => some (formB 0x3#6 d a g 0x6#3 imm)
  | .sli d g imm => some (formB 0x3#6 d 0x0#6 g 0x7#3 imm)
  | .srd d code => some (formS 0x4#6 d 0x0#6 code 0x0#4)
  | .swr a code => some (formS 0x4#6 0x0#6 a code 0x1#4)
  | .vmovs d a pair hi => some (formS 0x4#6 d a (0x0#8 ++ pair ++ hi) 0x2#4)
  | .smovv d a pair sx low k => some (formS 0x4#6 d a (0x0#5 ++ pair ++ sx ++ low ++ k) 0x3#4)
  | .sfmt a => some (formS 0x4#6 0x0#6 a 0x0#10 0x4#4)
  | .vadd d a b g => some (formA 0x6#6 d a b g 0x0#5)
  | .vsub d a b g => some (formA 0x6#6 d a b g 0x1#5)
  | .vmul d a b g => some (formA 0x6#6 d a b g 0x2#5)
  | .vmulh d a b g => some (formA 0x6#6 d a b g 0x3#5)
  | .vmulhn d a b g => some (formA 0x6#6 d a b g 0x4#5)
  | .vmad d a b g => some (formA 0x6#6 d a b g 0x5#5)
  | .vand d a b g => some (formA 0x6#6 d a b g 0x6#5)
  | .vor d a b g => some (formA 0x6#6 d a b g 0x7#5)
  | .vxor d a b g => some (formA 0x6#6 d a b g 0x8#5)
  | .vandn d a b g => some (formA 0x6#6 d a b g 0x9#5)
  | .vshl d a b g => some (formA 0x6#6 d a b g 0xA#5)
  | .vshr d a b g => some (formA 0x6#6 d a b g 0xB#5)
  | .vsra d a b g => some (formA 0x6#6 d a b g 0xC#5)
  | .vmin d a b g => some (formA 0x6#6 d a b g 0xD#5)
  | .vmax d a b g => some (formA 0x6#6 d a b g 0xE#5)
  | .vminn d a b g => some (formA 0x6#6 d a b g 0xF#5)
  | .vmaxn d a b g => some (formA 0x6#6 d a b g 0x10#5)
  | .vabs d a g => some (formA 0x6#6 d a 0x0#6 g 0x11#5)
  | .vneg d a g => some (formA 0x6#6 d a 0x0#6 g 0x12#5)
  | .vpopc d a g => some (formA 0x6#6 d a 0x0#6 g 0x13#5)
  | .vclz d a g => some (formA 0x6#6 d a 0x0#6 g 0x14#5)
  | .vbrev d a g => some (formA 0x6#6 d a 0x0#6 g 0x15#5)
  | .vsel d a b g => some (formA 0x6#6 d a b g 0x16#5)
  | .vmov d a g => some (formA 0x6#6 d a 0x0#6 g 0x17#5)
  | .vaddi d a g imm => some (formB 0x7#6 d a g 0x0#3 imm)
  | .vandi d a g imm => some (formB 0x7#6 d a g 0x1#3 imm)
  | .vori d a g imm => some (formB 0x7#6 d a g 0x2#3 imm)
  | .vxori d a g imm => some (formB 0x7#6 d a g 0x3#3 imm)
  | .vshli d a g imm => some (formB 0x7#6 d a g 0x4#3 imm)
  | .vshri d a g imm => some (formB 0x7#6 d a g 0x5#3 imm)
  | .vsrai d a g imm => some (formB 0x7#6 d a g 0x6#3 imm)
  | .vli d g imm => some (formB 0x7#6 d 0x0#6 g 0x7#3 imm)
  | .vseq d a b g => some (formA 0x8#6 (0x0#3 ++ d) a b g 0x0#5)
  | .vsne d a b g => some (formA 0x8#6 (0x0#3 ++ d) a b g 0x1#5)
  | .vslt d a b g => some (formA 0x8#6 (0x0#3 ++ d) a b g 0x2#5)
  | .vsle d a b g => some (formA 0x8#6 (0x0#3 ++ d) a b g 0x3#5)
  | .vsltn d a b g => some (formA 0x8#6 (0x0#3 ++ d) a b g 0x4#5)
  | .vslen d a b g => some (formA 0x8#6 (0x0#3 ++ d) a b g 0x5#5)
  | .vfseq d a b g => some (formA 0x8#6 (0x0#3 ++ d) a b g 0x6#5)
  | .vfsne d a b g => some (formA 0x8#6 (0x0#3 ++ d) a b g 0x7#5)
  | .vfslt d a b g => some (formA 0x8#6 (0x0#3 ++ d) a b g 0x8#5)
  | .vfsle d a b g => some (formA 0x8#6 (0x0#3 ++ d) a b g 0x9#5)
  | .vfsun d a b g => some (formA 0x8#6 (0x0#3 ++ d) a b g 0xA#5)
  | .pand d a b g => some (formA 0x8#6 (0x0#3 ++ d) (0x0#3 ++ a) (0x0#3 ++ b) g 0xB#5)
  | .por d a b g => some (formA 0x8#6 (0x0#3 ++ d) (0x0#3 ++ a) (0x0#3 ++ b) g 0xC#5)
  | .pxor d a b g => some (formA 0x8#6 (0x0#3 ++ d) (0x0#3 ++ a) (0x0#3 ++ b) g 0xD#5)
  | .pandn d a b g => some (formA 0x8#6 (0x0#3 ++ d) (0x0#3 ++ a) (0x0#3 ++ b) g 0xE#5)
  | .pmov d a g => some (formA 0x8#6 (0x0#3 ++ d) (0x0#3 ++ a) 0x0#6 g 0xF#5)
  | .vbfe d a b g => some (formA 0x9#6 d a b g 0x0#5)
  | .vbfes d a b g => some (formA 0x9#6 d a b g 0x1#5)
  | .vbfi d a b g => some (formA 0x9#6 d a b g 0x2#5)
  | .vfadd d a b g => some (formA 0xA#6 d a b g 0x0#5)
  | .vfsub d a b g => some (formA 0xA#6 d a b g 0x1#5)
  | .vfmul d a b g => some (formA 0xA#6 d a b g 0x2#5)
  | .vfma d a b g => some (formA 0xA#6 d a b g 0x3#5)
  | .vfms d a b g => some (formA 0xA#6 d a b g 0x4#5)
  | .vfnma d a b g => some (formA 0xA#6 d a b g 0x5#5)
  | .vfmin d a b g => some (formA 0xA#6 d a b g 0x6#5)
  | .vfmax d a b g => some (formA 0xA#6 d a b g 0x7#5)
  | .vfabs d a g => some (formA 0xA#6 d a 0x0#6 g 0x8#5)
  | .vfneg d a g => some (formA 0xA#6 d a 0x0#6 g 0x9#5)
  | .vfcps d a b g => some (formA 0xA#6 d a b g 0xA#5)
  | .vfrnd d a g => some (formA 0xA#6 d a 0x0#6 g 0xB#5)
  | .vfcls d a g => some (formA 0xA#6 d a 0x0#6 g 0xC#5)
  | .vhadd d a b g h => some (formA 0xB#6 d a b g (h ++ 0x0#4))
  | .vhsub d a b g h => some (formA 0xB#6 d a b g (h ++ 0x1#4))
  | .vhmul d a b g h => some (formA 0xB#6 d a b g (h ++ 0x2#4))
  | .vhfma d a b g h => some (formA 0xB#6 d a b g (h ++ 0x3#4))
  | .vhmin d a b g h => some (formA 0xB#6 d a b g (h ++ 0x4#4))
  | .vhmax d a b g h => some (formA 0xB#6 d a b g (h ++ 0x5#4))
  | .vrcp d a g => some (formA 0xC#6 d a 0x0#6 g 0x0#5)
  | .vrsq d a g => some (formA 0xC#6 d a 0x0#6 g 0x1#5)
  | .vsqrt d a g => some (formA 0xC#6 d a 0x0#6 g 0x2#5)
  | .vfdiv d a b g => some (formA 0xC#6 d a b g 0x3#5)
  | .vexp2 d a g => some (formA 0xC#6 d a 0x0#6 g 0x4#5)
  | .vlog2 d a g => some (formA 0xC#6 d a 0x0#6 g 0x5#5)
  | .vsin d a g => some (formA 0xC#6 d a 0x0#6 g 0x6#5)
  | .vcos d a g => some (formA 0xC#6 d a 0x0#6 g 0x7#5)
  | .vtanh d a g => some (formA 0xC#6 d a 0x0#6 g 0x8#5)
  | .vcvt d a b g fn => some (formA 0xD#6 d a b g fn)
  | .vshfl d a b g => some (formA 0xE#6 d a b g 0x0#5)
  | .vshflx d a b g => some (formA 0xE#6 d a b g 0x1#5)
  | .vshflu d a b g => some (formA 0xE#6 d a b g 0x2#5)
  | .vshfld d a b g => some (formA 0xE#6 d a b g 0x3#5)
  | .vbcst d a g => some (formA 0xE#6 d a 0x0#6 g 0x4#5)
  | .vvote d a g => some (formA 0xE#6 d a 0x0#6 g 0x5#5)
  | .vreds d a op g => some (formA 0xE#6 d a (0x0#1 ++ op) g 0x6#5)
  | .vscan d a excl op g => some (formA 0xE#6 d a (excl ++ op) g 0x7#5)
  | .vld d a b g na sx size => some (formA 0x10#6 d a b g (na ++ sx ++ size))
  | .vst d a b g na size => some (formA 0x11#6 d a b g (na ++ 0x0#1 ++ size))
  | .sld d a b g sx size => some (formA 0x12#6 d a b g (0x0#1 ++ sx ++ size))
  | .sst d a b g size => some (formA 0x12#6 d a b g (0x2#2 ++ size))
  | .vlds d a b g sx size => some (formA 0x13#6 d a b g (0x0#1 ++ sx ++ size))
  | .vldsDq d a b g => some (formA 0x13#6 d a b g 0x5#5)
  | .vsts d a b g size => some (formA 0x13#6 d a b g (0x2#2 ++ size))
  | .vatom d a b scope op => some (formA 0x14#6 d a b scope op)
  | .vred d a b scope op => some (formA 0x15#6 d a b scope op)
  | .fence acq rel scope => some (formS 0x16#6 0x0#6 0x0#6 (0x0#5 ++ acq ++ rel ++ scope) 0x0#4)
  | .settle scope => some (formS 0x16#6 0x0#6 0x0#6 (0x0#7 ++ scope) 0x1#4)
  | .wait l s t => some (formS 0x16#6 l s (0x0#4 ++ t) 0x2#4)
  | .acopy d a => some (formS 0x18#6 d a 0x0#10 0x0#4)
  | .acopyo d a => some (formS 0x18#6 d a 0x0#10 0x1#4)
  | .acopyt d a => some (formS 0x18#6 d a 0x0#10 0x2#4)
  | .acopyg d a geo => some (formS 0x18#6 d a (0x0#4 ++ geo) 0x3#4)
  | .cclose d => some (formS 0x18#6 d 0x0#6 0x0#10 0x4#4)
  | .cwait a => some (formS 0x18#6 0x0#6 a 0x0#10 0x5#4)
  | .tcfg td s target => some (formT 0x1A#6 td 0x0#3 0x0#3 s (0x0#4 ++ target) 0x0#4)
  | .tcb cb s scr => some (formT 0x1A#6 (0x0#1 ++ cb) 0x0#3 0x0#3 s (0x0#6 ++ scr) 0x1#4)
  | .tzero td => some (formT 0x1A#6 td 0x0#3 0x0#3 0x0#6 0x0#7 0x2#4)
  | .tld td s sb scr => some (formT 0x1B#6 td 0x0#3 0x0#3 s (0x0#5 ++ sb ++ scr) 0x0#4)
  | .tst ta s sb scr => some (formT 0x1B#6 0x0#3 ta 0x0#3 s (0x0#5 ++ sb ++ scr) 0x1#4)
  | .tldt td s scr => some (formT 0x1B#6 td 0x0#3 0x0#3 s (0x0#6 ++ scr) 0x2#4)
  | .tmma ta tb s scope => some (formT 0x1C#6 0x0#3 ta tb s (0x0#4 ++ scope) 0x0#4)
  | .tmmab td ta tb sat p q => some (formT 0x1C#6 td ta tb 0x0#6 (sat ++ p ++ q) 0x1#4)
  | .tmmas ta tb s scope => some (formT 0x1C#6 0x0#3 ta tb s (0x0#4 ++ scope) 0x2#4)
  | .tmmasb td ta tb sat p q => some (formT 0x1C#6 td ta tb 0x0#6 (sat ++ p ++ q) 0x3#4)
  | .tquant td s scr => some (formT 0x1D#6 td 0x0#3 0x0#3 s (0x0#6 ++ scr) 0x0#4)
  | .tqcb td s scr => some (formT 0x1D#6 td 0x0#3 0x0#3 s (0x0#6 ++ scr) 0x1#4)
  | .bgemv d a scope geo => some (formS 0x20#6 d a (0x0#1 ++ scope ++ geo) 0x0#4)
  | .bfence => some (formS 0x20#6 0x0#6 0x0#6 0x0#10 0x1#4)
  | .bara d a scr scope => some (formS 0x22#6 d a (0x0#6 ++ scr ++ scope) 0x0#4)
  | .barw d a scr scope => some (formS 0x22#6 d a (0x0#6 ++ scr ++ scope) 0x1#4)
  | .bar d a scr scope => some (formS 0x22#6 d a (0x0#6 ++ scr ++ scope) 0x2#4)
  | .gbar => some (formS 0x22#6 0x0#6 0x0#6 0x0#10 0x3#4)
  | .sigw d a cond scope => some (formS 0x22#6 d a (0x0#5 ++ cond ++ scope) 0x4#4)
  | .sigp d a set scope => some (formS 0x22#6 d a (0x0#6 ++ set ++ scope) 0x5#4)
  | .wpop d a try_ q => some (formS 0x22#6 d a (0x0#5 ++ try_ ++ q) 0x6#4)
  | .trap d a call => some (formS 0x24#6 d a call 0x0#4)
  | .brk call => some (formS 0x24#6 0x0#6 0x0#6 call 0x1#4)
  | .racqWait blocks => some (formS 0x24#6 0x0#6 0x0#6 (0x0#2 ++ blocks ++ 0x0#1) 0x2#4)
  | .racqTry d blocks => some (formS 0x24#6 (0x0#3 ++ d) 0x0#6 (0x1#2 ++ blocks ++ 0x0#1) 0x2#4)
  | .rrel blocks => some (formS 0x24#6 0x0#6 0x0#6 (0x0#2 ++ blocks ++ 0x0#1) 0x3#4)
  | .boost d us => some (formS 0x24#6 (0x0#3 ++ d) 0x0#6 us 0x4#4)
  | .wmark valid => some (formS 0x24#6 0x0#6 0x0#6 (0x0#9 ++ valid) 0x5#4)
  | .dlr d => some (formS 0x24#6 d 0x0#6 0x0#10 0x6#4)
  | .clk d => some (formS 0x24#6 d 0x0#6 0x0#10 0x7#4)
  | .time d => some (formS 0x24#6 d 0x0#6 0x0#10 0x8#4)
  | .pfxX payload => some (formP 0x3F#6 0x0#2 payload)
  | .pfxM neg guard rnd sat cache => some (formP 0x3F#6 0x1#2 (neg ++ guard ++ rnd ++ sat ++ cache ++ 0x0#14))
  | .pfxH branch reuseB reuseA => some (formP 0x3F#6 0x2#2 (0x0#20 ++ branch ++ reuseB ++ reuseA))
  | .accessConfirm .. => none
  | .loadComplete .. => none
  | .storeAck .. => none
  | .reductionApply .. => none
  | .faultedLineReflush .. => none
  | .copyComplete .. => none
  | .copyPageHold .. => none
  | .copyError .. => none
  | .tileOpComplete .. => none
  | .matrixProductComplete .. => none
  | .bgemvConfirm .. => none
  | .bgemvRowDeliver .. => none
  | .restring .. => none
  | .launch .. => none
  | .placementForward .. => none
  | .gangRetire .. => none
  | .parkGang .. => none
  | .gangSaveComplete .. => none
  | .gangRestore .. => none
  | .waitRecheck .. => none
  | .parkedRecordCheck .. => none
  | .wakeRegisterWrite .. => none
  | .nodeNop .. => none
  | .feed .. => none
  | .write .. => none
  | .signal .. => none
  | .waitmem .. => none
  | .copy .. => none
  | .phase .. => none
  | .timestamp .. => none
  | .nodeEnd .. => none
  | .schedulingPass .. => none
  | .queueUnmapComplete .. => none
  | .sliceExpiry .. => none
  | .governorEvaluation .. => none
  | .layerMove .. => none
  | .columnMove .. => none
  | .columnMoveCancel .. => none
  | .valveUpdate .. => none
  | .hbmStateChange .. => none
  | .hbmRetrainComplete .. => none
  | .coreGate .. => none
  | .columnGate .. => none
  | .coreWake .. => none
  | .boostLeaseExpiry .. => none
  | .trapRecordWrite .. => none
  | .faultRecordWrite .. => none
  | .trapqConsWrite .. => none
  | .fltqConsWrite .. => none
  | .resume .. => none
  | .kill .. => none
  | .divert .. => none
  | .retry .. => none
  | .fail .. => none
  | .watchdog .. => none
  | .divertInstant .. => none
  | .remoteDivert .. => none
  | .deadlineKill .. => none
  | .admqTailWrite .. => none
  | .createSpace .. => none
  | .destroySpace .. => none
  | .createQueue .. => none
  | .destroyQueue .. => none
  | .bindWq .. => none
  | .setRing .. => none
  | .xlateInval .. => none
  | .setCarveout .. => none
  | .setSlots .. => none
  | .setWatchdog .. => none
  | .setValves .. => none
  | .setHbm .. => none
  | .drain .. => none
  | .selfTest .. => none
  | .stackTest .. => none
  | .maint .. => none
  | .setLink .. => none
  | .openWindow .. => none
  | .closeWindow .. => none
  | .patch .. => none
  | .attest .. => none
  | .restart .. => none
  | .linkqTailWrite .. => none
  | .linkTransfer .. => none
  | .linkTransferComplete .. => none
  | .peerAccess .. => none
  | .portDown .. => none
  | .portStateChange .. => none
  | .leaseRenew .. => none
  | .leaseClaim .. => none
  | .reset .. => none
  | .startTimeout .. => none
  | .ptpSample .. => none
  | .lockTimeout .. => none
  | .errorDetected .. => none
  | .targetedSelfTest .. => none
  | .registerWrite .. => none
  | .queueMapComplete .. => none
  | .selfTestTimeout .. => none
  | .powerLoss => none
  | .hostAccess .. => none

/-! ### Words in memory -/

/-- Byte k of a number, little-endian (R6). -/
def byteOf (n k : Nat) : Byte := BitVec.ofNat 8 (n >>> (8 * k))

/-- The number whose little-endian bytes these are (R6). -/
def leNat : List Byte → Nat
  | [] => 0
  | b :: bs => b.toNat + 256 * leNat bs

/-- The low k bytes of a number, little-endian (R6). -/
def leBytes (k n : Nat) : List Byte := (List.range k).map (byteOf n)

/-- The instruction of a word laid out in memory: four bytes, the first at the lowest address (R6, R139). -/
def decodeBytes (bs : List Byte) : Decoded :=
  if bs.length = 4 then decodeWord (BitVec.ofNat 32 (leNat bs)) else .illegal

/-- The instruction the decoder reads from a word whose bits are w, numbered as the opcode table numbers them. Every
instruction of the table is one 32-bit word. -/
def decodeTableWord (nbits w : Nat) : Option Instr :=
  if nbits = 32 then
    match decodeBytes (leBytes 4 w) with
    | .ok i => some i
    | _ => none
  else none

end Sys2Proof
end

