-- ==== Sys2Proof/Config.lean ====
section
/-!
DEFINITION. What the manual leaves open and the machine still computes with: each is an OPAQUE constant without a body,
so that nothing in Lean can evaluate it and a statement about it holds for every value. State.seq and
State.nextId count the draws (log 3).
-/

namespace Sys2Proof

/-- Nanoseconds of real time that pass in one step of the machine (log 4): the manual bounds no step's duration from below. -/
opaque Config.elapsedNs : Nat → Nat

/-- Among the f32 results that R80 and R81 allow a special function on one operand, which one this part returns (log 12):
function number, operand pattern. The same operand always gives the same pick (R91). -/
opaque Config.specialPick : Nat → Word → Nat

/-- Whether a signature verifies over a patch image's bytes (R369): the fused key hash is not in the manual (log 50). -/
opaque Config.patchVerifies : List Byte → Bool

/-- SHA-256 of bytes, as a 256-bit number: the manual names the function and does not define it (log 50). -/
opaque Config.sha256 : List Byte → BitVec 256

/-- The fused minimum patch version (R369; log 50). -/
opaque Config.minPatchVersion : Word

/-- The ROM version (R375; log 50). -/
opaque Config.romVersion : Word

/-- The serial number of the device key's certificate, 20 bytes (R375; log 50). -/
opaque Config.certSerial : BitVec 160

/-- The RSASSA-PSS signature the device key makes over bytes (R370; log 50). -/
opaque Config.attestSign : List Byte → BitVec 3072

/-- The energy estimate of a launch in µJ (R300) from what was charged to it under R137 (bytes from HBM, bytes to HBM, lines
filled, words flushed, lines invalidated; a draw): the manual gives no rule for it (log 47). -/
opaque Config.energy : List Nat → Nat → DWord

/-- Which of the lines that may be replaced a full level replaces (R95, R119): the manual states no replacement order
(log 14). Draw. -/
opaque Config.victim : Nat → Nat

/-- The cause, permission or translation error, that a record of kind 9 gives for a copy that FAIL stopped on an absent page:
R328 lists no third cause for that kind (log 27). Copy number. -/
opaque Config.failIsPermission : Nat → Bool

/-- The correction of a tower's rate, in parts per billion, that firmware makes at a sample while the tower is locked: the manual
bounds it by 100 ppm and gives no control law (R341; log 60). Draw. -/
opaque Config.rateStep : Nat → Int

/-- CRC retries that a transfer causes on a port (R367): what the links do is not in the manual (log 75). Draw, port. -/
opaque Config.portRetries : Nat → Nat → Nat

/-- The flits that a port has carried since it was last asked (R367, log 75). Draw, port. -/
opaque Config.portFlits : Nat → Nat → Nat

/-- Whether a transfer of a peer uses a window now (R368): a transfer is the peer's, and its accesses show neither its start nor
its end (log 56). Draw, window. -/
opaque Config.windowUsed : Nat → Nat → Bool

end Sys2Proof
end

