-- ==== Sys2Proof/Machine/State.lean ====
section
/-!
DEFINITION. What the machine holds (INVENTORY.md, State), as plain data, why a step can stop, and the machine right after
reset. A field marked (model) is the model's own, not the manual's.
-/

namespace Sys2Proof.Machine

/-! ### Memory -/

/-- Bytes by address, addresses strictly rising, no entry 0x00: an unlisted address reads as 0x00 (log 1). -/
abbrev Memory := List Host.Cell

/-- What an unlisted address reads as (log 1). -/
def Memory.blank : Byte := 0

/-- Every entry lies above `lo` and above the one before it, and none holds what an unlisted address reads as. -/
def Memory.above : Nat → Memory → Bool
  | _, [] => true
  | lo, (a, b) :: m => decide (lo ≤ a) && decide (b ≠ Memory.blank) && Memory.above (a + 1) m

/-- The canonical form: equal memories are equal lists. -/
def Memory.wf (m : Memory) : Bool := Memory.above 0 m

/-- Page attributes that a fill carries (R96, R100). -/
structure Attr where
  w : Bool
  x : Bool
  c : Bool
  pin : Bool
  bank : Bool
  bfmt : BitVec 2
deriving DecidableEq, Repr

/-- A 128-byte line of a cache part, an L2 or a remote-data cache (R95): byte k at bits 8k+7..8k; the physical address it
was filled from (R98), its page's attributes (R217), the launch that last wrote it (R137), the bytes it holds: all but where a
store has missed in the home L2 (R95, R97); CACHE of the access that filled it: 1 streaming, 2 keep (R151). -/
structure Line where
  asid : Half
  va : DWord
  data : BitVec 1024
  dirty : Bool
  pa : Nat
  attr : Attr
  writer : Option Nat
  valid : BitVec 128 := BitVec.allOnes 128
  hint : BitVec 2 := 0
deriving DecidableEq, Repr

/-- A cached entry of a page table (R324), leaf or descriptor: its level, the base VA and the size of what it covers. -/
structure Tlb where
  asid : Half
  level : Nat
  va : DWord
  bytes : Nat
  entry : DWord
deriving DecidableEq, Repr

/-- The reductions of R116 and R225. -/
inductive RedOp where
  | addF32 | addI32 | addI64 | minI32 | maxI32 | minN32 | maxN32 | addBf16x2 | minF32 | maxF32
deriving DecidableEq, Repr

/-- An accumulator line (R115): deltas of 32 words (64-bit deltas take two), touched bits per word, its tag, and the launch of
the gang that the tag names, which its flush is charged to (R137). -/
structure AccLine where
  asid : Half
  va : DWord
  op : RedOp
  words : Vector Word 32
  touched : BitVec 32
  gang : Nat
  w : Nat
  payer : Option Nat
  faulted : Bool
deriving DecidableEq, Repr

/-- A deferred-settle record (R126). -/
structure Defer where
  va : DWord
  op : RedOp
  value : DWord
  w : Nat
deriving DecidableEq, Repr

/-! ### Beads, workgroups, gangs -/

/-- A reconvergence entry (R44); `phase` is its PHASE. -/
structure RecEntry where
  maskAll : Mask
  maskNt : Mask
  pcNt : DWord
  fmt : BitVec 12
  phase : Bool
deriving DecidableEq, Repr

inductive PfxKind where
  | x | m | h
deriving DecidableEq, Repr

/-- A prefix of the unit a bead has begun (R148); `resv`: a reserved payload bit is set (R151, R152). -/
structure Pfx where
  kind : PfxKind
  payload : BitVec 24
  resv : Bool
deriving DecidableEq, Repr

/-- A register write that lands when its operation completes (R160): `place` none names a scalar register. -/
structure RegWrite where
  place : Option Four
  reg : Reg
  value : DWord
deriving DecidableEq, Repr

/-- A counted operation of a bead (R160), kept until a WAIT covers it: whether it has completed, the registers whose
pending bits it set (true: scalar), and what it will write; `load`: a load, for the first step of FENCE (R228, R254). -/
structure CountedOp where
  id : Nat
  done : Bool
  load : Bool
  dests : List (Bool × Reg)
  writes : List RegWrite
deriving DecidableEq, Repr

/-- Why a bead does not go on (R65, R160, R217, R345). `count` is WAIT; `issue` a unit held at issue without effect. -/
inductive WaitKind where
  | confirm | count | fence | settle | bar | barw | gbar | sigw | wpop | cwait | racq | clasp | issue | bank | other
deriving DecidableEq, Repr

/-- A wait record (R235): space and address (or queue, or access), scope, condition, token or comparand, destination,
the value that satisfied it, when it began (model order, tower time). Of a VATOM whose atomics are under way (R224): the address and
the confirmed line and attributes of each lane to come, and the old values that the lanes before it have read. Of a BFENCE: the
numbers of the stores that it waits for (R134). -/
structure Wait where
  kind : WaitKind
  scr : Bool
  addr : DWord
  scope : BitVec 3
  cond : BitVec 2
  cmp : DWord
  dst : Reg
  sat : Option DWord
  order : Nat
  since : Nat
  hits : List (DWord × Nat × Attr) := []
  olds : List DWord := []
  ids : List Nat := []
deriving DecidableEq, Repr

/-- A reply that reaches a stop only when its gang is restored (R339): RESUME with the bead's value and its register (R268), and
the PC at which the trapping group goes on; DIVERT with its cause. -/
inductive StopReply where
  | resume (val : DWord) (dst : Reg) (pc : DWord)
  | divert (cause : BitVec 4)
deriving DecidableEq, Repr

/-- A stopped bead (R319): the trap record that holds it, whether its own group trapped, the trap's code; (model) the time
since its last issue when it stopped (R272), the reply that waits. -/
structure Stop where
  trap : Nat
  own : Bool
  code : Byte
  used : Nat
  reply : Option StopReply
deriving DecidableEq, Repr

/-- A parked bead (R320): the fault record its unit is attached to, the trap record it wrote, with the reported PC and where the
unit ends, its VA and lane, the mark a reply left (R329, R339); (model) the time since its last issue when it parked (R272). -/
structure Park where
  record : Nat
  trap : Nat
  pc : DWord
  next : DWord
  va : DWord
  lane : Byte
  replay : Bool
  fail : Bool
  used : Nat
deriving DecidableEq, Repr

/-- A diversion that a bead takes at its next boundary, or when its stop ends: cause, WHY.RESTORED, and WHY.WAIT by its state at
the instant (R345, R346). -/
structure DivertDue where
  cause : BitVec 4
  restored : Bool
  wait : BitVec 4
deriving DecidableEq, Repr

/-- One thread's registers (R39): v0-v63 and p0-p7 (bit k is pk). -/
structure Thread where
  v : Vector Word 64
  p : BitVec 8
deriving DecidableEq, Repr

/-- A bead (R39 to R48): home strand, position, role, the strand entry it stands in, issue group; PC and the prefixes of the unit
begun (R148), `xfer` when it stands at a transfer's target, or in a unit begun at one that a prefix precedes (R154); the reconvergence stack (R44), active and exited lanes (R43), FMT
(R74); s registers, lanes, `%dpc` and `%why` (R193, R345); the counts l, s and t with their pending bits (R160, R162), arrivals at
GBAR (R233); the wait and the unit it holds, stop (R319), park (R320); diverted (R333), a diversion or a kill that is due at its next
boundary (R331, R345); (model) the turn at which it issued last, and the instant (R272); the model's numbers of the last release that
it has completed and of the last acquire, by which happens-before is bounded (R134). -/
structure Bead where
  home : Nat
  pos : Nat
  role : Nat
  entry : Nat
  grp : Nat
  pc : DWord
  pfx : List Pfx
  xfer : Bool
  stack : List RecEntry
  active : Mask
  exited : Mask
  fmt : BitVec 12
  s : Vector DWord 64
  lanes : Quad Thread
  dpc : DWord
  why : Word
  lops : List CountedOp
  sops : List CountedOp
  tops : List CountedOp
  pendV : BitVec 64
  pendS : BitVec 64
  gbars : Nat
  wait : Option Wait
  held : Option Instr
  stop : Option Stop
  park : Option Park
  diverted : Bool
  divertDue : Option DivertDue
  dying : Bool
  turn : Nat
  lastIssue : Nat
  rel : Nat := 0
  acq : Nat := 0
deriving DecidableEq, Repr

/-- A strand entry of a core: its number (at or above 32: a restrung strand, R46), blocks held (R60), issue slot (R40). -/
structure Strand where
  id : Nat
  role : Nat
  blocks : BitVec 8
  slot : Four
deriving DecidableEq, Repr

/-- A tile register (R248): TCTL, 32 data rows of 768 bytes, 32 side-band rows of 1,536 bytes; byte k at bits 8k+7..8k. -/
structure Tile where
  ctl : Word
  data : List (BitVec 6144)
  side : List (BitVec 12288)
deriving DecidableEq, Repr

/-- A tile set (R50, R248): t0 to t7, cb0 to cb3, LPITCH and DPITCH. -/
structure TileSet where
  tiles : List Tile
  cbs : Quad (BitVec 256)
  lpitch : Word
  dpitch : Word
deriving DecidableEq, Repr

/-- A copy error not yet reported by a CWAIT (R247). -/
structure CopyErr where
  batch : Nat
  va : DWord
  cause : Byte
  need : Byte
deriving DecidableEq, Repr

/-- A layer move that is pending (R308, R309): the target tier, the workgroup it exchanges with, if any (gang, member), the
choosing instant. -/
structure LayerMove where
  tier : Four
  other : Option (Nat × Nat)
  since : Nat
deriving DecidableEq, Repr

/-- Workgroup w (R51), at place `pos` of its gang, on the core of `tier`; `move` its pending layer move. -/
structure Wg where
  w : Nat
  pos : Nat
  tier : Four
  beads : List Bead
  strands : List Strand
  nextGrp : Nat
  tile : Option TileSet
  closed : Nat
  copyErrs : List CopyErr
  valid : Bool
  lease : Option Nat
  resNs : Nat
  faulted : Bool
  overrun : Bool
  move : Option LayerMove
deriving DecidableEq, Repr

/-- One piece of a copy (R240 to R243): from global memory, from scratch, or zero fill; to global memory or scratch. -/
structure Piece where
  src : Option (Bool × DWord)
  dst : Bool × DWord
  len : Nat
deriving DecidableEq, Repr

/-- What a locked range forbids (R129): a destination everything; a source stores, or stores, atomics and reductions. -/
inductive LockKind where
  | dest | srcStore | srcWrite
deriving DecidableEq, Repr

/-- A range-lock entry (R129): global or scratch, first and last byte. -/
structure Lock where
  glob : Bool
  lo : Nat
  hi : Nat
  kind : LockKind
deriving DecidableEq, Repr

/-- A copy in flight or not yet started (R244, R245): its batch, the pieces left, its entries; the fault record that holds
it on an absent page, with the address (R247); whether its gang has been saved since, so that the restore starts it again; CACHE for
the lines that it fills (R151). -/
structure Copy where
  id : Nat
  member : Nat
  home : Nat
  beadPos : Nat
  batch : Nat
  pieces : List Piece
  locks : List Lock
  hold : Option (Nat × DWord)
  again : Bool
  hint : BitVec 2 := 0
deriving DecidableEq, Repr

/-- Why a gang is being saved (R334): parking or Trip, counted in PARKS; eviction for a launch (R340), counted in EVICTS. -/
inductive SaveCause where
  | park | trip | evict (launch : Nat)
deriving DecidableEq, Repr

/-- A save or a column move of a gang that is pending (R311, R335); `since` is the choosing instant; a column move names the run
and the tiers, by member, that it reserves. -/
inductive Pending where
  | save (cause : SaveCause)
  | column (col : Nat) (scrBase : Nat) (tiers : List (Nat × Four)) (since : Nat)
deriving DecidableEq, Repr

/-- Resident in a column with a scratch run, or saved in a cellar slot with its scratch bytes (R335), queued or not for
relaunch (R66). -/
inductive Place where
  | resident (col : Nat) (scrBase : Nat)
  | saved (slot : Nat) (scratch : Memory) (queued : Bool)
deriving DecidableEq, Repr

/-- A gang (R51): number `num` of launch `launch`, in tower `tower`; `reported`: it has settled for its retirement and its
fault records are raised (R126, R326); `wrapBack`: it was restored from the cellar for wrap-up (R346, R347). -/
structure Gang where
  id : Nat
  launch : Nat
  num : Nat
  tower : Four
  place : Place
  members : List Wg
  copies : List Copy
  defers : List Defer
  pending : Option Pending
  wake : Bool
  reported : Bool
  wrapBack : Bool := false
deriving DecidableEq, Repr

/-! ### Launches -/

/-- A role of a launch (R54). -/
structure Role where
  entry : Word
  strands : Nat
  blocks : Nat
  tile : Bool
deriving DecidableEq, Repr

/-- Who killed a launch in a tower (R331, R351). -/
inductive KillBy where
  | host | device | deadline
deriving DecidableEq, Repr

/-- What a launch keeps in each tower: gangs not started, whether its list has arrived (R298), the column last taken (R62),
whether diverted there, by what (R346), and what diversion elsewhere is still to reach it, with its tower and instant (R344), killed and by whom,
granules reserved (R67). -/
structure LaunchTower where
  todo : List Nat
  listed : Bool
  lastCol : Option Nat
  diverted : Bool
  cause : BitVec 4
  divertDue : Option (BitVec 4 × Four × Nat)
  killed : Option KillBy
  reserve : Nat
deriving DecidableEq, Repr

/-- What is charged to a launch (R137): bytes moved from HBM and to it, lines filled at any level, accumulator words flushed, lines
that its phase change invalidated. -/
structure Charges where
  read : Nat
  written : Nat
  fills : Nat
  flushes : Nat
  dropped : Nat
deriving DecidableEq, Repr

def Charges.none : Charges := { read := 0, written := 0, fills := 0, flushes := 0, dropped := 0 }

def Charges.toList (x : Charges) : List Nat := [x.read, x.written, x.fills, x.flushes, x.dropped]

/-- An accepted launch (R54 to R58, R297 to R300). -/
structure Launch where
  id : Nat
  tower : Four
  queue : Nat
  node : Word
  slot : Nat
  asid : Half
  restring : Bool
  gbar : Bool
  wrap : Bool
  code : DWord
  codeSize : Nat
  gangSize : Nat
  scratch : Nat
  wrapEntry : Word
  roles : List Role
  entryDelta : Word
  ngx : Nat
  ngy : Nat
  ngz : Nat
  nstage : Nat
  prio : Nat
  spread : Bool
  divertOnTrap : Bool
  deadline : DWord
  wrapBudget : Word
  expected : DWord
  completion : DWord
  crPa : Nat
  crAttr : Attr
  param : DWord
  shapes : Quad Word
  bucket : Nat
  padw : Nat
  padh : Nat
  patches : List (Nat × Nat × Word)
  map : List Four
  towers : Quad LaunchTower
  order : Nat
  accept : DWord
  hostKill : Bool
  deviceKill : Bool
  ncomp : Nat
  ndvalid : Nat
  ndinvalid : Nat
  nunstart : Nat
  noverrun : Nat
  nfault : Nat
  lmoves : Word
  cmoves : Word
  parks : Word
  evicts : Word
  charges : Charges
  finished : Option Byte
deriving DecidableEq, Repr

/-! ### Work in flight -/

/-- A store on its way (R95, R106): `stage` 0 sent, 1 acknowledged at the column store, 2 at the remote-data cache of
its tower; it leaves the list when the home L2 has it. Issued by bead (gang, member, home, pos; of a tile store the lead
bead, R254) as counted operation `op`; `pa` and `attr` of its line as confirmed (R217). -/
structure StoreRec where
  id : Nat
  gang : Nat
  member : Nat
  home : Nat
  pos : Nat
  op : Nat
  tower : Four
  col : Nat
  asid : Half
  va : DWord
  bytes : List Byte
  pa : Nat
  attr : Attr
  stage : Nat
  hint : BitVec 2 := 0
deriving DecidableEq, Repr

/-- A reduction contribution on its way (R114, R124, R226): the unit that sent it (`unit` for those whose order
at one line R225 fixes, `issued` by its place in program order), issuer (of a tile drain the lead bead, R257), the launch charged
(R137), workgroup w, target word, scope; the BGEMV it came of. -/
structure Red where
  id : Nat
  unit : Nat
  issued : Nat
  gang : Nat
  launch : Nat
  member : Nat
  home : Nat
  pos : Nat
  w : Nat
  tower : Four
  col : Nat
  asid : Half
  va : DWord
  op : RedOp
  value : DWord
  scope : BitVec 3
  bgemv : Option Nat
deriving DecidableEq, Repr

/-- A matrix product in or before its core's unit (R256, R259): when its unit started it, its drain, word by word (empty
for TMMAB), and the counted operation `id`. The oldest of a core is in the unit. -/
structure Product where
  id : Nat
  gang : Nat
  member : Nat
  home : Nat
  pos : Nat
  tower : Four
  col : Nat
  tier : Four
  start : Nat
  drains : List (DWord × Word)
  op : RedOp
  scope : BitVec 3
deriving DecidableEq, Repr

/-- A BGEMV that awaits its confirmation or has rows to deliver (R263, R264): issuer, launch charged (R137), captured x bytes and
codebook, the frames of its weights by 64 KiB as confirmed, next row. -/
structure Bgemv where
  id : Nat
  gang : Nat
  launch : Nat
  member : Nat
  home : Nat
  pos : Nat
  w : Nat
  tower : Four
  col : Nat
  asid : Half
  weight : DWord
  rows : Nat
  k : Nat
  wf : BitVec 2
  xf : BitVec 2
  x : List Byte
  cb : BitVec 256
  dest : DWord
  scope : BitVec 3
  confirmed : Bool
  frames : List (Nat × Nat)
  next : Nat
deriving DecidableEq, Repr

/-! ### Tower -/

/-- A core (R20, R302 to R306, R316). `ratio` is twice the lane-clock ratio now, `gov` the governor's; `racq` the strands
(gang, member, home) that wait in RACQ.WAIT, oldest first (R270); `waking` when its wake began (R316). -/
structure Core where
  ratio : Nat
  gov : Nat
  sensor : Nat
  warn : Bool
  move : Bool
  throttle : Bool
  trip : Bool
  gated : Bool
  waking : Option Nat
  emptySince : Nat
  racq : List (Nat × Nat × Nat)
deriving DecidableEq, Repr

/-- A column and its store (R22, R25, R95, R115). `steps` is COLCFG.SCRATCH, `rr` the round-robin pointer of R304, (model) the
instant of the last contest with the pointer before it, `hot`
counts consecutive evaluations with all four tiers at Move (R311), `halved` after a column move was given up (R312), `conns` spare connections left at each boundary (R366). -/
structure Column where
  steps : Nat
  draining : Bool
  lines : List Line
  acc : List AccLine
  scratch : Memory
  cores : Quad Core
  rr : Four
  rrWhen : Nat
  rrWas : Four
  hot : Nat
  gated : Bool
  emptySince : Nat
  halved : Bool
  conns : Quad Nat
deriving DecidableEq, Repr

/-- What SET_RING sets (R325). -/
structure RingCfg where
  base : DWord
  rlog : Nat
  asid : Half
deriving DecidableEq, Repr

/-- A trap or fault record: its bytes, whether it awaits a reply, and what a reply needs to know of it: trap code, launch,
gang, workgroup, first PC of the unit, reply register (R268), home strands; what it still does under LFLAGS.DIVERT: the launch's
diversion (R332), and to the strand a diversion (false) or its end (true, R333); for a fault the space and absent entry (R328). -/
structure RingRec where
  id : Nat
  bytes : List Byte
  awaits : Bool
  code : Byte
  launch : Nat
  gang : Nat
  member : Nat
  homes : List Nat
  pc : DWord
  dst : Reg
  divert : Bool
  strand : Option Bool
  asid : Half
  entry : Option Nat
deriving DecidableEq, Repr

/-- A trap or fault ring (R325, R326, R377): `held` records wait for room, `waiting` are written and unanswered; `blocked`
from a ring write that faults until the ring is configured again. -/
structure Ring where
  cfg : Option RingCfg
  prod : Word
  cons : Word
  reply : DWord
  badReply : Bool
  ringErr : Bool
  blocked : Bool
  badCons : Bool
  held : List RingRec
  waiting : List (Word × RingRec)
deriving DecidableEq, Repr

/-- A node's progress: not started, running, its work over with a state and status to be written by NODE_END, ended. -/
inductive NodeState where
  | pendingPreds | running | workOver (state : Byte) (status : Half) | ended (state : Byte)
deriving DecidableEq, Repr

/-- A published node (R280 to R289): counter, record bytes as read at publication, counters of its valid successors,
predecessors left, progress; bytes a COPY has moved, the launch of a LAUNCH, when it started, the state and status that R284 or
R285 give it after its step, whether a signal has met a WAITMEM (R288). -/
structure Node where
  ctr : Word
  bytes : List Byte
  succs : List Word
  preds : Nat
  state : NodeState
  moved : Nat
  launch : Option Nat
  started : Bool
  since : Nat
  fate : Option (Byte × Half)
  latched : Bool
deriving DecidableEq, Repr

/-- A user queue and its control block (R279, R280, R290 to R295). `heldTail` is a tail held while mapping (R291); `unread`
the accepted tails whose records are not all read; `heldRead` and `heldWrite` counters of accesses held by a fault, `kicked` a
kick that waits for the record of one (R280, R326);
`runnable` whether it was when last looked at; `measure` the start of the unmap whose measurement its map completes (R292). -/
structure Queue where
  num : Nat
  asid : Half
  qcb : DWord
  ring : DWord
  rlog : Nat
  prio : Nat
  slice : Nat
  head : Word
  tail : Word
  ltail : Word
  eslice : Nat
  eprio : Nat
  age : Nat
  qstate : Nat
  clamp : Bool
  latch : Bool
  pending : Bool
  badTail : Bool
  slot : Option Nat
  heldTail : Option Word
  srt : Nat
  measure : Option Nat
  mapT : Nat
  runT : Nat
  runnable : Bool
  nodes : List Node
  unread : List Word
  heldRead : Option Word
  heldWrite : Option Word
  kicked : Bool
deriving DecidableEq, Repr

/-- A hardware work queue (R236): `asid` 0 is unbound. -/
structure WorkQueue where
  asid : Half
  seq : DWord
  recs : List (List Byte)
deriving DecidableEq, Repr

/-- A cellar slot (R337). -/
structure CellarSlot where
  num : Nat
  first : Nat
  count : Nat
  gang : Nat
deriving DecidableEq, Repr

/-- The law of a layer's valves (R307, R371). -/
structure ValveLaw where
  setpt : Nat
  gain : Nat
  base : Nat
  min : Nat
deriving DecidableEq, Repr

/-- An HBM stack (R317, R371): its policy, its state, the instant of its last change, channel groups still to retrain. -/
structure Stack where
  mode : Nat
  hold : Nat
  floor : Nat
  hot : Nat
  cool : Nat
  util : Nat
  state : Nat
  changed : Option Nat
  retrain : Nat
deriving DecidableEq, Repr

/-- A Wasko port (R367); (model) the flits and the retries of the second that began at `since`. -/
structure Port where
  state : BitVec 2
  retries : Word
  peersw : Half
  flits : Nat
  errs : Nat
  since : Nat
deriving DecidableEq, Repr

/-- BOOTSTAT and TCAP (R356); `numbered`: a start has set COLS (R18); `passed`: the self-test of the last start passed (R363). -/
structure Boot where
  cols : BitVec 40
  numbered : Bool
  slots : Nat
  minimal : Bool
  maint : Bool
  state : Nat
  reason : Byte
  fails : Nat
  leader : Bool
  passed : Bool
deriving DecidableEq, Repr

/-- TLOCK (R356) and the discipline of tower time (R341). -/
structure TimeLock where
  locked : Bool
  lost : Bool
  good : Nat
  lastSample : Nat
deriving DecidableEq, Repr

/-- A queue of descriptors in memory (R357, R368). -/
structure CmdQueue where
  base : DWord
  tail : Word
  head : Word
deriving DecidableEq, Repr

/-- A link transfer read at publication (R368): its counter, descriptor, whether it has started, its status
once decided, whether its completion word is written. -/
structure LinkXfer where
  ctr : Word
  bytes : List Byte
  started : Bool
  status : Option Byte
  answered : Bool
deriving DecidableEq, Repr

/-- An error whose unit awaits its targeted self-test (R365). -/
structure ErrUnit where
  unit : Byte
  index : Byte
  sub : Byte
deriving DecidableEq, Repr

/-- A byte stored to a BANK page that has not reached HBM (R133): the number of its store, physical address, byte; the space and VA
through which it was stored (R324). -/
structure BankByte where
  stamp : Nat
  pa : Nat
  byte : Byte
  asid : Half := 0
  va : DWord := 0
deriving DecidableEq, Repr

/-- A tower (R17): time, a 64-bit count (R34), its rate's correction in parts per billion (R341), (model) the part of a nanosecond
that has passed, columns, caches and translations (R95, R324), stores to BANK pages (R133), cellar (R337), rings
(R325), IRQ.STAT and the interrupt messages sent, oldest first (R355), boot and lock (R356), admin and link queues with when the head command began to wait (R357, R359, R368),
ports (R367), error log and units that await a test (R365, R372), watchdog (R272), valves (R307), HBM stacks (R317), user queues and
phases (R136, R279), slot response time (R292), work queues (R236), spares (R18), why the next start fails (R365), the instants of
the last evaluation, valve update, pass, check of the waits, check of the parked records (R235) and flush of the faulted lines (R126),
the epoch its firmware knows (R360). -/
structure Tower where
  clock : DWord
  rate : Int
  carry : Nat
  cols : List Column
  l2 : List Line
  rdc : List Line
  tlb : List Tlb
  bank : List BankByte
  cellar : List CellarSlot
  trapq : Ring
  fltq : Ring
  irq : BitVec 5
  sent : List Nat
  boot : Boot
  lock : TimeLock
  admq : CmdQueue
  admSince : Option Nat
  linkq : CmdQueue
  links : List LinkXfer
  ports : Quad Port
  errlog : List (DWord × DWord)
  errcnt : Word
  errUnits : List ErrUnit
  watchdogMs : Nat
  laws : List ValveLaw
  valves : List Nat
  hbmStacks : Quad Stack
  queues : List Queue
  phases : List Half
  unmapBegun : Option Nat
  srtLast : Nat
  wqs : List WorkQueue
  spares : Nat
  failNext : Option Byte
  lastEval : Nat
  lastValve : Nat
  lastPass : Nat
  lastWaits : Nat
  lastParked : Nat
  lastReflush : Nat
  epoch : Half
deriving DecidableEq, Repr

/-- Tower time as a number. -/
def Tower.time (tw : Tower) : Nat := tw.clock.toNat

/-! ### Module -/

/-- The lease word of R360. -/
structure Lease where
  leader : Four
  epoch : Half
  expiry : DWord
deriving DecidableEq, Repr

/-- An inbound window (R368). -/
structure Window where
  num : Nat
  asid : Half
  va : DWord
  len : DWord
  write : Bool
  anyPeer : Bool
  peer : Half
deriving DecidableEq, Repr

/-- An accepted patch (R369, R376): its version and digest, and its image. -/
structure Patch where
  version : Word
  digest : BitVec 256
  image : List Byte
deriving DecidableEq, Repr

/-- (model) The issue group that exec's word belongs to: gang, member, group; `resv`: the word fetched has a reserved bit
or field set that its instruction does not show (R158). -/
structure Cursor where
  gang : Nat
  member : Nat
  grp : Nat
  resv : Bool
deriving DecidableEq, Repr

/-- The levels a line may be replaced at (R95, R119). -/
inductive Level where
  | column | accumulator | l2 | rdc
deriving DecidableEq, Repr

/-- (model) What happens next, where the manual leaves it open (log 5): a group issues; a step of the table happens; a
level replaces a line (log 14); the k-th waiting byte of a store to a BANK page reaches HBM (log 18); nothing but time. -/
inductive Choice where
  | issue (gang member grp : Nat)
  | event (i : Instr)
  | replace (level : Level) (t : Four) (col : Nat) (asid : Half) (va : DWord)
  | drainBank (t : Four) (k : Nat)
  | idle
deriving DecidableEq, Repr

/-- THE STATE: (model) steps taken, the next identifier, the default schedule's turn, the agenda, the group on turn; module memory
(R28), spaces (R92), launches, gangs, what is in flight, towers, lease (R360), the patch accepted and the one applied (R369, R375), links (R367, R368), when a start began, and
(model) what its further attempts will find, where the step of the first has said so (R361). -/
structure State where
  seq : Nat
  nextId : Nat
  turn : Nat
  agenda : List Choice
  cur : Option Cursor
  hbm : Memory
  spaces : List (Half × Nat)
  launches : List Launch
  gangs : List Gang
  stores : List StoreRec
  reds : List Red
  prods : List Product
  bgemvs : List Bgemv
  towers : Quad Tower
  lease : Lease
  patch : Option Patch
  applied : Option Patch
  moduleId : Nat
  portMask : Half
  windows : List Window
  startAt : Option Nat
  tries : List (Quad TowerStart)
deriving DecidableEq, Repr

/-! ### Stops -/

/-- Why the machine stops. -/
inductive Fault where
  /-- Raised by exec of a word when no live issue group is named by `cur` (log 7): safe, the hardware issues no word then. -/
  | noIssuingGroup
deriving DecidableEq, Repr

/-- Why an instruction has no meaning here. -/
inductive Refusal where
  /-- Raised by an arm of exec whose meaning is not written: safe, nothing can be proved of it. -/
  | notModelled (mnemonic : String)
deriving DecidableEq, Repr

/-! ### Right after reset -/

def Core.reset : Core :=
  { ratio := 1, gov := 1, sensor := 0, warn := false, move := false, throttle := false, trip := false, gated := false,
    waking := none, emptySince := 0, racq := [] }

def Column.reset : Column :=
  { steps := 0, draining := false, lines := [], acc := [], scratch := [], cores := Quad.fill Core.reset, rr := 0,
    rrWhen := 0, rrWas := 0, hot := 0, gated := false, emptySince := 0, halved := false, conns := Quad.fill 32 }

def Ring.reset : Ring :=
  { cfg := none, prod := 0, cons := 0, reply := 0, badReply := false, ringErr := false, blocked := false, badCons := false,
    held := [], waiting := [] }

/-- The state registers of R356 at reset; TCAP.COLS, without a stated value, is 0 (log 2). -/
def Boot.reset : Boot :=
  { cols := 0, numbered := false, slots := 32, minimal := false, maint := true, state := 0, reason := 0, fails := 0, leader := false,
    passed := false }

def Stack.reset : Stack :=
  { mode := 0, hold := 0, floor := 3, hot := 1360, cool := 1200, util := 25, state := 0, changed := none, retrain := 0 }

def Tower.reset : Tower :=
  { clock := 0, rate := 0, carry := 0, cols := List.replicate 40 Column.reset, l2 := [], rdc := [], tlb := [], bank := [], cellar := [],
    trapq := Ring.reset, fltq := Ring.reset, irq := 0, sent := [], boot := Boot.reset,
    lock := { locked := false, lost := false, good := 0, lastSample := 0 },
    admq := { base := 0, tail := 0, head := 0 }, admSince := none, linkq := { base := 0, tail := 0, head := 0 },
    links := [], ports := Quad.fill { state := 0, retries := 0, peersw := 0, flits := 0, errs := 0, since := 0 },
    errlog := List.replicate 64 (0, 0), errcnt := 0, errUnits := [], watchdogMs := 2000,
    laws := List.replicate 5 { setpt := 1120, gain := 8, base := 64, min := 32 }, valves := List.replicate 40 0,
    hbmStacks := Quad.fill Stack.reset, queues := [], phases := List.replicate 32 0, unmapBegun := none, srtLast := 0,
    wqs := List.replicate 16 { asid := 0, seq := 0, recs := [] }, spares := 2, failNext := none, lastEval := 0,
    lastValve := 0, lastPass := 0, lastWaits := 0, lastParked := 0, lastReflush := 0, epoch := 0 }

/-- The machine right after reset (R53 is what a strand starts in; nothing is launched yet): BOOTSTAT.STATE 0, maintenance
mode, tower times 0. A program comes to run as log 8 tells. -/
def State.reset : State :=
  { seq := 0, nextId := 0, turn := 0, agenda := [], cur := none, hbm := [], spaces := [], launches := [], gangs := [],
    stores := [], reds := [], prods := [], bgemvs := [], towers := Quad.fill Tower.reset,
    lease := { leader := 0, epoch := 0, expiry := 0 }, patch := none, applied := none, moduleId := 0, portMask := 0, windows := [],
    startAt := some 0, tries := [] }

end Sys2Proof.Machine
end

