-- ==== Sys2Proof/Machine/Mem.lean ====
section
/-!
DEFINITION. Bytes of a memory in its canonical form, and of a 128-byte line.
-/

namespace Sys2Proof.Machine

/-- The byte at an address. -/
def Memory.get : Memory → Nat → Byte
  | [], _ => Memory.blank
  | (k, b) :: m, a => if a < k then Memory.blank else if k = a then b else Memory.get m a

/-- One byte written; the canonical form is kept. -/
def Memory.set : Memory → Nat → Byte → Memory
  | [], a, b => if b = Memory.blank then [] else [(a, b)]
  | (k, c) :: m, a, b =>
    if a < k then (if b = Memory.blank then (k, c) :: m else (a, b) :: (k, c) :: m)
    else if a = k then (if b = Memory.blank then m else (a, b) :: m)
    else (k, c) :: Memory.set m a b

/-- n bytes from an address on. -/
def Memory.read (m : Memory) (a n : Nat) : List Byte := (List.range n).map fun k => m.get (a + k)

/-- Bytes written from an address on. -/
def Memory.write : Memory → Nat → List Byte → Memory
  | m, _, [] => m
  | m, a, b :: bs => Memory.write (m.set a b) (a + 1) bs

/-- n bytes as a little-endian number (R6). -/
def Memory.readNat (m : Memory) (a n : Nat) : Nat := leNat (m.read a n)

/-- The entries of a range, moved to address 0. -/
def Memory.slice (m : Memory) (a n : Nat) : Memory :=
  m.filterMap fun c => if a ≤ c.1 ∧ c.1 < a + n then some (c.1 - a, c.2) else none

/-- A range replaced by an image whose addresses start at 0; bytes the image does not list read blank. -/
def Memory.paste (m : Memory) (a n : Nat) (img : Memory) : Memory :=
  m.filter (fun c => c.1 < a) ++ (img.filterMap fun c => if c.1 < n then some (a + c.1, c.2) else none)
    ++ m.filter (fun c => a + n ≤ c.1)

/-- A field of a record's bytes. -/
def field (bs : List Byte) (off n : Nat) : Nat := leNat ((bs.drop off).take n)

/-! ### Lines -/

/-- The line of a VA (R22): 128 bytes. -/
def lineOf (va : DWord) : DWord := va &&& ~~~127#64

/-- The place of a VA in its line. -/
def lineOff (va : DWord) : Nat := va.toNat % 128

def lineByte (d : BitVec 1024) (k : Nat) : Byte := d.extractLsb' (8 * k) 8

def lineRead (d : BitVec 1024) (k n : Nat) : List Byte := (List.range n).map fun j => lineByte d (k + j)

def lineSetByte (d : BitVec 1024) (k : Nat) (b : Byte) : BitVec 1024 :=
  (d &&& ~~~(BitVec.setWidth 1024 (255#8) <<< (8 * k))) ||| (BitVec.setWidth 1024 b <<< (8 * k))

def lineWrite : BitVec 1024 → Nat → List Byte → BitVec 1024
  | d, _, [] => d
  | d, k, b :: bs => lineWrite (lineSetByte d k b) (k + 1) bs

end Sys2Proof.Machine
end

