-- ==== Sys2Proof/Machine/Cache.lean ====
section
/-!
DEFINITION. Translation (R321 to R324), the levels a global access passes down (R95 to R99), stores on their way (R106),
and what a release waits for and an acquire invalidates (R106, R107).
-/

namespace Sys2Proof.Machine

/-! ### Places in the state -/

def State.tower (s : State) (t : Four) : Tower := s.towers.get t

def State.updTower (s : State) (t : Four) (f : Tower → Tower) : State := { s with towers := s.towers.upd t f }

/-- One element of a list through a function, the others as they stand. -/
def updAt {α : Type} (l : List α) (n : Nat) (f : α → α) : List α := l.mapIdx fun k x => if k = n then f x else x

/-- Insertion before the first element that does not come earlier. -/
def insertBy {α : Type} (le : α → α → Bool) (x : α) : List α → List α
  | [] => [x]
  | y :: ys => if le x y then x :: y :: ys else y :: insertBy le x ys

/-- A list in rising order, equals as they stand. -/
def sortBy {α : Type} (le : α → α → Bool) (l : List α) : List α := l.foldr (insertBy le) []

def Tower.col (tw : Tower) (c : Nat) : Column := tw.cols.getD c Column.reset

def State.col (s : State) (t : Four) (c : Nat) : Column := (s.tower t).col c

def State.updCol (s : State) (t : Four) (c : Nat) (f : Column → Column) : State :=
  s.updTower t fun tw => { tw with cols := updAt tw.cols c f }

/-- A bit of IRQ.STAT set; a rise sends one interrupt message that carries its number (R355). -/
def Tower.raise (bit : Nat) (tw : Tower) : Tower :=
  if tw.irq.getLsbD bit then tw else { tw with irq := tw.irq ||| (1#5 <<< bit), sent := tw.sent ++ [bit] }

/-- Bits of IRQ.STAT (R355). -/
def raiseIrq (s : State) (t : Four) (bit : Nat) : State := s.updTower t (Tower.raise bit)

/-- A fresh identifier. -/
def State.fresh (s : State) : State := { s with nextId := s.nextId + 1 }

def State.gang? (s : State) (id : Nat) : Option Gang := s.gangs.find? (·.id == id)

def State.launch? (s : State) (id : Nat) : Option Launch := s.launches.find? (·.id == id)

def State.updLaunch (s : State) (id : Nat) (f : Launch → Launch) : State :=
  { s with launches := s.launches.map fun l => if l.id == id then f l else l }

/-! ### Charging (R137) -/

/-- The launch that a gang's work is charged to. -/
def State.payer (s : State) (gang : Nat) : Option Nat := (s.gang? gang).map (·.launch)

/-- An event charged to a launch; firmware and the queue hardware are no context. -/
def State.charge (s : State) (who : Option Nat) (f : Charges → Charges) : State :=
  match who with
  | none => s
  | some id => s.updLaunch id fun l => { l with charges := f l.charges }

/-- n bytes moved from HBM, and m lines filled, for a launch. -/
def State.chargeRead (s : State) (who : Option Nat) (n m : Nat) : State :=
  s.charge who fun x => { x with read := x.read + n, fills := x.fills + m }

/-- n bytes moved to HBM for the launch that wrote them. -/
def State.chargeWrite (s : State) (who : Option Nat) (n : Nat) : State :=
  s.charge who fun x => { x with written := x.written + n }

/-! ### Translation -/

/-- Bits [63:56] equal bit 55 (R93). -/
def canonicalVa (va : DWord) : Bool := va.extractLsb' 56 8 == (if va.getLsbD 55 then 0xFF#8 else 0)

/-- The home tower of a VA (R321). -/
def homeOf (va : DWord) : Four := Four.ofNat (va.extractLsb' 44 2).toNat

/-- A frame above the populated range (R30). -/
def unpopulated (pa : Nat) : Bool := pa / 2 ^ 36 % 4 == 3

/-- What a walk comes to (R323): a leaf with its page size, an absent entry by its physical address, a translation error. -/
inductive Xlate where
  | leaf (e : DWord) (bytes : Nat)
  | absent (entry : Nat)
  | error
deriving DecidableEq, Repr

/-- A leaf's own rules (R101, R321): page size code of its level, reserved bits, frame alignment and population, BANK, home. -/
def leafOk (level : Nat) (e va : DWord) : Bool :=
  let size := (e.extractLsb' 8 2).toNat
  size + level == 3 && e.extractLsb' 40 24 == 0 && e.extractLsb' 10 6 == 0
    && (size != 1 || e.extractLsb' 16 5 == 0) && (size != 2 || e.extractLsb' 16 14 == 0)
    && !unpopulated ((e.extractLsb' 16 24).toNat * 65536) && !(e.getLsbD 5 && size == 0)
    && e.extractLsb' 38 2 == va.extractLsb' 44 2

/-- Page bytes of a leaf at a level (R322). -/
def pageBytes (level : Nat) : Nat := if level = 1 then 2 ^ 30 else if level = 2 then 2 ^ 21 else 2 ^ 16

/-- The entry's index at a level (R322). -/
def walkIndex (level : Nat) (va : DWord) : Nat :=
  match level with
  | 0 => (va.extractLsb' 43 13).toNat
  | 1 => (va.extractLsb' 30 13).toNat
  | 2 => (va.extractLsb' 21 9).toNat
  | _ => (va.extractLsb' 16 5).toNat

/-- Alignment of a table of a level (R322). -/
def tableAlign (level : Nat) : Nat := if level ≤ 1 then 65536 else if level = 2 then 4096 else 256

/-- A descriptor's bits other than V, T and the next table are zero, and the next table is aligned and populated (R323). -/
def descOk (next : Nat) (e : DWord) : Bool :=
  let pa := (e.extractLsb' 32 32).toNat * 256
  e.extractLsb' 1 9 == 0 && e.extractLsb' 11 21 == 0 && pa % tableAlign next == 0 && !unpopulated pa

/-- The walk from a table at a level (R322, R323), reading HBM below every cache. -/
def walkFrom (m : Memory) (va : DWord) : (levels : Nat) → (table : Nat) → Xlate
  | 0, _ => .error
  | k + 1, table =>
    let level := 3 - k
    let at_ := table + 8 * walkIndex level va
    let e : DWord := BitVec.ofNat 64 (m.readNat at_ 8)
    if !e.getLsbD 0 then (if e.getLsbD 4 then .error else .absent at_)
    else if e.getLsbD 10 then
      if level = 3 || !descOk (level + 1) e then .error else walkFrom m va k ((e.extractLsb' 32 32).toNat * 256)
    else if level = 0 || !leafOk level e va then .error
    else .leaf e (pageBytes level)

/-- The walk of an address space: none without a root table (R323). -/
def walk (s : State) (asid : Half) (va : DWord) : Xlate :=
  match s.spaces.find? (·.1 == asid) with
  | none => .error
  | some sp => walkFrom s.hbm va 4 sp.2

/-- Bytes that an entry of a level covers (R322). -/
def coverBytes (level : Nat) : Nat := if level = 0 then 2 ^ 43 else pageBytes level

def Tlb.covers (asid : Half) (va : DWord) (e : Tlb) : Bool := e.asid == asid && va.toNat / e.bytes == e.va.toNat / e.bytes

def Tlb.isLeaf (e : Tlb) : Bool := !e.entry.getLsbD 10

/-- The cached descriptor of the deepest level for a VA. -/
def deepest (es : List Tlb) : Option Tlb :=
  es.foldl (fun b e => match b with | some d => if d.level < e.level then some e else b | none => some e) none

/-- Cached entries first (R324): a leaf, else the walk from the deepest descriptor, else from the root; a VA that breaks R93 has
none. -/
def xlate (s : State) (asid : Half) (va : DWord) : Xlate :=
  if !canonicalVa va then .error else
  let es := (s.tower (homeOf va)).tlb.filter (Tlb.covers asid va)
  match es.find? Tlb.isLeaf, deepest es with
  | some e, _ => .leaf e.entry e.bytes
  | none, some d => walkFrom s.hbm va (3 - d.level) ((d.entry.extractLsb' 32 32).toNat * 256)
  | none, none => walk s asid va

/-- The entries that a walk reads from a table at a level on, to its leaf. -/
def walkPath (m : Memory) (asid : Half) (va : DWord) : (levels : Nat) → (table : Nat) → List Tlb
  | 0, _ => []
  | k + 1, table =>
    let level := 3 - k
    let e : DWord := BitVec.ofNat 64 (m.readNat (table + 8 * walkIndex level va) 8)
    let n := coverBytes level
    let x : Tlb := { asid, level, va := BitVec.ofNat 64 (va.toNat / n * n), bytes := n, entry := e }
    if e.getLsbD 10 then x :: walkPath m asid va k ((e.extractLsb' 32 32).toNat * 256) else [x]

/-- A successful walk leaves the entries it read in the home controller's translation cache. -/
def remember (s : State) (asid : Half) (va : DWord) : State :=
  match xlate s asid va with
  | .leaf .. =>
    let es := (s.tower (homeOf va)).tlb.filter (Tlb.covers asid va)
    if es.any Tlb.isLeaf then s
    else
      let new := match deepest es with
        | some d => walkPath s.hbm asid va (3 - d.level) ((d.entry.extractLsb' 32 32).toNat * 256)
        | none =>
          match s.spaces.find? (·.1 == asid) with
          | some sp => walkPath s.hbm asid va 4 sp.2
          | none => []
      s.updTower (homeOf va) fun tw => { tw with tlb := new ++ tw.tlb }
  | _ => s

def attrOf (e : DWord) : Attr :=
  { w := e.getLsbD 1, x := e.getLsbD 2, c := e.getLsbD 3, pin := e.getLsbD 4, bank := e.getLsbD 5,
    bfmt := e.extractLsb' 6 2 }

/-- The physical address of a VA in a page. -/
def leafPa (e : DWord) (bytes : Nat) (va : DWord) : Nat := (e.extractLsb' 16 24).toNat * 65536 + va.toNat % bytes

/-- A page's line and attributes, as a level that holds them or the controller knows them (R217), and the launch whose
access it is (R137); CACHE for the lines that the access fills (R151); the number of the store that it writes, where it has one. -/
structure Hit where
  pa : Nat
  attr : Attr
  who : Option Nat := none
  hint : BitVec 2 := 0
  stamp : Option Nat := none
deriving DecidableEq, Repr

/-- How a confirmation ends (R217): with the line, absent at an entry, a translation error, or a permission withheld. -/
inductive Conf where
  | ok (h : Hit)
  | absent (entry : Nat)
  | error
  | perm
deriving DecidableEq, Repr

/-- The entry of an absent page. -/
def Conf.entry? : Conf → Option Nat
  | .absent e => some e
  | _ => none

/-- The access is a launch's, with its CACHE. -/
def Conf.by (who : Option Nat) (f : Conf) (hint : BitVec 2 := 0) : Conf :=
  match f with
  | .ok h => .ok { h with who, hint }
  | _ => f

/-- What an access needs (R101, R102, FREC.NEED). -/
inductive Need where
  | read | write | fetch | bank
deriving DecidableEq, Repr

def Need.granted (n : Need) (a : Attr) : Bool :=
  match n with
  | .read => true
  | .write => a.w
  | .fetch => a.x
  | .bank => a.bank

/-- FREC.NEED (R327). -/
def Need.code : Need → Byte
  | .read => 1
  | .write => 2
  | .fetch => 4
  | .bank => 8

/-- FREC.CAUSE (R327). -/
def Conf.cause : Conf → Byte
  | .ok _ => 0
  | .absent _ => 1
  | .error => 2
  | .perm => 3

def findLine (ls : List Line) (asid : Half) (va : DWord) : Option Line :=
  ls.find? fun l => l.asid == asid && l.va == lineOf va

/-- The controller's answer. -/
def confAtHome (s : State) (asid : Half) (va : DWord) (n : Need) : Conf :=
  match xlate s asid va with
  | .error => .error
  | .absent e => .absent e
  | .leaf e bytes => if n.granted (attrOf e) then .ok { pa := leafPa e bytes (lineOf va), attr := attrOf e } else .perm

/-- A line held at a level answers with the attributes it was filled with; otherwise the home controller (R217). -/
def confLine (l : Option Line) (n : Need) (other : Conf) : Conf :=
  match l with
  | some l => if n.granted l.attr then .ok { pa := l.pa, attr := l.attr } else .perm
  | none => other

/-- Confirmation at the home tower: its L2 or its controller. -/
def confL2 (s : State) (asid : Half) (va : DWord) (n : Need) : Conf :=
  confLine (findLine (s.tower (homeOf va)).l2 asid va) n (confAtHome s asid va n)

/-- Confirmation from tower t, below the column store. -/
def confTower (s : State) (t : Four) (asid : Half) (va : DWord) (n : Need) : Conf :=
  if homeOf va = t then confL2 s asid va n
  else confLine (findLine (s.tower t).rdc asid va) n (confL2 s asid va n)

/-- Confirmation from a column (R217). -/
def confCol (s : State) (t : Four) (c : Nat) (asid : Half) (va : DWord) (n : Need) : Conf :=
  confLine (findLine (s.col t c).lines asid va) n (confTower s t asid va n)

/-! ### HBM and the home L2 -/

/-- HBM below every cache, 128 bytes. -/
def hbmLine (s : State) (pa : Nat) : BitVec 1024 := BitVec.ofNat 1024 (s.hbm.readNat pa 128)

/-- The home tower of a physical address (R29). -/
def towerOfPa (pa : Nat) : Four := Four.ofNat (pa / 2 ^ 38)

/-- The local stack of a physical address (R29). -/
def stackOfPa (pa : Nat) : Four := Four.ofNat (pa / 2 ^ 12)

/-- The address within its stack (R29). -/
def inStack (pa : Nat) : Nat := pa % 2 ^ 38 / 2 ^ 14 * 2 ^ 12 + pa % 2 ^ 12

/-- Stores to BANK pages that the controller has not yet put into HBM, laid over a line (R133). -/
def overlayBank (s : State) (pa : Nat) (d : BitVec 1024) : BitVec 1024 :=
  (s.tower (towerOfPa pa)).bank.foldl
    (fun d (w : BankByte) => if pa ≤ w.pa ∧ w.pa < pa + 128 then lineSetByte d (w.pa - pa) w.byte else d) d

/-- Every waiting BANK byte of a line goes to HBM. -/
def flushBankLine (s : State) (pa : Nat) : State :=
  let t := towerOfPa pa
  let mine := (s.tower t).bank.filter fun w => pa ≤ w.pa && w.pa < pa + 128
  let s1 := { s with hbm := mine.foldl (fun m (w : BankByte) => m.set w.pa w.byte) s.hbm }
  s1.updTower t fun tw => { tw with bank := tw.bank.filter fun w => !(pa ≤ w.pa && w.pa < pa + 128) }

/-- The bytes a store of n bytes at place k writes of a line. -/
def spanMask (k n : Nat) : BitVec 128 := BitVec.ofNat 128 (2 ^ n - 1) <<< k

/-- The places of the bytes that a line holds. -/
def Line.places (l : Line) : List Nat := (List.range 128).filter l.valid.getLsbD

/-- A line over bytes that it does not hold. -/
def Line.over (l : Line) (d : BitVec 1024) : BitVec 1024 :=
  if l.valid = BitVec.allOnes 128 then l.data
  else l.places.foldl (fun d k => lineSetByte d k (lineByte l.data k)) d

/-- Write-back of a line (R95): the bytes it holds go to HBM, charged to the launch that last wrote it (R137). -/
def writeBack (s : State) (l : Line) : State :=
  let s1 := flushBankLine s l.pa
  if l.dirty then
    State.chargeWrite { s1 with hbm := l.places.foldl (fun m k => m.set (l.pa + k) (lineByte l.data k)) s1.hbm }
      l.writer l.places.length
  else s1

def isLine (asid : Half) (va : DWord) (l : Line) : Bool := l.asid == asid && l.va == lineOf va

/-- The remap filter of tower t (R98): another virtual copy of the physical line is written back and dropped. -/
def remapFilter (s : State) (t : Four) (asid : Half) (va : DWord) (pa : Nat) : State :=
  let other (l : Line) : Bool := l.pa == pa && !isLine asid va l
  let s1 := ((s.tower t).l2.filter other).foldl writeBack s
  s1.updTower t fun tw => { tw with l2 := tw.l2.filter (!other ·), rdc := tw.rdc.filter (!other ·) }

/-- Lines of a tower's L2 (R26): 96 MiB. -/
def l2Lines : Nat := 786432

/-- Lines of a tower's remote-data cache (R26): 24 MiB. -/
def rdcLines : Nat := 196608

/-- The rank of a line among those that a full level replaces (R151): streaming first, keep last. -/
def hintRank (h : BitVec 2) : Nat := if h = 1 then 0 else if h = 2 then 2 else 1

/-- A line of CACHE `h` is among the first candidates beside the others of its level (R151). -/
def goesFirst (others : List (BitVec 2)) (h : BitVec 2) : Bool := others.all fun x => decide (hintRank h ≤ hintRank x)

/-- The place of the line that a full level replaces: of those that come first by their CACHE, one that the manual leaves open
(R151, log 14). -/
def victimAt (hs : List (BitVec 2)) (draw : Nat) : Nat :=
  let ks := (List.range hs.length).filter fun k => goesFirst hs (hs.getD k 0)
  ks.getD (Config.victim draw % ks.length) 0

/-- Room for one line in an L2 (R95): a full one replaces a line (log 14). -/
def roomL2 (s : State) (t : Four) : State :=
  let ls := (s.tower t).l2
  let k := victimAt (ls.map (·.hint)) s.nextId
  if ls.length < l2Lines then s
  else
    match ls[k]? with
    | none => s
    | some l => ((writeBack s l).updTower t fun tw => { tw with l2 := tw.l2.eraseIdx k }).fresh

/-- Room for one line in a remote-data cache, whose lines are clean. -/
def roomRdc (s : State) (t : Four) : State :=
  let ls := (s.tower t).rdc
  if ls.length < rdcLines then s
  else (s.updTower t fun tw => { tw with rdc := tw.rdc.eraseIdx (victimAt (ls.map (·.hint)) s.nextId) }).fresh

/-- A line of a tower's L2 with what it does not hold read from HBM. -/
def fillRest (s : State) (l : Line) (h : Hit) : State × Line :=
  let m := { l with data := l.over (overlayBank s l.pa (hbmLine s l.pa)), valid := BitVec.allOnes 128, hint := h.hint }
  ((s.chargeRead h.who 128 1).updTower (homeOf l.va) fun tw =>
    { tw with l2 := tw.l2.map fun x => if isLine l.asid l.va x then m else x }, m)

/-- The line at the home L2, filled from HBM on a miss, or where it holds only what stores have written; a page with C = 0 is
passed up and not allocated (R95, R96). -/
def homeFill (s : State) (asid : Half) (va : DWord) (h : Hit) : State × Line :=
  let t := homeOf va
  match findLine (s.tower t).l2 asid va with
  | some l => if l.valid = BitVec.allOnes 128 then (s, l) else fillRest s l h
  | none =>
    let s1 := (remapFilter (remember s asid va) t asid va h.pa).chargeRead h.who 128 (if h.attr.c then 1 else 0)
    let l : Line := { asid, va := lineOf va, data := overlayBank s1 h.pa (hbmLine s1 h.pa), dirty := false, pa := h.pa,
                      attr := h.attr, writer := none, hint := h.hint }
    if h.attr.c then ((roomL2 s1 t).updTower t fun tw => { tw with l2 := l :: tw.l2 }, l) else (s1, l)

/-! ### Maintenance mode's directory (R112) -/

/-- A tower's snoop filter: a column store or the remote-data cache holds the physical line. -/
def Tower.tracks (tw : Tower) (pa : Nat) : Bool :=
  tw.rdc.any (·.pa == pa) || tw.cols.any fun co => co.lines.any (·.pa == pa)

/-- The home agent of a line's stack: the towers in maintenance mode whose snoop filters track it. -/
def homeAgent (s : State) (pa : Nat) : List Four :=
  Four.all.filter fun t => (s.tower t).boot.maint && (s.tower t).tracks pa

/-- The states of MOESI. -/
inductive Moesi where
  | modified | owned | exclusive | shared | invalid
deriving DecidableEq, Repr

/-- The state of a physical line's copy in its home L2: the levels above write through, so that no other copy is dirty
(log 35). -/
def moesi (s : State) (pa : Nat) : Moesi :=
  match (s.tower (towerOfPa pa)).l2.find? (·.pa == pa), (homeAgent s pa).isEmpty with
  | none, true => .invalid
  | none, false => .shared
  | some l, alone => if l.dirty then (if alone then .modified else .owned) else if alone then .exclusive else .shared

/-- A write at the home invalidates every other copy of the physical line, in the towers that the home agent names. -/
def snoop (s : State) (pa : Nat) : State :=
  (homeAgent s pa).foldl (fun s t => s.updTower t fun tw =>
    { tw with rdc := tw.rdc.filter (·.pa != pa)
              cols := tw.cols.map fun co => { co with lines := co.lines.filter (·.pa != pa) } }) s

/-- Bytes written at the home L2 (R95). A present line takes them, dirty but for a BANK page, whose bytes go on to HBM
through the controller. A line that is not present is not filled (R97): it is made with the bytes written and no others (log 62),
another virtual copy of the line being written back and dropped first (R98, R99); of an uncached page they go to HBM (R96). -/
def homeWrite (s : State) (asid : Half) (va : DWord) (bs : List Byte) (h : Hit) : State :=
  let t := homeOf va
  let at_ := h.pa + lineOff va
  let there := (findLine (s.tower t).l2 asid va).isSome
  let s1 := if there then s else remapFilter (remember s asid va) t asid va h.pa
  let s2 :=
    if h.attr.bank then
      let queued : List BankByte := bs.mapIdx fun k b =>
        { stamp := h.stamp.getD s1.nextId, pa := at_ + k, byte := b, asid, va := va + BitVec.ofNat 64 k }
      (s1.fresh.updTower t fun tw => { tw with bank := tw.bank ++ queued }).chargeWrite h.who bs.length
    else if !h.attr.c then State.chargeWrite { s1 with hbm := s1.hbm.write at_ bs } h.who bs.length
    else if there then s1
    else
      let l : Line := { asid, va := lineOf va, data := 0, dirty := true, pa := h.pa, attr := h.attr, writer := h.who, valid := 0,
                        hint := h.hint }
      (roomL2 s1 t).updTower t fun tw => { tw with l2 := l :: tw.l2 }
  (snoop s2 h.pa).updTower t fun tw =>
    { tw with l2 := tw.l2.map fun l =>
        if isLine asid va l then
          { l with data := lineWrite l.data (lineOff va) bs, dirty := l.dirty || (h.attr.c && !h.attr.bank), writer := h.who
                   valid := l.valid ||| spanMask (lineOff va) bs.length }
        else l }

/-! ### Stores on their way -/

def StoreRec.overlaps (r : StoreRec) (asid : Half) (va : DWord) (n : Nat) : Bool :=
  r.asid == asid && decide (r.va.toNat < va.toNat + n) && decide (va.toNat < r.va.toNat + r.bytes.length)

/-- A record is of a physical line (R98). -/
def StoreRec.ofPhys (pa : Nat) (r : StoreRec) : Bool := r.pa == pa

/-- Two records write a common physical byte. -/
def StoreRec.meets (x r : StoreRec) : Bool :=
  x.pa == r.pa && decide (lineOff x.va < lineOff r.va + r.bytes.length) && decide (lineOff r.va < lineOff x.va + x.bytes.length)

/-- The stores that have passed a tower's remote-data cache to a physical line, in order of arrival, laid over it: a store
through one VA has reached the filtered levels for every other (R99). -/
def overlayPassed (rs : List StoreRec) (t : Four) (pa : Nat) (d : BitVec 1024) : BitVec 1024 :=
  rs.foldl (fun d r => if r.tower == t && r.stage == 2 && r.ofPhys pa then lineWrite d (lineOff r.va) r.bytes else d) d

/-- Stores of a line that a view must show, oldest first, laid over it. -/
def overlayStores (rs : List StoreRec) (asid : Half) (va : DWord) (d : BitVec 1024) : BitVec 1024 :=
  rs.foldl (fun d r => if r.overlaps asid (lineOf va) 128 then lineWrite d (lineOff r.va) r.bytes else d) d

/-- The remote-data cache takes a store: a present copy is updated (R95), a copy of the physical line under another name
is dropped (R98, R99). -/
def rdcUpdate (s : State) (t : Four) (asid : Half) (va : DWord) (pa : Nat) (bs : List Byte) : State :=
  s.updTower t fun tw =>
    { tw with rdc := (tw.rdc.filter fun l => isLine asid va l || l.pa != pa).map fun l =>
        if isLine asid va l then { l with data := lineWrite l.data (lineOff va) bs } else l }

/-- What a store passes on its way to the home L2 of another tower (R95). -/
def rdcPass (s : State) (r : StoreRec) : State :=
  if homeOf r.va = r.tower then s else rdcUpdate s r.tower r.asid r.va r.pa r.bytes

/-- A store reaches the home L2 and leaves the list. -/
def storeHome (s : State) (r : StoreRec) : State :=
  let s1 := homeWrite s r.asid r.va r.bytes { pa := r.pa, attr := r.attr, who := s.payer r.gang, hint := r.hint, stamp := some r.id }
  { s1 with stores := s1.stores.filter (·.id != r.id) }

/-- Marks a counted operation of a bead complete (R160). -/
def completeOp (id : Nat) (ops : List CountedOp) : List CountedOp :=
  ops.map fun o => if o.id == id then { o with done := true } else o

def Bead.completeStore (id : Nat) (b : Bead) : Bead := { b with sops := completeOp id b.sops, tops := completeOp id b.tops }

/-- Every bead of the machine through a function. -/
def State.mapBeads (s : State) (f : Bead → Bead) : State :=
  { s with gangs := s.gangs.map fun g =>
      { g with members := g.members.map fun w => { w with beads := w.beads.map f } } }

/-- A store advances one level (R95, R106): acknowledged at the column store, with its operation complete once no part of
it is behind; at the remote-data cache; at the home L2. A moved record joins the end, so that order of arrival is kept. -/
def advanceStore (s : State) (r : StoreRec) : State :=
  let others := s.stores.filter (·.id != r.id)
  if r.stage = 0 then
    let s1 := { s with stores := s.stores.map fun x => if x.id == r.id then { x with stage := 1 } else x }
    if others.any fun x => x.op == r.op && x.stage == 0 then s1 else s1.mapBeads (Bead.completeStore r.op)
  else if r.stage = 1 && homeOf r.va != r.tower then
    rdcUpdate { s with stores := others ++ [{ r with stage := 2 }] } r.tower r.asid r.va r.pa r.bytes
  else storeHome s r

/-- A record may not overtake an older one to a common byte from its column, or within its tower once past it, where another
name of the physical byte counts too (R99, R109). -/
def mayAdvance (s : State) (r : StoreRec) : Bool :=
  let older := s.stores.takeWhile (·.id != r.id)
  !older.any fun x => x.tower == r.tower && decide (x.stage ≤ r.stage)
    && (((x.stage == 2 || x.col == r.col) && x.overlaps r.asid r.va r.bytes.length)
      || (x.stage == 2 && r.stage == 2 && x.meets r))

/-- Stores of a physical line past the remote-data cache of a tower brought home, in order of arrival (R109). -/
def pushPassed (s : State) (t : Four) (pa : Nat) : State :=
  (s.stores.filter fun r => r.tower == t && r.stage == 2 && r.ofPhys pa).foldl storeHome s

/-- Then those of the virtual line still in a column, oldest first, through the remote-data cache (R95): the order that R109
asks. -/
def pushStores (s : State) (t : Four) (c : Nat) (asid : Half) (va : DWord) (pa : Nat) : State :=
  let s0 := pushPassed s t pa
  (s0.stores.filter fun r => r.tower == t && r.col == c && decide (r.stage ≤ 1) && r.overlaps asid (lineOf va) 128).foldl
    (fun s r =>
      let s1 := storeHome (rdcPass s r) r
      if r.stage = 0 then
        (if s1.stores.any fun x => x.op == r.op && x.stage == 0 then s1 else s1.mapBeads (Bead.completeStore r.op))
      else s1) s0

/-! ### Reads at a point -/

/-- The line as tower t sees it below its column stores (R103): its L2, or its remote-data cache with the stores that have
passed through it; filled on a miss, another virtual copy of the physical line in the tower being dropped (R98). -/
def towerFill (s : State) (t : Four) (asid : Half) (va : DWord) (h : Hit) : State × Line :=
  if homeOf va = t then homeFill s asid va h
  else
    match findLine (s.tower t).rdc asid va with
    | some l => (s, l)
    | none =>
      let r := homeFill s asid va h
      let l := { r.2 with data := overlayPassed r.1.stores t h.pa r.2.data, dirty := false, hint := h.hint }
      let s1 := remapFilter r.1 t asid va h.pa
      if h.attr.c then (((roomRdc s1 t).updTower t fun tw => { tw with rdc := l :: tw.rdc }).chargeRead h.who 0 1, l)
      else (s1, l)

/-- n bytes of one line as tower t's point of coherence holds them (R103, R127). -/
def towerRead (s : State) (t : Four) (asid : Half) (va : DWord) (n : Nat) (h : Hit) : State × List Byte :=
  let r := towerFill s t asid va h
  (r.1, lineRead r.2.data (lineOff va) n)

/-- n bytes of one line at the home L2. -/
def homeRead (s : State) (asid : Half) (va : DWord) (n : Nat) (h : Hit) : State × List Byte :=
  let r := homeFill s asid va h
  (r.1, lineRead r.2.data (lineOff va) n)

/-- A column's copy of a line dropped. -/
def dropColLine (s : State) (t : Four) (c : Nat) (asid : Half) (va : DWord) : State :=
  s.updCol t c fun co => { co with lines := co.lines.filter (!isLine asid va ·) }

/-- The copy of the remote-data cache that an atomic or reduction passes through is invalidated (R95, R110), whatever its virtual
name (R98, R99). -/
def dropRdc (s : State) (t : Four) (asid : Half) (va : DWord) (pa : Nat) : State :=
  if homeOf va = t then s
  else s.updTower t fun tw => { tw with rdc := tw.rdc.filter fun l => !isLine asid va l && l.pa != pa }

/-- The copies that an atomic or reduction of a column passes through are invalidated (R110). -/
def dropPassed (s : State) (t : Four) (c : Nat) (asid : Half) (va : DWord) (pa : Nat) : State :=
  dropRdc (dropColLine s t c asid va) t asid va pa

/-- A store performed in its column (R95): a present copy is updated, or invalidated under NA (R156); its way home begins. -/
def colStore (s : State) (r : StoreRec) (na : Bool) : State :=
  let s1 := s.updCol r.tower r.col fun co =>
    { co with lines :=
        if na then co.lines.filter (!isLine r.asid r.va ·)
        else co.lines.map fun l =>
          if isLine r.asid r.va l then { l with data := lineWrite l.data (lineOff r.va) r.bytes } else l }
  { s1 with stores := s1.stores ++ [r] }

/-! ### Acquires -/

/-- A column's lines of a space invalidated (R107); accumulator lines and scratch stay. -/
def dropSpaceCol (s : State) (t : Four) (c : Nat) (asid : Half) : State :=
  s.updCol t c fun co => { co with lines := co.lines.filter (·.asid != asid) }

/-- An acquire at a scope (R107). -/
def acquire (s : State) (t : Four) (c : Nat) (asid : Half) (scope : BitVec 3) : State :=
  if scope.toNat ≤ 2 then s
  else
    let s1 := dropSpaceCol s t c asid
    if scope.toNat ≤ 3 then s1 else s1.updTower t fun tw => { tw with rdc := tw.rdc.filter (·.asid != asid) }

/-- Lines of a space that a tower's columns and remote-data cache hold. -/
def Tower.spaceLines (tw : Tower) (asid : Half) : Nat :=
  (tw.rdc.filter (·.asid == asid)).length + (tw.cols.map fun co => (co.lines.filter (·.asid == asid)).length).sum

/-- The acquire of a phase change (R136): every column of the tower and its remote-data cache; the invalidation is
charged to the incoming launch (R137). -/
def phaseAcquire (s : State) (t : Four) (asid : Half) (who : Option Nat) : State :=
  (s.charge who fun x => { x with dropped := x.dropped + (s.tower t).spaceLines asid }).updTower t fun tw =>
    { tw with cols := tw.cols.map fun co => { co with lines := co.lines.filter (·.asid != asid) }
              rdc := tw.rdc.filter (·.asid != asid) }

/-! ### Releases -/

/-- The stage a store must have passed for a release at a scope (R103, R106): acknowledged in the column, at the tower's
point, at the home L2. -/
def StoreRec.released (r : StoreRec) (scope : BitVec 3) : Bool :=
  if scope.toNat ≤ 2 then decide (1 ≤ r.stage)
  else if scope.toNat = 3 then r.stage == 2
  else false

end Sys2Proof.Machine
end

