-- ==== Sys2Proof/Machine/Ops.lean ====
section
/-!
DEFINITION. The named operations over registers, beads and groups; taking a trap (R266 to R268, R318, R319, R332, R333) and
parking on an absent page (R320, R328) as one operation each, and the return from them (R329, R330); diversion of a bead
(R345).
-/

namespace Sys2Proof.Machine

/-- The three outcomes of a step. -/
abbrev Res := Host.Outcome State Fault Refusal

/-! ### Registers of a bead -/

def vecGet {α : Type} (v : Vector α 64) (r : Reg) : α := v[r.toNat]'r.isLt

def vecSet {α : Type} (v : Vector α 64) (r : Reg) (x : α) : Vector α 64 := v.set r.toNat x r.isLt

/-- A scalar register; s0 reads 0 (R142). -/
def Bead.sget (b : Bead) (r : Reg) : DWord := if r = 0 then 0 else vecGet b.s r

/-- A scalar register written; a write to s0 is discarded (R142). -/
def Bead.sset (b : Bead) (r : Reg) (x : DWord) : Bead := if r = 0 then b else { b with s := vecSet b.s r x }

def Bead.vget (b : Bead) (k : Four) (r : Reg) : Word := vecGet (b.lanes.get k).v r

def Bead.vset (b : Bead) (k : Four) (r : Reg) (x : Word) : Bead :=
  { b with lanes := b.lanes.upd k fun t => { t with v := vecSet t.v r x } }

/-- A predicate of a lane; p0 is true (R142). -/
def Bead.pget (b : Bead) (k : Four) (p : BitVec 3) : Bool := p == 0 || (b.lanes.get k).p.getLsbD p.toNat

/-- One bit of an 8-bit register. -/
def setBit (x : BitVec 8) (n : Nat) (v : Bool) : BitVec 8 :=
  if v then x ||| (1#8 <<< n) else x &&& ~~~(1#8 <<< n)

/-- A predicate written; a write to p0 is discarded (R142). -/
def Bead.pset (b : Bead) (k : Four) (p : BitVec 3) (v : Bool) : Bead :=
  if p = 0 then b else { b with lanes := b.lanes.upd k fun t => { t with p := setBit t.p p.toNat v } }

/-- The register n after r, within the file. -/
def regPlus (r : Reg) (n : Nat) : Reg := r + BitVec.ofNat 6 n

def laneIn (m : Mask) (k : Four) : Bool := m.getLsbD k.val

def maskOf (f : Four → Bool) : Mask :=
  BitVec.ofBool (f 3) ++ BitVec.ofBool (f 2) ++ BitVec.ofBool (f 1) ++ BitVec.ofBool (f 0)

/-- A bead is live until its four lanes have exited (R41). -/
def Bead.live (b : Bead) : Bool := b.active != 0

/-- A bead whose strand still holds its entry: live, or with a counted operation not complete (R183). -/
def Bead.busy (b : Bead) : Bool := b.live || (b.lops ++ b.sops ++ b.tops).any (!·.done)

/-- The lowest-numbered active lane. -/
def Bead.low (b : Bead) : Four := (Four.all.find? (laneIn b.active)).getD 0

/-- The lanes in which a guard holds (R145), negated by NEG (R146). -/
def Bead.guardMask (b : Bead) (g : BitVec 3) (neg : Bool) : Mask := maskOf fun k => (b.pget k g) != neg

/-- The active lanes in which a guard holds. -/
def Bead.lanesOn (b : Bead) (g : BitVec 3) (neg : Bool) : Mask := b.active &&& b.guardMask g neg

/-- The guard in the bead's lowest active lane (R145). -/
def Bead.guardLow (b : Bead) (g : BitVec 3) (neg : Bool) : Bool := (b.pget b.low g) != neg

/-- `%lane` of a place in the bead (R39). -/
def Bead.lane (b : Bead) (k : Four) : Nat := 4 * b.pos + k.val

/-- A function of each lane of a set, applied to the bead (R12: all reads are of the bead before). -/
def Bead.onLanes (b : Bead) (m : Mask) (f : Four → Bead → Bead) : Bead :=
  Four.all.foldl (fun r k => if laneIn m k then f k r else r) b

/-! ### Gangs, workgroups, groups -/

def State.updGang (s : State) (id : Nat) (f : Gang → Gang) : State :=
  { s with gangs := s.gangs.map fun g => if g.id == id then f g else g }

def Gang.member? (g : Gang) (m : Nat) : Option Wg := g.members.find? (·.pos == m)

def Gang.updMember (g : Gang) (m : Nat) (f : Wg → Wg) : Gang :=
  { g with members := g.members.map fun w => if w.pos == m then f w else w }

def State.updWg (s : State) (gang m : Nat) (f : Wg → Wg) : State := s.updGang gang (·.updMember m f)

def Wg.updBeads (w : Wg) (p : Bead → Bool) (f : Bead → Bead) : Wg :=
  { w with beads := w.beads.map fun b => if p b then f b else b }

/-- Beads that have come to a core go to the end of their slots' orders: turn `n` is later than every turn taken there (R64). -/
def Wg.lastInTurn (n : Nat) (w : Wg) : Wg := w.updBeads (fun _ => true) fun b => { b with turn := n }

/-- The live beads of an issue group (R40). -/
def Bead.inGrp (grp : Nat) (b : Bead) : Bool := b.grp == grp && b.live

/-- The beads of an issue group by rising position (R39). -/
def Wg.group (w : Wg) (grp : Nat) : List Bead :=
  (List.range 8).filterMap fun p => w.beads.find? fun b => b.pos == p && b.inGrp grp

def State.updGrp (s : State) (c : Cursor) (f : Bead → Bead) : State :=
  s.updWg c.gang c.member fun w => w.updBeads (Bead.inGrp c.grp) f

def Gang.resident (g : Gang) : Bool :=
  match g.place with
  | .resident .. => true
  | .saved .. => false

def Gang.col (g : Gang) : Nat :=
  match g.place with
  | .resident c _ => c
  | .saved .. => 255

def Gang.scrBase (g : Gang) : Nat :=
  match g.place with
  | .resident _ b => b
  | .saved .. => 0

/-- A member's scratch bytes rounded up to 4 KiB (R52). -/
def Launch.scratchEach (l : Launch) : Nat := (l.scratch + 4095) / 4096 * 4096

/-- The gang's scratch bytes G x S (R52). -/
def Launch.scratchAll (l : Launch) : Nat := l.gangSize * l.scratchEach

/-- The ring-slot index of the launch's node (R327). -/
def nodeIndex (s : State) (l : Launch) : Nat :=
  match (s.tower l.tower).queues.find? (·.num == l.queue) with
  | some q => l.node.toNat % 2 ^ q.rlog
  | none => l.node.toNat % 65536

/-- What a unit of an issue group acts in: its cursor, gang, launch, workgroup and beads (by rising position), the address
A of its word, its first word, its prefixes. -/
structure Ctx where
  cur : Cursor
  g : Gang
  l : Launch
  wg : Wg
  beads : List Bead
  lead : Bead

/-- The context of the current group; none when `cur` names no live group of a resident gang. -/
def State.ctx? (s : State) : Option Ctx :=
  match s.cur with
  | none => none
  | some c =>
    match s.gang? c.gang with
    | none => none
    | some g =>
      match s.launch? g.launch, g.member? c.member with
      | some l, some wg =>
        match g.resident, wg.group c.grp with
        | true, b :: bs => some { cur := c, g, l, wg, beads := b :: bs, lead := b }
        | _, _ => none
      | _, _ => none

def Ctx.pc (c : Ctx) : DWord := c.lead.pc
def Ctx.pfx (c : Ctx) : List Pfx := c.lead.pfx
/-- The unit's first word (R148). -/
def Bead.unitPc (b : Bead) : DWord := b.pc - BitVec.ofNat 64 (4 * b.pfx.length)
def Ctx.upc (c : Ctx) : DWord := c.lead.unitPc
def Ctx.tower (c : Ctx) : Four := c.g.tower
def Ctx.col (c : Ctx) : Nat := c.g.col
def Ctx.asid (c : Ctx) : Half := c.l.asid
def Ctx.scrLen (c : Ctx) : Nat := c.l.scratchAll
def Ctx.now (c : Ctx) (s : State) : Nat := (s.tower c.tower).time
def Ctx.core (c : Ctx) (s : State) : Core := (s.col c.tower c.col).cores.get c.wg.tier

/-- The group's beads anew. -/
def Ctx.onGrp (c : Ctx) (s : State) (f : Bead → Bead) : State := s.updGrp c.cur f

/-- The home strands of a list of beads. -/
def homesOf (bs : List Bead) : List Nat := (bs.map (·.home)).eraseDups

/-- A bead of a strand that holds one of these home strands, in it or restrung from it (R319, log 13). -/
def Bead.ofHomes (hs : List Nat) (b : Bead) : Bool := hs.contains b.home

/-! ### Prefixes (R148 to R152) -/

def pfxOf (k : PfxKind) (ps : List Pfx) : List Pfx := ps.filter (·.kind == k)

/-- PFX.M's payload of a unit, zero without one (R151). -/
def modOf (ps : List Pfx) : BitVec 24 := match pfxOf .m ps with | p :: _ => p.payload | [] => 0
def negOf (ps : List Pfx) : Bool := (modOf ps).getLsbD 23
def modGuard (ps : List Pfx) : BitVec 3 := (modOf ps).extractLsb' 20 3
def modRnd (ps : List Pfx) : BitVec 3 := (modOf ps).extractLsb' 17 3
def modSat (ps : List Pfx) : Bool := (modOf ps).getLsbD 16
def modCache (ps : List Pfx) : BitVec 2 := (modOf ps).extractLsb' 14 2
def Ctx.neg (c : Ctx) : Bool := negOf c.pfx

/-- Immediate extension (R150): the unit's own field under its PFX.X payloads, outer first. -/
def immValue {w : Nat} (own : BitVec w) (ps : List Pfx) : DWord :=
  match pfxOf .x ps with
  | [] => own.signExtend 64
  | [x] => (x.payload ++ own).signExtend 64
  | x :: y :: _ => (x.payload ++ (y.payload ++ own)).signExtend 64

def Ctx.imm {w : Nat} (c : Ctx) (own : BitVec w) : DWord := immValue own c.pfx

/-! ### The end of a unit -/

/-- The unit is over: PC at the next word, prefixes used up, no wait (R148). -/
def Bead.advance (b : Bead) : Bead := { b with pc := b.pc + 4, pfx := [], held := none, wait := none, xfer := false }

/-- As `advance`, at another PC; `xfer` notes a control transfer for the check of R154. -/
def Bead.goTo (b : Bead) (pc : DWord) (xfer : Bool) : Bead :=
  { b with pc := pc, pfx := [], held := none, wait := none, xfer := xfer }

/-- The group's unit is over. -/
def Ctx.done (c : Ctx) (s : State) : State := c.onGrp s fun b => { b.advance with lastIssue := c.now s }

/-- The watchdog's instant of a bead whose unit issues into a wait: now, where it had been held before its issue (R272). -/
def Bead.issuedAt (now : Nat) (b : Bead) : Nat := if b.wait.any (·.kind == .issue) then now else b.lastIssue

/-- The group waits at its unit (R65, R160, R217): the record of `f` in each bead, the unit held. -/
def Ctx.waitAt (c : Ctx) (s : State) (i : Instr) (f : Bead → Option Wait) : State :=
  c.onGrp s fun b => { b with held := some i, wait := f b, lastIssue := b.issuedAt (c.now s) }

/-- A plain wait of a kind. -/
def plainWait (k : WaitKind) (s : State) (now : Nat) : Wait :=
  { kind := k, scr := false, addr := 0, scope := 0, cond := 0, cmp := 0, dst := 0, sat := none, order := s.nextId, since := now }

/-- The unit waits to issue, without effect: it has not issued yet (R160, R272). -/
def Ctx.holdIssue (c : Ctx) (s : State) (i : Instr) : State :=
  (c.onGrp s fun b =>
    { b with held := some i, lastIssue := c.lead.lastIssue, wait := some (b.wait.getD (plainWait .issue s (c.now s))) }).fresh

/-- The unit is held, waiting in kind k; a wait of that kind that has begun goes on. -/
def Ctx.hold (c : Ctx) (s : State) (i : Instr) (k : WaitKind) : State :=
  (c.waitAt s i fun b =>
    match b.wait with
    | some w => if w.kind == k then some w else some (plainWait k s (c.now s))
    | none => some (plainWait k s (c.now s))).fresh

/-! ### Records (R266, R327) -/

/-- A trap raised by a unit, with the fields of R267 that its code fills. -/
structure TrapReq where
  code : Byte
  va : DWord := 0
  lane : Byte := 0xFF
  reg : Byte := 0
  sreg : Bool := false
  origin : Byte := 0
  marker : Bool := false
  call : BitVec 10 := 0
  args : Option Reg := none
  dst : Reg := 0
deriving DecidableEq, Repr

/-- n bytes of zero. -/
def zeros (n : Nat) : List Byte := List.replicate n 0

def flagByte (bs : List Bool) : Byte :=
  BitVec.ofNat 8 (bs.foldr (fun b n => (if b then 1 else 0) + 2 * n) 0)

/-- TREC.BEADS of a group (R266). -/
def beadsByte (bs : List Bead) : Byte := flagByte ((List.range 8).map fun p => bs.any (·.pos == p))

/-- The slot of a launch's queue as its records name it (R266). -/
def slotHalf (n : Nat) : Half := BitVec.ofNat 16 n

/-- The trap record of R266; ARG is written for code 0x20 alone and is 0 for every other (R267). -/
def trapBytes (c : Ctx) (s : State) (t : TrapReq) (pc : DWord) : List Byte :=
  leBytes 1 t.code.toNat
    ++ [flagByte [t.marker, t.sreg, t.code == 0x0A, c.lead.diverted], t.lane, t.reg, t.origin, beadsByte c.beads]
    ++ leBytes 2 t.call.toNat ++ leBytes 8 pc.toNat ++ leBytes 8 t.va.toNat ++ leBytes 8 (c.now s)
    ++ leBytes 4 c.wg.w ++ leBytes 2 c.lead.home ++ leBytes 1 c.tower.val ++ leBytes 1 c.col ++ leBytes 1 c.wg.tier.val
    ++ zeros 1 ++ leBytes 2 c.asid.toNat ++ leBytes 2 c.l.slot ++ leBytes 2 (nodeIndex s c.l) ++ zeros 16
    ++ (List.range 8).flatMap fun p =>
        match t.code == 0x20, t.args, c.beads.find? (·.pos == p) with
        | true, some a, some b => leBytes 8 (b.sget a).toNat
        | _, _, _ => zeros 8

/-- A fault record of R327. -/
def faultBytes (kind cause need tier : Byte) (asid : Half) (tower : Four) (col : Nat) (va : DWord) (time wg cslot qslot node
    count : Nat) : List Byte :=
  [kind, cause, need, tier] ++ leBytes 2 asid.toNat ++ leBytes 1 tower.val ++ leBytes 1 col ++ leBytes 8 va.toNat
    ++ leBytes 8 time ++ leBytes 4 wg ++ leBytes 2 cslot ++ leBytes 2 qslot ++ leBytes 2 node ++ zeros 2
    ++ leBytes 4 count ++ zeros 24

def blankRec (id : Nat) (bytes : List Byte) : RingRec :=
  { id, bytes, awaits := false, code := 0, launch := 0, gang := 0, member := 0, homes := [], pc := 0, dst := 0,
    divert := false, strand := none, asid := 0, entry := none }

/-- The cellar slot of a gang as a record names it (R327). -/
def Gang.cslot (g : Gang) : Nat :=
  match g.place with
  | .resident .. => 0xFFFF
  | .saved n .. => n

/-- The k-th held record of a ring waits for room (R326): whatever raised it stays stopped, parked or held. A record that waits
for the ring's configuration holds nothing back (log 33). -/
def Ring.waits (r : Ring) (k : Nat) : Bool :=
  match r.cfg with
  | some c => !r.blocked && decide (2 ^ c.rlog ≤ (r.prod - r.cons).toNat + k)
  | none => false

/-- Some held record that a predicate picks waits for room. -/
def Ring.anyWaits (r : Ring) (p : RingRec → Bool) : Bool :=
  (r.held.mapIdx fun k x => p x && r.waits k).any id

/-- A trap record joins its tower's ring, to be written once there is room (R326). -/
def pushTrap (s : State) (t : Four) (r : RingRec) : State :=
  s.updTower t fun tw => { tw with trapq := { tw.trapq with held := tw.trapq.held ++ [r] } }

/-- A fault record joins its tower's ring. -/
def pushFault (s : State) (t : Four) (r : RingRec) : State :=
  s.updTower t fun tw => { tw with fltq := { tw.fltq with held := tw.fltq.held ++ [r] } }

/-- A fault record that awaits no reply, raised for a launch's work (R328). -/
def reportFault (s : State) (t : Four) (kind cause need : Byte) (l : Launch) (g : Option Gang) (col : Nat) (va : DWord)
    (w count : Nat) : State :=
  let bytes := faultBytes kind cause need 0 l.asid t col va (s.tower t).time w
    (match g with | some g => g.cslot | none => 0xFFFF) l.slot (nodeIndex s l) count
  (pushFault s t { blankRec s.nextId bytes with code := kind, launch := l.id, gang := (g.map (·.id)).getD 0 }).fresh

/-! ### Ending lanes and strands (R41, R45, R183) -/

/-- A bead whose lanes have all exited, work in flight apart (R183). -/
def Bead.kill (b : Bead) : Bead :=
  { b with exited := 0xF, active := 0, stack := [], pfx := [], held := none, wait := none, park := none, stop := none,
           divertDue := none, dying := false }

/-! ### Diversion of a bead (R345, R346) -/

/-- WHY.WAIT by the state of the bead (R345). -/
def whyWait (b : Bead) : BitVec 4 :=
  if b.stop.isSome then 8
  else if b.park.isSome then 9
  else match b.wait with
    | none => 0
    | some w =>
      match w.kind with
      | .bar | .barw => 1
      | .gbar => 2
      | .sigw => 3
      | .wpop => 4
      | .cwait => 5
      | .racq => 6
      | .clasp => 7
      | _ => 0

/-- A unit is under way: a prefix taken, or a word issued whose effect is not complete. A held unit that has had no
effect, or one of the waits of R345, is not. -/
def Bead.midUnit (b : Bead) : Bool :=
  match b.wait with
  | none => !b.pfx.isEmpty
  | some w =>
    match w.kind with
    | .confirm | .count | .fence | .settle | .bank | .other => true
    | _ => false

/-- The bead stands at a unit boundary in the sense of R148 and R345. -/
def Bead.atBoundary (b : Bead) : Bool := b.park.isSome || !b.midUnit

/-- A released wait's registers (R345): WPOP writes all ones, also in a bead that another group's trap has stopped, whose WHY.WAIT is 8
(the model's choice, log 101); the others write none. -/
def releaseWait (b : Bead) : Bead :=
  match b.wait with
  | some w => if w.kind == .wpop then b.sset w.dst (BitVec.allOnes 64) else b
  | none => b

/-- The instant from which the watchdog counts once a stop, a park or a wait ends: time stopped or parked is not counted, and a
group that leaves a wait begins anew (R272, R319, R320). -/
def Bead.issueAfter (now : Nat) (b : Bead) : Nat :=
  match b.stop, b.park with
  | some st, _ => now - st.used
  | none, some p => now - p.used
  | none, none => if whyWait b = 0 then b.lastIssue else now

/-- The three steps of R345 at a unit boundary. The PC that it sets is no target of a control transfer in the sense of R154 (the
model's choice, log 29). -/
def Bead.divert (l : Launch) (d : DivertDue) (now : Nat) (b : Bead) : Bead :=
  let b1 := releaseWait b
  { b1 with
      dpc := b.unitPc
      why := BitVec.setWidth 32 (BitVec.ofBool d.restored ++ d.wait ++ d.cause)
      pc := l.code + BitVec.setWidth 64 l.wrapEntry
      pfx := []
      xfer := false
      held := none
      wait := none
      park := none
      stop := none
      lastIssue := b.issueAfter now
      diverted := true
      divertDue := none }

/-- A diversion reaches a bead (R345): at once at a unit boundary, at the next one otherwise; a stop that awaits a reply is
kept, and the diversion is taken when it ends (R319). A parked bead does not wait for a record of its own that a full ring holds
back (the model's choice, log 87). WHY.WAIT tells its state at this instant. -/
def Bead.divertSoon (l : Launch) (cause : BitVec 4) (restored : Bool) (now : Nat) (b : Bead) : Bead :=
  let d : DivertDue := { cause, restored, wait := whyWait b }
  if !b.live || b.diverted || b.divertDue.isSome then b
  else if b.stop.isNone && b.atBoundary then b.divert l d now
  else { b with divertDue := some d }

/-! ### Taking a trap -/

/-- Under DIVERT, codes other than 0x0A, 0x20 and 0x21 await no reply and divert the launch (R332). -/
def divertCovers (l : Launch) (code : Byte) : Bool :=
  l.divertOnTrap && !(code == 0x0A || code == 0x20 || code == 0x21)

/-- The wait record of a BAR or GBAR outlives a replay, so that it does not arrive twice (R232, R233, R235). -/
def Bead.arrived (b : Bead) : Option Wait := b.wait.filter fun w => w.kind == .bar || w.kind == .gbar

/-- The group's beads stand again at the unit's first word, as though it had not issued (R318). -/
def Bead.rewind (b : Bead) : Bead := { b with pc := b.unitPc, pfx := [], held := none, wait := b.arrived }

/-- A unit held at issue has had no effect: where a save or a move takes the bead, it stands at the first prefix (R148). -/
def Bead.settleUnit (b : Bead) : Bead := if b.wait.any (·.kind == .issue) then b.rewind else b

/-- Where a move takes the bead, or its gang's restore brings it back: as `settleUnit` has it, and a CLASP at which it waits is issued
again (R184). -/
def Bead.reissued (b : Bead) : Bead := if b.wait.any fun w => w.kind == .issue || w.kind == .clasp then b.rewind else b

/-- The watchdog's time that a bead has used up; the time it has been parked does not count (R272, R320). -/
def Bead.used (now : Nat) (b : Bead) : Nat :=
  match b.park with
  | some p => p.used
  | none => now - b.lastIssue

/-- RETRY's replay: the group issues its unit again (R320); the time it was parked is not counted (R272). -/
def Bead.unpark (now : Nat) (b : Bead) : Bead :=
  match b.park with
  | some p => { b with park := none, lastIssue := now - p.used }
  | none => b

/-- A stop reaches a bead of the strand (R319): its own group stands at the trapping unit; a bead already stopped keeps its
stop. -/
def Bead.stopFor (trap grp : Nat) (code : Byte) (now : Nat) (b : Bead) : Bead :=
  let st (own : Bool) : Stop := { trap, own, code, used := b.used now, reply := none }
  if !b.live then b
  else if b.grp = grp then { b.rewind with stop := some (st true) }
  else if b.stop.isSome then b
  else { b with stop := some (st false) }

/-- TAKING A TRAP (R266, R267, R318, R319, R332, R333): the unit has no effect; the record, with reported PC `pc`, joins
the ring; the strand stops at the trapping unit. A code that R332 covers awaits no reply and its workgroup counts as faulted: the
record says that the launch is to be diverted, before any time passes, and that the strand is to be diverted with it, or, for a
bead diverted before, ended (settleTrap). `next` is where a RESUME continues (R330). -/
def takeTrapAt (c : Ctx) (s : State) (t : TrapReq) (pc next : DWord) : State :=
  let id := s.nextId
  let cover := divertCovers c.l t.code
  let homes := homesOf c.beads
  let r : RingRec :=
    { blankRec id (trapBytes c s t pc) with
        awaits := !cover, code := t.code, launch := c.l.id, gang := c.g.id, member := c.cur.member, homes, pc := next,
        dst := t.dst, divert := cover && !c.lead.diverted, strand := if cover then some c.lead.diverted else none }
  let s1 := (pushTrap s c.tower r).fresh
  s1.updWg c.cur.gang c.cur.member fun w =>
    let w1 := w.updBeads (Bead.ofHomes homes) (Bead.stopFor id c.cur.grp t.code (c.now s))
    { w1 with faulted := w.faulted || cover }

/-- A trap whose reported PC is the unit's first word (R148). -/
def takeTrap (c : Ctx) (s : State) (t : TrapReq) : State := takeTrapAt c s t c.upc (c.pc + 4)

/-! ### Parking -/

/-- An unanswered record of kind 1 to 3 that names the same space and absent entry (R328). -/
def sameAbsence (asid : Half) (entry : Nat) (r : RingRec) : Bool :=
  r.awaits && r.asid == asid && r.entry == some entry

/-- The record of a not-present event of kind 1 to 3 (R328): the one already there, or a new one. -/
def absence (s : State) (t : Four) (kind need : Byte) (tier : Byte) (l : Launch) (g : Gang) (w : Nat) (va : DWord) (entry : Nat) :
    State × Nat :=
  let ring := (s.tower t).fltq
  match (ring.held ++ ring.waiting.map (·.2)).find? (sameAbsence l.asid entry) with
  | some r => (s, r.id)
  | none =>
    let bytes := faultBytes kind 1 need tier l.asid t g.col va (s.tower t).time w g.cslot l.slot (nodeIndex s l) 1
    let r : RingRec := { blankRec s.nextId bytes with
      awaits := true, code := kind, launch := l.id, gang := g.id, asid := l.asid, entry := some entry }
    ((pushFault s t r).fresh, s.nextId)

/-- PARKING (R320, R328): the group stands at the unit's first word with the unit not begun, a trap record of code 0x0A with
RECOV is raised for `va` at the reported PC `pc`, and the unit is attached to a fault record of the kind for the lowest
address `fva` and its absent entry. -/
def parkAt (c : Ctx) (s : State) (kind need : Byte) (va : DWord) (lane : Byte) (fva : DWord) (entry : Nat) (pc : DWord) :
    State :=
  let trap := s.nextId
  let r : RingRec := { blankRec trap (trapBytes c s { code := 0x0A, va, lane } pc) with
    code := 0x0A, launch := c.l.id, gang := c.g.id, member := c.cur.member, homes := homesOf c.beads }
  let s1 := (pushTrap s c.tower r).fresh
  let (s2, id) := absence s1 c.tower kind need (if kind == 1 then BitVec.ofNat 8 c.wg.tier.val else 0) c.l c.g c.wg.w fva entry
  c.onGrp s2 fun b =>
    let p : Park := { record := id, trap, pc, next := c.pc + 4, va, lane, replay := false, fail := false,
                      used := c.now s - b.lastIssue }
    { b.rewind with park := some p }

/-- Parking with the unit's first word as the reported PC. -/
def park (c : Ctx) (s : State) (kind need : Byte) (va : DWord) (lane : Byte) (fva : DWord) (entry : Nat) : State :=
  parkAt c s kind need va lane fva entry c.upc

/-- A global address that a unit needs confirmed, with the lane that raises its trap. -/
structure Target where
  lane : Byte
  va : DWord
deriving DecidableEq, Repr

/-- The lowest of some absent pages' addresses, with its entry (R327). -/
def lowestAbsent : List (DWord × Nat) → Option (DWord × Nat)
  | [] => none
  | x :: xs =>
    match lowestAbsent xs with
    | none => some x
    | some y => if x.1.toNat ≤ y.1.toNat then some x else some y

/-- The failure of a confirmation (R217 f, g), lanes in rising order: a translation error or withheld permission traps with
0x09 in the first lane that meets one; else an absent page parks the group. None when all are confirmed. -/
def confFail (c : Ctx) (s : State) (kind : Byte) (n : Need) (ts : List Target) (conf : DWord → Conf) : Option State :=
  match ts.find? fun t => conf t.va == .error || conf t.va == .perm with
  | some t => some (takeTrap c s { code := 0x09, va := t.va, lane := t.lane })
  | none =>
    let gone := ts.filterMap fun t => (conf t.va).entry?.map fun e => (t, e)
    match gone, lowestAbsent (gone.map fun x => (x.1.va, x.2)) with
    | x :: _, some low => some (park c s kind n.code x.1.va x.1.lane low.1 low.2)
    | _, _ => none

/-! ### Tower time (R314, R341) -/

/-- The tower loses its lock. -/
def TimeLock.unlock (k : TimeLock) : TimeLock := { k with locked := false, lost := true, good := 0 }

/-- A locked tower with no sample for 10 ms of its own time has lost its lock (R341). -/
def Tower.lapse (tw : Tower) : Tower :=
  if tw.lock.locked && decide (tw.lock.lastSample + 10000000 ≤ tw.time) then { tw with lock := tw.lock.unlock } else tw

/-- A gang's leases over some tower time. -/
def Gang.leaseRuns (n : Nat) (g : Gang) : Gang :=
  { g with members := g.members.map fun w => { w with lease := w.lease.map fun r => r - n } }

/-- The towers with their counts moved on: the leases of resident workgroups run down by what their tower's count has gained
(R273, R314). -/
def State.setTimes (s : State) (tws : Quad Tower) : State :=
  { s with
      towers := tws
      gangs := s.gangs.map fun g =>
        if g.resident then g.leaseRuns ((tws.get g.tower).clock - (s.tower g.tower).clock).toNat else g }

/-! ### Beads and tile sets at launch (R53) -/

/-- The uninitialised marker of vn (R53, R79). -/
def marker (n : Nat) : Word := BitVec.ofNat 32 (0x7FA00000 + n)

/-- A lane's registers at launch (R53). -/
def Thread.start : Thread :=
  { v := Vector.mk ((List.range 64).map marker).toArray (by simp), p := 1 }

/-- A bead at launch (R53). Its role's ENTRY is no target of a control transfer in the sense of R154 (the model's choice, log 29). -/
def Bead.start (home pos role : Nat) (pc param : DWord) (now : Nat) : Bead :=
  { home, pos, role, entry := home, grp := home, pc, pfx := [], xfer := false, stack := [], active := 0xF, exited := 0,
    fmt := 0, s := (Vector.replicate 64 0).set 1 param, lanes := Quad.fill Thread.start, dpc := 0, why := 0, lops := [],
    sops := [], tops := [], pendV := 0, pendS := 0, gbars := 0, wait := none, held := none, stop := none, park := none,
    diverted := false, divertDue := none, dying := false, turn := 0, lastIssue := now }

/-- A tile set at launch (R53, R248). -/
def TileSet.start : TileSet :=
  { tiles := List.replicate 8 { ctl := 0, data := List.replicate 32 0, side := List.replicate 32 0 }, cbs := Quad.fill 0,
    lpitch := 0, dpitch := 0 }

/-! ### The return from a stop -/

/-- The stop of another trap of the strand, which goes on holding a bead whose own trap has been answered (R319). -/
def Wg.otherStop (w : Wg) (trap : Nat) (b : Bead) : Option Stop :=
  (w.beads.filterMap fun x => x.stop.filter fun st => st.own && st.trap != trap).find? fun st =>
    w.beads.any fun x => x.home == b.home && x.stop.any (fun y => y.own && y.trap == st.trap)

/-- A stop ends; another trap of the strand goes on holding the bead (`other`). -/
def Bead.endStop (other : Option Stop) (now : Nat) (st : Stop) (b : Bead) : Bead :=
  { b with lastIssue := now - st.used
           stop := other.map fun (x : Stop) => { x with own := false, used := st.used, reply := none } }

/-- A diversion that fell during a stop is taken at the PC at which the stop ends (R345). -/
def Bead.takeDivert (l : Launch) (now : Nat) (b : Bead) : Bead :=
  match b.stop, b.divertDue with
  | none, some d => if b.atBoundary then b.divert l d now else b
  | _, _ => b

/-- RESUME's effect on a bead that trap `trap` stopped (R268, R330): the trapping group goes on at `pc`, or, for code 0x10, with
the release of its SETTLE; s[dst] takes the value of code 0x20; for code 0x3F the unit issues again, a BAR or GBAR with the wait
record of its arrival, so that it does not arrive twice (R319; the model's choice, log 88), and the watchdog's period restarts. -/
def Bead.resumed (l : Launch) (trap : Nat) (dst : Reg) (val pc : DWord) (other : Option Stop) (now : Nat) (b : Bead) : Bead :=
  match b.stop with
  | none => b
  | some st =>
    if st.trap ≠ trap then b
    else if !st.own then (b.endStop other now st).takeDivert l now
    else
      let b1 := (if st.code == 0x20 then b.sset dst val else b).endStop other now st
      if st.code == 0x10 then
        { b1 with
            pc := pc - 4
            held := some (.settle (dst.setWidth 3))
            wait := some { kind := .settle, scr := false, addr := 0, scope := 0, cond := 0, cmp := 0, dst := 0, sat := some 0,
                           order := 0, since := now } }
      else
        let b2 := b1.goTo pc false
        (if st.code == 0x3F then { b2 with wait := b.arrived, lastIssue := now } else b2).takeDivert l now

/-- A stop of trap `trap` ends with a diversion at the trapping unit, or at the next boundary of a group that has not reached one
(R330, R332, R345); a diversion that is due already gives its own cause and says whether
it met the bead at a restore (R346, R347); a bead diverted before is diverted `again` or only
released. -/
def Bead.divertStopped (l : Launch) (trap : Nat) (cause : BitVec 4) (restored again : Bool) (other : Option Stop) (now : Nat)
    (b : Bead) : Bead :=
  match b.stop with
  | none => b
  | some st =>
    if st.trap ≠ trap then b
    else
      let b1 := b.endStop other now st
      if b.diverted && !again then b1
      else
        let d : DivertDue := match b.divertDue with
          | some x => { x with restored := x.restored || restored, wait := 8 }
          | none => { cause, restored, wait := 8 }
        ({ b1 with divertDue := some d }).takeDivert l now

/-- A reply that was kept for the restore of a bead's gang (R339), or until its save was given up. -/
def Bead.takeReply (l : Launch) (restored : Bool) (other : Option Stop) (now : Nat) (b : Bead) : Bead :=
  match b.stop with
  | none => b
  | some st =>
    match st.reply with
    | none => b
    | some (.resume val dst pc) => b.resumed l st.trap dst val pc other now
    | some (.divert cause) => b.divertStopped l st.trap cause restored true other now

/-- Every bead of a workgroup through a function of the other trap that goes on holding it, if any. -/
def Wg.mapStops (w : Wg) (trap : Bead → Nat) (f : Option Stop → Bead → Bead) : Wg :=
  { w with beads := w.beads.map fun b => f (w.otherStop (trap b) b) b }

end Sys2Proof.Machine
end

