-- ==== Sys2Proof/Machine/Flags.lean ====
section
/-!
DEFINITION. The format register FMT (R74), rounding mode and saturation of a unit (R75), and the predicate bits that
comparisons write (R203). The device keeps no arithmetic flags (R199).
-/

namespace Sys2Proof.Machine

/-- The element formats, by code (R69, R70, R72, R73). -/
inductive Elem where
  | f32 | bf16 | f16 | e4m3 | e5m2 | e2m1 | c4 | i8 | n8 | mx8 | mx4 | i32
deriving DecidableEq, Repr

def Elem.ofCode (c : BitVec 4) : Option Elem :=
  match c.toNat with
  | 0 => some .f32
  | 1 => some .bf16
  | 2 => some .f16
  | 3 => some .e4m3
  | 4 => some .e5m2
  | 5 => some .e2m1
  | 6 => some .c4
  | 7 => some .i8
  | 8 => some .n8
  | 9 => some .mx8
  | 10 => some .mx4
  | 11 => some .i32
  | _ => none

/-- Bits of an element (R69 to R73). -/
def Elem.width : Elem → Nat
  | .f32 | .i32 => 32
  | .bf16 | .f16 => 16
  | .e4m3 | .e5m2 | .i8 | .n8 | .mx8 => 8
  | .e2m1 | .c4 | .mx4 => 4

def fmtElem (f : BitVec 12) : Elem := (Elem.ofCode (f.extractLsb' 0 4)).getD .f32
def fmtCb (f : BitVec 12) : Four := Four.ofNat (f.extractLsb' 4 2).toNat
def fmtScale (f : BitVec 12) : Nat := (f.extractLsb' 6 2).toNat
def fmtRnd (f : BitVec 12) : BitVec 3 := f.extractLsb' 8 3
def fmtSat (f : BitVec 12) : Bool := f.getLsbD 11

/-- Elements in a word under FMT.ELEM (R82). -/
def elemsOf (f : BitVec 12) : Nat := 32 / (fmtElem f).width

/-- ELEM 12 to 15, SCALE 3, RND 6 and 7 are reserved (R74). -/
def fmtReserved (f : BitVec 12) : Bool :=
  decide (12 ≤ (f.extractLsb' 0 4).toNat) || fmtScale f == 3 || decide (6 ≤ (fmtRnd f).toNat)

/-- The rounding modes of R75. -/
inductive Rnd where
  | rn | rz | ru | rd | rna
deriving DecidableEq, Repr

/-- RND codes of R74 and R151; 0 is RN. -/
def Rnd.ofCode (c : BitVec 3) : Rnd :=
  match c.toNat with
  | 2 => .rz
  | 3 => .ru
  | 4 => .rd
  | 5 => .rna
  | _ => .rn

/-- The mode of an ordinary unit: the prefix's, else RN (R75). -/
def Ctx.rnd (c : Ctx) : Rnd := Rnd.ofCode (modRnd c.pfx)

/-- The mode of VCVT and VLDS.DQ: the prefix's, else FMT's (R75). -/
def Ctx.rndFmt (c : Ctx) (f : BitVec 12) : Rnd := Rnd.ofCode (if modRnd c.pfx == 0 then fmtRnd f else modRnd c.pfx)

def Ctx.sat (c : Ctx) : Bool := modSat c.pfx
def Ctx.satFmt (c : Ctx) (f : BitVec 12) : Bool := modSat c.pfx || fmtSat f

/-- A predicate written in the lanes of each bead in which the guard holds (R203); inactive lanes keep theirs. -/
def Ctx.setPreds (c : Ctx) (s : State) (g d : BitVec 3) (f : Bead → Four → Bool) : State :=
  c.done (c.onGrp s fun b => b.onLanes (b.lanesOn g c.neg) fun k r => r.pset k d (f b k))

end Sys2Proof.Machine
end

