-- ==== Sys2Proof/Machine/Operands.lean ====
section
/-!
DEFINITION. What a word accepts and names (R141, R145, R150, R153), the checks of R159 in their order, the issue of a unit
through them, and the operand forms: effective addresses (R156) and lane-wise results.
-/

namespace Sys2Proof.Machine

/-- What a word accepts before it (R150, R153): how many PFX.X, and which fields of PFX.M. -/
structure Accept where
  xs : Nat := 0
  neg : Bool := false
  guard : Bool := false
  rndSat : Bool := false
  cache : Bool := false
deriving DecidableEq, Repr

/-- A register that a word names: a scalar, or a group of vector registers by its first. -/
inductive Named where
  | sc (r : Reg)
  | vec (r : Reg) (k : Nat)
deriving DecidableEq, Repr

/-- A b field of 0 names no offset register (R156). -/
def offReg (b : Reg) : List Named := if b = 0 then [] else [.vec b 1]

/-- The prefixes a word accepts (R150, R153). -/
def accepts : Instr → Accept
  | .bra .. | .br .. | .brany .. | .brall .. | .call .. => { xs := 1, neg := true }
  | .ret .. | .jmpr .. | .callr .. | .exit .. => { neg := true }
  | .sadd .. | .ssub .. | .smul .. | .smulh .. | .smulhn .. | .sdiv .. | .sdivn .. | .srem .. | .sremn ..
  | .sand .. | .sor .. | .sxor .. | .sshl .. | .sshr .. | .ssra .. | .smin .. | .smax .. | .sminn ..
  | .smaxn .. | .sseq .. | .sslt .. | .ssltn .. | .ssel .. => { neg := true }
  | .saddi .. | .sandi .. | .sori .. | .sxori .. | .sshli .. | .sshri .. | .ssrai .. | .sli .. => { xs := 2, neg := true }
  | .vadd .. | .vsub .. | .vmul .. | .vmulh .. | .vmulhn .. | .vmad .. | .vand .. | .vor .. | .vxor ..
  | .vandn .. | .vshl .. | .vshr .. | .vsra .. | .vmin .. | .vmax .. | .vminn .. | .vmaxn .. | .vabs ..
  | .vneg .. | .vpopc .. | .vclz .. | .vbrev .. | .vsel .. | .vmov .. | .vseq .. | .vsne .. | .vslt ..
  | .vsle .. | .vsltn .. | .vslen .. | .vfseq .. | .vfsne .. | .vfslt .. | .vfsle .. | .vfsun .. | .pand ..
  | .por .. | .pxor .. | .pandn .. | .pmov .. | .vbfe .. | .vbfes .. | .vbfi .. | .vshfl .. | .vshflx ..
  | .vshflu .. | .vshfld .. | .vbcst .. | .vvote .. | .vreds .. | .vscan .. | .vfabs .. | .vfneg ..
  | .vfcps .. | .vfcls .. => { neg := true }
  | .vaddi .. | .vandi .. | .vori .. | .vxori .. | .vshli .. | .vshri .. | .vsrai .. | .vli .. => { xs := 1, neg := true }
  | .vfadd .. | .vfsub .. | .vfmul .. | .vfma .. | .vfms .. | .vfnma .. | .vfmin .. | .vfmax .. | .vfrnd ..
  | .vhadd .. | .vhsub .. | .vhmul .. | .vhfma .. | .vhmin .. | .vhmax .. | .vrcp .. | .vrsq .. | .vsqrt ..
  | .vfdiv .. | .vexp2 .. | .vlog2 .. | .vsin .. | .vcos .. | .vtanh .. | .vcvt .. => { neg := true, rndSat := true }
  | .vld .. | .vst .. | .sld .. | .sst .. => { xs := 2, neg := true, cache := true }
  | .vlds .. | .vsts .. => { xs := 2, neg := true }
  | .vldsDq .. => { xs := 2, neg := true, rndSat := true }
  | .vatom .. | .vred .. => { xs := 2, neg := true, guard := true }
  | .acopy .. | .acopyo .. | .acopyt .. | .acopyg .. | .tld .. | .tldt .. | .tst .. => { cache := true }
  | _ => {}

/-- The guard of a unit (R145, R146): the word's field, or a modifier prefix's for the M' forms. -/
def guardOf (i : Instr) (ps : List Pfx) : BitVec 3 :=
  match i with
  | .bra g _ => g
  | .br g _ => g
  | .brany g _ => g
  | .brall g _ => g
  | .call g _ => g
  | .ret g => g
  | .jmpr _ g => g
  | .callr _ g => g
  | .exit g => g
  | .sadd _ _ _ g => g
  | .ssub _ _ _ g => g
  | .smul _ _ _ g => g
  | .smulh _ _ _ g => g
  | .smulhn _ _ _ g => g
  | .sdiv _ _ _ g => g
  | .sdivn _ _ _ g => g
  | .srem _ _ _ g => g
  | .sremn _ _ _ g => g
  | .sand _ _ _ g => g
  | .sor _ _ _ g => g
  | .sxor _ _ _ g => g
  | .sshl _ _ _ g => g
  | .sshr _ _ _ g => g
  | .ssra _ _ _ g => g
  | .smin _ _ _ g => g
  | .smax _ _ _ g => g
  | .sminn _ _ _ g => g
  | .smaxn _ _ _ g => g
  | .sseq _ _ _ g => g
  | .sslt _ _ _ g => g
  | .ssltn _ _ _ g => g
  | .ssel _ _ _ g => g
  | .saddi _ _ g _ => g
  | .sandi _ _ g _ => g
  | .sori _ _ g _ => g
  | .sxori _ _ g _ => g
  | .sshli _ _ g _ => g
  | .sshri _ _ g _ => g
  | .ssrai _ _ g _ => g
  | .sli _ g _ => g
  | .vadd _ _ _ g => g
  | .vsub _ _ _ g => g
  | .vmul _ _ _ g => g
  | .vmulh _ _ _ g => g
  | .vmulhn _ _ _ g => g
  | .vmad _ _ _ g => g
  | .vand _ _ _ g => g
  | .vor _ _ _ g => g
  | .vxor _ _ _ g => g
  | .vandn _ _ _ g => g
  | .vshl _ _ _ g => g
  | .vshr _ _ _ g => g
  | .vsra _ _ _ g => g
  | .vmin _ _ _ g => g
  | .vmax _ _ _ g => g
  | .vminn _ _ _ g => g
  | .vmaxn _ _ _ g => g
  | .vabs _ _ g => g
  | .vneg _ _ g => g
  | .vpopc _ _ g => g
  | .vclz _ _ g => g
  | .vbrev _ _ g => g
  | .vsel _ _ _ g => g
  | .vmov _ _ g => g
  | .vaddi _ _ g _ => g
  | .vandi _ _ g _ => g
  | .vori _ _ g _ => g
  | .vxori _ _ g _ => g
  | .vshli _ _ g _ => g
  | .vshri _ _ g _ => g
  | .vsrai _ _ g _ => g
  | .vli _ g _ => g
  | .vseq _ _ _ g => g
  | .vsne _ _ _ g => g
  | .vslt _ _ _ g => g
  | .vsle _ _ _ g => g
  | .vsltn _ _ _ g => g
  | .vslen _ _ _ g => g
  | .vfseq _ _ _ g => g
  | .vfsne _ _ _ g => g
  | .vfslt _ _ _ g => g
  | .vfsle _ _ _ g => g
  | .vfsun _ _ _ g => g
  | .pand _ _ _ g => g
  | .por _ _ _ g => g
  | .pxor _ _ _ g => g
  | .pandn _ _ _ g => g
  | .pmov _ _ g => g
  | .vbfe _ _ _ g => g
  | .vbfes _ _ _ g => g
  | .vbfi _ _ _ g => g
  | .vfadd _ _ _ g => g
  | .vfsub _ _ _ g => g
  | .vfmul _ _ _ g => g
  | .vfma _ _ _ g => g
  | .vfms _ _ _ g => g
  | .vfnma _ _ _ g => g
  | .vfmin _ _ _ g => g
  | .vfmax _ _ _ g => g
  | .vfabs _ _ g => g
  | .vfneg _ _ g => g
  | .vfcps _ _ _ g => g
  | .vfrnd _ _ g => g
  | .vfcls _ _ g => g
  | .vhadd _ _ _ g _ => g
  | .vhsub _ _ _ g _ => g
  | .vhmul _ _ _ g _ => g
  | .vhfma _ _ _ g _ => g
  | .vhmin _ _ _ g _ => g
  | .vhmax _ _ _ g _ => g
  | .vrcp _ _ g => g
  | .vrsq _ _ g => g
  | .vsqrt _ _ g => g
  | .vfdiv _ _ _ g => g
  | .vexp2 _ _ g => g
  | .vlog2 _ _ g => g
  | .vsin _ _ g => g
  | .vcos _ _ g => g
  | .vtanh _ _ g => g
  | .vcvt _ _ _ g _ => g
  | .vshfl _ _ _ g => g
  | .vshflx _ _ _ g => g
  | .vshflu _ _ _ g => g
  | .vshfld _ _ _ g => g
  | .vbcst _ _ g => g
  | .vvote _ _ g => g
  | .vreds _ _ _ g => g
  | .vscan _ _ _ _ g => g
  | .vld _ _ _ g _ _ _ => g
  | .vst _ _ _ g _ _ => g
  | .sld _ _ _ g _ _ => g
  | .sst _ _ _ g _ => g
  | .vlds _ _ _ g _ _ => g
  | .vldsDq _ _ _ g => g
  | .vsts _ _ _ g _ => g
  | .vatom .. | .vred .. => modGuard ps
  | _ => 0

/-- The strand collectives (R43). -/
def collective : Instr → Bool
  | .tcfg .. | .tcb .. | .tzero .. | .tld .. | .tst .. | .tldt .. | .tmma .. | .tmmab .. | .tmmas ..
  | .tmmasb .. | .tquant .. | .tqcb .. | .racqWait .. | .racqTry .. | .rrel .. => true
  | _ => false

/-- The registers that a unit's word names, in the order of its fields from bit 31 down (R159): groups by their first
register and size. `fmt` decides the sizes of VCVT fn 29, 30 and VLDS.DQ (R82, R222). -/
def named (fmt : BitVec 12) : Instr → List Named
  | .sadd d a b _ => [.sc d, .sc a, .sc b]
  | .ssub d a b _ => [.sc d, .sc a, .sc b]
  | .smul d a b _ => [.sc d, .sc a, .sc b]
  | .smulh d a b _ => [.sc d, .sc a, .sc b]
  | .smulhn d a b _ => [.sc d, .sc a, .sc b]
  | .sdiv d a b _ => [.sc d, .sc a, .sc b]
  | .sdivn d a b _ => [.sc d, .sc a, .sc b]
  | .srem d a b _ => [.sc d, .sc a, .sc b]
  | .sremn d a b _ => [.sc d, .sc a, .sc b]
  | .sand d a b _ => [.sc d, .sc a, .sc b]
  | .sor d a b _ => [.sc d, .sc a, .sc b]
  | .sxor d a b _ => [.sc d, .sc a, .sc b]
  | .sshl d a b _ => [.sc d, .sc a, .sc b]
  | .sshr d a b _ => [.sc d, .sc a, .sc b]
  | .ssra d a b _ => [.sc d, .sc a, .sc b]
  | .smin d a b _ => [.sc d, .sc a, .sc b]
  | .smax d a b _ => [.sc d, .sc a, .sc b]
  | .sminn d a b _ => [.sc d, .sc a, .sc b]
  | .smaxn d a b _ => [.sc d, .sc a, .sc b]
  | .sseq d a b _ => [.sc d, .sc a, .sc b]
  | .sslt d a b _ => [.sc d, .sc a, .sc b]
  | .ssltn d a b _ => [.sc d, .sc a, .sc b]
  | .ssel d a b _ => [.sc d, .sc a, .sc b]
  | .saddi d a _ _ => [.sc d, .sc a]
  | .sandi d a _ _ => [.sc d, .sc a]
  | .sori d a _ _ => [.sc d, .sc a]
  | .sxori d a _ _ => [.sc d, .sc a]
  | .sshli d a _ _ => [.sc d, .sc a]
  | .sshri d a _ _ => [.sc d, .sc a]
  | .ssrai d a _ _ => [.sc d, .sc a]
  | .sli d _ _ => [.sc d]
  | .jmpr a _ => [.sc a]
  | .callr a _ => [.sc a]
  | .srd d code => if (SReg.ofCode code).any SReg.perLane then [.vec d 1] else [.sc d]
  | .swr a _ => [.sc a]
  | .vmovs d a pair _ => [.vec d (if pair == 1 then 2 else 1), .sc a]
  | .smovv d a pair _ _ _ => [.sc d, .vec a (if pair == 1 then 2 else 1)]
  | .sfmt a => [.sc a]
  | .vadd d a b _ => [.vec d 1, .vec a 1, .vec b 1]
  | .vsub d a b _ => [.vec d 1, .vec a 1, .vec b 1]
  | .vmul d a b _ => [.vec d 1, .vec a 1, .vec b 1]
  | .vmulh d a b _ => [.vec d 1, .vec a 1, .vec b 1]
  | .vmulhn d a b _ => [.vec d 1, .vec a 1, .vec b 1]
  | .vmad d a b _ => [.vec d 1, .vec a 1, .vec b 1]
  | .vand d a b _ => [.vec d 1, .vec a 1, .vec b 1]
  | .vor d a b _ => [.vec d 1, .vec a 1, .vec b 1]
  | .vxor d a b _ => [.vec d 1, .vec a 1, .vec b 1]
  | .vandn d a b _ => [.vec d 1, .vec a 1, .vec b 1]
  | .vshl d a b _ => [.vec d 1, .vec a 1, .vec b 1]
  | .vshr d a b _ => [.vec d 1, .vec a 1, .vec b 1]
  | .vsra d a b _ => [.vec d 1, .vec a 1, .vec b 1]
  | .vmin d a b _ => [.vec d 1, .vec a 1, .vec b 1]
  | .vmax d a b _ => [.vec d 1, .vec a 1, .vec b 1]
  | .vminn d a b _ => [.vec d 1, .vec a 1, .vec b 1]
  | .vmaxn d a b _ => [.vec d 1, .vec a 1, .vec b 1]
  | .vabs d a _ => [.vec d 1, .vec a 1]
  | .vneg d a _ => [.vec d 1, .vec a 1]
  | .vpopc d a _ => [.vec d 1, .vec a 1]
  | .vclz d a _ => [.vec d 1, .vec a 1]
  | .vbrev d a _ => [.vec d 1, .vec a 1]
  | .vsel d a b _ => [.vec d 1, .vec a 1, .vec b 1]
  | .vmov d a _ => [.vec d 1, .vec a 1]
  | .vbfe d a b _ => [.vec d 1, .vec a 1, .vec b 1]
  | .vbfes d a b _ => [.vec d 1, .vec a 1, .vec b 1]
  | .vbfi d a b _ => [.vec d 1, .vec a 1, .vec b 1]
  | .vfadd d a b _ => [.vec d 1, .vec a 1, .vec b 1]
  | .vfsub d a b _ => [.vec d 1, .vec a 1, .vec b 1]
  | .vfmul d a b _ => [.vec d 1, .vec a 1, .vec b 1]
  | .vfma d a b _ => [.vec d 1, .vec a 1, .vec b 1]
  | .vfms d a b _ => [.vec d 1, .vec a 1, .vec b 1]
  | .vfnma d a b _ => [.vec d 1, .vec a 1, .vec b 1]
  | .vfmin d a b _ => [.vec d 1, .vec a 1, .vec b 1]
  | .vfmax d a b _ => [.vec d 1, .vec a 1, .vec b 1]
  | .vfabs d a _ => [.vec d 1, .vec a 1]
  | .vfneg d a _ => [.vec d 1, .vec a 1]
  | .vfcps d a b _ => [.vec d 1, .vec a 1, .vec b 1]
  | .vfrnd d a _ => [.vec d 1, .vec a 1]
  | .vfcls d a _ => [.vec d 1, .vec a 1]
  | .vhadd d a b _ _ => [.vec d 1, .vec a 1, .vec b 1]
  | .vhsub d a b _ _ => [.vec d 1, .vec a 1, .vec b 1]
  | .vhmul d a b _ _ => [.vec d 1, .vec a 1, .vec b 1]
  | .vhfma d a b _ _ => [.vec d 1, .vec a 1, .vec b 1]
  | .vhmin d a b _ _ => [.vec d 1, .vec a 1, .vec b 1]
  | .vhmax d a b _ _ => [.vec d 1, .vec a 1, .vec b 1]
  | .vrcp d a _ => [.vec d 1, .vec a 1]
  | .vrsq d a _ => [.vec d 1, .vec a 1]
  | .vsqrt d a _ => [.vec d 1, .vec a 1]
  | .vfdiv d a b _ => [.vec d 1, .vec a 1, .vec b 1]
  | .vexp2 d a _ => [.vec d 1, .vec a 1]
  | .vlog2 d a _ => [.vec d 1, .vec a 1]
  | .vsin d a _ => [.vec d 1, .vec a 1]
  | .vcos d a _ => [.vec d 1, .vec a 1]
  | .vtanh d a _ => [.vec d 1, .vec a 1]
  | .vshfl d a b _ => [.vec d 1, .vec a 1, .vec b 1]
  | .vshflx d a b _ => [.vec d 1, .vec a 1, .vec b 1]
  | .vshflu d a b _ => [.vec d 1, .vec a 1, .vec b 1]
  | .vshfld d a b _ => [.vec d 1, .vec a 1, .vec b 1]
  | .vbcst d a _ => [.vec d 1, .vec a 1]
  | .vvote d a _ => [.vec d 1, .vec a 1]
  | .vreds d a _ _ => [.vec d 1, .vec a 1]
  | .vscan d a _ _ _ => [.vec d 1, .vec a 1]
  | .vaddi d a _ _ => [.vec d 1, .vec a 1]
  | .vandi d a _ _ => [.vec d 1, .vec a 1]
  | .vori d a _ _ => [.vec d 1, .vec a 1]
  | .vxori d a _ _ => [.vec d 1, .vec a 1]
  | .vshli d a _ _ => [.vec d 1, .vec a 1]
  | .vshri d a _ _ => [.vec d 1, .vec a 1]
  | .vsrai d a _ _ => [.vec d 1, .vec a 1]
  | .vli d _ _ => [.vec d 1]
  | .vseq _ a b _ => [.vec a 1, .vec b 1]
  | .vsne _ a b _ => [.vec a 1, .vec b 1]
  | .vslt _ a b _ => [.vec a 1, .vec b 1]
  | .vsle _ a b _ => [.vec a 1, .vec b 1]
  | .vsltn _ a b _ => [.vec a 1, .vec b 1]
  | .vslen _ a b _ => [.vec a 1, .vec b 1]
  | .vfseq _ a b _ => [.vec a 1, .vec b 1]
  | .vfsne _ a b _ => [.vec a 1, .vec b 1]
  | .vfslt _ a b _ => [.vec a 1, .vec b 1]
  | .vfsle _ a b _ => [.vec a 1, .vec b 1]
  | .vfsun _ a b _ => [.vec a 1, .vec b 1]
  | .vcvt d a b _ fn =>
    [.vec d (if fn == 30 then elemsOf fmt else cvtDests fn), .vec a (if fn == 29 then elemsOf fmt else cvtSrcs fn)]
      ++ if fn == 2 || fn == 3 then [.vec b 1] else []
  | .vld d a b _ _ _ size => [.vec d (sizeRegs size), .sc a] ++ offReg b
  | .vst d a b _ _ size => [.vec d (sizeRegs size), .sc a] ++ offReg b
  | .vlds d a b _ _ size => [.vec d (sizeRegs size), .sc a] ++ offReg b
  | .vsts d a b _ size => [.vec d (sizeRegs size), .sc a] ++ offReg b
  | .vldsDq d a b _ => [.vec d (elemsOf fmt), .sc a] ++ offReg b
  | .sld d a b _ _ _ => [.sc d, .sc a, .sc b]
  | .sst d a b _ _ => [.sc d, .sc a, .sc b]
  | .vatom d a b _ op => [.vec d (atomRegs op), .sc a] ++ offReg b
  | .vred d a b _ op => [.vec d (if op == 2 then 2 else 1), .sc a] ++ offReg b
  | .acopy d a => [.sc d, .sc a]
  | .acopyo d a => [.sc d, .sc a]
  | .acopyt d a => [.sc d, .sc a]
  | .acopyg d a geo => [.sc d, .sc a, .sc geo]
  | .cclose d => [.sc d]
  | .cwait a => [.sc a]
  | .tcfg _ s _ => [.sc s]
  | .tcb _ s _ => [.sc s]
  | .tld _ s _ _ => [.sc s]
  | .tst _ s _ _ => [.sc s]
  | .tldt _ s _ => [.sc s]
  | .tmma _ _ s _ => [.sc s]
  | .tmmas _ _ s _ => [.sc s]
  | .tquant _ s _ => [.sc s]
  | .tqcb _ s _ => [.sc s]
  | .bgemv d a _ geo => [.sc d, .sc a, .sc geo]
  | .bara d a _ _ => [.sc d, .sc a]
  | .barw d a _ _ => [.sc d, .sc a]
  | .bar d a _ _ => [.sc d, .sc a]
  | .sigw d a _ _ => [.sc d, .sc a]
  | .sigp d a _ _ => [.sc d, .sc a]
  | .wpop d a _ _ => [.sc d, .sc a]
  | .trap d a _ => [.sc d, .sc a]
  | .dlr d => [.sc d]
  | .clk d => [.sc d]
  | .time d => [.sc d]
  | _ => []

/-! ### The checks of R159 -/

/-- A prefix with a reserved bit or field value (R158). -/
def pfxReserved (p : Pfx) : Bool :=
  p.resv || match p.kind with
    | .x => false
    | .m => decide (6 ≤ (p.payload.extractLsb' 17 3).toNat) || p.payload.extractLsb' 14 2 == 3
    | .h => p.payload.extractLsb' 2 2 == 3

/-- Prefix misuse before a word (R154): too many of a kind, a field it does not accept, or NEG with guard 0. -/
def misuse (i : Instr) (ps : List Pfx) : Bool :=
  let a := accepts i
  decide (a.xs < (pfxOf .x ps).length) || decide (1 < (pfxOf .m ps).length) || decide (1 < (pfxOf .h ps).length)
    || (negOf ps && (!a.neg || guardOf i ps == 0)) || (modGuard ps != 0 && !a.guard)
    || ((modRnd ps != 0 || modSat ps) && !a.rndSat) || (modCache ps != 0 && !a.cache)

/-- The groups that the live beads of a set form. -/
def groupsOf (bs : List Bead) : List Nat := ((bs.filter Bead.live).map (·.grp)).eraseDups

/-- A strand is parted while its live beads form more than one group (R41); a bead that left by restringing counts at its
home strand (R43). -/
def parted (w : Wg) (b : Bead) : Bool :=
  decide (1 < (groupsOf (w.beads.filter fun x => if b.entry < 32 then x.home == b.home else x.entry == b.entry)).length)

/-- Trap 0x0B or 0x0C of a strand collective (R43). In a restrung strand that is itself parted both fit; the model takes 0x0B
(log 67). -/
def collectiveTrap (c : Ctx) : Option Byte :=
  if parted c.wg c.lead then some 0x0B else if 32 ≤ c.lead.entry then some 0x0C else none

/-- The blocks held by the group's beads (R60): those of their home strands, which agree in a restrung strand (R46). -/
def Ctx.blocks (c : Ctx) : BitVec 8 :=
  match c.wg.strands.find? (·.id == c.lead.home) with
  | some st => st.blocks
  | none => 0

/-- The registers of a name, lowest first; `true` marks a scalar. A group that FMT misaligns ends at v63 (R211). -/
def Named.regs : Named → List (Bool × Nat)
  | .sc r => [(true, r.toNat)]
  | .vec r k => (List.range (min k (64 - r.toNat))).map fun j => (false, r.toNat + j)

def blockHeld (bl : BitVec 8) (r : Bool × Nat) : Bool := r.1 || bl.getLsbD (r.2 / 8)

def pendingIn (b : Bead) (r : Bool × Nat) : Bool := if r.1 then b.pendS.getLsbD r.2 else b.pendV.getLsbD r.2

/-- Checks 1 to 6 of R159: the trap of the first that fails; a transfer into a unit is misuse, reported at its target (R154). -/
def unitTrap (i : Instr) (c : Ctx) : Option TrapReq :=
  if illegalFields i then some { code := 0x01 }
  else if misuse i c.pfx || c.lead.xfer then some { code := 0x03 }
  else if c.cur.resv || reservedFields i || c.pfx.any pfxReserved then some { code := 0x02 }
  else
    match if collective i then collectiveTrap c else none with
    | some k => some { code := k }
    | none =>
      let rs := (named c.lead.fmt i).flatMap Named.regs
      match rs.find? fun r => !blockHeld c.blocks r with
      | some r => some { code := 0x0F, reg := BitVec.ofNat 8 r.2 }
      | none =>
        match rs.find? fun r => c.beads.any (pendingIn · r) with
        | some r => some { code := 0x05, reg := BitVec.ofNat 8 r.2, sreg := r.1 }
        | none => none

/-- The unit issues: its place in the round-robin order and the watchdog's instant (R64, R272); a held unit that is judged
again keeps the instant it began. -/
def Ctx.stamp (c : Ctx) (s : State) : State :=
  (c.onGrp s fun b =>
    { b with turn := s.nextId, lastIssue := if b.held.isSome then b.lastIssue else c.now s }).fresh

/-- A word that R160 counts, or any T-form word (R309). -/
def countedWord : Instr → Bool
  | .vld .. | .vst .. | .sld .. | .sst .. | .vlds .. | .vldsDq .. | .vsts .. | .vatom .. => true
  | .tcfg .. | .tcb .. | .tzero .. | .tld .. | .tst .. | .tldt .. | .tmma .. | .tmmab .. | .tmmas .. | .tmmasb .. => true
  | .tquant .. | .tqcb .. => true
  | _ => false

def copyWord : Instr → Bool
  | .acopy .. | .acopyo .. | .acopyt .. | .acopyg .. => true
  | _ => false

/-- While a save or move of its workgroup is pending, a word that R309, R312 or R335 names does not issue. -/
def Ctx.withheld (c : Ctx) (i : Instr) : Bool :=
  (c.g.pending.isSome && (countedWord i || copyWord i)) || (c.wg.move.isSome && countedWord i)

/-- THE ISSUE OF A UNIT (R159, R318): the checks in order, the first that fails raising its trap, then the word's own
effect, unless a pending save or move withholds the word. Without a live issuing group there is nothing to issue (log 7). -/
def issue (i : Instr) (s : State) (own : Ctx → State → State) : Res :=
  match s.ctx? with
  | none => .fault .noIssuingGroup
  | some c =>
    .next (match unitTrap i c with
      | some t => takeTrap c (c.stamp s) t
      | none => if c.withheld i then c.holdIssue (c.stamp s) i else own c (c.stamp s))

/-! ### Operand forms -/

/-- Each bead through a function, then the unit is over. -/
def Ctx.eachBead (c : Ctx) (s : State) (f : Bead → Bead) : State := c.done (c.onGrp s f)

/-- The scalar words (R145, R187): each bead whose guard holds in its lowest active lane writes s[d]. -/
def scalarOp (i : Instr) (g : BitVec 3) (d : Reg) (s : State) (f : Ctx → Bead → DWord) : Res :=
  issue i s fun c s => c.eachBead s fun b => if b.guardLow g c.neg then b.sset d (f c b) else b

/-- The lane-wise words (R145, R199): v[d] in each active lane whose guard holds, all sources read first (R144). -/
def laneOp (i : Instr) (g : BitVec 3) (d : Reg) (s : State) (f : Ctx → Bead → Four → Word) : Res :=
  issue i s fun c s => c.eachBead s fun b => b.onLanes (b.lanesOn g c.neg) fun k r => r.vset k d (f c b k)

/-- Lane-wise words of two vector sources. -/
def laneOp2 (i : Instr) (g : BitVec 3) (d a b : Reg) (s : State) (f : Word → Word → Word) : Res :=
  laneOp i g d s fun _ x k => f (x.vget k a) (x.vget k b)

/-- Lane-wise words of one vector source. -/
def laneOp1 (i : Instr) (g : BitVec 3) (d a : Reg) (s : State) (f : Word → Word) : Res :=
  laneOp i g d s fun _ x k => f (x.vget k a)

/-- Lane-wise words of two sources and the old v[d]. -/
def laneOp3 (i : Instr) (g : BitVec 3) (d a b : Reg) (s : State) (f : Word → Word → Word → Word) : Res :=
  laneOp i g d s fun _ x k => f (x.vget k a) (x.vget k b) (x.vget k d)

/-- Lane-wise words with an immediate (R202). -/
def laneOpI (i : Instr) (g : BitVec 3) (d a : Reg) (imm : BitVec 8) (s : State) (f : Word → Word → Word) : Res :=
  laneOp i g d s fun c x k => f (x.vget k a) ((c.imm imm).setWidth 32)

/-- Predicates written from two vector sources (R203). -/
def predOp (i : Instr) (g d : BitVec 3) (s : State) (f : Bead → Four → Bool) : Res :=
  issue i s fun c s => c.setPreds s g d f

/-- The per-lane offset of a vector memory word: none when b is 0 (R156). -/
def laneOffset (x : Bead) (k : Four) (b : Reg) : DWord := if b = 0 then 0 else (x.vget k b).setWidth 64

/-- The global VA of a lane (R156). -/
def Ctx.eaGlobal (c : Ctx) (x : Bead) (k : Four) (a b : Reg) : DWord := x.sget a + laneOffset x k b + c.imm (0#0)

/-- The scratch offset of a lane (R156). -/
def Ctx.eaScratch (c : Ctx) (x : Bead) (k : Four) (a b : Reg) : Nat :=
  (x.sget a + laneOffset x k b + c.imm (0#0)).toNat % 2 ^ 32

/-- The VA of a bead of SLD and SST (R156). -/
def Ctx.eaScalar (c : Ctx) (x : Bead) (a b : Reg) : DWord := x.sget a + x.sget b + c.imm (0#0)

end Sys2Proof.Machine
end

