-- ==== Sys2Proof/Machine/Float.lean ====
section
/-!
DEFINITION. Number formats and arithmetic (R69 to R79, R82, R205 to R208, R212): elements are read as exact values, computed
with exactly, and rounded once.
-/

namespace Sys2Proof.Machine

/-! ### Formats and values -/

/-- A floating format (R69): exponent and mantissa bits, bias, largest finite code without its sign, canonical NaN (R77),
whether infinities exist. -/
structure FloatFmt where
  eb : Nat
  mb : Nat
  bias : Nat
  maxCode : Nat
  nan : Nat
  hasInf : Bool
deriving DecidableEq, Repr

def fmt32 : FloatFmt := ⟨8, 23, 127, 0x7F7FFFFF, 0x7FC00000, true⟩
def fmtBf16 : FloatFmt := ⟨8, 7, 127, 0x7F7F, 0x7FC0, true⟩
def fmtF16 : FloatFmt := ⟨5, 10, 15, 0x7BFF, 0x7E00, true⟩
def fmtE5m2 : FloatFmt := ⟨5, 2, 15, 0x7B, 0x7E, true⟩
def fmtE4m3 : FloatFmt := ⟨4, 3, 7, 0x7E, 0x7F, false⟩
/-- e2m1 has no NaN; a NaN gives +0 (R76). -/
def fmtE2m1 : FloatFmt := ⟨2, 1, 1, 7, 0, false⟩

/-- An exact value: a NaN, an infinity, or (-1)^neg * m * 2^e. -/
inductive Val where
  | nan
  | inf (neg : Bool)
  | fin (neg : Bool) (m : Nat) (e : Int)
deriving DecidableEq, Repr

def FloatFmt.signBit (f : FloatFmt) : Nat := f.eb + f.mb

/-- The exponent of the least subnormal (R69). -/
def FloatFmt.emin (f : FloatFmt) : Int := 1 - (f.bias : Int) - (f.mb : Int)

/-- The value of a code (R69). -/
def FloatFmt.val (f : FloatFmt) (x : Nat) : Val :=
  let neg := x / 2 ^ f.signBit % 2 == 1
  let code := x % 2 ^ f.signBit
  if f.maxCode < code then
    if f.hasInf && code == f.maxCode + 1 then .inf neg else .nan
  else
    let e := code / 2 ^ f.mb
    let m := code % 2 ^ f.mb
    if e = 0 then .fin neg m f.emin else .fin neg (m + 2 ^ f.mb) (f.emin + (e : Int) - 1)

/-- A signalling NaN: the most significant mantissa bit is 0 (R78); f32, bf16 and f16 only. -/
def FloatFmt.isSnan (f : FloatFmt) (x : Nat) : Bool :=
  f.hasInf && decide (f.maxCode + 1 < x % 2 ^ f.signBit) && x / 2 ^ (f.mb - 1) % 2 == 0

def FloatFmt.isNan (f : FloatFmt) (x : Nat) : Bool := f.val x == .nan

def FloatFmt.signed (f : FloatFmt) (neg : Bool) (code : Nat) : Nat := if neg then 2 ^ f.signBit + code else code

/-! ### Rounding (R75, R76) -/

/-- Whether a magnitude n with a remainder rounds up: `rem` against `half`, both scaled by one quantum. -/
def roundsUp (mode : Rnd) (neg : Bool) (n rem half : Nat) (sticky : Bool) : Bool :=
  let inexact := rem != 0 || sticky
  match mode with
  | .rn => decide (half < rem) || (rem == half && (sticky || n % 2 == 1))
  | .rna => decide (half ≤ rem)
  | .rz => false
  | .ru => inexact && !neg
  | .rd => inexact && neg

/-- n + a part of a quantum, as m over 2^shift with what lies below m in `sticky`. -/
def roundShift (mode : Rnd) (neg : Bool) (m shift : Nat) (sticky : Bool) : Nat :=
  if shift = 0 then (if sticky && ((mode == .ru && !neg) || (mode == .rd && neg)) then m + 1 else m)
  else
    let n := m / 2 ^ shift
    if roundsUp mode neg n (m % 2 ^ shift) (2 ^ (shift - 1)) sticky then n + 1 else n

/-- What an overflow gives (R76). -/
def FloatFmt.overflow (f : FloatFmt) (mode : Rnd) (sat neg : Bool) : Nat :=
  let max := f.signed neg f.maxCode
  let inf := f.signed neg (f.maxCode + 1)
  if sat then max
  else if f.hasInf then
    match mode with
    | .rn | .rna => inf
    | .rz => max
    | .ru => if neg then max else inf
    | .rd => if neg then inf else max
  else if f.nan = 0 then max
  else f.nan

/-- The code of the exact value (-1)^neg * (m, or a little more when sticky) * 2^e, rounded once. -/
def FloatFmt.round (f : FloatFmt) (mode : Rnd) (sat neg : Bool) (m : Nat) (e : Int) (sticky : Bool) : Nat :=
  if m = 0 && !sticky then f.signed neg 0
  else
    let len : Int := Nat.log2 m + 1
    let q := max (e + len - (f.mb + 1)) f.emin
    let n :=
      if q ≤ e then m * 2 ^ (e - q).toNat else roundShift mode neg m (q - e).toNat sticky
    let code := (q - f.emin).toNat * 2 ^ f.mb + n
    if f.maxCode < code then f.overflow mode sat neg else f.signed neg code

/-- The code of a value (R75 to R77). -/
def FloatFmt.ofVal (f : FloatFmt) (mode : Rnd) (sat : Bool) : Val → Nat
  | .nan => f.nan
  | .inf neg =>
    if sat || (!f.hasInf && f.nan == 0) then f.signed neg f.maxCode
    else if f.hasInf then f.signed neg (f.maxCode + 1) else f.nan
  | .fin neg m e => f.round mode sat neg m e false

/-! ### Exact arithmetic -/

def Val.neg : Val → Val
  | .nan => .nan
  | .inf n => .inf !n
  | .fin n m e => .fin (!n) m e

def Val.isZero : Val → Bool
  | .fin _ m _ => m == 0
  | _ => false

def Val.sign : Val → Bool
  | .nan => false
  | .inf n => n
  | .fin n _ _ => n

/-- The signed mantissa at a common exponent. -/
def scaled (neg : Bool) (m : Nat) (e at_ : Int) : Int :=
  let x : Int := (m * 2 ^ (e - at_).toNat : Nat)
  if neg then -x else x

/-- An exact sum; `rd` is the sign of a zero that cancels (R75). -/
def Val.add (rd : Bool) : Val → Val → Val
  | .nan, _ => .nan
  | _, .nan => .nan
  | .inf a, .inf b => if a = b then .inf a else .nan
  | .inf a, .fin .. => .inf a
  | .fin .., .inf b => .inf b
  | .fin n m e, .fin n' m' e' =>
    if m = 0 && m' = 0 then .fin (if n = n' then n else rd) 0 0
    else
      let k := min e e'
      let x := scaled n m e k + scaled n' m' e' k
      if x = 0 then .fin rd 0 0 else .fin (decide (x < 0)) x.natAbs k

/-- An exact product; infinity times zero is a NaN (R205). -/
def Val.mul : Val → Val → Val
  | .nan, _ => .nan
  | _, .nan => .nan
  | .inf a, .inf b => .inf (a != b)
  | .inf a, .fin n m _ => if m = 0 then .nan else .inf (a != n)
  | .fin n m _, .inf a => if m = 0 then .nan else .inf (a != n)
  | .fin n m e, .fin n' m' e' => .fin (n != n') (m * m') (e + e')

/-- The value doubled k times. -/
def Val.scale (k : Int) : Val → Val
  | .fin n m e => .fin n m (e + k)
  | v => v

/-- x < y of two values that are not NaN, -0 and +0 equal. -/
def Val.lt : Val → Val → Bool
  | .nan, _ => false
  | _, .nan => false
  | .inf a, .inf b => a && !b
  | .inf a, .fin .. => a
  | .fin .., .inf b => !b
  | .fin n m e, .fin n' m' e' => decide (scaled n m e (min e e') < scaled n' m' e' (min e e'))

/-- x = y of two values that are not NaN. -/
def Val.eq (a b : Val) : Bool := a != .nan && b != .nan && !a.lt b && !b.lt a

/-- The integer nearest in the mode (R207, R212). -/
def roundInt (mode : Rnd) (neg : Bool) (m : Nat) (e : Int) : Int :=
  let n : Nat := if 0 ≤ e then m * 2 ^ e.toNat else roundShift mode neg m (-e).toNat false
  if neg then -(n : Int) else n

/-- A number clamped to a range. -/
def clampInt (lo hi x : Int) : Int := if x < lo then lo else if hi < x then hi else x

/-- Float to integer (R76, R212): rounded, clamped to the range; 0 for NaN. -/
def Val.toInt (mode : Rnd) (lo hi : Int) : Val → Int
  | .nan => 0
  | .inf n => if n then lo else hi
  | .fin n m e => clampInt lo hi (roundInt mode n m e)

/-- An integer as a value. -/
def Val.ofInt (x : Int) : Val := .fin (decide (x < 0)) x.natAbs 0

/-! ### Operations in a format -/

def FloatFmt.addOp (f : FloatFmt) (mode : Rnd) (sat : Bool) (x y : Nat) : Nat :=
  f.ofVal mode sat (Val.add (mode == .rd) (f.val x) (f.val y))

def FloatFmt.subOp (f : FloatFmt) (mode : Rnd) (sat : Bool) (x y : Nat) : Nat :=
  f.ofVal mode sat (Val.add (mode == .rd) (f.val x) (f.val y).neg)

def FloatFmt.mulOp (f : FloatFmt) (mode : Rnd) (sat : Bool) (x y : Nat) : Nat :=
  f.ofVal mode sat ((f.val x).mul (f.val y))

/-- (-1)^np * x * y + (-1)^nz * z, one rounding (R205). -/
def FloatFmt.fmaOp (f : FloatFmt) (mode : Rnd) (sat np nz : Bool) (x y z : Nat) : Nat :=
  let p := (f.val x).mul (f.val y)
  let v := f.val z
  f.ofVal mode sat (Val.add (mode == .rd) (if np then p.neg else p) (if nz then v.neg else v))

/-- x orders before y with -0 below +0 (R206). -/
def FloatFmt.before (f : FloatFmt) (x y : Nat) : Bool :=
  (f.val x).lt (f.val y) || ((f.val x).isZero && (f.val y).isZero && (f.val x).sign && !(f.val y).sign)

/-- A saturated operand: an infinity becomes the largest finite (R206). -/
def FloatFmt.saturate (f : FloatFmt) (sat : Bool) (x : Nat) : Nat :=
  match f.val x with
  | .inf n => if sat then f.signed n f.maxCode else x
  | _ => x

/-- VFMIN and VFMAX (R206). -/
def FloatFmt.minMax (f : FloatFmt) (isMax sat : Bool) (x y : Nat) : Nat :=
  f.saturate sat <|
    if f.isNan x && f.isNan y then f.nan
    else if f.isNan x then y
    else if f.isNan y then x
    else if f.before y x then (if isMax then x else y)
    else (if isMax then y else x)

/-- An integral value in the mode (R207). -/
def FloatFmt.integral (f : FloatFmt) (mode : Rnd) (sat : Bool) (x : Nat) : Nat :=
  match f.val x with
  | .nan => f.nan
  | .inf n => f.saturate sat (f.signed n (f.maxCode + 1))
  | .fin n m e => f.ofVal mode sat (.fin n (roundInt mode n m e).natAbs 0)

/-- The class mask of VFCLS (R207). -/
def classOf (x : Nat) : Nat :=
  let neg := x / 2 ^ 31 % 2 == 1
  let code := x % 2 ^ 31
  if fmt32.isSnan x then 2 ^ 8
  else if fmt32.isNan x then 2 ^ 9
  else if code = 0x7F800000 then (if neg then 1 else 2 ^ 7)
  else if code = 0 then (if neg then 2 ^ 3 else 2 ^ 4)
  else if code < 0x00800000 then (if neg then 2 ^ 2 else 2 ^ 5)
  else (if neg then 2 else 2 ^ 6)

/-- x / y with one rounding (R80, R209). -/
def FloatFmt.divOp (f : FloatFmt) (mode : Rnd) (sat : Bool) (x y : Nat) : Nat :=
  match f.val x, f.val y with
  | .nan, _ => f.nan
  | _, .nan => f.nan
  | .inf _, .inf _ => f.nan
  | .inf a, .fin n _ _ => f.ofVal mode sat (.inf (a != n))
  | .fin n _ _, .inf a => f.ofVal mode sat (.fin (n != a) 0 0)
  | .fin n m e, .fin n' m' e' =>
    if m' = 0 then (if m = 0 then f.nan else f.ofVal mode sat (.inf (n != n')))
    else if m = 0 then f.ofVal mode sat (.fin (n != n') 0 0)
    else
      let k := f.mb + 4 + Nat.log2 m' + 1 - Nat.log2 m
      let num := m * 2 ^ k
      f.round mode sat (n != n') (num / m') (e - e' - k) (num % m' != 0)

/-- Floor of the square root, bit by bit from 2^k down. -/
def isqrtFrom (n : Nat) : Nat → Nat → Nat
  | 0, r => r
  | k + 1, r => isqrtFrom n k (if (r + 2 ^ k) * (r + 2 ^ k) ≤ n then r + 2 ^ k else r)

def isqrt (n : Nat) : Nat := isqrtFrom n (Nat.log2 n / 2 + 1) 0

/-- The square root with one rounding (R80). -/
def FloatFmt.sqrtOp (f : FloatFmt) (mode : Rnd) (sat : Bool) (x : Nat) : Nat :=
  match f.val x with
  | .nan => f.nan
  | .inf n => if n then f.nan else f.ofVal mode sat (.inf false)
  | .fin n m e =>
    if m = 0 then f.signed n 0
    else if n then f.nan
    else
      let k := 2 * (f.mb + 4) + (if e % 2 = 0 then 0 else 1)
      let num := m * 2 ^ k
      let r := isqrt num
      f.round mode sat false r ((e - k) / 2) (r * r != num)

/-! ### Words and halves -/

/-- FP32 results in a register. -/
def w32 (n : Nat) : Word := BitVec.ofNat 32 n

/-- RoundF32 of a value (R84, R222). -/
def roundF32 (mode : Rnd) (sat : Bool) (v : Val) : Word := w32 (fmt32.ofVal mode sat v)

def loHalf (w : Word) : Nat := w.toNat % 65536
def hiHalf (w : Word) : Nat := w.toNat / 65536

/-- Each half on its own (R208). -/
def halves (f : Nat → Nat → Nat) (x y : Word) : Word := w32 (f (loHalf x) (loHalf y) + 65536 * f (hiHalf x) (hiHalf y))

def halves3 (f : Nat → Nat → Nat → Nat) (x y z : Word) : Word :=
  w32 (f (loHalf x) (loHalf y) (loHalf z) + 65536 * f (hiHalf x) (hiHalf y) (hiHalf z))

/-! ### Elements (R69 to R73, R82) -/

/-- The value of an element, mx ones without their scale (R82); c4 through a codebook (R72). -/
def Elem.val (el : Elem) (cb : BitVec 256) (x : Nat) : Val :=
  match el with
  | .f32 => fmt32.val x
  | .bf16 => fmtBf16.val x
  | .f16 => fmtF16.val x
  | .e4m3 | .mx8 => fmtE4m3.val x
  | .e5m2 => fmtE5m2.val x
  | .e2m1 | .mx4 => fmtE2m1.val x
  | .c4 => fmtBf16.val (cb.extractLsb' (16 * (x % 16)) 16).toNat
  | .i8 => Val.ofInt (BitVec.ofNat 8 x).toInt
  | .n8 => Val.ofInt (x % 256)
  | .i32 => Val.ofInt (BitVec.ofNat 32 x).toInt

/-- An E8M0 scale (R73): none is NaN. -/
def scaleExp (e : Nat) : Option Int := if e = 255 then none else some ((e : Int) - 127)

/-- The entry of a codebook. -/
def cbEntry (cb : BitVec 256) (i : Nat) : Val := fmtBf16.val (cb.extractLsb' (16 * i) 16).toNat

/-- The distance of R87: exact; none is infinite. -/
def cbDist (x e : Val) : Option Val :=
  match x, e with
  | .inf a, .inf b => if a = b then some (.fin false 0 0) else none
  | .inf _, _ => none
  | _, .inf _ => none
  | x, e => match Val.add false x e.neg with
    | .fin _ m k => some (.fin false m k)
    | _ => none

/-- a is less than b, none being infinite. -/
def distLt : Option Val → Option Val → Bool
  | some a, some b => a.lt b
  | some _, none => true
  | none, _ => false

/-- The nearest entry (R87): index and distance of the best so far. -/
def cbNearest (cb : BitVec 256) (x : Val) : Option (Nat × Option Val) :=
  (List.range 16).foldl (fun best i =>
    let e := cbEntry cb i
    if e = .nan then best
    else
      let d := cbDist x e
      match best with
      | none => some (i, d)
      | some (_, bd) => if distLt d bd then some (i, d) else best) none

/-- The lowest index whose entry is greatest (or least). -/
def cbExtreme (cb : BitVec 256) (least : Bool) : Nat :=
  (((List.range 16).foldl (fun best i =>
    let e := cbEntry cb i
    if e = .nan then best
    else
      match best with
      | none => some (i, e)
      | some (_, b) => if (if least then e.lt b else b.lt e) then some (i, e) else best) none).map (·.1)).getD 0

/-- CodebookIndex (R87). -/
def codebookIndex (cb : BitVec 256) (x : Val) : Nat :=
  match x with
  | .nan => 0
  | _ =>
    match cbNearest cb x with
    | none => 0
    | some (i, d) =>
      match x, d with
      | .inf n, none => cbExtreme cb n
      | _, _ => i

/-- A value converted to an element (R76, R82, R212). -/
def Elem.ofVal (el : Elem) (cb : BitVec 256) (mode : Rnd) (sat : Bool) (v : Val) : Nat :=
  match el with
  | .f32 => fmt32.ofVal mode sat v
  | .bf16 => fmtBf16.ofVal mode sat v
  | .f16 => fmtF16.ofVal mode sat v
  | .e4m3 | .mx8 => fmtE4m3.ofVal mode sat v
  | .e5m2 => fmtE5m2.ofVal mode sat v
  | .e2m1 | .mx4 => fmtE2m1.ofVal mode sat v
  | .c4 => codebookIndex cb v
  | .i8 => (BitVec.ofInt 8 (v.toInt mode (-128) 127)).toNat
  | .n8 => (v.toInt mode 0 255).toNat
  | .i32 => (BitVec.ofInt 32 (v.toInt mode (-2147483648) 2147483647)).toNat

/-- Element j of w bits of a register (R71). -/
def elemAt (w : Nat) (x : Word) (j : Nat) : Nat := x.toNat / 2 ^ (w * j) % 2 ^ w

/-- Elements packed, element 0 lowest (R71). -/
def pack (w : Nat) : List Nat → Nat
  | [] => 0
  | x :: xs => x % 2 ^ w + 2 ^ w * pack w xs

/-! ### Signalling NaNs (R78, R79) -/

/-- The trap of a signalling NaN found in register r of lane k (R79, R266). -/
def snanTrap (b : Bead) (k : Four) (r : Nat) (value : Word) : TrapReq :=
  { code := 0x04, lane := BitVec.ofNat 8 (b.lane k), reg := BitVec.ofNat 8 r, origin := BitVec.ofNat 8 (value.toNat % 64),
    marker := value &&& 0xFFFFFFC0 == 0x7FA00000 }

/-- The floating operand of one register: its registers, each read whole or by halves, or the low half alone. -/
inductive FloatRead where
  | word (r : Reg)
  | halves (r : Reg) (f : FloatFmt)
  | low (r : Reg) (f : FloatFmt)
deriving Repr

def FloatRead.snan (o : FloatRead) (b : Bead) (k : Four) : Option TrapReq :=
  match o with
  | .word r => if fmt32.isSnan (b.vget k r).toNat then some (snanTrap b k r.toNat (b.vget k r)) else none
  | .halves r f =>
    let x := b.vget k r
    if f.isSnan (loHalf x) || f.isSnan (hiHalf x) then some (snanTrap b k r.toNat x) else none
  | .low r f =>
    let x := b.vget k r
    if f.isSnan (loHalf x) then some (snanTrap b k r.toNat x) else none

/-- The trap of the lowest lane, and in it of the first operand, that holds a signalling NaN (R78). -/
def snanOf (bs : List Bead) (on : Bead → Mask) (reads : List FloatRead) : Option TrapReq :=
  bs.findSome? fun b => Four.all.findSome? fun k =>
    if laneIn (on b) k then reads.findSome? fun o => o.snan b k else none

/-- Lane-wise words whose floating operands trap on a signalling NaN (R78, R205). -/
def floatOp (i : Instr) (g : BitVec 3) (d : Reg) (reads : List FloatRead) (s : State) (f : Ctx → Bead → Four → Word) : Res :=
  issue i s fun c s =>
    match snanOf c.beads (fun b => b.lanesOn g c.neg) reads with
    | some t => takeTrap c s t
    | none => c.eachBead s fun b => b.onLanes (b.lanesOn g c.neg) fun k r => r.vset k d (f c b k)

end Sys2Proof.Machine
end

