-- ==== Sys2Proof/Machine/Reduce.lean ====
section
/-!
DEFINITION. Reductions (R114, R116, R225), accumulator lines (R115 to R119), deferred-settle records (R126), capacity
replacement (log 14) and the way of BANK stores to HBM (log 18).
-/

namespace Sys2Proof.Machine

/-! ### The operations -/

/-- Bytes of a reduced word. -/
def RedOp.bytes : RedOp → Nat
  | .addI64 => 8
  | _ => 4

/-- The identity of each word (R116). -/
def RedOp.identity : RedOp → Word
  | .addF32 => 0x80000000
  | .addI32 | .addI64 => 0
  | .addBf16x2 => 0x80008000
  | .minI32 => 0x7FFFFFFF
  | .maxI32 => 0x80000000
  | .minN32 => 0xFFFFFFFF
  | .maxN32 => 0
  | .minF32 => 0x7F800000
  | .maxF32 => 0xFF800000

/-- The combine rule on 32-bit words (R114, R225). MIN.f32 and MAX.f32 combine as VFMIN and VFMAX (R206); a signalling NaN found in
memory gives the canonical NaN (R78; log 63), as it does under addition. -/
def RedOp.word (op : RedOp) (old y : Word) : Word :=
  match op with
  | .addF32 => w32 (fmt32.addOp .rn false old.toNat y.toNat)
  | .addI32 | .addI64 => old + y
  | .addBf16x2 => halves (fmtBf16.addOp .rn false) old y
  | .minI32 => if y.toInt < old.toInt then y else old
  | .maxI32 => if old.toInt < y.toInt then y else old
  | .minN32 => if y.toNat < old.toNat then y else old
  | .maxN32 => if old.toNat < y.toNat then y else old
  | .minF32 => if fmt32.isSnan old.toNat then w32 fmt32.nan else w32 (fmt32.minMax false false old.toNat y.toNat)
  | .maxF32 => if fmt32.isSnan old.toNat then w32 fmt32.nan else w32 (fmt32.minMax true false old.toNat y.toNat)

/-- The combine rule on an operand of the operation's width. -/
def RedOp.combine (op : RedOp) (old y : DWord) : DWord :=
  if op = .addI64 then old + y else (op.word (old.setWidth 32) (y.setWidth 32)).setWidth 64

/-! ### At the home L2 -/

/-- One reduction at the home L2 slice (R110, R114) from a column: the copies it passes are invalidated. Where the
translation at the home controller faults, how. It is charged to a launch (R137). -/
def reduceHome (s : State) (who : Option Nat) (t : Four) (c : Nat) (asid : Half) (va : DWord) (op : RedOp) (y : DWord) :
    Except Conf State :=
  match (confL2 s asid va .write).by who with
  | .ok h =>
    let s1 := dropPassed (pushStores s t c asid va h.pa) t c asid va h.pa
    let r := homeRead s1 asid va op.bytes h
    let old : DWord := BitVec.ofNat 64 (leNat r.2)
    .ok (homeWrite r.1 asid va (leBytes op.bytes (op.combine old y).toNat) h)
  | f => .error f

/-! ### Accumulator lines -/

def AccLine.at (l : AccLine) (asid : Half) (va : DWord) : Bool := l.asid == asid && l.va == lineOf va

def Column.accLine (co : Column) (asid : Half) (va : DWord) : Option AccLine := co.acc.find? (·.at asid va)

/-- A column's line put back, or freed when it holds no touched word. -/
def putAcc (s : State) (t : Four) (c : Nat) (l : AccLine) : State :=
  s.updCol t c fun co =>
    { co with acc := if l.touched = 0 then co.acc.filter (!·.at l.asid l.va)
                     else co.acc.map fun x => if x.at l.asid l.va then l else x }

def AccLine.word (l : AccLine) (k : Nat) : Word := (l.words[k]?).getD 0

/-- The delta of word k: for ADD.i64 the doubleword. -/
def AccLine.delta (l : AccLine) (k : Nat) : DWord :=
  if l.op = .addI64 then l.word (k + 1) ++ l.word k else (l.word k).setWidth 64

/-- The words of a line, or its doublewords (R115). -/
def AccLine.places (l : AccLine) : List Nat := (List.range (128 / l.op.bytes)).map (· * (l.op.bytes / 4))

def touchMask (op : RedOp) (k : Nat) : BitVec 32 := (if op = .addI64 then 3#32 else 1#32) <<< k

/-- Records a gang may take from a flush (R126). -/
def roomForDefer (s : State) (gang : Nat) : Bool := (s.gang? gang).any fun g => decide (g.defers.length < 16)

def pushDefer (s : State) (gang : Nat) (d : Defer) : State := s.updGang gang fun g => { g with defers := g.defers ++ [d] }

/-- A deferred-settle record arises (R126, R226), with its fault record of kind 4 (R328). -/
def newDefer (s : State) (gang : Nat) (d : Defer) (f : Conf) : State :=
  let s1 := pushDefer s gang d
  match s.gang? gang with
  | none => s1
  | some g =>
    match s.launch? g.launch with
    | none => s1
    | some l => reportFault s1 g.tower 4 f.cause 2 l (some g) g.col d.va d.w 1

/-- A word of a line that has gone home or become a record: untouched, and the identity again (R115, R126). -/
def AccLine.sent (l : AccLine) (k : Nat) : AccLine :=
  let w := l.words.setIfInBounds k l.op.identity
  { l with touched := l.touched &&& ~~~touchMask l.op k
           words := if l.op = .addI64 then w.setIfInBounds (k + 1) l.op.identity else w }

/-- One touched word sent home (R119): applied, or a deferred-settle record of the tag's gang, or kept (R126; a gang that
is gone takes no record, log 26). -/
def flushWord (t : Four) (c : Nat) (sl : State × AccLine) (k : Nat) : State × AccLine :=
  let (s, l) := sl
  if !l.touched.getLsbD k then sl
  else
    let va := l.va + BitVec.ofNat 64 (4 * k)
    match reduceHome s l.payer t c l.asid va l.op (l.delta k) with
    | .ok s1 => (s1.charge l.payer fun x => { x with flushes := x.flushes + 1 }, l.sent k)
    | .error f =>
      if roomForDefer s l.gang then (newDefer s l.gang { va, op := l.op, value := l.delta k, w := l.w } f, l.sent k)
      else (s, { l with faulted := true })

/-- EVICTION OF AN ACCUMULATOR LINE (R119, R126). -/
def evictAcc (s : State) (t : Four) (c : Nat) (l : AccLine) : State :=
  let r := l.places.foldl (flushWord t c) (s, l)
  putAcc r.1 t c r.2

/-- The lines of a column that a predicate picks, evicted one at a time (R123). -/
def evictAll (s : State) (t : Four) (c : Nat) (p : AccLine → Bool) : State :=
  ((s.col t c).acc.filter p).foldl (fun s l => evictAcc s t c l) s

/-- The same in every column of a tower. -/
def evictTower (s : State) (t : Four) (p : AccLine → Bool) : State :=
  (List.range (s.tower t).cols.length).foldl (fun s c => evictAll s t c p) s

/-- A tower's faulted lines flushed again, at least once in every 100 µs of its time (R126). -/
def reflushes (s : State) (t : Four) : State :=
  if ((s.tower t).cols.any fun co => co.acc.any (·.faulted)) && decide ((s.tower t).lastReflush + 100000 ≤ (s.tower t).time) then
    evictTower (s.updTower t fun tw => { tw with lastReflush := tw.time }) t (·.faulted)
  else s

/-- Before an access to a line (R118): a line that is not faulted is evicted. -/
def evictFor (s : State) (t : Four) (c : Nat) (asid : Half) (va : DWord) : State :=
  evictAll s t c fun l => l.at asid va && !l.faulted

/-- A faulted line makes an access wait (R126). -/
def accBlocks (s : State) (t : Four) (c : Nat) (asid : Half) (va : DWord) : Bool :=
  ((s.col t c).accLine asid va).isSome

/-! ### The cache part's capacity (R22, R95, R126) -/

/-- Lines that a column's cache part holds, plain and accumulator lines together (R22): 3 MiB less the scratch part. -/
def Column.cacheLines (co : Column) : Nat := 24576 - 2048 * co.steps

/-- The cache part has no room for another line. -/
def Column.full (co : Column) : Bool := decide (co.cacheLines ≤ co.lines.length + co.acc.length)

/-- Room for one line in a cache part: a full one replaces a line (log 14), an accumulator line by eviction, one that is
faulted never (R126); false when it holds no replaceable line. `n` bounds the evictions that fault. -/
def roomCol : Nat → State → Four → Nat → State × Bool
  | 0, s, t, c => (s, !(s.col t c).full)
  | n + 1, s, t, c =>
    let co := s.col t c
    let accs := co.acc.filter (!·.faulted)
    let k := victimAt (co.lines.map (·.hint) ++ accs.map fun _ => 0) s.nextId
    if !co.full then (s, true)
    else if k < co.lines.length then
      ((s.updCol t c fun co => { co with lines := co.lines.eraseIdx k }).fresh, true)
    else
      match accs[k - co.lines.length]? with
      | some l => roomCol n (evictAcc s.fresh t c l) t c
      | none => (s, false)

/-- Room for one line, every accumulator line being tried. -/
def makeRoom (s : State) (t : Four) (c : Nat) : State × Bool := roomCol ((s.col t c).acc.length + 1) s t c

/-- No line of the cache part is replaceable (R126). -/
def noRoom (s : State) (t : Four) (c : Nat) : Bool :=
  (s.col t c).full && (s.col t c).lines.isEmpty && (s.col t c).acc.all (·.faulted)

/-- The line as a column sees it (R95): its cache part, else the levels below with the column's own stores; it fills the
cache part unless the page is uncached or the access says no allocation (R156). -/
def colFill (s : State) (t : Four) (c : Nat) (asid : Half) (va : DWord) (h : Hit) (na : Bool) : State × Line :=
  match findLine (s.col t c).lines asid va with
  | some l => (s, l)
  | none =>
    let r := towerFill s t asid va h
    let own := r.1.stores.filter fun x => x.tower == t && x.col == c && decide (x.stage ≤ 1)
    let l := { r.2 with data := overlayStores own asid va r.2.data, dirty := false, hint := h.hint }
    if h.attr.c && !na then
      let m := makeRoom r.1 t c
      if m.2 then ((m.1.updCol t c fun co => { co with lines := l :: co.lines }).chargeRead h.who 0 1, l) else (m.1, l)
    else (r.1, l)

/-- n bytes of one line as a column sees them. -/
def colRead (s : State) (t : Four) (c : Nat) (asid : Half) (va : DWord) (n : Nat) (h : Hit) (na : Bool) :
    State × List Byte :=
  let r := colFill s t c asid va h na
  (r.1, lineRead r.2.data (lineOff va) n)

/-- A line as it is created (R115). -/
def AccLine.fresh (asid : Half) (va : DWord) (op : RedOp) (gang w : Nat) (payer : Option Nat) : AccLine :=
  { asid, va := lineOf va, op, words := Vector.replicate 32 op.identity, touched := 0, gang, w, payer, faulted := false }

/-- A contribution combined into a line (R117), which takes the contributor's tag. -/
def AccLine.add (l : AccLine) (va : DWord) (y : DWord) (gang w : Nat) (payer : Option Nat) : AccLine :=
  let k := lineOff va / 4
  let words :=
    if l.op = .addI64 then
      let x := l.op.combine (l.delta k) y
      (l.words.setIfInBounds k (x.setWidth 32)).setIfInBounds (k + 1) (x.extractLsb' 32 32)
    else l.words.setIfInBounds k (l.op.word (l.word k) (y.setWidth 32))
  { l with words, touched := l.touched ||| touchMask l.op k, gang, w, payer }

/-- A contribution at scope 0 to 2 at the column store (R115, R117), and whether it was taken: a line of another operation
is evicted first; it waits while that line is faulted, or while no line is replaceable (R126). -/
def contribute (s : State) (r : Red) : State × Bool :=
  let s1 :=
    match (s.col r.tower r.col).accLine r.asid r.va with
    | some l => if l.op ≠ r.op && !l.faulted then evictAcc s r.tower r.col l else s
    | none => s
  match (s1.col r.tower r.col).accLine r.asid r.va with
  | some l =>
    if l.op = r.op then (putAcc s1 r.tower r.col (l.add r.va r.value r.gang r.w (some r.launch)), true) else (s1, false)
  | none =>
    let m := makeRoom (dropColLine s1 r.tower r.col r.asid r.va) r.tower r.col
    let l := (AccLine.fresh r.asid r.va r.op r.gang r.w (some r.launch)).add r.va r.value r.gang r.w (some r.launch)
    if m.2 then (m.1.updCol r.tower r.col fun co => { co with acc := co.acc ++ [l] }, true) else m

/-! ### Contributions on their way -/

/-- A contribution joins those on their way, after those whose words issued earlier. -/
def putRed (s : State) (r : Red) : State :=
  { s with reds := s.reds.filter (fun x => decide (x.issued ≤ r.issued)) ++ r :: s.reds.filter fun x => !decide (x.issued ≤ r.issued) }

/-- Two ranges share a byte. -/
def meetAt (a m b n : Nat) : Bool := decide (a < b + n) && decide (b < a + m)

/-- An older contribution comes first (R219, R225): of the same unit to the same line, of the same bead to a common byte unless
both are of BGEMVs (R264). -/
def Red.before (x r : Red) : Bool :=
  x.asid == r.asid &&
    ((x.unit == r.unit && lineOf x.va == lineOf r.va) ||
      (x.gang == r.gang && x.member == r.member && x.home == r.home && x.pos == r.pos && (x.bgemv.isNone || r.bgemv.isNone)
        && meetAt x.va.toNat x.op.bytes r.va.toNat r.op.bytes))

/-- A bead has a product, or a BGEMV, issued before `issued`, whose contributions to some of n bytes are still to leave (R219,
R257, R263). -/
def owes (s : State) (gang member home pos issued : Nat) (bank : Bool) (va : DWord) (n : Nat) : Bool :=
  (s.prods.any fun p => p.gang == gang && p.member == member && p.home == home && p.pos == pos && decide (p.id < issued)
      && p.drains.any fun x => meetAt x.1.toNat 4 va.toNat n)
    || (bank && s.bgemvs.any fun b => b.gang == gang && b.member == member && b.home == home && b.pos == pos && decide (b.id < issued)
      && (List.range (b.rows - b.next)).any fun k => meetAt (b.dest + BitVec.ofNat 64 (4 * (b.next + k))).toNat 4 va.toNat n)

/-- A copy of a bead issued before `issued` is still to write some of n bytes, or with `reads` to read them (R219, R238). -/
def copyOwes (s : State) (gang member home pos issued : Nat) (glob reads : Bool) (lo n : Nat) : Bool :=
  (s.gang? gang).any fun g => g.copies.any fun p =>
    p.member == member && p.home == home && p.beadPos == pos && decide (p.id < issued) && p.pieces.any fun x =>
      (x.dst.1 == glob && meetAt x.dst.2.toNat x.len lo n)
        || (reads && x.src.any fun y => y.1 == glob && meetAt y.2.toNat x.len lo n)

def mayApply (s : State) (r : Red) : Bool :=
  !(s.reds.takeWhile (·.id != r.id)).any (·.before r)
    && !owes s r.gang r.member r.home r.pos r.issued r.bgemv.isNone r.va r.op.bytes
    && !copyOwes s r.gang r.member r.home r.pos r.issued true true r.va.toNat r.op.bytes

def dropRed (s : State) (r : Red) : State := { s with reds := s.reds.filter (·.id != r.id) }

/-- A contribution applied at its target (R114), a fault at the home controller deferred beyond the 16 (R226); it stays
where a faulted line bars it. -/
def applyRed (s : State) (r : Red) : State :=
  if r.scope.toNat ≤ 2 then
    let q := contribute s r
    if q.2 then dropRed q.1 r else q.1
  else
    match reduceHome s (some r.launch) r.tower r.col r.asid r.va r.op r.value with
    | .ok s1 => dropRed s1 r
    | .error f => newDefer (dropRed s r) r.gang { va := r.va, op := r.op, value := r.value, w := r.w } f

/-- Of some contributions, oldest first, those that `p` picks and the older ones that come before one of them (R219, R225). -/
def withBefore (p : Red → Bool) : List Red → List Red
  | [] => []
  | r :: rs =>
    let later := withBefore p rs
    if p r || later.any r.before then r :: later else later

/-- Contributions applied in their order; one that an older one bars stays. -/
def applyAll (s : State) (rs : List Red) : State := rs.foldl (fun s r => if mayApply s r then applyRed s r else s) s

/-- A contribution of a bead to some of n bytes, issued before `issued`. -/
def Red.isOwn (gang member home pos issued : Nat) (asid : Half) (va : DWord) (n : Nat) (r : Red) : Bool :=
  r.gang == gang && r.member == member && r.home == home && r.pos == pos && decide (r.issued < issued)
    && r.asid == asid && meetAt r.va.toNat r.op.bytes va.toNat n

/-- The bead's own contributions to bytes that its word `issued` writes are applied first (R219), each after those that come
before it (R225). -/
def applyOwn (s : State) (gang member home pos issued : Nat) (asid : Half) (va : DWord) (n : Nat) : State :=
  applyAll s (withBefore (Red.isOwn gang member home pos issued asid va n) s.reds)

/-- Such a contribution has not been applied, or is still to leave a unit that works for the bead. -/
def ownLeft (s : State) (gang member home pos issued : Nat) (asid : Half) (va : DWord) (n : Nat) : Bool :=
  s.reds.any (Red.isOwn gang member home pos issued asid va n) || owes s gang member home pos issued true va n

/-- Every contribution of a gang applied (R121). -/
def applyGang (s : State) (gang : Nat) : State := applyAll s (s.reds.filter (·.gang == gang))

/-! ### Deferred records -/

/-- One record tried again (R124): applied and removed, or kept. -/
def retryDefer (t : Four) (c : Nat) (asid : Half) (gang : Nat) (s : State) (d : Defer) : State :=
  match reduceHome s (s.payer gang) t c asid d.va d.op d.value with
  | .ok s1 => s1
  | .error _ => pushDefer s gang d

/-- The records of a gang tried again, and the faulted lines of its tag flushed again, in whatever column of its tower they stand
(R126). -/
def retryDefers (s : State) (g : Gang) (asid : Half) : State :=
  let s1 := (s.updGang g.id fun x => { x with defers := [] })
  let s2 := ((s.gang? g.id).map (·.defers)).getD [] |>.foldl (retryDefer g.tower g.col asid g.id) s1
  evictTower s2 g.tower fun l => l.faulted && l.gang == g.id

/-- The record with the lowest address (R124). -/
def lowestDefer : List Defer → Option Defer
  | [] => none
  | d :: ds =>
    match lowestDefer ds with
    | none => some d
    | some x => if d.va.toNat ≤ x.va.toNat then some d else some x

/-! ### Replacement and BANK stores -/

/-- CACHE of the lines that a level may replace. -/
def levelHints (s : State) (level : Level) (t : Four) (c : Nat) : List (BitVec 2) :=
  match level with
  | .column | .accumulator => (s.col t c).lines.map (·.hint) ++ ((s.col t c).acc.filter (!·.faulted)).map fun _ => 0
  | .l2 => (s.tower t).l2.map (·.hint)
  | .rdc => (s.tower t).rdc.map (·.hint)

/-- CACHE of the line that a replacement names; an accumulator line has none. -/
def namedHint (s : State) (level : Level) (t : Four) (c : Nat) (asid : Half) (va : DWord) : BitVec 2 :=
  let of (ls : List Line) : BitVec 2 := ((findLine ls asid va).map (·.hint)).getD 0
  match level with
  | .column => of (s.col t c).lines
  | .accumulator => 0
  | .l2 => of (s.tower t).l2
  | .rdc => of (s.tower t).rdc

/-- A level replaces a line that is among its first candidates (R151, log 14): a plain copy is dropped, an accumulator line evicted
unless faulted, an L2 line written back. -/
def replaceLine (s : State) (level : Level) (t : Four) (c : Nat) (asid : Half) (va : DWord) : State :=
  if !goesFirst (levelHints s level t c) (namedHint s level t c asid va) then s
  else match level with
  | .column => dropColLine s t c asid va
  | .accumulator => evictFor s t c asid va
  | .l2 =>
    let s1 := ((s.tower t).l2.filter (isLine asid va)).foldl writeBack s
    s1.updTower t fun tw => { tw with l2 := tw.l2.filter (!isLine asid va ·) }
  | .rdc => s.updTower t fun tw => { tw with rdc := tw.rdc.filter (!isLine asid va ·) }

/-- The k-th waiting byte reaches HBM, unless an older one waits for the same address (R133, log 18). -/
def drainBank (s : State) (t : Four) (k : Nat) : State :=
  let q := (s.tower t).bank
  match q[k]? with
  | none => s
  | some b =>
    if (q.take k).any (·.pa == b.pa) then s
    else { s with hbm := s.hbm.set b.pa b.byte }.updTower t fun tw => { tw with bank := tw.bank.eraseIdx k }

end Sys2Proof.Machine
end

