-- ==== Sys2Proof/Machine/Access.lean ====
section
/-!
DEFINITION. What every memory access shares: the checks of R217 at issue and their range locks (R129, R130), counted
operations and pending bits (R160 to R162), confirmation (R217), reads and atomics at a scope's point of coherence (R103,
R110), and what a release waits for (R106).
-/

namespace Sys2Proof.Machine

/-! ### Range locks -/

/-- The classes of access that the table is checked against (R129). -/
inductive AccKind where
  | load | store | rmw
deriving DecidableEq, Repr

def LockKind.forbids : LockKind → AccKind → Bool
  | .dest, _ => true
  | .srcStore, a => a == .store
  | .srcWrite, a => a != .load

def State.asidOf (s : State) (g : Gang) : Half := ((s.launch? g.launch).map (·.asid)).getD 0

/-- The gangs resident in a column. -/
def residents (s : State) (t : Four) (col : Nat) : List Gang :=
  s.gangs.filter fun g => g.resident && g.tower == t && g.col == col

/-- A column's range-lock table (R129): gang, address space, entry. -/
def lockTable (s : State) (t : Four) (col : Nat) : List (Nat × Half × Lock) :=
  (residents s t col).flatMap fun g => g.copies.flatMap fun p => p.locks.map fun k => (g.id, s.asidOf g, k)

/-- A gang that a pending column move brings to a column, with its reserved run and tiers (R311). -/
def Gang.coming (t : Four) (col : Nat) (g : Gang) : Option (Nat × List (Nat × Four)) :=
  match g.pending with
  | some (.column c base tiers _) => if g.tower == t && c == col then some (base, tiers) else none
  | _ => none

/-- Range-lock entries a column holds, reservations included (R132). -/
def locksUsed (s : State) (t : Four) (col : Nat) : Nat :=
  (lockTable s t col).length
    + (s.gangs.filter fun g => (g.coming t col).isSome).foldl (fun n g => n + (g.copies.flatMap (·.locks)).length) 0

/-- Bytes [lo, lo + n) overlap an entry that forbids the access (R130). -/
def lockHit (s : State) (t : Four) (col : Nat) (asid : Half) (gang : Nat) (glob : Bool) (lo n : Nat) (a : AccKind) : Bool :=
  (lockTable s t col).any fun e =>
    e.2.2.glob == glob && (if glob then e.2.1 == asid else e.1 == gang) && e.2.2.kind.forbids a
      && decide (lo ≤ e.2.2.hi) && decide (e.2.2.lo < lo + n)

/-! ### Lanes and checks -/

/-- One access of a unit: the bead, the lane, the lane to report, the address. -/
structure LaneAcc where
  b : Bead
  k : Four
  lane : Byte
  ea : DWord
deriving DecidableEq, Repr

/-- The active lanes in which the guard holds, ascending, with their addresses. -/
def Ctx.laneAccs (c : Ctx) (g : BitVec 3) (ea : Bead → Four → DWord) : List LaneAcc :=
  c.beads.flatMap fun b => (Four.all.filter (laneIn (b.lanesOn g c.neg))).map fun k =>
    { b, k, lane := BitVec.ofNat 8 (b.lane k), ea := ea b k }

/-- The beads whose guard holds in their lowest active lane, with their one address (R220): no lane is reported. -/
def Ctx.beadAccs (c : Ctx) (g : BitVec 3) (ea : Bead → DWord) : List LaneAcc :=
  (c.beads.filter (·.guardLow g c.neg)).map fun b => { b, k := b.low, lane := 0xFF, ea := ea b }

/-- The numerically lowest of some addresses. -/
def lowestVa (vs : List DWord) : DWord := vs.foldl (fun m v => if v.toNat < m.toNat then v else m) (BitVec.allOnes 64)

/-- Checks a to d of R217, in order over all lanes; each trap is that of the lowest lane that fails, and 0x06 names the
lowest failing address (R267). `lock` none: the access is not checked against the table. -/
def Ctx.accTrap (c : Ctx) (s : State) (glob : Bool) (n : Nat) (lock : Option AccKind) (as : List LaneAcc) : Option TrapReq :=
  let odd := as.filter fun x => x.ea.toNat % n != 0
  match if glob then as.find? fun x => !canonicalVa x.ea else none with
  | some x => some { code := 0x09, va := x.ea, lane := x.lane }
  | none =>
    match odd with
    | x :: _ => some { code := 0x06, va := lowestVa (odd.map (·.ea)), lane := x.lane }
    | [] =>
      match if glob then none else as.find? fun x => decide (c.scrLen < x.ea.toNat + n) with
      | some x => some { code := 0x07, va := x.ea, lane := x.lane }
      | none =>
        match lock with
        | none => none
        | some a =>
          match as.find? fun x => lockHit s c.tower c.col c.asid c.g.id glob x.ea.toNat n a with
          | some x => some { code := 0x08, va := x.ea, lane := x.lane }
          | none => none

/-- Confirmation from the group's column (R217), charged to its launch (R137), with the unit's CACHE (R151). -/
def Ctx.conf (c : Ctx) (s : State) (n : Need) (va : DWord) : Conf := (confCol s c.tower c.col c.asid va n).by (some c.l.id) (modCache c.pfx)

def LaneAcc.target (x : LaneAcc) : Target := { lane := x.lane, va := x.ea }

/-! ### Counts (R160 to R162) -/

/-- Operations outstanding: those that have not left the count. -/
def countOf (ops : List CountedOp) : Nat := (ops.dropWhile (·.done)).length

/-- A further operation would raise a count to 64 (R160). -/
def countFull (ops : List CountedOp) : Bool := decide (63 ≤ countOf ops)

/-- The bead of some access. -/
def hasBead (as : List LaneAcc) (b : Bead) : Bool := as.any fun x => x.b.pos == b.pos && x.b.home == b.home

def setPend (m : BitVec 64) (r : Nat) : BitVec 64 := m ||| (1#64 <<< r)
def clearPend (m : BitVec 64) (r : Nat) : BitVec 64 := m &&& ~~~(1#64 <<< r)

/-- Pending bits set for the destinations of an operation, s0 among them (R162). -/
def Bead.pend (b : Bead) (ds : List (Bool × Reg)) : Bead :=
  ds.foldl (fun b d =>
    if d.1 then { b with pendS := setPend b.pendS d.2.toNat }
    else { b with pendV := setPend b.pendV d.2.toNat }) b

/-- A load of the accesses counted in l by their beads, with what each bead's registers will take. -/
def Ctx.countLoad (c : Ctx) (s : State) (id : Nat) (as : List LaneAcc) (ds : List (Bool × Reg))
    (ws : List (Nat × RegWrite)) : State :=
  c.onGrp s fun b =>
    if hasBead as b then
      { b.pend ds with lops := b.lops ++ [{ id, done := false, load := true, dests := ds,
                                             writes := (ws.filter (·.1 == b.pos)).map (·.2) }] }
    else b

/-- A store counted in s by the beads of its accesses. -/
def Ctx.countStore (c : Ctx) (s : State) (id : Nat) (as : List LaneAcc) : State :=
  c.onGrp s fun b =>
    if hasBead as b then { b with sops := b.sops ++ [{ id, done := false, load := false, dests := [], writes := [] }] } else b

/-- A register written by a completing load. -/
def Bead.land (b : Bead) (w : RegWrite) : Bead :=
  match w.place with
  | none => b.sset w.reg w.value
  | some k => b.vset k w.reg (w.value.setWidth 32)

/-- What n loaded bytes write from register d on: one register extended, or n/4 registers (R218). -/
def loadWrites (k : Four) (d : Reg) (sx : BitVec 1) (bs : List Byte) : List RegWrite :=
  let x := leNat bs
  if bs.length ≤ 2 then
    let v : BitVec 32 := if sx == 1 then BitVec.ofInt 32 (Int.bmod x (2 ^ (8 * bs.length))) else BitVec.ofNat 32 x
    [{ place := some k, reg := d, value := v.setWidth 64 }]
  else (List.range (bs.length / 4)).map fun r =>
    { place := some k, reg := regPlus d r, value := BitVec.ofNat 64 (x / 2 ^ (32 * r) % 2 ^ 32) }

/-- The low n bytes of the registers from d on (R218). -/
def storeBytes (b : Bead) (k : Four) (d : Reg) (n : Nat) : List Byte :=
  ((List.range ((n + 3) / 4)).flatMap fun r => leBytes 4 (b.vget k (regPlus d r)).toNat).take n

/-! ### Scratch -/

def Ctx.scrRead (c : Ctx) (s : State) (o n : Nat) : List Byte := (s.col c.tower c.col).scratch.read (c.g.scrBase + o) n

def Ctx.scrWrite (c : Ctx) (s : State) (o : Nat) (bs : List Byte) : State :=
  s.updCol c.tower c.col fun co => { co with scratch := co.scratch.write (c.g.scrBase + o) bs }

/-! ### At a scope's point of coherence -/

/-- n bytes read at the scope's point (R103), where the column's stores to the line, which a bead of it may have read or made
itself, come before (R109, R219). -/
def readAt (s : State) (t : Four) (col : Nat) (asid : Half) (va : DWord) (n : Nat) (scope : BitVec 3) (h : Hit) :
    State × List Byte :=
  if scope.toNat ≤ 2 then colRead s t col asid va n h false
  else
    let s1 := pushStores s t col asid va h.pa
    if scope.toNat = 3 then towerRead s1 t asid va n h else homeRead s1 asid va n h

/-- A store of a bead on its way (R95). -/
def Ctx.storeRec (c : Ctx) (s : State) (b : Bead) (op : Nat) (va : DWord) (bs : List Byte) (h : Hit) : StoreRec :=
  { id := s.nextId, gang := c.g.id, member := c.cur.member, home := b.home, pos := b.pos, op, tower := c.tower, col := c.col,
    asid := c.asid, va, bytes := bs, pa := h.pa, attr := h.attr, stage := 0, hint := h.hint }

/-- The bead's own contributions to the bytes it writes come first (R219). -/
def Ctx.ownFirst (c : Ctx) (s : State) (b : Bead) (va : DWord) (n : Nat) : State :=
  applyOwn s c.g.id c.cur.member b.home b.pos s.nextId c.asid va n

/-- A store or contribution is the bead's. -/
def ofBead (b : Bead) (home pos : Nat) : Bool := b.home == home && pos == b.pos

/-- One atomic of a bead (R110): in the column, written through as a store of stage `stage`, or at the home L2; the old
value. -/
def Ctx.rmw (c : Ctx) (s : State) (b : Bead) (scope : BitVec 3) (va : DWord) (n op stage : Nat) (h : Hit)
    (f : Nat → Nat) : State × Nat :=
  if scope.toNat ≤ 2 then
    let r := colRead s c.tower c.col c.asid va n h false
    let old := leNat r.2
    ((colStore r.1 { c.storeRec r.1 b op va (leBytes n (f old)) h with stage } false).fresh, old)
  else
    let s1 := dropPassed (pushStores s c.tower c.col c.asid va h.pa) c.tower c.col c.asid va h.pa
    let r := homeRead s1 c.asid va n h
    let old := leNat r.2
    (homeWrite r.1 c.asid va (leBytes n (f old)) h, old)

/-! ### Before an access (R118, R126, R219) -/

/-- An access of a bead to n bytes at an address. -/
structure Touch where
  b : Bead
  va : DWord
  n : Nat
deriving DecidableEq, Repr

/-- The access needs a line of the cache part that is not there (R95, R96). -/
def Ctx.needsLine (c : Ctx) (s : State) (x : Touch) : Bool :=
  (findLine (s.col c.tower c.col).lines c.asid x.va).isNone
    && match c.conf s .read x.va with
       | .ok h => h.attr.c
       | _ => false

/-- A contribution of the bead to the bytes has not been applied. -/
def Ctx.ownPending (c : Ctx) (s : State) (x : Touch) : Bool :=
  ownLeft s c.g.id c.cur.member x.b.home x.b.pos s.nextId c.asid x.va x.n

/-- A copy of the bead is still to write bytes of the group's access, or to read bytes that the access writes (R219, R238). -/
def Ctx.copyPending (c : Ctx) (s : State) (glob writes : Bool) (x : Touch) : Bool :=
  copyOwes s c.g.id c.cur.member x.b.home x.b.pos s.nextId glob writes x.va.toNat x.n

/-- What comes before accesses are performed: where they write, the beads' own contributions to the bytes are applied (R219);
then the lines' accumulator lines are evicted (R118); then a line is made room for, where one is filled. -/
def Ctx.clear (c : Ctx) (s : State) (writes fills : Bool) (xs : List Touch) : State :=
  let s1 := if writes then xs.foldl (fun s x => c.ownFirst s x.b x.va x.n) s else s
  let s2 := xs.foldl (fun s x => evictFor s c.tower c.col c.asid x.va) s1
  if fills && xs.any (c.needsLine s2) then (makeRoom s2 c.tower c.col).1 else s2

/-- After that: a line that stays faulted, a contribution that stays barred, a copy of the bead's own to the bytes (log 39) or a
cache part without a replaceable line makes the accesses wait (R126, R219). -/
def Ctx.barred (c : Ctx) (s : State) (writes fills : Bool) (xs : List Touch) : Bool :=
  xs.any (fun x => accBlocks s c.tower c.col c.asid x.va) || (writes && xs.any (c.ownPending s))
    || xs.any (c.copyPending s true writes)
    || (fills && noRoom s c.tower c.col && xs.any (c.needsLine s))

/-! ### BGEMVs that await their confirmation (R263) -/

def dropBgemv (s : State) (id : Nat) : State := { s with bgemvs := s.bgemvs.filter (·.id != id) }

/-- A BGEMV of the group that awaits its confirmation is given up. -/
def Ctx.leaveBank (c : Ctx) (s : State) : State :=
  match c.lead.wait with
  | some w => if w.kind == .bank then dropBgemv s w.addr.toNat else s
  | none => s

/-! ### Releases (R106) -/

/-- Every store, atomic and copy write of the group's beads has been acknowledged at the scope's point. -/
def Ctx.released (c : Ctx) (s : State) (scope : BitVec 3) : Bool :=
  !(s.stores.any fun r => r.gang == c.g.id && r.member == c.cur.member && c.beads.any (ofBead · r.home r.pos)
      && !r.released scope)
  && !(c.g.copies.any fun p => p.member == c.cur.member && c.beads.any fun b => b.home == p.home && b.pos == p.beadPos)

/-- The acquire of the group's workgroup at a scope (R107), noted in its beads (R134). -/
def Ctx.acquire (c : Ctx) (s : State) (scope : BitVec 3) : State :=
  c.onGrp (Machine.acquire s c.tower c.col c.asid scope) fun b => { b with acq := s.nextId }

/-- A release of the group's beads has completed: what they have stored is ordered before what acquires from it (R134). -/
def Ctx.noteRelease (c : Ctx) (s : State) : State := c.onGrp s fun b => { b with rel := s.nextId }

end Sys2Proof.Machine
end

