-- ==== Sys2Proof/Machine/Resources.lean ====
section
/-!
DEFINITION. What cores and columns hold and can still take (R20, R25, R60, R61), the power classes and the column budget
(R302, R303), vertical exclusion (R304), slack (R354).
-/

namespace Sys2Proof.Machine

/-! ### What a core holds (R60, R61, R183) -/

def Wg.holdsStrand (w : Wg) (st : Strand) : Bool := w.beads.any fun b => b.busy && (b.home == st.id || b.entry == st.id)

/-- A strand in sense of R49 or a restrung one that has not ended. -/
def Wg.heldStrands (w : Wg) : List Strand := w.strands.filter w.holdsStrand

def bitCount {n : Nat} (m : BitVec n) : Nat := ((List.range n).filter m.getLsbD).length

/-- Strand entries, register granules and tile sets of a core: held, or needed. -/
structure CoreUse where
  entries : Nat
  granules : Nat
  tiles : Nat
deriving DecidableEq, Repr

def CoreUse.zero : CoreUse := ⟨0, 0, 0⟩
def CoreUse.add (a b : CoreUse) : CoreUse := ⟨a.entries + b.entries, a.granules + b.granules, a.tiles + b.tiles⟩

/-- What a workgroup holds on its core; blocks are held by home strands (R46, R60). -/
def Wg.use (w : Wg) : CoreUse :=
  { entries := w.heldStrands.length
    granules := ((w.heldStrands.filter fun st => decide (st.id < 32)).map fun st => bitCount st.blocks).foldl (· + ·) 0
    tiles := if w.tile.isSome then 1 else 0 }

/-- What a workgroup of a launch needs to be placed (R61). -/
def Launch.need (l : Launch) : CoreUse :=
  { entries := (l.roles.map (·.strands)).foldl (· + ·) 0
    granules := (l.roles.map fun r => r.strands * r.blocks).foldl (· + ·) 0
    tiles := if l.roles.any (·.tile) then 1 else 0 }

/-- The workgroups resident on a core. -/
def coreWgs (s : State) (t : Four) (col : Nat) (k : Four) : List (Gang × Wg) :=
  (residents s t col).flatMap fun g => (g.members.filter (·.tier == k)).map fun w => (g, w)

def reservedUse (s : State) (t : Four) (col : Nat) (k : Four) : CoreUse :=
  s.gangs.foldl (fun u g =>
    match g.coming t col with
    | some (_, tiers) => (g.members.filter fun w => tiers.contains (w.pos, k)).foldl (fun u w => u.add w.use) u
    | none => u) CoreUse.zero

/-- What a core holds, reservations included. -/
def coreUse (s : State) (t : Four) (col : Nat) (k : Four) : CoreUse :=
  (coreWgs s t col k).foldl (fun u x => u.add x.2.use) (reservedUse s t col k)

/-- The limits of R61. -/
def CoreUse.fits (held need : CoreUse) : Bool :=
  decide (held.entries + need.entries ≤ 48) && decide (held.granules + need.granules ≤ 256)
    && decide (held.tiles + need.tiles ≤ 1)

/-! ### Columns -/

def Tower.present (tw : Tower) (col : Nat) : Bool := tw.boot.cols.getLsbD col

/-- Scratch runs that are taken in a column: start and length. -/
def scratchRuns (s : State) (t : Four) (col : Nat) : List (Nat × Nat) :=
  s.gangs.filterMap fun g =>
    match s.launch? g.launch with
    | none => none
    | some l =>
      if g.resident && g.tower == t && g.col == col then some (g.scrBase, l.scratchAll)
      else (g.coming t col).map fun x => (x.1, l.scratchAll)

/-- Numbers in rising order. -/
def sortNat (l : List Nat) : List Nat := sortBy (fun a b => decide (a ≤ b)) l

/-- The lowest free run of n units below a limit (R61, R337). -/
def freeRun (runs : List (Nat × Nat)) (limit n : Nat) : Option Nat :=
  (sortNat (0 :: runs.map fun r => r.1 + r.2)).find? fun a =>
    decide (a + n ≤ limit) && runs.all fun r => decide (r.2 = 0) || decide (a + n ≤ r.1) || decide (r.1 + r.2 ≤ a)

def Column.scratchBytes (co : Column) : Nat := co.steps * 262144

/-- Workgroup slots taken in a column (R25, R51). -/
def slotsUsed (s : State) (t : Four) (col : Nat) : Nat :=
  (s.gangs.filter fun g => (g.resident && g.tower == t && g.col == col) || (g.coming t col).isSome).foldl
    (fun n g => n + g.members.length) 0

/-- The fitting core with most free granules, the lowest tier among equals (R61). -/
def bestCore (avail : Four → Bool) (u : Quad CoreUse) (need : CoreUse) : Option Four :=
  Four.all.foldl (fun (best : Option Four) k =>
    if !avail k || !(u.get k).fits need then best
    else
      match best with
      | none => some k
      | some b => if (u.get k).granules < (u.get b).granules then some k else best) none

/-- Members take cores in order (R61). -/
def assignCores (avail : Four → Bool) : Quad CoreUse → List CoreUse → Option (List Four)
  | _, [] => some []
  | u, n :: ns =>
    match bestCore avail u n with
    | none => none
    | some k => (assignCores avail (u.set k ((u.get k).add n)) ns).map (k :: ·)

/-- Whether members with these needs, n scratch bytes and some lock entries fit a column together (R61, R132): the
scratch base and the cores. Trip bars a core (R306). Room for the gang's range-lock entries is part of the fit, so that a restore
looks at further columns (the model's choice, log 100). -/
def fitsColumn (s : State) (t : Four) (col : Nat) (needs : List CoreUse) (n locks : Nat) : Option (Nat × List Four) :=
  let co := s.col t col
  if slotsUsed s t col + needs.length ≤ 32 ∧ locksUsed s t col + locks ≤ 64 then
    match freeRun (scratchRuns s t col) co.scratchBytes n,
          assignCores (fun k => !(co.cores.get k).trip) (Quad.mapIdx (fun k _ => coreUse s t col k) (Quad.fill ())) needs with
    | some base, some ks => some (base, ks)
    | _, _ => none
  else none

/-- A search's columns, in order (R62): from 0 under pack, round from the column after the last under spread; present and not
draining. -/
def searchOrder (s : State) (t : Four) (spread : Bool) (last : Option Nat) : List Nat :=
  let from_ := if spread then (match last with | some c => (c + 1) % 40 | none => 0) else 0
  ((List.range 40).map fun k => (from_ + k) % 40).filter fun c => (s.tower t).present c && !(s.col t c).draining

/-! ### Slack (R354) -/

/-- None is infinite. -/
def Launch.slack (l : Launch) (now : Nat) : Option Int :=
  if l.deadline = 0 then none else some ((l.deadline.toNat : Int) - now - l.expected.toNat)

def slackLt : Option Int → Option Int → Bool
  | some a, some b => decide (a < b)
  | some _, none => true
  | none, _ => false

/-- In wrap-up (R349): from the first bead's diversion. -/
def Wg.inWrap (w : Wg) : Bool := w.beads.any (·.diverted)

def Gang.inWrap (g : Gang) : Bool := g.members.any Wg.inWrap

/-! ### Power classes (R302); costs in twentieths of a unit -/

inductive CoreClass where
  | gated | empty | vector | matrix
deriving DecidableEq, Repr

/-- Some strand stands on the core. -/
def coreHeld (s : State) (t : Four) (col : Nat) (k : Four) : Bool := (coreWgs s t col k).any fun x => !x.2.heldStrands.isEmpty

/-- A core's class (R302). One with a tile set whose workgroup has no strand left is Matrix until it is gated (the model's choice,
log 91). -/
def coreClass (s : State) (t : Four) (col : Nat) (k : Four) : CoreClass :=
  if ((s.col t col).cores.get k).gated then .gated
  else if (coreWgs s t col k).any fun x => x.2.tile.isSome then .matrix
  else if coreHeld s t col k then .vector
  else .empty

/-- The cost at a ratio (twice its value). -/
def CoreClass.cost (c : CoreClass) (ratio : Nat) : Nat :=
  match c with
  | .gated => 2
  | .empty => 10
  | .vector => if ratio = 4 then 60 else if ratio = 2 then 25 else 10
  | .matrix => if ratio = 4 then 120 else if ratio = 2 then 50 else 20

def columnBudget : Nat := 320

/-- The ratio's upper bound (R303), one half from the choice of a column move to the evaluation that follows its end where it is
given up (R312). -/
def ratioCap (s : State) (t : Four) (col : Nat) (k : Four) : Nat :=
  let moving := (residents s t col).any fun g => match g.pending with | some (.column ..) => true | _ => false
  if ((s.col t col).cores.get k).throttle || moving || (s.col t col).halved then 1 else 4

/-- The highest ratio at most `cap` with a cost within what is left; ratio one half always fits. -/
def bestRatio (c : CoreClass) (cap left : Nat) : Nat :=
  if 4 ≤ cap ∧ c.cost 4 ≤ left then 4 else if 2 ≤ cap ∧ c.cost 2 ≤ left then 2 else 1

def setCore (s : State) (t : Four) (col : Nat) (k : Four) (f : Core → Core) : State :=
  s.updCol t col fun co => { co with cores := co.cores.upd k f }

/-! ### Vertical exclusion (R304) -/

/-- The products of a core, the one in its unit first. -/
def unitProducts (s : State) (t : Four) (col : Nat) (k : Four) : List Product :=
  s.prods.filter fun p => p.tower == t && p.col == col && p.tier == k

/-- The vertically adjacent tiers. -/
def adjacent (k : Four) : List Four := Four.all.filter fun j => j.val + 1 == k.val || k.val + 1 == j.val

/-- The unit is active at ratio 2. -/
def fastUnit (s : State) (t : Four) (col : Nat) (k : Four) : Bool :=
  ((s.col t col).cores.get k).ratio == 4 && !(unitProducts s t col k).isEmpty

/-- A core's ratio as the governor sets it, reduced while its active unit stands beside one at ratio 2 (R35): of two active units
that an evaluation raises, the one that it takes first runs at ratio 2 (the model's choice, log 77). -/
def setGov (s : State) (t : Four) (col : Nat) (k : Four) (r : Nat) : State :=
  let held := !(unitProducts s t col k).isEmpty && (adjacent k).any (fastUnit s t col)
  setCore s t col k fun c => { c with gov := r, ratio := if r = 4 && held then 2 else r }

/-- Cores that exclusion reduced return to their governor ratio once no adjacent unit is active at ratio 2, of two that could the
lower tier (R304; the model's choice, log 77). -/
def recoverRatios (s : State) (t : Four) (col : Nat) : State :=
  Four.all.foldl (fun s k =>
    let c := (s.col t col).cores.get k
    if c.ratio = c.gov || (adjacent k).any (fastUnit s t col) then s
    else setCore s t col k fun c => { c with ratio := c.gov }) s

/-- The slack that ranks a product's workgroup: wrap-up before any other. -/
def productRank (s : State) (p : Product) : Bool × Option Int :=
  match s.gang? p.gang with
  | none => (false, none)
  | some g =>
    match s.launch? g.launch with
    | none => (false, none)
    | some l => ((g.member? p.member).any Wg.inWrap, l.slack (s.tower p.tower).time)

/-- x has strictly less slack than y. -/
def rankLt (x y : Bool × Option Int) : Bool := if x.1 == y.1 then slackLt x.2 y.2 else x.1

/-- The first of two contenders at or after the round-robin pointer. -/
def rrFirst (rr a b : Four) : Bool := decide ((a.val + 4 - rr.val) % 4 ≤ (b.val + 4 - rr.val) % 4)

/-- The units that start at an instant with their core's ratio at 2, no adjacent one having been active at ratio 2 before. -/
def starters (s : State) (t : Four) (col : Nat) (now : Nat) : List Four :=
  let since (k : Four) : Option Nat := (unitProducts s t col k).head?.map (·.start)
  Four.all.filter fun k => since k == some now && ((s.col t col).cores.get k).gov == 4
    && !(adjacent k).any fun j => fastUnit s t col j && since j != some now

/-- The first starters that stand one above the other, and the rest. -/
def starterRun : List Four → List Four × List Four
  | [] => ([], [])
  | [k] => ([k], [])
  | k :: j :: ks => if j.val = k.val + 1 then let r := starterRun (j :: ks); (k :: r.1, r.2) else ([k], j :: ks)

/-- The contenders with no one of strictly less slack. -/
def leastSlack (rank : Four → Bool × Option Int) (ks : List Four) : List Four :=
  ks.filter fun a => !ks.any fun b => rankLt (rank b) (rank a)

/-- The winner of a contest: the one with least slack; among equals the first at or after the pointer. -/
def winnerOf (rr : Four) : List Four → Four
  | [] => rr
  | k :: ks => ks.foldl (fun a b => if rrFirst rr a b then a else b) k

/-- The contests of an instant (R304), over starters in rising order: the winner of neighbours that start together runs at ratio
2, those beside it at ratio 1, and what is left contends anew; the pointer moves where it has settled equal slack. -/
def settleStarts (t : Four) (col : Nat) (rank : Four → Bool × Option Int) : Nat → List Four → State → State
  | 0, _, s => s
  | fuel + 1, ks, s =>
    let r := starterRun ks
    if r.1.isEmpty then s
    else
      let least := leastSlack rank r.1
      let win := winnerOf (s.col t col).rr least
      let s1 := if least.length ≤ 1 then s else s.updCol t col fun co => { co with rr := Four.ofNat (win.val + 1) }
      let beside := r.1.filter fun k => (adjacent win).contains k
      let s2 := beside.foldl (fun s k => setCore s t col k fun c => { c with ratio := 2 })
        (setCore s1 t col win fun c => { c with ratio := 4 })
      settleStarts t col rank fuel ((r.1.filter fun k => k != win && !beside.contains k) ++ r.2) s2

/-- A unit starts its oldest product: beside a unit already active at ratio 2 its core runs at ratio 1; the units that start at
one instant are settled together (R304). -/
def startUnit (s : State) (t : Four) (col : Nat) (k : Four) : State :=
  let now := (s.tower t).time
  match unitProducts s t col k with
  | [] => s
  | p :: _ =>
    let s1 := { s with prods := s.prods.map fun x => if x.id == p.id then { x with start := now } else x }
    let co := s1.col t col
    let was := if co.rrWhen = now then co.rrWas else co.rr
    let rank (j : Four) : Bool × Option Int :=
      match unitProducts s1 t col j with | q :: _ => productRank s1 q | [] => (false, none)
    let ks := starters s1 t col now
    let s2 := s1.updCol t col fun co => { co with rr := was, rrWhen := now, rrWas := was }
    let s3 := if ks.contains k then s2
      else setCore s2 t col k fun c => { c with ratio := if c.gov = 4 then 2 else c.ratio }
    recoverRatios (settleStarts t col rank 4 ks s3) t col

/-! ### Class changes (R303) -/

def CoreClass.rank : CoreClass → Nat
  | .gated => 0
  | .empty => 1
  | .vector => 2
  | .matrix => 3

/-- The class whose cost a core has reserved: of one whose class is about to rise, still the class before. -/
def heldClass (s : State) (t : Four) (col : Nat) (before : Quad CoreClass) (k : Four) : CoreClass :=
  let c := coreClass s t col k
  if (before.get k).rank < c.rank then before.get k else c

/-- After a change of what a core holds, `before` the classes from which the column's cores come: a higher class takes the highest
ratio that fits with the other reservations as they stand; an emptied core runs at ratio one half. -/
def reclass (s : State) (t : Four) (col : Nat) (k : Four) (before : Quad CoreClass) : State :=
  let c := coreClass s t col k
  if (before.get k).rank < c.rank && c != .empty then
    let others := (Four.all.filter (· != k)).foldl (fun n j =>
      n + (heldClass s t col before j).cost ((s.col t col).cores.get j).gov) 0
    setGov s t col k (bestRatio c (ratioCap s t col k) (columnBudget - others))
  else if c = .empty || c = .gated then setCore s t col k fun x => { x with gov := 1, ratio := 1 }
  else s

/-- The classes of a column's cores. -/
def classes (s : State) (t : Four) (col : Nat) : Quad CoreClass :=
  Quad.mapIdx (fun k _ => coreClass s t col k) (Quad.fill ())

/-- Every core of a column after a change, one after another in tier order (log 77): those that have had their turn count at their
new class, the rest as they were (R303). -/
def reclassAll (s : State) (t : Four) (col : Nat) (before : Quad CoreClass) : State :=
  (Four.all.foldl (fun (r : State × Quad CoreClass) k =>
    (reclass r.1 t col k r.2, r.2.upd k fun _ => coreClass r.1 t col k)) (s, before)).1

/-- Cores whose last strand has gone, and a column whose last gang has gone, since a state before: their 50 µs start (R316). -/
def noteEmpty (before s : State) (t : Four) (col : Nat) : State :=
  let now := (s.tower t).time
  let s1 := Four.all.foldl (fun s k =>
    if coreHeld before t col k && !coreHeld s t col k then setCore s t col k fun c => { c with emptySince := now } else s) s
  if (residents s1 t col).isEmpty then s1.updCol t col fun co => { co with emptySince := now } else s1

/-! ### RACQ (R270) -/

/-- The strand (gang, member, home) waits in RACQ.WAIT. -/
def racqBeads (s : State) (x : Nat × Nat × Nat) : List Bead :=
  match s.gang? x.1 with
  | none => []
  | some g =>
    match g.member? x.2.1 with
    | none => []
    | some w => w.beads.filter fun b => b.home == x.2.2 && b.live && b.wait.any (·.kind == .racq)

/-- The requests that still wait on a core, oldest first. -/
def racqQueue (s : State) (t : Four) (col : Nat) (k : Four) : List (Nat × Nat × Nat) :=
  ((s.col t col).cores.get k).racq.filter fun x => !(racqBeads s x).isEmpty

def freeGranules (s : State) (t : Four) (col : Nat) (k : Four) : Nat := 256 - (coreUse s t col k).granules

/-- code10[7:1] as blocks 1 to 7 (R270). -/
def blocksOf (b : BitVec 7) : BitVec 8 := b ++ 0#1

/-- The registers of acquired blocks become markers and are no longer pending (R270). -/
def Bead.acquireBlocks (bl : BitVec 8) (b : Bead) : Bead :=
  (List.range 64).foldl (fun b r =>
    if bl.getLsbD (r / 8) then
      { b with
          lanes := b.lanes.map fun t => { t with v := t.v.setIfInBounds r (BitVec.ofNat 32 (0x7FA00000 + r)) }
          pendV := clearPend b.pendV r }
    else b) b

/-- Blocks granted to a home strand. -/
def grantBlocks (s : State) (gang member home : Nat) (bl : BitVec 8) : State :=
  s.updWg gang member fun w =>
    { (w.updBeads (fun b => b.home == home) (Bead.acquireBlocks bl)) with
        strands := w.strands.map fun st => if st.id == home then { st with blocks := st.blocks ||| bl } else st }

/-- Requests at the head that fit are granted, one after another; their units end. -/
def serveRacq (t : Four) (col : Nat) (k : Four) : Nat → State → State
  | 0, s => s
  | fuel + 1, s =>
    match racqQueue s t col k with
    | [] => setCore s t col k fun c => { c with racq := [] }
    | x :: rest =>
      match (racqBeads s x).head? with
      | some b =>
        match b.held with
        | some (.racqWait bl) =>
          if bitCount bl ≤ freeGranules s t col k then
            let s1 := grantBlocks s x.1 x.2.1 x.2.2 (blocksOf bl)
            let s2 := s1.updWg x.1 x.2.1 fun w => w.updBeads (fun b => b.home == x.2.2 && b.live) fun b =>
              { b.advance with lastIssue := (s.tower t).time }
            serveRacq t col k fuel (setCore s2 t col k fun c => { c with racq := rest })
          else s
        | _ => s
      | none => s

/-- The queue of a core served (R270). -/
def serveCore (s : State) (t : Four) (col : Nat) (k : Four) : State :=
  serveRacq t col k (((s.col t col).cores.get k).racq.length + 1) s

/-- Every queue of a column served. -/
def serveColumn (s : State) (t : Four) (col : Nat) : State := Four.all.foldl (fun s k => serveCore s t col k) s

end Sys2Proof.Machine
end

