-- ==== Sys2Proof/Machine/MemInstr.lean ====
section
/-!
DEFINITION. Loads, stores, atomics and reductions (R217 to R226). A global access of majors 0x10, 0x11, 0x12 and 0x14 is held
from its issue until ACCESS_CONFIRM (R217), when it is performed (log 15).
-/

namespace Sys2Proof.Machine

/-! ### Issue -/

/-- The unit is held for its confirmation, under a fresh name. -/
def Ctx.await (c : Ctx) (s : State) (i : Instr) : State :=
  (c.waitAt s i fun _ => some { plainWait .confirm s (c.now s) with addr := BitVec.ofNat 64 s.nextId }).fresh

/-- The issue of a counted global access: it waits while a count is full (R160), before its own checks are made (log 64);
traps by checks a to d and then `extra`, and else awaits its confirmation. A unit without an active lane does nothing. -/
def Ctx.globalAcc (c : Ctx) (s : State) (i : Instr) (n : Nat) (a : AccKind) (ops : Bead → List CountedOp)
    (as : List LaneAcc) (extra : Option TrapReq) : State :=
  if as.isEmpty then c.done s
  else if as.any fun x => countFull (ops x.b) then c.holdIssue s i
  else
    match c.accTrap s true n (some a) as with
    | some t => takeTrap c s t
    | none =>
      match extra with
      | some t => takeTrap c s t
      | none => c.await s i

/-! ### Confirmation -/

/-- The accesses of some lanes. -/
def touches (n : Nat) (as : List LaneAcc) : List Touch := as.map fun x => { b := x.b, va := x.ea, n }

/-- The accesses are confirmed for a need and performed with the hit of each, once what comes before them is done; while
that cannot end they wait (R126). -/
def Ctx.confirmed (c : Ctx) (s : State) (need : Need) (as : List LaneAcc) (n : Nat) (writes fills : Bool)
    (perform : State → (DWord → Hit) → State) : State :=
  match confFail c s 1 need (as.map (·.target)) (c.conf s need) with
  | some s1 => s1
  | none =>
    let hit (va : DWord) : Hit := match c.conf s need va with | .ok h => h | _ => { pa := 0, attr := attrOf 0 }
    let s1 := c.clear s writes fills (touches n as)
    if c.barred s1 writes fills (touches n as) then s1 else perform s1 hit

/-- Several reads, each with what its bytes write. -/
def readEach (as : List LaneAcc) (rd : State → LaneAcc → State × List Byte) (wr : LaneAcc → List Byte → List RegWrite)
    (s : State) : State × List (Nat × RegWrite) :=
  as.foldl (fun r x =>
    let q := rd r.1 x
    (q.1, r.2 ++ (wr x q.2).map fun w => (x.b.pos, w))) (s, [])

def vecDests (d : Reg) (k : Nat) : List (Bool × Reg) := (List.range k).map fun j => (false, regPlus d j)

/-- VLD (R218). -/
def confirmVld (c : Ctx) (s : State) (d a b : Reg) (g : BitVec 3) (na sx : BitVec 1) (size : BitVec 3) : State :=
  let n := sizeBytes size
  let as := c.laneAccs g fun x k => c.eaGlobal x k a b
  c.confirmed s .read as n false (na == 0) fun s hit =>
    let r := readEach as (fun s x => colRead s c.tower c.col c.asid x.ea n (hit x.ea) (na == 1))
      (fun x bs => loadWrites x.k d sx bs) s
    c.done (c.countLoad r.1 r.1.nextId as (vecDests d (sizeRegs size)) r.2).fresh

/-- The stores of some accesses begin their way, oldest first. -/
def Ctx.storeEach (c : Ctx) (s : State) (op : Nat) (na : Bool) (as : List LaneAcc) (bytes : LaneAcc → List Byte)
    (hit : DWord → Hit) : State :=
  as.foldl (fun s x => (colStore s (c.storeRec s x.b op x.ea (bytes x) (hit x.ea)) na).fresh) s

/-- Only the highest lane of those that write one address stores (R219). -/
def lastWriters : List LaneAcc → List LaneAcc
  | [] => []
  | x :: xs => if xs.any (·.ea == x.ea) then lastWriters xs else x :: lastWriters xs

/-- VST (R218, R219). -/
def confirmVst (c : Ctx) (s : State) (d a b : Reg) (g : BitVec 3) (na : BitVec 1) (size : BitVec 3) : State :=
  let as := c.laneAccs g fun x k => c.eaGlobal x k a b
  c.confirmed s .write as (sizeBytes size) true false fun s hit =>
    let op := s.nextId
    let s1 := c.storeEach s.fresh op (na == 1) (lastWriters as) (fun x => storeBytes x.b x.k d (sizeBytes size)) hit
    c.done (c.countStore s1 op as)

/-- SLD (R220). -/
def confirmSld (c : Ctx) (s : State) (d a b : Reg) (g : BitVec 3) (sx : BitVec 1) (size : BitVec 3) : State :=
  let n := sizeBytes size
  let as := c.beadAccs g fun x => c.eaScalar x a b
  let value (bs : List Byte) : DWord :=
    if sx == 1 then BitVec.ofInt 64 (Int.bmod (leNat bs) (2 ^ (8 * n))) else BitVec.ofNat 64 (leNat bs)
  c.confirmed s .read as n false true fun s hit =>
    let r := readEach as (fun s x => colRead s c.tower c.col c.asid x.ea n (hit x.ea) false)
      (fun _ bs => [RegWrite.mk none d (value bs)]) s
    c.done (c.countLoad r.1 r.1.nextId as [(true, d)] r.2).fresh

/-- SST (R220). -/
def confirmSst (c : Ctx) (s : State) (d a b : Reg) (g size : BitVec 3) : State :=
  let as := c.beadAccs g fun x => c.eaScalar x a b
  c.confirmed s .write as (sizeBytes size) true false fun s hit =>
    let op := s.nextId
    let s1 := c.storeEach s.fresh op false as (fun x => leBytes (sizeBytes size) (x.b.sget d).toNat) hit
    c.done (c.countStore s1 op as)

/-- Bytes of an atomic (R223). -/
def atomBytes (op : BitVec 5) : Nat := if op == 1 || op == 11 || op == 13 then 8 else 4

/-- The new value of an atomic from the old one and its operand group, lowest register lowest (R223). -/
def atomNew (op : BitVec 5) (y : Nat) (old : Nat) : Nat :=
  let o : Word := BitVec.ofNat 32 old
  let w : Word := BitVec.ofNat 32 y
  match op.toNat with
  | 0 => (o + w).toNat
  | 1 => (old + y) % 2 ^ 64
  | 2 => (RedOp.word .addF32 o w).toNat
  | 3 => (RedOp.word .minI32 o w).toNat
  | 4 => (RedOp.word .maxI32 o w).toNat
  | 5 => (RedOp.word .minN32 o w).toNat
  | 6 => (RedOp.word .maxN32 o w).toNat
  | 7 => (o &&& w).toNat
  | 8 => (o ||| w).toNat
  | 9 => (o ^^^ w).toNat
  | 10 => w.toNat
  | 11 => y
  | 12 => if old = y % 2 ^ 32 then y / 2 ^ 32 else old
  | 13 => if old = y % 2 ^ 64 then y / 2 ^ 64 else old
  | _ => if w.toNat ≤ old then 0 else old + 1

/-- The operand group as one number. -/
def groupNat (b : Bead) (k : Four) (d : Reg) (n : Nat) : Nat := leNat (storeBytes b k d (4 * n))

/-- How far a VATOM has come, kept in the wait of its beads. -/
def Ctx.atomProgress (c : Ctx) (s : State) (hits : List (DWord × Nat × Attr)) (olds : List DWord) : State :=
  c.onGrp s fun b => { b with wait := b.wait.map fun w => { w with hits, olds } }

/-- The next atomic of a VATOM, that of the lowest lane to come, under the translation with which it was confirmed; after the last
one the unit is over, its old values counted in l (R224). Other steps may come between two lanes. What comes before its accesses is
done for all lanes before the first of them, so that a unit which waits then has had no effect (R126, R318). -/
def Ctx.nextAtom (c : Ctx) (s : State) (id : Nat) (as : List LaneAcc) (d : Reg) (scope : BitVec 3) (op : BitVec 5)
    (hits : List (DWord × Nat × Attr)) (olds : List DWord) : State :=
  let n := atomBytes op
  let fills := decide (scope.toNat ≤ 2)
  match as[olds.length]?, hits with
  | some x, h :: rest =>
    let xs := touches n (if olds.isEmpty then as else [x])
    let s1 := c.clear s true fills xs
    if c.barred s1 true fills xs then s1
    else
      let q := c.rmw s1 x.b scope x.ea n id 0 { pa := h.2.1, attr := h.2.2, who := some c.l.id } (atomNew op (groupNat x.b x.k d (atomRegs op)))
      let all := olds ++ [BitVec.ofNat 64 q.2]
      if rest.isEmpty then
        c.done (c.countLoad q.1 id as (vecDests d (atomDests op))
          ((as.zip all).flatMap fun y => (loadWrites y.1.k d 0 (leBytes n y.2.toNat)).map fun w => (y.1.b.pos, w)))
      else c.atomProgress q.1 rest all
  | _, _ => s

/-- VATOM (R223, R224): its lanes are confirmed together (R217), and perform their atomics one a step, ascending. -/
def confirmVatom (c : Ctx) (s : State) (d a b : Reg) (scope : BitVec 3) (op : BitVec 5) : State :=
  let as := c.laneAccs (modGuard c.pfx) fun x k => c.eaGlobal x k a b
  match c.lead.wait with
  | none => s
  | some w =>
    if w.hits.isEmpty then
      match confFail c s 1 .write (as.map (·.target)) (c.conf s .write) with
      | some s1 => s1
      | none => c.nextAtom s w.addr.toNat as d scope op
          (as.map fun x => match c.conf s .write x.ea with | .ok h => (x.ea, h.pa, h.attr) | _ => (x.ea, 0, attrOf 0)) []
    else c.nextAtom s w.addr.toNat as d scope op w.hits w.olds

/-- The operations of VRED (R225). -/
def RedOp.ofCode (op : BitVec 5) : RedOp :=
  match op.toNat with
  | 0 => .addF32
  | 1 => .addI32
  | 2 => .addI64
  | 3 => .minI32
  | 4 => .maxI32
  | 5 => .minN32
  | 6 => .maxN32
  | 7 => .addBf16x2
  | 8 => .minF32
  | _ => .maxF32

/-- VRED's contributions leave (R225): one a lane. -/
def sendVred (c : Ctx) (s : State) (d a b : Reg) (scope : BitVec 3) (op : BitVec 5) : State :=
  let unit := s.nextId
  let o := RedOp.ofCode op
  let as := c.laneAccs (modGuard c.pfx) fun x k => c.eaGlobal x k a b
  c.done (as.foldl (fun (s : State) (x : LaneAcc) =>
    let y : DWord := BitVec.ofNat 64 (groupNat x.b x.k d (o.bytes / 4))
    let r : Red :=
      { id := s.nextId, unit := unit, issued := unit, gang := c.g.id, launch := c.l.id, member := c.cur.member, home := x.b.home, pos := x.b.pos, w := c.wg.w,
        tower := c.tower, col := c.col, asid := c.asid, va := x.ea, op := o, value := y, scope := scope, bgemv := none }
    (putRed s r).fresh) s.fresh)

/-- The signalling-NaN reads of a floating atomic or reduction (R78). -/
def redReads (op : RedOp) (d : Reg) : List FloatRead :=
  match op with
  | .addF32 | .minF32 | .maxF32 => [.word d]
  | .addBf16x2 => [.halves d fmtBf16]
  | _ => []

/-! ### The instructions -/

/-- R218. -/
def execVld (d a b : Reg) (g : BitVec 3) (na sx : BitVec 1) (size : BitVec 3) (s : State) : Res :=
  issue (.vld d a b g na sx size) s fun c s =>
    c.globalAcc s (.vld d a b g na sx size) (sizeBytes size) .load (·.lops) (c.laneAccs g fun x k => c.eaGlobal x k a b) none

/-- R218. -/
def execVst (d a b : Reg) (g : BitVec 3) (na : BitVec 1) (size : BitVec 3) (s : State) : Res :=
  issue (.vst d a b g na size) s fun c s =>
    c.globalAcc s (.vst d a b g na size) (sizeBytes size) .store (·.sops) (c.laneAccs g fun x k => c.eaGlobal x k a b) none

/-- R220. -/
def execSld (d a b : Reg) (g : BitVec 3) (sx : BitVec 1) (size : BitVec 3) (s : State) : Res :=
  issue (.sld d a b g sx size) s fun c s =>
    c.globalAcc s (.sld d a b g sx size) (sizeBytes size) .load (·.lops) (c.beadAccs g fun x => c.eaScalar x a b) none

/-- R220. -/
def execSst (d a b : Reg) (g size : BitVec 3) (s : State) : Res :=
  issue (.sst d a b g size) s fun c s =>
    c.globalAcc s (.sst d a b g size) (sizeBytes size) .store (·.sops) (c.beadAccs g fun x => c.eaScalar x a b) none

/-- The scratch offsets of the lanes (R156). -/
def Ctx.scratchAccs (c : Ctx) (g : BitVec 3) (a b : Reg) : List LaneAcc :=
  c.laneAccs g fun x k => BitVec.ofNat 64 (c.eaScratch x k a b)

/-- R221. -/
def execVlds (d a b : Reg) (g : BitVec 3) (sx : BitVec 1) (size : BitVec 3) (s : State) : Res :=
  issue (.vlds d a b g sx size) s fun c s =>
    let n := sizeBytes size
    let as := c.scratchAccs g a b
    if as.isEmpty then c.done s
    else if as.any fun x => countFull x.b.lops then c.holdIssue s (.vlds d a b g sx size)
    else
      match c.accTrap s false n (some .load) as with
      | some t => takeTrap c s t
      | none =>
        let r := readEach as (fun s x => (s, c.scrRead s x.ea.toNat n)) (fun x bs => loadWrites x.k d sx bs) s
        c.done (c.countLoad r.1 r.1.nextId as (vecDests d (sizeRegs size)) r.2).fresh

/-- R221: performed at issue, acknowledged by STORE_ACK. -/
def execVsts (d a b : Reg) (g size : BitVec 3) (s : State) : Res :=
  issue (.vsts d a b g size) s fun c s =>
    let n := sizeBytes size
    let as := c.scratchAccs g a b
    if as.isEmpty then c.done s
    else if as.any fun x => countFull x.b.sops then c.holdIssue s (.vsts d a b g size)
    else
      match c.accTrap s false n (some .store) as with
      | some t => takeTrap c s t
      | none =>
        let s1 := as.foldl (fun s x => c.scrWrite s x.ea.toNat (storeBytes x.b x.k d n)) s
        c.done (c.countStore s1 s1.nextId as).fresh

/-! ### The dequantising load (R222) -/

/-- A lane's word and scale: the word's offset, the element base, the scale's offset and its bytes. -/
structure DqLane where
  x : LaneAcc
  eb : Nat
  so : Int
  sbytes : Nat

/-- R222. An element offset below the element base gives a negative position, divided toward minus infinity (log 65). -/
def dqLane (fmt : BitVec 12) (a : Reg) (x : LaneAcc) : DqLane :=
  let base := x.b.sget a
  let eb := (base.setWidth 32 : Word).toNat
  let sb := (base.extractLsb' 32 32).toNat
  let p : Int := ((x.ea.toNat : Int) - eb) * (elemsOf fmt : Nat) / 4
  match fmtScale fmt with
  | 1 => { x, eb, so := (sb : Int) + p / 32, sbytes := 1 }
  | 2 => { x, eb, so := sb, sbytes := 4 }
  | _ => { x, eb, so := 0, sbytes := 0 }

/-- The addresses of a lane that must be multiples of 4. -/
def DqLane.words (q : DqLane) : List Int :=
  [(q.x.ea.toNat : Int), (q.eb : Int)] ++ if q.sbytes = 4 then [q.so] else []

/-- The scratch ranges of a lane: data word, then scale bytes. -/
def DqLane.ranges (q : DqLane) : List (Int × Nat) :=
  ((q.x.ea.toNat : Int), 4) :: if q.sbytes = 0 then [] else [(q.so, q.sbytes)]

/-- Its own traps of code 0x06 to 0x08, in order (R222). -/
def dqTrap (c : Ctx) (s : State) (qs : List DqLane) : Option TrapReq :=
  let va (o : Int) : DWord := BitVec.ofNat 64 (o % 2 ^ 32).toNat
  let odd := qs.flatMap fun q => (q.words.filter fun v => v % 4 != 0).map fun v => (q.x.lane, va v)
  let rs := qs.flatMap fun q => q.ranges.map fun r => (q.x.lane, r)
  match odd with
  | x :: _ => some { code := 0x06, va := lowestVa (odd.map (·.2)), lane := x.1 }
  | [] =>
    match rs.find? fun r => decide (r.2.1 < 0) || decide ((c.scrLen : Int) < r.2.1 + r.2.2) with
    | some r => some { code := 0x07, va := va r.2.1, lane := r.1 }
    | none =>
      match rs.find? fun r => lockHit s c.tower c.col c.asid c.g.id false r.2.1.toNat r.2.2 .load with
      | some r => some { code := 0x08, va := va r.2.1, lane := r.1 }
      | none => none

/-- The scale of a lane (R222). -/
def dqScale (c : Ctx) (s : State) (q : DqLane) : Val :=
  let x := leNat (c.scrRead s q.so.toNat q.sbytes)
  match q.sbytes with
  | 0 => .fin false 1 0
  | 1 => match scaleExp x with | some e => .fin false 1 e | none => .nan
  | _ => fmt32.val x

/-- What a lane writes (R222): each element times the scale, rounded once. -/
def dqWrites (c : Ctx) (s : State) (fmt : BitVec 12) (d : Reg) (q : DqLane) : List RegWrite :=
  let el := fmtElem fmt
  let w : Word := BitVec.ofNat 32 (leNat (c.scrRead s q.x.ea.toNat 4))
  let sc := dqScale c s q
  (List.range (elemsOf fmt)).map fun j =>
    let v := (el.val ((c.wg.tile.map (·.cbs.get (fmtCb fmt))).getD 0) (elemAt el.width w j)).mul sc
    { place := some q.x.k, reg := regPlus d j, value := (roundF32 (c.rndFmt fmt) (c.satFmt fmt) v).setWidth 64 }

/-- R222. -/
def execVldsDq (d a b : Reg) (g : BitVec 3) (s : State) : Res :=
  issue (.vldsDq d a b g) s fun c s =>
    let fmt := c.lead.fmt
    let as := c.scratchAccs g a b
    let qs := as.map (dqLane fmt a)
    if as.any fun x => countFull x.b.lops then c.holdIssue s (.vldsDq d a b g)
    else if !aligned d (elemsOf fmt) then takeTrap c s { code := 0x01 }
    else if fmtElem fmt == .c4 && c.wg.tile.isNone then takeTrap c s { code := 0x0D }
    else if as.isEmpty then c.done s
    else
      match dqTrap c s qs with
      | some t => takeTrap c s t
      | none =>
        let ws := qs.flatMap fun q => (dqWrites c s fmt d q).map fun w => (q.x.b.pos, w)
        c.done (c.countLoad s s.nextId as (vecDests d (elemsOf fmt)) ws).fresh

/-- R223, R224: check e stands between d and f. -/
def execVatom (d a b : Reg) (scope : BitVec 3) (op : BitVec 5) (s : State) : Res :=
  issue (.vatom d a b scope op) s fun c s =>
    let g := modGuard c.pfx
    c.globalAcc s (.vatom d a b scope op) (atomBytes op) .rmw (·.lops) (c.laneAccs g fun x k => c.eaGlobal x k a b)
      (if op == 2 then snanOf c.beads (fun x => x.lanesOn g c.neg) [.word d] else none)

/-- The gang holds 16 deferred-settle records (R226). -/
def Ctx.recordsFull (c : Ctx) (s : State) : Bool := (s.gang? c.g.id).any fun g => decide (16 ≤ g.defers.length)

/-- R225, R226: confirmed first at scope 3 to 5 while the gang holds 16 records. -/
def execVred (d a b : Reg) (scope : BitVec 3) (op : BitVec 5) (s : State) : Res :=
  issue (.vred d a b scope op) s fun c s =>
    let g := modGuard c.pfx
    let as := c.laneAccs g fun x k => c.eaGlobal x k a b
    match c.accTrap s true (RedOp.ofCode op).bytes (some .rmw) as with
    | some t => takeTrap c s t
    | none =>
      match snanOf c.beads (fun x => x.lanesOn g c.neg) (redReads (RedOp.ofCode op) d) with
      | some t => takeTrap c s t
      | none =>
        if 3 ≤ scope.toNat && c.recordsFull s && !as.isEmpty then c.await s (.vred d a b scope op)
        else sendVred c s d a b scope op

/-! ### The steps -/

/-- What a confirmation does with the unit it names. -/
def confirmUnit (c : Ctx) (s : State) : State :=
  match c.lead.held with
  | some (.vld d a b g na sx size) => confirmVld c s d a b g na sx size
  | some (.vst d a b g na size) => confirmVst c s d a b g na size
  | some (.sld d a b g sx size) => confirmSld c s d a b g sx size
  | some (.sst d a b g size) => confirmSst c s d a b g size
  | some (.vatom d a b scope op) => confirmVatom c s d a b scope op
  | some (.vred d a b scope op) =>
    match confFail c s 1 .write ((c.laneAccs (modGuard c.pfx) fun x k => c.eaGlobal x k a b).map (·.target)) (c.conf s .write) with
    | some s1 => s1
    | none => sendVred c s d a b scope op
  | _ => s

/-- The group of a cursor acted on by a step that is no word of its own. -/
def withGroup (s : State) (cu : Cursor) (f : Ctx → State → State) : State :=
  match { s with cur := some cu }.ctx? with
  | none => s
  | some c => { f c { s with cur := some cu } with cur := none }

/-- The groups of the resident gangs, as cursors. -/
def allGroups (s : State) : List (Cursor × Bead) :=
  (s.gangs.filter Gang.resident).flatMap fun g => g.members.flatMap fun w =>
    (w.beads.filter Bead.live).map fun b => ({ gang := g.id, member := w.pos, grp := b.grp, resv := false }, b)

/-- The first group one of whose beads a predicate picks. -/
def findGroup (s : State) (p : Bead → Bool) : Option Cursor := ((allGroups s).find? fun x => p x.2).map (·.1)

/-- R217. -/
def execAccessConfirm (id : Nat) (s : State) : Res :=
  .next <|
    match findGroup s fun b => b.wait.any fun w => w.kind == .confirm && w.addr.toNat == id with
    | none => s
    | some cu => withGroup s cu confirmUnit

/-- The operation of a count completes, its registers written. -/
def Bead.landLoad (id : Nat) (b : Bead) : Bead :=
  match b.lops.find? fun o => o.id == id && !o.done with
  | none => b
  | some o => { o.writes.foldl Bead.land b with lops := completeOp id b.lops }

/-- R160. -/
def execLoadComplete (id : Nat) (s : State) : Res := .next (s.mapBeads (Bead.landLoad id))

/-- R106, R160: a store on its way goes one level on, or a scratch store is acknowledged. -/
def execStoreAck (id : Nat) (s : State) : Res :=
  .next <|
    match s.stores.find? (·.id == id) with
    | some r => if mayAdvance s r then advanceStore s r else s
    | none =>
      if s.stores.any (·.op == id) then s
      else s.mapBeads fun b => { b with sops := completeOp id b.sops }

/-- R114. -/
def execReductionApply (id : Nat) (s : State) : Res :=
  .next <|
    match s.reds.find? (·.id == id) with
    | some r => if mayApply s r then applyRed s r else s
    | none => s

/-- R126. -/
def execFaultedLineReflush (t : Four) (col : Nat) (asid : Half) (va : DWord) (s : State) : Res :=
  .next (evictAll s t col fun l => l.at asid va && l.faulted)

end Sys2Proof.Machine
end

