-- ==== Sys2Proof/Machine/Copies.lean ====
section
/-!
DEFINITION. Copies (R127, R129 to R131, R238 to R247). A copy's pieces are fixed at issue and moved at COPY_COMPLETE, or in
part where it is held or stopped (log 28).
-/

namespace Sys2Proof.Machine

/-! ### Pieces -/

/-- n bytes from a global address on, cut at lines (R22): offset and length of each part. -/
def cutRun (va : DWord) (n : Nat) : List (Nat × Nat) :=
  let first := min n (128 - lineOff va)
  if n = 0 then []
  else (0, first) :: (List.range ((n - first + 127) / 128)).map fun k => (first + 128 * k, min 128 (n - first - 128 * k))

/-- n bytes from global memory to scratch. -/
def inward (va : DWord) (off n : Nat) : List Piece :=
  (cutRun va n).map fun p =>
    { src := some (true, va + BitVec.ofNat 64 p.1), dst := (false, BitVec.ofNat 64 (off + p.1)), len := p.2 }

/-- n bytes from scratch to global memory. -/
def outward (va : DWord) (off n : Nat) : List Piece :=
  (cutRun va n).map fun p =>
    { src := some (false, BitVec.ofNat 64 (off + p.1)), dst := (true, va + BitVec.ofNat 64 p.1), len := p.2 }

/-- n zero bytes into scratch. -/
def zeroFill (off n : Nat) : List Piece := [{ src := none, dst := (false, BitVec.ofNat 64 off), len := n }]

/-- The global address of a piece, with what it needs there (R247). -/
def Piece.global (p : Piece) : Option (DWord × Need) :=
  if p.dst.1 then some (p.dst.2, .write)
  else match p.src with
    | some (true, va) => some (va, .read)
    | _ => none

/-! ### Issue -/

/-- The range of an entry for n bytes, none for an empty one. -/
def lockOf (glob : Bool) (lo n : Nat) (kind : LockKind) : List Lock :=
  if n = 0 then [] else [{ glob, lo, hi := lo + n - 1, kind }]

/-- The piece's ranges against the table (R130): a source as a load, a destination as a store. -/
def Ctx.pieceBlocked (c : Ctx) (s : State) (p : Piece) : Bool :=
  let hit (glob : Bool) (a : DWord) (k : AccKind) : Bool := lockHit s c.tower c.col c.asid c.g.id glob a.toNat p.len k
  hit p.dst.1 p.dst.2 .store || match p.src with
    | some (glob, a) => hit glob a .load
    | none => false

/-- The ranges of the entries asked for, against the table. -/
def Ctx.lockBlocked (c : Ctx) (s : State) (k : Lock) : Bool :=
  lockHit s c.tower c.col c.asid c.g.id k.glob k.lo (k.hi + 1 - k.lo) (if k.kind == .dest then .store else .load)

/-- A copy that has passed its checks (R129, R130, R240, R246): nothing to move completes at once; a range forbidden to it
or too few entries stall it at issue; else it joins the open batch with its entries. Copies of one bead that no entry keeps apart
complete in any order (R244), also where R219 would order their bytes (the model's choice, log 39). -/
def Ctx.takeCopy (c : Ctx) (s : State) (i : Instr) (ps : List Piece) (ks : List Lock) : State :=
  if ps.isEmpty then c.done s
  else if ks.any (c.lockBlocked s) || ps.any (c.pieceBlocked s)
      || decide (64 < locksUsed s c.tower c.col + ks.length) then c.holdIssue s i
  else
    let p : Copy := { id := s.nextId, member := c.cur.member, home := c.lead.home, beadPos := c.lead.pos,
                      batch := c.wg.closed + 1, pieces := ps, locks := ks, hold := none, again := false, hint := modCache c.pfx }
    c.done (s.updGang c.g.id fun g => { g with copies := g.copies ++ [p] }).fresh

/-- The first of some values that is not a multiple of 16. -/
def misaligned16 (vs : List DWord) : Option DWord := vs.find? fun v => v.toNat % 16 != 0

/-- The checks of ACOPY and ACOPYO (R240). -/
def Ctx.copyTrap (c : Ctx) (va : DWord) (off count : Nat) : Option TrapReq :=
  let last := va + BitVec.ofNat 64 count - 1
  if !canonicalVa va then some { code := 0x09, va := va }
  else if !canonicalVa last then some { code := 0x09, va := last }
  else
    match misaligned16 [va, BitVec.ofNat 64 off, BitVec.ofNat 64 count] with
    | some v => some { code := 0x06, va := v }
    | none => if c.scrLen < off + count then some { code := 0x07, va := BitVec.ofNat 64 off } else none

/-- The low and high halves of a scalar of the lead bead. -/
def Ctx.loWord (c : Ctx) (r : Reg) : Nat := (c.lead.sget r).toNat % 2 ^ 32
def Ctx.hiWord (c : Ctx) (r : Reg) : Nat := (c.lead.sget r).toNat / 2 ^ 32

/-- R240. -/
def execAcopy (d a : Reg) (s : State) : Res :=
  issue (.acopy d a) s fun c s =>
    let va := c.lead.sget a
    let off := c.loWord d
    let n := c.hiWord d
    match c.copyTrap va off n with
    | some t => takeTrap c s t
    | none => c.takeCopy s (.acopy d a) (inward va off n) (lockOf false off n .dest ++ lockOf true va.toNat n .srcWrite)

/-- R240. -/
def execAcopyo (d a : Reg) (s : State) : Res :=
  issue (.acopyo d a) s fun c s =>
    let va := c.lead.sget a
    let off := c.loWord d
    let n := c.hiWord d
    match c.copyTrap va off n with
    | some t => takeTrap c s t
    | none => c.takeCopy s (.acopyo d a) (outward va off n) (lockOf true va.toNat n .dest ++ lockOf false off n .srcStore)

/-! ### Reads of the lead bead at issue -/

/-- A scratch read of the lead bead, as VLDS makes it (R217): 0x06, 0x07, 0x08. -/
def Ctx.scrTrap (c : Ctx) (s : State) (off n align : Nat) (a : AccKind) : Option TrapReq :=
  let va := BitVec.ofNat 64 off
  if off % align ≠ 0 then some { code := 0x06, va }
  else if c.scrLen < off + n then some { code := 0x07, va }
  else if lockHit s c.tower c.col c.asid c.g.id false off n a then some { code := 0x08, va }
  else none

/-- Confirmation of an address that may break R93. -/
def Ctx.confVa (c : Ctx) (s : State) (n : Need) (va : DWord) : Conf := if canonicalVa va then c.conf s n va else .error

/-- Bytes of a global range as the column sees them, line by line. -/
def Ctx.readRange (c : Ctx) (s : State) (va : DWord) (n : Nat) : State × List Byte :=
  (cutRun va n).foldl (fun (r : State × List Byte) p =>
    let a := va + BitVec.ofNat 64 p.1
    match c.confVa r.1 .read a with
    | .ok h =>
      let q := colRead r.1 c.tower c.col c.asid a p.2 h false
      (q.1, r.2 ++ q.2)
    | _ => (r.1, r.2 ++ zeros p.2)) (s, [])

/-! ### ACOPYT (R241, R242) -/

/-- One dimension of a tensor map with its coordinate record. -/
structure Dim where
  size : Nat
  box : Nat
  tstride : Nat
  dil : Nat
  stride : Nat
  org : Int
  tap : Int
deriving DecidableEq, Repr

structure TMap where
  base : Nat
  rank : Nat
  esize : Nat
  drow : Nat
  dims : List Dim
deriving DecidableEq, Repr

/-- A map's bytes, its origins and taps not yet read (R241). -/
def TMap.ofBytes (bs : List Byte) : TMap :=
  let rank := field bs 8 1
  let e := 2 ^ field bs 9 1
  { base := field bs 0 8, rank, esize := e, drow := field bs 0x0C 4
    dims := (List.range rank).map fun k =>
      { size := field bs (0x20 + 16 * k) 4, box := field bs (0x24 + 16 * k) 2, tstride := field bs (0x26 + 16 * k) 1,
        dil := field bs (0x27 + 16 * k) 1, stride := if k = 0 then e else field bs (0x28 + 16 * k) 8, org := 0, tap := 0 } }

/-- The boxes' row of the first dimension in bytes. -/
def TMap.rowBytes (m : TMap) : Nat := match m.dims with | d :: _ => d.box * m.esize | [] => 0

/-- DROW, or its default (R241). -/
def TMap.pitch (m : TMap) : Nat := if m.drow = 0 then (m.rowBytes + 15) / 16 * 16 else m.drow

def Dim.ok (e : Nat) (d : Dim) : Bool :=
  d.size != 0 && d.box != 0 && decide (d.box ≤ 256) && d.tstride != 0 && decide (d.tstride ≤ 8) && d.dil != 0
    && decide (d.dil ≤ 16) && d.stride % e == 0

/-- Every field in range and every reserved field zero (R241). -/
def tmapOk (bs : List Byte) : Bool :=
  let m := TMap.ofBytes bs
  let free (off n : Nat) : Bool := ((bs.drop off).take n).all (· == 0)
  decide (1 ≤ m.rank) && decide (m.rank ≤ 14) && decide (field bs 9 1 ≤ 3) && m.base % m.esize == 0
    && free 0x0A 2 && free 0x10 16 && free 0x28 8 && free (0x20 + 16 * m.rank) (256 - (0x20 + 16 * m.rank))
    && m.dims.all (Dim.ok m.esize) && (m.drow == 0 || (m.drow % 16 == 0 && decide (m.rowBytes ≤ m.drow)))

def signed32 (n : Nat) : Int := (BitVec.ofNat 32 n : Word).toInt

/-- The coordinate record read into the dimensions (R242). -/
def TMap.withRecord (m : TMap) (bs : List Byte) : TMap :=
  { m with dims := m.dims.mapIdx fun k d =>
      { d with org := signed32 (field bs (8 * k) 4), tap := signed32 (field bs (8 * k + 4) 4) } }

/-- The coordinate of a box index (R242). -/
def Dim.coord (d : Dim) (i : Nat) : Int := d.org + d.tap * d.dil + (i : Int) * d.tstride

/-- The byte offsets from BASE that the outer dimensions give, i_1 fastest; none where a coordinate is outside (R242). -/
def outerOffsets : List Dim → List (Option Nat)
  | [] => [some 0]
  | d :: ds =>
    (outerOffsets ds).flatMap fun o => (List.range d.box).map fun i =>
      let x := d.coord i
      match o with
      | some n => if 0 ≤ x ∧ x < d.size then some (n + x.toNat * d.stride) else none
      | none => none

/-- One element of the box: the global address read, modulo 2^64, or zero fill. One that breaks R93 is a translation error of the
element (the model's choice, log 90). -/
def TMap.element (m : TMap) (d0 : Dim) (outer : Option Nat) (i : Nat) : Option DWord :=
  let x := d0.coord i
  match outer with
  | some n => if 0 ≤ x ∧ x < d0.size then some (BitVec.ofNat 64 (m.base + n + x.toNat * d0.stride)) else none
  | none => none

/-- Every element of the box with its destination offset (R242). -/
def TMap.elements (m : TMap) (off : Nat) : List (Nat × Option DWord) :=
  match m.dims with
  | [] => []
  | d0 :: ds =>
    ((outerOffsets ds).mapIdx fun l o =>
      (List.range d0.box).map fun i => (off + l * m.pitch + i * m.esize, m.element d0 o i)).flatten

def TMap.pieces (m : TMap) (off : Nat) : List Piece :=
  (m.elements off).map fun x =>
    { src := x.2.map fun va => (true, va), dst := (false, BitVec.ofNat 64 x.1), len := m.esize }

/-- Bytes of the whole box in scratch (R242). -/
def TMap.boxBytes (m : TMap) : Nat := m.pitch * (m.dims.drop 1).foldl (fun n d => n * d.box) 1

/-- The bounding byte range of the elements read (R242). -/
def TMap.sourceLock (m : TMap) (off : Nat) : List Lock :=
  let vas := (m.elements off).filterMap fun x => x.2.map (·.toNat)
  match vas with
  | [] => []
  | v :: vs =>
    [{ glob := true, lo := vs.foldl min v, hi := vs.foldl max v + m.esize - 1, kind := .srcWrite }]

/-- R242 after the map has been read. -/
def acopytBox (c : Ctx) (s : State) (d a : Reg) (bs : List Byte) : State :=
  let m := TMap.ofBytes bs
  if !tmapOk bs then takeTrap c s { code := 0x02 }
  else
    match c.scrTrap s (c.hiWord d) (8 * m.rank) 8 .load with
    | some t => takeTrap c s t
    | none =>
      let m1 := m.withRecord (c.scrRead s (c.hiWord d) (8 * m.rank))
      let off := c.loWord d
      if off % 16 ≠ 0 then takeTrap c s { code := 0x06, va := BitVec.ofNat 64 off }
      else if c.scrLen < off + m1.boxBytes then takeTrap c s { code := 0x07, va := BitVec.ofNat 64 off }
      else c.takeCopy s (.acopyt d a) (m1.pieces off) (lockOf false off m1.boxBytes .dest ++ m1.sourceLock off)

/-- R242: the map is read as a load of the lead bead, not checked against the table (R130). -/
def execAcopyt (d a : Reg) (s : State) : Res :=
  issue (.acopyt d a) s fun c s =>
    let va := c.lead.sget a
    let ts : List Target := [{ lane := 0xFF, va }, { lane := 0xFF, va := va + 128 }]
    if !canonicalVa va then takeTrap c s { code := 0x09, va }
    else if va.toNat % 128 ≠ 0 then takeTrap c s { code := 0x06, va }
    else
      match confFail c s 1 .read ts (c.confVa s .read) with
      | some s1 => s1
      | none =>
        let xs : List Touch := ts.map fun t => { b := c.lead, va := t.va, n := 128 }
        let s1 := c.clear s false true xs
        if c.barred s1 false true xs then c.holdIssue s1 (.acopyt d a)
        else
          let r := c.readRange s1 va 256
          acopytBox c r.1 d a r.2

/-! ### ACOPYG (R243) -/

/-- The pieces of the gathered rows. -/
def gatherPieces (base : DWord) (off pitch rowb : Nat) (idx : List Nat) : List Piece :=
  (idx.mapIdx fun r n =>
    if n = 0xFFFFFFFF then zeroFill (off + r * rowb) rowb
    else inward (base + BitVec.ofNat 64 (n * pitch)) (off + r * rowb) rowb).flatten

/-- R243. With COUNT 0 the empty range in scratch is checked all the same (the model's choice, log 41). -/
def execAcopyg (d a geo : Reg) (s : State) : Res :=
  issue (.acopyg d a geo) s fun c s =>
    let g := c.lead.sget geo
    let pitch := (g.extractLsb' 0 32).toNat
    let rowb := (g.extractLsb' 32 16).toNat
    let count := (g.extractLsb' 48 16).toNat
    let va := c.lead.sget a
    let off := c.loWord d
    let list := c.hiWord d
    if rowb < 16 || 4096 < rowb || 4096 < count then takeTrap c s { code := 0x02 }
    else
      match misaligned16 [va, BitVec.ofNat 64 pitch, BitVec.ofNat 64 rowb, BitVec.ofNat 64 off] with
      | some v => takeTrap c s { code := 0x06, va := v }
      | none =>
        match if count = 0 then none else c.scrTrap s list (4 * count) 4 .load with
        | some t => takeTrap c s t
        | none =>
          if c.scrLen < off + count * rowb then takeTrap c s { code := 0x07, va := BitVec.ofNat 64 off }
          else
            let idx := (List.range count).map fun r => leNat (c.scrRead s (list + 4 * r) 4)
            c.takeCopy s (.acopyg d a geo) (gatherPieces va off pitch rowb idx) (lockOf false off (count * rowb) .dest)

/-! ### Batches (R246) -/

/-- R246. -/
def execCclose (d : Reg) (s : State) : Res :=
  issue (.cclose d) s fun c s =>
    let n := c.wg.closed + 1
    c.done (c.onGrp (s.updWg c.cur.gang c.cur.member fun w => { w with closed := n }) fun b => b.sset d (BitVec.ofNat 64 n))

/-- The end of a CWAIT over batches 1 to m (R131, R246, R247): the acquire, then the errors of those batches, once. -/
def finishCwait (c : Ctx) (s : State) (m : Nat) : State :=
  let s1 := c.acquire s 4
  let errs := c.wg.copyErrs.filter fun e => decide (e.batch ≤ m)
  if errs.isEmpty then c.done s1
  else
    takeTrap c (s1.updWg c.cur.gang c.cur.member fun w => { w with copyErrs := w.copyErrs.filter fun e => !decide (e.batch ≤ m) })
      { code := 0x09, va := lowestVa (errs.map (·.va)) }

/-- R246: m is fixed when the wait begins. -/
def execCwait (a : Reg) (s : State) : Res :=
  issue (.cwait a) s fun c s =>
    let m :=
      match c.lead.wait with
      | some w => if w.kind == .cwait then w.cmp.toNat else min (c.lead.sget a).toNat c.wg.closed
      | none => min (c.lead.sget a).toNat c.wg.closed
    if m = 0 then c.done s
    else if c.g.copies.any fun p => p.member == c.cur.member && decide (p.batch ≤ m) then
      (c.waitAt s (.cwait a) fun _ => some { plainWait .cwait s (c.now s) with cmp := BitVec.ofNat 64 m }).fresh
    else finishCwait c s m

/-! ### The steps -/

/-- How a piece's check of translation and permission ends (R247), from the tower: a copy bypasses the cache part. -/
def pieceConf (s : State) (g : Gang) (asid : Half) (p : Piece) : Conf :=
  match p.global with
  | none => .ok { pa := 0, attr := attrOf 0 }
  | some (va, n) => if canonicalVa va then (confTower s g.tower asid va n).by (some g.launch) else .error

/-- The bytes a piece reads (R127): the tower's point for global memory, once the column's stores to the line have passed it, the
lead bead's among them (R219); the column's own copy, older now, is replaced (R109, log 14). -/
def pieceRead (s : State) (g : Gang) (asid : Half) (p : Piece) (h : Hit) : State × List Byte :=
  match p.src with
  | none => (s, zeros p.len)
  | some (true, va) =>
    towerRead (dropColLine (pushStores s g.tower g.col asid va h.pa) g.tower g.col asid va) g.tower asid va p.len h
  | some (false, o) => (s, (s.col g.tower g.col).scratch.read (g.scrBase + o.toNat) p.len)

/-- Bytes of a copy written through to the home L2, the column's copy invalidated (R127). -/
def copyHome (s : State) (t : Four) (col : Nat) (asid : Half) (va : DWord) (bs : List Byte) (h : Hit) : State :=
  let s1 := homeWrite (dropColLine (pushStores s t col asid va h.pa) t col asid va) asid va bs h
  if homeOf va = t then s1 else rdcUpdate s1 t asid va h.pa bs

/-- One piece moved, where its check allows it; the lines that it fills at the L2 and the remote-data cache take the copy's CACHE
(R151). -/
def movePiece (g : Gang) (asid : Half) (hint : BitVec 2) (s : State) (p : Piece) : State :=
  match pieceConf s g asid p with
  | .ok h0 =>
    let h := { h0 with hint }
    let r := pieceRead s g asid p h
    if p.dst.1 then copyHome r.1 g.tower g.col asid p.dst.2 r.2 h
    else r.1.updCol g.tower g.col fun co => { co with scratch := co.scratch.write (g.scrBase + p.dst.2.toNat) r.2 }
  | _ => s

/-- What comes before some pieces of a copy: the lead bead's earlier contributions to the bytes that they write (R219, R238), and
the eviction of the accumulator lines that they meet (R118). -/
def clearPieces (g : Gang) (asid : Half) (p : Copy) (s : State) (ps : List Piece) : State :=
  let s1 := ps.foldl (fun s x =>
    if x.dst.1 then applyOwn s g.id p.member p.home p.beadPos p.id asid x.dst.2 x.len else s) s
  ps.foldl (fun s x => match x.global with | some (va, _) => evictFor s g.tower g.col asid va | none => s) s1

/-- Such a line or contribution that stays makes them wait. -/
def piecesBlocked (g : Gang) (asid : Half) (p : Copy) (s : State) (ps : List Piece) : Bool :=
  ps.any fun x =>
    (match x.global with | some (va, _) => accBlocks s g.tower g.col asid va | none => false)
      || (x.dst.1 && ownLeft s g.id p.member p.home p.beadPos p.id asid x.dst.2 x.len)

/-- A copy by its number, with its gang. -/
def findCopy (s : State) (id : Nat) : Option (Gang × Copy) :=
  s.gangs.findSome? fun g => (g.copies.find? (·.id == id)).map fun p => (g, p)

def State.updCopy (s : State) (gang id : Nat) (f : Copy → Copy) : State :=
  s.updGang gang fun g => { g with copies := g.copies.map fun p => if p.id == id then f p else p }

def State.dropCopy (s : State) (gang id : Nat) : State :=
  s.updGang gang fun g => { g with copies := g.copies.filter (·.id != id) }

/-- Some pieces of a copy moved, by their places; those that may not move stay. -/
def moveSome (s : State) (g : Gang) (asid : Half) (p : Copy) (moved : List Nat) : State × List Piece :=
  let mine := (p.pieces.mapIdx fun k x => (k, x)).filter fun x => moved.contains x.1 && (pieceConf s g asid x.2 matches .ok _)
  let ps := mine.map (·.2)
  let s1 := clearPieces g asid p s ps
  if piecesBlocked g asid p s1 ps then (s1, p.pieces)
  else
    (ps.foldl (movePiece g asid p.hint) s1,
      ((p.pieces.mapIdx fun k x => (k, x)).filter fun x => !mine.any (·.1 == x.1)).map (·.2))

/-- R244: every piece is present and permitted; the bytes move, the entries are freed. -/
def execCopyComplete (id : Nat) (s : State) : Res :=
  .next <|
    match findCopy s id with
    | none => s
    | some (g, p) =>
      let asid := s.asidOf g
      if !g.resident || p.hold.isSome || !(p.pieces.all fun x => pieceConf s g asid x matches .ok _) then s
      else
        let s1 := clearPieces g asid p s p.pieces
        if piecesBlocked g asid p s1 p.pieces then s1 else (p.pieces.foldl (movePiece g asid p.hint) s1).dropCopy g.id id

/-- The pieces that end otherwise than well, by a predicate on how. -/
def failing (s : State) (g : Gang) (asid : Half) (ps : List Piece) (p : Conf → Bool) : List (DWord × Need × Conf) :=
  ps.filterMap fun x =>
    match x.global with
    | some (va, n) => if p (pieceConf s g asid x) then some (va, n, pieceConf s g asid x) else none
    | none => none

/-- The entry with the lowest address. -/
def lowestFail : List (DWord × Need × Conf) → Option (DWord × Need × Conf)
  | [] => none
  | x :: xs =>
    match lowestFail xs with
    | none => some x
    | some y => if x.1.toNat ≤ y.1.toNat then some x else some y

def Conf.isAbsent : Conf → Bool
  | .absent _ => true
  | _ => false

def Conf.refused : Conf → Bool
  | .error | .perm => true
  | _ => false

/-- R247: a page is absent; some pieces have moved, the copy holds on the lowest absent address. -/
def execCopyPageHold (id : Nat) (moved : List Nat) (s : State) : Res :=
  .next <|
    match findCopy s id with
    | none => s
    | some (g, p) =>
      let asid := s.asidOf g
      match s.launch? g.launch, lowestFail (failing s g asid p.pieces Conf.isAbsent) with
      | some l, some (va, n, .absent e) =>
        if !g.resident || p.hold.isSome then s
        else
          let w := ((g.member? p.member).map (·.w)).getD 0
          let r := moveSome s g asid p moved
          let q := absence r.1 g.tower 2 n.code 0 l g w va e
          q.1.updCopy g.id id fun x => { x with pieces := r.2, hold := some (q.2, va) }
      | _, _ => s

/-- A copy ends with an error (R247): it leaves, its entries with it, and its workgroup keeps the error. -/
def stopCopy (s : State) (g : Gang) (p : Copy) (va : DWord) (cause need : Byte) : State :=
  (s.dropCopy g.id p.id).updWg g.id p.member fun w =>
    { w with copyErrs := w.copyErrs ++ [{ batch := p.batch, va, cause, need }] }

/-- R247: a translation error or a withheld permission; some pieces have moved, the copy stops. -/
def execCopyError (id : Nat) (moved : List Nat) (s : State) : Res :=
  .next <|
    match findCopy s id with
    | none => s
    | some (g, p) =>
      let asid := s.asidOf g
      match lowestFail (failing s g asid p.pieces Conf.refused) with
      | none => s
      | some (va, n, f) =>
        if !g.resident || p.hold.isSome then s
        else stopCopy (moveSome s g asid p moved).1 g p va f.cause n.code

end Sys2Proof.Machine
end

