-- ==== Sys2Proof/Machine/Tiles.lean ====
section
/-!
DEFINITION. Tile configuration, loads and stores (R238, R248 to R254). A tile word acts on the tile set at its issue, in the
order of issue that R252 asks, and stays counted in t until its step completes it (log 17).
-/

namespace Sys2Proof.Machine

/-! ### Control registers (R248, R249) -/

def tFmt (c : Word) : Elem := (Elem.ofCode (c.extractLsb' 0 4)).getD .f32
def tRows (c : Word) : Nat := (c.extractLsb' 4 6).toNat
def tSlices (c : Word) : Nat := (c.extractLsb' 10 4).toNat
def tCb (c : Word) : Four := Four.ofNat (c.extractLsb' 14 2).toNat
def tNsel (c : Word) : Nat := (c.extractLsb' 16 3).toNat

/-- N by NSEL code (R248). -/
def nOf (sel : Nat) : Nat :=
  match sel with
  | 1 => 16
  | 2 => 32
  | 3 => 48
  | 4 => 64
  | 5 => 96
  | _ => 0

/-- The N that R88 allows for an element width. -/
def legalN (width n : Nat) : Bool :=
  match width with
  | 8 => n == 16 || n == 32 || n == 48 || n == 96
  | 16 => n == 16 || n == 48
  | 4 => n == 16 || n == 32 || n == 48 || n == 64 || n == 96
  | _ => false

/-- A TCTL value that R248 and R250 allow. -/
def tctlOk (v : Word) : Bool :=
  let f := (v.extractLsb' 0 4).toNat
  v.extractLsb' 19 13 == 0 && f != 0 && decide (f ≤ 10) && tRows v != 0 && decide (tRows v ≤ 32) && tSlices v != 0
    && decide (tSlices v ≤ 8) && decide (tNsel v ≤ 5)
    && (tNsel v == 0 || (f != 9 && f != 10 && legalN (tFmt v).width (nOf (tNsel v))))

/-- Elements of a slice (R249); also those that a compressed slice keeps (R88). -/
def perSlice (e : Elem) : Nat := 768 / e.width

/-- Side-band bytes of a row (R249). -/
def sideBytes (c : Word) : Nat :=
  match tFmt c with
  | .mx8 => 3 * tSlices c
  | .mx4 => 6 * tSlices c
  | e => if tNsel c = 0 then 0 else 16 * tSlices c * perSlice e / nOf (tNsel c)

/-! ### The tile set -/

def Tile.blank : Tile := { ctl := 0, data := List.replicate 32 0, side := List.replicate 32 0 }

def TileSet.tile (ts : TileSet) (k : BitVec 3) : Tile := ts.tiles.getD k.toNat Tile.blank

def TileSet.upd (ts : TileSet) (k : BitVec 3) (f : Tile → Tile) : TileSet := { ts with tiles := updAt ts.tiles k.toNat f }

def Ctx.setTiles (c : Ctx) (s : State) (ts : TileSet) : State :=
  s.updWg c.cur.gang c.cur.member fun w => { w with tile := some ts }

/-- Bytes as the low bytes of a row, the rest zero. -/
def rowOf (w : Nat) (bs : List Byte) : BitVec w := BitVec.ofNat w (leNat bs)

/-- The first n bytes of a row. -/
def rowTake {w : Nat} (r : BitVec w) (n : Nat) : List Byte := (List.range n).map fun k => r.extractLsb' (8 * k) 8

/-- The first n bytes of a row replaced, the rest kept. -/
def rowKeep {w : Nat} (r : BitVec w) (bs : List Byte) : BitVec w :=
  ((r >>> (8 * bs.length)) <<< (8 * bs.length)) ||| rowOf w bs

/-- Every T-form word (R248): without a tile set it traps; a counted one waits while a count is full (R160), before
its own traps are judged (the model's choice, log 64). -/
def tileWord (i : Instr) (counted : Bool) (s : State) (own : Ctx → TileSet → State → State) : Res :=
  issue i s fun c s =>
    match c.wg.tile with
    | none => takeTrap c s { code := 0x0D }
    | some ts => if counted && c.beads.any (countFull ·.tops) then c.holdIssue s i else own c ts s

/-- A T-form word counted by every bead of its group (R160); `load`: a tile load (R254). -/
def Ctx.countTile (c : Ctx) (s : State) (id : Nat) (load : Bool) : State :=
  c.onGrp s fun b => { b with tops := b.tops ++ [{ id, done := false, load, dests := [], writes := [] }] }

/-- The unit ends, counted under a fresh name. -/
def Ctx.tileDone (c : Ctx) (s : State) (load : Bool) : State := c.done (c.countTile s s.nextId load).fresh

/-! ### Row ranges (R254) -/

/-- The ranges that a word touches: global or scratch, where each begins, their length. -/
structure Ranges where
  glob : Bool
  starts : List Nat
  len : Nat
deriving DecidableEq, Repr

/-- An address of a range, modulo 2^64: a row may pass the top of the address space (the model's choice, log 90). -/
def Ranges.at (n : Nat) : DWord := BitVec.ofNat 64 n

/-- The global parts, cut at lines. -/
def Ranges.parts (r : Ranges) : List (DWord × Nat) :=
  r.starts.flatMap fun x => (cutRun (Ranges.at x) r.len).map fun p => (Ranges.at (x + p.1), p.2)

/-- The address that the s register names, and n rows P bytes apart from it. -/
def rowRanges (scr : BitVec 1) (addr : DWord) (rows pitch len : Nat) : Ranges :=
  let base := if scr == 1 then addr.toNat % 2 ^ 32 else addr.toNat
  { glob := scr == 0, starts := (List.range rows).map fun r => base + r * pitch, len }

/-- Checks a to d of R217 over ranges: R93, the alignment of the address, the allocation, the locks. Check a looks at the first and
the last byte of every row (the model's choice, log 81). -/
def Ctx.rangeTrap (c : Ctx) (s : State) (r : Ranges) (addr align : Nat) (a : AccKind) : Option TrapReq :=
  let odd (n : Nat) : Bool := !canonicalVa (Ranges.at n)
  match if r.glob then r.starts.find? fun x => odd x || odd (x + r.len - 1) else none with
  | some x => some { code := 0x09, va := Ranges.at (if odd x then x else x + r.len - 1) }
  | none =>
    if addr % align ≠ 0 then some { code := 0x06, va := Ranges.at addr }
    else
      match if r.glob then none else r.starts.find? fun x => decide (c.scrLen < x + r.len) with
      | some x => some { code := 0x07, va := Ranges.at x }
      | none =>
        match r.starts.find? fun x => lockHit s c.tower c.col c.asid c.g.id r.glob (if r.glob then x % 2 ^ 64 else x) r.len a with
        | some x => some { code := 0x08, va := Ranges.at x }
        | none => none

/-- An access of the lead bead over ranges, in full: the traps a to g, accumulator lines, then the word's effect. -/
def Ctx.onRanges (c : Ctx) (s : State) (i : Instr) (r : Ranges) (addr align : Nat) (a : AccKind) (n : Need)
    (own : State → State) : State :=
  match c.rangeTrap s r addr align a with
  | some t => takeTrap c s t
  | none =>
    if !r.glob then own s
    else
      let xs : List Touch := r.parts.map fun p => { b := c.lead, va := p.1, n := p.2 }
      match confFail c s 1 n (xs.map fun x => { lane := 0xFF, va := x.va }) (c.confVa s n) with
      | some s1 => s1
      | none =>
        let s1 := c.clear s (a == .store) (a == .load) xs
        if c.barred s1 (a == .store) (a == .load) xs then c.holdIssue s1 i else own s1

/-- The bytes of each range. -/
def Ctx.readRanges (c : Ctx) (s : State) (r : Ranges) : State × List (List Byte) :=
  r.starts.foldl (fun (q : State × List (List Byte)) x =>
    if r.glob then
      let p := c.readRange q.1 (Ranges.at x) r.len
      (p.1, q.2 ++ [p.2])
    else (q.1, q.2 ++ [c.scrRead q.1 x r.len])) (s, [])

/-- The low word of an address register, or all of it (R251, R253, R260). -/
def tileAddr (scr : BitVec 1) (addr : DWord) : Nat := if scr == 1 then addr.toNat % 2 ^ 32 else addr.toNat

/-! ### Configuration (R250, R251) -/

/-- R250. -/
def execTcfg (td : BitVec 3) (rs : Reg) (target : BitVec 3) (s : State) : Res :=
  tileWord (.tcfg td rs target) false s fun c ts s =>
    let v : Word := (c.lead.sget rs).setWidth 32
    match target.toNat with
    | 0 => if tctlOk v then c.done (c.setTiles s (ts.upd td fun t => { t with ctl := v })) else takeTrap c s { code := 0x0D }
    | 1 => if v.toNat % 16 = 0 then c.done (c.setTiles s { ts with lpitch := v }) else takeTrap c s { code := 0x0D }
    | _ => if v.toNat % 4 = 0 then c.done (c.setTiles s { ts with dpitch := v }) else takeTrap c s { code := 0x0D }

/-- R251. -/
def execTcb (cb : BitVec 2) (rs : Reg) (scr : BitVec 1) (s : State) : Res :=
  tileWord (.tcb cb rs scr) false s fun c ts s =>
    let r := rowRanges scr (c.lead.sget rs) 1 0 32
    c.onRanges s (.tcb cb rs scr) r (tileAddr scr (c.lead.sget rs)) 32 .load .read fun s =>
      let q := c.readRanges s r
      c.done (c.setTiles q.1 { ts with cbs := ts.cbs.set (Four.ofNat cb.toNat) (rowOf 256 q.2.flatten) })

/-- R251. -/
def execTzero (td : BitVec 3) (s : State) : Res :=
  tileWord (.tzero td) false s fun c ts s =>
    c.done (c.setTiles s (ts.upd td fun t => { t with data := List.replicate 32 0, side := List.replicate 32 0 }))

/-! ### Loads and stores (R253, R254) -/

/-- Bytes of a row of a TLD or TST; none where it traps with 0x0D. -/
def tileRowBytes (ctl : Word) (sb : BitVec 1) : Option Nat :=
  if tRows ctl = 0 then none
  else if sb == 1 then (if sideBytes ctl = 0 then none else some (sideBytes ctl))
  else some (96 * tSlices ctl)

/-- 32 rows, those not read being zero. -/
def rows32 (w : Nat) (bss : List (List Byte)) : List (BitVec w) := (List.range 32).map fun r => rowOf w (bss.getD r [])

/-- R253. -/
def execTld (td : BitVec 3) (rs : Reg) (sb scr : BitVec 1) (s : State) : Res :=
  tileWord (.tld td rs sb scr) true s fun c ts s =>
    let ctl := (ts.tile td).ctl
    match tileRowBytes ctl sb with
    | none => takeTrap c s { code := 0x0D }
    | some n =>
      let addr := c.lead.sget rs
      let r := rowRanges scr addr (tRows ctl) ts.lpitch.toNat n
      c.onRanges s (.tld td rs sb scr) r (tileAddr scr addr) 16 .load .read fun s =>
        let q := c.readRanges s r
        c.tileDone (c.setTiles q.1 (ts.upd td fun t =>
          if sb == 1 then { t with side := rows32 12288 q.2 } else { t with data := rows32 6144 q.2 })) true

/-- The rows of a tile's area, n bytes each. -/
def Tile.rows (t : Tile) (sb : BitVec 1) (n : Nat) : List (List Byte) :=
  (List.range (tRows t.ctl)).map fun r =>
    if sb == 1 then rowTake (t.side.getD r 0) n else rowTake (t.data.getD r 0) n

/-- One row of a TST stored: the lead bead's store, under one name (R106, R254). -/
def Ctx.storeRow (c : Ctx) (op : Nat) (s : State) (va : DWord) (bs : List Byte) : State :=
  (cutRun va bs.length).foldl (fun s p =>
    let a := va + BitVec.ofNat 64 p.1
    match c.confVa s .write a with
    | .ok h =>
      (colStore s (c.storeRec s c.lead op a ((bs.drop p.1).take p.2) h) false).fresh
    | _ => s) s

/-- R253: rows in ascending order, so that the higher row stands. -/
def execTst (ta : BitVec 3) (rs : Reg) (sb scr : BitVec 1) (s : State) : Res :=
  tileWord (.tst ta rs sb scr) true s fun c ts s =>
    let t := ts.tile ta
    match tileRowBytes t.ctl sb with
    | none => takeTrap c s { code := 0x0D }
    | some n =>
      let addr := c.lead.sget rs
      let r := rowRanges scr addr (tRows t.ctl) ts.lpitch.toNat n
      c.onRanges s (.tst ta rs sb scr) r (tileAddr scr addr) 16 .store .write fun s =>
        let rows := r.starts.zip (t.rows sb n)
        let op := s.nextId
        let s1 := rows.foldl (fun s x =>
          if scr == 1 then c.scrWrite s x.1 x.2 else c.storeRow op s (Ranges.at x.1) x.2) s.fresh
        c.done (c.countTile s1 op false)

/-- The formats of TLDT (R253). -/
def tldtFmt (e : Elem) : Bool :=
  e == .e4m3 || e == .e5m2 || e == .i8 || e == .n8 || e == .bf16 || e == .f16

/-- Data row j of a TLDT from its memory rows: element j of each (R253). -/
def tldtRow (rows : List (List Byte)) (w j : Nat) : List Byte := rows.flatMap fun m => (m.drop (j * w)).take w

/-- R253. -/
def execTldt (td : BitVec 3) (rs : Reg) (scr : BitVec 1) (s : State) : Res :=
  tileWord (.tldt td rs scr) true s fun c ts s =>
    let ctl := (ts.tile td).ctl
    if tRows ctl = 0 || !tldtFmt (tFmt ctl) then takeTrap c s { code := 0x0D }
    else
      let w := (tFmt ctl).width / 8
      let addr := c.lead.sget rs
      let r := rowRanges scr addr (tSlices ctl * 96 / w) ts.lpitch.toNat (tRows ctl * w)
      c.onRanges s (.tldt td rs scr) r (tileAddr scr addr) 16 .load .read fun s =>
        let q := c.readRanges s r
        c.tileDone (c.setTiles q.1 (ts.upd td fun t =>
          { t with data := (List.range 32).map fun j => if j < tRows ctl then rowOf 6144 (tldtRow q.2 w j) else 0 })) true

/-- R254: a tile load, a tile store or a quantiser word leaves the count; a global TST leaves it with the last
acknowledgement of its stores. -/
def execTileOpComplete (id : Nat) (s : State) : Res :=
  .next <|
    if s.prods.any (·.id == id) || s.stores.any (fun r => r.op == id && r.stage == 0) then s
    else s.mapBeads fun b => { b with tops := completeOp id b.tops }

end Sys2Proof.Machine
end

