-- ==== Sys2Proof/Machine/Matrix.lean ====
section
/-!
DEFINITION. Matrix products (R83, R84, R88, R89, R255 to R259). A product is computed from the tiles as they stand at issue
(R252; log 17); its drain leaves, or its count ends, when its unit has finished it.
-/

namespace Sys2Proof.Machine

/-! ### Operands -/

/-- Pairs that the matrix unit accepts (R83). -/
def pairOk (a b : Elem) : Bool :=
  let both (p : Elem → Bool) : Bool := p a && p b
  both (fun e => e == .e4m3 || e == .e5m2) || both (· == .mx8) || both (fun e => e == .i8 || e == .n8)
    || both (· == .bf16) || both (· == .f16) || both (fun e => e == .e2m1 || e == .c4) || both (· == .mx4)

/-- The result is i32 (R83). -/
def intPair (a : Elem) : Bool := a == .i8 || a == .n8

/-- Element n of a data row. -/
def rowElem (row : BitVec 6144) (w n : Nat) : Nat := (row.extractLsb' (w * n) w).toNat

/-- Byte k of a side-band row. -/
def sideByte (row : BitVec 12288) (k : Nat) : Nat := (row.extractLsb' (8 * k) 8).toNat

/-- The exact value of element n of row i, block scale and codebook applied (R72, R73, R256). -/
def Tile.value (ts : TileSet) (t : Tile) (i n : Nat) : Val :=
  let e := tFmt t.ctl
  let v := e.val (ts.cbs.get (tCb t.ctl)) (rowElem (t.data.getD i 0) e.width n)
  if e == .mx8 || e == .mx4 then
    match scaleExp (sideByte (t.side.getD i 0) (n / 32)) with
    | none => .nan
    | some k => v.scale k
  else v

/-- The mask of group g of row i (R88, R249). -/
def Tile.mask (t : Tile) (i g : Nat) : BitVec 128 := (t.side.getD i 0).extractLsb' (128 * g) 128

/-- The kept positions of a mask, ascending. -/
def maskPositions (m : BitVec 128) : List Nat := (List.range 128).filter m.getLsbD

/-- The pairs (element of A's row, element of B's row) of slice k: all of a dense slice, the kept ones of a sparse one (R88). -/
def slicePairs (a : Tile) (sparse : Bool) (i k : Nat) : List (Nat × Nat) :=
  let per := perSlice (tFmt a.ctl)
  if !sparse then (List.range per).map fun n => (per * k + n, per * k + n)
  else
    let n := nOf (tNsel a.ctl)
    (List.range (per / n)).flatMap fun q =>
      let g := k * (per / n) + q
      (maskPositions (a.mask i g)).mapIdx fun t pos => (k * per + q * n + t, 128 * g + pos)

/-- Some group of row i has other than N bits (R89). -/
def badMask (a : Tile) (i : Nat) : Bool :=
  let n := nOf (tNsel a.ctl)
  (List.range (tSlices a.ctl * (perSlice (tFmt a.ctl) / n))).any fun g => (maskPositions (a.mask i g)).length != n

/-- An exact sum of products, −0 only when every product is −0 (R84). -/
def exactSum : List Val → Val
  | [] => .fin false 0 0
  | v :: vs => vs.foldl (Val.add false) v

/-! ### Sums (R84) -/

/-- A float element over s slices. -/
def floatSum (slices : List (List Val)) : Word :=
  match slices with
  | [] => 0
  | p :: ps =>
    ps.foldl (fun acc q => w32 (fmt32.addOp .rn false acc.toNat (roundF32 .rn false (exactSum q)).toNat))
      (roundF32 .rn false (exactSum p))

/-- The integer of an integer value. -/
def Val.int : Val → Int
  | .fin n m e => (if n then -1 else 1) * ((m * 2 ^ e.toNat : Nat) : Int)
  | _ => 0

/-- An integer element, modulo 2^32. -/
def intSum (slices : List (List Val)) : Word :=
  slices.foldl (fun acc q => acc + BitVec.ofInt 32 ((q.map Val.int).foldl (· + ·) 0)) 0

/-- D[i][j] (R84, R89, R256). -/
def productElem (ts : TileSet) (a b : Tile) (sparse : Bool) (i j : Nat) : Word :=
  if tRows a.ctl ≤ i ∨ tRows b.ctl ≤ j then 0
  else if sparse && badMask a i then (if intPair (tFmt a.ctl) then 0x80000000 else 0x7FC00000)
  else
    let slices := (List.range (tSlices a.ctl)).map fun k =>
      (slicePairs a sparse i k).map fun x => (a.value ts i x.1).mul (b.value ts j x.2)
    if intPair (tFmt a.ctl) then intSum slices else floatSum slices

/-! ### Checks (R255, R258) -/

/-- Checks 1 to 4 of R255. -/
def productOk (a b : Tile) (sparse : Bool) : Bool :=
  tRows a.ctl != 0 && tRows b.ctl != 0 && pairOk (tFmt a.ctl) (tFmt b.ctl)
    && tNsel b.ctl == 0 && (tNsel a.ctl == 0) == !sparse
    && (if sparse then tSlices a.ctl * 128 == tSlices b.ctl * nOf (tNsel a.ctl) else tSlices a.ctl == tSlices b.ctl)

/-- The destination conditions of R258. -/
def destOk (a d : Tile) (q p : Nat) : Bool :=
  let f := tFmt d.ctl
  tRows d.ctl != 0 && tNsel d.ctl == 0
    && (if intPair (tFmt a.ctl) then f == .i8 || f == .n8
        else f == .bf16 || f == .f16 || f == .e4m3 || f == .e5m2 || f == .e2m1)
    && decide (q < tSlices d.ctl) && decide (p < if f.width = 16 then 1 else if f.width = 8 then 3 else 6)

/-- The product joins its core's unit, which starts it at once when idle; its reductions are the lead bead's (R238, R257). -/
def Ctx.startProduct (c : Ctx) (s : State) (drains : List (DWord × Word)) (op : RedOp) (scope : BitVec 3) : State :=
  let idle := (unitProducts s c.tower c.col c.wg.tier).isEmpty
  let p : Product :=
    { id := s.nextId, gang := c.g.id, member := c.cur.member, home := c.lead.home, pos := c.lead.pos, tower := c.tower, col := c.col,
      tier := c.wg.tier, start := c.now s, drains, op, scope }
  let s1 := c.countTile { s with prods := s.prods ++ [p] } p.id false
  c.done (if idle then startUnit s1 c.tower c.col c.wg.tier else s1).fresh

/-! ### Drained products (R257) -/

/-- The words of the drain. -/
def drainWords (ts : TileSet) (a b : Tile) (sparse : Bool) (base : DWord) : List (DWord × Word) :=
  (List.range (tRows a.ctl)).flatMap fun i => (List.range (tRows b.ctl)).map fun j =>
    (base + BitVec.ofNat 64 (i * ts.dpitch.toNat + 4 * j), productElem ts a b sparse i j)

/-- The addresses of the drain, the lowest first. -/
def drainTargets (ws : List (DWord × Word)) : List Target :=
  (sortBy (fun (x y : DWord) => decide (x.toNat ≤ y.toNat)) (ws.map (·.1))).map fun va => { lane := 0xFF, va }

/-- TMMA and TMMAS (R226, R255 to R257); the checks of R255 come before those of the drain base (the model's choice, log 102). -/
def drained (i : Instr) (ta tb : BitVec 3) (rs : Reg) (scope : BitVec 3) (sparse : Bool) (s : State) : Res :=
  tileWord i true s fun c ts s =>
    let a := ts.tile ta
    let b := ts.tile tb
    let base := c.lead.sget rs
    if !productOk a b sparse then takeTrap c s { code := 0x0D }
    else if !canonicalVa base then takeTrap c s { code := 0x09, va := base }
    else if base.toNat % 4 ≠ 0 then takeTrap c s { code := 0x06, va := base }
    else
      let ws := drainWords ts a b sparse base
      match if 3 ≤ scope.toNat && c.recordsFull s then confFail c s 1 .write (drainTargets ws) (c.confVa s .write)
            else none with
      | some s1 => s1
      | none => c.startProduct s ws (if intPair (tFmt a.ctl) then .addI32 else .addF32) scope

/-- R257. -/
def execTmma (ta tb : BitVec 3) (rs : Reg) (scope : BitVec 3) (s : State) : Res :=
  drained (.tmma ta tb rs scope) ta tb rs scope false s

/-- R257. -/
def execTmmas (ta tb : BitVec 3) (rs : Reg) (scope : BitVec 3) (s : State) : Res :=
  drained (.tmmas ta tb rs scope) ta tb rs scope true s

/-! ### Products into a tile (R258) -/

/-- D[i][j] in the destination's format (R75, R76, R258). -/
def intoFormat (f : Elem) (sat : Bool) (int : Bool) (d : Word) : Nat :=
  if int then
    let x := d.toInt
    if sat then
      (if f == .i8 then (BitVec.ofInt 8 (clampInt (-128) 127 x)).toNat else (clampInt 0 255 x).toNat)
    else d.toNat % 256
  else f.ofVal 0 .rn sat (fmt32.val d.toNat)

/-- An element of a row replaced. -/
def rowSet (row : BitVec 6144) (w n x : Nat) : BitVec 6144 :=
  (row &&& ~~~(BitVec.ofNat 6144 (2 ^ w - 1) <<< (w * n))) ||| (BitVec.ofNat 6144 (x % 2 ^ w) <<< (w * n))

/-- The destination tile after the product (R258). -/
def intoTile (ts : TileSet) (a b d : Tile) (sparse sat : Bool) (q p : Nat) : Tile :=
  let f := tFmt d.ctl
  let first := 768 / f.width * q + 32 * p
  { d with data := d.data.mapIdx fun i row =>
      if i < tRows a.ctl then
        (List.range 32).foldl (fun row j =>
          rowSet row f.width (first + j) (intoFormat f sat (intPair (tFmt a.ctl)) (productElem ts a b sparse i j))) row
      else row }

/-- TMMAB and TMMASB (R255, R256, R258). -/
def intoTileWord (i : Instr) (td ta tb : BitVec 3) (sat : BitVec 1) (p q : BitVec 3) (sparse : Bool) (s : State) : Res :=
  tileWord i true s fun c ts s =>
    let a := ts.tile ta
    let b := ts.tile tb
    if !productOk a b sparse || !destOk a (ts.tile td) q.toNat p.toNat then takeTrap c s { code := 0x0D }
    else
      let ts1 := ts.upd td fun d => intoTile ts a b d sparse (sat == 1) q.toNat p.toNat
      c.startProduct (c.setTiles s ts1) [] .addF32 0

/-- R258. -/
def execTmmab (td ta tb : BitVec 3) (sat : BitVec 1) (p q : BitVec 3) (s : State) : Res :=
  intoTileWord (.tmmab td ta tb sat p q) td ta tb sat p q false s

/-- R258. -/
def execTmmasb (td ta tb : BitVec 3) (sat : BitVec 1) (p q : BitVec 3) (s : State) : Res :=
  intoTileWord (.tmmasb td ta tb sat p q) td ta tb sat p q true s

/-! ### The step -/

/-- The reductions of a drain, each on its own (R257). -/
def drainReds (s : State) (p : Product) (launch w : Nat) (asid : Half) : State :=
  p.drains.foldl (fun (s : State) (x : DWord × Word) =>
    let r : Red :=
      { id := s.nextId, unit := s.nextId, issued := p.id, gang := p.gang, launch, member := p.member, home := p.home, pos := p.pos, w,
        tower := p.tower, col := p.col, asid, va := x.1, op := p.op, value := x.2.setWidth 64, scope := p.scope, bgemv := none }
    (putRed s r).fresh) s

/-- R259, R304: the product in a unit ends; it leaves t, its drain begins, and the unit starts the next. -/
def execMatrixProductComplete (id : Nat) (s : State) : Res :=
  .next <|
    match s.prods.find? (·.id == id) with
    | none => s
    | some p =>
      if ((unitProducts s p.tower p.col p.tier).head?.map (·.id)) != some id then s
      else
        let w := (((s.gang? p.gang).bind (·.member? p.member)).map (·.w)).getD 0
        let asid := ((s.gang? p.gang).map s.asidOf).getD 0
        let s1 := { s with prods := s.prods.filter (·.id != id) }
        let s2 := s1.mapBeads fun b => { b with tops := completeOp id b.tops }
        let s3 := drainReds s2 p (((s.gang? p.gang).map (·.launch)).getD 0) w asid
        recoverRatios (startUnit s3 p.tower p.col p.tier) p.tower p.col

end Sys2Proof.Machine
end

