-- ==== Sys2Proof/Machine/VCvt.lean ====
section
/-!
DEFINITION. Conversions (R82, R210 to R212).
-/

namespace Sys2Proof.Machine

/-- What a conversion reads: k f32 registers, n packed elements of each of k registers, or 32-bit integers. -/
inductive CvtSrc where
  | floats (k : Nat)
  | pair
  | packed (el : Elem) (n k : Nat)
  | ints (k : Nat)
  | nats
deriving DecidableEq, Repr

/-- What a conversion writes: k f32 registers, one register of packed elements, k registers of packed pairs, or an integer. -/
inductive CvtDst where
  | floats
  | packed (el : Elem)
  | pairs (el : Elem)
  | int
  | nat
  | low8
deriving DecidableEq, Repr

/-- The pair table (R82); `el` is FMT.ELEM. -/
def cvtPair (fn : BitVec 5) (el : Elem) : CvtSrc × CvtDst :=
  match fn.toNat with
  | 0 => (.floats 1, .packed .bf16)
  | 1 => (.floats 1, .packed .f16)
  | 2 => (.pair, .packed .bf16)
  | 3 => (.pair, .packed .f16)
  | 4 => (.packed .bf16 1 1, .floats)
  | 5 => (.packed .f16 1 1, .floats)
  | 6 => (.packed .bf16 2 1, .floats)
  | 7 => (.packed .f16 2 1, .floats)
  | 8 => (.floats 4, .packed .e4m3)
  | 9 => (.floats 4, .packed .e5m2)
  | 10 => (.packed .e4m3 4 1, .floats)
  | 11 => (.packed .e5m2 4 1, .floats)
  | 12 => (.floats 8, .packed .e2m1)
  | 13 => (.packed .e2m1 8 1, .floats)
  | 14 => (.packed .bf16 2 2, .packed .e4m3)
  | 15 => (.packed .e4m3 4 1, .pairs .bf16)
  | 16 => (.packed .c4 8 1, .pairs .bf16)
  | 17 => (.packed .e2m1 8 1, .pairs .bf16)
  | 18 => (.floats 1, .int)
  | 19 => (.floats 1, .nat)
  | 20 => (.ints 1, .floats)
  | 21 => (.nats, .floats)
  | 22 => (.floats 4, .packed .i8)
  | 23 => (.floats 4, .packed .n8)
  | 24 => (.packed .i8 4 1, .floats)
  | 25 => (.packed .n8 4 1, .floats)
  | 26 => (.ints 4, .low8)
  | 27 => (.packed .f16 2 1, .packed .bf16)
  | 28 => (.packed .bf16 2 1, .packed .f16)
  | 29 => (.floats (32 / el.width), .packed el)
  | _ => (.packed el (32 / el.width) 1, .floats)

/-- Registers a source takes. -/
def CvtSrc.regs : CvtSrc → Nat
  | .floats k => k
  | .packed _ _ k => k
  | .ints k => k
  | _ => 1

/-- The values read in a lane, in element order (R211). -/
def CvtSrc.vals (sr : CvtSrc) (cb : BitVec 256) (b : Bead) (k : Four) (a b2 : Reg) : List Val :=
  match sr with
  | .floats n => (List.range n).map fun j => fmt32.val (b.vget k (regPlus a j)).toNat
  | .pair => [fmt32.val (b.vget k a).toNat, fmt32.val (b.vget k b2).toNat]
  | .packed el n r =>
    (List.range r).flatMap fun q => (List.range n).map fun j => el.val cb (elemAt el.width (b.vget k (regPlus a q)) j)
  | .ints n => (List.range n).map fun j => Val.ofInt (b.vget k (regPlus a j)).toInt
  | .nats => [Val.ofInt (b.vget k a).toNat]

/-- The signalling-NaN reads (R78): the narrow formats and integers have none. -/
def CvtSrc.reads (sr : CvtSrc) (a b2 : Reg) : List FloatRead :=
  match sr with
  | .floats n => (List.range n).map fun j => .word (regPlus a j)
  | .pair => [.word a, .word b2]
  | .packed .f32 _ _ => [.word a]
  | .packed .bf16 n r => (List.range r).map fun q => if n = 1 then .low (regPlus a q) fmtBf16 else .halves (regPlus a q) fmtBf16
  | .packed .f16 n r => (List.range r).map fun q => if n = 1 then .low (regPlus a q) fmtF16 else .halves (regPlus a q) fmtF16
  | _ => []

/-- Pairs of elements, packed in words (R211). -/
def packPairs : List Nat → List Word
  | x :: y :: r => w32 (pack 16 [x, y]) :: packPairs r
  | _ => []

/-- An integer kept to 8 bits, or clamped when saturating (R212). -/
def lowByte (sat : Bool) : Val → Nat
  | .fin n m e =>
    let x := roundInt .rz n m e
    (BitVec.ofInt 8 (if sat then clampInt (-128) 127 x else x)).toNat
  | _ => 0

/-- The words written from d on (R211, R212). -/
def CvtDst.words (ds : CvtDst) (cb : BitVec 256) (mode : Rnd) (sat : Bool) (vs : List Val) : List Word :=
  match ds with
  | .floats => vs.map (roundF32 mode sat)
  | .packed el => [w32 (pack el.width (vs.map (el.ofVal cb mode sat)))]
  | .pairs el => packPairs (vs.map (el.ofVal cb mode sat))
  | .int => vs.map fun v => w32 (BitVec.ofInt 32 (v.toInt mode (-2147483648) 2147483647)).toNat
  | .nat => vs.map fun v => w32 (v.toInt mode 0 4294967295).toNat
  | .low8 => [w32 (pack 8 (vs.map (lowByte sat)))]

/-- Consecutive registers of a lane written. -/
def Bead.vsets (b : Bead) (k : Four) (d : Reg) (ws : List Word) : Bead :=
  (ws.mapIdx fun j w => (j, w)).foldl (fun r x => r.vset k (regPlus d x.1) x.2) b

/-- A codebook register of the workgroup (R50). -/
def Ctx.codebook (c : Ctx) (k : Four) : BitVec 256 := (c.wg.tile.map (·.cbs.get k)).getD 0

/-- The conversion reads or writes c4 (R212). -/
def cvtUsesCb (fn : BitVec 5) (fmt : BitVec 12) : Bool := fn == 16 || ((fn == 29 || fn == 30) && fmtElem fmt == .c4)

/-- A group whose size FMT decides is misaligned (R211). -/
def cvtMisaligned (fn : BitVec 5) (fmt : BitVec 12) (d a : Reg) : Bool :=
  (fn == 29 && !aligned a (elemsOf fmt)) || (fn == 30 && !aligned d (elemsOf fmt))

/-- R82, R210 to R212. The traps that concern the word and not a lane, 0x01 and 0x0D, are raised whatever the guard (the model's
choice, log 80). -/
def execVcvt (d a b : Reg) (g : BitVec 3) (fn : BitVec 5) (s : State) : Res :=
  issue (.vcvt d a b g fn) s fun c s =>
    let fmt := c.lead.fmt
    let p := cvtPair fn (fmtElem fmt)
    let cb := c.codebook (fmtCb fmt)
    if cvtMisaligned fn fmt d a then takeTrap c s { code := 0x01 }
    else if cvtUsesCb fn fmt && c.wg.tile.isNone then takeTrap c s { code := 0x0D }
    else
      match snanOf c.beads (fun x => x.lanesOn g c.neg) (p.1.reads a b) with
      | some t => takeTrap c s t
      | none =>
        c.eachBead s fun x => x.onLanes (x.lanesOn g c.neg) fun k r =>
          r.vsets k d (p.2.words cb (c.rndFmt fmt) (c.satFmt fmt) (p.1.vals cb x k a b))

end Sys2Proof.Machine
end

