-- ==== Sys2Proof/Machine/Bank.lean ====
section
/-!
DEFINITION. Bank units (R133 to R135, R262 to R264).
-/

namespace Sys2Proof.Machine

/-- The command geometry of register g (R262). -/
structure BankGeo where
  rows : Nat
  wf : BitVec 2
  k : Nat
  cb : Four
  xf : BitVec 2
  xoff : Nat
  resv : Bool
deriving DecidableEq, Repr

def BankGeo.ofReg (g : DWord) : BankGeo :=
  { rows := (g.extractLsb' 0 13).toNat, wf := g.extractLsb' 13 2, k := (g.extractLsb' 16 15).toNat,
    cb := Four.ofNat (g.extractLsb' 32 2).toNat, xf := g.extractLsb' 34 2, xoff := (g.extractLsb' 40 24).toNat,
    resv := g.getLsbD 15 || g.getLsbD 31 || g.extractLsb' 36 4 != 0 }

/-- Weight formats by WF (R262). -/
def wfElem (w : BitVec 2) : Elem :=
  match w.toNat with
  | 0 => .e4m3
  | 1 => .e2m1
  | 2 => .c4
  | _ => .bf16

/-- Formats of x by XF (R262). -/
def xfElem (x : BitVec 2) : Elem :=
  match x.toNat with
  | 0 => .bf16
  | 1 => .e4m3
  | _ => .e2m1

/-- Bytes that K elements of a width take. -/
def bytesOf (k width : Nat) : Nat := (k * width + 7) / 8

def BankGeo.xBytes (g : BankGeo) : Nat := bytesOf g.k (xfElem g.xf).width

/-- RP (R263). -/
def rowPitch (k : Nat) (wf : BitVec 2) : Nat := (bytesOf k (wfElem wf).width + 127) / 128 * 128

/-- The conditions of code 0x11 at issue (R263). -/
def bankOk (g : BankGeo) (scope : BitVec 3) (weight dest : DWord) : Bool :=
  !g.resv && g.rows != 0 && decide (g.rows ≤ 4096) && g.k != 0 && decide (g.k ≤ 16384) && g.xf != 3
    && decide (g.k * (xfElem g.xf).width ≤ 8 * 8192) && (scope == 3 || scope == 4) && canonicalVa weight
    && canonicalVa dest && weight.toNat % 128 == 0 && dest.toNat % 4 == 0

/-- BGEMVs of a column that are confirmed and whose results have not all been applied (R264). -/
def bgemvCount (s : State) (t : Four) (col : Nat) : Nat :=
  let ids := (s.bgemvs.filter fun b => b.confirmed && b.tower == t && b.col == col).map (·.id)
  let late := (s.reds.filter fun r => r.tower == t && r.col == col).filterMap (·.bgemv)
  (ids ++ late).eraseDups.length

/-- R263: the checks at issue, x and the codebook captured; the unit then waits for its confirmation. -/
def execBgemv (d a : Reg) (scope : BitVec 3) (geo : Reg) (s : State) : Res :=
  issue (.bgemv d a scope geo) s fun c s =>
    let g := BankGeo.ofReg (c.lead.sget geo)
    let weight := c.lead.sget a
    let dest := c.lead.sget d
    if !bankOk g scope weight dest then takeTrap c s { code := 0x11, va := weight }
    else if wfElem g.wf == .c4 && c.wg.tile.isNone then takeTrap c s { code := 0x0D }
    else
      match c.scrTrap s g.xoff g.xBytes 16 .load with
      | some t => takeTrap c s t
      | none =>
        if 16 ≤ bgemvCount s c.tower c.col then c.holdIssue s (.bgemv d a scope geo)
        else
          let b : Bgemv :=
            { id := s.nextId, gang := c.g.id, launch := c.l.id, member := c.cur.member, home := c.lead.home, pos := c.lead.pos, w := c.wg.w,
              tower := c.tower, col := c.col, asid := c.asid, weight, rows := g.rows, k := g.k, wf := g.wf, xf := g.xf,
              x := c.scrRead s g.xoff g.xBytes, cb := c.codebook g.cb, dest, scope, confirmed := false, frames := [], next := 0 }
          (c.waitAt { s with bgemvs := s.bgemvs ++ [b] } (.bgemv d a scope geo) fun _ =>
            some { plainWait .bank s (c.now s) with addr := BitVec.ofNat 64 b.id }).fresh

/-- A store that is still on its way to its home may happen-before the group's next word: the group's own, or that of a bead which
has completed a release after it, whereupon the group has acquired (R104; log 97). -/
def Ctx.ordersStore (c : Ctx) (s : State) (r : StoreRec) : Bool :=
  (r.gang == c.g.id && r.member == c.cur.member && c.beads.any (ofBead · r.home r.pos))
    || (s.gangs.any fun g => g.id == r.gang && g.members.any fun w => w.pos == r.member && w.beads.any fun b =>
        ofBead b r.home r.pos && decide (r.id < b.rel) && c.beads.any fun a => decide (b.rel ≤ a.acq))

/-- The stores to BANK pages that a BFENCE waits for, by number (R134): those acknowledged at device scope that have not reached
HBM, and those on their way that happen-before it. -/
def Ctx.bankBefore (c : Ctx) (s : State) : List Nat :=
  ((s.stores.filter fun r => r.attr.bank && c.ordersStore s r).map (·.id)
    ++ s.towers.toList.flatMap fun tw => tw.bank.map (·.stamp)).eraseDups

/-- Some of these stores have not reached HBM. -/
def bankLeft (s : State) (ids : List Nat) : Bool :=
  s.stores.any (fun r => ids.contains r.id) || s.towers.toList.any fun tw => tw.bank.any fun b => ids.contains b.stamp

/-- R134: what it waits for is fixed when it issues. -/
def execBfence (s : State) : Res :=
  issue .bfence s fun c s =>
    match c.lead.wait.filter (·.kind == .fence) with
    | some w => if bankLeft s w.ids then c.hold s .bfence .fence else c.done s
    | none =>
      let ids := c.bankBefore s
      if bankLeft s ids then (c.waitAt s .bfence fun _ => some { plainWait .fence s (c.now s) with ids }).fresh else c.done s

/-! ### Confirmation (R263) -/

/-- The weight range cut at 64 KiB: the first address in each part. -/
def weightVas (b : Bgemv) : List DWord :=
  let n := b.rows * rowPitch b.k b.wf
  let first := 65536 - b.weight.toNat % 65536
  b.weight :: (List.range ((n + 65535 - first) / 65536)).map fun j => b.weight + BitVec.ofNat 64 (first + 65536 * j)

/-- The destination range, line by line (R226). -/
def bankTargets (b : Bgemv) : List Target :=
  (cutRun b.dest (4 * b.rows)).map fun p => { lane := 0xFF, va := b.dest + BitVec.ofNat 64 p.1 }

/-- The confirmation of a BGEMV's unit: every page together, then the destination where the gang holds 16 records. Where the column
holds 16 confirmed ones by then, it goes back to waiting at issue (R264). -/
def confirmBgemv (c : Ctx) (s : State) (b : Bgemv) : State :=
  let vas := weightVas b
  let conf (va : DWord) : Conf := confAtHome s c.asid va .bank
  let ts : List Target := vas.map fun va => { lane := 0xFF, va }
  if 16 ≤ bgemvCount s c.tower c.col then
    match c.lead.held with
    | some i => c.holdIssue (c.onGrp (dropBgemv s b.id) fun x => { x with wait := none }) i
    | none => s
  else
  match confFail c (dropBgemv s b.id) 3 .bank ts conf with
  | some s1 => s1
  | none =>
    let hits := vas.filterMap fun va => match conf va with | .ok h => some (va, h) | _ => none
    if hits.any (fun x => x.2.attr.bfmt != b.wf) || vas.any (fun va => homeOf va != homeOf b.weight) then
      takeTrap c (dropBgemv s b.id) { code := 0x11, va := b.weight }
    else
      match if c.recordsFull s then confFail c (dropBgemv s b.id) 3 .write (bankTargets b) (c.confVa s .write) else none with
      | some s1 => s1
      | none =>
        let frames := hits.map fun x => ((lineOf x.1).toNat / 65536, x.2.pa / 65536 * 65536)
        c.done { s with bgemvs := s.bgemvs.map fun x => if x.id == b.id then { x with confirmed := true, frames } else x }

/-- R263. -/
def execBgemvConfirm (id : Nat) (s : State) : Res :=
  .next <|
    match s.bgemvs.find? (·.id == id), findGroup s fun b => b.wait.any fun w => w.kind == .bank && w.addr.toNat == id with
    | some b, some cu => withGroup s cu fun c s => confirmBgemv c s b
    | _, _ => s

/-! ### Rows (R84, R263) -/

/-- n weight bytes at an address, directly in HBM (R133). -/
def weightBytes (s : State) (b : Bgemv) (va n : Nat) : List Byte :=
  (List.range n).map fun j =>
    let a := (va + j) % 2 ^ 64
    match b.frames.find? (·.1 == a / 65536) with
    | some f => s.hbm.get (f.2 + a % 65536)
    | none => Memory.blank

/-- Element n of packed bytes. -/
def elemOf (bs : List Byte) (w n : Nat) : Nat := leNat (((bs.drop (w * n / 8)).take 4)) / 2 ^ (w * n % 8) % 2 ^ w

/-- The total of one row: runs of 96 weight bytes (R84, R263). -/
def rowTotal (s : State) (b : Bgemv) (r : Nat) : Word :=
  let we := wfElem b.wf
  let xe := xfElem b.xf
  let bs := weightBytes s b (b.weight.toNat + r * rowPitch b.k b.wf) (bytesOf b.k we.width)
  let per := perSlice we
  floatSum ((List.range ((b.k + per - 1) / per)).map fun q =>
    (List.range (min per (b.k - q * per))).map fun n =>
      let k := q * per + n
      (we.val b.cb (elemOf bs we.width k)).mul (xe.val 0 (elemOf b.x xe.width k)))

/-- R263: the next row's total leaves as one reduction; after the last the command is over but for what is on its way. -/
def execBgemvRowDeliver (id : Nat) (s : State) : Res :=
  .next <|
    match s.bgemvs.find? (·.id == id) with
    | none => s
    | some b =>
      if !b.confirmed then s
      else
        let r : Red :=
          { id := s.nextId, unit := s.nextId, issued := b.id, gang := b.gang, launch := b.launch, member := b.member, home := b.home,
            pos := b.pos, w := b.w, tower := b.tower, col := b.col, asid := b.asid, va := b.dest + BitVec.ofNat 64 (4 * b.next), op := .addF32,
            value := (rowTotal s b b.next).setWidth 64, scope := b.scope, bgemv := some b.id }
        let s1 := State.chargeRead (putRed s r).fresh (some b.launch)
          (bytesOf b.k (wfElem b.wf).width) 0
        if b.rows ≤ b.next + 1 then dropBgemv s1 id
        else { s1 with bgemvs := s1.bgemvs.map fun x => if x.id == id then { x with next := x.next + 1 } else x }

end Sys2Proof.Machine
end

