-- ==== Sys2Proof/Machine/Control.lean ====
section
/-!
DEFINITION. Branches, transfers, reconvergence and exit (R39 to R48, R174 to R186).
-/

namespace Sys2Proof.Machine

/-! ### Groups after a transfer (R41) -/

/-- A group splits by what tells its beads apart: the part of the lowest position keeps its number, each other takes a fresh
one (R41). -/
def Wg.splitBy {α : Type} [DecidableEq α] (key : Bead → α) (w : Wg) (grp : Nat) : Wg :=
  let parts := ((w.group grp).map key).eraseDups
  let place (b : Bead) : Nat :=
    match parts.idxOf (key b) with
    | 0 => grp
    | k + 1 => w.nextGrp + k
  { (w.updBeads (Bead.inGrp grp) fun b => { b with grp := place b }) with nextGrp := w.nextGrp + (parts.length - 1) }

/-- The beads of one group agree in PC and FMT (R41, log 16). -/
def Wg.regroup (w : Wg) (grp : Nat) : Wg := w.splitBy (fun b => (b.pc, b.fmt)) grp

/-- The unit ends with its beads where `f` sends them; the group splits accordingly. -/
def Ctx.transfer (c : Ctx) (s : State) (f : Bead → Bead) : State :=
  (c.onGrp s fun b => { f b with lastIssue := c.now s }).updWg c.cur.gang c.cur.member (·.regroup c.cur.grp)

/-- The target of a form-C word (R174). -/
def Ctx.target (c : Ctx) (off : BitVec 20) : DWord := c.pc + 4 + (c.imm off <<< 2)

/-! ### The reconvergence stack (R44, R45) -/

/-- A guarded branch on one bead (R44, R175): an entry is pushed; the lanes whose guard holds go to t, or none does. -/
def Bead.guardedBranch (g : Mask) (t : DWord) (b : Bead) : Bead :=
  let e : RecEntry := { maskAll := b.active, maskNt := b.active &&& ~~~g, pcNt := b.pc + 4, fmt := b.fmt, phase := g == 0 }
  let b1 := { b with stack := e :: b.stack }
  if g = 0 then b1.goTo (b.pc + 4) false else { b1 with active := g }.goTo t true

/-- JOIN on one bead at address `a` (R45). The PC that it sets is no target of a transfer in the sense of R154, also where EXIT's
JOINs set it behind a P-form word (the model's choice, log 29). -/
def Bead.joinAt (a : DWord) (b : Bead) : Bead :=
  match b.stack with
  | [] => b.goTo (a + 4) false
  | e :: rest =>
    if !e.phase && e.maskNt != 0 then
      { b with stack := { e with phase := true } :: rest, active := e.maskNt, fmt := e.fmt }.goTo e.pcNt false
    else { b with stack := rest, active := e.maskAll &&& ~~~b.exited, fmt := e.fmt }.goTo (a + 4) false

/-- While no lane is active and an entry is left, a JOIN applies, each at the PC that the one before it set (R45, R182; log 29);
every JOIN that leaves no lane active pops. -/
def Bead.joinWhileIdle : Nat → Bead → Bead
  | 0, b => b
  | k + 1, b => if b.active = 0 && !b.stack.isEmpty then Bead.joinWhileIdle k (b.joinAt b.pc) else b

/-- EXIT of the lanes e on one bead (R45, R182). -/
def Bead.exitLanes (e : Mask) (b : Bead) : Bead :=
  let b1 := { b with
    exited := b.exited ||| e
    active := b.active &&& ~~~e
    stack := b.stack.map fun x => { x with maskAll := x.maskAll &&& ~~~e, maskNt := x.maskNt &&& ~~~e } }
  if b1.active = 0 && !b1.stack.isEmpty then Bead.joinWhileIdle (b1.stack.length + 1) b1
  else b1.goTo (b.pc + 4) false

/-! ### CLASP (R42, R48) -/

def Bead.atClasp (b : Bead) : Bool := b.wait.any (·.kind == .clasp)

/-- When every live bead of a home strand waits at a CLASP, they form one group at the word after the lowest CLASP, with
the FMT of the lowest position (R42); a restrung strand that they leave without a bead ends (R48) and gives its entry back before
the next step (freeEnded). -/
def Wg.clasp (w : Wg) (home now : Nat) : Wg :=
  let bs := w.beads.filter fun b => b.home == home && b.live
  match (List.range 8).findSome? fun p => bs.find? (·.pos == p) with
  | none => w
  | some lead =>
    if !bs.all Bead.atClasp then w
    else
      let pc := bs.foldl (fun (m : DWord) b => if b.pc.toNat < m.toNat then b.pc else m) lead.pc
      let whole := groupsOf bs == [lead.grp] && !w.beads.any fun b => b.live && b.grp == lead.grp && b.home != home
      let grp := if whole then lead.grp else w.nextGrp
      let join (b : Bead) : Bead :=
        { b.goTo (pc + 4) false with grp, entry := home, fmt := lead.fmt, lastIssue := now }
      { (w.updBeads (fun b => b.home == home && b.live) join) with
        nextGrp := if whole then w.nextGrp else w.nextGrp + 1 }

/-- The gathering is looked for in every home strand of a list (R42, R183). -/
def Wg.clasps (w : Wg) (now : Nat) (hs : List Nat) : Wg := hs.foldl (fun w h => w.clasp h now) w

/-! ### The instructions -/

/-- BRA and CALL (R175, R178): the stack check covers every bead before any changes. -/
def branch (i : Instr) (g : BitVec 3) (off : BitVec 20) (link : Bool) (s : State) : Res :=
  issue i s fun c s =>
    let t := c.target off
    let saved (b : Bead) (m : Mask) : Bead := if link && m != 0 then b.sset 63 (b.pc + 4) else b
    if g != 0 && c.beads.any fun b => decide (16 ≤ b.stack.length) then takeTrap c s { code := 0x0E }
    else
      c.transfer s fun b =>
        if g = 0 then (saved b b.active).goTo t true
        else (saved b (b.lanesOn g c.neg)).guardedBranch (b.lanesOn g c.neg) t

/-- R175. -/
def execBra (g : BitVec 3) (off : BitVec 20) (s : State) : Res := branch (.bra g off) g off false s

/-- R176. -/
def execBr (g : BitVec 3) (off : BitVec 20) (s : State) : Res :=
  issue (.br g off) s fun c s =>
    c.transfer s fun b => if b.guardLow g c.neg then b.goTo (c.target off) true else b.goTo (b.pc + 4) false

/-- BRANY and BRALL (R177): the whole group goes one way. -/
def groupBranch (i : Instr) (off : BitVec 20) (taken : Ctx → Bool) (s : State) : Res :=
  issue i s fun c s => c.transfer s fun b => if taken c then b.goTo (c.target off) true else b.goTo (b.pc + 4) false

/-- R177. -/
def execBrany (g : BitVec 3) (off : BitVec 20) (s : State) : Res :=
  groupBranch (.brany g off) off (fun c => c.beads.any fun b => b.lanesOn g c.neg != 0) s

/-- R177. -/
def execBrall (g : BitVec 3) (off : BitVec 20) (s : State) : Res :=
  groupBranch (.brall g off) off (fun c => c.beads.all fun b => b.lanesOn g c.neg == b.active) s

/-- R178. -/
def execCall (g : BitVec 3) (off : BitVec 20) (s : State) : Res := branch (.call g off) g off true s

/-- RET, JMPR and CALLR (R180): the alignment check covers every taken bead before any changes; of several misaligned targets the
trap names that of the lowest bead position (the model's choice, log 89). -/
def jump (i : Instr) (g : BitVec 3) (target : Bead → DWord) (link : Bool) (s : State) : Res :=
  issue i s fun c s =>
    match c.beads.find? fun b => b.guardLow g c.neg && (target b).extractLsb' 0 2 != 0 with
    | some b => takeTrap c s { code := 0x06, va := target b }
    | none =>
      c.transfer s fun b =>
        if b.guardLow g c.neg then (if link then b.sset 63 (b.pc + 4) else b).goTo (target b) true
        else b.goTo (b.pc + 4) false

/-- R180. -/
def execRet (g : BitVec 3) (s : State) : Res := jump (.ret g) g (·.sget 63) false s

/-- R180. -/
def execJmpr (a : Reg) (g : BitVec 3) (s : State) : Res := jump (.jmpr a g) g (·.sget a) false s

/-- R180. -/
def execCallr (a : Reg) (g : BitVec 3) (s : State) : Res := jump (.callr a g) g (·.sget a) true s

/-- R181. -/
def execJoin (s : State) : Res := issue .join s fun c s => c.transfer s fun b => b.joinAt b.pc

/-- R182, R183: a strand's end or a bead's end may complete a CLASP that others wait at. -/
def execExit (g : BitVec 3) (s : State) : Res :=
  issue (.exit g) s fun c s =>
    let s1 := c.transfer s fun b => b.exitLanes (b.lanesOn g c.neg)
    s1.updWg c.cur.gang c.cur.member fun w => w.clasps (c.now s) (homesOf c.beads)

/-- R42, R184. -/
def execClasp (s : State) : Res :=
  issue .clasp s fun c s =>
    let s1 := c.hold s .clasp .clasp
    s1.updWg c.cur.gang c.cur.member fun w => w.clasps (c.now s) (homesOf c.beads)

/-- R185: the group goes to the back of its slot's order. -/
def execYield (s : State) : Res :=
  issue .yield s fun c s => (c.done (c.onGrp s fun b => { b with turn := s.nextId })).fresh

/-- R186. -/
def execNop (s : State) : Res := issue .nop s fun c s => c.done s

end Sys2Proof.Machine
end

