-- ==== Sys2Proof/Machine/Agents.lean ====
section
/-!
DEFINITION. Memory as the queue and launch hardware, firmware, the host die and peer modules reach it: at the home L2 (R103),
with the permissions of R101 and, for the structures of R102, on PIN pages; queue control blocks as memory shows them
(R290, log 20).
-/

namespace Sys2Proof.Machine

/-- A page that R102 asks to be PIN and is not acts as a translation error. -/
def pinned (pin : Bool) (f : Conf) : Conf :=
  match f with
  | .ok h => if pin && !h.attr.pin then .error else f
  | _ => f

/-- The first part of a range that fails, with how. -/
def rangeFault (s : State) (asid : Half) (va : DWord) (n : Nat) (need : Need) (pin : Bool) : Option (DWord × Conf) :=
  (cutRun va n).findSome? fun p =>
    let a := va + BitVec.ofNat 64 p.1
    match pinned pin (confL2 s asid a need) with
    | .ok _ => none
    | f => some (a, f)

/-- The bytes of a range at the home L2, blank where it faults. -/
def sysRead (s : State) (asid : Half) (va : DWord) (n : Nat) : State × List Byte :=
  (cutRun va n).foldl (fun (r : State × List Byte) p =>
    let a := va + BitVec.ofNat 64 p.1
    match confL2 r.1 asid a .read with
    | .ok h =>
      let q := homeRead r.1 asid a p.2 h
      (q.1, r.2 ++ q.2)
    | _ => (r.1, r.2 ++ zeros p.2)) (s, [])

/-- Bytes written at the home L2, where the range does not fault. -/
def sysWrite (s : State) (asid : Half) (va : DWord) (bs : List Byte) : State :=
  (cutRun va bs.length).foldl (fun s p =>
    let a := va + BitVec.ofNat 64 p.1
    match confL2 s asid a .write with
    | .ok h => homeWrite s asid a ((bs.drop p.1).take p.2) h
    | _ => s) s

/-- Bytes written at the home L2 with a translation taken before (R297). -/
def sysWriteHit (s : State) (asid : Half) (va : DWord) (bs : List Byte) (h : Hit) : State :=
  (cutRun va bs.length).foldl (fun s p =>
    homeWrite s asid (va + BitVec.ofNat 64 p.1) ((bs.drop p.1).take p.2) { h with pa := h.pa + (lineOff va + p.1) / 128 * 128 }) s

/-- One number of n bytes read. -/
def sysReadNat (s : State) (asid : Half) (va : DWord) (n : Nat) : State × Nat :=
  let r := sysRead s asid va n
  (r.1, leNat r.2)

/-! ### Physical addresses, as firmware uses them (R357, R366, R368 to R370) -/

/-- A physical line as the home L2 shows it: a copy there, whatever its virtual name, else HBM. -/
def physLine (s : State) (pa : Nat) : BitVec 1024 :=
  match (s.tower (towerOfPa pa)).l2.find? (·.pa == pa) with
  | some l => l.over (overlayBank s pa (hbmLine s pa))
  | none => overlayBank s pa (hbmLine s pa)

/-- Parts of a physical range that lie in one line each. -/
def physParts (pa n : Nat) : List (Nat × Nat) := cutRun (BitVec.ofNat 64 pa) n

def physRead (s : State) (pa n : Nat) : List Byte :=
  (physParts pa n).flatMap fun p => lineRead (physLine s ((pa + p.1) / 128 * 128)) ((pa + p.1) % 128) p.2

/-- Part of one physical line written, in HBM and in a copy at the home L2; in maintenance mode the directory sees it (R112). -/
def physWriteLine (s : State) (pa : Nat) (bs : List Byte) : State :=
  let line := pa / 128 * 128
  let s1 := flushBankLine s line
  State.updTower (snoop { s1 with hbm := s1.hbm.write pa bs } line) (towerOfPa pa) fun tw =>
    { tw with l2 := tw.l2.map fun l => if l.pa == line then { l with data := lineWrite l.data (pa % 128) bs } else l }

def physWrite (s : State) (pa : Nat) (bs : List Byte) : State :=
  (physParts pa bs.length).foldl (fun s p => physWriteLine s (pa + p.1) ((bs.drop p.1).take p.2)) s

/-- A range of populated memory of one tower, aligned (R29, R30). -/
def physOk (pa n align : Nat) : Bool :=
  pa % align == 0 && decide (pa + n ≤ 2 ^ 40) && !unpopulated pa && !unpopulated (pa + n - 1)
    && pa / 2 ^ 38 == (pa + n - 1) / 2 ^ 38

/-- A command queue's base as R357 and R368 ask: in the tower's own range. -/
def CmdQueue.baseOk (t : Four) (q : CmdQueue) : Bool := physOk q.base.toNat 16384 16384 && q.base.toNat / 2 ^ 38 == t.val

/-- A new tail of a queue of 256: none when it would publish beyond HEAD + 256 (R357, R368, R291). -/
def CmdQueue.judge (q : CmdQueue) (v : Word) : Option Word :=
  let d := (v - q.tail).toNat
  if d ≤ 256 - (q.tail - q.head).toNat then some v else none

/-! ### Queue control blocks (R290) -/

/-- QCB.QFLAGS. -/
def Queue.flags (q : Queue) : Byte := flagByte [q.clamp, q.latch, q.pending, q.badTail]

/-- Bytes 0x10 to 0x22 of a QCB. -/
def Queue.qcbLow (t : Four) (q : Queue) : List Byte :=
  leBytes 4 q.head.toNat ++ leBytes 4 q.tail.toNat ++ leBytes 4 q.eslice ++ leBytes 1 q.eprio ++ leBytes 1 q.age
    ++ leBytes 1 q.qstate ++ [q.flags] ++ leBytes 2 (q.slot.getD 0xFFFF) ++ leBytes 1 t.val

/-- Bytes 0x24 to 0x3F of a QCB. -/
def Queue.qcbHigh (q : Queue) : List Byte := leBytes 4 q.ltail.toNat ++ leBytes 8 q.srt ++ leBytes 8 q.mapT ++ leBytes 8 q.runT

/-- Bytes written where R102 asks for PIN pages; a range that faults, or is not PIN, takes none of them. -/
def sysWritePin (s : State) (asid : Half) (va : DWord) (bs : List Byte) : State :=
  if (rangeFault s asid va bs.length .write true).isSome then s else sysWrite s asid va bs

/-- The fields that hardware and firmware write, as memory shows them after a change; a control block that no longer lies on a
writable PIN page shows none (R102; log 20). -/
def mirror (s : State) (t : Four) (num : Nat) : State :=
  match (s.tower t).queues.find? (·.num == num) with
  | none => s
  | some q =>
    sysWritePin (sysWritePin (sysWritePin s q.asid (q.qcb + 0xA) (leBytes 2 q.asid.toNat)) q.asid (q.qcb + 0x10) (q.qcbLow t))
      q.asid (q.qcb + 0x24) q.qcbHigh

end Sys2Proof.Machine
end

