-- ==== Sys2Proof/Machine/Sync.lean ====
section
/-!
DEFINITION. Fences, settles and counts (R227 to R230), barrier words and what grid barriers wait for (R231 to R233), signals (R234), wait
records and their checks (R235), work queues (R236, R237).
-/

namespace Sys2Proof.Machine

/-! ### FENCE, SETTLE, WAIT -/

/-- R228. -/
def execFence (acq rel : BitVec 1) (scope : BitVec 3) (s : State) : Res :=
  issue (.fence acq rel scope) s fun c s =>
    let loads := c.beads.all fun b => (b.lops ++ b.tops.filter (·.load)).all (·.done)
    if loads && (rel == 0 || c.released s scope) then
      let s1 := if rel == 1 then c.noteRelease s else s
      c.done (if acq == 1 then c.acquire s1 scope else s1)
    else c.hold s (.fence acq rel scope) .fence

/-- The bead's reductions, drains and BGEMVs not yet applied (R124). -/
def Ctx.unsettled (c : Ctx) (s : State) : Bool :=
  let mine (gang member home pos : Nat) : Bool := gang == c.g.id && member == c.cur.member && c.beads.any (ofBead · home pos)
  (s.reds.any fun r => mine r.gang r.member r.home r.pos)
    || (s.prods.any fun p => !p.drains.isEmpty && mine p.gang p.member p.home p.pos)
    || s.bgemvs.any fun b => mine b.gang b.member b.home b.pos

/-- The eviction and the retry of a settle at tower scope or wider (R124). -/
def settleWide (c : Ctx) (s : State) : State :=
  retryDefers (evictAll s c.tower c.col fun l => l.asid == c.asid) c.g c.asid

/-- The release with which a SETTLE ends; a settle whose first part is done keeps that in its wait. -/
def settleRelease (c : Ctx) (s : State) (scope : BitVec 3) : State :=
  if c.released s scope then c.done (c.noteRelease s)
  else (c.waitAt s (.settle scope) fun _ => some { plainWait .settle s (c.now s) with sat := some 0 }).fresh

/-- R124, R229. -/
def execSettle (scope : BitVec 3) (s : State) : Res :=
  issue (.settle scope) s fun c s =>
    if c.lead.wait.any fun w => w.kind == .settle && w.sat.isSome then settleRelease c s scope
    else if c.unsettled s then c.hold s (.settle scope) .settle
    else if scope.toNat ≤ 2 then settleRelease c s scope
    else
      let s1 := settleWide c s
      match lowestDefer (((s1.gang? c.g.id).map (·.defers)).getD []) with
      | some d => takeTrap c s1 { code := 0x10, va := d.va, dst := scope.setWidth 6 }
      | none => settleRelease c s1 scope

/-- The operations that a WAIT with immediate n leaves: the newest n (R161, log 11). -/
def newest (n : Nat) (ops : List CountedOp) : List CountedOp := ops.drop (ops.length - n)

/-- The pending bits of covered operations cleared (R162). -/
def unpend (b : Bead) (ops : List CountedOp) : Bead :=
  ops.foldl (fun b o => o.dests.foldl (fun b d =>
    if d.1 then { b with pendS := clearPend b.pendS d.2.toNat } else { b with pendV := clearPend b.pendV d.2.toNat }) b) b

/-- One count covered. -/
def Bead.cover (b : Bead) (l s t : Nat) : Bead :=
  let gone (n : Nat) (ops : List CountedOp) : List CountedOp := ops.take (ops.length - n)
  { unpend (unpend (unpend b (gone l b.lops)) (gone s b.sops)) (gone t b.tops) with
      lops := newest l b.lops, sops := newest s b.sops, tops := newest t b.tops }

/-- R161, R230. -/
def execWait (l st t : BitVec 6) (s : State) : Res :=
  issue (.wait l st t) s fun c s =>
    if c.beads.all fun b => decide (countOf b.lops ≤ l.toNat) && decide (countOf b.sops ≤ st.toNat)
        && decide (countOf b.tops ≤ t.toNat) then
      c.done (c.onGrp s fun b => b.cover l.toNat st.toNat t.toNat)
    else c.hold s (.wait l st t) .count

/-! ### Announcements (R66, R235) -/

/-- A gang whose save is under way latches the event. -/
def Gang.saving (g : Gang) : Bool :=
  match g.pending with
  | some (.save _) => true
  | _ => false

def Wait.hears (val : Wait → Option DWord) (w : Wait) : Bool := w.sat.isNone && (val w).isSome

/-- An event met by the wait records of a gang: a resident bead keeps the value, a saved gang is queued for relaunch, a gang
being saved latches it. -/
def Gang.announced (val : Wait → Option DWord) (g : Gang) : Gang :=
  let hit := g.members.any fun w => w.beads.any fun b => b.live && b.wait.any (·.hears val)
  if !hit then g
  else
    match g.place with
    | .saved n m _ => { g with place := .saved n m true }
    | .resident .. =>
      { g with
          wake := g.wake || g.saving
          members := g.members.map fun w => w.updBeads (fun b => b.live && b.wait.any (·.hears val)) fun b =>
            { b with wait := b.wait.map fun x => { x with sat := val x } } }

def announce (s : State) (p : Gang → Bool) (val : Wait → Option DWord) : State :=
  { s with gangs := s.gangs.map fun g => if p g then g.announced val else g }

/-- The condition codes of SIGW and WAITMEM (R234). -/
def sigCond (cond : BitVec 2) (x y : DWord) : Bool :=
  match cond.toNat with
  | 0 => decide (y.toNat ≤ x.toNat)
  | 1 => x == y
  | _ => x != y

/-- A WAITMEM of a queue of the space whose condition a value written to its word meets (R288, R291). -/
def Queue.hearsSignal (asid : Half) (va x : DWord) (q : Queue) (n : Node) : Bool :=
  q.asid == asid && n.state == .running && field n.bytes 0 1 == 5 && field n.bytes 0x20 8 == va.toNat
    && sigCond (BitVec.ofNat 2 (field n.bytes 0x30 1)) x (BitVec.ofNat 64 (field n.bytes 0x28 8))

/-- WAITMEMs latch a signal; an unmapped or unmapping queue notes it. -/
def Queue.signalled (asid : Half) (va x : DWord) (q : Queue) : Queue :=
  if !q.nodes.any (q.hearsSignal asid va x) then q
  else
    { q with nodes := q.nodes.map (fun n => if q.hearsSignal asid va x n then { n with latched := true } else n)
             pending := q.pending || q.qstate == 0
             latch := q.latch || q.qstate == 3 }

/-- A SIGP or SIGNAL announced to every waiter with the value it wrote (R235). -/
def announceSignal (s : State) (asid : Half) (va x : DWord) : State :=
  let s1 := announce s (fun g => s.asidOf g == asid) fun w =>
    if w.kind == .sigw && w.addr == va && sigCond w.cond x w.cmp then some x else none
  Four.all.foldl (fun s t =>
    let hit := (s.tower t).queues.filter fun q => q.nodes.any (q.hearsSignal asid va x)
    hit.foldl (fun s q => mirror s t q.num)
      (s.updTower t fun tw => { tw with queues := tw.queues.map (Queue.signalled asid va x) })) s1

/-- A completed phase announced (R232, R235). -/
def announcePhase (s : State) (c : Ctx) (scr : Bool) (va : DWord) (phase : Nat) : State :=
  announce s (fun g => if scr then g.id == c.g.id else s.asidOf g == c.asid) fun w =>
    if (w.kind == .bar || w.kind == .barw) && w.scr == scr && w.addr == va && w.cmp.toNat != phase then
      some (BitVec.ofNat 64 phase)
    else none

/-! ### Waiting on a word -/

/-- The value of a word that ends a wait (R232, R234). -/
def Wait.meets (w : Wait) (x : DWord) : Option DWord :=
  match w.kind with
  | .sigw => if sigCond w.cond x w.cmp then some x else none
  | _ => if x.extractLsb' 32 32 != w.cmp.setWidth 32 then some x else none

/-- One wait record checked against its word, read at the scope's point (R103, R235). -/
def pollWord (c : Ctx) (s : State) (w : Wait) : State × Option DWord :=
  if w.scr then (s, w.meets (BitVec.ofNat 64 (leNat (c.scrRead s w.addr.toNat 8))))
  else
    match c.conf s .read w.addr with
    | .ok h =>
      let r := readAt s c.tower c.col c.asid w.addr 8 w.scope h
      (r.1, w.meets (BitVec.ofNat 64 (leNat r.2)))
    | _ => (s, none)

/-- The waits of a group end (R232, R234): SIGW writes its value; the acquire; the group goes on. -/
def finishWaits (c : Ctx) (s : State) (scope : BitVec 3) : State :=
  c.done (c.acquire (c.onGrp s fun b =>
    match b.wait with
    | some w => if w.kind == .sigw then b.sset w.dst (w.sat.getD 0) else b
    | none => b) scope)

/-- The waits of a group checked (R235): each bead's on its own word, traps f and g first; the group goes on when all are
met. -/
def recheckWord (c : Ctx) (s : State) : State :=
  let open_ := c.beads.filterMap fun b => (b.wait.filter (·.sat.isNone)).map fun w => (b, w)
  let glob := open_.filter (!·.2.scr)
  let ts : List Target := glob.map fun x => { lane := 0xFF, va := x.2.addr }
  let xs : List Touch := glob.map fun x => { b := x.1, va := x.2.addr, n := 8 }
  let fills := glob.any fun x => decide (x.2.scope.toNat ≤ 2)
  match confFail c s 1 .read ts (c.conf s .read) with
  | some s1 => s1
  | none =>
    let s1 := c.clear s false fills xs
    if c.barred s1 false fills xs then s1
    else
      let r := open_.foldl (fun (r : State × List (Nat × DWord)) x =>
        let q := pollWord c r.1 x.2
        (q.1, match q.2 with | some v => (x.1.pos, v) :: r.2 | none => r.2)) (s1, [])
      let s2 := c.onGrp r.1 fun b =>
        match r.2.find? (·.1 == b.pos) with
        | some v => { b with wait := b.wait.map fun w => { w with sat := some v.2 } }
        | none => b
      if open_.length == r.2.length then finishWaits c s2 ((c.lead.wait.map (·.scope)).getD 0) else s2

/-- The group begins a wait on words, one a bead. -/
def Ctx.waitWord (c : Ctx) (s : State) (i : Instr) (k : WaitKind) (scr : Bool) (scope : BitVec 3) (cond : BitVec 2) (d : Reg)
    (addr cmp : Bead → DWord) : State :=
  (c.waitAt s i fun b =>
    some { plainWait k s (c.now s) with scr, addr := addr b, scope, cond, cmp := cmp b, dst := d }).fresh

/-! ### Barrier words (R231, R232) -/

/-- The address of a bead's barrier word. -/
def barAddr (scr : BitVec 1) (a : Reg) (b : Bead) : DWord := if scr == 1 then (b.sget a) &&& 0xFFFFFFFF else b.sget a

def Ctx.wordAccs (c : Ctx) (addr : Bead → DWord) : List LaneAcc :=
  c.beads.map fun b => { b, k := b.low, lane := 0xFF, ea := addr b }

/-- The word after an arrival, whether the phase completes, the phase that the arrival read (R232). -/
def arrive (o : Nat) : Nat × Bool × Nat :=
  let expect := o % 65536
  let arrived := o / 65536 % 65536
  let phase := o / 2 ^ 32
  if expect ≤ arrived + 1 then (expect + (phase + 1) % 2 ^ 32 * 2 ^ 32, true, phase)
  else (expect + (arrived + 1) * 65536 + phase * 2 ^ 32, false, phase)

/-- One bead arrives (R232): the word's update at its point of coherence; the phase that it read, and whether the phase
completes. -/
def arriveOne (c : Ctx) (scr : BitVec 1) (scope : BitVec 3) (s : State) (x : LaneAcc) : State × Nat × Bool :=
  let new (o : Nat) : Nat := (arrive o).1
  let r : State × Nat :=
    if scr == 1 then
      let o := leNat (c.scrRead s x.ea.toNat 8)
      (c.scrWrite s x.ea.toNat (leBytes 8 (new o)), o)
    else
      match c.conf s .write x.ea with
      | .ok h => c.rmw s x.b scope x.ea 8 0 1 h new
      | _ => (s, 0)
  let a := arrive r.2
  (r.1, a.2.2, a.2.1)

/-- A bead begins its wait for a phase other than the one that its arrival read, at the word where it arrived. -/
def Ctx.awaitPhase (c : Ctx) (w : Wait) (scr : BitVec 1) (scope : BitVec 3) (d : Reg) (x : LaneAcc) (phase : Nat) (s : State) : State :=
  c.onGrp s fun b =>
    if b.pos == x.b.pos then
      { b with
          wait := some { w with scr := scr == 1, addr := x.ea, scope, cmp := BitVec.ofNat 64 phase, dst := d }
          lastIssue := b.issuedAt (c.now s) }
    else b

/-- The arrivals of a group, ascending, with the phase that each read by position. With `wait` each bead waits from its own
arrival on; then a phase that it completes is announced to every waiter, the group's own beads among them (R235). -/
def arrivals (c : Ctx) (w : Wait) (scr : BitVec 1) (scope : BitVec 3) (d : Reg) (wait : Bool) (s : State) (as : List LaneAcc) :
    State × List (Nat × Nat) :=
  as.foldl (fun (r : State × List (Nat × Nat)) x =>
    let q := arriveOne c scr scope r.1 x
    let s1 := if wait then c.awaitPhase w scr scope d x q.2.1 q.1 else q.1
    (if q.2.2 then announcePhase s1 c (scr == 1) x.ea ((q.2.1 + 1) % 2 ^ 32) else s1, (x.b.pos, q.2.1) :: r.2)) (s, [])

/-- The phase that a bead's arrival read. -/
def phaseOf (ps : List (Nat × Nat)) (b : Bead) : DWord := BitVec.ofNat 64 (((ps.find? (·.1 == b.pos)).map (·.2)).getD 0)

/-- Every bead arrives, and s[d] takes the phase that its arrival read, its address having been read before (R144); with `wait`,
the unit waits. -/
def arriveAll (c : Ctx) (s : State) (i : Instr) (d a : Reg) (scr : BitVec 1) (scope : BitVec 3) (wait : Bool) : State :=
  let as := c.wordAccs (barAddr scr a)
  match c.accTrap s (scr == 0) 8 none as with
  | some t => takeTrap c s t
  | none =>
    match if scr == 1 then none else confFail c s 1 .write (as.map (·.target)) (c.conf s .write) with
    | some s1 => s1
    | none =>
      let xs := if scr == 1 then [] else touches 8 as
      let fills := decide (scope.toNat ≤ 2)
      let s1 := c.clear s true fills xs
      if c.barred s1 true fills xs || !c.released s1 scope then c.holdIssue s1 i
      else
        let r := arrivals c (plainWait .bar s1 (c.now s)) scr scope d wait (c.noteRelease s1) as
        let s2 := c.onGrp r.1 fun b => b.sset d (phaseOf r.2 b)
        if wait then (c.onGrp s2 fun b => { b with held := some i }).fresh else c.done s2

/-- R232. -/
def execBara (d a : Reg) (scr : BitVec 1) (scope : BitVec 3) (s : State) : Res :=
  issue (.bara d a scr scope) s fun c s => arriveAll c s (.bara d a scr scope) d a scr scope false

/-- R232. -/
def execBar (d a : Reg) (scr : BitVec 1) (scope : BitVec 3) (s : State) : Res :=
  issue (.bar d a scr scope) s fun c s =>
    if c.lead.wait.any (·.kind == .bar) then recheckWord c s
    else arriveAll c s (.bar d a scr scope) d a scr scope true

/-- R232: the token is read from s[d]. -/
def execBarw (d a : Reg) (scr : BitVec 1) (scope : BitVec 3) (s : State) : Res :=
  issue (.barw d a scr scope) s fun c s =>
    if c.lead.wait.any (·.kind == .barw) then recheckWord c s
    else
      match c.accTrap s (scr == 0) 8 none (c.wordAccs (barAddr scr a)) with
      | some t => takeTrap c s t
      | none =>
        c.waitWord s (.barw d a scr scope) .barw (scr == 1) scope 0 d (barAddr scr a) fun b => (b.sget d) &&& 0xFFFFFFFF

/-! ### Signals (R234) -/

/-- R234. -/
def execSigw (d a : Reg) (cond : BitVec 2) (scope : BitVec 3) (s : State) : Res :=
  issue (.sigw d a cond scope) s fun c s =>
    if c.lead.wait.any (·.kind == .sigw) then recheckWord c s
    else
      match c.accTrap s true 8 none (c.wordAccs (·.sget a)) with
      | some t => takeTrap c s t
      | none => c.waitWord s (.sigw d a cond scope) .sigw false scope cond d (·.sget a) (·.sget d)

/-- One bead's update of its signal, announced (R234, R235). -/
def signalOne (c : Ctx) (set : BitVec 1) (scope : BitVec 3) (d : Reg) (s : State) (x : LaneAcc) : State :=
  let y := x.b.sget d
  let new (o : Nat) : Nat := if set == 1 then y.toNat else (o + y.toNat) % 2 ^ 64
  match c.conf s .write x.ea with
  | .ok h =>
    let r := c.rmw s x.b scope x.ea 8 0 1 h new
    announceSignal r.1 c.asid x.ea (BitVec.ofNat 64 (new r.2))
  | _ => s

/-- R234. -/
def execSigp (d a : Reg) (set : BitVec 1) (scope : BitVec 3) (s : State) : Res :=
  issue (.sigp d a set scope) s fun c s =>
    let as := c.wordAccs (·.sget a)
    match c.accTrap s true 8 none as with
    | some t => takeTrap c s t
    | none =>
      match confFail c s 1 .write (as.map (·.target)) (c.conf s .write) with
      | some s1 => s1
      | none =>
        let fills := decide (scope.toNat ≤ 2)
        let s1 := c.clear s true fills (touches 8 as)
        if c.barred s1 true fills (touches 8 as) || !c.released s1 scope then c.holdIssue s1 (.sigp d a set scope)
        else c.done (as.foldl (signalOne c set scope d) (c.noteRelease s1))

/-! ### Grid barriers (R233) -/

/-- Every workgroup of the launch has arrived at instance n, in every tower that its map names: none is unstarted (a tower whose
list is still to arrive has them all to start), and every live bead has executed its n-th GBAR (R68, R233). -/
def gbarDone (s : State) (l : Launch) (n : Nat) : Bool :=
  (l.towers.toList.all fun t => t.todo.isEmpty)
    && s.gangs.all fun g => g.launch != l.id || g.members.all fun w => w.beads.all fun b => !b.live || decide (n ≤ b.gbars)

/-- Completed instances announced to the launch's waiters (R68, R233). -/
def announceGbar (s : State) (l : Launch) : State :=
  announce s (fun g => g.launch == l.id) fun w =>
    if w.kind == .gbar && gbarDone s l w.cmp.toNat then some w.cmp else none

/-- A waiting GBAR checked: done, it acquires at device scope. -/
def recheckGbar (c : Ctx) (s : State) : State :=
  if c.beads.all fun b => b.wait.any fun w => w.sat.isSome || gbarDone s c.l w.cmp.toNat then c.done (c.acquire s 4) else s

/-! ### Work queues (R236, R237) -/

def Tower.wq (tw : Tower) (q : Nat) : WorkQueue := tw.wqs.getD q { asid := 0, seq := 0, recs := [] }

/-- The bead waits in a WPOP on queue q; a stopped or parked one does not (R319, R320). -/
def Bead.pops (q : Nat) (b : Bead) : Bool :=
  b.live && b.stop.isNone && b.park.isNone && b.wait.any fun w => w.kind == .wpop && w.addr.toNat == q

/-- The WPOPs that wait on a queue of a tower, in the order in which they began; those of saved gangs keep their places
(R235, R237). -/
def wpopOrders (s : State) (t : Four) (q : Nat) : List Nat :=
  let all := (s.gangs.filter (·.tower == t)).flatMap fun g => g.members.flatMap fun w =>
    (w.beads.filter (Bead.pops q)).filterMap fun b => b.wait.map (·.order)
  sortBy (fun a b => decide (a ≤ b)) all.eraseDups

/-- Record number k popped by a group (R237): its bytes into scratch, its SEQ into s[d], the acquire. -/
def popRecord (c : Ctx) (s : State) (d a : Reg) (q k : Nat) (rec : List Byte) : State :=
  let s1 := s.updTower c.tower fun tw => { tw with wqs := updAt tw.wqs q fun w => { w with recs := w.recs.eraseIdx k } }
  let s2 := c.scrWrite s1 ((c.lead.sget a).toNat % 2 ^ 32) rec
  c.done (c.acquire (c.onGrp s2 fun b => b.sset d (BitVec.ofNat 64 (field rec 0 8))) 4)

/-- The k-th record held is the k-th waiter's: a resident one pops it, one of a saved gang finds it when it is restored. -/
def serveWaiters (t : Four) (q : Nat) : List Nat → Nat → State → State
  | [], _, s => s
  | o :: os, k, s =>
    match ((s.tower t).wq q).recs[k]?, findGroup s fun b => b.pops q && b.wait.any (·.order == o) with
    | none, _ => s
    | some _, none => serveWaiters t q os (k + 1) s
    | some rec, some cu =>
      serveWaiters t q os k (withGroup s cu fun c s =>
        match c.lead.held with
        | some (.wpop d a _ _) => popRecord c s d a q k rec
        | _ => s)

/-- Records go to the WPOPs that wait, oldest first (R237). After BIND_WQ to another space a WPOP that waits goes on waiting and
takes the new binding's records (log 68). -/
def serveWpop (s : State) (t : Four) (q : Nat) : State := serveWaiters t q (wpopOrders s t q) 0 s

/-- The record that the group may take: the one behind those of the WPOPs that began to wait before it. -/
def Ctx.wpopRecord (c : Ctx) (s : State) (q : Nat) : Option (Nat × List Byte) :=
  let ahead := wpopOrders s c.tower q
  let k := match c.lead.wait with
    | some w => if w.kind == .wpop then (ahead.filter (· < w.order)).length else ahead.length
    | none => ahead.length
  (((s.tower c.tower).wq q).recs[k]?).map fun r => (k, r)

/-- A waiting WPOP looks at its queue again. -/
def recheckWpop (c : Ctx) (s : State) (d a : Reg) (q : Nat) : State :=
  match c.wpopRecord s q with
  | some (k, rec) => popRecord c s d a q k rec
  | none => s

/-- R237. Before it begins it waits for the group's own copies to and from the 64 bytes (R219, log 39). -/
def execWpop (d a : Reg) (try_ : BitVec 1) (q : BitVec 4) (s : State) : Res :=
  issue (.wpop d a try_ q) s fun c s =>
    let wq := (s.tower c.tower).wq q.toNat
    let o := (c.lead.sget a) &&& 0xFFFFFFFF
    if wq.asid != c.asid then takeTrap c s { code := 0x09 }
    else if o.toNat % 64 != 0 then takeTrap c s { code := 0x06, va := o }
    else if c.scrLen < o.toNat + 64 then takeTrap c s { code := 0x07, va := o }
    else if c.lead.wait.any (·.kind == .wpop) then recheckWpop c s d a q.toNat
    else if c.copyPending s false true { b := c.lead, va := o, n := 64 } then c.holdIssue s (.wpop d a try_ q)
    else
      match c.wpopRecord s q.toNat with
      | some (k, rec) => popRecord c s d a q.toNat k rec
      | none =>
        if try_ == 1 then c.done (c.onGrp s fun b => b.sset d (BitVec.allOnes 64))
        else
          (c.waitAt s (.wpop d a try_ q) fun _ =>
            some { plainWait .wpop s (c.now s) with addr := q.setWidth 64, dst := d }).fresh

/-! ### The checks (R235) -/

/-- A resident waiter's condition is checked. -/
def recheckGroup (c : Ctx) (s : State) : State :=
  if c.lead.stop.isSome || c.lead.park.isSome then s
  else
    match c.lead.wait with
    | none => s
    | some w =>
      match w.kind with
      | .bar | .barw | .sigw => recheckWord c s
      | .gbar => recheckGbar c s
      | .wpop =>
        match c.lead.held with
        | some (.wpop d a _ q) => recheckWpop c s d a q.toNat
        | _ => s
      | _ => s

/-- R235. -/
def execWaitRecheck (gang member grp : Nat) (s : State) : Res :=
  .next (withGroup s { gang, member, grp, resv := false } recheckGroup)

/-- A parked wait record's condition, as firmware finds it: words at their home, a word in the gang's own scratch never
(R66, R235). -/
def parkedMet (s : State) (g : Gang) (l : Launch) (w : Wait) : Bool :=
  w.sat.isSome ||
    match w.kind with
    | .bar | .barw | .sigw =>
      !w.scr &&
        match confAtHome s l.asid w.addr .read with
        | .ok h => (w.meets (BitVec.ofNat 64 (leNat (homeRead s l.asid w.addr 8 h).2))).isSome
        | _ => false
    | .gbar => gbarDone s l w.cmp.toNat
    | .wpop =>
      decide (((wpopOrders s g.tower w.addr.toNat).filter (· < w.order)).length
        < ((s.tower g.tower).wq w.addr.toNat).recs.length)
    | .racq => true
    | _ => false

/-- A saved gang with a wait that is met is queued for relaunch (R66). -/
def checkParked (s : State) (gang : Nat) : State :=
  match s.gang? gang with
  | none => s
  | some g =>
    match s.launch? g.launch, g.place with
    | some l, .saved n m _ =>
      if g.members.any fun w => w.beads.any fun b => b.live && b.wait.any (parkedMet s g l) then
        s.updGang gang fun g => { g with place := .saved n m true }
      else s
    | _, _ => s

/-- R235. -/
def execParkedRecordCheck (gang : Nat) (s : State) : Res := .next (checkParked s gang)

/-- The resident groups of a tower that wait in BAR, BARW, SIGW, WPOP or GBAR. -/
def waitingGroups (s : State) (t : Four) : List Cursor :=
  ((allGroups s).filter fun x => (s.gang? x.1.gang).any (·.tower == t) && x.2.wait.any fun w =>
    w.kind == .bar || w.kind == .barw || w.kind == .sigw || w.kind == .wpop || w.kind == .gbar).map (·.1) |>.eraseDups

/-- Every parked record of a tower's gangs, at least once every 100 µs (R235). -/
def parkedChecks (s : State) (t : Four) : State :=
  let gs := s.gangs.filter fun g => g.tower == t && !g.resident
  if !gs.isEmpty && decide ((s.tower t).lastParked + 100000 ≤ (s.tower t).time) then
    gs.foldl (fun s g => checkParked s g.id) (s.updTower t fun tw => { tw with lastParked := tw.time })
  else s

end Sys2Proof.Machine
end

