-- ==== Sys2Proof/Machine/System.lean ====
section
/-!
DEFINITION. System calls, register blocks, leases, marks and clocks (R265 to R278).
-/

namespace Sys2Proof.Machine

/-- A request to the host after a release at system scope (R268, R269). -/
def hostCall (i : Instr) (t : TrapReq) (s : State) : Res :=
  issue i s fun c s => if c.released s 5 then takeTrap c (c.noteRelease s) t else c.holdIssue s i

/-- R268. -/
def execTrap (d a : Reg) (call : BitVec 10) (s : State) : Res :=
  hostCall (.trap d a call) { code := 0x20, call, args := some a, dst := d } s

/-- R269. -/
def execBrk (call : BitVec 10) (s : State) : Res := hostCall (.brk call) { code := 0x21, call } s

/-! ### Register blocks (R270) -/

/-- A named block is already held by the strand. -/
def Ctx.holdsAny (c : Ctx) (bl : BitVec 7) : Bool := c.blocks &&& blocksOf bl != 0

/-- Nothing waits on the core and the blocks fit. -/
def Ctx.racqFits (c : Ctx) (s : State) (bl : BitVec 7) : Bool :=
  (racqQueue s c.tower c.col c.wg.tier).isEmpty && decide (bitCount bl ≤ freeGranules s c.tower c.col c.wg.tier)

/-- The strand as the core's queue names it. -/
def Ctx.strandKey (c : Ctx) : Nat × Nat × Nat := (c.g.id, c.cur.member, c.lead.home)

/-- A predicate in every lane of every live bead of the group. -/
def Ctx.setPredAll (c : Ctx) (s : State) (d : BitVec 3) (v : Bool) : State :=
  c.onGrp s fun b => b.onLanes 0xF fun k r => r.pset k d v

/-- R270: a request that waits stays in the core's queue, at the back of it from when it begins to wait. -/
def execRacqWait (bl : BitVec 7) (s : State) : Res :=
  issue (.racqWait bl) s fun c s =>
    let s1 := serveCore s c.tower c.col c.wg.tier
    if c.lead.wait.any (·.kind == .racq) then s1
    else if c.holdsAny bl then takeTrap c s { code := 0x0F, reg := 0xFF }
    else if bl = 0 then c.done s1
    else if c.racqFits s1 bl then c.done (grantBlocks s1 c.g.id c.cur.member c.lead.home (blocksOf bl))
    else
      (c.hold (setCore s1 c.tower c.col c.wg.tier fun x => { x with racq := (x.racq.filter (· != c.strandKey)) ++ [c.strandKey] }) (.racqWait bl) .racq)

/-- R270. -/
def execRacqTry (d : BitVec 3) (bl : BitVec 7) (s : State) : Res :=
  issue (.racqTry d bl) s fun c s =>
    let s1 := serveCore s c.tower c.col c.wg.tier
    if c.holdsAny bl then takeTrap c s { code := 0x0F, reg := 0xFF }
    else if bl = 0 then c.done (c.setPredAll s1 d true)
    else if c.racqFits s1 bl then
      c.done (c.setPredAll (grantBlocks s1 c.g.id c.cur.member c.lead.home (blocksOf bl)) d true)
    else c.done (c.setPredAll s1 d false)

/-! ### Leases (R273, R313) -/

/-- A lease is held until its time, the workgroup's last strand or its kill ends it (R273, R314). -/
def Wg.leased (w : Wg) : Bool := w.lease.any (0 < ·) && w.beads.any Bead.live

/-- Leases of other workgroups of the column. -/
def otherLeases (s : State) (c : Ctx) : Nat :=
  ((residents s c.tower c.col).flatMap fun g => g.members.filter fun w =>
    !(g.id == c.g.id && w.pos == c.cur.member) && w.leased).length

/-- The grant test of R313. -/
def boostGranted (s : State) (c : Ctx) : Bool :=
  !(c.core s).warn && !(c.core s).throttle && decide (otherLeases s c < 2) && !c.wg.inWrap

/-- R273. -/
def execBoost (d : BitVec 3) (us : BitVec 10) (s : State) : Res :=
  issue (.boost d us) s fun c s =>
    let setLease (s : State) (r : Option Nat) : State := s.updWg c.cur.gang c.cur.member fun w => { w with lease := r }
    if us = 0 then c.done (c.setPredAll (setLease s none) d true)
    else if boostGranted s c then c.done (c.setPredAll (setLease s (some (us.toNat * 1000))) d true)
    else c.done (c.setPredAll s d false)

/-! ### Mark and clocks (R274 to R277) -/

/-- R274. -/
def execWmark (valid : BitVec 1) (s : State) : Res :=
  issue (.wmark valid) s fun c s => c.done (s.updWg c.cur.gang c.cur.member fun w => { w with valid := valid == 1 })

/-- R275. -/
def dlrValue (l : Launch) (now : Nat) (b : Bead) : DWord :=
  if l.deadline = 0 then 0x7FFFFFFFFFFFFFFF
  else if b.diverted then l.deadline - BitVec.ofNat 64 now
  else l.deadline - l.wrapBudget.setWidth 64 - BitVec.ofNat 64 now

/-- R275. -/
def execDlr (d : Reg) (s : State) : Res :=
  issue (.dlr d) s fun c s => c.eachBead s fun b => b.sset d (dlrValue c.l (c.now s) b)

/-- Front-end cycles at 1.65 GHz in some nanoseconds (R276). -/
def fcCount (ns : Nat) : Nat := ns * 165 / 100

/-- R276. -/
def execClk (d : Reg) (s : State) : Res :=
  issue (.clk d) s fun c s => c.eachBead s fun b => b.sset d (BitVec.ofNat 64 (fcCount c.wg.resNs))

/-- R277. -/
def execTime (d : Reg) (s : State) : Res :=
  issue (.time d) s fun c s => c.eachBead s fun b => b.sset d (BitVec.ofNat 64 (c.now s))

end Sys2Proof.Machine
end

