-- ==== Sys2Proof/Machine/Ending.lean ====
section
/-!
DEFINITION. How workgroups and launches end: classes, status and completion record (R300, R301, R352, R353), kills (R331, R351),
diversion of a launch (R343 to R350).
-/

namespace Sys2Proof.Machine

/-! ### Classes (R352) -/

/-- Classes of a workgroup that has started. -/
inductive WgClass where
  | faulted | overrun | completed | valid | invalid
deriving DecidableEq, Repr

/-- The first row of R352 that applies. -/
def Wg.ending (w : Wg) : WgClass :=
  if w.faulted then .faulted
  else if w.overrun then .overrun
  else if !w.inWrap then .completed
  else if w.valid then .valid
  else .invalid

def Launch.count (l : Launch) (c : WgClass) : Launch :=
  match c with
  | .faulted => { l with nfault := l.nfault + 1 }
  | .overrun => { l with noverrun := l.noverrun + 1 }
  | .completed => { l with ncomp := l.ncomp + 1 }
  | .valid => { l with ndvalid := l.ndvalid + 1 }
  | .invalid => { l with ndinvalid := l.ndinvalid + 1 }

/-- The members of a gang that leaves for good are counted. -/
def countGang (s : State) (g : Gang) : State := s.updLaunch g.launch fun l => g.members.foldl (fun l w => l.count w.ending) l

/-! ### The completion record -/

/-- Workgroups of a launch (R51). -/
def Launch.total (l : Launch) : Nat := l.ngx * l.ngy * l.ngz * l.nstage

/-- R353, a refusal apart; a kill by the device gives FAULTED (R331). -/
def Launch.status (l : Launch) : Byte :=
  if l.hostKill then 5
  else if l.deviceKill || 0 < l.nfault then 4
  else if 0 < l.noverrun then 3
  else if l.ncomp = l.total then 0
  else if l.ndinvalid = 0 then 1
  else 2

/-- R300. -/
def completionBytes (l : Launch) (status refusal : Byte) (elapsed : Nat) (hbm energy : DWord) : List Byte :=
  [status, refusal] ++ zeros 2 ++ leBytes 4 1 ++ leBytes 8 l.accept.toNat ++ leBytes 8 elapsed
    ++ [l.ncomp, l.ndvalid, l.ndinvalid, l.nunstart, l.noverrun, l.nfault].flatMap (leBytes 4)
    ++ leBytes 8 hbm.toNat ++ leBytes 8 energy.toNat
    ++ [l.lmoves, l.cmoves, l.parks, l.evicts].flatMap (fun x => leBytes 4 x.toNat) ++ zeros 48

/-- Every gang has retired or will never start (R298). -/
def Launch.spent (s : State) (l : Launch) : Bool :=
  l.finished.isNone && l.towers.toList.all (·.todo.isEmpty) && !s.gangs.any (·.launch == l.id)

/-- A node by its queue and counter. -/
def State.updQueue (s : State) (t : Four) (q : Nat) (f : Queue → Queue) : State :=
  s.updTower t fun tw => { tw with queues := tw.queues.map fun x => if x.num == q then f x else x }

def Queue.updNode (q : Queue) (ctr : Word) (f : Node → Node) : Queue :=
  { q with nodes := q.nodes.map fun n => if n.ctr == ctr then f n else n }

def State.updNode (s : State) (t : Four) (q : Nat) (ctr : Word) (f : Node → Node) : State := s.updQueue t q (·.updNode ctr f)

/-- A node's work is over: one that R284 or R285 met while it ran ends as they say. -/
def Node.finish (state : Byte) (status : Half) (n : Node) : Node :=
  { n with state := match n.fate with | some x => .workOver x.1 x.2 | none => .workOver state status }

/-- How a LAUNCH node ends for a completion status: STRICT asks for COMPLETE (R281, R282). -/
def Node.finishLaunch (status : Byte) (n : Node) : Node :=
  if (n.bytes.getD 1 0).getLsbD 0 && status != 0 then n.finish 4 13 else n.finish 3 0

/-- The completion of a launch (R298, R300, R301): the record is written, the reserved granules return, the node's work is
over. -/
def finishLaunch (s : State) (l : Launch) : State :=
  let elapsed := (s.tower l.tower).time - l.accept.toNat
  let bytes := completionBytes l l.status 0 elapsed (BitVec.ofNat 64 l.charges.read) (Config.energy l.charges.toList s.nextId)
  let s1 := sysWriteHit s l.asid l.completion bytes { pa := l.crPa, attr := l.crAttr }
  let s2 := s1.updLaunch l.id fun x =>
    { x with finished := some l.status, towers := x.towers.map fun y => { y with reserve := 0 } }
  (s2.updNode l.tower l.queue l.node (Node.finishLaunch l.status)).fresh

/-- Done when nothing of the launch is left. -/
def checkDone (s : State) (id : Nat) : State :=
  match s.launch? id with
  | some l => if l.spent s then finishLaunch s l else s
  | none => s

/-! ### Columns and slots left -/

/-- After a step that changed what a column holds: what stands empty, ratios and requests (R270, R303, R316). `before` is the state
before it. -/
def leftColumn (before s : State) (t : Four) (col : Nat) : State :=
  serveColumn (reclassAll (noteEmpty before s t col) t col (classes before t col)) t col

/-- A column move of a gang ends otherwise than by moving it: the ratio override stands until the next evaluation (R312), and the
column it was bound for starts its 50 µs (R316). -/
def State.endMove (s : State) (id : Nat) : State :=
  match s.gang? id with
  | none => s
  | some g =>
    match g.pending with
    | some (.column c ..) =>
      ((s.updGang id fun g => { g with pending := none }).updCol g.tower g.col fun co => { co with halved := true }).updCol g.tower c
        fun co => { co with emptySince := (s.tower g.tower).time }
    | _ => s

/-- A saved gang's cellar slot is freed. -/
def freeSlot (s : State) (g : Gang) : State :=
  s.updTower g.tower fun tw => { tw with cellar := tw.cellar.filter (·.gang != g.id) }

def State.dropGang (s : State) (id : Nat) : State := { s with gangs := s.gangs.filter (·.id != id) }

/-- Deltas that are discarded are counted by one record of kind 5 that names the lowest address (R122, R328, R331). -/
def discardDefers (s : State) (l : Launch) (g : Gang) (col : Nat) (ds : List Defer) : State :=
  match lowestDefer ds with
  | none => s
  | some d => reportFault s g.tower 5 (confAtHome s l.asid d.va .write).cause 2 l (some g) col d.va d.w ds.length

/-! ### Kills (R331, R351) -/

/-- The class that a kill leaves: a workgroup with live strands is faulted, or overrun at the deadline unless a strand of it
was stopped by a trap (R331, R351, R352). -/
def Wg.killed (by_ : KillBy) (w : Wg) : Wg :=
  if !w.beads.any Bead.live then w
  else
    match by_ with
    | .deadline => { w with overrun := true, faulted := w.faulted || w.beads.any fun b => b.live && b.stop.isSome }
    | _ => { w with faulted := true }

/-- A bead stops at its next unit boundary (R331), stopped or parked as it may be, and though a full ring holds its record back (the
model's choice, log 87). -/
def Bead.killSoon (b : Bead) : Bead := if !b.live then b else if b.atBoundary then b.kill else { b with dying := true }

/-- The kill ends the gang's leases at once (R314). -/
def Gang.killed (by_ : KillBy) (g : Gang) : Gang :=
  { g with members := g.members.map fun (w : Wg) =>
      { ((w.killed by_).updBeads (fun _ => true) Bead.killSoon) with lease := none } }

/-- A discarded gang is counted and leaves its slot, once the record of what it discarded does not wait for room (R326). -/
def leaveSlot (s : State) (id : Nat) : State :=
  match s.gang? id with
  | none => s
  | some g =>
    if (s.tower g.tower).fltq.anyWaits fun r => r.gang == id && r.code == 5 then s
    else (freeSlot (countGang s g) g).dropGang id

/-- A saved gang that will not be restored (R331, R347): its deferred-settle records are discarded, and it leaves its slot. -/
def discardGang (by_ : KillBy) (s : State) (l : Launch) (g : Gang) : State :=
  leaveSlot ((discardDefers s l g 0xFF g.defers).updGang g.id fun g =>
    { g with members := g.members.map (·.killed by_), defers := [] }) g.id

/-- Discarded gangs whose record has been written meanwhile leave their slots. -/
def leaveSlots (s : State) : State :=
  (s.gangs.filter fun g => !g.resident && (s.launch? g.launch).any fun l => (l.towers.get g.tower).killed.isSome).foldl
    (fun s g => checkDone (leaveSlot s g.id) g.launch) s

/-- One gang meets the kill of its launch; one whose save is under way waits for its end (R339). -/
def killGang (by_ : KillBy) (l : Launch) (s : State) (g : Gang) : State :=
  if !g.resident then discardGang by_ s l g
  else if g.saving then s
  else leftColumn s (s.updGang g.id (Gang.killed by_)) g.tower g.col

/-- The launch's gangs of a tower. -/
def gangsIn (s : State) (l : Launch) (t : Four) : List Gang := s.gangs.filter fun g => g.launch == l.id && g.tower == t

/-- Gangs that have not started never start. -/
def unstart (s : State) (id : Nat) (t : Four) : State :=
  s.updLaunch id fun l =>
    { l with nunstart := l.nunstart + l.gangSize * (l.towers.get t).todo.length
             towers := l.towers.upd t fun x => { x with todo := [] } }

/-- A kill in one tower. -/
def killTower (by_ : KillBy) (s : State) (id : Nat) (t : Four) : State :=
  match s.launch? id with
  | none => s
  | some l =>
    if l.finished.isSome || (l.towers.get t).killed.isSome then s
    else
      let s1 := (unstart s id t).updLaunch id fun l =>
        { l with towers := l.towers.upd t fun x => { x with killed := some by_ } }
      (gangsIn s1 l t).foldl (killGang by_ l) s1

/-- A KILL reply, or a kill by the device, in every tower that the map names (R331). -/
def killLaunch (by_ : KillBy) (s : State) (id : Nat) : State :=
  match s.launch? id with
  | none => s
  | some l =>
    let s1 := s.updLaunch id fun x =>
      { x with hostKill := x.hostKill || (by_ == .host && x.finished.isNone)
               deviceKill := x.deviceKill || (by_ == .device && x.finished.isNone) }
    checkDone (l.map.eraseDups.foldl (fun s t => killTower by_ s id t) s1) id

/-! ### Diversion of a launch (R343 to R350) -/

/-- One gang meets the diversion: resident beads at their next boundaries, a saved gang queued for its restore (R347); a
gang whose save is under way once that has ended (R339). -/
def divertGang (l : Launch) (cause : BitVec 4) (s : State) (g : Gang) : State :=
  match g.place with
  | .saved n m _ => s.updGang g.id fun g => { g with place := .saved n m true }
  | .resident col _ =>
    if g.saving then s
    else
      leftColumn s (s.updGang g.id fun g =>
        { g with members := g.members.map fun (w : Wg) =>
            w.updBeads (fun _ => true) (Bead.divertSoon l cause g.wrapBack (s.tower g.tower).time) }) g.tower col

/-- A diversion reaches a tower, at most once (R344); without a wrap entry only unstarted gangs are touched (R350). -/
def divertTower (cause : BitVec 4) (s : State) (id : Nat) (t : Four) : State :=
  match s.launch? id with
  | none => s
  | some l =>
    let x := l.towers.get t
    if l.finished.isSome || x.diverted || x.killed.isSome then s
    else
      let s1 := (unstart s id t).updLaunch id fun l =>
        { l with towers := l.towers.upd t fun x => { x with diverted := true, cause := cause, divertDue := none } }
      checkDone (if l.wrap then (gangsIn s1 l t).foldl (divertGang l cause) s1 else s1) id

/-- The divert instant (R343). -/
def Launch.divertAt (l : Launch) : Nat := l.deadline.toNat - l.wrapBudget.toNat

/-- The cause with which a launch is diverted in a tower: of one that arose elsewhere and the deadline's, the one whose instant came
first; the other changes nothing (R343, R344). -/
def Launch.divertCause (l : Launch) (t : Four) : BitVec 4 :=
  match (l.towers.get t).divertDue with
  | some (cause, _, at_) => if l.deadline != 0 && decide (l.divertAt < at_) then 1 else cause
  | none => 1

/-- A diversion that arises in a tower from a reply or a trap (R330, R332, R344): there at once, in the other named towers
within 2 µs; without a wrap entry it kills instead. Where one that arose elsewhere is still on its way, that one is the launch's
diversion, and reaches the tower now. -/
def divertLaunch (cause : BitVec 4) (by_ : KillBy) (s : State) (id : Nat) (t : Four) : State :=
  match s.launch? id with
  | none => s
  | some l =>
    if !l.wrap then killLaunch by_ s id
    else if (l.towers.get t).diverted then s
    else if (l.towers.get t).divertDue.isSome then divertTower (l.divertCause t) s id t
    else
      let s1 := s.updLaunch id fun l =>
        { l with towers := l.towers.mapIdx fun u x =>
            if u = t || !l.map.contains u || x.diverted || x.divertDue.isSome then x
            else { x with divertDue := some (cause, t, (s.tower t).time) } }
      divertTower cause s1 id t

/-- The launch acts in a tower. -/
def Launch.names (l : Launch) (t : Four) : Bool := l.map.contains t

/-- A tower's time has brought a launch to a diversion there: its divert instant, or 2 µs after one that arose elsewhere (R343,
R344). -/
def Launch.divertsNow (s : State) (l : Launch) (t : Four) : Bool :=
  (l.deadline != 0 && decide (l.divertAt ≤ (s.tower t).time))
    || (l.towers.get t).divertDue.any fun d => decide (d.2.2 + 2000 ≤ (s.tower d.2.1).time)

/-- What a tower's time has brought a launch to there: its divert instant, a diversion that arose elsewhere 2 µs ago, its
deadline (R343, R344, R351). -/
def dueIn (id : Nat) (s : State) (t : Four) : State :=
  match s.launch? id with
  | none => s
  | some l =>
    let now := (s.tower t).time
    let s2 := if l.divertsNow s t then divertTower (l.divertCause t) s id t else s
    if l.deadline != 0 && decide (l.deadline.toNat ≤ now) then checkDone (killTower .deadline s2 id t) id else s2

/-- Every launch that has a deadline, or a diversion on its way, in every tower that its map names. -/
def launchesDue (s : State) : State :=
  (s.launches.filter fun l => l.finished.isNone && (l.deadline != 0 || l.towers.toList.any (·.divertDue.isSome))).foldl
    (fun s l => l.map.eraseDups.foldl (dueIn l.id) s) s

/-! ### The steps of deadlines -/

/-- R343. -/
def execDivertInstant (t : Four) (launch : Nat) (s : State) : Res :=
  .next <|
    match s.launch? launch with
    | some l =>
      if l.names t && l.deadline != 0 && decide (l.divertAt ≤ (s.tower t).time) then divertTower (l.divertCause t) s launch t else s
    | none => s

/-- R344. -/
def execRemoteDivert (t : Four) (launch : Nat) (s : State) : Res :=
  .next <|
    match s.launch? launch with
    | some l => if (l.towers.get t).divertDue.isSome then divertTower (l.divertCause t) s launch t else s
    | none => s

/-- R351. -/
def execDeadlineKill (t : Four) (launch : Nat) (s : State) : Res :=
  .next <|
    match s.launch? launch with
    | some l =>
      if l.names t && l.deadline != 0 && decide (l.deadline.toNat ≤ (s.tower t).time) then
        checkDone (killTower .deadline s launch t) launch
      else s
    | none => s

end Sys2Proof.Machine
end

