-- ==== Sys2Proof/Machine/Gangs.lean ====
section
/-!
DEFINITION. Gangs: the cellar (R26, R337), placement and offers (R61 to R63, R299), partial eviction (R340), parking (R65,
R68), saving and restoring (R334 to R339), retirement (R128), restringing (R46).
-/

namespace Sys2Proof.Machine

/-! ### The cellar (R337, log 25) -/

/-- Saved bytes of a tile (R336): its rows and its side band. -/
def Tile.savedBytes (t : Tile) : Nat :=
  if tctlOk t.ctl then tRows t.ctl * (96 * tSlices t.ctl + sideBytes t.ctl) else 0

/-- A tile set's bytes: tiles, and 168 bytes of TCTL, codebooks and pitch registers. -/
def TileSet.savedBytes (ts : TileSet) : Nat := (ts.tiles.map Tile.savedBytes).foldl (· + ·) 168

/-- A workgroup's part of c (R337): its home strands and its tile set. A restrung strand, which holds no blocks, adds nothing: its
beads count with their home strands (the model's choice, log 25). -/
def Wg.savedBytes (w : Wg) : Nat :=
  ((w.heldStrands.filter fun st => decide (st.id < 32)).map fun st => 1024 * bitCount st.blocks + 6144).foldl (· + ·)
    (match w.tile with | some ts => ts.savedBytes | none => 0)

def granulesFor (n : Nat) : Nat := (n + 65535) / 65536

/-- Granules of a gang's slot. -/
def Gang.granules (l : Launch) (g : Gang) : Nat :=
  granulesFor ((g.members.map Wg.savedBytes).foldl (· + ·) 4096) + granulesFor l.scratchAll

def cellarGranules : Nat := 6144

/-- Granules that the slots of a launch occupy in a tower. -/
def slotGranules (s : State) (t : Four) (id : Nat) : Nat :=
  ((s.tower t).cellar.filter fun x => ((s.gang? x.gang).map (·.launch)) == some id).foldl (fun n x => n + x.count) 0

/-- Granules that no slot occupies and no other launch holds reserved (R67). -/
def cellarFree (s : State) (t : Four) (id : Nat) : Nat :=
  let used := (s.tower t).cellar.foldl (fun n x => n + x.count) 0
  let held := (s.launches.filter (·.id != id)).foldl (fun n l => n + ((l.towers.get t).reserve - slotGranules s t l.id)) 0
  cellarGranules - used - held

/-- The lowest run of n granules that a launch may take. -/
def cellarRun (s : State) (t : Four) (id n : Nat) : Option Nat :=
  if n ≤ cellarFree s t id then freeRun ((s.tower t).cellar.map fun x => (x.first, x.count)) cellarGranules n else none

/-- The lowest slot number that is not in use (which one, R337 does not say: the model's choice, log 25). -/
def freeSlotNumber (tw : Tower) : Nat :=
  ((List.range (tw.cellar.length + 1)).find? fun n => !tw.cellar.any (·.num == n)).getD 0

def takeSlot (s : State) (t : Four) (gang first n : Nat) : State :=
  s.updTower t fun tw => { tw with cellar := { num := freeSlotNumber tw, first, count := n, gang } :: tw.cellar }

/-! ### Slots of cores (R40) -/

/-- Strands bound to each issue slot of a core. -/
def boundStrands (ws : List Wg) (k n : Four) : Nat :=
  ((ws.filter (·.tier == k)).flatMap Wg.heldStrands).countP (·.slot == n)

/-- Strands bound one after another to the slot with fewest. -/
def bindStrands : Quad Nat → List Strand → List Strand
  | _, [] => []
  | q, st :: sts =>
    let n := Four.all.foldl (fun (b : Four) k => if q.get k < q.get b then k else b) 0
    { st with slot := n } :: bindStrands (q.upd n (· + 1)) sts

/-- Members bound to the slots of their cores, beside the workgroups already there. -/
def bindMembers : List Wg → List Wg → List Wg
  | _, [] => []
  | there, w :: ws =>
    let q := Quad.mapIdx (fun n _ => boundStrands there w.tier n) (Quad.fill ())
    let w1 := { w with strands := bindStrands q w.heldStrands }
    w1 :: bindMembers (w1 :: there) ws

/-- Members take their tiers and slots in a column. -/
def settleMembers (s : State) (t : Four) (col : Nat) (ks : List Four) (ws : List Wg) : List Wg :=
  bindMembers ((residents s t col).flatMap (·.members)) (List.zipWith (fun w k => { w with tier := k }) ws ks)

/-- Gated cores that receive a workgroup wake, and every core that receives one in a gated column (R316). -/
def wakeCores (s : State) (t : Four) (col : Nat) (ks : List Four) : State :=
  ks.foldl (fun s k => setCore s t col k fun c =>
    { c with waking := if (c.gated || (s.col t col).gated) && c.waking.isNone then some (s.tower t).time else c.waking }) s

/-! ### Starting a gang (R49 to R53) -/

/-- Strands of the roles, with the roles they stand in. -/
def Launch.strandRoles (l : Launch) : List (Nat × Role) :=
  (l.roles.mapIdx fun j r => List.replicate r.strands (j, r)).flatten

/-- A member as it starts. -/
def Launch.startWg (l : Launch) (now w pos : Nat) : Wg :=
  let sts := l.strandRoles
  let pc (r : Role) : DWord := l.code + BitVec.setWidth 64 r.entry + l.entryDelta.signExtend 64
  { w, pos, tier := 0,
    beads := (sts.mapIdx fun n x => (List.range 8).map fun p => Bead.start n p x.1 (pc x.2) l.param now).flatten,
    strands := sts.mapIdx fun n x => { id := n, role := x.1, blocks := BitVec.ofNat 8 (2 ^ x.2.blocks - 1), slot := 0 },
    nextGrp := sts.length, tile := if l.roles.any (·.tile) then some TileSet.start else none, closed := 0, copyErrs := [],
    valid := false, lease := none, resNs := 0, faulted := false, overrun := false, move := none }

/-- Gang `num` as it starts in a column, its beads after the acquires of its launch (R134, R136). -/
def freshGang (s : State) (l : Launch) (t : Four) (num col base : Nat) (ks : List Four) : Gang :=
  let ws := (List.range l.gangSize).map fun m => ((l.startWg (s.tower t).time (num * l.gangSize + m) m).updBeads (fun _ => true) fun b => { b with acq := s.nextId }).lastInTurn s.nextId
  { id := s.nextId, launch := l.id, num, tower := t, place := .resident col base, members := settleMembers s t col ks ws,
    copies := [], defers := [], pending := none, wake := false, reported := false }

/-- Gang `num` starts in a column; its scratch reads blank (log 1). -/
def startGang (s : State) (l : Launch) (t : Four) (num col base : Nat) (ks : List Four) : State :=
  let g := freshGang s l t num col base ks
  let s1 : State := { s with gangs := s.gangs ++ [g], nextId := s.nextId + 1 }
  let s2 := s1.updLaunch l.id fun l =>
    { l with towers := l.towers.upd t fun x => { x with todo := x.todo.filter (· != num), lastCol := some col } }
  let s3 := s2.updCol t col fun co => { co with scratch := co.scratch.paste base l.scratchAll [] }
  leftColumn s (wakeCores s3 t col ks) t col

/-! ### Restoring a gang (R338, R339) -/

/-- Elapsed time and instant change places, so that time spent saved does not count (R272). -/
def Bead.flipIssue (now : Nat) (b : Bead) : Bead := { b with lastIssue := now - b.lastIssue }

/-- Strands of a member that wait in RACQ.WAIT, in the order in which they began. -/
def racqWaiters (w : Wg) : List Nat :=
  let xs := (w.beads.filterMap fun b => match b.wait with
    | some x => if x.kind == .racq && b.live then some (x.order, b.home) else none
    | none => none)
  ((sortBy (fun a b => decide (a.1 ≤ b.1)) xs).map (·.2)).eraseDups

/-- Requests rejoin the queues of their cores, at the back (R270, R310). -/
def rejoinRacq (s : State) (g : Gang) (ws : List Wg) : State :=
  ws.foldl (fun s w => setCore s g.tower g.col w.tier fun c =>
    { c with racq := c.racq ++ (racqWaiters w).map fun h => (g.id, w.pos, h) }) s

/-- A gang's requests leave the queues of its column. -/
def leaveRacq (s : State) (t : Four) (col : Nat) (p : Nat × Nat × Nat → Bool) : State :=
  Four.all.foldl (fun s k => setCore s t col k fun c => { c with racq := c.racq.filter (!p ·) }) s

/-- FAIL's trap at a parked group (R329): code 0x09 at the same PC and lane. -/
def failGroup (c : Ctx) (s : State) : State :=
  match c.lead.park with
  | some p => takeTrapAt c (c.onGrp s (Bead.unpark (c.now s))) { code := 0x09, va := p.va, lane := p.lane } p.pc p.next
  | none => s

/-- The groups of resident gangs whose park a predicate picks. -/
def parkedGroups (s : State) (p : Gang → Park → Bool) : List Cursor :=
  ((allGroups s).filterMap fun x =>
    if (s.gang? x.1.gang).any fun g => x.2.park.any (p g) then some x.1 else none).eraseDups

/-- A reply, or its gang's restore, has reached the parked unit, and neither of its records waits for room (R326, R329). -/
def Park.freed (s : State) (g : Gang) (p : Park) : Bool :=
  (p.replay || p.fail) && !(s.tower g.tower).trapq.anyWaits (·.id == p.trap)
    && !(s.tower g.tower).fltq.anyWaits (·.id == p.record)

/-- One group's park ends: a trap where FAIL marked it, else the replay. -/
def releasePark (s : State) (cu : Cursor) : State :=
  withGroup s cu fun c s =>
    if c.lead.park.any (·.fail) then failGroup c s else c.onGrp s (Bead.unpark (c.now s))

/-- A held copy goes on. -/
def Copy.unheld (p : Copy) : Copy := { p with hold := none, again := false }

/-- A held copy that its gang's restore starts again, once the record that it raised does not wait for room (R245, R326). -/
def Copy.resumed (s : State) (t : Four) (p : Copy) : Copy :=
  if p.again && !p.hold.any (fun h => (s.tower t).fltq.anyWaits (·.id == h.1)) then p.unheld else p

def releaseCopies (s : State) : State :=
  { s with gangs := s.gangs.map fun g => if g.resident then { g with copies := g.copies.map (Copy.resumed s g.tower) } else g }

/-- Parked units whose reply has come go on (R329, R338, R339), and copies whose gang has been restored (R245). -/
def releaseParks (s : State) : State := (parkedGroups s (Park.freed s)).foldl releasePark (releaseCopies s)

/-- At its restore every parked unit of a gang is to be replayed, unless FAIL has marked it to trap (R338, R339). -/
def Bead.replaySoon (b : Bead) : Bead := { b with park := b.park.map fun p => { p with replay := true } }

/-- A held copy is saved as one that has not started (R245): no reply reaches it any more, and the restore starts it. -/
def Copy.saved (p : Copy) : Copy := { p with again := p.hold.isSome }

/-- The gang's restore is for wrap-up (R347): the launch was diverted in its tower while it was saved, so that a bead of it has met no
diversion. -/
def Gang.backToWrap (l : Launch) (x : LaunchTower) (g : Gang) : Bool :=
  x.diverted && l.wrap && g.members.any fun w => w.beads.any fun b => b.live && !b.diverted && b.divertDue.isNone

/-- What was kept back from a member by its gang's save: a diversion that has fallen meets the beads in their saved state, which
WHY.WAIT tells; then the replies kept for them take effect, and a stop that ends takes its diversion (R339, R345, R347). -/
def Wg.catchUp (l : Launch) (x : LaunchTower) (restored : Bool) (now : Nat) (w : Wg) : Wg :=
  (if x.diverted && l.wrap then w.updBeads (fun _ => true) (Bead.divertSoon l x.cause restored now) else w).mapStops
    (fun b => (b.stop.map (·.trap)).getD 0) fun other b => b.takeReply l restored other now

/-- A member as its gang's restore finds it, `wrapBack` where it is for wrap-up (R338, R339, R347); beads that wait at CLASP issue it
again (R184), and all have acquired (R134). -/
def Wg.restored (l : Launch) (x : LaunchTower) (wrapBack : Bool) (now stamp : Nat) (w : Wg) : Wg :=
  ((w.updBeads (fun _ => true) (Bead.flipIssue now)).catchUp l x wrapBack now).updBeads (fun _ => true) fun b =>
    { b.replaySoon.reissued with acq := stamp }

/-- THE RESTORE OF A SAVED GANG: placed and its context written back, its space's stale lines dropped, replies and a diversion
that have fallen taken, waits resumed from their records, parked units replayed (R132, R338, R339, R347). -/
def restoreGang (s : State) (l : Launch) (g : Gang) (col base : Nat) (ks : List Four) : State :=
  match g.place with
  | .resident .. => s
  | .saved _ img _ =>
    let now := (s.tower g.tower).time
    let x := l.towers.get g.tower
    let wrapBack := g.wrapBack || g.backToWrap l x
    let ws := (settleMembers s g.tower col ks g.members).map fun w => (w.restored l x wrapBack now s.nextId).lastInTurn s.nextId
    let g1 := { g with place := .resident col base, members := ws, pending := none, wake := false, wrapBack }
    let s1 := (freeSlot s g).updGang g.id fun _ => g1
    let s2 := s1.updCol g.tower col fun co => { co with scratch := co.scratch.paste base l.scratchAll img }
    let s3 := rejoinRacq (Machine.acquire s2 g.tower col l.asid 5) g1 ws
    let s4 := s3.updLaunch l.id fun l =>
      { l with towers := l.towers.upd g.tower fun x => { x with lastCol := some col } }
    (releaseParks (leftColumn s (wakeCores s4 g.tower col ks) g.tower col)).fresh

/-! ### What a launch would place next (R62, R63) -/

def Gang.queued (g : Gang) : Bool :=
  match g.place with
  | .saved _ _ q => q
  | .resident .. => false

inductive NextGang where
  | saved (g : Gang)
  | fresh (num : Nat)

/-- The lowest-numbered queued gang: of several that are parked and queued R63 gives no order, and the lowest %gang comes first (the
model's choice, log 85). -/
def lowestGang : List Gang → Option Gang
  | [] => none
  | g :: gs =>
    match lowestGang gs with
    | none => some g
    | some h => if g.num ≤ h.num then some g else some h

/-- Saved gangs that are queued come first, then unstarted ones in grid order (R63). -/
def nextGang (s : State) (l : Launch) (t : Four) : Option NextGang :=
  match lowestGang ((gangsIn s l t).filter Gang.queued) with
  | some g => some (.saved g)
  | none => ((l.towers.get t).todo.head?).map .fresh

/-- The launch's queue holds a slot (R293). -/
def queueMapped (s : State) (l : Launch) : Bool :=
  (s.tower l.tower).queues.any fun q => q.num == l.queue && (q.qstate == 2 || q.qstate == 3)

/-- The launch places gangs in a tower: not killed there, its queue mapped, normal service (R112, R293). -/
def Launch.mayPlace (s : State) (l : Launch) (t : Four) : Bool :=
  l.finished.isNone && (l.towers.get t).listed && (l.towers.get t).killed.isNone && queueMapped s l && !(s.tower t).boot.maint

/-- What the next gang needs: per member, and range-lock entries (R132). -/
def NextGang.needs (l : Launch) : NextGang → List CoreUse × Nat
  | .saved g => (g.members.map Wg.use, (g.copies.flatMap (·.locks)).length)
  | .fresh _ => (List.replicate l.gangSize l.need, 0)

/-- The launches for which a column gives gangs up (R340). -/
def evictedFor (s : State) (t : Four) (col : Nat) : List Nat :=
  ((residents s t col).filterMap fun g => match g.pending with | some (.save (.evict id)) => some id | _ => none).eraseDups

/-- The next gang of a launch fits a column once the gangs that are being evicted for it there have left. -/
def roomFor (s : State) (t : Four) (col id : Nat) : Bool :=
  match s.launch? id with
  | none => false
  | some l =>
    match nextGang s l t with
    | none => false
    | some n =>
      let s1 := ((residents s t col).filter (·.pending == some (.save (.evict id)))).foldl (fun s g => s.dropGang g.id) s
      (fitsColumn s1 t col (n.needs l).1 l.scratchAll (n.needs l).2).isSome

/-- What another gang takes in a column, from `s` to `s1`, leaves the room that is being made there for a launch (R340, log 48). -/
def roomKept (s s1 : State) (t : Four) (col : Nat) : Bool :=
  (evictedFor s t col).all fun id => !roomFor s t col id || roomFor s1 t col id

/-- The next gang stands in a column. -/
def occupy (s : State) (l : Launch) (t : Four) (n : NextGang) (col base : Nat) (ks : List Four) : State :=
  match n with
  | .saved g => s.updGang g.id fun g => { g with place := .resident col base, members := settleMembers s t col ks g.members }
  | .fresh num => { s with gangs := s.gangs ++ [freshGang s l t num col base ks] }

/-- Where in a column the next gang fits: scratch base, cores. -/
def fitFor (s : State) (l : Launch) (t : Four) (n : NextGang) (col : Nat) : Option (Nat × List Four) :=
  (fitsColumn s t col (n.needs l).1 l.scratchAll (n.needs l).2).filter fun x => roomKept s (occupy s l t n col x.1 x.2) t col

/-- The columns to look at, in order; under pack the one that freed the resources comes first (R62, R63). -/
def searchCols (s : State) (l : Launch) (t : Four) (freed : Option Nat) : List Nat :=
  let order := searchOrder s t l.spread (l.towers.get t).lastCol
  match freed with
  | some c => if !l.spread && order.contains c then c :: order else order
  | none => order

/-- Where the next gang fits: column, scratch base, cores. -/
def spotFor (s : State) (l : Launch) (t : Four) (n : NextGang) (freed : Option Nat) : Option (Nat × Nat × List Four) :=
  (searchCols s l t freed).findSome? fun c => (fitFor s l t n c).map fun x => (c, x)

def placeNext (s : State) (l : Launch) (t : Four) (n : NextGang) (x : Nat × Nat × List Four) : State :=
  match n with
  | .saved g => restoreGang s l g x.1 x.2.1 x.2.2
  | .fresh num => startGang s l t num x.1 x.2.1 x.2.2

/-- The priority with which it is placed: saved gangs of a diverted launch come before all other work (R347). -/
def NextGang.prio (l : Launch) (t : Four) : NextGang → Nat
  | .saved _ => if (l.towers.get t).diverted && l.wrap then 8 else l.prio
  | .fresh _ => l.prio

/-! ### Partial eviction (R340) -/

/-- Lists compared place by place. -/
def lexLe : List Int → List Int → Bool
  | a :: as, b :: bs => decide (a < b) || (a == b && lexLe as bs)
  | _, _ => true

/-- A save or a move of the gang, or of a member, is pending. -/
def Gang.isPending (g : Gang) : Bool := g.pending.isSome || g.members.any (·.move.isSome)

/-- The order of V(c): slack descending, priority ascending, later acceptance first, %gang descending. -/
def victimKey (now : Nat) (l : Launch) (g : Gang) : List Int :=
  (match l.slack now with | none => [0, 0] | some x => [1, -x]) ++ [(l.prio : Int), -(l.order : Int), -(g.num : Int)]

/-- Some bead of the gang takes a diversion at its next unit boundary: the gang is then in wrap-up (R345, R349). -/
def Gang.divertsNext (g : Gang) : Bool :=
  g.members.any fun w => w.beads.any fun b => b.live && b.divertDue.isSome && b.stop.isNone

/-- V(c) for a priority; a gang that would be in wrap-up when its save came about is no victim (R349). -/
def victims (s : State) (t : Four) (col prio : Nat) : List Gang :=
  let now := (s.tower t).time
  let key (g : Gang) : List Int := match s.launch? g.launch with | some l => victimKey now l g | none => []
  sortBy (fun a b => lexLe (key a) (key b)) ((residents s t col).filter fun g =>
    (s.launch? g.launch).any fun l => decide (l.prio < prio) && !l.gbar && !g.inWrap && !g.divertsNext && !g.isPending)

/-- The least n of R340 in a column: how many of V(c) leave. -/
def evictCount (s : State) (l : Launch) (t : Four) (n : NextGang) (col : Nat) : Option (Nat × List Gang) :=
  let v := victims s t col (n.prio l t)
  ((List.range (v.length + 1)).find? fun k =>
    (fitFor ((v.take k).foldl (fun s g => s.dropGang g.id) s) l t n col).isSome).map fun k => (k, v.take k)

/-- The column with the least count, the first in search order among equals. -/
def leastCount : List (Nat × List Gang) → Option (Nat × List Gang)
  | [] => none
  | x :: xs =>
    match leastCount xs with
    | none => some x
    | some y => if x.1 ≤ y.1 then some x else some y

/-- The cellar has runs for all these gangs. -/
def cellarHolds (s : State) (t : Four) : List Gang → Bool
  | [] => true
  | g :: gs =>
    match s.launch? g.launch with
    | none => false
    | some l =>
      match cellarRun s t l.id (g.granules l) with
      | none => false
      | some first => cellarHolds (takeSlot s t g.id first (g.granules l)) t gs

/-- A save begins. -/
def beginSave (cause : SaveCause) (s : State) (id : Nat) : State := s.updGang id fun g => { g with pending := some (.save cause) }

/-- The saves of an eviction for a launch are still under way in a tower. -/
def evictsFor (s : State) (id : Nat) (t : Four) : Bool :=
  s.gangs.any fun g => g.tower == t && g.pending == some (.save (.evict id))

/-- R340, for a launch whose next gang fits nowhere; its last eviction in the tower is over (log 48). -/
def evictGangs (s : State) (l : Launch) (t : Four) (n : NextGang) : State :=
  if evictsFor s l.id t then s
  else
    match leastCount ((searchCols s l t none).filterMap (evictCount s l t n)) with
    | none => s
    | some x => if cellarHolds s t x.2 then x.2.foldl (fun s g => beginSave (.evict l.id) s g.id) s else s

/-! ### Saves for parking (R65, R68) -/

/-- A bead that waits in the sense of R65. -/
def Bead.waits (b : Bead) : Bool :=
  b.stop.isNone && b.park.isNone && b.wait.any fun w =>
    w.kind == .bar || w.kind == .barw || w.kind == .sigw || w.kind == .racq || w.kind == .wpop || w.kind == .gbar

/-- A resident gang that R65 and R68 may touch: no save or move pending, not in wrap-up, no draining column. -/
def Gang.parkable (s : State) (g : Gang) : Bool :=
  g.resident && !g.isPending && !g.inWrap && !g.divertsNext && !(s.col g.tower g.col).draining
    && g.members.any fun w => w.beads.any Bead.live

/-- Every live strand of every member has waited for 50 µs (R65). -/
def Gang.idle (now : Nat) (g : Gang) : Bool :=
  g.members.all fun w => w.beads.all fun b => !b.live || (b.waits && b.wait.any fun x => decide (x.since + 50000 ≤ now))

/-- Some placement in the tower cannot be met. -/
def unmet (s : State) (t : Four) : Bool :=
  s.launches.any fun l => l.mayPlace s t &&
    match nextGang s l t with
    | some n => (spotFor s l t n none).isNone
    | none => false

/-- Every live strand of the gang waits in GBAR. -/
def Gang.atGbar (g : Gang) : Bool :=
  g.members.all fun w => w.beads.all fun b => !b.live || (b.waits && b.wait.any (·.kind == .gbar))

/-- The gang that R68 saves next, while no other of the launch is being saved: the lowest-numbered one that waits in GBAR, if
what the launch has reserved holds it. -/
def gbarNext (s : State) (l : Launch) (t : Four) : Option Gang :=
  if (gangsIn s l t).any Gang.saving then none
  else
    (sortBy (fun a b => decide (a.num ≤ b.num)) ((gangsIn s l t).filter fun g => g.parkable s && g.atGbar)).head?.filter fun g =>
      decide (slotGranules s t l.id + g.granules l ≤ (l.towers.get t).reserve)

/-- R68: while a GBAR launch has unstarted gangs that fit nowhere, its gangs that wait in GBAR are saved, one after another in
rising %gang order, into its reserved granules. -/
def gbarSaves (s : State) (l : Launch) (t : Four) : State :=
  match (l.towers.get t).todo.head?, gbarNext s l t with
  | some num, some g =>
    if l.gbar && l.mayPlace s t && (spotFor s l t (.fresh num) none).isNone then beginSave .park s g.id else s
  | _, _ => s

/-! ### Offers (R299) -/

/-- The order of R299. -/
def offerKey (s : State) (t : Four) (l : Launch) : List Int :=
  let p : Nat := match nextGang s l t with | some n => n.prio l t | none => 0
  [-(p : Int)] ++ (match l.slack (s.tower t).time with | some x => [0, x] | none => [1, 0]) ++ [(l.order : Int)]

/-- One launch places gangs until the next fits nowhere (R62, R63), then may evict. -/
def offerLaunch (t : Four) (freed : Option Nat) (id : Nat) : Nat → State → State
  | 0, s => s
  | fuel + 1, s =>
    match s.launch? id with
    | none => s
    | some l =>
      if !l.mayPlace s t then s
      else
        match nextGang s l t with
        | none => s
        | some n =>
          match spotFor s l t n freed with
          | some x => offerLaunch t freed id fuel (placeNext s l t n x)
          | none => evictGangs s l t n

/-- THE OFFER of a tower's resources to the launches with gangs to place; `freed` names the column that freed some. -/
def offer (s : State) (t : Four) (freed : Option Nat) : State :=
  let ls := sortBy (fun a b => lexLe (offerKey s t a) (offerKey s t b)) (s.launches.filter fun l => (nextGang s l t).isSome)
  ls.foldl (fun s l => offerLaunch t freed l.id ((l.towers.get t).todo.length + s.gangs.length + 1) s) s

/-! ### Register blocks given back (R271) -/

/-- The registers of named blocks, rising, that are pending in some bead of the strand (R271). -/
def pendingBlocks (w : Wg) (home : Nat) (bl : BitVec 8) : Option Nat :=
  (List.range 64).find? fun r => bl.getLsbD (r / 8) && w.beads.any fun b => b.home == home && b.pendV.getLsbD r

/-- R271: what the strand gives back goes to those who wait on the core, and what is left is offered (R299). -/
def execRrel (bl : BitVec 7) (s : State) : Res :=
  issue (.rrel bl) s fun c s =>
    let m := blocksOf bl
    if m &&& ~~~c.blocks != 0 then takeTrap c s { code := 0x0F, reg := 0xFF }
    else
      match pendingBlocks c.wg c.lead.home m with
      | some r => takeTrap c s { code := 0x05, reg := BitVec.ofNat 8 r }
      | none =>
        let s1 := s.updWg c.cur.gang c.cur.member fun w =>
          { w with strands := w.strands.map fun st => if st.id == c.lead.home then { st with blocks := st.blocks &&& ~~~m } else st }
        offer (serveCore (c.done s1) c.tower c.col c.wg.tier) c.tower (some c.col)

/-! ### GBAR (R67, R68, R233) -/

/-- R67, R233, R349. -/
def execGbar (s : State) : Res :=
  issue .gbar s fun c s =>
    if !c.l.gbar then takeTrap c s { code := 0x09 }
    else if c.lead.wait.any (·.kind == .gbar) then recheckGbar c s
    else if !c.released s 4 then c.holdIssue s .gbar
    else
      let s1 := c.onGrp s fun b => { b with gbars := b.gbars + 1, rel := s.nextId }
      if c.lead.diverted then c.done (c.acquire (announceGbar s1 c.l) 4)
      else announceGbar (c.waitWord s1 .gbar .gbar false 4 0 0 (fun _ => 0) fun b => BitVec.ofNat 64 b.gbars) c.l

/-! ### Saving (R335) -/

/-- The stores of its space in the column that a gang leaves are brought home first, so that it goes on seeing those that it has
made or read there (R109). -/
def pushGang (s : State) (g : Gang) (asid : Half) : State :=
  (s.stores.filter fun r => r.tower == g.tower && r.col == g.col && r.asid == asid).foldl
    (fun s r => pushStores s r.tower r.col r.asid r.va r.pa) s

/-- A migration point (R164, R309): at a unit boundary, no counted operation in flight. -/
def Bead.atMigration (b : Bead) : Bool := (!b.live || b.atBoundary) && (b.lops ++ b.sops ++ b.tops).all (·.done)

def Wg.atMigration (w : Wg) : Bool := w.beads.all Bead.atMigration

/-- Steps 1 to 3 of R335 are over. -/
def Gang.mayLeave (g : Gang) : Bool := g.members.all Wg.atMigration && g.copies.all (·.hold.isSome)

/-- A save's count (R334). -/
def countSave (cause : SaveCause) (l : Launch) : Launch :=
  match cause with
  | .evict _ => { l with evicts := l.evicts + 1 }
  | _ => { l with parks := l.parks + 1 }

/-- The save ends with the gang queued (R66, R306, R340, R347): for any cause but parking at once; a parked one when a wait of it
was met, or has ended, while the save went on, or when its launch is diverted. -/
def Gang.leavesQueued (l : Launch) (cause : SaveCause) (g : Gang) : Bool :=
  cause != .park || g.wake || ((l.towers.get g.tower).diverted && l.wrap)
    || g.members.any fun w => w.beads.any fun b => b.live && (!b.waits || b.wait.any (·.sat.isSome))

/-- A member as it is saved: units held at issue stand at their first word (R148), no layer move is pending. -/
def Wg.saved (now : Nat) (w : Wg) : Wg :=
  { (w.updBeads (fun _ => true) fun b => b.settleUnit.flipIssue now) with move := none }

/-- Steps 4 and 5 of R335: the gang lies in its slot, its column resources are free. -/
def saveGang (s : State) (l : Launch) (g : Gang) (cause : SaveCause) (first : Nat) : State :=
  let col := g.col
  let img := (s.col g.tower col).scratch.slice g.scrBase l.scratchAll
  let num := freeSlotNumber (s.tower g.tower)
  let g1 := { g with place := .saved num img (g.leavesQueued l cause), pending := none, wake := false
                     members := g.members.map (Wg.saved (s.tower g.tower).time), copies := g.copies.map Copy.saved }
  let s0 := pushGang s g l.asid
  let s1 := (takeSlot s0 g.tower g.id first (g.granules l)).updGang g.id fun _ => g1
  let s2 := leaveRacq (s1.updLaunch l.id (countSave cause)) g.tower col fun k => k.1 == g.id
  let s3 := leftColumn s s2 g.tower col
  match (l.towers.get g.tower).killed with
  | some by_ => checkDone (discardGang by_ s3 l g1) l.id
  | none => s3

/-- A lower-numbered gang of the launch is still to be saved in the tower (R68). -/
def savesBefore (s : State) (l : Launch) (g : Gang) : Bool :=
  l.gbar && (gangsIn s l g.tower).any fun h => decide (h.num < g.num) && h.pending == some (.save .park)

/-- A workgroup of the gang is on a core that Trip has stopped (R306). -/
def Gang.tripped (s : State) (g : Gang) : Bool := g.members.any fun w => ((s.col g.tower g.col).cores.get w.tier).trip

/-- A SAVE IS GIVEN UP: what it kept back from the gang takes effect now (R339, R349, R359). One for Trip is not, and another goes on
as one for Trip while a core of the gang is stopped (R306). -/
def State.endSave (s : State) (id : Nat) : State :=
  match s.gang? id with
  | none => s
  | some g =>
    match s.launch? g.launch, g.pending with
    | some l, some (.save cause) =>
      if cause == .trip then s
      else if g.tripped s then beginSave .trip s id
      else
        let x := l.towers.get g.tower
        let s1 := s.updGang id fun g => { g with pending := none, wake := false }
        match x.killed with
        | some by_ => killGang by_ l s1 { g with pending := none }
        | none =>
          leftColumn s (s1.updGang id fun g =>
            { g with members := g.members.map (Wg.catchUp l x g.wrapBack (s.tower g.tower).time) }) g.tower g.col
    | _, _ => s

/-- What follows a save (R63, R340): the launch that it made room for places its gang once its last eviction is over; then the
offer. -/
def afterSave (s : State) (t : Four) (col : Nat) (cause : SaveCause) : State :=
  match cause with
  | .evict id => offer (if evictsFor s id t then s else offerLaunch t (some col) id 1 s) t (some col)
  | _ => offer s t (some col)

/-- R335, R63, R66, R68; a gang that has entered wrap-up is saved for Trip only (R349). -/
def execGangSaveComplete (gang : Nat) (s : State) : Res :=
  .next <|
    match s.gang? gang with
    | none => s
    | some g =>
      match s.launch? g.launch, g.pending with
      | some l, some (.save cause) =>
        if cause != .trip && g.inWrap then offer (s.endSave gang) g.tower none
        else
          match cellarRun s g.tower l.id (g.granules l) with
          | some first =>
            if g.resident && g.mayLeave && !(cause == .park && savesBefore s l g) then
              afterSave (saveGang s l g cause first) g.tower g.col cause
            else s
          | none => s
      | _, _ => s

/-- R65. -/
def execParkGang (gang : Nat) (s : State) : Res :=
  .next <|
    match s.gang? gang with
    | none => s
    | some g =>
      match s.launch? g.launch with
      | some l =>
        if g.parkable s && g.idle (s.tower g.tower).time && unmet s g.tower
            && (cellarRun s g.tower l.id (g.granules l)).isSome then beginSave .park s gang
        else s
      | none => s

/-- Saved gangs of diverted launches come before the work of any other launch (R347). -/
def offerUrgent (s : State) (t : Four) (id : Nat) : State :=
  (s.launches.filter fun l => l.id != id && match nextGang s l t with | some n => n.prio l t == 8 | none => false).foldl
    (fun s l => offerLaunch t none l.id (s.gangs.length + 1) s) s

/-- R66, R338, R347. -/
def execGangRestore (gang : Nat) (s : State) : Res :=
  .next <|
    match s.gang? gang with
    | none => s
    | some g =>
      match s.launch? g.launch with
      | none => s
      | some l =>
        match nextGang s l g.tower with
        | some (.saved h) =>
          if h.id == gang && l.mayPlace s g.tower then
            let s1 := offerUrgent s g.tower l.id
            match spotFor s1 l g.tower (.saved h) none with
            | some x => placeNext s1 l g.tower (.saved h) x
            | none => evictGangs s1 l g.tower (.saved h)
          else s
        | _ => s

/-! ### Retirement (R120, R126, R128, R247) -/

/-- Every strand has ended, its operations, copies, products, BGEMVs and stores with it (R128, R183). -/
def mayRetire (s : State) (g : Gang) : Bool :=
  g.resident && g.copies.isEmpty && g.members.all (fun w => !w.beads.any Bead.busy)
    && !s.prods.any (·.gang == g.id) && !s.bgemvs.any (·.gang == g.id) && !s.stores.any (·.gang == g.id)

/-- One record of the retirement for a workgroup, which counts as faulted. -/
def retireFault (l : Launch) (g : Gang) (kind : Byte) (s : State) (w : Nat) (va : DWord) (cause need : Byte) : State :=
  (reportFault s g.tower kind cause need l (some g) g.col va w 1).updGang g.id fun g =>
    { g with members := g.members.map fun x => if x.w == w then { x with faulted := true } else x }

/-- The first touched word of a line. -/
def AccLine.firstVa (l : AccLine) : DWord :=
  l.va + BitVec.ofNat 64 (4 * ((l.places.find? l.touched.getLsbD).getD 0))

/-- What still faults after the gang's settle goes to the fault ring (R126): its records, then its faulted lines, in whatever
column of the tower they stand. -/
def retireRecords (s : State) (l : Launch) (g : Gang) : State :=
  let ds := ((s.gang? g.id).map (·.defers)).getD []
  let s1 := ds.foldl (fun s d => retireFault l g 6 s d.w d.va (confAtHome s l.asid d.va .write).cause 2) s
  let mine (x : AccLine) : Bool := x.faulted && x.gang == g.id
  let ls := (s1.tower g.tower).cols.flatMap fun co => co.acc.filter mine
  let s2 := ls.foldl (fun s x => retireFault l g 6 s x.w x.firstVa (confAtHome s l.asid x.va .write).cause 2) s1
  s2.updTower g.tower fun tw => { tw with cols := tw.cols.map fun co => { co with acc := co.acc.filter (!mine ·) } }

/-- Copy errors that no CWAIT reported (R247): per workgroup, the lowest address. -/
def retireCopies (l : Launch) (g : Gang) (s : State) (w : Wg) : State :=
  let va := lowestVa (w.copyErrs.map (·.va))
  match w.copyErrs.find? (·.va == va) with
  | some e => retireFault l g 9 s w.w e.va e.cause e.need
  | none => s

/-- The retirement's reports (R126, R128, R247): the settle at device scope on behalf of the gang, and what still faults. -/
def reportRetire (s : State) (l : Launch) (g : Gang) : State :=
  if g.reported then s
  else
    let s1 := retryDefers (evictAll s g.tower g.col fun x => x.asid == l.asid) g l.asid
    (g.members.foldl (retireCopies l g) (retireRecords s1 l g)).updGang g.id fun g => { g with reported := true }

/-- R128: the settle, the reports, and the gang's leaving once none of them waits for room (R326). -/
def execGangRetire (gang : Nat) (s : State) : Res :=
  .next <|
    match s.gang? gang with
    | none => s
    | some g =>
      match s.launch? g.launch with
      | none => s
      | some l =>
        if !mayRetire s g then s
        else
          let s1 := applyGang s gang
          if s1.reds.any (·.gang == gang) then s1
          else
            let s3 := reportRetire s1 l g
            if (s3.tower g.tower).fltq.anyWaits (fun r => r.gang == gang && (r.code == 6 || r.code == 9)) then s3
            else
              match s3.gang? gang with
              | none => s3
              | some g1 =>
                let s4 := ((countGang s3 g1).endMove gang).dropGang gang
                let s5 := offer (announceGbar (leftColumn s3 s4 g.tower g.col) l) g.tower (some g.col)
                checkDone s5 l.id

/-! ### Placement forwarded (R298) -/

/-- R298: the tower's list of gangs arrives, and they are placed. -/
def execPlacementForward (t : Four) (launch : Nat) (s : State) : Res :=
  .next <|
    match s.launch? launch with
    | some l =>
      if l.finished.isSome || (l.towers.get t).listed then s
      else offer (s.updLaunch launch fun l => { l with towers := l.towers.upd t fun x => { x with listed := true } }) t none
    | none => s

/-! ### Restringing (R46, log 13) -/

/-- A bead that may be restrung: it stands at a unit boundary and waits for nothing. -/
def Bead.loose (b : Bead) : Bool :=
  b.live && b.pfx.isEmpty && b.wait.isNone && b.stop.isNone && b.park.isNone && b.divertDue.isNone && !b.dying

/-- What R46 asks of the chosen beads. -/
def mayRestring (s : State) (l : Launch) (g : Gang) (w : Wg) (bs : List Bead) : Bool :=
  let blocksOf (b : Bead) : Option (BitVec 8) := (w.strands.find? (·.id == b.home)).map (·.blocks)
  l.restring && bs.all Bead.loose && bs.any (fun b => parted w b)
    && (bs.map (·.pos)).eraseDups.length == bs.length
    && (bs.map fun b => (b.pc, b.fmt)).eraseDups.length == 1 && (bs.map blocksOf).eraseDups.length == 1
    && bs.all (fun b => !(l.roles[b.role]?).any (·.tile))
    && decide ((coreUse s g.tower g.col w.tier).entries + 1 ≤ 48)

/-- The chosen beads leave their groups for a fresh strand, and join the end of the order of its slot (R64, log 5). -/
def Wg.restrung (w : Wg) (here : List Wg) (picked : List (Nat × Nat)) : Wg :=
  let id := (w.strands.map (·.id)).foldl max 31 + 1
  let q := Quad.mapIdx (fun n _ => boundStrands here w.tier n) (Quad.fill ())
  let role := ((w.beads.find? fun b => picked.contains (b.home, b.pos)).map (·.role)).getD 0
  { (w.updBeads (fun b => picked.contains (b.home, b.pos)) fun b =>
      { b with entry := id, grp := w.nextGrp, turn := ((here.flatMap (·.beads)).map (·.turn)).foldl max b.turn }) with
    strands := w.strands ++ bindStrands q [{ id, role, blocks := 0, slot := 0 }], nextGrp := w.nextGrp + 1 }

/-- R46: beads are named by home strand and position. -/
def execRestring (gang member : Nat) (beads : List (Nat × Nat)) (s : State) : Res :=
  .next <|
    match s.gang? gang with
    | none => s
    | some g =>
      match s.launch? g.launch, g.member? member with
      | some l, some w =>
        let bs := w.beads.filter fun b => beads.contains (b.home, b.pos)
        if g.resident && g.pending.isNone && mayRestring s l g w bs then
          s.updWg gang member fun w => w.restrung ((residents s g.tower g.col).flatMap (·.members)) beads
        else s
      | _, _ => s

end Sys2Proof.Machine
end

