-- ==== Sys2Proof/Machine/Launch.lean ====
section
/-!
DEFINITION. The acceptance of a launch (R54 to R58, R67, R136, R165, R166, R297, R298, R300).
-/

namespace Sys2Proof.Machine

/-! ### Reads of the launch unit (R57, check 1) -/

/-- n bytes, unless the range faults. -/
def readPart (asid : Half) (pin : Bool) (s : State) (va : DWord) (n : Nat) : Option (State × List Byte) :=
  match rangeFault s asid va n .read pin with
  | some _ => none
  | none => some (sysRead s asid va n)

/-- Several ranges, unless one faults. -/
def readParts (asid : Half) : State → List (DWord × Nat) → Option (State × List (List Byte))
  | s, [] => some (s, [])
  | s, (va, n) :: rest =>
    match readPart asid false s va n with
    | none => none
    | some (s1, bs) => (readParts asid s1 rest).map fun r => (r.1, bs :: r.2)

/-- A patch entry (R165). -/
structure PatchEntry where
  word : Nat
  off : Nat
  width : Nat
  pad : Nat
deriving DecidableEq, Repr

def patchEntries (bs : List Byte) : List PatchEntry :=
  (List.range (bs.length / 8)).map fun j =>
    { word := field bs (8 * j) 4, off := field bs (8 * j + 4) 2, width := field bs (8 * j + 6) 1, pad := field bs (8 * j + 7) 1 }

/-- What acceptance reads: header, patch table, patched words with their values, shape values, placement map. -/
structure LaunchReads where
  hdr : List Byte
  patches : List PatchEntry
  words : List Word
  vals : List Nat
  shapes : List Byte
  map : List Byte
deriving Repr

/-- Offsets of the header (R54). -/
def hdrU (h : List Byte) (off n : Nat) : Nat := field h off n

/-- A VA some bytes on. -/
def vaPlus (va : DWord) (n : Nat) : DWord := va + BitVec.ofNat 64 n

/-- The reads in order: header, patch table, the words it names inside the code with their values, shapes, map. Of a header or
a map that check 2 or 6 refuses anyway, at most 1,024 patch entries and 4,096 map entries are read, and no word outside the
code; the value of every entry read is, whatever its width (log 66): so a fault beyond them is not a HEADER_FAULT, and one at such a
value is. Their fills are charged to no launch (the model's choice, log 47). -/
def launchReads (s : State) (asid : Half) (nb : List Byte) : Option (State × LaunchReads) :=
  let hdrVa := BitVec.ofNat 64 (field nb 0x20 8)
  let param := BitVec.ofNat 64 (field nb 0x28 8)
  let pmap := BitVec.ofNat 64 (field nb 0x40 8)
  match readPart asid false s hdrVa 640 with
  | none => none
  | some (s1, h) =>
    match readPart asid false s1 (vaPlus hdrVa (hdrU h 0x28 4)) (8 * min (hdrU h 0x24 2) 1024) with
    | none => none
    | some (s2, pt) =>
      let ps := patchEntries pt
      let inside := ps.map fun p => decide (p.word < hdrU h 0xC 4 / 4)
      match readParts asid s2 (ps.map fun p =>
          (vaPlus hdrVa (hdrU h 8 4 + 4 * p.word), if p.word < hdrU h 0xC 4 / 4 then 4 else 0)) with
      | none => none
      | some (s3, ws) =>
        match readParts asid s3 (ps.map fun p => (vaPlus param p.off, (p.width + 7) / 8)) with
        | none => none
        | some (s4, vs) =>
          let so := hdrU h 0x1C 4
          match if so = 0xFFFFFFFF then some (s4, zeros 16) else readPart asid false s4 (vaPlus param so) 16 with
          | none => none
          | some (s5, sh) =>
            match if pmap = 0 then some (s5, []) else readPart asid true s5 pmap 8 with
            | none => none
            | some (s6, m0) =>
              match if pmap = 0 then some (s6, []) else readPart asid true s6 pmap (8 + min (field m0 0 4) 4096) with
              | none => none
              | some (s7, m) =>
                some (s7, { hdr := h, patches := ps, vals := vs.map leNat, shapes := sh, map := m,
                            words := (ws.zip inside).map fun x => if x.2 then BitVec.ofNat 32 (leNat x.1) else 0 })

/-! ### Header checks (R54, R57 check 2, R166) -/

def Role.ofBytes (h : List Byte) (j : Nat) : Role :=
  { entry := BitVec.ofNat 32 (field h (0x30 + 16 * j) 4), strands := field h (0x34 + 16 * j) 1,
    blocks := field h (0x35 + 16 * j) 1, tile := field h (0x36 + 16 * j) 1 % 2 == 1 }

def hdrRoles (h : List Byte) : List Role := (List.range (min (hdrU h 0x11 1) 4)).map (Role.ofBytes h)

/-- A bucket descriptor (R54). -/
structure Bucket where
  bounds : List (Nat × Nat)
  delta : Word
  ngx : Nat
  ngy : Nat
  ngz : Nat
  padw : Nat
  padh : Nat
deriving DecidableEq, Repr

def Bucket.ofBytes (h : List Byte) (b : Nat) : Bucket :=
  let o := 0x80 + 64 * b
  { bounds := (List.range 4).map fun k => (field h (o + 8 * k) 4, field h (o + 8 * k + 4) 4),
    delta := BitVec.ofNat 32 (field h (o + 0x20) 4), ngx := field h (o + 0x24) 4, ngy := field h (o + 0x28) 2,
    ngz := field h (o + 0x2A) 2, padw := field h (o + 0x2C) 1, padh := field h (o + 0x2D) 1 }

def hdrBuckets (h : List Byte) : List Bucket := (List.range (min (hdrU h 0x12 1) 8)).map (Bucket.ofBytes h)

/-- Bytes of a range all zero. -/
def zeroAt (bs : List Byte) (off n : Nat) : Bool := ((bs.drop off).take n).all (· == 0)

/-- Reserved bytes of a header, unused descriptors among them. -/
def hdrReserved (h : List Byte) : Bool :=
  let nr := hdrU h 0x11 1
  let nb := hdrU h 0x12 1
  zeroAt h 0x13 1 && zeroAt h 0x26 2 && zeroAt h 0x2C 4 && zeroAt h 0x70 16
    && ((List.range 4).all fun j => if j < nr then zeroAt h (0x37 + 16 * j) 9 else zeroAt h (0x30 + 16 * j) 16)
    && (List.range 8).all fun b => if b < nb then zeroAt h (0xAE + 64 * b) 18 else zeroAt h (0x80 + 64 * b) 64

/-- A code offset that may be an entry. -/
def entryOk (size : Nat) (n : Int) : Bool := n % 4 == 0 && decide (0 ≤ n) && decide (n < size)

/-- The word has the form that its PWIDTH states (R165). -/
def patchForm (w : Word) (width : Nat) : Bool :=
  let maj := (w.extractLsb' 26 6).toNat
  (width == 8 && (maj == 3 || maj == 7)) || (width == 20 && maj == 0) || (width == 24 && maj == 0x3F && w.extractLsb' 24 2 == 0)

/-- R165, R166. -/
def patchesOk (r : LaunchReads) : Bool :=
  (r.patches.map (·.word)).eraseDups.length == r.patches.length &&
    (r.patches.zip r.words).all fun x =>
      x.1.pad == 0 && decide (x.1.word < hdrU r.hdr 0xC 4 / 4) && patchForm x.2 x.1.width
        && decide (x.1.off + (x.1.width + 7) / 8 ≤ hdrU r.hdr 0x18 4)

/-- Check 2 of R57. With NPATCH 0 there is no table, and PATCH_OFF may be unaligned (the model's choice, log 66). -/
def headerOk (r : LaunchReads) : Bool :=
  let h := r.hdr
  let size := hdrU h 0xC 4
  let deltas : List Int := match hdrBuckets h with | [] => [0] | bs => bs.map (·.delta.toInt)
  let so := hdrU h 0x1C 4
  let wrap := hdrU h 6 2 / 4 % 2
  hdrU h 0 4 == 0x315A464B && hdrU h 4 2 == 1 && decide (hdrU h 6 2 < 8) && hdrU h 8 4 % 4 == 0
    && decide (0x280 ≤ hdrU h 8 4) && size % 4 == 0 && decide (1 ≤ hdrU h 0x10 1) && decide (hdrU h 0x10 1 ≤ 4)
    && decide (1 ≤ hdrU h 0x11 1) && decide (hdrU h 0x11 1 ≤ 4) && decide (hdrU h 0x12 1 ≤ 8)
    && decide (hdrU h 0x14 4 ≤ 2621440) && decide (hdrU h 0x18 4 ≤ 65536)
    && (so == 0xFFFFFFFF || (so % 4 == 0 && decide (so + 16 ≤ hdrU h 0x18 4)))
    && (if wrap = 1 then entryOk size (hdrU h 0x20 4) else hdrU h 0x20 4 == 0)
    && decide (hdrU h 0x24 2 ≤ 1024) && (hdrU h 0x24 2 == 0 || hdrU h 0x28 4 % 8 == 0)
    && hdrReserved h
    && ((List.range (min (hdrU h 0x11 1) 4)).all fun j => decide (field h (0x36 + 16 * j) 1 < 2))
    && ((hdrRoles h).all fun x =>
      decide (1 ≤ x.strands) && decide (x.strands ≤ 32) && decide (1 ≤ x.blocks) && decide (x.blocks ≤ 8)
        && entryOk size x.entry.toNat && deltas.all fun d => entryOk size (x.entry.toNat + d))
    && deltas.all (fun d => d % 4 == 0)
    && decide (((hdrRoles h).map (·.strands)).foldl (· + ·) 0 ≤ 32)
    && ((hdrBuckets h).all fun b => decide (b.padw ≤ 64) && decide (b.padh ≤ 64))
    && patchesOk r

/-! ### LAUNCH fields (R55, R57 check 3) and buckets (R58) -/

/-- The completion record as acceptance finds it (R297). -/
def completionHit (s : State) (asid : Half) (nb : List Byte) : Option Hit :=
  let va := BitVec.ofNat 64 (field nb 0x60 8)
  if va.toNat % 128 ≠ 0 || !canonicalVa va then none
  else match pinned true (confL2 s asid va .write) with
    | .ok h => some h
    | _ => none

/-- The fields of R55 in range and the reserved ones zero. -/
def launchFieldsOk (nb : List Byte) : Bool :=
  field nb 0x28 8 % 8 == 0 && field nb 0x30 4 != 0 && field nb 0x34 2 != 0 && field nb 0x36 2 != 0 && field nb 0x38 1 != 0
    && decide (field nb 0x39 1 < 8) && decide (field nb 0x3C 4 < 4) && zeroAt nb 0x54 4 && zeroAt nb 0x68 24

def shapeOf (sh : List Byte) (k : Nat) : Nat := field sh (4 * k) 4

def Bucket.matches (sh : List Byte) (b : Bucket) : Bool :=
  (b.bounds.mapIdx fun k x => decide (x.1 ≤ shapeOf sh k) && decide (shapeOf sh k ≤ x.2)).all id

/-- The lowest-numbered matching bucket. -/
def bucketOf (r : LaunchReads) : Option (Nat × Bucket) :=
  ((hdrBuckets r.hdr).mapIdx fun k b => (k, b)).find? fun x => x.2.matches r.shapes

/-- A nonzero count of the bucket replaces the launch's. -/
def orLaunch (b l : Nat) : Nat := if b = 0 then l else b

/-! ### Fit in an empty column (R57 checks 7 and 8, R67) -/

/-- Gangs of the launch that an empty column holds, at most `fuel`. -/
def emptyHolds (l : Launch) : Nat → Quad CoreUse → Nat → Nat → Nat
  | 0, _, _, _ => 0
  | fuel + 1, u, slots, scr =>
    let needs := List.replicate l.gangSize l.need
    if slots < l.gangSize ∨ scr < l.scratchAll then 0
    else
      match assignCores (fun _ => true) u needs with
      | none => 0
      | some ks =>
        1 + emptyHolds l fuel (ks.foldl (fun q k => q.upd k (·.add l.need)) u) (slots - l.gangSize) (scr - l.scratchAll)

def columnHolds (s : State) (t : Four) (l : Launch) (col : Nat) : Nat :=
  emptyHolds l 32 (Quad.fill CoreUse.zero) 32 (s.col t col).scratchBytes

def presentCols (s : State) (t : Four) : List Nat := (List.range 40).filter (s.tower t).present

/-- Gangs of the launch that go to a tower (R56). -/
def gangsFor (map : List Four) (total : Nat) (t : Four) : List Nat :=
  (List.range total).filter fun g => map[g % map.length]? == some t

/-- Check 7: in each tower that receives gangs, some present column could hold one. -/
def fitsEmpty (s : State) (l : Launch) : Bool :=
  Four.all.all fun t => (l.towers.get t).todo.isEmpty || (presentCols s t).any fun c => decide (1 ≤ columnHolds s t l c)

/-- Cellar granules of one gang, at most (R67). -/
def gbarGranules (l : Launch) : Nat :=
  let strands := (l.roles.map (·.strands)).foldl (· + ·) 0
  let tiles := if l.roles.any (·.tile) then l.gangSize else 0
  (4 + l.gangSize * (14 * strands) + 577 * tiles + 63) / 64 + granulesFor l.scratchAll

/-- Gangs that the tower's columns hold with no other work (R67). -/
def towerHolds (s : State) (l : Launch) (t : Four) : Nat :=
  ((presentCols s t).filter fun c => !(s.col t c).draining).foldl (fun n c => n + columnHolds s t l c) 0

/-- Check 8 (R67). -/
def gbarLegal (s : State) (l : Launch) : Bool :=
  Four.all.all fun t =>
    decide ((l.towers.get t).todo.length ≤ towerHolds s l t + cellarFree s t l.id / gbarGranules l)

/-- The granules that each tower reserves (R67). -/
def gbarReserve (s : State) (l : Launch) (t : Four) : Nat :=
  ((l.towers.get t).todo.length - towerHolds s l t) * gbarGranules l

/-! ### The launch (R297) -/

/-- What acceptance knows of the node. -/
structure Accepting where
  t : Four
  q : Queue
  ctr : Word
  bytes : List Byte

/-- The launch that the reads describe. -/
def buildLaunch (s : State) (a : Accepting) (r : LaunchReads) (h : Hit) (map : List Four) : Launch :=
  let hd := r.hdr
  let nb := a.bytes
  let b := bucketOf r
  let bd : Bucket := match b with | some x => x.2 | none => Bucket.ofBytes (zeros 640) 0
  let ngx := orLaunch bd.ngx (field nb 0x30 4)
  let ngy := orLaunch bd.ngy (field nb 0x34 2)
  let ngz := orLaunch bd.ngz (field nb 0x36 2)
  let nstage := field nb 0x38 1
  let gangs := ngx * ngy * ngz * nstage / hdrU hd 0x10 1
  let flags := hdrU hd 6 2
  { id := s.nextId, tower := a.t, queue := a.q.num, node := a.ctr, slot := a.q.slot.getD 0xFFFF, asid := a.q.asid,
    restring := flags % 2 == 1, gbar := flags / 2 % 2 == 1, wrap := flags / 4 % 2 == 1,
    code := vaPlus (BitVec.ofNat 64 (field nb 0x20 8)) (hdrU hd 8 4), codeSize := hdrU hd 0xC 4,
    gangSize := hdrU hd 0x10 1, scratch := hdrU hd 0x14 4, wrapEntry := BitVec.ofNat 32 (hdrU hd 0x20 4),
    roles := hdrRoles hd, entryDelta := bd.delta, ngx, ngy, ngz, nstage, prio := field nb 0x39 1,
    spread := field nb 0x3C 4 % 2 == 1, divertOnTrap := field nb 0x3C 4 / 2 % 2 == 1,
    deadline := BitVec.ofNat 64 (field nb 0x48 8), wrapBudget := BitVec.ofNat 32 (field nb 0x50 4),
    expected := BitVec.ofNat 64 (field nb 0x58 8), completion := BitVec.ofNat 64 (field nb 0x60 8),
    crPa := h.pa, crAttr := h.attr, param := BitVec.ofNat 64 (field nb 0x28 8),
    shapes := Quad.mapIdx (fun k _ => BitVec.ofNat 32 (shapeOf r.shapes k.val)) (Quad.fill ()),
    bucket := match b with | some x => x.1 | none => 0, padw := bd.padw, padh := bd.padh,
    patches := (r.patches.zip r.vals).map fun x => (x.1.word, x.1.width, BitVec.ofNat 32 (x.2 % 2 ^ x.1.width)),
    map, order := s.nextId, accept := BitVec.ofNat 64 (s.tower a.t).time, hostKill := false, deviceKill := false,
    towers := Quad.mapIdx (fun u _ =>
      { todo := gangsFor map gangs u, listed := u == a.t, lastCol := none, diverted := false, cause := 0, divertDue := none,
        killed := none, reserve := 0 }) (Quad.fill ()),
    ncomp := 0, ndvalid := 0, ndinvalid := 0, nunstart := 0, noverrun := 0, nfault := 0, lmoves := 0, cmoves := 0, parks := 0,
    evicts := 0, charges := Charges.none, finished := none }

/-- The placement map's entries as towers (R56). -/
def mapOf (a : Accepting) (m : List Byte) : List Four :=
  if m.isEmpty then [a.t] else (m.drop 8).map fun e => Four.ofNat e.toNat

/-- The first of checks 2 to 8 that fails (R57): its code of R282, none when the launch is legal. -/
def launchRefusal (s : State) (a : Accepting) (r : LaunchReads) (h : Option Hit) (l : Launch) : Option Byte :=
  let m := r.map
  let count := field m 0 4
  if !headerOk r then some 2
  else if !launchFieldsOk a.bytes || h.isNone then some 3
  else if !(hdrBuckets r.hdr).isEmpty && (bucketOf r).isNone then some 4
  else if l.total % l.gangSize ≠ 0 then some 5
  else if !m.isEmpty && (count == 0 || decide (4096 < count) || !zeroAt m 4 4 || (m.drop 8).any fun e => decide (4 ≤ e.toNat)) then
    some 6
  else if l.map.any fun u => (s.tower u).boot.state == 6 then some 6
  else if !fitsEmpty s l then some 7
  else if l.gbar && !gbarLegal s l then some 8
  else none

/-- A refused launch (R57, R300): its record, where there is one to write, and its node. Nothing is charged to it (log 47). -/
def refuseLaunch (s : State) (a : Accepting) (h : Option Hit) (code : Byte) : State :=
  let now := (s.tower a.t).time
  let bytes := [6, code] ++ zeros 2 ++ leBytes 4 1 ++ leBytes 8 now ++ zeros 32
    ++ leBytes 8 0 ++ leBytes 8 (Config.energy Charges.none.toList s.nextId).toNat ++ zeros 64
  let s1 := match h with
    | some x => sysWriteHit s a.q.asid (BitVec.ofNat 64 (field a.bytes 0x60 8)) bytes x
    | none => s
  (s1.updNode a.t a.q.num a.ctr (Node.finish 4 (code.setWidth 16))).fresh

/-- The slot's phase changes: the slot's own tower and every named one acquire (R136, R297, R298), for the incoming launch. -/
def changePhase (s : State) (a : Accepting) (id : Nat) (map : List Four) (phase : Half) : State :=
  match a.q.slot with
  | none => s
  | some n =>
    if (s.tower a.t).phases.getD n 0 == phase then s
    else
      ((a.t :: map).eraseDups.foldl (fun s u => phaseAcquire s u a.q.asid (some id)) s).updTower a.t fun tw =>
        { tw with phases := updAt tw.phases n fun _ => phase }

/-- A legal launch is taken: phase acquire, reserve, a diversion whose instant has passed, placement. -/
def takeLaunch (s : State) (a : Accepting) (l : Launch) : State :=
  let l1 := if l.gbar then
      { l with towers := l.towers.mapIdx fun u x => { x with reserve := gbarReserve s l u } } else l
  let s1 : State := { s with launches := s.launches ++ [l1], nextId := s.nextId + 1 }
  let s2 := (changePhase s1 a l.id l.map (BitVec.ofNat 16 (field a.bytes 0x3A 2))).updNode a.t a.q.num a.ctr fun n =>
    { n with launch := some l.id }
  let now := (s.tower a.t).time
  if l.deadline != 0 && decide (l.divertAt ≤ now) then l.map.eraseDups.foldl (fun s u => divertTower 1 s l.id u) s2
  else offer s2 a.t none

/-- ACCEPTANCE (R297). -/
def acceptLaunch (s : State) (a : Accepting) : State :=
  let nb := a.bytes
  let h := completionHit s a.q.asid nb
  if field nb 0x20 8 % 256 ≠ 0 ∨ field nb 0x40 8 % 8 ≠ 0 ∨ field nb 0x60 8 % 128 ≠ 0 then refuseLaunch s a h 3
  else
    match launchReads s a.q.asid nb with
    | none => refuseLaunch s a h 1
    | some (s1, r) =>
      let l := buildLaunch s1 a r (h.getD { pa := 0, attr := attrOf 0 }) (mapOf a r.map)
      match launchRefusal s1 a r h l with
      | some code => refuseLaunch s1 a h code
      | none => takeLaunch s1 a l

end Sys2Proof.Machine
end

