-- ==== Sys2Proof/Machine/Queues.lean ====
section
/-!
DEFINITION. User queues, graph nodes and the mapping of queues (R279 to R296).
-/

namespace Sys2Proof.Machine

def Tower.queue? (tw : Tower) (num : Nat) : Option Queue := tw.queues.find? (·.num == num)

def State.queue? (s : State) (t : Four) (num : Nat) : Option Queue := (s.tower t).queue? num

/-- The record address of a counter (R280). -/
def Queue.recVa (q : Queue) (ctr : Word) : DWord := vaPlus q.ring (128 * (ctr.toNat % 2 ^ q.rlog))

/-- A record of kind 7 (R328): a node's fault or a held ring access. -/
def reportNode (s : State) (t : Four) (q : Queue) (ctr : Word) (va : DWord) (cause need : Byte) : State :=
  let bytes := faultBytes 7 cause need 0 q.asid t 0xFF va (s.tower t).time 0xFFFFFFFF 0xFFFF (q.slot.getD 0xFFFF)
    (ctr.toNat % 2 ^ q.rlog) 1
  (pushFault s t { blankRec s.nextId bytes with code := 7, launch := q.num, member := ctr.toNat }).fresh

/-- A record of kind 7 for a counter of the queue waits for room: its node, or the access it is for, is held (R326). -/
def nodeRecordWaits (s : State) (t : Four) (q : Queue) (ctr : Word) : Bool :=
  (s.tower t).fltq.anyWaits fun r => r.code == 7 && r.launch == q.num && r.member == ctr.toNat

/-! ### Publication (R280, R283) -/

/-- Payload bytes at and after this offset are reserved, by KIND (R286). -/
def payloadEnd (kind : Nat) : Nat :=
  match kind with
  | 0 => 0x20
  | 2 => 0x2D
  | 3 => 0x31
  | 4 => 0x31
  | 5 => 0x31
  | 6 => 0x38
  | 7 => 0x22
  | 8 => 0x28
  | _ => 0x80

/-- Payload fields in range (R286, R288); a LAUNCH's are judged at acceptance. -/
def payloadOk (bs : List Byte) : Bool :=
  let va := field bs 0x20 8
  match field bs 0 1 with
  | 2 => va % 64 == 0 && decide (1 ≤ field bs 0x28 4) && decide (field bs 0x28 4 ≤ 4096) && decide (field bs 0x2C 1 ≤ 15)
  | 3 => (field bs 0x30 1 == 4 || field bs 0x30 1 == 8) && va % field bs 0x30 1 == 0
  | 4 => va % 8 == 0 && decide (field bs 0x30 1 ≤ 1)
  | 5 => va % 8 == 0 && decide (field bs 0x30 1 ≤ 2)
  | 6 => va % 16 == 0 && field bs 0x28 8 % 16 == 0 && field bs 0x30 8 % 16 == 0 && decide (field bs 0x30 8 ≤ 2 ^ 32)
  | 8 => va % 8 == 0
  | _ => true

/-- The successor indices of a record. -/
def succIndices (bs : List Byte) : List Nat := (List.range (min (field bs 4 1) 8)).map fun k => field bs (8 + 2 * k) 2

/-- The counter that a successor index names, when R283 allows it. -/
def succCtr (rlog : Nat) (ctr tail : Word) (x : Nat) : Option Word :=
  let d := (x + 2 ^ rlog - ctr.toNat % 2 ^ rlog) % 2 ^ rlog
  if x < 2 ^ rlog ∧ 0 < d ∧ d < (tail - ctr).toNat then some (ctr + BitVec.ofNat 32 d) else none

/-- Header and payload as R281, R283 and R286 ask. -/
def nodeOk (rlog : Nat) (ctr tail : Word) (bs : List Byte) : Bool :=
  decide (field bs 0 1 ≤ 8) && decide (field bs 1 1 < 2) && decide (field bs 4 1 ≤ 8)
    && zeroAt bs (8 + 2 * field bs 4 1) (0x18 - (8 + 2 * field bs 4 1))
    && (succIndices bs).all (fun x => (succCtr rlog ctr tail x).isSome)
    && zeroAt bs (payloadEnd (field bs 0 1)) (0x80 - payloadEnd (field bs 0 1)) && payloadOk bs

/-- A record as it is read at publication. -/
def Node.ofBytes (rlog : Nat) (ctr tail : Word) (bs : List Byte) : Node :=
  { ctr, bytes := bs, succs := (succIndices bs).filterMap (succCtr rlog ctr tail), preds := field bs 2 2,
    state := if nodeOk rlog ctr tail bs then .pendingPreds else .workOver 4 9, moved := 0, launch := none, started := false, since := 0,
    fate := none, latched := false }

/-- The counter of the next record to read. -/
def Queue.readCtr (q : Queue) : Word := match q.nodes.getLast? with | some n => n.ctr + 1 | none => q.head

/-- Published records are read in order; an access that faults holds every later one (R280). -/
def readRecords (t : Four) (num : Nat) : Nat → State → State
  | 0, s => s
  | fuel + 1, s =>
    match s.queue? t num with
    | none => s
    | some q =>
      if q.heldRead.isSome || q.heldWrite.isSome then s
      else
        match q.unread with
        | [] => s
        | tail :: rest =>
          let c := q.readCtr
          if c = tail then readRecords t num fuel (s.updQueue t num fun q => { q with unread := rest })
          else
            match rangeFault s q.asid (q.recVa c) 128 .read true with
            | some (va, f) => (reportNode s t q c va f.cause 1).updQueue t num fun q => { q with heldRead := some c }
            | none =>
              let r := sysRead s q.asid (q.recVa c) 128
              readRecords t num fuel (r.1.updQueue t num fun q =>
                { q with nodes := q.nodes ++ [Node.ofBytes q.rlog c tail r.2] })

/-- The dispatcher reads what is published. -/
def readAll (s : State) (t : Four) (num : Nat) : State :=
  match s.queue? t num with
  | none => s
  | some q => readRecords t num ((q.tail - q.readCtr).toNat + q.unread.length + 1) s

/-- A new tail of a mapped queue. -/
def publish (s : State) (t : Four) (num : Nat) (tail : Word) : State :=
  readAll (s.updQueue t num fun q => { q with tail, unread := q.unread ++ [tail] }) t num

/-! ### Wake registers (R291) -/

/-- The latest accepted tail. -/
def Queue.accepted (q : Queue) : Word :=
  match q.qstate with
  | 2 => q.tail
  | 1 => q.heldTail.getD q.ltail
  | _ => q.ltail

/-- How a write is judged: none when ignored, with whether BADTAIL rises; a kick only; a new tail. -/
inductive Judged where
  | ignored (bad : Bool)
  | kick
  | tail (v : Word)
deriving DecidableEq, Repr

def Queue.judge (q : Queue) (v : Word) : Judged :=
  let d := (v - q.accepted).toNat
  let room := 2 ^ q.rlog - (q.accepted - q.head).toNat
  if d = 0 then .kick else if d ≤ room then .tail v else if d < 2 ^ 31 then .ignored true else .ignored false

/-! ### Starting nodes (R284) -/

def Node.kind (n : Node) : Nat := field n.bytes 0 1

def Node.ready (n : Node) : Bool := n.state == .pendingPreds && n.preds == 0

/-- The node has started and not ended. -/
def Node.atWork (n : Node) : Bool :=
  match n.state with
  | .running => true
  | .workOver .. => n.started
  | _ => false

/-- A further LAUNCH is beyond the slot's 8 or the tower's 128 (R284, R297). -/
def launchFull (s : State) (t : Four) (q : Queue) : Bool :=
  decide (8 ≤ (q.nodes.filter fun n => n.atWork && n.kind == 1).length)
    || decide (128 ≤ (s.launches.filter fun l => l.tower == t && l.finished.isNone).length)

/-- A ready node's turn to start: below the limits, behind no earlier ready node but LAUNCHes that wait for theirs. -/
def mayStart (s : State) (t : Four) (q : Queue) (n : Node) : Bool :=
  let full := launchFull s t q
  let earlier := q.nodes.takeWhile (·.ctr != n.ctr)
  n.ready && decide ((q.nodes.filter Node.atWork).length < 16) && !(full && n.kind == 1)
    && earlier.all fun m => !m.ready || (full && m.kind == 1)

/-- The node is the successor of others (R281). -/
def Node.isSuccessor (n : Node) : Bool := field n.bytes 2 2 != 0

/-- A node's step begins: it starts, and the first step of a successor acquires at system scope (R285); a node without predecessors
invalidates nothing (R136). -/
def startNode (s : State) (t : Four) (q : Queue) (n : Node) : State :=
  if n.state == .running then s
  else
    let s1 := s.updNode t q.num n.ctr fun n => { n with state := .running, started := true, since := (s.tower t).time }
    if n.isSuccessor then s1.updTower t fun tw => { tw with rdc := tw.rdc.filter (·.asid != q.asid) } else s1

/-- One step of a node of a kind: it runs already, or it may start; only while its queue is mapped. -/
def nodeStep (kind : Nat) (t : Four) (queue : Nat) (ctr : Word) (f : State → Queue → Node → State) (s : State) : Res :=
  .next <|
    match s.queue? t queue with
    | none => s
    | some q =>
      match q.nodes.find? (·.ctr == ctr) with
      | none => s
      | some n =>
        if q.qstate == 2 && n.kind == kind && ((n.state == .running && n.launch.isNone) || mayStart s t q n) then
          f (startNode s t q n) q n
        else s

/-- The node's work is over. -/
def overNode (s : State) (t : Four) (q : Queue) (n : Node) (state : Byte) (status : Half) : State :=
  s.updNode t q.num n.ctr (Node.finish state status)

/-- A read or write of the node faults (R282). -/
def nodeFault (s : State) (t : Four) (q : Queue) (n : Node) (va : DWord) (f : Conf) (need : Need) : State :=
  overNode (reportNode s t q n.ctr va f.cause need.code) t q n 4 10

/-- The field of a node as an address. -/
def Node.va (n : Node) (off : Nat) : DWord := BitVec.ofNat 64 (field n.bytes off 8)

/-! ### The kinds (R286 to R289) -/

/-- R286. -/
def execNodeNop (t : Four) (queue : Nat) (ctr : Word) (s : State) : Res :=
  nodeStep 0 t queue ctr (fun s q n => overNode s t q n 3 0) s

/-- R297. -/
def execLaunch (t : Four) (queue : Nat) (ctr : Word) (s : State) : Res :=
  nodeStep 1 t queue ctr (fun s q n => acceptLaunch s { t, q, ctr := n.ctr, bytes := n.bytes }) s

/-- Records appended with their SEQ, one by one; each goes at once to a WPOP that waits (R236, R237). After the last SEQ that may be
assigned comes 0 (log 69). -/
def appendRecords (t : Four) (k : Nat) : List (List Byte) → State → State
  | [], s => s
  | r :: rs, s =>
    let w := (s.tower t).wq k
    let rec_ := leBytes 8 w.seq.toNat ++ r.drop 8
    let next := if w.seq + 1 = BitVec.allOnes 64 then 0 else w.seq + 1
    appendRecords t k rs (serveWpop (s.updTower t fun tw =>
      { tw with wqs := updAt tw.wqs k fun w => { w with seq := next, recs := w.recs ++ [rec_] } }) t k)

/-- R287. A work queue that is not bound to the queue's space ends the node at once, without waiting for room (log 78). -/
def execFeed (t : Four) (queue : Nat) (ctr : Word) (s : State) : Res :=
  nodeStep 2 t queue ctr (fun s q n =>
    let k := field n.bytes 0x2C 1
    let count := field n.bytes 0x28 4
    let w := (s.tower t).wq k
    if w.asid == 0 || w.asid != q.asid then overNode s t q n 4 12
    else if 4096 < w.recs.length + count then s
    else
      match rangeFault s q.asid (n.va 0x20) (64 * count) .read false with
      | some (va, f) => nodeFault s t q n va f .read
      | none =>
        let r := sysRead s q.asid (n.va 0x20) (64 * count)
        let s1 := appendRecords t k ((List.range count).map fun j => (r.2.drop (64 * j)).take 64) r.1
        let s2 := announce s1 (fun g => g.tower == t && !g.resident) fun x =>
          if x.kind == .wpop && x.addr.toNat == k then some 0 else none
        overNode s2 t q n 3 0) s

/-- An exchange or update of n bytes at the home L2, then the rest. It goes there past the tower's remote-data cache, whose copy it
invalidates (R110), and after the stores that the copy has shown (R109). -/
def nodeWrite (s : State) (t : Four) (q : Queue) (n : Node) (va : DWord) (bytes : Nat) (new : Nat → Nat)
    (after : State → Nat → State) : State :=
  match rangeFault s q.asid va bytes .write false with
  | some (x, f) => nodeFault s t q n x f .write
  | none =>
    let s1 := match confL2 s q.asid va .write with
      | .ok h => dropRdc (pushPassed s t h.pa) t q.asid va h.pa
      | _ => s
    let r := sysReadNat s1 q.asid va bytes
    overNode (after (sysWrite r.1 q.asid va (leBytes bytes (new r.2))) (new r.2)) t q n 3 0

/-- R288. -/
def execWrite (t : Four) (queue : Nat) (ctr : Word) (s : State) : Res :=
  nodeStep 3 t queue ctr (fun s q n =>
    nodeWrite s t q n (n.va 0x20) (field n.bytes 0x30 1) (fun _ => field n.bytes 0x28 8) fun s _ => s) s

/-- R288, R234. -/
def execSignal (t : Four) (queue : Nat) (ctr : Word) (s : State) : Res :=
  nodeStep 4 t queue ctr (fun s q n =>
    let y := field n.bytes 0x28 8
    nodeWrite s t q n (n.va 0x20) 8 (fun o => if field n.bytes 0x30 1 = 1 then y else (o + y) % 2 ^ 64) fun s x =>
      announceSignal s q.asid (n.va 0x20) (BitVec.ofNat 64 x)) s

/-- A WAITMEM's condition, on the value read now or met by a signal before (R288). -/
def checkWaitmem (t : Four) (s : State) (q : Queue) (n : Node) : State :=
  match rangeFault s q.asid (n.va 0x20) 8 .read false with
  | some (x, f) => nodeFault s t q n x f .read
  | none =>
    let r := sysReadNat s q.asid (n.va 0x20) 8
    if n.latched || sigCond (BitVec.ofNat 2 (field n.bytes 0x30 1)) (BitVec.ofNat 64 r.2) (n.va 0x28) then
      overNode (r.1.updTower t fun tw => { tw with rdc := tw.rdc.filter (·.asid != q.asid) }) t q n 3 0
    else r.1

/-- R288. -/
def execWaitmem (t : Four) (queue : Nat) (ctr : Word) (s : State) : Res := nodeStep 5 t queue ctr (checkWaitmem t) s

/-- The checks that R235 asks for at least once every 2 µs of tower time: of the resident waiters, and of the WAITMEMs that run in
mapped queues (R288). -/
def waitChecks (s : State) (t : Four) : State :=
  let groups := waitingGroups s t
  let nodes := ((s.tower t).queues.filter (·.qstate == 2)).flatMap fun q =>
    (q.nodes.filter fun n => n.kind == 5 && n.state == .running).map fun n => (q, n)
  if !(groups.isEmpty && nodes.isEmpty) && decide ((s.tower t).lastWaits + 2000 ≤ (s.tower t).time) then
    let s1 := s.updTower t fun tw => { tw with lastWaits := tw.time }
    nodes.foldl (fun s x => checkWaitmem t s x.1 x.2) (groups.foldl (fun s cu => withGroup s cu recheckGroup) s1)
  else s

/-- Bytes of a range at a tower's point of coherence (R127). -/
def towerRange (t : Four) (asid : Half) (s : State) (va : DWord) (n : Nat) : State × List Byte :=
  (cutRun va n).foldl (fun (r : State × List Byte) p =>
    let a := vaPlus va p.1
    match confTower r.1 t asid a .read with
    | .ok h =>
      let q := towerRead r.1 t asid a p.2 h
      (q.1, r.2 ++ q.2)
    | _ => (r.1, r.2 ++ zeros p.2)) (s, [])

/-- Bytes written through to the home L2 from a tower (R127), after the stores that its remote-data cache has shown (R109). -/
def towerWrite (t : Four) (asid : Half) (s : State) (va : DWord) (bs : List Byte) : State :=
  (cutRun va bs.length).foldl (fun s p =>
    let a := vaPlus va p.1
    let b := (bs.drop p.1).take p.2
    match confL2 s asid a .write with
    | .ok h =>
      let s1 := homeWrite (pushPassed s t h.pa) asid a b h
      if homeOf a = t then s1 else rdcUpdate s1 t asid a h.pa b
    | _ => s) s

/-- R289: a step moves up to 4 KiB; a fault ends the node with nothing of that step moved. -/
def execCopy (t : Four) (queue : Nat) (ctr : Word) (s : State) : Res :=
  nodeStep 6 t queue ctr (fun s q n =>
    let total := field n.bytes 0x30 8
    let k := min 4096 (total - n.moved)
    let src := vaPlus (n.va 0x20) n.moved
    let dst := vaPlus (n.va 0x28) n.moved
    match rangeFault s q.asid src k .read false, rangeFault s q.asid dst k .write false with
    | some (x, f), _ => nodeFault s t q n x f .read
    | none, some (x, f) => nodeFault s t q n x f .write
    | none, none =>
      let r := towerRange t q.asid s src k
      let s1 := (towerWrite t q.asid r.1 dst r.2).updNode t q.num n.ctr fun n => { n with moved := n.moved + k }
      if n.moved + k = total then overNode s1 t q n 3 0 else s1) s

/-- R136, R289. -/
def execPhase (t : Four) (queue : Nat) (ctr : Word) (s : State) : Res :=
  nodeStep 7 t queue ctr (fun s q n =>
    match q.slot with
    | none => s
    | some k =>
      overNode ((phaseAcquire s t q.asid none).updTower t fun tw =>
        { tw with phases := updAt tw.phases k fun _ => BitVec.ofNat 16 (field n.bytes 0x20 2) }) t q n 3 0) s

/-- R289. -/
def execTimestamp (t : Four) (queue : Nat) (ctr : Word) (s : State) : Res :=
  nodeStep 8 t queue ctr (fun s q n => nodeWrite s t q n (n.va 0x20) 8 (fun _ => (s.tower t).time) fun s _ => s) s

/-! ### The end of a node (R284, R285) -/

/-- An end that reaches a successor otherwise than by its own work: at once before it starts; after its step while it runs, after
its launch for a LAUNCH; a node that has started takes it in place of how its work ended. -/
def Node.doom (state : Byte) (status : Half) (n : Node) : Node :=
  match n.state with
  | .pendingPreds => { n with state := .workOver state status }
  | .running =>
    if n.kind = 1 then { n with fate := some (n.fate.getD (state, status)) }
    else { n with state := .workOver state status, fate := some (state, status) }
  | .workOver .. => if n.started && n.fate.isNone then { n with state := .workOver state status, fate := some (state, status) } else n
  | .ended _ => n

/-- A predecessor ended DONE (R284): a count that is zero already ends the successor FAILED with BAD_NODE. -/
def Node.decrement (n : Node) : Node :=
  if n.state == .pendingPreds && n.preds != 0 then { n with preds := n.preds - 1 } else n.doom 4 9

/-- A predecessor ended FAILED or SKIPPED (R285): the successor ends SKIPPED with PRED_FAILED. -/
def Node.skip (n : Node) : Node := n.doom 5 11

def NodeState.isEnded : NodeState → Bool
  | .ended _ => true
  | _ => false

/-- HEAD passes the nodes that have ended. -/
def Queue.advanceHead (q : Queue) : Queue :=
  { q with head := q.head + BitVec.ofNat 32 (q.nodes.takeWhile (·.state.isEnded)).length
           nodes := q.nodes.dropWhile (·.state.isEnded) }

/-- What the end of node n makes of a node of its queue; a successor that its record names twice is told once (log 70). -/
def Node.afterEnd (n : Node) (state : Byte) (m : Node) : Node :=
  if m.ctr == n.ctr then { m with state := .ended state }
  else if !n.succs.contains m.ctr then m
  else if state == 3 then m.decrement
  else m.skip

/-- The header fields written, the successors told, HEAD advanced. -/
def endNode (s : State) (t : Four) (q : Queue) (n : Node) (state : Byte) (status : Half) : State :=
  let va := q.recVa n.ctr
  let s1 := sysWrite s q.asid (va + 5) ([state] ++ leBytes 2 status.toNat)
  let s2 := sysWrite s1 q.asid (va + 0x18) (leBytes 8 (s.tower t).time)
  s2.updQueue t q.num fun q =>
    Queue.advanceHead { q with nodes := q.nodes.map (Node.afterEnd n state) }

/-- The header fields of a node whose work is over are written and it ends; an access that faults is held (R280, R285). -/
def tryEnd (s : State) (t : Four) (q : Queue) (n : Node) : State :=
  match n.state with
  | .workOver state status =>
    match rangeFault s q.asid (q.recVa n.ctr) 32 .write true with
    | some (va, f) => (reportNode s t q n.ctr va f.cause 2).updQueue t q.num fun q => { q with heldWrite := some n.ctr }
    | none => mirror (endNode s t q n state status) t q.num
  | _ => s

/-- The record of an access that a fault holds waits for room, and the access with it (R280, R326). -/
def heldRecordWaits (s : State) (t : Four) (q : Queue) : Bool :=
  (q.heldWrite.toList ++ q.heldRead.toList).any (nodeRecordWaits s t q)

/-- A kick retries the access that a fault holds, before any later one (R280); it waits for the record of that access (R326). -/
def kick (s : State) (t : Four) (num : Nat) : State :=
  match s.queue? t num with
  | none => s
  | some q =>
    if heldRecordWaits s t q then s.updQueue t num fun q => { q with kicked := true }
    else
      let s1 := s.updQueue t num fun q => { q with heldRead := none, heldWrite := none, kicked := false }
      let s2 := match q.heldWrite.bind fun c => q.nodes.find? (·.ctr == c) with
        | some n => tryEnd s1 t q n
        | none => s1
      readAll s2 t num

/-- Where an effective write lands, by the queue's state; v is the accepted tail itself for a mere kick. -/
def wakeLands (s : State) (t : Four) (q : Queue) (v : Word) : State :=
  match q.qstate with
  | 2 => kick (if v = q.tail then s else publish s t q.num v) t q.num
  | 1 => s.updQueue t q.num fun q => { q with heldTail := some v }
  | 3 => s.updQueue t q.num fun q => { q with ltail := v, latch := true }
  | _ => s.updQueue t q.num fun q => { q with ltail := v, pending := true }

/-! ### Mapping (R292 to R296) -/

/-- Accepted launches of a queue with a gang waiting to be placed in some tower. -/
def launchesWait (s : State) (t : Four) (num : Nat) : Bool :=
  s.launches.any fun l => l.tower == t && l.queue == num && l.finished.isNone
    && Four.all.any fun u => (nextGang s l u).isSome

/-- A WAITMEM whose condition no signal has met, or a FEED without room, waits. -/
def Node.waitsNow (s : State) (t : Four) (n : Node) : Bool :=
  n.state == .running && ((n.kind == 5 && !n.latched)
    || (n.kind == 2 && decide (4096 < ((s.tower t).wq (field n.bytes 0x2C 1)).recs.length + field n.bytes 0x28 4)))

/-- R294. A node that ends without having started is neither ready nor running, though its end may be held (R280), and a LAUNCH
that has been accepted runs without the slot, also when its launch has completed. -/
def Queue.idle (s : State) (t : Four) (q : Queue) : Bool :=
  let now := (s.tower t).time
  !q.nodes.any Node.ready && !q.kicked && !launchesWait s t q.num
    && q.nodes.all fun n =>
      match n.state with
      | .workOver .. => !n.started || n.launch.isSome
      | .running => n.kind == 1 || (n.waitsNow s t && decide (n.since + 50000 ≤ now))
      | _ => true

/-- The node is a LAUNCH whose launch has completed. -/
def Node.completed (n : Node) : Bool :=
  n.launch.isSome && match n.state with
    | .workOver .. => true
    | _ => false

/-- R295. -/
def Queue.isRunnable (s : State) (t : Four) (q : Queue) : Bool :=
  q.qstate == 0 && (q.nodes.any Node.ready || q.pending || launchesWait s t q.num
    || q.nodes.any Node.completed)

/-- Queues that have become runnable since last looked at. -/
def newRunnable (s : State) (t : Four) : List Queue := (s.tower t).queues.filter fun q => q.isRunnable s t && !q.runnable

/-- RUNT of the queues that have become runnable, shown in their control blocks (R295). -/
def noteRunnable (s : State) (t : Four) : State :=
  (newRunnable s t).foldl (fun s q => mirror s t q.num) (s.updTower t fun tw =>
    { tw with queues := tw.queues.map fun q =>
        let r := q.isRunnable s t
        { q with runnable := r, runT := if r && !q.runnable then tw.time else q.runT } })

/-- AGE and EPRIO of an unmapped queue (R295). -/
def Queue.aged (now : Nat) (q : Queue) : Queue :=
  if q.qstate == 0 && q.runnable then
    let age := min 7 ((now - q.runT) / (q.eslice * 1000))
    { q with age, eprio := min 7 (q.prio + age) }
  else q

/-- SRT, ESLICE and CLAMP as a map that begins now writes them (R292, R294). -/
def Queue.sliced (srt : Nat) (q : Queue) : Queue :=
  let floor := (2 * srt + 999) / 1000
  { q with srt, eslice := max q.slice floor, clamp := decide (q.slice < floor) }

/-- The lowest-numbered slot (log 71) that no mapped or mapping queue holds; one that is being given up will be free (R296). -/
def freeQueueSlot (tw : Tower) : Option Nat :=
  (List.range tw.boot.slots).find? fun n => !tw.queues.any fun q => (q.qstate == 1 || q.qstate == 2) && q.slot == some n

/-- An unmap begins. Of several that begin before one map, the last gives the measurement that the map completes: the latest start
stands (R292; the model's choice, log 79). -/
def beginUnmap (s : State) (t : Four) (num : Nat) : State :=
  mirror ((s.updQueue t num fun q => { q with qstate := 3, ltail := q.tail }).updTower t fun tw =>
    { tw with unmapBegun := some tw.time }) t num

/-- A map begins into a slot; the first that follows an unmap completes that unmap's measurement (R292). -/
def beginMap (s : State) (t : Four) (num slot : Nat) : State :=
  mirror ((s.updQueue t num fun q =>
    { q.sliced (s.tower t).srtLast with
        qstate := 1, slot := some slot, heldTail := none, measure := (s.tower t).unmapBegun }).updTower t fun tw =>
    { tw with unmapBegun := none }) t num

def mapKey (q : Queue) : List Int := [-(q.eprio : Int), (q.runT : Int), (q.num : Int)]

/-- Queues with their slice over, by lowest priority, then earliest map. -/
def expiredQueues (tw : Tower) : List Queue :=
  sortBy (fun a b => lexLe [(a.eprio : Int), (a.mapT : Int)] [(b.eprio : Int), (b.mapT : Int)])
    (tw.queues.filter fun q => q.qstate == 2 && decide (q.mapT + q.eslice * 1000 ≤ tw.time))

/-- The loop of R296 over the runnable queues in order. -/
def mapRunnable (t : Four) : List Nat → State → State
  | [], s => s
  | num :: rest, s =>
    match s.queue? t num, freeQueueSlot (s.tower t) with
    | some _, some slot => mapRunnable t rest (beginMap s t num slot)
    | some q, none =>
      match (expiredQueues (s.tower t)).head? with
      | some v =>
        match v.slot with
        | some slot => if v.eprio ≤ q.eprio then mapRunnable t rest (beginMap (beginUnmap s t v.num) t num slot) else s
        | none => s
      | none => s
    | none, _ => s

/-- THE PASS (R296); a tower in minimal mode runs none (R363). -/
def schedule (s : State) (t : Four) : State :=
  if (s.tower t).boot.minimal then s
  else
    let s1 := (noteRunnable s t).updTower t fun tw => { tw with queues := tw.queues.map (Queue.aged tw.time), lastPass := tw.time }
    let s2 := ((s1.tower t).queues.filter fun q => q.qstate == 2 && q.idle s1 t).foldl (fun s q => beginUnmap s t q.num) s1
    let cs := sortBy (fun a b => lexLe (mapKey a) (mapKey b)) ((s2.tower t).queues.filter fun q => q.qstate == 0 && q.runnable)
    let s3 := mapRunnable t (cs.map (·.num)) s2
    (s3.tower t).queues.foldl (fun s q => mirror s t q.num) s3

/-- R296. -/
def execSchedulingPass (t : Four) (s : State) : Res := .next (schedule s t)

/-- R294, R296. -/
def execSliceExpiry (t : Four) (queue : Nat) (s : State) : Res :=
  .next <|
    match s.queue? t queue with
    | some q => if q.qstate == 2 && decide (q.mapT + q.eslice * 1000 ≤ (s.tower t).time) then schedule s t else s
    | none => s

def NodeState.isOver : NodeState → Bool
  | .workOver .. => true
  | _ => false

/-- A node's step is over and its end is to come, held by no access of the queue (R285, R280). -/
def Queue.ending (q : Queue) : Bool := q.heldRead.isNone && q.heldWrite.isNone && q.nodes.any (·.state.isOver)

/-- A kick or a wake that the unmap leaves for the next map (R291): a latched one, one that waits for a record, a signal that a
WAITMEM has met and not yet taken. -/
def Queue.wakes (q : Queue) : Bool := q.latch || q.kicked || q.nodes.any fun n => n.kind == 5 && n.state == .running && n.latched

/-- R291, R292: no node is within a step or has still to end after one; a latched kick is handled by a pass at once. -/
def execQueueUnmapComplete (t : Four) (queue : Nat) (s : State) : Res :=
  .next <|
    match s.queue? t queue with
    | some q =>
      if q.qstate != 3 || q.ending then s
      else
        let s1 := mirror (s.updQueue t queue fun q =>
          { q with qstate := 0, slot := none, latch := false, kicked := false, pending := q.pending || q.wakes }) t queue
        if q.latch then schedule s1 t else s1
    | none => s

/-- The LAUNCH nodes of a queue whose launches completed while it was unmapped end as it is mapped (R293), unless an access of the
queue is held (R280) or the node's record waits for room (R326). -/
def endCompleted (s : State) (t : Four) (num : Nat) : State :=
  ((s.queue? t num).toList.flatMap fun q => (q.nodes.filter Node.completed).map (·.ctr)).foldl (fun s ctr =>
    match s.queue? t num with
    | none => s
    | some q =>
      match q.nodes.find? (·.ctr == ctr) with
      | none => s
      | some n => if q.heldRead.isSome || q.heldWrite.isSome || nodeRecordWaits s t q ctr then s else tryEnd s t q n) s

/-- R291, R292: the tails held are published, the dispatcher starts, completed LAUNCH nodes end and launches of the queue may place
gangs again (R293); a kick that lands and a node end bring a pass (R296). -/
def execQueueMapComplete (t : Four) (queue : Nat) (s : State) : Res :=
  .next <|
    match s.queue? t queue with
    | some q =>
      if q.qstate != 1 || (s.tower t).queues.any (fun x => x.qstate == 3 && x.slot == q.slot) then s
      else
        let s1 := (s.updQueue t queue fun q =>
            { q with qstate := 2, pending := false, age := 0, eprio := q.prio, mapT := (s.tower t).time, heldTail := none }).updTower t
          fun tw => { tw with srtLast := match q.measure with | some b => tw.time - b | none => tw.srtLast }
        let s2 := if q.ltail = q.tail then s1 else publish s1 t queue q.ltail
        let s3 := match q.heldTail with
          | some v => if v = q.ltail then s2 else publish s2 t queue v
          | none => s2
        let kicked := q.pending || q.heldTail.isSome
        let s4 := if kicked then kick s3 t queue else s3
        let s5 := endCompleted s4 t queue
        let s6 := mirror (Four.all.foldl (fun s u => offer s u none) s5) t queue
        if kicked || q.nodes.any Node.completed then schedule s6 t else s6
    | none => s

/-- R291, R296: bit 32 is ACK; a pass follows every kick. -/
def execWakeRegisterWrite (t : Four) (queue : Nat) (v : DWord) (s : State) : Res :=
  .next <|
    match s.queue? t queue with
    | none => s
    | some q =>
      let s1 := if v.getLsbD 32 then s.updQueue t queue fun q => { q with badTail := false } else s
      let w : Word := v.setWidth 32
      match q.judge w with
      | .kick => schedule (mirror (wakeLands s1 t q w) t queue) t
      | .tail x => schedule (mirror (wakeLands s1 t q x) t queue) t
      | .ignored bad => mirror (if bad then s1.updQueue t queue fun q => { q with badTail := true } else s1) t queue

/-- R285, R296: in a mapped queue, or one that an unmap waits for (R292); held while a ring access is held (R280), and while the
node's fault record waits for room (R326); a pass follows every end. -/
def execNodeEnd (t : Four) (queue : Nat) (ctr : Word) (s : State) : Res :=
  .next <|
    match s.queue? t queue with
    | none => s
    | some q =>
      match q.nodes.find? (·.ctr == ctr) with
      | none => s
      | some n =>
        match n.state with
        | .workOver .. =>
          if (q.qstate != 2 && q.qstate != 3) || q.heldRead.isSome || q.heldWrite.isSome || nodeRecordWaits s t q ctr then s
          else schedule (tryEnd s t q n) t
        | _ => s

/-! ### Passes that are due (R296) -/

/-- A slice has expired since the last pass, or 100 µs have passed. -/
def Tower.passDue (tw : Tower) : Bool :=
  !tw.queues.isEmpty && (decide (tw.lastPass + 100000 ≤ tw.time)
    || tw.queues.any fun q => q.qstate == 2 && decide (tw.lastPass < q.mapT + q.eslice * 1000)
        && decide (q.mapT + q.eslice * 1000 ≤ tw.time))

/-- A queue that is idle is unmapped at once (R294). -/
def unmapIdle (s : State) (t : Four) : State :=
  ((s.tower t).queues.filter fun q => q.qstate == 2 && q.idle s t).foldl (fun s q => beginUnmap s t q.num) s

/-- Kicks whose held access has its record written now take effect, with the pass that a kick brings (R280, R296, R326). -/
def retryKicks (s : State) (t : Four) : State :=
  ((s.tower t).queues.filter fun q => q.kicked && q.qstate == 2 && !heldRecordWaits s t q).foldl
    (fun s q => schedule (kick s t q.num) t) s

/-- A queue that has become runnable is noted and brings a pass. -/
def runnablePass (s : State) (t : Four) : State :=
  if (newRunnable s t).isEmpty then noteRunnable s t else schedule s t

/-- What a tower's time brings to its queues. -/
def timedPass (s : State) (t : Four) : State := if (s.tower t).passDue then schedule s t else unmapIdle s t

end Sys2Proof.Machine
end

