-- ==== Sys2Proof/Machine/Power.lean ====
section
/-!
DEFINITION. The thermal governor, moves between cores and columns, gating, valves and HBM states (R302 to R317, R371).
Temperatures are in 1/16 °C, costs in twentieths of a power unit.
-/

namespace Sys2Proof.Machine

/-! ### Sensors (R305) -/

/-- A threshold after a sample: reached, it sets; 3 °C below it, it clears. -/
def crossed (was : Bool) (sample at_ : Nat) : Bool := decide (at_ * 16 ≤ sample) || (was && decide ((at_ - 3) * 16 ≤ sample))

/-- A core sampled; it stays stopped while the record of its Trip waits for room (R326), and while a gang on it is still to be saved
(R306). -/
def Core.sampled (x : Nat) (waits : Bool) (c : Core) : Core :=
  { c with sensor := x, warn := crossed c.warn x 90, move := crossed c.move x 95, throttle := crossed c.throttle x 105
           trip := crossed c.trip x 115 || (c.trip && waits) }

/-- The record of a core's Trip, which names it (R328), waits for room. -/
def Tower.tripWaits (tw : Tower) (col : Nat) (k : Four) : Bool :=
  tw.fltq.anyWaits fun r => r.code == 8 && field r.bytes 3 1 == k.val && field r.bytes 7 1 == col

/-- Every core of a tower sampled: the sensor of tier k in column c is sample 4c + k. -/
def sampleAll (s : State) (t : Four) (samples : List Nat) : State :=
  s.updTower t fun tw => { tw with cols := tw.cols.mapIdx fun c co =>
    { co with cores := co.cores.mapIdx fun k x => x.sampled (samples.getD (4 * c + k.val) x.sensor) (tw.tripWaits c k || (coreWgs s t c k).any (·.1.saving)) } }

/-- Cores of present columns. -/
def coresOf (s : State) (t : Four) : List (Nat × Four) := (presentCols s t).flatMap fun c => Four.all.map fun k => (c, k)

/-! ### Trip (R306) -/

/-- A core that issues nothing more (R306): units begun and not issued, held at issue, or waiting on counts, stand at their first
word. A SETTLE whose release is under way completes it, as an operation in flight: after RESUME of code 0x10 the bead goes on behind
it (R330). -/
def Bead.tripped (b : Bead) : Bead :=
  if !b.live || b.park.isSome then b
  else
    match b.wait with
    | none => if b.held.isNone then b.rewind else b
    | some w => if w.kind == .issue || w.kind == .count || w.kind == .fence || (w.kind == .settle && w.sat.isNone) then b.rewind else b

/-- The record of kind 8 (R328). -/
def reportTrip (s : State) (t : Four) (col : Nat) (k : Four) : State :=
  let bytes := faultBytes 8 0 0 (BitVec.ofNat 8 k.val) 0 t col 0 (s.tower t).time 0xFFFFFFFF 0xFFFF 0xFFFF 0xFFFF 1
  (pushFault s t { blankRec s.nextId bytes with code := 8 }).fresh

/-- A gang whose core has tripped: its save begins, in place of a column move; one that is pending for parking is now for Trip,
and queues the gang at its end (R306). One for an eviction goes on as that, and is counted in CR.EVICTS (the model's choice, log
72). -/
def Gang.tripSave (g : Gang) : Gang :=
  match g.pending with
  | some (.save (.evict _)) => g
  | _ => { g with pending := some (.save .trip) }

/-- A column move that has reserved a core of a column (R311). -/
def Gang.reserves (t : Four) (col : Nat) (k : Four) (g : Gang) : Bool :=
  match g.coming t col with
  | some (_, tiers) => tiers.any fun x => x.2 == k
  | none => false

/-- A core trips: its record, the saves of the gangs with a workgroup on it, and the end of a column move that would bring one
there (log 72). -/
def tripCore (t : Four) (s : State) (x : Nat × Four) : State :=
  let s1 := (s.gangs.filter (Gang.reserves t x.1 x.2)).foldl (fun s g => s.endMove g.id) (reportTrip s t x.1 x.2)
  (coreWgs s1 t x.1 x.2).foldl (fun s y =>
    ((s.endMove y.1.id).updWg y.1.id y.2.pos fun w => w.updBeads (fun _ => true) Bead.tripped).updGang y.1.id Gang.tripSave) s1

/-- A tripped core without strands is gated. -/
def gateTripped (t : Four) (s : State) (x : Nat × Four) : State :=
  let c := (s.col t x.1).cores.get x.2
  if c.trip && (coreWgs s t x.1 x.2).isEmpty then setCore s t x.1 x.2 fun c => { c with gated := true, waking := none } else s

/-! ### Choosing moves (R308, R311) -/

def Core.cool (c : Core) : Bool := decide (c.sensor < 92 * 16) && !c.trip

/-- What a core would hold without a workgroup. -/
def useWithout (s : State) (t : Four) (col : Nat) (k : Four) (gang member : Nat) : CoreUse :=
  ((coreWgs s t col k).filter fun x => !(x.1.id == gang && x.2.pos == member)).foldl (fun u x => u.add x.2.use)
    (reservedUse s t col k)

/-- Workgroups ranked to be shed: with a tile set, then most granules, then lowest w. -/
def shedKey (w : Wg) : List Int := [if w.tile.isSome then 0 else 1, -(w.use.granules : Int), (w.w : Int)]

/-- The workgroup that a core sheds, among equals the first in the column's list of residents (log 45). -/
def shed (s : State) (t : Four) (col : Nat) (k : Four) : Option (Gang × Wg) :=
  (sortBy (fun a b => lexLe (shedKey a.2) (shedKey b.2)) (coreWgs s t col k)).head?

/-- The other cores of a column that are cool enough, coolest first. -/
def coolerCores (s : State) (t : Four) (col : Nat) (k : Four) : List Four :=
  sortBy (fun a b => lexLe [(((s.col t col).cores.get a).sensor : Int), (a.val : Int)]
      [(((s.col t col).cores.get b).sensor : Int), (b.val : Int)])
    (Four.all.filter fun j => j != k && ((s.col t col).cores.get j).cool)

/-- The workgroup to exchange with on core j: the fewest granules among those that fit, among equals the first in the column's list
of residents (log 45). -/
def exchangeWith (s : State) (t : Four) (col : Nat) (k j : Four) (g : Gang) (w : Wg) : Option (Gang × Wg) :=
  (sortBy (fun a b => decide (a.2.use.granules ≤ b.2.use.granules)) ((coreWgs s t col j).filter fun x =>
    x.1.pending.isNone && x.2.move.isNone && (useWithout s t col j x.1.id x.2.pos).fits w.use && (useWithout s t col k g.id w.pos).fits x.2.use)).head?

/-- Cores of a column that hold no sleep: neither they nor the column are gated, and no wake is under way (R316). -/
def coresAwake (s : State) (t : Four) (col : Nat) (ks : List Four) : Bool :=
  !(s.col t col).gated && ks.all fun k => !((s.col t col).cores.get k).gated && ((s.col t col).cores.get k).waking.isNone

/-- A column move of one of the column's gangs is pending. -/
def columnMoving (s : State) (t : Four) (col : Nat) : Bool :=
  (residents s t col).any fun g => match g.pending with | some (.column ..) => true | _ => false

def State.setMove (s : State) (gang member : Nat) (m : Option LayerMove) : State :=
  s.updWg gang member fun w => { w with move := m }

/-- A layer move chosen for a core at Move (R308); one whose workgroup has a move or its gang a save pending sheds none. A drain of the
column keeps none of its moves from happening: it bars what comes into the column (R359). -/
def chooseLayer (t : Four) (s : State) (x : Nat × Four) : State :=
  let col := x.1
  let now := (s.tower t).time
  match shed s t col x.2 with
  | none => s
  | some (g, w) =>
    if g.pending.isSome || w.move.isSome || !((s.col t col).cores.get x.2).move || columnMoving s t col then s
    else
      let cs := coolerCores s t col x.2
      match cs.find? fun j => (coreUse s t col j).fits w.use with
      | some j => wakeCores (s.setMove g.id w.pos (some { tier := j, other := none, since := now })) t col [j]
      | none =>
        match cs.findSome? fun j => (exchangeWith s t col x.2 j g w).map fun y => (j, y) with
        | none => s
        | some (j, (h, y)) =>
          (s.setMove g.id w.pos (some { tier := j, other := some (h.id, y.pos), since := now })).setMove h.id y.pos
            (some { tier := x.2, other := some (g.id, w.pos), since := now })

/-- The gang with a column move pending: base and tiers there, the instant of the choice. -/
def Gang.moving (col base : Nat) (ks : List Four) (since : Nat) (g : Gang) : Gang :=
  { g with pending := some (.column col base (List.zipWith (fun w k => (w.pos, k)) g.members ks) since) }

/-- The gang's fit in a destination of a column move, with the hottest sensor there. -/
def columnFit (s : State) (t : Four) (l : Launch) (g : Gang) (c : Nat) : Option (Nat × Nat × Nat × List Four) :=
  let co := s.col t c
  if co.draining || !co.cores.toList.all Core.cool then none
  else
    ((fitsColumn s t c (g.members.map Wg.use) l.scratchAll (g.copies.flatMap (·.locks)).length).filter fun x =>
      roomKept s (s.updGang g.id (Gang.moving c x.1 x.2 0)) t c).map fun x =>
        ((co.cores.toList.map (·.sensor)).foldl max 0, c, x.1, x.2)

/-- Where a gang would move to: least hottest sensor, then the lowest column. -/
def moveTarget (s : State) (t : Four) (l : Launch) (g : Gang) : Option (Nat × Nat × Nat × List Four) :=
  (sortBy (fun a b => lexLe [(a.1 : Int), (a.2.1 : Int)] [(b.1 : Int), (b.2.1 : Int)])
    (((presentCols s t).filter (· != g.col)).filterMap (columnFit s t l g))).head?

def gangKey (s : State) (g : Gang) : List Int := [(g.num : Int), (((s.launch? g.launch).map (·.order)).getD 0 : Int)]

/-- A column move chosen for a column hot at two evaluations (R311): the lowest-numbered gang that fits, a gang being saved
apart; its members' layer moves go on. The gated cores that it will take are woken (R316). -/
def chooseColumn (t : Four) (s : State) (col : Nat) : State :=
  let rs := residents s t col
  if (s.col t col).hot < 2 || columnMoving s t col then s
  else
    let cs := sortBy (fun a b => lexLe (gangKey s a) (gangKey s b)) (rs.filter (·.pending.isNone))
    match cs.findSome? fun g => (s.launch? g.launch).bind fun l => (moveTarget s t l g).map fun x => (g, x) with
    | none => s
    | some (g, (_, c, base, ks)) =>
      wakeCores (s.updGang g.id (Gang.moving c base ks (s.tower t).time)) t c ks

/-- All four tiers at Move, counted over evaluations. -/
def countHot (s : State) (t : Four) : State :=
  s.updTower t fun tw => { tw with cols := tw.cols.map fun co =>
    { co with hot := if co.cores.toList.all (·.move) then co.hot + 1 else 0 } }

/-! ### Ratios (R303) -/

/-- The order of R303: wrap-up, lease, least slack, below Warn, tier. -/
def ratioKey (s : State) (t : Four) (col : Nat) (k : Four) : List Int :=
  let c := (s.col t col).cores.get k
  let ws := coreWgs s t col k
  let claim (b : Bool) : Int := if b && !c.throttle then 0 else 1
  let slacks := ws.filterMap fun x => (s.launch? x.1.launch).bind fun l => l.slack (s.tower t).time
  [claim (ws.any fun x => x.2.inWrap), claim (ws.any fun x => x.2.leased)]
    ++ (match slacks with | [] => [1, 0] | x :: xs => [0, xs.foldl min x]) ++ [if c.warn then 1 else 0, (k.val : Int)]

/-- Ratios given in order; the cores after keep room for one half. -/
def giveRatios (t : Four) (col : Nat) : List Four → Nat → State → State
  | [], _, s => s
  | k :: ks, left, s =>
    let c := coreClass s t col k
    let cap := if (s.tower t).boot.minimal || ((s.col t col).cores.get k).trip then 1 else ratioCap s t col k
    let rest := ks.foldl (fun n j => n + (coreClass s t col j).cost 1) 0
    let r := bestRatio c cap (left - rest)
    giveRatios t col ks (left - c.cost r) (setGov s t col k r)

/-- The loop of R303 for one column. -/
def columnRatios (t : Four) (s : State) (col : Nat) : State :=
  let busy := Four.all.filter fun k => (coreClass s t col k).rank ≥ 2
  let idle := Four.all.filter fun k => (coreClass s t col k).rank < 2
  let order := sortBy (fun a b => lexLe (ratioKey s t col a) (ratioKey s t col b)) busy
  let left := columnBudget - idle.foldl (fun n k => n + (coreClass s t col k).cost 1) 0
  recoverRatios (giveRatios t col order left s) t col

/-- THE EVALUATION (R303, R305, R306, R308, R311), every 10 µs. Of columns that compete for a destination the lowest chooses first, and
of the cores of a column the lowest tier (the model's choice, log 98). -/
def evaluate (s : State) (t : Four) (samples : List Nat) : State :=
  let cores := coresOf s t
  let tripsBefore := cores.filter fun x => ((s.col t x.1).cores.get x.2).trip
  let s1 := countHot (sampleAll s t samples) t
  let trips := cores.filter fun x => ((s1.col t x.1).cores.get x.2).trip
  let s2 := cores.foldl (gateTripped t) ((trips.filter (!tripsBefore.contains ·)).foldl (tripCore t) s1)
  let s3 := if (s.tower t).boot.minimal then s2
    else cores.foldl (chooseLayer t) ((presentCols s t).foldl (chooseColumn t) s2)
  let s4 := (presentCols s t).foldl (fun s c => columnRatios t (s.updCol t c fun co => { co with halved := false }) c) s3
  let s5 := s4.updTower t fun tw => { tw with lastEval := tw.time }
  if trips = tripsBefore then s5 else offer s5 t none

/-- R303. -/
def execGovernorEvaluation (t : Four) (samples : List Nat) (s : State) : Res :=
  .next (if (s.tower t).lastEval + 10000 ≤ (s.tower t).time then evaluate s t samples else s)

/-! ### Layer moves (R309, R310) -/

/-- One workgroup crosses to another core of its column; `leaving` is the partner of an exchange, whose strands are no longer
counted there (R40). -/
def crossTo (s : State) (g : Gang) (member : Nat) (k : Four) (leaving : Option (Nat × Nat)) : State :=
  let there := (residents s g.tower g.col).flatMap fun x =>
    x.members.filter fun w => !(x.id == g.id && w.pos == member) && leaving != some (x.id, w.pos)
  let s1 := leaveRacq s g.tower g.col fun x => x.1 == g.id && x.2.1 == member
  let s2 := s1.updWg g.id member fun w =>
    let w1 := { (w.updBeads (fun _ => true) Bead.reissued).lastInTurn s.nextId with tier := k, move := none }
    ((bindMembers there [w1]).head?).getD w1
  let s3 := s2.updLaunch g.launch fun l => { l with lmoves := l.lmoves + 1 }
  match (s3.gang? g.id).bind (·.member? member) with
  | some w => (wakeCores (rejoinRacq s3 g [w]) g.tower g.col [k]).fresh
  | none => s3

/-- The partner of an exchange is still bound to it. -/
def partnerReady (s : State) (g : Gang) (member : Nat) (o : Nat × Nat) : Option (Gang × Wg × Four) :=
  match s.gang? o.1 with
  | none => none
  | some h =>
    match h.member? o.2 with
    | none => none
    | some y =>
      match y.move with
      | some m => if m.other == some (g.id, member) && h.pending.isNone then some (h, y, m.tier) else none
      | none => none

/-- R309, R310: at the migration point, once the cores it needs are awake (R316); a target that has meanwhile ceased to fit or a save
of the gang cancels the move. What the workgroup leaves, or had reserved, is offered (R299). -/
def execLayerMove (gang member : Nat) (s : State) : Res :=
  .next <|
    match s.gang? gang with
    | none => s
    | some g =>
      match g.member? member with
      | none => s
      | some w =>
        match w.move with
        | none => s
        | some m =>
          let freed (s1 : State) : State := offer s1 g.tower (some g.col)
          let cancel := freed (s.setMove gang member none)
          if !g.resident || g.saving || ((s.col g.tower g.col).cores.get m.tier).trip then cancel
          else if !w.atMigration then s
          else if !coresAwake s g.tower g.col [m.tier, w.tier] then wakeCores s g.tower g.col [m.tier, w.tier]
          else
            match m.other with
            | none =>
              if (coreUse s g.tower g.col m.tier).fits w.use then
                freed (leftColumn s (crossTo s g member m.tier none) g.tower g.col)
              else cancel
            | some o =>
              match partnerReady s g member o with
              | none => cancel
              | some (h, y, back) =>
                if !y.atMigration then s
                else freed (leftColumn s (crossTo (crossTo s g member m.tier (some o)) h y.pos back none) g.tower g.col)

/-! ### Column moves (R312) -/

/-- The gang goes over: contributions applied and its space's lines evicted first, its scratch with it. -/
def moveGang (s : State) (l : Launch) (g : Gang) (col base : Nat) (tiers : List (Nat × Four)) : State :=
  let old := g.col
  let img := (s.col g.tower old).scratch.slice g.scrBase l.scratchAll
  let s0 := evictAll (pushGang s g l.asid) g.tower old fun x => x.asid == l.asid
  let s1 := acquire (leaveRacq s0 g.tower old fun x => x.1 == g.id) g.tower col l.asid 3
  let ks := g.members.map fun w => ((tiers.find? (·.1 == w.pos)).map (·.2)).getD w.tier
  let ws := settleMembers s1 g.tower col ks (g.members.map fun w =>
    { (w.updBeads (fun _ => true) Bead.reissued).lastInTurn s.nextId with move := none })
  let g1 := { g with place := .resident col base, members := ws, pending := none }
  let s2 := (s1.updGang g.id fun x => { g1 with defers := x.defers, copies := x.copies }).updCol g.tower col fun co =>
    { co with scratch := co.scratch.paste base l.scratchAll img }
  let s3 := s2.updLaunch l.id fun l => { l with cmoves := l.cmoves + BitVec.ofNat 32 g.members.length }
  let s4 := (wakeCores (rejoinRacq s3 g1 ws) g.tower col ks).fresh
  offer (leftColumn s (leftColumn s s4 g.tower old) g.tower col) g.tower (some old)

/-- R312, once the cores that it takes are awake (R316); into a column that has begun to drain the gang does not move, and what it had
reserved is offered (R299, R359). -/
def execColumnMove (gang : Nat) (s : State) : Res :=
  .next <|
    match s.gang? gang with
    | none => s
    | some g =>
      match s.launch? g.launch, g.pending with
      | some l, some (.column c base tiers since) =>
        if (s.col g.tower c).draining then offer (s.endMove gang) g.tower none
        else if !g.mayLeave || decide (since + 20000 < (s.tower g.tower).time) then s
        else if !coresAwake s g.tower c (tiers.map (·.2)) then wakeCores s g.tower c (tiers.map (·.2))
        else
          let s1 := applyGang s gang
          if s1.reds.any (·.gang == gang) then s1
          else match s1.gang? gang with
            | some g1 => moveGang s1 l g1 c base tiers
            | none => s1
      | _, _ => s

/-- R312: after 20 µs the move is given up; the gang issues again. -/
def execColumnMoveCancel (gang : Nat) (s : State) : Res :=
  .next <|
    match s.gang? gang with
    | none => s
    | some g =>
      match g.pending with
      | some (.column _ _ _ since) =>
        if since + 20000 ≤ (s.tower g.tower).time then offer (s.endMove gang) g.tower none else s
      | _ => s

/-! ### Leases and gating (R273, R314, R316) -/

/-- R273, R314: the remainder has run out. -/
def execBoostLeaseExpiry (gang member : Nat) (s : State) : Res :=
  .next (s.updWg gang member fun w => { w with lease := w.lease.filter (0 < ·) })

/-- R316. -/
def execCoreGate (t : Four) (col : Nat) (tier : Four) (s : State) : Res :=
  .next <|
    let c := (s.col t col).cores.get tier
    if !c.gated && !coreHeld s t col tier && decide (c.emptySince + 50000 ≤ (s.tower t).time) then
      setCore s t col tier fun c => { c with gated := true, waking := none, gov := 1, ratio := 1 }
    else s

/-- A save, restore or move into the column is in progress. -/
def columnExpects (s : State) (t : Four) (col : Nat) : Bool := s.gangs.any fun g => (g.coming t col).isSome

/-- R121, R316: the cache part is emptied first; a faulted line keeps the column awake. -/
def execColumnGate (t : Four) (col : Nat) (s : State) : Res :=
  .next <|
    let co := s.col t col
    if co.gated || !(residents s t col).isEmpty || columnExpects s t col
        || decide ((s.tower t).time < co.emptySince + 50000) then s
    else
      let s1 := evictAll s t col fun _ => true
      if !((s1.col t col).acc).isEmpty then s1
      else s1.updCol t col fun co => { co with lines := [], gated := true }

/-- R303, R316: a wake takes 2 µs; the core then takes the ratio of what it holds. -/
def execCoreWake (t : Four) (col : Nat) (tier : Four) (s : State) : Res :=
  .next <|
    let c := (s.col t col).cores.get tier
    match c.waking with
    | some since =>
      if c.trip || decide ((s.tower t).time < since + 2000) then s
      else
        let s1 := setCore s t col tier fun c => { c with gated := false, waking := none, emptySince := (s.tower t).time }
        let s2 := s1.updCol t col fun co => { co with gated := false }
        reclass s2 t col tier ((classes s2 t col).upd tier fun _ => .gated)
    | none => s

/-! ### Valves (R307, R371) -/

/-- The highest sensor of a zone beside a layer (R307), of the columns that are present (the model's choice, log 92); the base die's own
reading counts for layer 0. -/
def zoneHeat (s : State) (t : Four) (base : List Nat) (layer zone : Nat) : Nat :=
  let tiers := Four.all.filter fun k => k.val == layer || k.val + 1 == layer
  let sensors := ((presentCols s t).filter fun c => c % 8 == zone).flatMap fun c => tiers.map fun k => ((s.col t c).cores.get k).sensor
  sensors.foldl max (if layer = 0 then base.getD zone 0 else 0)

/-- A valve's opening by its layer's law. -/
def opening (law : ValveLaw) (heat : Nat) : Nat :=
  let x : Int := law.base + (law.gain * ((heat : Int) - law.setpt)).fdiv 16
  (max (law.min : Int) (min x 255)).toNat

/-- R307: valve (l, z) is number 8l + z. -/
def execValveUpdate (t : Four) (base : List Nat) (s : State) : Res :=
  .next <|
    if (s.tower t).time < (s.tower t).lastValve + 1000000 then s
    else
      let vs := (List.range 5).flatMap fun l => (List.range 8).map fun z =>
        opening ((s.tower t).laws.getD l ⟨0, 0, 0, 0⟩) (zoneHeat s t base l z)
      s.updTower t fun tw => { tw with valves := vs, lastValve := tw.time }

/-! ### HBM states (R317, R371) -/

/-- The state that the policy asks for (R371); FLOOR bounds what MODE 0 takes, at once where a stack stands above a FLOOR newly
lowered, and MODE 1 holds STATE (the model's choices, log 93). -/
def Stack.wanted (st : Stack) (temp traffic : Nat) : Nat :=
  if st.mode = 1 then st.hold
  else
    let x := if st.hot ≤ temp ∨ traffic < st.util then st.state + 1
      else if temp < st.cool ∧ st.util ≤ traffic then st.state - 1 else st.state
    min x st.floor

/-- R317: `traffic` is the percentage of the current state's peak over the last 10 ms; at most one change in 10 ms, after
which four groups of eight channels retrain. -/
def execHbmStateChange (t : Four) (stack : Four) (temp traffic : Nat) (s : State) : Res :=
  .next <|
    let st := (s.tower t).hbmStacks.get stack
    let now := (s.tower t).time
    if st.wanted temp traffic = st.state || st.changed.any (fun x => decide (now < x + 10000000)) then s
    else
      s.updTower t fun tw => { tw with hbmStacks := tw.hbmStacks.upd stack fun st =>
        { st with state := st.wanted temp traffic, changed := some now, retrain := 4 } }

/-- R317. -/
def execHbmRetrainComplete (t : Four) (stack : Four) (s : State) : Res :=
  .next (s.updTower t fun tw => { tw with hbmStacks := tw.hbmStacks.upd stack fun st => { st with retrain := st.retrain - 1 } })

end Sys2Proof.Machine
end

