-- ==== Sys2Proof/Machine/Rings.lean ====
section
/-!
DEFINITION. The trap and fault rings and the replies to their records (R325 to R333, R377), divert on fault (R332), the
watchdog (R272).
-/

namespace Sys2Proof.Machine

/-! ### Writing records (R326) -/

def Ring.room (r : Ring) (c : RingCfg) : Bool := decide ((r.prod - r.cons).toNat < 2 ^ c.rlog)

/-- FULL: a record waits for room (R325); a ring that is merely full does not set it (log 95). -/
def Ring.isFull (r : Ring) : Bool :=
  match r.cfg with
  | some c => !r.held.isEmpty && !r.room c
  | none => false

def RingCfg.recVa (c : RingCfg) (prod : Word) (size : Nat) : DWord := vaPlus c.base (size * (prod.toNat % 2 ^ c.rlog))

/-- The oldest held record goes into its ring: the ring after and the memory after; none while it waits. -/
def ringWrite (s : State) (r : Ring) (size : Nat) : Option (State × Ring × Option RingRec) :=
  match r.cfg, r.held with
  | some c, x :: rest =>
    if r.blocked || !r.room c then none
    else
      let va := c.recVa r.prod size
      match rangeFault s c.asid va size .write true with
      | some _ => some (s, { r with ringErr := true, blocked := true }, none)
      | none =>
        some (sysWrite s c.asid va x.bytes,
          { r with held := rest, prod := r.prod + 1, waiting := if x.awaits then r.waiting ++ [(r.prod, x)] else r.waiting },
          some x)
  | _, _ => none

/-! ### Ends of a stop -/

/-- Every bead of a gang, resident or saved. -/
def State.mapGang (s : State) (gang : Nat) (f : Bead → Bead) : State :=
  s.updGang gang fun g => { g with members := g.members.map fun w => w.updBeads (fun _ => true) f }

/-- The members of a gang, each with what holds its beads beside one trap. -/
def State.mapStrand (s : State) (gang trap : Nat) (f : Option Stop → Bead → Bead) : State :=
  s.updGang gang fun g => { g with members := g.members.map fun w => w.mapStops (fun _ => trap) f }

/-- The beads that a trap has stopped. -/
def State.mapTrapped (s : State) (gang trap : Nat) (f : Bead → Bead) : State :=
  s.mapGang gang fun b => if b.stop.any (·.trap == trap) then f b else b

/-- A reply is kept with a bead's stop. -/
def Bead.keepReply (f : Bead → StopReply) (b : Bead) : Bead :=
  { b with stop := b.stop.map fun st => { st with reply := some (f b) } }

/-- The strand that a record names is diverted at its trapping unit; that of a saved gang, or of one being saved, at its restore
(R330, R332, R339). RESTORED stays 1 for a gang that was restored for wrap-up (R346). -/
def divertStrand (s : State) (r : RingRec) (cause : BitVec 4) (again : Bool) : State :=
  match s.gang? r.gang, s.launch? r.launch with
  | some g, some l =>
    if g.resident && !g.saving then
      s.mapStrand r.gang r.id fun other b => b.divertStopped l r.id cause g.wrapBack again other (s.tower g.tower).time
    else s.mapTrapped r.gang r.id (Bead.keepReply fun _ => .divert cause)
  | _, _ => s

/-- What a covered trap still does to its strand once its record does not wait for room: a diversion, or, as by EXIT, the end of
every live lane at its next boundary, groups that an earlier trap has stopped among them (R326, R332, R333). -/
def strandOut (s : State) (t : Four) (r : RingRec) : State :=
  match r.strand with
  | none => s
  | some again =>
    if (s.launch? r.launch).any fun l => (l.towers.get t).killed.isSome then s
    else if again then
      s.updWg r.gang r.member fun w => w.updBeads (Bead.ofHomes r.homes) fun b => { b with dying := true, stop := none }
    else divertStrand s r 2 false

def State.updHeld (s : State) (t : Four) (id : Nat) (f : RingRec → RingRec) : State :=
  s.updTower t fun tw =>
    { tw with trapq := { tw.trapq with held := tw.trapq.held.map fun r => if r.id == id then f r else r } }

/-- One covered trap (R332): the launch is diverted at the tower time of the trap, whatever becomes of the record; the strand
follows once the record does not wait for room. -/
def settleTrap (t : Four) (s : State) (id : Nat) : State :=
  match (s.tower t).trapq.held.find? (·.id == id) with
  | none => s
  | some r =>
    let s1 := if r.divert then divertLaunch 2 .device (s.updHeld t id fun r => { r with divert := false }) r.launch t else s
    if r.strand.isNone || (s1.tower t).trapq.anyWaits (·.id == id) then s1
    else strandOut (s1.updHeld t id fun r => { r with strand := none }) t r

/-- The covered traps of every tower, in the order in which they were raised, before time passes. -/
def settleTraps (s : State) : State :=
  Four.all.foldl (fun s t =>
    (((s.tower t).trapq.held.filter fun r => r.divert || r.strand.isSome).map (·.id)).foldl (settleTrap t) s) s

/-- R266, R326, R332, R333: a covered trap whose record has waited for room acts on its strand now. -/
def execTrapRecordWrite (t : Four) (s : State) : Res :=
  .next <|
    match ringWrite s (s.tower t).trapq 128 with
    | none => s
    | some (s1, r, x) =>
      let s2 := s1.updTower t fun tw => { tw with trapq := r }
      match x with
      | none => s2
      | some x => strandOut (raiseIrq s2 t 1) t x

/-- R326, R327. -/
def execFaultRecordWrite (t : Four) (s : State) : Res :=
  .next <|
    match ringWrite s (s.tower t).fltq 64 with
    | none => s
    | some (s1, r, x) =>
      let s2 := s1.updTower t fun tw => { tw with fltq := r }
      if x.isSome then raiseIrq s2 t 2 else s2

/-! ### CONS (R326) -/

def Ring.consume (r : Ring) (v : Word) : Ring :=
  if (v - r.cons).toNat ≤ (r.prod - r.cons).toNat then { r with cons := v } else { r with badCons := true }

/-- R326. -/
def execTrapqConsWrite (t : Four) (v : DWord) (s : State) : Res :=
  .next (s.updTower t fun tw => { tw with trapq := tw.trapq.consume (v.setWidth 32) })

/-- R326. -/
def execFltqConsWrite (t : Four) (v : DWord) (s : State) : Res :=
  .next (s.updTower t fun tw => { tw with fltq := tw.fltq.consume (v.setWidth 32) })

/-! ### Replies to traps (R330) -/

/-- RESUME (R330): at once in a resident gang, after the acquire of R268 and R269 for a call to the host; at its restore, which
acquires, in a saved one (R339). -/
def resumeStrand (s : State) (t : Four) (r : RingRec) (block : List Byte) : State :=
  let val (b : Bead) : DWord := BitVec.ofNat 64 (field block (0x40 + 8 * b.pos) 8)
  match s.gang? r.gang, s.launch? r.launch with
  | some g, some l =>
    if g.resident then
      let call := r.code == 0x20 || r.code == 0x21
      let s1 := if call then Machine.acquire s g.tower g.col l.asid 5 else s
      s1.mapStrand r.gang r.id fun other b =>
        (if call then { b with acq := s.nextId } else b).resumed l r.id r.dst (val b) r.pc other (s.tower t).time
    else s.mapTrapped r.gang r.id (Bead.keepReply fun b => .resume (val b) r.dst r.pc)
  | _, _ => s

/-- DIVERT by the host: a launch already diverted is not diverted again, but the strand is (R330, R344, R345). -/
def divertReply (s : State) (t : Four) (r : RingRec) : State :=
  match s.launch? r.launch with
  | none => s
  | some l => if l.wrap then divertStrand (divertLaunch 3 .host s l.id t) r 3 true else killLaunch .host s l.id

def badTrapReply (s : State) (t : Four) : State := s.updTower t fun tw => { tw with trapq := { tw.trapq with badReply := true } }

/-- The launch of a record has already been killed in the tower. -/
def recordKilled (s : State) (t : Four) (r : RingRec) : Bool :=
  match s.launch? r.launch with
  | some l => l.finished.isSome || (l.towers.get t).killed.isSome
  | none => true

/-- The block of a reply, read once on PIN pages in the ring's space; one at a misaligned VA is discarded unread (the model's choice,
log 94). -/
def replyBlock (s : State) (t : Four) (va : DWord) : Option (State × List Byte) :=
  match (s.tower t).trapq.cfg with
  | none => none
  | some c => if va.toNat % 128 ≠ 0 then none else readPart c.asid true s va 128

/-- A WRITE OF TRAPQ.REPLY (R330): the block says what it asks for. -/
def trapReply (s : State) (t : Four) (va : DWord) : State :=
  let s0 := s.updTower t fun tw => { tw with trapq := { tw.trapq with reply := va } }
  match replyBlock s0 t va with
  | none => badTrapReply s0 t
  | some (s1, block) =>
    let index : Word := BitVec.ofNat 32 (field block 0 4)
    let kind := field block 8 1
    match (s1.tower t).trapq.waiting.find? (·.1 == index) with
    | none => badTrapReply s1 t
    | some (_, r) =>
      if kind < 1 ∨ 3 < kind then badTrapReply s1 t
      else if recordKilled s1 t r then s1
      else
        let s2 := s1.updTower t fun tw =>
          { tw with trapq := { tw.trapq with waiting := tw.trapq.waiting.filter (·.1 != index) } }
        if kind = 1 then resumeStrand s2 t r block
        else if kind = 2 then killLaunch .host s2 r.launch
        else divertReply s2 t r

/-- R330: a reply whose block holds RESUME. -/
def execResume (t : Four) (block : DWord) (s : State) : Res := .next (trapReply s t block)

/-- R331: a reply whose block holds KILL. -/
def execKill (t : Four) (block : DWord) (s : State) : Res := .next (trapReply s t block)

/-- R330: a reply whose block holds DIVERT. -/
def execDivert (t : Four) (block : DWord) (s : State) : Res := .next (trapReply s t block)

/-! ### Replies to faults (R329, R339) -/

/-- The units attached to a record are marked. -/
def markParks (s : State) (id : Nat) (f : Park → Park) : State :=
  { s with gangs := s.gangs.map fun g =>
      { g with members := g.members.map fun w => w.updBeads (fun b => b.park.any (·.record == id)) fun b =>
          { b with park := b.park.map f } } }

/-- RETRY of a record: resident units replay, saved ones will, held copies go on. -/
def retryRecord (s : State) (id : Nat) : State :=
  let s1 := markParks s id fun p => { p with replay := true }
  releaseParks { s1 with gangs := s1.gangs.map fun g =>
    { g with copies := g.copies.map fun p => if p.hold.any (·.1 == id) && !p.again then p.unheld else p } }

/-- A held copy that FAIL stops (R247, R329, log 27). -/
def failCopy (id : Nat) (s : State) (x : Gang × Copy) : State :=
  match x.2.hold with
  | some (r, va) =>
    if r ≠ id ∨ x.2.again then s
    else
      let need : Byte := if x.2.pieces.any fun p => p.dst.1 then 2 else 1
      stopCopy s x.1 x.2 va (if Config.failIsPermission x.2.id then 3 else 2) need
  | none => s

/-- FAIL of a record: resident units trap with 0x09, saved ones will, held copies stop. -/
def failRecord (s : State) (id : Nat) : State :=
  let s1 := markParks s id fun p => { p with fail := true }
  releaseParks ((s1.gangs.flatMap fun g => g.copies.map fun p => (g, p)).foldl (failCopy id) s1)

/-- A WRITE OF FLTQ.REPLY (R325, R329). -/
def faultReply (s : State) (t : Four) (index : Word) (kind : BitVec 2) : State :=
  let s0 := s.updTower t fun tw => { tw with fltq := { tw.fltq with reply := (kind ++ index).setWidth 64 } }
  match (s0.tower t).fltq.waiting.find? (·.1 == index) with
  | some (_, r) =>
    if kind.toNat ≤ 1 then
      let s1 := s0.updTower t fun tw => { tw with fltq := { tw.fltq with waiting := tw.fltq.waiting.filter (·.1 != index) } }
      if kind == 0 then retryRecord s1 r.id else failRecord s1 r.id
    else s0.updTower t fun tw => { tw with fltq := { tw.fltq with badReply := true } }
  | none => s0.updTower t fun tw => { tw with fltq := { tw.fltq with badReply := true } }

/-- R329. -/
def execRetry (t : Four) (index : Word) (s : State) : Res := .next (faultReply s t index 0)

/-- R329. -/
def execFail (t : Four) (index : Word) (s : State) : Res := .next (faultReply s t index 1)

/-! ### The watchdog (R272) -/

/-- R272: the trapping unit is the one at which the group stands, and a RESUME issues it again (R330); a BGEMV that awaits its
confirmation has had no effect and is gone (R318). CLASP has no limit of its own (R184), and the watchdog bounds it like every wait
(log 73). A VATOM some of whose atomics are made is past a precise trap, and goes on (R224, R318; log 15). -/
def execWatchdog (gang member grp : Nat) (s : State) : Res :=
  .next (withGroup s { gang, member, grp, resv := false } fun c s =>
    if c.lead.stop.isSome || c.lead.park.isSome || c.lead.wait.any (fun w => !w.hits.isEmpty)
        || decide (c.now s < c.lead.lastIssue + (s.tower c.tower).watchdogMs * 1000000) then s
    else takeTrapAt c (c.leaveBank s) { code := 0x3F } c.upc c.upc)

end Sys2Proof.Machine
end

