-- ==== Sys2Proof/Machine/Boot.lean ====
section
/-!
DEFINITION. Start-up and minimal mode (R361 to R363), loss of power, errors and self-tests (R18, R364, R365, R372), tower time's
discipline (R341), leadership (R360).
-/

namespace Sys2Proof.Machine

/-! ### The error log (R372) -/

/-- The first register of an entry. -/
def errWord (unit index sub : Byte) (corr : Bool) (outcome : BitVec 3) (loc : Word) : DWord :=
  loc ++ (0#4 ++ (outcome ++ (BitVec.ofBool corr ++ (sub ++ (index ++ unit)))))

/-- A unit as R372 names it: the tier of a core and the boundary of vertical connections stand in ERR.SUB, which is 0xFF for every
other unit, and a UCIe module's ERR.INDEX is 0. -/
def ErrUnit.named (unit index sub : Byte) : ErrUnit :=
  { unit, index := if unit = 8 then 0 else index, sub := if unit = 0 ∨ unit = 2 then sub &&& 3 else 0xFF }

/-- The units of R372, by their indices: columns, slices, channels, die-to-die links, local ports; R372 gives the cellar's none. -/
def ErrUnit.exists (u : ErrUnit) : Bool :=
  match u.unit.toNat with
  | 0 | 1 | 2 => decide (u.index.toNat < 40)
  | 3 => decide (u.index.toNat < 16)
  | 4 | 9 => decide (u.index.toNat < 4)
  | 5 | 8 => true
  | 6 => decide (u.index.toNat < 128)
  | 7 => decide (u.index.toNat < 6)
  | _ => false

/-- The first register of an entry about a unit. -/
def ErrUnit.word (u : ErrUnit) (corr : Bool) (outcome : BitVec 3) (loc : Word) : DWord := errWord u.unit u.index u.sub corr outcome loc

/-- An entry written; the log wraps. -/
def Tower.logError (tw : Tower) (e : DWord) : Tower :=
  { tw with errlog := updAt tw.errlog (tw.errcnt.toNat % 64) fun _ => (e, BitVec.ofNat 64 tw.time), errcnt := tw.errcnt + 1 }

/-! ### Retiring a column (R18) -/

/-- The logical number points at a spare site, or is marked absent; accumulator lines that cannot leave stay with it. The spare starts
as a column does after reset: cores ungated at ratio one half, thresholds clear, the pointer of R304 at tier 0 (the model's choice,
log 99). -/
def Tower.retireColumn (tw : Tower) (c : Nat) : Tower :=
  if 0 < tw.spares then
    { tw with spares := tw.spares - 1
              cols := updAt tw.cols c fun co =>
                { Column.reset with steps := co.steps, draining := co.draining, acc := co.acc, emptySince := tw.time } }
  else { tw with boot := { tw.boot with cols := tw.boot.cols &&& ~~~(1#40 <<< c) } }

/-! ### A start (R361 to R363) -/

/-- A part that a start finds bad: reason, unit, index, place within the unit; a column that a spare may replace. -/
structure BadPart where
  reason : Byte
  unit : Byte
  index : Byte
  sub : Byte
  col : Option Nat
deriving DecidableEq, Repr

/-- The parts of a tower that fail its self-test, in the order of their reasons. -/
def badColumns (x : TowerStart) : List BadPart :=
  x.coreBad.map (fun c => ⟨1, 0, BitVec.ofNat 8 c.1, BitVec.ofNat 8 c.2.val, some c.1⟩)
    ++ x.storeBad.map (fun c => ⟨2, 1, BitVec.ofNat 8 c, 0xFF, some c⟩)
    ++ x.vertBad.map (fun c => ⟨3, 2, BitVec.ofNat 8 c.1, BitVec.ofNat 8 c.2.val, some c.1⟩)

/-- One bad column: a spare takes over, or the start fails for its reason. -/
def replaceBad (r : Tower × List Nat × Option Byte) (b : BadPart) : Tower × List Nat × Option Byte :=
  match b.col with
  | none => r
  | some c =>
    if !r.1.present c || r.2.1.contains c then r
    else if 0 < r.1.spares then
      ((r.1.retireColumn c).logError (errWord b.unit b.index b.sub false 4 0), c :: r.2.1, r.2.2)
    else (r.1.logError (errWord b.unit b.index b.sub false 7 0), c :: r.2.1, some (r.2.2.getD b.reason))

/-- A tower's self-test: the tower after it, and why it failed. -/
def Tower.selfTested (x : TowerStart) (tw : Tower) : Tower × Option Byte :=
  let r := (badColumns x).foldl replaceBad (tw, [], none)
  let why := match r.2.2 with
    | some c => some c
    | none => if tw.failNext == some 2 then some 2 else none
  ({ r.1 with boot := { r.1.boot with passed := why.isNone }, failNext := r.1.failNext.filter (· != 2) }, why)

/-- HBM training and what else a start meets: an uncorrected error is logged, its unit's test pending (R364, R365). -/
def Tower.trained (x : TowerStart) (tw : Tower) : Tower × Option Byte :=
  match x.stackBad, (x.uncorrected.map fun e => ErrUnit.named e.1 e.2.1 e.2.2).filter ErrUnit.exists with
  | some k, _ => (tw.logError (errWord 6 (BitVec.ofNat 8 (32 * k.val)) 0xFF false 7 0), some 4)
  | none, some u => ({ tw.logError (u.word false 2 0) with errUnits := tw.errUnits ++ [u] }, some 8)
  | none, none => (tw, tw.failNext.filter fun r => r == 4 || r == 8)

/-- The tower stays in a STATE of its start and comes no further (R361). -/
def stallsBy (state : Nat) (x : TowerStart) : Bool := x.stalls.any fun n => decide (n.toNat ≤ state)

/-- A tower right after a reset: everything as R356 and the other register tables say, with what outlives a reset: FAILS,
the columns present, spares and spare connections, what the next start fails for; and REASON, which tells of the last failed start
though its Reset entry is 0 (the model's choice, log 58). -/
def Tower.afterReset (tw : Tower) : Tower :=
  { Tower.reset with
      cols := tw.cols.map fun co => { Column.reset with conns := co.conns }
      spares := tw.spares
      failNext := tw.failNext
      boot := { Boot.reset with cols := tw.boot.cols, numbered := tw.boot.numbered, fails := tw.boot.fails, reason := tw.boot.reason } }

/-- Entry into maintenance mode at a reset (R113, R361): accumulator lines flushed, dirty lines of every L2 written back, the
stores to BANK pages brought home. A line whose flush faults, contributions and stores that have not reached their home are lost
with the columns (log 21). -/
def writeBackAll (s : State) : State :=
  let s0 := Four.all.foldl (fun s t => (List.range 40).foldl (fun s c => evictAll s t c fun _ => true) s) s
  let s1 := Four.all.foldl (fun s t => (s.tower t).l2.foldl writeBack s) s0
  Four.all.foldl (fun s t => (s.tower t).bank.foldl (fun s (b : BankByte) => flushBankLine s (b.pa / 128 * 128)) s) s1

/-- THE MODULE AFTER A RESET: memory and the accepted patch stay (R369). -/
def resetModule (s : State) : State :=
  let s1 := writeBackAll s
  { State.reset with
      seq := s1.seq, nextId := s1.nextId, turn := s1.turn, agenda := s1.agenda, hbm := s1.hbm, patch := s1.patch,
      towers := s1.towers.map Tower.afterReset }

/-- COLCFG.SCRATCH of present columns at a start (R23). -/
def Tower.carved (tw : Tower) : Tower :=
  { tw with cols := tw.cols.mapIdx fun c co => if tw.present c then { co with steps := 4 } else co }

/-- BOOTSTAT.STATE as it changes, with IRQ.STAT.BOOT (R356). -/
def Tower.enter (state : Nat) (tw : Tower) : Tower :=
  let tw1 := { tw with boot := { tw.boot with state } }
  if 4 ≤ state then tw1.raise 3 else tw1

/-- The lease goes to a tower; every change of LEADER raises IRQ.STAT.BOOT (R356, R360). -/
def lead (s : State) (t : Four) (epoch : Half) : State :=
  let expiry := BitVec.ofNat 64 ((s.tower t).time + 10000000)
  { s with
      lease := { leader := t, epoch, expiry }
      towers := s.towers.mapIdx fun u tw =>
        let tw1 := { tw with boot := { tw.boot with leader := u == t }, epoch }
        if tw.boot.leader == (u == t) then tw1 else tw1.raise 3 }

/-- A kept patch verifies again and is no older than the fused minimum (R369, R376). -/
def Patch.stands (p : Patch) : Bool :=
  Config.patchVerifies p.image && Config.sha256 ((p.image.drop 64).take (field p.image 8 4)) == p.digest
    && decide (Config.minPatchVersion.toNat ≤ p.version.toNat)

/-- Minimal mode: the lowest tower that passed its self-test runs, the others hold (R363). -/
def minimalMode (s : State) : State :=
  let up := Four.all.find? fun t => (s.tower t).boot.passed
  let s1 := { s with
    startAt := none
    tries := []
    applied := s.patch.filter Patch.stands
    towers := s.towers.mapIdx fun t tw =>
      if up = some t then (Tower.carved { tw with boot := { tw.boot with minimal := true } }).enter 5 else tw.enter 6 }
  match up with
  | some t => lead s1 t s1.lease.epoch
  | none => s1

/-- A failed start: REASON and FAILS in every tower (R361). -/
def countFailure (reason : Byte) (s : State) : State :=
  { s with towers := s.towers.map fun tw => { tw with boot := { tw.boot with reason, fails := min 3 (tw.boot.fails + 1) } } }

/-- READY in every tower: the patch is applied, maintenance mode is left and FAILS cleared (R361, R369). -/
def readyAll (s : State) : State :=
  lead { s with
    startAt := none
    tries := []
    applied := s.patch
    towers := s.towers.map fun tw => (Tower.carved { tw with boot := { tw.boot with fails := 0, maint := false } }).enter 4 } 0 s.lease.epoch

/-- The first start numbers every column as present (R18). -/
def Tower.numbered (tw : Tower) : Tower :=
  { tw with boot := { tw.boot with cols := if tw.boot.numbered then tw.boot.cols else BitVec.allOnes 40, numbered := true } }

/-- A part of every tower's start: what it makes of the tower, and why it failed; a tower that stalls before its end does not
come to it. -/
def startStage (s : State) (starts : Quad TowerStart) (state : Nat) (f : TowerStart → Tower → Tower × Option Byte) :
    State × Option Byte :=
  let r : Quad (Tower × Option Byte) := s.towers.mapIdx fun t (tw : Tower) =>
    if stallsBy state (starts.get t) then (tw, none) else f (starts.get t) tw
  ({ s with towers := r.map fun (x : Tower × Option Byte) => x.1 }, r.toList.findSome? (·.2))

/-- How an attempt to start ends; one that stalls has not ended. -/
inductive Attempt where
  | ready (s : State)
  | stalled (s : State)
  | failed (s : State) (reason : Byte)

/-- ONE ATTEMPT TO START, from a reset module: self-test (STATE 1), HBM training (2), links (3), a leader, the patch verified
(R361, R362, R369). A tower that stalls holds its STATE. -/
def attemptOnce (s : State) (starts : Quad TowerStart) : Attempt :=
  let r1 := startStage { s with towers := s.towers.map Tower.numbered } starts 1 Tower.selfTested
  match r1.2 with
  | some r => .failed r1.1 r
  | none =>
    let r2 := startStage r1.1 starts 2 fun x tw => let y := tw.trained x; ({ y.1 with failNext := none }, y.2)
    match r2.2 with
    | some r => .failed r2.1 r
    | none =>
      if starts.toList.any (·.stalls.isSome) then
        .stalled { r2.1 with towers := r2.1.towers.mapIdx fun t tw => tw.enter (((starts.get t).stalls.map (·.toNat)).getD 3) }
      else if starts.toList.any (·.noLeader) then .failed r2.1 7
      else if r2.1.patch.any (!·.stands) then .failed r2.1 6
      else .ready (readyAll r2.1)

/-- THE STARTS THAT FOLLOW A RESET (R361): an attempt, and after each failure another at once while FAILS is below 3, else minimal
mode. What each attempt finds is an input: one for which none is left stands in STATE 0 until a later step brings it, and those of an
attempt that stalls are kept for the ones after it (log 58). -/
def startFrom : List (Quad TowerStart) → State → State
  | [], s => { s with tries := [] }
  | x :: xs, s =>
    match attemptOnce s x with
    | .ready s1 => s1
    | .stalled s1 => { s1 with tries := xs }
    | .failed s1 reason =>
      let s2 := countFailure reason s1
      if (s2.tower 0).boot.fails < 3 then startFrom xs (resetModule s2) else minimalMode s2

/-- A start has failed otherwise than by what its attempt found: it is counted, and the module restarts at once or comes up in minimal
mode (R361). -/
def failStart (s : State) (reason : Byte) (starts : List (Quad TowerStart)) : State :=
  let s1 := countFailure reason s
  if (s1.tower 0).boot.fails < 3 then startFrom starts (resetModule s1) else minimalMode s1

/-- READY has not been reached within 5 s of the reset (R361). -/
def startOver (s : State) : Bool := s.startAt.any fun t0 => decide (t0 + 5000000000 ≤ (s.tower 0).time)

/-- A start that has not reached READY in 5 s fails when time reaches that instant, whatever step comes (R361). -/
def startDue (s : State) : State := if startOver s then failStart s 5 s.tries else s

/-- A reset after a third failed start attempts no full start (R361, R363, log 86): the towers' self-tests, then minimal mode. -/
def minimalStart (s : State) (starts : Quad TowerStart) : State :=
  minimalMode (startStage { s with towers := s.towers.map Tower.numbered } starts 1 Tower.selfTested).1

/-- R361: a reset and the attempts to start that follow it; only RESTART ends minimal mode (R363). -/
def execReset (starts : List (Quad TowerStart)) (s : State) : Res :=
  let s1 := resetModule s
  .next (if (s1.tower 0).boot.fails < 3 then startFrom starts s1 else
    match starts with
    | x :: _ => minimalStart s1 x
    | [] => s1)

/-- R361: READY not reached by all towers within 5 s of the reset; unless minimal mode follows, a further attempt. -/
def execStartTimeout (starts : List (Quad TowerStart)) (s : State) : Res := .next (if startOver s then failStart s 5 starts else s)

/-- R361, R369: FAILS and the accepted patch are lost, with all that a reset does; sites that were used up stay so. -/
def execPowerLoss (s : State) : Res :=
  .next { State.reset with
    seq := s.seq, nextId := s.nextId, turn := s.turn, agenda := s.agenda,
    towers := s.towers.map fun tw => { tw.afterReset with boot := { Boot.reset with cols := tw.boot.cols, numbered := tw.boot.numbered } } }

/-! ### Errors and self-tests (R364, R365) -/

/-- What is pending and a drain forbids (R359): a column move into one of its columns; in them saves for parking and eviction, whose
launches choose anew. -/
def cancelMoves (s : State) (t : Four) (cols : List Nat) : State :=
  let s1 := (s.gangs.filter (·.tower == t)).foldl (fun s g =>
    match g.pending with
    | some (.column c ..) => if cols.contains c then s.endMove g.id else s
    | _ => s) s
  offer ((cols.flatMap (residents s1 t)).foldl (fun s g => s.endSave g.id) s1) t none

/-- No workgroup is in the column, and no save, restore or move is under way (R23, R359). -/
def columnFree (s : State) (t : Four) (col : Nat) : Bool := (residents s t col).isEmpty && !columnExpects s t col

/-- Every accumulator line leaves a column, as far as it can, and the cache part is dropped (R23, R119). -/
def emptyCachePart (s : State) (t : Four) (col : Nat) : State :=
  (evictAll s t col fun _ => true).updCol t col fun co => { co with lines := [] }

/-- R364: an error in a column drains it for its test, which ends the moves pending into it (R359). What names no unit of R372 is no
error. -/
def execErrorDetected (t : Four) (e : ErrorEvent) (s : State) : Res :=
  .next <|
    let u := ErrUnit.named e.unit e.index e.sub
    let killed := if e.corrected then [] else e.launches.filter fun id => (s.launch? id).any (·.finished.isNone)
    let outcome : BitVec 3 := if e.corrected then 0 else if killed.isEmpty then 2 else 1
    let s1 := s.updTower t fun tw => tw.logError (u.word e.corrected outcome e.loc)
    let s2 := s1.updTower t fun tw =>
      { tw with errUnits := tw.errUnits ++ [u]
                cols := if u.unit.toNat ≤ 2 then updAt tw.cols u.index.toNat fun co => { co with draining := true } else tw.cols }
    let s3 := if u.unit.toNat ≤ 2 then cancelMoves s2 t [u.index.toNat] else s2
    if u.exists then killed.foldl (killLaunch .device) s3 else s

/-- The outcome of a column's test (R365): in service again, or retired. -/
def concludeColumn (s : State) (t : Four) (unit index sub : Byte) (v : TestVerdict) : State :=
  if v = .pass then s.updTower t fun tw => tw.logError (errWord unit index sub false 3 0)
  else
    (emptyCachePart s t index.toNat).updTower t fun tw =>
      (tw.retireColumn index.toNat).logError (errWord unit index sub false (if 0 < tw.spares then 4 else 5) 0)

/-- The reason for which the next start fails after a test in service that spare rows cannot repair (R365); for a unit that R365
gives none, an uncorrected error at start (log 76). -/
def failReason (unit : Byte) : Byte := if unit == 6 then 4 else if unit == 3 || unit == 4 then 2 else 8

/-- The outcome of a test in service: a fault that spare rows cannot repair fails the next start. -/
def concludeUnit (s : State) (t : Four) (unit index sub : Byte) (v : TestVerdict) : State :=
  s.updTower t fun tw =>
    match v with
    | .pass => tw.logError (errWord unit index sub false 3 0)
    | .repaired => tw.logError (errWord unit index sub false 6 0)
    | .failed => { tw.logError (errWord unit index sub false 7 0) with failNext := some (failReason unit) }

/-- R365: the test that an error starts; it ends the drain of its column, also one that DRAIN had set (the model's choice, log
59). -/
def execTargetedSelfTest (t : Four) (unit index : Byte) (v : TestVerdict) (s : State) : Res :=
  .next <|
    match (s.tower t).errUnits.find? fun e => e.unit == unit && e.index == index with
    | none => s
    | some e =>
      let clear (s : State) : State := s.updTower t fun tw => { tw with errUnits := tw.errUnits.filter (· != e) }
      if unit.toNat ≤ 2 then
        if columnFree s t index.toNat then
          let s1 := clear (concludeColumn s t unit index e.sub v)
          let more := (s1.tower t).errUnits.any fun x => decide (x.unit.toNat ≤ 2) && x.index == index
          if more then s1 else offer (s1.updCol t index.toNat fun co => { co with draining := false }) t (some index.toNat)
        else s
      else clear (concludeUnit s t unit index e.sub v)

/-! ### Tower time (R341) -/

/-- A rate's correction within 100 ppm (R341), in parts per billion. -/
def clampRate (r : Int) : Int := max (-100000) (min 100000 r)

/-- R341: within 50 ns of the reference. While locked only the rate changes; a tower that has lost its lock keeps its last; before
lock the count steps forward, never back. -/
def Tower.sampleTime (draw : Nat) (reference : Nat) (old : Tower) : Tower :=
  let tw := old.lapse
  let ref := reference % 2 ^ 64
  let near := decide (tw.time ≤ ref + 50) && decide (ref ≤ tw.time + 50)
  if tw.lock.locked then
    if near then { tw with rate := clampRate (Config.rateStep draw), lock := { tw.lock with lastSample := tw.time } }
    else { tw with lock := { tw.lock.unlock with lastSample := tw.time } }
  else if near then
    { tw with lock := { tw.lock with good := tw.lock.good + 1, locked := decide (16 ≤ tw.lock.good + 1), lastSample := tw.time } }
  else
    let now := max tw.time ref
    { tw with clock := BitVec.ofNat 64 now, lock := { tw.lock with good := 0, lastSample := now } }

/-- R341; what a step of the count adds is tower time that leases count (R314). -/
def execPtpSample (t : Four) (reference : Nat) (s : State) : Res :=
  .next (s.setTimes (s.updTower t (Tower.sampleTime s.nextId reference)).towers).fresh

/-- R341: 10 ms of its own time without a sample. -/
def execLockTimeout (t : Four) (s : State) : Res :=
  .next (s.updTower t Tower.lapse)

/-! ### Leadership (R360) -/

/-- R360: 2 ms after the last renewal. -/
def execLeaseRenew (t : Four) (s : State) : Res :=
  .next <|
    let now := (s.tower t).time
    if (s.tower t).boot.leader && s.lease.leader == t && decide (s.lease.expiry.toNat ≤ now + 8000000) then
      { s with lease := { s.lease with expiry := BitVec.ofNat 64 (now + 10000000) } }
    else s

/-- A follower's rank. -/
def leaseRank (s : State) (t : Four) : Nat := (Four.all.filter fun u => decide (u.val < t.val) && u != s.lease.leader).length

/-- R360: the claim; the former leader's commands are ended by the step that hears of it (Admin). -/
def claimLease (s : State) (t : Four) : Option State :=
  let due := s.lease.expiry.toNat + 5000000 * leaseRank s t
  let st := (s.tower t).boot.state
  if s.lease.leader != t && (st == 4 || st == 5) && decide (due ≤ (s.tower t).time) then some (lead s t (s.lease.epoch + 1)) else none

end Sys2Proof.Machine
end

