-- ==== Sys2Proof/Machine/Links.lean ====
section
/-!
DEFINITION. Wasko links, windows and the link queue (R367, R368, R374), and the host die as an agent of memory (R103).
-/

namespace Sys2Proof.Machine

/-! ### Ports (R367) -/

/-- A port is enabled by SET_LINK's mask. -/
def portEnabled (s : State) (t k : Four) : Bool := s.portMask.getLsbD (4 * t.val + k.val)

/-- A port as it changes; a change of state raises IRQ.STAT.LINK, one of PEERSW alone does not (the model's choice, log 75). -/
def setPort (s : State) (t k : Four) (p : Port) : State :=
  let changed := ((s.tower t).ports.get k).state != p.state
  let s1 := s.updTower t fun tw => { tw with ports := tw.ports.set k p }
  if changed then raiseIrq s1 t 4 else s1

/-- More than 1 retry in 10^6 flits (R367). -/
def Port.over (p : Port) : Bool := decide (p.flits < p.errs * 1000000)

/-- A second of the port begins. -/
def Port.anew (now : Nat) (p : Port) : Port := { p with flits := 0, errs := 0, since := now }

/-- The end of a port's second: one that is up goes down after too many retries (R367). -/
def endSecond (s : State) (t k : Four) : State :=
  let p := (s.tower t).ports.get k
  setPort s t k ({ p with state := if p.state == 2 && p.over then 0 else p.state }.anew (s.tower t).time)

/-- Flits and retries of a port that is up (R367). -/
def Port.carry (flits errs : Nat) (p : Port) : Port :=
  if p.state == 2 then { p with flits := p.flits + flits, errs := p.errs + errs, retries := p.retries + BitVec.ofNat 32 errs } else p

/-- A port's second is over (R367). -/
def secondOver (s : State) (t k : Four) : Bool := decide (((s.tower t).ports.get k).since + 1000000000 ≤ (s.tower t).time)

/-- R367: the link reports the retries that a port has met since the last report beside those of the module's own transfers (log
75); they count in the port's second, at whose end it is judged. -/
def execPortDown (t : Four) (port : Four) (retries : Word) (s : State) : Res :=
  let s1 := s.updTower t fun tw =>
    { tw with ports := tw.ports.upd port (Port.carry (Config.portFlits s.nextId (4 * t.val + port.val)) retries.toNat) }
  .next (if secondOver s1 t port then endSecond s1 t port else s1).fresh

/-- R367: a disabled port stays down; state 3 is none. A change of state begins a second of the port; one of PEERSW alone does not. -/
def execPortStateChange (t : Four) (port : Four) (state : BitVec 2) (peersw : Half) (s : State) : Res :=
  .next (if state = 3 || (state != 0 && !portEnabled s t port) then s
    else
      let p := (s.tower t).ports.get port
      setPort s t port (if p.state = state then { p with peersw } else { p with state, peersw }.anew (s.tower t).time))

/-! ### The link queue (R368, R374) -/

/-- The link queue runs: not in minimal mode, nor in a tower that is held or starting (R363). -/
def linksRun (s : State) (t : Four) : Bool := (s.tower t).boot.state == 4

/-- Flits and retries on the ports that carry a transfer, those that are up (R367, R368; log 75). -/
def countRetries (s : State) : State :=
  { s with towers := s.towers.mapIdx fun t tw =>
      { tw with ports := tw.ports.mapIdx fun k =>
          Port.carry (Config.portFlits s.nextId (4 * t.val + k.val)) (Config.portRetries s.nextId (4 * t.val + k.val)) } }

/-- Ports whose second is over (R367). -/
def portSeconds (s : State) (t : Four) : State :=
  Four.all.foldl (fun s k =>
    if ((s.tower t).ports.get k).state == 2 && secondOver s t k then endSecond s t k else s) s

/-- R368: a write that would publish beyond HEAD + 256 is discarded, and one while LINKQ.BASE is no legal base or the link queue does
not run (the model's choice, log 57); each descriptor is read once, now. -/
def execLinkqTailWrite (t : Four) (v : DWord) (s : State) : Res :=
  .next <|
    let q := (s.tower t).linkq
    match q.judge (v.setWidth 32) with
    | some tail =>
      if !q.baseOk t || !linksRun s t then s
      else
        let n := (tail - q.tail).toNat
        let xs : List LinkXfer := (List.range n).map fun k =>
          let c := q.tail + BitVec.ofNat 32 k
          { ctr := c, bytes := physRead s (q.base.toNat + 64 * (c.toNat % 256)) 64, started := false, status := none, answered := false }
        s.updTower t fun tw => { tw with links := tw.links ++ xs, linkq := { tw.linkq with tail } }
    | none => s

def LinkXfer.lasid (x : LinkXfer) : Half := BitVec.ofNat 16 (field x.bytes 0 2)
def LinkXfer.lva (x : LinkXfer) : DWord := BitVec.ofNat 64 (field x.bytes 8 8)
def LinkXfer.count (x : LinkXfer) : Nat := field x.bytes 0x18 8

/-- A descriptor as R374 lays it out. -/
def LinkXfer.ok (x : LinkXfer) : Bool :=
  let b := x.bytes
  field b 0 2 != 0 && decide (field b 2 1 ≤ 1) && zeroAt b 3 1 && decide (field b 4 2 ≤ 1023) && zeroAt b 7 1
    && field b 8 8 % 16 == 0 && field b 0x10 8 % 16 == 0 && decide (16 ≤ x.count) && decide (x.count ≤ 2 ^ 32)
    && x.count % 16 == 0 && field b 0x20 8 % 8 == 0 && zeroAt b 0x28 24

def Tower.updLink (tw : Tower) (ctr : Word) (f : LinkXfer → LinkXfer) : Tower :=
  { tw with links := tw.links.map fun x => if x.ctr == ctr then f x else x }

/-- A port that may carry flits. -/
def portUp (s : State) (t : Four) : Bool := Four.all.any fun k => ((s.tower t).ports.get k).state == 2

/-- R368, R374: a transfer begins; a bad descriptor or the want of a port decides its status at once. -/
def execLinkTransfer (t : Four) (slot : Nat) (s : State) : Res :=
  .next <|
    match (s.tower t).links.find? fun x => linksRun s t && x.ctr.toNat % 256 == slot && !x.started with
    | some x =>
      let status : Option Byte := if !x.ok then some 5 else if !(Four.all.any (portUp s)) then some 4 else none
      s.updTower t fun tw => tw.updLink x.ctr fun x => { x with started := true, status }
    | none => s

/-- The transfer's effect on local memory, with its status: what the peer answers, unless a local check fails. -/
def linkEffect (s : State) (x : LinkXfer) (status : Byte) (data : List Byte) : State × Byte :=
  match x.status with
  | some st => (s, st)
  | none =>
    if field x.bytes 2 1 = 0 then
      match rangeFault s x.lasid x.lva x.count .read false with
      | some _ => (s, 3)
      | none => ((sysRead s x.lasid x.lva x.count).1, status)
    else
      match rangeFault s x.lasid x.lva x.count .write false with
      | some _ => (s, 3)
      | none => (sysWrite s x.lasid x.lva (data.take x.count), status)

/-- The peer's part of an answer: done, window closed, refused, or no port left; done from the peer brings every byte. -/
def linkAnswer (x : LinkXfer) (status : Byte) (data : List Byte) : Bool :=
  x.status.isSome || status == 1 || status == 2 || status == 4
    || (status == 0 && (field x.bytes 2 1 == 0 || decide (x.count ≤ data.length)))

/-- HEAD passes the transfers whose words have been written. -/
def Tower.advanceLinks (tw : Tower) : Tower :=
  { tw with linkq := { tw.linkq with head := tw.linkq.head + BitVec.ofNat 32 (tw.links.takeWhile (·.answered)).length }
            links := tw.links.dropWhile (·.answered) }

/-- R368, R374: a transfer ends: its word is written, then an acquire at system scope; a word that cannot be written keeps
its slot. -/
def execLinkTransferComplete (t : Four) (slot : Nat) (status : Byte) (data : List Byte) (s : State) : Res :=
  .next <|
    match (s.tower t).links.find? fun x => linksRun s t && x.ctr.toNat % 256 == slot && x.started && !x.answered with
    | none => s
    | some x =>
      if !linkAnswer x status data then s
      else
        let r := linkEffect (countRetries s).fresh x status data
        let cva := BitVec.ofNat 64 (field x.bytes 0x20 8)
        match rangeFault r.1 x.lasid cva 8 .write true with
        | some _ => r.1.updTower t fun tw => tw.updLink x.ctr fun x => { x with status := some r.2 }
        | none =>
          (sysWrite r.1 x.lasid cva (leBytes 8 r.2.toNat)).updTower t fun tw =>
            Tower.advanceLinks (Tower.updLink { tw with rdc := tw.rdc.filter (·.asid != x.lasid) } x.ctr fun x =>
              { x with answered := true })

/-! ### Inbound accesses (R368) -/

/-- The window of a peer's access: open, the peer's own or anyone's, the range inside, writable for a write. -/
def windowFor (s : State) (win : Byte) (peer : Half) (off len : Nat) (wr : Bool) : Option Window :=
  s.windows.find? fun w => w.num == win.toNat && (w.anyPeer || w.peer == peer) && decide (off + len ≤ w.len.toNat) && (!wr || w.write)

/-- A read or write at system scope in a space; one that faults has no effect. -/
def agentAccess (s : State) (asid : Half) (va : DWord) (len : Nat) (write : Option (List Byte)) : State :=
  match write with
  | some bs =>
    match rangeFault s asid va bs.length .write false with
    | some _ => s
    | none => sysWrite s asid va bs
  | none =>
    match rangeFault s asid va len .read false with
    | some _ => s
    | none => (sysRead s asid va len).1

/-- R368: a failed check ends the access; it is never replayed. -/
def execPeerAccess (_t : Four) (win : Byte) (peer : Half) (off : DWord) (len : Nat) (write : Option (List Byte)) (s : State) : Res :=
  .next <|
    let n := match write with | some bs => bs.length | none => len
    match windowFor s win peer off.toNat n write.isSome with
    | some w => agentAccess s w.asid (w.va + off) len write
    | none => s

/-- R103. -/
def execHostAccess (asid : Half) (va : DWord) (len : Nat) (write : Option (List Byte)) (s : State) : Res :=
  .next (agentAccess s asid va len write)

end Sys2Proof.Machine
end

