-- ==== Sys2Proof/Machine/Admin.lean ====
section
/-!
DEFINITION. The admin queue and its commands (R357 to R359, R371), with the stack test (R366, R373), patches and attestation
(R369, R370, R375, R376), and the claim of the lease (R360).
-/

namespace Sys2Proof.Machine

/-! ### The queue (R357) -/

/-- R357: as R291 judges a tail. -/
def execAdmqTailWrite (t : Four) (v : DWord) (s : State) : Res :=
  .next (s.updTower t fun tw =>
    match tw.admq.judge (v.setWidth 32) with
    | some tail => { tw with admq := { tw.admq with tail } }
    | none => tw)

def CmdQueue.cmdPa (q : CmdQueue) : Nat := q.base.toNat + 64 * (q.head.toNat % 256)

/-- Firmware executes commands of the tower: READY or MINIMAL, something published, a legal base. -/
def admReady (s : State) (t : Four) : Bool :=
  let tw := s.tower t
  (tw.boot.state == 4 || tw.boot.state == 5) && tw.admq.head != tw.admq.tail && tw.admq.baseOk t

/-- The command at the head. -/
def admCommand (s : State) (t : Four) : Option (List Byte) :=
  if admReady s t then some (physRead s (s.tower t).admq.cmdPa 64) else none

/-- The head command ends: STATUS, HEAD, IRQ.STAT.ADMIN. -/
def endCommand (s : State) (t : Four) (status : Nat) : State :=
  let s1 := physWrite s ((s.tower t).admq.cmdPa + 2) (leBytes 2 status)
  raiseIrq (s1.updTower t fun tw => { tw with admq := { tw.admq with head := tw.admq.head + 1 }, admSince := none }) t 0

/-- Operand bytes that R371 lists, by OP: offset and size. -/
def operandBytes (op : Nat) : List (Nat × Nat) :=
  match op with
  | 0x01 => [(8, 2), (0x10, 8)]
  | 0x02 | 0x04 | 0x11 => if op = 0x11 then [(8, 4)] else [(8, 2)]
  | 0x03 => [(8, 4), (0x10, 8)]
  | 0x05 => [(8, 1), (0xA, 2)]
  | 0x06 => [(8, 4), (0x10, 8)]
  | 0x07 => [(8, 2), (0x10, 16)]
  | 0x08 | 0x0E => [(8, 2)]
  | 0x09 | 0x10 | 0x13 | 0x16 => [(8, 1)]
  | 0x0A => [(8, 4)]
  | 0x0B => [(8, 1), (0xA, 5)]
  | 0x0C => [(8, 9)]
  | 0x0D => [(8, 3)]
  | 0x0F => [(8, 1), (0x10, 8)]
  | 0x12 => [(8, 6), (0x10, 16)]
  | 0x14 => [(0x10, 12)]
  | 0x15 => [(0x10, 8), (0x20, 32)]
  | _ => []

/-- Every operand byte that is not listed is zero. -/
def operandsClean (op : Nat) (cmd : List Byte) : Bool :=
  (List.range 56).all fun k =>
    (operandBytes op).any (fun r => decide (r.1 ≤ k + 8) && decide (k + 8 < r.1 + r.2)) || cmd.getD (k + 8) 0 == 0

/-- Commands marked "leader". -/
def leaderOp (op : Nat) : Bool := decide (0x11 ≤ op) && decide (op ≤ 0x15)

def leaderLive (s : State) : Bool := Four.all.any fun t => (s.tower t).boot.leader

/-- THE EXECUTION OF THE HEAD COMMAND by the step of its kind (R357, R358): `f` gives its effect and its status, none while it
goes on; an OP that names no command, or a nonzero reserved byte, ends with BAD_COMMAND. -/
def adminRun (op : Nat) (t : Four) (s : State) (f : List Byte → State × Option Nat) : Res :=
  .next <|
    match admCommand s t with
    | none => s
    | some cmd =>
      let x := field cmd 0 2
      if x = 0 ∨ 0x16 < x then endCommand s t 1
      else if x ≠ op ∨ (leaderOp op && !leaderLive s) then s
      else if !operandsClean op cmd then endCommand s t 1
      else
        match f cmd with
        | (s1, none) => s1.updTower t fun tw => { tw with admSince := some (tw.admSince.getD tw.time) }
        | (s1, some status) => endCommand s1 t status

/-- A command that has no effect while it waits. -/
def adminCmd (op : Nat) (t : Four) (s : State) (f : List Byte → Option (State × Nat)) : Res :=
  adminRun op t s fun c =>
    match f c with
    | none => (s, none)
    | some r => (r.1, some r.2)

/-- A command that fails has no effect (R358). -/
def failWith (s : State) (status : Nat) : Option (State × Nat) := some (s, status)

/-! ### Spaces, queues, rings (R279, R322, R324, R325, R377) -/

/-- R358. -/
def execCreateSpace (t : Four) (s : State) : Res :=
  adminCmd 0x01 t s fun c =>
    let id : Half := BitVec.ofNat 16 (field c 8 2)
    let root := field c 0x10 8
    if id = 0 || !physOk root 65536 65536 then failWith s 2
    else if s.spaces.any (·.1 == id) then failWith s 4
    else some ({ s with spaces := (id, root) :: s.spaces }, 0)

/-- The fault record of kind 5 for a line that cannot be flushed, with the cause it met, and the line dropped (R122, R328). -/
def discardLine (t : Four) (col : Nat) (s : State) (l : AccLine) : State :=
  let count := (l.places.filter l.touched.getLsbD).length
  let va := l.va + BitVec.ofNat 64 (4 * ((l.places.find? l.touched.getLsbD).getD 0))
  let cause := (confAtHome s l.asid va .write).cause
  let bytes := faultBytes 5 cause 2 0 l.asid t col va (s.tower t).time l.w 0xFFFF 0xFFFF 0xFFFF count
  let s1 := (pushFault s t { blankRec s.nextId bytes with code := 5, asid := l.asid }).fresh
  s1.updCol t col fun co => { co with acc := co.acc.filter (· != l) }

/-- A part of an address space: all of it, or a range of VAs. -/
def inSpan (asid : Half) (lo : Nat) (hi : Option Nat) (id : Half) (va : DWord) (n : Nat) : Bool :=
  id == asid && match hi with
    | none => true
    | some h => decide (lo < va.toNat + n) && decide (va.toNat < h)

/-- Accumulator lines evicted, lines written back and dropped in every level of every tower, and what the controllers have
cached of the translations (R122, R324). -/
def dropSpan (s : State) (p : Half → DWord → Nat → Bool) : State :=
  let cols := Four.all.flatMap fun t => (List.range 40).map fun c => (t, c)
  let s1 := cols.foldl (fun s x => evictAll s x.1 x.2 fun l => p l.asid l.va 128) s
  let s2 := Four.all.foldl (fun s t => ((s.tower t).l2.filter fun l => p l.asid l.va 128).foldl writeBack s) s1
  { s2 with towers := s2.towers.map fun tw =>
      { tw with
          cols := tw.cols.map fun co => { co with lines := co.lines.filter fun l => !p l.asid l.va 128 }
          l2 := tw.l2.filter fun l => !p l.asid l.va 128
          rdc := tw.rdc.filter fun l => !p l.asid l.va 128
          tlb := tw.tlb.filter fun e => !p e.asid e.va e.bytes } }

/-- A queue or a ring of some tower lies in the space. -/
def spaceUsed (s : State) (id : Half) : Bool :=
  s.towers.toList.any fun tw =>
    tw.queues.any (·.asid == id) || tw.trapq.cfg.any (·.asid == id) || tw.fltq.cfg.any (·.asid == id)

/-- The record of a line that a space's destruction has discarded waits for room (R326). -/
def discardWaits (s : State) (id : Half) : Bool :=
  s.towers.toList.any fun tw => tw.fltq.anyWaits fun r => r.code == 5 && r.asid == id

/-- R122, R358; of an id that names no space it ends OK (the model's choice, log 56). The command goes on until every record of what
it has discarded is written (R326). -/
def execDestroySpace (t : Four) (s : State) : Res :=
  adminRun 0x02 t s fun c =>
    let id : Half := BitVec.ofNat 16 (field c 8 2)
    if spaceUsed s id then (s, some 4)
    else
      let s1 := dropSpan s (inSpan id 0 none)
      let cols := Four.all.flatMap fun t => (List.range 40).map fun c => (t, c)
      let s2 := cols.foldl (fun s x => ((s.col x.1 x.2).acc.filter (·.asid == id)).foldl (discardLine x.1 x.2) s) s1
      if discardWaits s2 id then (s2, none) else ({ s2 with spaces := s2.spaces.filter (·.1 != id) }, some 0)

/-- A queue as it is created from the software's fields of its QCB (R290, R294). -/
def newQueue (tw : Tower) (num : Nat) (asid : Half) (qcb : DWord) (b : List Byte) : Queue :=
  Queue.sliced tw.srtLast
    { num, asid, qcb, ring := BitVec.ofNat 64 (field b 0 8), rlog := field b 8 1, prio := field b 9 1, slice := field b 0xC 4,
      head := 0, tail := 0, ltail := 0, eslice := 0, eprio := field b 9 1, age := 0, qstate := 0, clamp := false, latch := false,
      pending := false, badTail := false, slot := none, heldTail := none, srt := 0, measure := none, mapT := 0, runT := 0, runnable := false,
      nodes := [], unread := [], heldRead := none, heldWrite := none, kicked := false }

/-- The software's fields in range (R280, R290). -/
def qcbOk (b : List Byte) : Bool :=
  field b 0 8 % 128 == 0 && decide (4 ≤ field b 8 1) && decide (field b 8 1 ≤ 16) && decide (field b 9 1 ≤ 7)
    && decide (10 ≤ field b 0xC 4) && decide (field b 0xC 4 ≤ 1000000)

/-- R279, R363. -/
def execCreateQueue (t : Four) (s : State) : Res :=
  adminCmd 0x03 t s fun c =>
    let num := field c 8 2
    let id : Half := BitVec.ofNat 16 (field c 0xA 2)
    let qcb := BitVec.ofNat 64 (field c 0x10 8)
    if (s.tower t).boot.minimal then failWith s 9
    else if 1023 < num || id = 0 || qcb.toNat % 256 ≠ 0 || (s.queue? t num).isSome then failWith s 2
    else if (rangeFault s id qcb 256 .read true).isSome then failWith s 3
    else
      let r := sysRead s id qcb 16
      if !qcbOk r.2 then failWith s 2
      else if (rangeFault s id (BitVec.ofNat 64 (field r.2 0 8)) (128 * 2 ^ field r.2 8 1) .read true).isSome then failWith s 3
      else
        some (mirror (r.1.updTower t fun tw => { tw with queues := tw.queues ++ [newQueue tw num id qcb r.2] }) t num, 0)

/-- R358. -/
def execDestroyQueue (t : Four) (s : State) : Res :=
  adminCmd 0x04 t s fun c =>
    match s.queue? t (field c 8 2) with
    | none => failWith s 2
    | some q =>
      if q.accepted != q.head || s.launches.any fun l => l.tower == t && l.queue == q.num && l.finished.isNone then failWith s 4
      else some (s.updTower t fun tw => { tw with queues := tw.queues.filter (·.num != q.num) }, 0)

/-- R236, R358. -/
def execBindWq (t : Four) (s : State) : Res :=
  adminCmd 0x05 t s fun c =>
    let k := field c 8 1
    if 15 < k then failWith s 2
    else if !((s.tower t).wq k).recs.isEmpty then failWith s 4
    else some (s.updTower t fun tw =>
      { tw with wqs := updAt tw.wqs k fun w => { w with asid := BitVec.ofNat 16 (field c 0xA 2), seq := 0 } }, 0)

/-- A ring configured anew (R377): counters kept, RINGERR cleared, held records free to be written. -/
def Ring.configure (x : RingCfg) (r : Ring) : Ring := { r with cfg := some x, ringErr := false, blocked := false }

/-- R325, R377. -/
def execSetRing (t : Four) (s : State) : Res :=
  adminCmd 0x06 t s fun c =>
    let which := field c 8 1
    let x : RingCfg := { base := BitVec.ofNat 64 (field c 0x10 8), rlog := field c 9 1, asid := BitVec.ofNat 16 (field c 0xA 2) }
    let size := if which = 0 then 128 else 64
    if 1 < which || x.rlog < 4 || 16 < x.rlog || x.base.toNat % size ≠ 0 then failWith s 2
    else if (rangeFault s x.asid x.base (size * 2 ^ x.rlog) .read true).isSome then failWith s 3
    else
      let r := if which = 0 then (s.tower t).trapq else (s.tower t).fltq
      if r.prod != r.cons then failWith s 4
      else
        some (s.updTower t fun tw =>
          if which = 0 then { tw with trapq := tw.trapq.configure x } else { tw with fltq := tw.fltq.configure x }, 0)

/-- A bead has a counted operation that has not completed. -/
def Bead.inFlight (b : Bead) : Bool := (b.lops ++ b.sops ++ b.tops).any (!·.done)

/-- Accesses that were confirmed under a translation of the range and have not completed (R324, step 3): stores, those to BANK pages
until they reach HBM, bank-unit reads and the atomics of a VATOM under way that are in the range, and counted operations of the space,
whose ranges are no longer told apart (log 34). A contribution is translated when it is applied, and no such access. -/
def spanBusy (s : State) (id : Half) (p : Half → DWord → Nat → Bool) : Bool :=
  (s.stores.any fun r => p r.asid r.va r.bytes.length)
    || (s.towers.toList.any fun tw => tw.bank.any fun b => p b.asid b.va 1)
    || (s.bgemvs.any fun b => b.confirmed && p b.asid b.weight (b.rows * rowPitch b.k b.wf))
    || s.gangs.any fun g => s.asidOf g == id && g.members.any fun w => w.beads.any fun b =>
        b.inFlight || b.wait.any fun x => x.hits.any fun h => p id h.1 8

/-- R324: in every tower; of an id that names no space it ends OK (the model's choice, log 56). -/
def execXlateInval (t : Four) (s : State) : Res :=
  adminCmd 0x07 t s fun c =>
    let id : Half := BitVec.ofNat 16 (field c 8 2)
    let va := field c 0x10 8
    let len := field c 0x18 8
    if va % 65536 ≠ 0 || len % 65536 ≠ 0 then failWith s 2
    else
      let p := inSpan id va (if len = 0 then none else some (va + len))
      if spanBusy s id p then none else some (dropSpan s p, 0)

/-! ### Settings -/

/-- R23. An accumulator line that faults and cannot leave stays, and does not hold the change back (log 74). -/
def execSetCarveout (t : Four) (s : State) : Res :=
  adminCmd 0x08 t s fun c =>
    let col := field c 8 1
    let n := field c 9 1
    if 39 < col || 15 < n then failWith s 2
    else if 10 < n then failWith s 6
    else if !columnFree s t col then failWith s 5
    else some (offer ((emptyCachePart s t col).updCol t col fun co => { co with steps := n }) t (some col), 0)

/-- R358. -/
def execSetSlots (t : Four) (s : State) : Res :=
  adminCmd 0x09 t s fun c =>
    let n := field c 8 1
    if n < 8 || 32 < n then failWith s 2
    else if (s.tower t).queues.any (·.qstate != 0) then failWith s 4
    else some (s.updTower t fun tw => { tw with boot := { tw.boot with slots := n } }, 0)

/-- R272, R358. -/
def execSetWatchdog (t : Four) (s : State) : Res :=
  adminCmd 0x0A t s fun c =>
    let n := field c 8 4
    if n < 1 || 60000 < n then failWith s 2 else some (s.updTower t fun tw => { tw with watchdogMs := n }, 0)

/-- R307, R371. -/
def execSetValves (t : Four) (s : State) : Res :=
  adminCmd 0x0B t s fun c =>
    let layer := field c 8 1
    let law : ValveLaw := { setpt := field c 0xA 2, gain := field c 0xC 1, base := field c 0xD 1, min := field c 0xE 1 }
    if 4 < layer && layer ≠ 0xFF then failWith s 2
    else some (s.updTower t fun tw =>
      { tw with laws := tw.laws.mapIdx fun k x => if layer = 0xFF || layer = k then law else x }, 0)

/-- R317, R371. -/
def execSetHbm (t : Four) (s : State) : Res :=
  adminCmd 0x0C t s fun c =>
    let which := field c 8 1
    let mode := field c 9 1
    let hold := field c 0xA 1
    let floor := field c 0xB 1
    let hot := field c 0xC 2
    let cool := field c 0xE 2
    let util := field c 0x10 1
    if (3 < which && which ≠ 0xFF) || 1 < mode || 3 < hold || 3 < floor || hot ≤ cool || 100 < util then failWith s 2
    else some (s.updTower t fun tw =>
      { tw with hbmStacks := tw.hbmStacks.mapIdx fun k st =>
          if which = 0xFF || which = k.val then { st with mode, hold, floor, hot, cool, util } else st }, 0)

/-- R359. -/
def execDrain (t : Four) (s : State) : Res :=
  adminCmd 0x0D t s fun c =>
    let first := field c 8 1
    let count := field c 9 1
    let on := field c 0xA 1
    if count < 1 || 40 < count || 40 < first + count || 1 < on then failWith s 2
    else
      let cols := (List.range count).map (first + ·)
      let s1 := s.updTower t fun tw =>
        { tw with cols := tw.cols.mapIdx fun k co => if cols.contains k then { co with draining := on == 1 } else co }
      if on = 0 then some (offer s1 t none, 0)
      else some (cancelMoves s1 t cols, 0)

/-- R112, R113, R363. -/
def execMaint (t : Four) (s : State) : Res :=
  adminCmd 0x10 t s fun c =>
    let enter := field c 8 1
    if 1 < enter then failWith s 2
    else if (s.tower t).boot.minimal then failWith s 9
    else if s.gangs.any (·.tower == t) then failWith s 4
    else
      let s1 := (List.range 40).foldl (fun s col => emptyCachePart s t col) s
      let s2 := ((s1.tower t).l2.foldl writeBack s1).updTower t fun tw =>
        { tw with l2 := [], rdc := [], boot := { tw.boot with maint := enter == 1 } }
      some (if enter = 0 then offer s2 t none else s2, 0)

/-! ### Tests (R359, R365, R366, R373) -/

/-- Columns that a test may have: empty and draining (R359). -/
def testable (s : State) (t : Four) (cols : List Nat) : Bool :=
  cols.all fun c => (s.col t c).draining && columnFree s t c

/-- Units of SELF_TEST. -/
def selfTestRange (unit index : Nat) : Bool :=
  (unit == 0 && decide (index < 40)) || (unit == 1 && decide (index < 16)) || (unit == 2 && decide (index < 4))
    || (unit == 3 && decide (index < 128))

/-- R359, R365. -/
def execSelfTest (t : Four) (v : TestVerdict) (s : State) : Res :=
  adminCmd 0x0E t s fun c =>
    let unit := field c 8 1
    let index := field c 9 1
    if !selfTestRange unit index then failWith s 2
    else if unit = 0 then
      if testable s t [index] then some (concludeColumn s t 1 (BitVec.ofNat 8 index) 0xFF v, 0) else none
    else
      let u : Byte := if unit = 1 then 3 else if unit = 2 then 4 else 6
      some (concludeUnit s t u (BitVec.ofNat 8 index) 0xFF v, 0)

/-- A failing connection's place in the log. -/
def connKey (x : ConnFail) : Nat := (x.col.toNat * 4 + x.boundary.toNat) * 2048 + x.conn.toNat

/-- One failing connection: remapped to a spare of its boundary, or not (true: unrepairable). -/
def remapConn (r : Tower × List (ConnFail × Bool)) (x : ConnFail) : Tower × List (ConnFail × Bool) :=
  let b := Four.ofNat x.boundary.toNat
  let left := (r.1.col x.col.toNat).conns.get b
  if left = 0 then (r.1, r.2 ++ [(x, true)])
  else ({ r.1 with cols := updAt r.1.cols x.col.toNat fun co => { co with conns := co.conns.upd b (· - 1) } }, r.2 ++ [(x, false)])

/-- R373. -/
def stackLog (row tested time : Nat) (xs : List (ConnFail × Bool)) : List Byte :=
  let bad := (xs.filter (·.2)).length
  [BitVec.ofNat 8 row] ++ zeros 3 ++ leBytes 4 tested ++ leBytes 4 xs.length ++ leBytes 4 (xs.length - bad) ++ leBytes 4 bad
    ++ zeros 4 ++ leBytes 8 time ++ zeros 32
    ++ xs.flatMap fun x =>
      leBytes 8 (x.1.col.toNat + x.1.boundary.toNat * 256 + x.1.conn.toNat * 65536 + (if x.2 then 2 ^ 32 else 0))

/-- The present columns of a row (R366). -/
def stackColumns (tw : Tower) (row : Nat) : List Nat := ((List.range 8).map (8 * row + ·)).filter tw.present

/-- R366: present columns of the row are tested. -/
def execStackTest (t : Four) (failing : List ConnFail) (s : State) : Res :=
  adminCmd 0x0F t s fun c =>
    let row := field c 8 1
    let log := field c 0x10 8
    if 4 < row || !physOk log (64 + 8 * 65536) 64 then failWith s 2
    else
      let cols := stackColumns (s.tower t) row
      if !testable s t cols then none
      else
        let fs := sortBy (fun a b => decide (connKey a ≤ connKey b)) ((failing.filter fun x => cols.contains x.col.toNat).eraseDups)
        let r := fs.foldl remapConn (s.tower t, [])
        let bad := ((r.2.filter (·.2)).map (·.1.col.toNat)).eraseDups
        let s1 := bad.foldl (fun s col => emptyCachePart s t col) (s.updTower t fun _ => r.1)
        let s2 := s1.updTower t fun tw => bad.foldl Tower.retireColumn tw
        some (physWrite s2 log (stackLog row (8192 * cols.length) (s.tower t).time r.2), 0)

/-- The columns that a test at the head of the queue waits for. -/
def testColumns (tw : Tower) (c : List Byte) : List Nat :=
  if field c 0 2 = 0xF then stackColumns tw (field c 8 1) else if field c 0 2 = 0xE ∧ field c 8 1 = 0 then [field c 9 1] else []

/-- A test whose columns have not become empty and draining in 100 ms fails (R359). Time reaches that instant before a step, so
that columns which empty later are not tested. -/
def testOver (s : State) (t : Four) : State :=
  match (s.tower t).admSince with
  | none => s
  | some since =>
    if (s.tower t).time < since + 100000000 then s
    else
      match admCommand s t with
      | some c => if testable s t (testColumns (s.tower t) c) then s else endCommand s t 5
      | none => s

/-- R359. -/
def execSelfTestTimeout (t : Four) (s : State) : Res := .next (testOver s t)

/-! ### The leader's commands (R367 to R370, R375, R376) -/

/-- A port that a new mask disables goes down. -/
def applyMask (s : State) : State :=
  Four.all.foldl (fun s t => Four.all.foldl (fun s k =>
    if portEnabled s t k then s else setPort s t k { (s.tower t).ports.get k with state := 0 }) s) s

/-- R367. -/
def execSetLink (t : Four) (s : State) : Res :=
  adminCmd 0x11 t s fun c =>
    if 1023 < field c 8 2 then failWith s 2
    else some (applyMask { s with moduleId := field c 8 2, portMask := BitVec.ofNat 16 (field c 0xA 2) }, 0)

/-- R368. -/
def execOpenWindow (t : Four) (s : State) : Res :=
  adminCmd 0x12 t s fun c =>
    let flags := field c 9 1
    let w : Window :=
      { num := field c 8 1, asid := BitVec.ofNat 16 (field c 0xA 2), va := BitVec.ofNat 64 (field c 0x10 8),
        len := BitVec.ofNat 64 (field c 0x18 8), write := flags % 2 == 1, anyPeer := flags / 2 % 2 == 1,
        peer := BitVec.ofNat 16 (field c 0xC 2) }
    if 3 < flags || w.asid = 0 || (!w.anyPeer && decide (1023 < w.peer.toNat)) || w.va.toNat % 4096 ≠ 0 || w.len.toNat % 4096 ≠ 0
        || w.len = 0 then failWith s 2
    else if s.windows.any (·.num == w.num) then failWith s 4
    else some ({ s with windows := w :: s.windows }, 0)

/-- R368: BUSY while a transfer of a peer uses the window, which the peer knows (log 56). -/
def execCloseWindow (t : Four) (s : State) : Res :=
  adminCmd 0x13 t s fun c =>
    let n := field c 8 1
    if !s.windows.any (·.num == n) then failWith s 2
    else if Config.windowUsed s.nextId n then failWith s.fresh 4
    else some ({ s with windows := s.windows.filter (·.num != n) }.fresh, 0)

/-- R369, R376; a header that is not as R376 lays it out ends with BAD_ARG (the model's choice, log 56). -/
def execPatch (t : Four) (s : State) : Res :=
  adminCmd 0x14 t s fun c =>
    let at_ := field c 0x10 8
    let len := field c 0x18 4
    let h := physRead s at_ 64
    let blen := field h 8 4
    let digest : BitVec 256 := BitVec.ofNat 256 (field h 0x10 32)
    let version : Word := BitVec.ofNat 32 (field h 4 4)
    if !physOk at_ 64 64 || len ≠ 64 + blen + 384 || !physOk at_ len 64 || blen % 4 ≠ 0 || field h 0 4 ≠ 0x50483031
        || !zeroAt h 0xC 4 || !zeroAt h 0x30 16 then failWith s 2
    else if Config.sha256 (physRead s (at_ + 64) blen) != digest || !Config.patchVerifies (physRead s at_ len) then failWith s 7
    else if version.toNat < Config.minPatchVersion.toNat then failWith s 8
    else some ({ s with patch := some { version, digest, image := physRead s at_ len } }, 0)

/-- TCAP and BOOTSTAT as they read (R356). -/
def Boot.tcap (b : Boot) : Nat :=
  b.cols.toNat + b.slots * 2 ^ 40 + (if b.minimal then 2 ^ 48 else 0) + (if b.maint then 2 ^ 49 else 0)

def Boot.bootstat (b : Boot) : Nat := b.state + b.reason.toNat * 16 + b.fails * 4096 + (if b.leader then 65536 else 0)

/-- The report's bytes under its signature (R375). -/
def attestBody (s : State) (nonce : List Byte) : List Byte :=
  leBytes 4 0x41543031 ++ leBytes 4 1 ++ nonce ++ leBytes 4 Config.romVersion.toNat
    ++ leBytes 4 (match s.applied with | some p => p.version.toNat | none => 0)
    ++ leBytes 32 (match s.applied with | some p => p.digest.toNat | none => 0)
    ++ s.towers.toList.flatMap (fun tw => leBytes 8 tw.boot.tcap) ++ s.towers.toList.flatMap (fun tw => leBytes 8 tw.boot.bootstat)
    ++ leBytes 20 Config.certSerial.toNat ++ zeros 220

/-- R370, R375. -/
def execAttest (t : Four) (s : State) : Res :=
  adminCmd 0x15 t s fun c =>
    let at_ := field c 0x10 8
    if !physOk at_ 1024 64 then failWith s 2
    else
      let body := attestBody s ((c.drop 0x20).take 32)
      some (physWrite s at_ (body ++ leBytes 384 (Config.attestSign body).toNat ++ zeros 256), 0)

/-- R361: the command is complete before the module restarts. RFLAGS above bit 0 are out of range (the model's choice, log 56). -/
def execRestart (t : Four) (starts : List (Quad TowerStart)) (s : State) : Res :=
  match admCommand s t with
  | none => .next s
  | some c =>
    let x := field c 0 2
    if x = 0 ∨ 0x16 < x ∨ (x = 0x16 ∧ !operandsClean x c) then .next (endCommand s t 1)
    else if x ≠ 0x16 then .next s
    else if 1 < field c 8 1 then .next (endCommand s t 2)
    else
      let s1 := endCommand s t 0
      let s2 := if field c 8 1 = 1 then
          { s1 with towers := s1.towers.map fun (tw : Tower) => { tw with boot := { tw.boot with fails := 0 } } } else s1
      .next (startFrom starts (resetModule s2))

/-! ### The claim of the lease (R360) -/

/-- A leader command that was under way ends with LEADER_LOST. -/
def loseLeader (s : State) (t : Four) : State :=
  match admCommand s t with
  | some c => if leaderOp (field c 0 2) then endCommand s t 10 else s
  | none => s

/-- R360. -/
def execLeaseClaim (t : Four) (s : State) : Res :=
  .next <|
    match claimLease s t with
    | some s1 => Four.all.foldl loseLeader s1
    | none => s

end Sys2Proof.Machine
end

