-- ==== Sys2Proof/Machine/Fetch.lean ====
section
/-!
DEFINITION. Fetching the word of an issue group (R139, R154, R166), the passing of time (R276, R314), and the placing of one word where the next step fetches it (log 8).
-/

namespace Sys2Proof.Machine

/-! ### Time -/

/-- A tower's count over some nanoseconds of real time, at its corrected rate (R34, R341). -/
def Tower.advance (dt : Nat) (tw : Tower) : Tower :=
  let n := dt * (1000000000 + tw.rate).toNat + tw.carry
  { tw with clock := tw.clock + BitVec.ofNat 64 (n / 1000000000), carry := n % 1000000000 }

/-- Time passes (log 4): the resident workgroups' counts (R276), every tower's count with the leases (R314). -/
def tick (s : State) : State :=
  let dt := Config.elapsedNs s.seq
  let s1 : State := { s with
      seq := s.seq + 1
      cur := none
      gangs := s.gangs.map fun g =>
        if g.resident then { g with members := g.members.map fun w => { w with resNs := w.resNs + dt } } else g }
  s1.setTimes (s.towers.map fun tw => tw.advance dt)

/-! ### The word at an address -/

/-- The address lies in the launch's code range (R139). -/
def inCode (l : Launch) (pc : DWord) : Bool := decide ((pc - l.code).toNat < l.codeSize)

/-- The held patch values replace their fields (R166). -/
def patched (l : Launch) (pc : DWord) (w : Word) : Word :=
  l.patches.foldl (fun w p =>
    if p.1 * 4 = (pc - l.code).toNat then
      (w &&& ~~~(BitVec.ofNat 32 (2 ^ p.2.1 - 1))) ||| (p.2.2 &&& BitVec.ofNat 32 (2 ^ p.2.1 - 1))
    else w) w

/-- The word at an address of the code, through the column's levels, patches applied (R95, R139, R166); the CACHE of a unit begun is
its access's and not the fetch's (R151). -/
def fetchAt (c : Ctx) (s : State) (pc : DWord) (h : Hit) : State × Word :=
  let r := colRead s c.tower c.col c.asid pc 4 { h with hint := 0 } false
  (r.1, patched c.l pc (BitVec.ofNat 32 (leNat r.2)))

/-- The word before a transfer's target is a P-form word (R154); looked at inside the code range only (log 10). -/
def prefixBefore (c : Ctx) (s : State) : Bool :=
  inCode c.l (c.pc - 4) &&
    match c.conf s .fetch (c.pc - 4) with
    | .ok h => isPrefixWord (fetchAt c s (c.pc - 4) h).2
    | _ => false

/-- What the fetch for a group comes to. -/
inductive Fetched where
  | run (i : Instr) (s : State)
  | stop (s : State)
deriving Repr

/-- The cursor notes a reserved bit of the word fetched. -/
def State.withResv (s : State) (r : Bool) : State := { s with cur := s.cur.map fun c => { c with resv := r } }

/-- A unit's first word keeps the mark of a transfer into a unit where a prefix precedes it (R154). -/
def markXfer (c : Ctx) (s : State) : State :=
  if c.pfx.isEmpty then c.onGrp s fun b => { b with xfer := c.lead.xfer && prefixBefore c s } else s

/-- The group goes to the end of its slot's order without having issued (R64). -/
def Ctx.passTurn (c : Ctx) (s : State) : State := (c.onGrp s fun b => { b with turn := s.nextId }).fresh

/-- The fetch of R139 and the decoder's verdict: outside the code range, or withheld, trap 0x09 at the fetched PC; absent, parked
with that PC as the unit, to be replayed from its first prefix (R148, R320); illegal, trap 0x01. It waits while the cache part
has no replaceable line (R126), and other groups of its slot have their turn meanwhile. -/
def fetch (c : Ctx) (s : State) : Fetched :=
  if !inCode c.l c.pc then .stop (takeTrapAt c s { code := 0x09, va := c.pc } c.pc (c.pc + 4))
  else
    match c.conf s .fetch c.pc with
    | .absent e => .stop (parkAt c s 1 4 c.pc 0xFF c.pc e c.pc)
    | .error => .stop (takeTrapAt c s { code := 0x09, va := c.pc } c.pc (c.pc + 4))
    | .perm => .stop (takeTrapAt c s { code := 0x09, va := c.pc } c.pc (c.pc + 4))
    | .ok h =>
      let x : Touch := { b := c.lead, va := c.pc, n := 4 }
      let s1 := if c.needsLine s x then (makeRoom s c.tower c.col).1 else s
      if noRoom s1 c.tower c.col && c.needsLine s1 x then .stop (c.passTurn s1)
      else
        let r := fetchAt c s1 c.pc h
        match decodeWord r.2 with
        | .illegal => .stop (takeTrap c r.1 { code := 0x01 })
        | .ok i => .run i (markXfer c r.1)
        | .reserved i => .run i ((markXfer c r.1).withResv true)

/-- A group may issue: not stopped, parked or waiting on something that another step ends; a stopped group finishes the
unit that it has begun (R148, R319, R320). -/
def Bead.mayIssue (b : Bead) : Bool :=
  b.live && b.park.isNone && (b.stop.isNone || b.midUnit)
    && match b.wait with
      | none => true
      | some w => !(w.kind == .confirm || w.kind == .bank || w.kind == .clasp)

/-! ### Placing one word (log 8) -/

/-- Where `withFetchWord` puts its tables and its word. -/
def bootRoot : Nat := 0x10000
def bootL1 : Nat := 0x20000
def bootL2 : Nat := 0x30000
def bootL3 : Nat := 0x31000
def bootPage : Nat := 0x40000
def bootVa : DWord := 0x100000
def bootAsid : Half := 0xFFFF

/-- A table descriptor of R322. -/
def descriptor (pa : Nat) : Nat := 1 + 2 ^ 10 + (pa / 256) * 2 ^ 32

/-- A 64 KiB leaf of R100: V, W, X, C. -/
def leafEntry (pa : Nat) : Nat := 15 + pa

/-- A launch of one workgroup of one strand, of the word alone, as `withFetchWord` places it (log 8). -/
def bootLaunch (id : Nat) (tile : Bool) : Launch :=
  { id, tower := 0, queue := 0, node := 0, slot := 0, asid := bootAsid, restring := false, gbar := true, wrap := false,
    code := bootVa, codeSize := 4, gangSize := 1, scratch := 0, wrapEntry := 0,
    roles := [{ entry := 0, strands := 1, blocks := 8, tile }], entryDelta := 0, ngx := 1, ngy := 1, ngz := 1, nstage := 1,
    prio := 0, spread := false, divertOnTrap := false, deadline := 0, wrapBudget := 0, expected := 0, completion := 0, crPa := 0, crAttr := attrOf 0,
    param := 0, shapes := Quad.fill 0, bucket := 0, padw := 0, padh := 0, patches := [], map := [0],
    towers := Quad.fill { todo := [], listed := true, lastCol := none, diverted := false, cause := 0, divertDue := none, killed := none,
                          reserve := 0 },
    order := 0, accept := 0, hostKill := false, deviceKill := false, ncomp := 0, ndvalid := 0,
    ndinvalid := 0, nunstart := 0, noverrun := 0, nfault := 0, lmoves := 0, cmoves := 0, parks := 0, evicts := 0,
    charges := Charges.none, finished := none }

/-- Its workgroup: one strand of eight beads at the word. -/
def bootWg (tile : Bool) (now : Nat) : Wg :=
  { w := 0, pos := 0, tier := 0, beads := (List.range 8).map fun p => Bead.start 0 p 0 bootVa 0 now,
    strands := [{ id := 0, role := 0, blocks := 0xFF, slot := 0 }], nextGrp := 1,
    tile := if tile then some TileSet.start else none, closed := 0, copyErrs := [], valid := false, lease := none, resNs := 0,
    faulted := false, overrun := false, move := none }

/-- One word stored and mapped, its launch resident in column 0 of tower 0, its group first on the agenda. -/
def placeWord (s : State) (w : Nat) : State :=
  let id := s.nextId
  let m1 := s.hbm.write bootRoot (leBytes 8 (descriptor bootL1))
  let m2 := m1.write bootL1 (leBytes 8 (descriptor bootL2))
  let m3 := m2.write bootL2 (leBytes 8 (descriptor bootL3))
  let m4 := m3.write (bootL3 + 8 * 16) (leBytes 8 (leafEntry bootPage))
  let m5 := m4.write bootPage (leBytes 4 w)
  { s with
      nextId := id + 1
      hbm := m5
      spaces := (bootAsid, bootRoot) :: s.spaces
      launches := bootLaunch id true :: s.launches
      gangs := { id, launch := id, num := 0, tower := 0, place := .resident 0 0, members := [bootWg true (s.tower 0).time],
                 copies := [], defers := [], pending := none, wake := false, reported := false } :: s.gangs
      towers := s.towers.map fun tw =>
        { tw with tlb := tw.tlb.filter (·.asid != bootAsid), l2 := tw.l2.filter (·.asid != bootAsid)
                  rdc := tw.rdc.filter (·.asid != bootAsid), bank := []
                  cols := tw.cols.map fun co => { co with lines := co.lines.filter (·.asid != bootAsid) } }
      startAt := none
      agenda := .issue id 0 0 :: s.agenda }

end Sys2Proof.Machine
end

