-- ==== Sys2Proof/Machine/Between.lean ====
section
/-!
DEFINITION. What happens between two steps: covered traps divert, kicks that waited land, and queues that have become runnable
bring a pass (R280, R295, R296, R332); time passes; what is due by it happens (R126, R235, R361, R343, R344, R351, R294, R296, R341, R359, R367); beads at
a unit boundary take a diversion or a kill that is due (R331, R345); parked units, held copies and discarded gangs whose records are
written go on (R326, R329); grid barriers that the end of strands completes are announced, strands that have ended give up what they
held (R183, R299), and gangs that wait in GBAR are saved (R68).
-/

namespace Sys2Proof.Machine

/-- A kill that waits for the unit boundary has reached the bead (R331). -/
def Bead.dies (b : Bead) : Bool := b.live && b.dying && b.atBoundary

/-- A bead at a unit boundary with a kill or a diversion due (R331, R345). -/
def Bead.atDue (l : Launch) (now : Nat) (b : Bead) : Bead :=
  if b.dies then b.kill else if b.live then b.takeDivert l now else b

/-- At a unit boundary a stop or a diversion of one home strand takes its beads out of a restrung group, and the beads of other
strands go on without them (R41, R319, R345, log 16). -/
def Wg.partGroups (w : Wg) : Wg :=
  ((w.beads.filter Bead.live).map (·.grp)).eraseDups.foldl (fun w n =>
    if (w.group n).all Bead.atBoundary then w.splitBy (fun b => (b.pc, b.fmt, b.stop.isSome)) n else w) w

/-- A workgroup's beads; one that is stopped by its own trap at its death counts as faulted (R351, R352); a death may
complete a CLASP (R183). -/
def Wg.atDue (l : Launch) (now : Nat) (w : Wg) : Wg :=
  let dead := w.beads.filter Bead.dies
  let w1 := w.updBeads (fun _ => true) (Bead.atDue l now)
  Wg.partGroups <| if dead.isEmpty then w1
  else { w1.clasps now (homesOf dead) with faulted := w.faulted || dead.any fun b => b.stop.any (·.own) }

/-- Every resident gang's beads. -/
def takeDue (s : State) : State :=
  { s with gangs := s.gangs.map fun g =>
      match s.launch? g.launch with
      | some l =>
        if g.resident then { g with members := g.members.map (Wg.atDue l (s.tower g.tower).time) } else g
      | none => g }

/-- A strand has ended and its operations are complete, but its entry is still listed. -/
def Wg.hasEnded (w : Wg) : Bool := w.strands.any (!w.holdsStrand ·)

/-- The entries and granules of a gang's ended strands return to their cores, and are offered (R183, R270, R299); only a core that
they leave empty changes its class (R303). -/
def freeGang (s : State) (g : Gang) : State :=
  let ks := (g.members.filter Wg.hasEnded).map (·.tier)
  let s1 := s.updGang g.id fun g => { g with members := g.members.map fun w => { w with strands := w.strands.filter w.holdsStrand } }
  let s2 := ks.foldl (fun s k =>
    let s3 := if coreHeld s g.tower g.col k then s
      else setCore s g.tower g.col k fun c => { c with emptySince := (s.tower g.tower).time }
    reclass s3 g.tower g.col k (classes s3 g.tower g.col)) s1
  offer (serveColumn s2 g.tower g.col) g.tower (some g.col)

def freeEnded (s : State) : State :=
  (s.gangs.filter fun g => g.resident && g.members.any Wg.hasEnded).foldl freeGang s

/-- The last arrival at a grid barrier may be the end of a strand (R68, R233). -/
def announceGbars (s : State) : State :=
  (s.launches.filter fun l => l.gbar && l.finished.isNone).foldl announceGbar s

/-- The saves of R68, whatever has brought them about: an arrival, the end of a strand, a restore or the end of a move. -/
def saveGbars (s : State) : State :=
  (s.launches.filter fun l => l.gbar && l.finished.isNone).foldl (fun s l => Four.all.foldl (fun s t => gbarSaves s l t) s) s

/-- What the last step leaves to be done before time passes. -/
def settleStep (s : State) : State := Four.all.foldl (fun s t => runnablePass (retryKicks s t) t) (settleTraps s)

/-- What time brings to a tower. -/
def settleTower (s : State) (t : Four) : State :=
  timedPass (parkedChecks (waitChecks (reflushes (testOver (portSeconds (s.updTower t Tower.lapse) t) t) t) t) t) t

/-- What time brings. -/
def settleTime (s : State) : State := Four.all.foldl settleTower (launchesDue (startDue s))

/-- All that comes before what a step does. -/
def prelude (s : State) : State :=
  saveGbars (freeEnded (announceGbars (leaveSlots (releaseParks (takeDue (settleTime (tick (settleStep s))))))))

end Sys2Proof.Machine
end

