-- ==== Sys2Proof/Machine/Host.lean ====
section
/-!
DEFINITION. The host window (R355, R356): what the host reads there, and a write of the host to any of its registers.
-/

namespace Sys2Proof.Machine

/-- Bits of a ring's STAT that a 1 clears (R325); FULL is read only. -/
def Ring.clearStat (v : DWord) (r : Ring) : Ring :=
  { r with badReply := r.badReply && !v.getLsbD 0, ringErr := r.ringErr && !v.getLsbD 2, badCons := r.badCons && !v.getLsbD 3 }

/-- A ring's STAT (R325). -/
def Ring.stat (r : Ring) : Nat :=
  r.badReply.toNat + 2 * r.isFull.toNat + 4 * r.ringErr.toNat + 8 * r.badCons.toNat

/-- WPORT (R367). -/
def Port.word (p : Port) : DWord := p.peersw ++ (p.retries ++ (0#14 ++ p.state))

/-- The registers of a tower by offset, those of the ports, the error log and the queues apart (R325, R355 to R357, R368, R372);
a reserved offset, and a reserved bit, reads zero (R11). -/
def Tower.fixedRegister (tw : Tower) (off : Nat) : DWord :=
  match off with
  | 0x00 => BitVec.ofNat 64 tw.boot.tcap
  | 0x08 => BitVec.ofNat 64 tw.boot.bootstat
  | 0x10 => tw.clock
  | 0x18 => BitVec.ofNat 64 (tw.lock.locked.toNat + 2 * tw.lock.lost.toNat)
  | 0x20 => tw.admq.base
  | 0x28 => tw.admq.tail.setWidth 64
  | 0x30 => tw.admq.head.setWidth 64
  | 0x40 => tw.trapq.prod.setWidth 64
  | 0x48 => tw.trapq.cons.setWidth 64
  | 0x50 => tw.trapq.reply
  | 0x58 => BitVec.ofNat 64 tw.trapq.stat
  | 0x60 => tw.fltq.prod.setWidth 64
  | 0x68 => tw.fltq.cons.setWidth 64
  | 0x70 => tw.fltq.reply
  | 0x78 => BitVec.ofNat 64 tw.fltq.stat
  | 0x80 => tw.irq.setWidth 64
  | 0x88 => tw.linkq.base
  | 0x90 => tw.linkq.tail.setWidth 64
  | 0x98 => tw.linkq.head.setWidth 64
  | 0xA0 => tw.errcnt.setWidth 64
  | _ => 0

/-- WHAT THE HOST READS (R10, R11, R291, R355): only an aligned read of 8 bytes returns a register. -/
def State.readRegister (s : State) (t : Four) (off : BitVec 18) (size : Nat) : DWord :=
  let tw := s.tower t
  let o := off.toNat
  if size ≠ 8 ∨ o % 8 ≠ 0 then 0
  else if 0x100 ≤ o ∧ o < 0x120 then (tw.ports.get (Four.ofNat ((o - 0x100) / 8))).word
  else if 0x400 ≤ o ∧ o < 0x800 then
    let e := tw.errlog.getD ((o - 0x400) / 16) (0, 0)
    if o % 16 = 0 then e.1 else e.2
  else if 0x10000 ≤ o ∧ o < 0x12000 then
    match s.queue? t ((o - 0x10000) / 8) with
    | some q => q.accepted.setWidth 64
    | none => 0
  else tw.fixedRegister o

/-- A write of a register that has no row of its own: RW fields are set, W1C bits cleared, the rest ignored (R10, R355), ADMQ.HEAD too,
for which R355 names no access (the model's choice, log 57). -/
def writePlain (t : Four) (off : Nat) (v : DWord) (s : State) : State :=
  s.updTower t fun tw =>
    if off = 0x18 then { tw with lock := { tw.lock with lost := tw.lock.lost && !v.getLsbD 1 } }
    else if off = 0x20 then { tw with admq := { tw.admq with base := v } }
    else if off = 0x58 then { tw with trapq := tw.trapq.clearStat v }
    else if off = 0x78 then { tw with fltq := tw.fltq.clearStat v }
    else if off = 0x80 then { tw with irq := tw.irq &&& ~~~(v.setWidth 5) }
    else if off = 0x88 then { tw with linkq := { tw.linkq with base := v } }
    else tw

/-- R355: only aligned 8-byte accesses have an effect; a register with a row of its own acts as that row says. -/
def execRegisterWrite (t : Four) (off : BitVec 18) (size : Nat) (v : DWord) (s : State) : Res :=
  let o := off.toNat
  if size ≠ 8 ∨ o % 8 ≠ 0 then .next s
  else if o = 0x28 then execAdmqTailWrite t v s
  else if o = 0x48 then execTrapqConsWrite t v s
  else if o = 0x50 then .next (trapReply s t v)
  else if o = 0x68 then execFltqConsWrite t v s
  else if o = 0x70 then .next (faultReply s t (v.setWidth 32) (v.extractLsb' 32 2))
  else if o = 0x90 then execLinkqTailWrite t v s
  else if 0x10000 ≤ o ∧ o < 0x12000 then execWakeRegisterWrite t ((o - 0x10000) / 8) v s
  else .next (writePlain t o v s)

end Sys2Proof.Machine
end

