-- ==== Sys2Proof/Machine/Moves.lean ====
section
/-!
DEFINITION. Special registers, moves between the register files, and FMT (R191 to R198).
-/

namespace Sys2Proof.Machine

/-- The coordinates of workgroup w (R51). -/
def Launch.wgStage (l : Launch) (w : Nat) : Nat := w % l.nstage
def Launch.wgX (l : Launch) (w : Nat) : Nat := w / l.nstage % l.ngx
def Launch.wgY (l : Launch) (w : Nat) : Nat := w / (l.nstage * l.ngx) % l.ngy
def Launch.wgZ (l : Launch) (w : Nat) : Nat := w / (l.nstage * l.ngx * l.ngy)

/-- `%padx` and `%pady` (R58, R59): bit j says that element n * W + j lies within the shape. -/
def padBits (pad n : Nat) (shape : Word) : DWord :=
  if pad = 0 then BitVec.allOnes 64
  else BitVec.ofNat 64 ((List.range 64).foldl (fun m j => if j < pad && n * pad + j < shape.toNat then m + 2 ^ j else m) 0)

/-- The value of a special register of kind S in a bead (R196). -/
def SReg.value (r : SReg) (c : Ctx) (s : State) (b : Bead) : DWord :=
  let n (x : Nat) : DWord := BitVec.ofNat 64 (x % 2 ^ 32)
  match r with
  | .lane | .tid => 0
  | .bead => n b.pos
  | .strand => n b.home
  | .role => n b.role
  | .wgx => n (c.l.wgX c.wg.w)
  | .wgy => n (c.l.wgY c.wg.w)
  | .wgz => n (c.l.wgZ c.wg.w)
  | .stage => n (c.l.wgStage c.wg.w)
  | .gang => n (c.wg.w / c.l.gangSize)
  | .gangpos => n (c.wg.w % c.l.gangSize)
  | .ngx => n c.l.ngx
  | .ngy => n c.l.ngy
  | .ngz => n c.l.ngz
  | .nstage => n c.l.nstage
  | .sbase => n (c.wg.pos * c.l.scratchEach)
  | .col => n c.col
  | .tier => n c.wg.tier.val
  | .tower => n c.tower.val
  | .ratio => n (c.core s).ratio
  | .shape k => (c.l.shapes.get k).setWidth 64
  | .bucket => n c.l.bucket
  | .padx => padBits c.l.padw (c.l.wgX c.wg.w) (c.l.shapes.get 0)
  | .pady => padBits c.l.padh (c.l.wgY c.wg.w) (c.l.shapes.get 1)
  | .dpc => b.dpc
  | .why => b.why.setWidth 64

/-- The value of a special register of kind V in a lane (R196). -/
def SReg.laneValue (r : SReg) (b : Bead) (k : Four) : Word :=
  match r with
  | .tid => BitVec.ofNat 32 (32 * b.home + b.lane k)
  | _ => BitVec.ofNat 32 (b.lane k)

/-- R192. -/
def execSrd (d : Reg) (code : BitVec 10) (s : State) : Res :=
  issue (.srd d code) s fun c s =>
    match SReg.ofCode code with
    | none => takeTrap c s { code := 0x01 }
    | some r =>
      c.eachBead s fun b =>
        if r.perLane then b.onLanes b.active fun k x => x.vset k d (r.laneValue b k) else b.sset d (r.value c s b)

/-- R193. -/
def execSwr (a : Reg) (code : BitVec 10) (s : State) : Res :=
  issue (.swr a code) s fun c s =>
    match SReg.ofCode code with
    | some .dpc => c.eachBead s fun b => { b with dpc := b.sget a }
    | some .why => c.eachBead s fun b => { b with why := (b.sget a).setWidth 32 }
    | some _ => takeTrap c s { code := 0x09 }
    | none => takeTrap c s { code := 0x01 }

/-- R194. -/
def execVmovs (d a : Reg) (pair hi : BitVec 1) (s : State) : Res :=
  issue (.vmovs d a pair hi) s fun c s =>
    c.eachBead s fun b => b.onLanes b.active fun k x =>
      let lo := (b.sget a).setWidth 32
      let up := (b.sget a).extractLsb' 32 32
      if pair == 1 then (x.vset k d lo).vset k (regPlus d 1) up else x.vset k d (if hi == 1 then up else lo)

/-- R195. -/
def execSmovv (d a : Reg) (pair sx low : BitVec 1) (k : BitVec 2) (s : State) : Res :=
  issue (.smovv d a pair sx low k) s fun c s =>
    c.eachBead s fun b =>
      let p : Four := if low == 1 then b.low else Four.ofNat k.toNat
      let x := b.vget p a
      b.sset d (if pair == 1 then b.vget p (regPlus a 1) ++ x else if sx == 1 then x.signExtend 64 else x.setWidth 64)

/-- R198. -/
def execSfmt (a : Reg) (s : State) : Res :=
  issue (.sfmt a) s fun c s =>
    let f := (c.lead.sget a).setWidth 12
    if fmtReserved f then takeTrap c s { code := 0x02 } else c.eachBead s fun b => { b with fmt := f }

end Sys2Proof.Machine
end

