-- ==== Sys2Proof/Machine/Prefix.lean ====
section
/-!
DEFINITION. Prefixes (R148 to R154): a P-form word joins the unit that the bead has begun.
-/

namespace Sys2Proof.Machine

/-- A prefix is taken, and the next word is the unit's next; a third in a row is misuse (R154). -/
def takePrefix (k : PfxKind) (payload : BitVec 24) (s : State) : Res :=
  match s.ctx? with
  | none => .fault .noIssuingGroup
  | some c =>
    .next <|
      if 2 ≤ c.pfx.length then takeTrap c (c.stamp s) { code := 0x03 }
      else c.onGrp (c.stamp s) fun b =>
        { b with pfx := b.pfx ++ [{ kind := k, payload, resv := c.cur.resv }], pc := b.pc + 4 }

/-- R150. -/
def execPfxX (payload : BitVec 24) (s : State) : Res := takePrefix .x payload s

/-- R151. -/
def execPfxM (neg : BitVec 1) (guard rnd : BitVec 3) (sat : BitVec 1) (cache : BitVec 2) (s : State) : Res :=
  takePrefix .m (neg ++ (guard ++ (rnd ++ (sat ++ (cache ++ 0#14))))) s

/-- R152. -/
def execPfxH (branch : BitVec 2) (reuseB reuseA : BitVec 1) (s : State) : Res :=
  takePrefix .h (0#20 ++ (branch ++ (reuseB ++ reuseA))) s

end Sys2Proof.Machine
end

