-- ==== Sys2Proof/Machine/Quant.lean ====
section
/-!
DEFINITION. The quantiser (R86, R87, R260, R261).
-/

namespace Sys2Proof.Machine

/-- RoundNearestEven with an unbounded exponent (R86): the magnitude's code, which may pass the format's largest. -/
def FloatFmt.rawCode (f : FloatFmt) (m : Nat) (e : Int) : Nat := { f with maxCode := 2 ^ 40 }.round .rn false false m e false

/-- The passes of R86 from an exponent on, with the passes left after this one: codes without sign, and the exponent. -/
def quantPass (f : FloatFmt) (vs : List (Nat × Int)) : Nat → Int → List Nat × Int
  | left, se =>
    let q := vs.map fun v => f.rawCode v.1 (v.2 - se)
    if q.all fun x => decide (x ≤ f.maxCode) then (q, se)
    else
      match left with
      | 0 => (q.map fun x => min x f.maxCode, se)
      | k + 1 => if se = 127 then (q.map fun x => min x f.maxCode, se) else quantPass f vs k (se + 1)

/-- Floor of the base-2 logarithm of the largest magnitude; none when all are zero. -/
def maxLog (vs : List (Nat × Int)) : Option Int :=
  vs.foldl (fun (b : Option Int) v =>
    if v.1 = 0 then b
    else
      let l : Int := Nat.log2 v.1 + v.2
      match b with
      | none => some l
      | some x => some (max x l)) none

/-- Quantise (R86): 32 element codes and the scale byte. -/
def quantise (mx8 : Bool) (xs : List Word) : List Nat × Nat :=
  let f := if mx8 then fmtE4m3 else fmtE2m1
  let emax : Int := if mx8 then 8 else 2
  let vals := xs.map fun x => fmt32.val x.toNat
  if vals.any fun v => match v with | .fin .. => false | _ => true then (xs.map fun _ => 0, 0xFF)
  else
    let mags := vals.map fun v => match v with | .fin _ m e => (m, e) | _ => (0, 0)
    let se := match maxLog mags with | none => -127 | some l => clampInt (-127) 127 (l - emax)
    let r := quantPass f mags 2 se
    ((vals.zip r.1).map fun x => f.signed x.1.sign x.2, (r.2 + 127).toNat)

/-- The FP32 words of some bytes. -/
def wordsOf (bs : List Byte) : List Word := (List.range (bs.length / 4)).map fun k => BitVec.ofNat 32 (field bs (4 * k) 4)

/-- Packed elements as bytes. -/
def elemBytes (w : Nat) (xs : List Nat) : List Byte := leBytes (xs.length * w / 8) (pack w xs)

/-- The first n bytes of a side-band row replaced by scales, the rest kept. -/
def quantRow (mx8 : Bool) (bs : List Byte) : List Byte × List Byte :=
  let ws := wordsOf bs
  let blocks := (List.range (ws.length / 32)).map fun b => quantise mx8 ((ws.drop (32 * b)).take 32)
  (blocks.flatMap fun q => elemBytes (if mx8 then 8 else 4) q.1, blocks.map fun q => BitVec.ofNat 8 q.2)

/-- Elements of a row of the source (R260). -/
def quantK (ctl : Word) : Nat := tSlices ctl * if tFmt ctl == .mx8 then 96 else 192

/-- Rows of a list replaced from the front by a function of what is given. -/
def overRows {α β : Type} (f : α → β → β) : List α → List β → List β
  | x :: xs, r :: rs => f x r :: overRows f xs rs
  | _, rs => rs

/-- The shared shape of TQUANT and TQCB (R260): the source rows read, the tile rewritten. -/
def quantWord (i : Instr) (td : BitVec 3) (rs : Reg) (scr : BitVec 1) (ok : Elem → Bool) (s : State)
    (f : TileSet → Word → List (List Byte) → Tile → Tile) : Res :=
  tileWord i true s fun c ts s =>
    let ctl := (ts.tile td).ctl
    if tRows ctl = 0 || !ok (tFmt ctl) then takeTrap c s { code := 0x0D }
    else
      let addr := c.lead.sget rs
      let r := rowRanges scr addr (tRows ctl) ts.lpitch.toNat (4 * quantK ctl)
      c.onRanges s i r (tileAddr scr addr) 16 .load .read fun s =>
        let q := c.readRanges s r
        c.tileDone (c.setTiles q.1 (ts.upd td (f ts ctl q.2))) false

/-- R86, R260. -/
def execTquant (td : BitVec 3) (rs : Reg) (scr : BitVec 1) (s : State) : Res :=
  quantWord (.tquant td rs scr) td rs scr (fun e => e == .mx8 || e == .mx4) s fun _ ctl rows t =>
    let qs := rows.map (quantRow (tFmt ctl == .mx8))
    { t with data := overRows (fun q r => rowKeep r q.1) qs t.data, side := overRows (fun q r => rowKeep r q.2) qs t.side }

/-- R87, R260. -/
def execTqcb (td : BitVec 3) (rs : Reg) (scr : BitVec 1) (s : State) : Res :=
  quantWord (.tqcb td rs scr) td rs scr (· == .c4) s fun ts ctl rows t =>
    let index (x : Word) : Nat := codebookIndex (ts.cbs.get (tCb ctl)) (fmt32.val x.toNat)
    { t with data := overRows (fun bs r => rowKeep r (elemBytes 4 ((wordsOf bs).map index))) rows t.data }

end Sys2Proof.Machine
end

