-- ==== Sys2Proof/Machine/Scalar.lean ====
section
/-!
DEFINITION. Scalar three-register and immediate operations (R187 to R190).
-/

namespace Sys2Proof.Machine

/-- Signed quotient of R189. -/
def divSigned (x y : DWord) : DWord :=
  if y = 0 then BitVec.allOnes 64 else BitVec.ofInt 64 (Int.tdiv x.toInt y.toInt)

/-- Unsigned quotient of R189. -/
def divUnsigned (x y : DWord) : DWord := if y = 0 then BitVec.allOnes 64 else BitVec.ofNat 64 (x.toNat / y.toNat)

/-- Signed remainder of R189. -/
def remSigned (x y : DWord) : DWord := if y = 0 then x else BitVec.ofInt 64 (Int.tmod x.toInt y.toInt)

/-- Unsigned remainder of R189. -/
def remUnsigned (x y : DWord) : DWord := if y = 0 then x else BitVec.ofNat 64 (x.toNat % y.toNat)

/-- The high half of a product of two integers (R188, R201). -/
def mulHigh {w : Nat} (x y : Int) : BitVec w := BitVec.ofInt w (x * y / 2 ^ w)

/-- A truth value as a number. -/
def bit {w : Nat} (b : Bool) : BitVec w := if b then 1 else 0

/-- A major-0x02 word (R187, R188). -/
def scalar2 (i : Instr) (g : BitVec 3) (d a b : Reg) (s : State) (f : DWord → DWord → DWord) : Res :=
  scalarOp i g d s fun _ x => f (x.sget a) (x.sget b)

/-- A major-0x03 word (R190). -/
def scalarI (i : Instr) (g : BitVec 3) (d a : Reg) (imm : BitVec 8) (s : State) (f : DWord → DWord → DWord) : Res :=
  scalarOp i g d s fun c x => f (x.sget a) (c.imm imm)

/-- R188. -/
def execSadd (d a b : Reg) (g : BitVec 3) (s : State) : Res :=
  scalar2 (.sadd d a b g) g d a b s fun x y => x + y

/-- R188. -/
def execSsub (d a b : Reg) (g : BitVec 3) (s : State) : Res :=
  scalar2 (.ssub d a b g) g d a b s fun x y => x - y

/-- R188. -/
def execSmul (d a b : Reg) (g : BitVec 3) (s : State) : Res :=
  scalar2 (.smul d a b g) g d a b s fun x y => x * y

/-- R188. -/
def execSmulh (d a b : Reg) (g : BitVec 3) (s : State) : Res :=
  scalar2 (.smulh d a b g) g d a b s fun x y => mulHigh x.toInt y.toInt

/-- R188. -/
def execSmulhn (d a b : Reg) (g : BitVec 3) (s : State) : Res :=
  scalar2 (.smulhn d a b g) g d a b s fun x y => mulHigh x.toNat y.toNat

/-- R188. -/
def execSdiv (d a b : Reg) (g : BitVec 3) (s : State) : Res :=
  scalar2 (.sdiv d a b g) g d a b s fun x y => divSigned x y

/-- R188. -/
def execSdivn (d a b : Reg) (g : BitVec 3) (s : State) : Res :=
  scalar2 (.sdivn d a b g) g d a b s fun x y => divUnsigned x y

/-- R188. -/
def execSrem (d a b : Reg) (g : BitVec 3) (s : State) : Res :=
  scalar2 (.srem d a b g) g d a b s fun x y => remSigned x y

/-- R188. -/
def execSremn (d a b : Reg) (g : BitVec 3) (s : State) : Res :=
  scalar2 (.sremn d a b g) g d a b s fun x y => remUnsigned x y

/-- R188. -/
def execSand (d a b : Reg) (g : BitVec 3) (s : State) : Res :=
  scalar2 (.sand d a b g) g d a b s fun x y => x &&& y

/-- R188. -/
def execSor (d a b : Reg) (g : BitVec 3) (s : State) : Res :=
  scalar2 (.sor d a b g) g d a b s fun x y => x ||| y

/-- R188. -/
def execSxor (d a b : Reg) (g : BitVec 3) (s : State) : Res :=
  scalar2 (.sxor d a b g) g d a b s fun x y => x ^^^ y

/-- R188. -/
def execSshl (d a b : Reg) (g : BitVec 3) (s : State) : Res :=
  scalar2 (.sshl d a b g) g d a b s fun x y => x <<< (y.toNat % 64)

/-- R188. -/
def execSshr (d a b : Reg) (g : BitVec 3) (s : State) : Res :=
  scalar2 (.sshr d a b g) g d a b s fun x y => x >>> (y.toNat % 64)

/-- R188. -/
def execSsra (d a b : Reg) (g : BitVec 3) (s : State) : Res :=
  scalar2 (.ssra d a b g) g d a b s fun x y => x.sshiftRight (y.toNat % 64)

/-- R188. -/
def execSmin (d a b : Reg) (g : BitVec 3) (s : State) : Res :=
  scalar2 (.smin d a b g) g d a b s fun x y => if x.slt y then x else y

/-- R188. -/
def execSmax (d a b : Reg) (g : BitVec 3) (s : State) : Res :=
  scalar2 (.smax d a b g) g d a b s fun x y => if x.slt y then y else x

/-- R188. -/
def execSminn (d a b : Reg) (g : BitVec 3) (s : State) : Res :=
  scalar2 (.sminn d a b g) g d a b s fun x y => if x.ult y then x else y

/-- R188. -/
def execSmaxn (d a b : Reg) (g : BitVec 3) (s : State) : Res :=
  scalar2 (.smaxn d a b g) g d a b s fun x y => if x.ult y then y else x

/-- R188. -/
def execSseq (d a b : Reg) (g : BitVec 3) (s : State) : Res :=
  scalar2 (.sseq d a b g) g d a b s fun x y => bit (x == y)

/-- R188. -/
def execSslt (d a b : Reg) (g : BitVec 3) (s : State) : Res :=
  scalar2 (.sslt d a b g) g d a b s fun x y => bit (x.slt y)

/-- R188. -/
def execSsltn (d a b : Reg) (g : BitVec 3) (s : State) : Res :=
  scalar2 (.ssltn d a b g) g d a b s fun x y => bit (x.ult y)

/-- R188: x when the old s[d] is not 0, else y. -/
def execSsel (d a b : Reg) (g : BitVec 3) (s : State) : Res :=
  scalarOp (.ssel d a b g) g d s fun _ x => if x.sget d != 0 then x.sget a else x.sget b

/-- R190. -/
def execSaddi (d a : Reg) (g : BitVec 3) (imm : BitVec 8) (s : State) : Res :=
  scalarI (.saddi d a g imm) g d a imm s fun x v => x + v

/-- R190. -/
def execSandi (d a : Reg) (g : BitVec 3) (imm : BitVec 8) (s : State) : Res :=
  scalarI (.sandi d a g imm) g d a imm s fun x v => x &&& v

/-- R190. -/
def execSori (d a : Reg) (g : BitVec 3) (imm : BitVec 8) (s : State) : Res :=
  scalarI (.sori d a g imm) g d a imm s fun x v => x ||| v

/-- R190. -/
def execSxori (d a : Reg) (g : BitVec 3) (imm : BitVec 8) (s : State) : Res :=
  scalarI (.sxori d a g imm) g d a imm s fun x v => x ^^^ v

/-- R190. -/
def execSshli (d a : Reg) (g : BitVec 3) (imm : BitVec 8) (s : State) : Res :=
  scalarI (.sshli d a g imm) g d a imm s fun x v => x <<< (v.toNat % 64)

/-- R190. -/
def execSshri (d a : Reg) (g : BitVec 3) (imm : BitVec 8) (s : State) : Res :=
  scalarI (.sshri d a g imm) g d a imm s fun x v => x >>> (v.toNat % 64)

/-- R190. -/
def execSsrai (d a : Reg) (g : BitVec 3) (imm : BitVec 8) (s : State) : Res :=
  scalarI (.ssrai d a g imm) g d a imm s fun x v => x.sshiftRight (v.toNat % 64)

/-- R190. -/
def execSli (d : Reg) (g : BitVec 3) (imm : BitVec 8) (s : State) : Res :=
  scalarOp (.sli d g imm) g d s fun c _ => c.imm imm

end Sys2Proof.Machine
end

