-- ==== Sys2Proof/Machine/Special.lean ====
section
/-!
DEFINITION. The approximate functions of major 0x0C (R80, R81, R209). Each is enclosed between two numbers, in fixed point,
and one of the f32 codes that its bound allows is picked (log 12).
-/

namespace Sys2Proof.Machine

/-! ### Fixed point -/

/-- Fraction bits of the enclosures; each is wider than its true error by 2^12 units at least. -/
def fx : Nat := 192

/-- 1 in fixed point. -/
def fxOne : Nat := 2 ^ fx

def fxPad : Nat := 2 ^ 12

def fxMul (a b : Nat) : Nat := a * b / fxOne

/-- Sum of p * (-1)^k / (2k + 1) over k, p the power z^(2k+1) in units, from term k on; each p shrinks by num / den. -/
def arcSum (num den : Nat) (alt : Bool) : Nat → Nat → Nat → Int
  | 0, _, _ => 0
  | n + 1, k, p =>
    (p / (2 * k + 1) : Nat) + (if alt then -1 else 1) * arcSum num den alt n (k + 1) (p * num / den)

/-- pi / 2 with 320 fraction bits, by Machin's formula. -/
def halfPi : Nat :=
  let at5 := arcSum 1 25 true 160 0 (2 ^ 320 / 5)
  let at239 := arcSum 1 57121 true 40 0 (2 ^ 320 / 239)
  (8 * at5 - 2 * at239).toNat

/-- ln 2, as twice the inverse hyperbolic tangent of 1/3. -/
def ln2 : Nat := (2 * arcSum 1 9 false 130 0 (fxOne / 3)).toNat

/-- 1 + z/k (1 + z/(k+1) (...)): with k = 1 the exponential. -/
def expSum (z : Nat) : Nat → Nat → Nat
  | 0, _ => fxOne
  | n + 1, k => fxOne + fxMul z (expSum z n (k + 1)) / k

def expFx (z : Nat) : Nat := expSum z 60 1

/-- 1 - r2/(k(k+1)) (1 - ...): with k = 2 the sine over its argument, with k = 1 the cosine. -/
def trigSum (r2 : Nat) : Nat → Nat → Int
  | 0, _ => fxOne
  | n + 1, k => fxOne - (r2 * trigSum r2 n (k + 2)) / ((fxOne : Int) * (k * (k + 1) : Nat))

def sinFx (r : Nat) : Int := (r * trigSum (fxMul r r) 30 2) / (fxOne : Int)
def cosFx (r : Nat) : Int := trigSum (fxMul r r) 30 1

/-! ### Codes within a bound -/

/-- Places f32 codes in the order of their values, -0 just below +0. -/
def codeOrder (n : Nat) : Int := if n / 2 ^ 31 % 2 = 1 then -((n % 2 ^ 31 : Nat) : Int) - 1 else n

def codeAt (k : Int) : Nat := if k < 0 then 2 ^ 31 + (-k - 1).toNat else k.toNat

/-- x * 2^e of a signed x; an exact zero has the sign given. -/
def valOf (zero : Bool) (x : Int) (e : Int) : Val := .fin (if x = 0 then zero else decide (x < 0)) x.natAbs e

/-- One code of those between two codes, in value order: the pick-th. -/
def pickBetween (pick lo hi : Nat) : Nat :=
  let k := codeOrder lo
  codeAt (k + (pick % ((codeOrder hi - k).toNat + 1) : Nat))

/-- The codes whose values lie in [lo, hi] * 2^e. -/
def leastCode (lo e : Int) : Nat := fmt32.ofVal .ru false (valOf true lo e)
def greatestCode (hi e : Int) : Nat := fmt32.ofVal .rd false (valOf false hi e)

/-- The exponent of ulp of a magnitude h * 2^e (R80). -/
def ulpExp (h : Nat) (e : Int) : Int := max ((Nat.log2 h : Int) + e) (-126) - 23

/-- A code within `b` ulp of a number that lies strictly between lo and hi, or is both, times 2^e (R80). Its ulp is that of the
smaller end. Every code is a multiple of 2^-149, so that in units of at most that a strict bound is the next integer. -/
def within (pick : Nat) (b : Nat) (lo hi e : Int) : Nat :=
  let at_ := min e (-149)
  let d : Int := (b * 2 ^ (ulpExp (min lo.natAbs hi.natAbs) e - at_).toNat : Nat)
  let k := (2 ^ (e - at_).toNat : Nat)
  let open_ : Int := if lo = hi then 0 else 1
  pickBetween pick (leastCode (lo * k - d + open_) at_) (greatestCode (hi * k + d - open_) at_)

/-- A number within fxPad of y in fixed point, and strictly between two others. -/
def near (pick b : Nat) (lo hi y : Int) (e : Int) : Nat := within pick b (max (y - fxPad) lo) (min (y + fxPad) hi) e

/-- A code moved into a range of codes, by value. -/
def clampCode (lo hi n : Nat) : Nat :=
  if codeOrder n < codeOrder lo then lo else if codeOrder hi < codeOrder n then hi else n

/-- Which allowed code this part returns for an operand of a function (log 12). -/
def pickOf (fn : Nat) (x : Word) : Nat := Config.specialPick fn x

/-- x ≤ x' implies f(x) ≤ f(x') (R81), where both are numbers. -/
def monotonic (f : Word → Nat) : Bool :=
  decide (∀ x y : Word, Val.lt (fmt32.val x.toNat) (fmt32.val y.toNat) = true →
    f x = fmt32.nan ∨ f y = fmt32.nan ∨ codeOrder (f x) ≤ codeOrder (f y))

/-- The pick of a function that R80 makes monotonic: the part's own picks where they make it so over every operand, else
the least allowed code of each (log 12). Pick 0 is the least code, so that a part that picks it need not be judged. -/
def monoPick (f : Nat → Word → Nat) (fn : Nat) (x : Word) : Nat :=
  match pickOf fn x with
  | 0 => 0
  | k + 1 => if monotonic fun x => f (pickOf fn x) x then k + 1 else 0

/-- An infinite result under SAT (R209). -/
def infOr (sat neg : Bool) : Nat := fmt32.ofVal .rn sat (.inf neg)

/-! ### The functions, of an f32 value -/

/-- A power of two as a code: exact where representable. -/
def pow2Code (neg : Bool) (k : Int) : Nat := fmt32.round .rn false neg 1 k false

def isPow2 (m : Nat) : Bool := m == 2 ^ Nat.log2 m

/-- 1 / x (R80). -/
def rcp (sat : Bool) (x : Word) : Nat :=
  match fmt32.val x.toNat with
  | .nan => fmt32.nan
  | .inf n => fmt32.signed n 0
  | .fin n m e =>
    if m = 0 then infOr sat n
    else
      let top := -(Nat.log2 m : Int) - e
      if isPow2 m then (if 128 ≤ top then infOr sat n else pow2Code n top)
      else if 128 < top then infOr sat n
      else
        let q : Int := (2 ^ 300 / m : Nat)
        if n then within (pickOf 0 x) 1 (-(q + 1)) (-q) (-e - 300) else within (pickOf 0 x) 1 q (q + 1) (-e - 300)

/-- 1 / sqrt x (R80). -/
def rsq (sat : Bool) (x : Word) : Nat :=
  match fmt32.val x.toNat with
  | .nan => fmt32.nan
  | .inf n => if n then fmt32.nan else 0
  | .fin n m e =>
    if m = 0 then infOr sat n
    else if n then fmt32.nan
    else
      let m1 := if e % 2 = 0 then m else 2 * m
      let e1 := if e % 2 = 0 then e else e - 1
      let r := isqrt (2 ^ 600 / m1)
      within (pickOf 1 x) 1 r (if r * r * m1 = 2 ^ 600 then r else r + 1) (-(e1 / 2) - 300)

/-- 2^x: between the exact results of the integers about x (R80). -/
def exp2At (sat : Bool) (pick : Nat) (x : Word) : Nat :=
  match fmt32.val x.toNat with
  | .nan => fmt32.nan
  | .inf n => if n then 0 else infOr sat false
  | .fin n m e =>
    if m = 0 then pow2Code false 0
    else
      let k := roundInt .rd n m e
      if 128 ≤ k then infOr sat false
      else if Val.eq (.fin n m e) (Val.ofInt k) && decide (-149 ≤ k) then pow2Code false k
      else if k < -149 then pickBetween pick 0 1
      else
        let f := (scaled n m (e + fx) 0 - k * fxOne).toNat
        let y : Int := expFx (fxMul f ln2)
        clampCode (pow2Code false k) (if k = 127 then fmt32.maxCode else pow2Code false (k + 1))
          (near pick 2 fxOne (2 * fxOne : Nat) y (k - fx))

/-- 2^x, monotonic (R80). -/
def exp2 (sat : Bool) (x : Word) : Nat := exp2At sat (monoPick (exp2At false) 4 x) x

/-- log2 x: between the exact results of the powers of two about x (R80). -/
def log2At (sat : Bool) (pick : Nat) (x : Word) : Nat :=
  match fmt32.val x.toNat with
  | .nan => fmt32.nan
  | .inf n => if n then fmt32.nan else infOr sat false
  | .fin n m e =>
    if m = 0 then infOr sat true
    else if n then fmt32.nan
    else
      let l := Nat.log2 m
      let k : Int := l + e
      let int (j : Int) : Nat := fmt32.ofVal .rn false (Val.ofInt j)
      if isPow2 m then int k
      else
        let z := (m - 2 ^ l) * fxOne / (m + 2 ^ l)
        let z2 := fxMul z z
        let lnu := 2 * arcSum z2 fxOne false 70 0 z
        let y := k * fxOne + lnu * fxOne / ln2
        clampCode (int k) (int (k + 1)) (near pick 2 (k * fxOne) ((k + 1) * fxOne) y (-fx))

/-- log2 x, monotonic (R80). -/
def log2f (sat : Bool) (x : Word) : Nat := log2At sat (monoPick (log2At false) 5 x) x

/-- sin x or cos x of a quarter turn count and a rest: quarter q, rest r. -/
def quarter (q r : Nat) : Int :=
  match q % 4 with
  | 0 => sinFx r
  | 1 => cosFx r
  | 2 => -sinFx r
  | _ => -cosFx r

/-- sin (with `ahead` 0) or cos (with `ahead` 1) of |x| = m * 2^e, in fixed point. -/
def trigFx (ahead m : Nat) (e : Int) : Int :=
  let big := if 0 ≤ e + 320 then m * 2 ^ (e + 320).toNat else 0
  quarter (big / halfPi + ahead) (big % halfPi / 2 ^ 128)

/-- |x| is above 2^16 (R81). -/
def farOut (m : Nat) (e : Int) : Bool := (Val.fin false 65536 0).lt (.fin false m e)

/-- A value of [-1, 1] within 2^-19 of y (R81). -/
def coarse (fn : Nat) (x : Word) (y : Int) : Nat :=
  let d : Int := fxPad + 2 ^ (fx - 19)
  let one : Int := fxOne
  pickBetween (pickOf fn x) (leastCode (max (y - d) (-one)) (-fx)) (greatestCode (min (y + d) one) (-fx))

/-- sin x (R80, R81). -/
def sinf (x : Word) : Nat :=
  match fmt32.val x.toNat with
  | .nan => fmt32.nan
  | .inf _ => fmt32.nan
  | .fin n m e =>
    if m = 0 then x.toNat
    else
      let y := trigFx 0 m e
      let z := if n then -y else y
      if farOut m e then coarse 6 x z
      else if (Nat.log2 m : Int) + e < -30 then
        let hi : Int := (m * 2 ^ 61 : Nat)
        if n then within (pickOf 6 x) 4 (-hi) (m - hi) (e - 61) else within (pickOf 6 x) 4 (hi - m) hi (e - 61)
      else near (pickOf 6 x) 4 (-fxOne) fxOne z (-fx)

/-- cos x (R80, R81). -/
def cosf (x : Word) : Nat :=
  match fmt32.val x.toNat with
  | .nan => fmt32.nan
  | .inf _ => fmt32.nan
  | .fin _ m e =>
    if m = 0 then pow2Code false 0
    else
      let y := trigFx 1 m e
      if farOut m e then coarse 7 x y else near (pickOf 7 x) 4 (-fxOne) fxOne y (-fx)

/-- e^(64 z) of z in fixed point, by six squarings. -/
def exp64 (z : Nat) : Nat := (List.range 6).foldl (fun r _ => fxMul r r) (expFx z)

/-- tanh x (R80). -/
def tanhf (x : Word) : Nat :=
  match fmt32.val x.toNat with
  | .nan => fmt32.nan
  | .inf n => pow2Code n 0
  | .fin n m e =>
    if m = 0 then x.toNat
    else if !(Val.fin false m e).lt (.fin false 16 0) then pow2Code n 0
    else if (Nat.log2 m : Int) + e < -30 then
      let hi : Int := (m * 2 ^ 61 : Nat)
      if n then within (pickOf 8 x) 4 (-hi) (m - hi) (e - 61) else within (pickOf 8 x) 4 (hi - m) hi (e - 61)
    else
      let E := exp64 ((scaled false m (e + fx) 5).toNat)
      let w := E / 2 ^ 170 + fxPad
      let lo : Int := ((E - w - fxOne) * fxOne / (E - w + fxOne) : Nat)
      let hi : Int := ((E + w - fxOne) * fxOne / (E + w + fxOne) + 1 : Nat)
      if n then within (pickOf 8 x) 4 (-hi) (-lo) (-fx) else within (pickOf 8 x) 4 lo hi (-fx)

/-- A word of R209 with one operand. -/
def special (i : Instr) (g : BitVec 3) (d a : Reg) (s : State) (f : Bool → Word → Nat) : Res :=
  floatOp i g d [.word a] s fun c x k => w32 (f c.sat (x.vget k a))

/-- R209. -/
def execVrcp (d a : Reg) (g : BitVec 3) (s : State) : Res := special (.vrcp d a g) g d a s rcp

/-- R209. -/
def execVrsq (d a : Reg) (g : BitVec 3) (s : State) : Res := special (.vrsq d a g) g d a s rsq

/-- R209. -/
def execVexp2 (d a : Reg) (g : BitVec 3) (s : State) : Res := special (.vexp2 d a g) g d a s exp2

/-- R209. -/
def execVlog2 (d a : Reg) (g : BitVec 3) (s : State) : Res := special (.vlog2 d a g) g d a s log2f

/-- R209. -/
def execVsin (d a : Reg) (g : BitVec 3) (s : State) : Res := special (.vsin d a g) g d a s fun _ x => sinf x

/-- R209. -/
def execVcos (d a : Reg) (g : BitVec 3) (s : State) : Res := special (.vcos d a g) g d a s fun _ x => cosf x

/-- R209. -/
def execVtanh (d a : Reg) (g : BitVec 3) (s : State) : Res := special (.vtanh d a g) g d a s fun _ x => tanhf x

end Sys2Proof.Machine
end

