-- ==== Sys2Proof/Machine/VCmp.lean ====
section
/-!
DEFINITION. Comparisons and predicates (R203).
-/

namespace Sys2Proof.Machine

/-- An integer comparison. -/
def cmpOp (i : Instr) (g d : BitVec 3) (a b : Reg) (s : State) (f : Word → Word → Bool) : Res :=
  predOp i g d s fun x k => f (x.vget k a) (x.vget k b)

/-- An f32 comparison: a signalling NaN in either operand traps, a before b (R78). -/
def cmpFloat (i : Instr) (g d : BitVec 3) (a b : Reg) (s : State) (f : Val → Val → Bool) : Res :=
  issue i s fun c s =>
    match snanOf c.beads (fun x => x.lanesOn g c.neg) [.word a, .word b] with
    | some t => takeTrap c s t
    | none => c.setPreds s g d fun x k => f (fmt32.val (x.vget k a).toNat) (fmt32.val (x.vget k b).toNat)

/-- An operation on two predicates. -/
def predLogic (i : Instr) (g d a b : BitVec 3) (s : State) (f : Bool → Bool → Bool) : Res :=
  predOp i g d s fun x k => f (x.pget k a) (x.pget k b)

/-- R203. -/
def execVseq (d : BitVec 3) (a b : Reg) (g : BitVec 3) (s : State) : Res :=
  cmpOp (.vseq d a b g) g d a b s fun x y => x == y

/-- R203. -/
def execVsne (d : BitVec 3) (a b : Reg) (g : BitVec 3) (s : State) : Res :=
  cmpOp (.vsne d a b g) g d a b s fun x y => x != y

/-- R203. -/
def execVslt (d : BitVec 3) (a b : Reg) (g : BitVec 3) (s : State) : Res :=
  cmpOp (.vslt d a b g) g d a b s fun x y => x.slt y

/-- R203. -/
def execVsle (d : BitVec 3) (a b : Reg) (g : BitVec 3) (s : State) : Res :=
  cmpOp (.vsle d a b g) g d a b s fun x y => x.sle y

/-- R203. -/
def execVsltn (d : BitVec 3) (a b : Reg) (g : BitVec 3) (s : State) : Res :=
  cmpOp (.vsltn d a b g) g d a b s fun x y => x.ult y

/-- R203. -/
def execVslen (d : BitVec 3) (a b : Reg) (g : BitVec 3) (s : State) : Res :=
  cmpOp (.vslen d a b g) g d a b s fun x y => x.ule y

/-- R203. -/
def execVfseq (d : BitVec 3) (a b : Reg) (g : BitVec 3) (s : State) : Res :=
  cmpFloat (.vfseq d a b g) g d a b s fun x y => x.eq y

/-- R203. -/
def execVfsne (d : BitVec 3) (a b : Reg) (g : BitVec 3) (s : State) : Res :=
  cmpFloat (.vfsne d a b g) g d a b s fun x y => !x.eq y

/-- R203. -/
def execVfslt (d : BitVec 3) (a b : Reg) (g : BitVec 3) (s : State) : Res :=
  cmpFloat (.vfslt d a b g) g d a b s fun x y => x.lt y

/-- R203. -/
def execVfsle (d : BitVec 3) (a b : Reg) (g : BitVec 3) (s : State) : Res :=
  cmpFloat (.vfsle d a b g) g d a b s fun x y => x.lt y || x.eq y

/-- R203. -/
def execVfsun (d : BitVec 3) (a b : Reg) (g : BitVec 3) (s : State) : Res :=
  cmpFloat (.vfsun d a b g) g d a b s fun x y => x == .nan || y == .nan

/-- R203. -/
def execPand (d a b g : BitVec 3) (s : State) : Res :=
  predLogic (.pand d a b g) g d a b s fun p q => p && q

/-- R203. -/
def execPor (d a b g : BitVec 3) (s : State) : Res :=
  predLogic (.por d a b g) g d a b s fun p q => p || q

/-- R203. -/
def execPxor (d a b g : BitVec 3) (s : State) : Res :=
  predLogic (.pxor d a b g) g d a b s fun p q => p != q

/-- R203. -/
def execPandn (d a b g : BitVec 3) (s : State) : Res :=
  predLogic (.pandn d a b g) g d a b s fun p q => p && !q

/-- R203. -/
def execPmov (d a g : BitVec 3) (s : State) : Res := predOp (.pmov d a g) g d s fun x k => x.pget k a

end Sys2Proof.Machine
end

