-- ==== Sys2Proof/Machine/VFloat.lean ====
section
/-!
DEFINITION. FP32 arithmetic and packed 16-bit arithmetic (R205 to R208), and the correctly rounded division and square
root (R80, R209).
-/

namespace Sys2Proof.Machine

/-- Two f32 sources. -/
def float2 (i : Instr) (g : BitVec 3) (d a b : Reg) (s : State) (f : Rnd → Bool → Nat → Nat → Nat) : Res :=
  floatOp i g d [.word a, .word b] s fun c x k => w32 (f c.rnd c.sat (x.vget k a).toNat (x.vget k b).toNat)

/-- The fused forms: sources a, b and the old d, in that order for a signalling NaN (R205). -/
def float3 (i : Instr) (g : BitVec 3) (d a b : Reg) (np nz : Bool) (s : State) : Res :=
  floatOp i g d [.word a, .word b, .word d] s fun c x k =>
    w32 (fmt32.fmaOp c.rnd c.sat np nz (x.vget k a).toNat (x.vget k b).toNat (x.vget k d).toNat)

/-- One f32 source. -/
def float1 (i : Instr) (g : BitVec 3) (d a : Reg) (s : State) (f : Rnd → Bool → Nat → Nat) : Res :=
  floatOp i g d [.word a] s fun c x k => w32 (f c.rnd c.sat (x.vget k a).toNat)

/-- The format of a packed word (R208). -/
def halfFmt (h : BitVec 1) : FloatFmt := if h == 1 then fmtF16 else fmtBf16

/-- Two packed sources (R208). -/
def half2 (i : Instr) (g : BitVec 3) (d a b : Reg) (h : BitVec 1) (s : State) (f : FloatFmt → Rnd → Bool → Nat → Nat → Nat) :
    Res :=
  floatOp i g d [.halves a (halfFmt h), .halves b (halfFmt h)] s fun c x k =>
    halves (f (halfFmt h) c.rnd c.sat) (x.vget k a) (x.vget k b)

/-- R205. -/
def execVfadd (d a b : Reg) (g : BitVec 3) (s : State) : Res :=
  float2 (.vfadd d a b g) g d a b s fun m z x y => fmt32.addOp m z x y

/-- R205. -/
def execVfsub (d a b : Reg) (g : BitVec 3) (s : State) : Res :=
  float2 (.vfsub d a b g) g d a b s fun m z x y => fmt32.subOp m z x y

/-- R205. -/
def execVfmul (d a b : Reg) (g : BitVec 3) (s : State) : Res :=
  float2 (.vfmul d a b g) g d a b s fun m z x y => fmt32.mulOp m z x y

/-- R205. -/
def execVfma (d a b : Reg) (g : BitVec 3) (s : State) : Res :=
  float3 (.vfma d a b g) g d a b false false s

/-- R205. -/
def execVfms (d a b : Reg) (g : BitVec 3) (s : State) : Res :=
  float3 (.vfms d a b g) g d a b false true s

/-- R205. -/
def execVfnma (d a b : Reg) (g : BitVec 3) (s : State) : Res :=
  float3 (.vfnma d a b g) g d a b true false s

/-- R206. -/
def execVfmin (d a b : Reg) (g : BitVec 3) (s : State) : Res :=
  float2 (.vfmin d a b g) g d a b s fun _ z x y => fmt32.minMax false z x y

/-- R206. -/
def execVfmax (d a b : Reg) (g : BitVec 3) (s : State) : Res :=
  float2 (.vfmax d a b g) g d a b s fun _ z x y => fmt32.minMax true z x y

/-- R205. -/
def execVfabs (d a : Reg) (g : BitVec 3) (s : State) : Res :=
  laneOp1 (.vfabs d a g) g d a s fun x => x &&& 0x7FFFFFFF

/-- R205. -/
def execVfneg (d a : Reg) (g : BitVec 3) (s : State) : Res :=
  laneOp1 (.vfneg d a g) g d a s fun x => x ^^^ 0x80000000

/-- R205. -/
def execVfcps (d a b : Reg) (g : BitVec 3) (s : State) : Res :=
  laneOp2 (.vfcps d a b g) g d a b s fun x y => (x &&& 0x7FFFFFFF) ||| (y &&& 0x80000000)

/-- R207. -/
def execVfrnd (d a : Reg) (g : BitVec 3) (s : State) : Res :=
  float1 (.vfrnd d a g) g d a s fun m z x => fmt32.integral m z x

/-- R207. -/
def execVfcls (d a : Reg) (g : BitVec 3) (s : State) : Res :=
  laneOp1 (.vfcls d a g) g d a s fun x => w32 (classOf x.toNat)

/-- R208. -/
def execVhadd (d a b : Reg) (g : BitVec 3) (h : BitVec 1) (s : State) : Res :=
  half2 (.vhadd d a b g h) g d a b h s fun f m z x y => f.addOp m z x y

/-- R208. -/
def execVhsub (d a b : Reg) (g : BitVec 3) (h : BitVec 1) (s : State) : Res :=
  half2 (.vhsub d a b g h) g d a b h s fun f m z x y => f.subOp m z x y

/-- R208. -/
def execVhmul (d a b : Reg) (g : BitVec 3) (h : BitVec 1) (s : State) : Res :=
  half2 (.vhmul d a b g h) g d a b h s fun f m z x y => f.mulOp m z x y

/-- R208. -/
def execVhmin (d a b : Reg) (g : BitVec 3) (h : BitVec 1) (s : State) : Res :=
  half2 (.vhmin d a b g h) g d a b h s fun f _ z x y => f.minMax false z x y

/-- R208. -/
def execVhmax (d a b : Reg) (g : BitVec 3) (h : BitVec 1) (s : State) : Res :=
  half2 (.vhmax d a b g h) g d a b h s fun f _ z x y => f.minMax true z x y

/-- R208. -/
def execVhfma (d a b : Reg) (g : BitVec 3) (h : BitVec 1) (s : State) : Res :=
  floatOp (.vhfma d a b g h) g d [.halves a (halfFmt h), .halves b (halfFmt h), .halves d (halfFmt h)] s fun c x k =>
    halves3 ((halfFmt h).fmaOp c.rnd c.sat false false) (x.vget k a) (x.vget k b) (x.vget k d)

/-- R80, R209: correctly rounded. -/
def execVsqrt (d a : Reg) (g : BitVec 3) (s : State) : Res :=
  float1 (.vsqrt d a g) g d a s fun m z x => fmt32.sqrtOp m z x

/-- R80, R209: correctly rounded. -/
def execVfdiv (d a b : Reg) (g : BitVec 3) (s : State) : Res :=
  float2 (.vfdiv d a b g) g d a b s fun m z x y => fmt32.divOp m z x y

end Sys2Proof.Machine
end

