-- ==== Sys2Proof/Machine/VInt.lean ====
section
/-!
DEFINITION. Vector integer and bitwise operations, immediates and bit fields (R199 to R202, R204).
-/

namespace Sys2Proof.Machine

/-- Number of 1 bits (R201). -/
def popcount (x : Word) : Word := BitVec.ofNat 32 ((List.range 32).filter x.getLsbD).length

/-- Bit k moved to bit 31 - k (R201). -/
def bitReverse (x : Word) : Word := (List.range 32).foldl (fun r k => (r <<< 1) ||| bit (x.getLsbD k)) 0

/-- Number of leading 0 bits (R201). -/
def leadingZeros (x : Word) : Word := if x = 0 then 32 else BitVec.ofNat 32 (31 - Nat.log2 x.toNat)

/-- Position and effective width of a bit field (R204). -/
def fieldPos (y : Word) : Nat := y.toNat % 32
def fieldWidth (y : Word) : Nat := min (y.toNat / 256 % 64) (32 - fieldPos y)

/-- The mask of a bit field (R204). -/
def fieldMask (y : Word) : Word := BitVec.ofNat 32 ((2 ^ fieldWidth y - 1) * 2 ^ fieldPos y)

/-- VBFE's field (R204). -/
def fieldOf (x y : Word) : Word := (x &&& fieldMask y) >>> fieldPos y

/-- VBFES's field, its top bit copied upward (R204). -/
def fieldSigned (x y : Word) : Word :=
  if fieldWidth y = 0 then 0 else ((fieldOf x y) <<< (32 - fieldWidth y)).sshiftRight (32 - fieldWidth y)

/-- R201. -/
def execVadd (d a b : Reg) (g : BitVec 3) (s : State) : Res :=
  laneOp2 (.vadd d a b g) g d a b s fun x y => x + y

/-- R201. -/
def execVsub (d a b : Reg) (g : BitVec 3) (s : State) : Res :=
  laneOp2 (.vsub d a b g) g d a b s fun x y => x - y

/-- R201. -/
def execVmul (d a b : Reg) (g : BitVec 3) (s : State) : Res :=
  laneOp2 (.vmul d a b g) g d a b s fun x y => x * y

/-- R201. -/
def execVmulh (d a b : Reg) (g : BitVec 3) (s : State) : Res :=
  laneOp2 (.vmulh d a b g) g d a b s fun x y => mulHigh x.toInt y.toInt

/-- R201. -/
def execVmulhn (d a b : Reg) (g : BitVec 3) (s : State) : Res :=
  laneOp2 (.vmulhn d a b g) g d a b s fun x y => mulHigh x.toNat y.toNat

/-- R201. -/
def execVand (d a b : Reg) (g : BitVec 3) (s : State) : Res :=
  laneOp2 (.vand d a b g) g d a b s fun x y => x &&& y

/-- R201. -/
def execVor (d a b : Reg) (g : BitVec 3) (s : State) : Res :=
  laneOp2 (.vor d a b g) g d a b s fun x y => x ||| y

/-- R201. -/
def execVxor (d a b : Reg) (g : BitVec 3) (s : State) : Res :=
  laneOp2 (.vxor d a b g) g d a b s fun x y => x ^^^ y

/-- R201. -/
def execVandn (d a b : Reg) (g : BitVec 3) (s : State) : Res :=
  laneOp2 (.vandn d a b g) g d a b s fun x y => x &&& ~~~y

/-- R201. -/
def execVshl (d a b : Reg) (g : BitVec 3) (s : State) : Res :=
  laneOp2 (.vshl d a b g) g d a b s fun x y => x <<< (y.toNat % 32)

/-- R201. -/
def execVshr (d a b : Reg) (g : BitVec 3) (s : State) : Res :=
  laneOp2 (.vshr d a b g) g d a b s fun x y => x >>> (y.toNat % 32)

/-- R201. -/
def execVsra (d a b : Reg) (g : BitVec 3) (s : State) : Res :=
  laneOp2 (.vsra d a b g) g d a b s fun x y => x.sshiftRight (y.toNat % 32)

/-- R201. -/
def execVmin (d a b : Reg) (g : BitVec 3) (s : State) : Res :=
  laneOp2 (.vmin d a b g) g d a b s fun x y => if x.slt y then x else y

/-- R201. -/
def execVmax (d a b : Reg) (g : BitVec 3) (s : State) : Res :=
  laneOp2 (.vmax d a b g) g d a b s fun x y => if x.slt y then y else x

/-- R201. -/
def execVminn (d a b : Reg) (g : BitVec 3) (s : State) : Res :=
  laneOp2 (.vminn d a b g) g d a b s fun x y => if x.ult y then x else y

/-- R201. -/
def execVmaxn (d a b : Reg) (g : BitVec 3) (s : State) : Res :=
  laneOp2 (.vmaxn d a b g) g d a b s fun x y => if x.ult y then y else x

/-- R201. -/
def execVmad (d a b : Reg) (g : BitVec 3) (s : State) : Res :=
  laneOp3 (.vmad d a b g) g d a b s fun x y z => x * y + z

/-- R201. -/
def execVabs (d a : Reg) (g : BitVec 3) (s : State) : Res :=
  laneOp1 (.vabs d a g) g d a s fun x => if x.slt 0 then -x else x

/-- R201. -/
def execVneg (d a : Reg) (g : BitVec 3) (s : State) : Res :=
  laneOp1 (.vneg d a g) g d a s fun x => -x

/-- R201. -/
def execVpopc (d a : Reg) (g : BitVec 3) (s : State) : Res :=
  laneOp1 (.vpopc d a g) g d a s fun x => popcount x

/-- R201. -/
def execVclz (d a : Reg) (g : BitVec 3) (s : State) : Res :=
  laneOp1 (.vclz d a g) g d a s fun x => leadingZeros x

/-- R201. -/
def execVbrev (d a : Reg) (g : BitVec 3) (s : State) : Res :=
  laneOp1 (.vbrev d a g) g d a s fun x => bitReverse x

/-- R201. -/
def execVmov (d a : Reg) (g : BitVec 3) (s : State) : Res :=
  laneOp1 (.vmov d a g) g d a s fun x => x

/-- R201. -/
def execVsel (d a b : Reg) (g : BitVec 3) (s : State) : Res :=
  laneOp3 (.vsel d a b g) g d a b s fun x y z => if z != 0 then x else y

/-- R202. -/
def execVaddi (d a : Reg) (g : BitVec 3) (imm : BitVec 8) (s : State) : Res :=
  laneOpI (.vaddi d a g imm) g d a imm s fun x u => x + u

/-- R202. -/
def execVandi (d a : Reg) (g : BitVec 3) (imm : BitVec 8) (s : State) : Res :=
  laneOpI (.vandi d a g imm) g d a imm s fun x u => x &&& u

/-- R202. -/
def execVori (d a : Reg) (g : BitVec 3) (imm : BitVec 8) (s : State) : Res :=
  laneOpI (.vori d a g imm) g d a imm s fun x u => x ||| u

/-- R202. -/
def execVxori (d a : Reg) (g : BitVec 3) (imm : BitVec 8) (s : State) : Res :=
  laneOpI (.vxori d a g imm) g d a imm s fun x u => x ^^^ u

/-- R202. -/
def execVshli (d a : Reg) (g : BitVec 3) (imm : BitVec 8) (s : State) : Res :=
  laneOpI (.vshli d a g imm) g d a imm s fun x u => x <<< (u.toNat % 32)

/-- R202. -/
def execVshri (d a : Reg) (g : BitVec 3) (imm : BitVec 8) (s : State) : Res :=
  laneOpI (.vshri d a g imm) g d a imm s fun x u => x >>> (u.toNat % 32)

/-- R202. -/
def execVsrai (d a : Reg) (g : BitVec 3) (imm : BitVec 8) (s : State) : Res :=
  laneOpI (.vsrai d a g imm) g d a imm s fun x u => x.sshiftRight (u.toNat % 32)

/-- R202. -/
def execVli (d : Reg) (g : BitVec 3) (imm : BitVec 8) (s : State) : Res :=
  laneOp (.vli d g imm) g d s fun c _ _ => (c.imm imm).setWidth 32

/-- R204. -/
def execVbfe (d a b : Reg) (g : BitVec 3) (s : State) : Res := laneOp2 (.vbfe d a b g) g d a b s fieldOf

/-- R204. -/
def execVbfes (d a b : Reg) (g : BitVec 3) (s : State) : Res := laneOp2 (.vbfes d a b g) g d a b s fieldSigned

/-- R204. -/
def execVbfi (d a b : Reg) (g : BitVec 3) (s : State) : Res :=
  laneOp3 (.vbfi d a b g) g d a b s fun x y z => (z &&& ~~~fieldMask y) ||| ((x <<< fieldPos y) &&& fieldMask y)

end Sys2Proof.Machine
end

