-- ==== Sys2Proof/Machine/XLane.lean ====
section
/-!
DEFINITION. Cross-lane words (R213 to R216).
-/

namespace Sys2Proof.Machine

/-- The value a present virtual lane holds (R47, R213). -/
def Ctx.lanes (c : Ctx) (g : BitVec 3) (a : Reg) (j : Nat) : Option Word :=
  match c.beads.find? (·.pos == j / 4) with
  | some b => if laneIn (b.lanesOn g c.neg) (Four.ofNat j) then some (b.vget (Four.ofNat j) a) else none
  | none => none

/-- The present lanes' values, ascending (R215). -/
def Ctx.present (c : Ctx) (g : BitVec 3) (a : Reg) : List (Nat × Word) :=
  (List.range 32).filterMap fun j => (c.lanes g a j).map fun w => (j, w)

/-- A cross-lane word (R213): the result of each active lane, from its own value and what it reads. -/
def crossLane (i : Instr) (g : BitVec 3) (d : Reg) (s : State) (f : Ctx → Bead → Four → Word) : Res := laneOp i g d s f

/-- A shuffle (R214): the lane named, when there is one and it is present; else the reader's own value. -/
def shuffle (i : Instr) (g : BitVec 3) (d a b : Reg) (s : State) (src : Nat → Word → Option Nat) : Res :=
  crossLane i g d s fun c x k =>
    match src (x.lane k) (x.vget k b) with
    | some j => (c.lanes g a j).getD (x.vget k a)
    | none => x.vget k a

/-- R214. -/
def execVshfl (d a b : Reg) (g : BitVec 3) (s : State) : Res :=
  shuffle (.vshfl d a b g) g d a b s fun _ y => some (y.toNat % 32)

/-- R214. -/
def execVshflx (d a b : Reg) (g : BitVec 3) (s : State) : Res :=
  shuffle (.vshflx d a b g) g d a b s fun j y => some (j ^^^ (y.toNat % 32))

/-- R214. -/
def execVshflu (d a b : Reg) (g : BitVec 3) (s : State) : Res :=
  shuffle (.vshflu d a b g) g d a b s fun j y => if y.toNat ≤ j then some (j - y.toNat) else none

/-- R214. -/
def execVshfld (d a b : Reg) (g : BitVec 3) (s : State) : Res :=
  shuffle (.vshfld d a b g) g d a b s fun j y => if j + y.toNat ≤ 31 then some (j + y.toNat) else none

/-- R214. -/
def execVbcst (d a : Reg) (g : BitVec 3) (s : State) : Res :=
  crossLane (.vbcst d a g) g d s fun c x k =>
    match c.present g a with
    | (_, w) :: _ => w
    | [] => x.vget k a

/-- R214. -/
def execVvote (d a : Reg) (g : BitVec 3) (s : State) : Res :=
  crossLane (.vvote d a g) g d s fun c _ _ =>
    w32 ((c.present g a).foldl (fun m x => if x.2 = 0 then m else m + 2 ^ x.1) 0)

/-- The operations of R215. -/
inductive ScanOp where
  | addI32 | minI32 | maxI32 | minN32 | maxN32 | and | or | xor | addF32 | minF32 | maxF32
deriving DecidableEq, Repr

def ScanOp.ofCode (c : BitVec 5) : ScanOp :=
  match c.toNat with
  | 0 => .addI32
  | 1 => .minI32
  | 2 => .maxI32
  | 3 => .minN32
  | 4 => .maxN32
  | 5 => .and
  | 6 => .or
  | 7 => .xor
  | 8 => .addF32
  | 9 => .minF32
  | _ => .maxF32

/-- R215. -/
def ScanOp.identity : ScanOp → Word
  | .addI32 | .maxN32 | .or | .xor => 0
  | .minI32 => 0x7FFFFFFF
  | .maxI32 => 0x80000000
  | .minN32 | .and => 0xFFFFFFFF
  | .addF32 => 0x80000000
  | .minF32 => 0x7F800000
  | .maxF32 => 0xFF800000

/-- R215. -/
def ScanOp.combine (op : ScanOp) (x y : Word) : Word :=
  match op with
  | .addI32 => x + y
  | .minI32 => if y.toInt < x.toInt then y else x
  | .maxI32 => if x.toInt < y.toInt then y else x
  | .minN32 => if y.toNat < x.toNat then y else x
  | .maxN32 => if x.toNat < y.toNat then y else x
  | .and => x &&& y
  | .or => x ||| y
  | .xor => x ^^^ y
  | .addF32 => w32 (fmt32.addOp .rn false x.toNat y.toNat)
  | .minF32 => w32 (fmt32.minMax false false x.toNat y.toNat)
  | .maxF32 => w32 (fmt32.minMax true false x.toNat y.toNat)

/-- The values of the present lanes that a predicate picks, combined in ascending order (R215). -/
def Ctx.combine (c : Ctx) (g : BitVec 3) (a : Reg) (op : ScanOp) (p : Nat → Bool) : Word :=
  ((c.present g a).filter fun x => p x.1).foldl (fun acc x => op.combine acc x.2) op.identity

/-- R215. -/
def execVreds (d a : Reg) (op : BitVec 5) (g : BitVec 3) (s : State) : Res :=
  crossLane (.vreds d a op g) g d s fun c _ _ => c.combine g a (ScanOp.ofCode op) fun _ => true

/-- R215. -/
def execVscan (d a : Reg) (excl : BitVec 1) (op : BitVec 5) (g : BitVec 3) (s : State) : Res :=
  crossLane (.vscan d a excl op g) g d s fun c x k =>
    c.combine g a (ScanOp.ofCode op) fun j => if excl == 1 then decide (j < x.lane k) else decide (j ≤ x.lane k)

end Sys2Proof.Machine
end

