-- ==== Sys2Proof/Machine/Dispatch.lean ====
section
/-!
DEFINITION. The meaning of each instruction: one arm per constructor, one call of its meaning.
-/

namespace Sys2Proof.Machine

def exec (i : Instr) (s : State) : Host.Outcome State Fault Refusal :=
  match i with
  | .bra g off => Sys2Proof.Machine.execBra g off s
  | .br g off => Sys2Proof.Machine.execBr g off s
  | .brany g off => Sys2Proof.Machine.execBrany g off s
  | .brall g off => Sys2Proof.Machine.execBrall g off s
  | .call g off => Sys2Proof.Machine.execCall g off s
  | .ret g => Sys2Proof.Machine.execRet g s
  | .jmpr a g => Sys2Proof.Machine.execJmpr a g s
  | .callr a g => Sys2Proof.Machine.execCallr a g s
  | .join => Sys2Proof.Machine.execJoin s
  | .exit g => Sys2Proof.Machine.execExit g s
  | .clasp => Sys2Proof.Machine.execClasp s
  | .yield => Sys2Proof.Machine.execYield s
  | .nop => Sys2Proof.Machine.execNop s
  | .sadd d a b g => Sys2Proof.Machine.execSadd d a b g s
  | .ssub d a b g => Sys2Proof.Machine.execSsub d a b g s
  | .smul d a b g => Sys2Proof.Machine.execSmul d a b g s
  | .smulh d a b g => Sys2Proof.Machine.execSmulh d a b g s
  | .smulhn d a b g => Sys2Proof.Machine.execSmulhn d a b g s
  | .sdiv d a b g => Sys2Proof.Machine.execSdiv d a b g s
  | .sdivn d a b g => Sys2Proof.Machine.execSdivn d a b g s
  | .srem d a b g => Sys2Proof.Machine.execSrem d a b g s
  | .sremn d a b g => Sys2Proof.Machine.execSremn d a b g s
  | .sand d a b g => Sys2Proof.Machine.execSand d a b g s
  | .sor d a b g => Sys2Proof.Machine.execSor d a b g s
  | .sxor d a b g => Sys2Proof.Machine.execSxor d a b g s
  | .sshl d a b g => Sys2Proof.Machine.execSshl d a b g s
  | .sshr d a b g => Sys2Proof.Machine.execSshr d a b g s
  | .ssra d a b g => Sys2Proof.Machine.execSsra d a b g s
  | .smin d a b g => Sys2Proof.Machine.execSmin d a b g s
  | .smax d a b g => Sys2Proof.Machine.execSmax d a b g s
  | .sminn d a b g => Sys2Proof.Machine.execSminn d a b g s
  | .smaxn d a b g => Sys2Proof.Machine.execSmaxn d a b g s
  | .sseq d a b g => Sys2Proof.Machine.execSseq d a b g s
  | .sslt d a b g => Sys2Proof.Machine.execSslt d a b g s
  | .ssltn d a b g => Sys2Proof.Machine.execSsltn d a b g s
  | .ssel d a b g => Sys2Proof.Machine.execSsel d a b g s
  | .saddi d a g imm => Sys2Proof.Machine.execSaddi d a g imm s
  | .sandi d a g imm => Sys2Proof.Machine.execSandi d a g imm s
  | .sori d a g imm => Sys2Proof.Machine.execSori d a g imm s
  | .sxori d a g imm => Sys2Proof.Machine.execSxori d a g imm s
  | .sshli d a g imm => Sys2Proof.Machine.execSshli d a g imm s
  | .sshri d a g imm => Sys2Proof.Machine.execSshri d a g imm s
  | .ssrai d a g imm => Sys2Proof.Machine.execSsrai d a g imm s
  | .sli d g imm => Sys2Proof.Machine.execSli d g imm s
  | .srd d code => Sys2Proof.Machine.execSrd d code s
  | .swr a code => Sys2Proof.Machine.execSwr a code s
  | .vmovs d a pair hi => Sys2Proof.Machine.execVmovs d a pair hi s
  | .smovv d a pair sx low k => Sys2Proof.Machine.execSmovv d a pair sx low k s
  | .sfmt a => Sys2Proof.Machine.execSfmt a s
  | .vadd d a b g => Sys2Proof.Machine.execVadd d a b g s
  | .vsub d a b g => Sys2Proof.Machine.execVsub d a b g s
  | .vmul d a b g => Sys2Proof.Machine.execVmul d a b g s
  | .vmulh d a b g => Sys2Proof.Machine.execVmulh d a b g s
  | .vmulhn d a b g => Sys2Proof.Machine.execVmulhn d a b g s
  | .vmad d a b g => Sys2Proof.Machine.execVmad d a b g s
  | .vand d a b g => Sys2Proof.Machine.execVand d a b g s
  | .vor d a b g => Sys2Proof.Machine.execVor d a b g s
  | .vxor d a b g => Sys2Proof.Machine.execVxor d a b g s
  | .vandn d a b g => Sys2Proof.Machine.execVandn d a b g s
  | .vshl d a b g => Sys2Proof.Machine.execVshl d a b g s
  | .vshr d a b g => Sys2Proof.Machine.execVshr d a b g s
  | .vsra d a b g => Sys2Proof.Machine.execVsra d a b g s
  | .vmin d a b g => Sys2Proof.Machine.execVmin d a b g s
  | .vmax d a b g => Sys2Proof.Machine.execVmax d a b g s
  | .vminn d a b g => Sys2Proof.Machine.execVminn d a b g s
  | .vmaxn d a b g => Sys2Proof.Machine.execVmaxn d a b g s
  | .vabs d a g => Sys2Proof.Machine.execVabs d a g s
  | .vneg d a g => Sys2Proof.Machine.execVneg d a g s
  | .vpopc d a g => Sys2Proof.Machine.execVpopc d a g s
  | .vclz d a g => Sys2Proof.Machine.execVclz d a g s
  | .vbrev d a g => Sys2Proof.Machine.execVbrev d a g s
  | .vsel d a b g => Sys2Proof.Machine.execVsel d a b g s
  | .vmov d a g => Sys2Proof.Machine.execVmov d a g s
  | .vaddi d a g imm => Sys2Proof.Machine.execVaddi d a g imm s
  | .vandi d a g imm => Sys2Proof.Machine.execVandi d a g imm s
  | .vori d a g imm => Sys2Proof.Machine.execVori d a g imm s
  | .vxori d a g imm => Sys2Proof.Machine.execVxori d a g imm s
  | .vshli d a g imm => Sys2Proof.Machine.execVshli d a g imm s
  | .vshri d a g imm => Sys2Proof.Machine.execVshri d a g imm s
  | .vsrai d a g imm => Sys2Proof.Machine.execVsrai d a g imm s
  | .vli d g imm => Sys2Proof.Machine.execVli d g imm s
  | .vseq d a b g => Sys2Proof.Machine.execVseq d a b g s
  | .vsne d a b g => Sys2Proof.Machine.execVsne d a b g s
  | .vslt d a b g => Sys2Proof.Machine.execVslt d a b g s
  | .vsle d a b g => Sys2Proof.Machine.execVsle d a b g s
  | .vsltn d a b g => Sys2Proof.Machine.execVsltn d a b g s
  | .vslen d a b g => Sys2Proof.Machine.execVslen d a b g s
  | .vfseq d a b g => Sys2Proof.Machine.execVfseq d a b g s
  | .vfsne d a b g => Sys2Proof.Machine.execVfsne d a b g s
  | .vfslt d a b g => Sys2Proof.Machine.execVfslt d a b g s
  | .vfsle d a b g => Sys2Proof.Machine.execVfsle d a b g s
  | .vfsun d a b g => Sys2Proof.Machine.execVfsun d a b g s
  | .pand d a b g => Sys2Proof.Machine.execPand d a b g s
  | .por d a b g => Sys2Proof.Machine.execPor d a b g s
  | .pxor d a b g => Sys2Proof.Machine.execPxor d a b g s
  | .pandn d a b g => Sys2Proof.Machine.execPandn d a b g s
  | .pmov d a g => Sys2Proof.Machine.execPmov d a g s
  | .vbfe d a b g => Sys2Proof.Machine.execVbfe d a b g s
  | .vbfes d a b g => Sys2Proof.Machine.execVbfes d a b g s
  | .vbfi d a b g => Sys2Proof.Machine.execVbfi d a b g s
  | .vfadd d a b g => Sys2Proof.Machine.execVfadd d a b g s
  | .vfsub d a b g => Sys2Proof.Machine.execVfsub d a b g s
  | .vfmul d a b g => Sys2Proof.Machine.execVfmul d a b g s
  | .vfma d a b g => Sys2Proof.Machine.execVfma d a b g s
  | .vfms d a b g => Sys2Proof.Machine.execVfms d a b g s
  | .vfnma d a b g => Sys2Proof.Machine.execVfnma d a b g s
  | .vfmin d a b g => Sys2Proof.Machine.execVfmin d a b g s
  | .vfmax d a b g => Sys2Proof.Machine.execVfmax d a b g s
  | .vfabs d a g => Sys2Proof.Machine.execVfabs d a g s
  | .vfneg d a g => Sys2Proof.Machine.execVfneg d a g s
  | .vfcps d a b g => Sys2Proof.Machine.execVfcps d a b g s
  | .vfrnd d a g => Sys2Proof.Machine.execVfrnd d a g s
  | .vfcls d a g => Sys2Proof.Machine.execVfcls d a g s
  | .vhadd d a b g h => Sys2Proof.Machine.execVhadd d a b g h s
  | .vhsub d a b g h => Sys2Proof.Machine.execVhsub d a b g h s
  | .vhmul d a b g h => Sys2Proof.Machine.execVhmul d a b g h s
  | .vhfma d a b g h => Sys2Proof.Machine.execVhfma d a b g h s
  | .vhmin d a b g h => Sys2Proof.Machine.execVhmin d a b g h s
  | .vhmax d a b g h => Sys2Proof.Machine.execVhmax d a b g h s
  | .vrcp d a g => Sys2Proof.Machine.execVrcp d a g s
  | .vrsq d a g => Sys2Proof.Machine.execVrsq d a g s
  | .vsqrt d a g => Sys2Proof.Machine.execVsqrt d a g s
  | .vfdiv d a b g => Sys2Proof.Machine.execVfdiv d a b g s
  | .vexp2 d a g => Sys2Proof.Machine.execVexp2 d a g s
  | .vlog2 d a g => Sys2Proof.Machine.execVlog2 d a g s
  | .vsin d a g => Sys2Proof.Machine.execVsin d a g s
  | .vcos d a g => Sys2Proof.Machine.execVcos d a g s
  | .vtanh d a g => Sys2Proof.Machine.execVtanh d a g s
  | .vcvt d a b g fn => Sys2Proof.Machine.execVcvt d a b g fn s
  | .vshfl d a b g => Sys2Proof.Machine.execVshfl d a b g s
  | .vshflx d a b g => Sys2Proof.Machine.execVshflx d a b g s
  | .vshflu d a b g => Sys2Proof.Machine.execVshflu d a b g s
  | .vshfld d a b g => Sys2Proof.Machine.execVshfld d a b g s
  | .vbcst d a g => Sys2Proof.Machine.execVbcst d a g s
  | .vvote d a g => Sys2Proof.Machine.execVvote d a g s
  | .vreds d a op g => Sys2Proof.Machine.execVreds d a op g s
  | .vscan d a excl op g => Sys2Proof.Machine.execVscan d a excl op g s
  | .vld d a b g na sx size => Sys2Proof.Machine.execVld d a b g na sx size s
  | .vst d a b g na size => Sys2Proof.Machine.execVst d a b g na size s
  | .sld d a b g sx size => Sys2Proof.Machine.execSld d a b g sx size s
  | .sst d a b g size => Sys2Proof.Machine.execSst d a b g size s
  | .vlds d a b g sx size => Sys2Proof.Machine.execVlds d a b g sx size s
  | .vldsDq d a b g => Sys2Proof.Machine.execVldsDq d a b g s
  | .vsts d a b g size => Sys2Proof.Machine.execVsts d a b g size s
  | .vatom d a b scope op => Sys2Proof.Machine.execVatom d a b scope op s
  | .vred d a b scope op => Sys2Proof.Machine.execVred d a b scope op s
  | .fence acq rel scope => Sys2Proof.Machine.execFence acq rel scope s
  | .settle scope => Sys2Proof.Machine.execSettle scope s
  | .wait l rs t => Sys2Proof.Machine.execWait l rs t s
  | .acopy d a => Sys2Proof.Machine.execAcopy d a s
  | .acopyo d a => Sys2Proof.Machine.execAcopyo d a s
  | .acopyt d a => Sys2Proof.Machine.execAcopyt d a s
  | .acopyg d a geo => Sys2Proof.Machine.execAcopyg d a geo s
  | .cclose d => Sys2Proof.Machine.execCclose d s
  | .cwait a => Sys2Proof.Machine.execCwait a s
  | .tcfg td rs target => Sys2Proof.Machine.execTcfg td rs target s
  | .tcb cb rs scr => Sys2Proof.Machine.execTcb cb rs scr s
  | .tzero td => Sys2Proof.Machine.execTzero td s
  | .tld td rs sb scr => Sys2Proof.Machine.execTld td rs sb scr s
  | .tst ta rs sb scr => Sys2Proof.Machine.execTst ta rs sb scr s
  | .tldt td rs scr => Sys2Proof.Machine.execTldt td rs scr s
  | .tmma ta tb rs scope => Sys2Proof.Machine.execTmma ta tb rs scope s
  | .tmmab td ta tb sat p q => Sys2Proof.Machine.execTmmab td ta tb sat p q s
  | .tmmas ta tb rs scope => Sys2Proof.Machine.execTmmas ta tb rs scope s
  | .tmmasb td ta tb sat p q => Sys2Proof.Machine.execTmmasb td ta tb sat p q s
  | .tquant td rs scr => Sys2Proof.Machine.execTquant td rs scr s
  | .tqcb td rs scr => Sys2Proof.Machine.execTqcb td rs scr s
  | .bgemv d a scope geo => Sys2Proof.Machine.execBgemv d a scope geo s
  | .bfence => Sys2Proof.Machine.execBfence s
  | .bara d a scr scope => Sys2Proof.Machine.execBara d a scr scope s
  | .barw d a scr scope => Sys2Proof.Machine.execBarw d a scr scope s
  | .bar d a scr scope => Sys2Proof.Machine.execBar d a scr scope s
  | .gbar => Sys2Proof.Machine.execGbar s
  | .sigw d a cond scope => Sys2Proof.Machine.execSigw d a cond scope s
  | .sigp d a set scope => Sys2Proof.Machine.execSigp d a set scope s
  | .wpop d a try_ q => Sys2Proof.Machine.execWpop d a try_ q s
  | .trap d a call => Sys2Proof.Machine.execTrap d a call s
  | .brk call => Sys2Proof.Machine.execBrk call s
  | .racqWait blocks => Sys2Proof.Machine.execRacqWait blocks s
  | .racqTry d blocks => Sys2Proof.Machine.execRacqTry d blocks s
  | .rrel blocks => Sys2Proof.Machine.execRrel blocks s
  | .boost d us => Sys2Proof.Machine.execBoost d us s
  | .wmark valid => Sys2Proof.Machine.execWmark valid s
  | .dlr d => Sys2Proof.Machine.execDlr d s
  | .clk d => Sys2Proof.Machine.execClk d s
  | .time d => Sys2Proof.Machine.execTime d s
  | .pfxX payload => Sys2Proof.Machine.execPfxX payload s
  | .pfxM neg guard rnd sat cache => Sys2Proof.Machine.execPfxM neg guard rnd sat cache s
  | .pfxH branch reuseB reuseA => Sys2Proof.Machine.execPfxH branch reuseB reuseA s
  | .accessConfirm id => Sys2Proof.Machine.execAccessConfirm id s
  | .loadComplete id => Sys2Proof.Machine.execLoadComplete id s
  | .storeAck id => Sys2Proof.Machine.execStoreAck id s
  | .reductionApply id => Sys2Proof.Machine.execReductionApply id s
  | .faultedLineReflush t col asid va => Sys2Proof.Machine.execFaultedLineReflush t col asid va s
  | .copyComplete id => Sys2Proof.Machine.execCopyComplete id s
  | .copyPageHold id moved => Sys2Proof.Machine.execCopyPageHold id moved s
  | .copyError id moved => Sys2Proof.Machine.execCopyError id moved s
  | .tileOpComplete id => Sys2Proof.Machine.execTileOpComplete id s
  | .matrixProductComplete id => Sys2Proof.Machine.execMatrixProductComplete id s
  | .bgemvConfirm id => Sys2Proof.Machine.execBgemvConfirm id s
  | .bgemvRowDeliver id => Sys2Proof.Machine.execBgemvRowDeliver id s
  | .restring gang member beads => Sys2Proof.Machine.execRestring gang member beads s
  | .launch t queue ctr => Sys2Proof.Machine.execLaunch t queue ctr s
  | .placementForward t launch => Sys2Proof.Machine.execPlacementForward t launch s
  | .gangRetire gang => Sys2Proof.Machine.execGangRetire gang s
  | .parkGang gang => Sys2Proof.Machine.execParkGang gang s
  | .gangSaveComplete gang => Sys2Proof.Machine.execGangSaveComplete gang s
  | .gangRestore gang => Sys2Proof.Machine.execGangRestore gang s
  | .waitRecheck gang member grp => Sys2Proof.Machine.execWaitRecheck gang member grp s
  | .parkedRecordCheck gang => Sys2Proof.Machine.execParkedRecordCheck gang s
  | .wakeRegisterWrite t queue v => Sys2Proof.Machine.execWakeRegisterWrite t queue v s
  | .nodeNop t queue ctr => Sys2Proof.Machine.execNodeNop t queue ctr s
  | .feed t queue ctr => Sys2Proof.Machine.execFeed t queue ctr s
  | .write t queue ctr => Sys2Proof.Machine.execWrite t queue ctr s
  | .signal t queue ctr => Sys2Proof.Machine.execSignal t queue ctr s
  | .waitmem t queue ctr => Sys2Proof.Machine.execWaitmem t queue ctr s
  | .copy t queue ctr => Sys2Proof.Machine.execCopy t queue ctr s
  | .phase t queue ctr => Sys2Proof.Machine.execPhase t queue ctr s
  | .timestamp t queue ctr => Sys2Proof.Machine.execTimestamp t queue ctr s
  | .nodeEnd t queue ctr => Sys2Proof.Machine.execNodeEnd t queue ctr s
  | .schedulingPass t => Sys2Proof.Machine.execSchedulingPass t s
  | .queueUnmapComplete t queue => Sys2Proof.Machine.execQueueUnmapComplete t queue s
  | .sliceExpiry t queue => Sys2Proof.Machine.execSliceExpiry t queue s
  | .governorEvaluation t samples => Sys2Proof.Machine.execGovernorEvaluation t samples s
  | .layerMove gang member => Sys2Proof.Machine.execLayerMove gang member s
  | .columnMove gang => Sys2Proof.Machine.execColumnMove gang s
  | .columnMoveCancel gang => Sys2Proof.Machine.execColumnMoveCancel gang s
  | .valveUpdate t base => Sys2Proof.Machine.execValveUpdate t base s
  | .hbmStateChange t stack temp traffic => Sys2Proof.Machine.execHbmStateChange t stack temp traffic s
  | .hbmRetrainComplete t stack => Sys2Proof.Machine.execHbmRetrainComplete t stack s
  | .coreGate t col tier => Sys2Proof.Machine.execCoreGate t col tier s
  | .columnGate t col => Sys2Proof.Machine.execColumnGate t col s
  | .coreWake t col tier => Sys2Proof.Machine.execCoreWake t col tier s
  | .boostLeaseExpiry gang member => Sys2Proof.Machine.execBoostLeaseExpiry gang member s
  | .trapRecordWrite t => Sys2Proof.Machine.execTrapRecordWrite t s
  | .faultRecordWrite t => Sys2Proof.Machine.execFaultRecordWrite t s
  | .trapqConsWrite t v => Sys2Proof.Machine.execTrapqConsWrite t v s
  | .fltqConsWrite t v => Sys2Proof.Machine.execFltqConsWrite t v s
  | .resume t block => Sys2Proof.Machine.execResume t block s
  | .kill t block => Sys2Proof.Machine.execKill t block s
  | .divert t block => Sys2Proof.Machine.execDivert t block s
  | .retry t index => Sys2Proof.Machine.execRetry t index s
  | .fail t index => Sys2Proof.Machine.execFail t index s
  | .watchdog gang member grp => Sys2Proof.Machine.execWatchdog gang member grp s
  | .divertInstant t launch => Sys2Proof.Machine.execDivertInstant t launch s
  | .remoteDivert t launch => Sys2Proof.Machine.execRemoteDivert t launch s
  | .deadlineKill t launch => Sys2Proof.Machine.execDeadlineKill t launch s
  | .admqTailWrite t v => Sys2Proof.Machine.execAdmqTailWrite t v s
  | .createSpace t => Sys2Proof.Machine.execCreateSpace t s
  | .destroySpace t => Sys2Proof.Machine.execDestroySpace t s
  | .createQueue t => Sys2Proof.Machine.execCreateQueue t s
  | .destroyQueue t => Sys2Proof.Machine.execDestroyQueue t s
  | .bindWq t => Sys2Proof.Machine.execBindWq t s
  | .setRing t => Sys2Proof.Machine.execSetRing t s
  | .xlateInval t => Sys2Proof.Machine.execXlateInval t s
  | .setCarveout t => Sys2Proof.Machine.execSetCarveout t s
  | .setSlots t => Sys2Proof.Machine.execSetSlots t s
  | .setWatchdog t => Sys2Proof.Machine.execSetWatchdog t s
  | .setValves t => Sys2Proof.Machine.execSetValves t s
  | .setHbm t => Sys2Proof.Machine.execSetHbm t s
  | .drain t => Sys2Proof.Machine.execDrain t s
  | .selfTest t verdict => Sys2Proof.Machine.execSelfTest t verdict s
  | .stackTest t failing => Sys2Proof.Machine.execStackTest t failing s
  | .maint t => Sys2Proof.Machine.execMaint t s
  | .setLink t => Sys2Proof.Machine.execSetLink t s
  | .openWindow t => Sys2Proof.Machine.execOpenWindow t s
  | .closeWindow t => Sys2Proof.Machine.execCloseWindow t s
  | .patch t => Sys2Proof.Machine.execPatch t s
  | .attest t => Sys2Proof.Machine.execAttest t s
  | .restart t starts => Sys2Proof.Machine.execRestart t starts s
  | .linkqTailWrite t v => Sys2Proof.Machine.execLinkqTailWrite t v s
  | .linkTransfer t slot => Sys2Proof.Machine.execLinkTransfer t slot s
  | .linkTransferComplete t slot status data => Sys2Proof.Machine.execLinkTransferComplete t slot status data s
  | .peerAccess t win peer off len write => Sys2Proof.Machine.execPeerAccess t win peer off len write s
  | .portDown t port retries => Sys2Proof.Machine.execPortDown t port retries s
  | .portStateChange t port state peersw => Sys2Proof.Machine.execPortStateChange t port state peersw s
  | .leaseRenew t => Sys2Proof.Machine.execLeaseRenew t s
  | .leaseClaim t => Sys2Proof.Machine.execLeaseClaim t s
  | .reset starts => Sys2Proof.Machine.execReset starts s
  | .startTimeout starts => Sys2Proof.Machine.execStartTimeout starts s
  | .ptpSample t reference => Sys2Proof.Machine.execPtpSample t reference s
  | .lockTimeout t => Sys2Proof.Machine.execLockTimeout t s
  | .errorDetected t e => Sys2Proof.Machine.execErrorDetected t e s
  | .targetedSelfTest t unit index verdict => Sys2Proof.Machine.execTargetedSelfTest t unit index verdict s
  | .registerWrite t off size v => Sys2Proof.Machine.execRegisterWrite t off size v s
  | .queueMapComplete t queue => Sys2Proof.Machine.execQueueMapComplete t queue s
  | .selfTestTimeout t => Sys2Proof.Machine.execSelfTestTimeout t s
  | .powerLoss => Sys2Proof.Machine.execPowerLoss s
  | .hostAccess asid va len write => Sys2Proof.Machine.execHostAccess asid va len write s

end Sys2Proof.Machine
end

