-- ==== Sys2Proof/Machine/Schedule.lean ====
section
/-!
DEFINITION. A group's turn, what a choice of the agenda does, and the default schedule (log 5): what happens next when the agenda
names nothing. A slot's ready groups issue in the order of their turns (R64, R185). The default's turns alternate between the group
that has waited longest and the steps of the hardware, taken round in a fixed order; a step that is not
due changes nothing.
-/

namespace Sys2Proof.Machine

/-! ### Groups -/

/-- The core issues words (R306, R316). -/
def Core.runs (c : Core) : Bool := !c.gated && !c.trip && c.waking.isNone

/-- A SETTLE's release is under way: an operation in flight, which completes also on a core that issues nothing (R306; log 96). -/
def Bead.releasing (b : Bead) : Bool := b.wait.any fun w => w.kind == .settle && w.sat.isSome

/-- A group that is ready to issue a word: it waits for nothing, and its unit is not held at issue. -/
def Bead.ready (b : Bead) : Bool := b.mayIssue && b.wait.isNone

/-- The issue slot of a bead (R40). -/
def Wg.slotOf (w : Wg) (b : Bead) : Option Four := (w.strands.find? (·.id == b.entry)).map (·.slot)

/-- The turns of the ready groups of one slot of a core. -/
def slotTurns (s : State) (t : Four) (col : Nat) (k : Four) (slot : Option Four) : List Nat :=
  (coreWgs s t col k).flatMap fun x =>
    (x.2.beads.filter fun b => b.ready && x.2.slotOf b == slot).map (·.turn)

/-- It is the group's turn on its slot: no other ready group has waited longer (R64, R185). Of beads that have come together
from several groups, the one that has waited longest counts; a group that is not ready takes no turn. A slot with more than 64
ready groups keeps the round robin and not the bound of 64 (the model's choice, log 5). -/
def Ctx.onTurn (c : Ctx) (s : State) : Bool :=
  !c.lead.ready ||
    (slotTurns s c.tower c.col c.wg.tier (c.wg.slotOf c.lead)).all fun n => c.beads.any fun b => decide (b.turn ≤ n)

/-- The groups of a workgroup that may issue, with their turn. -/
def readyGroups (s : State) (g : Gang) (w : Wg) : List (Nat × Choice) :=
  let runs := ((s.col g.tower g.col).cores.get w.tier).runs
  (w.beads.filter fun b => b.mayIssue && (runs || b.releasing)).map fun b => (b.turn, .issue g.id w.pos b.grp)

/-- The least turn first. -/
def leastTurn : List (Nat × Choice) → Option (Nat × Choice)
  | [] => none
  | x :: xs =>
    match leastTurn xs with
    | none => some x
    | some y => if x.1 ≤ y.1 then some x else some y

def nextGroup (s : State) : Option Choice :=
  (leastTurn ((s.gangs.filter Gang.resident).flatMap fun g => g.members.flatMap (readyGroups s g))).map (·.2)

/-! ### Steps of the hardware -/

/-- A step of the hardware, by its meaning. -/
abbrev Doing := State → Res

def opsLeft (ops : List CountedOp) : List Nat := (ops.filter (!·.done)).map (·.id)

/-- Steps that concern a bead. -/
def beadSteps (g : Gang) (w : Wg) (b : Bead) : List Doing :=
  (match b.wait with
    | some x =>
      if x.kind == .confirm then [execAccessConfirm x.addr.toNat]
      else if x.kind == .bank then [execBgemvConfirm x.addr.toNat]
      else [execWaitRecheck g.id w.pos b.grp, execWatchdog g.id w.pos b.grp]
    | none => [execWatchdog g.id w.pos b.grp])
    ++ (opsLeft b.lops).map execLoadComplete ++ (opsLeft b.sops).map execStoreAck ++ (opsLeft b.tops).map execTileOpComplete

/-- Steps that concern a gang. -/
def gangSteps (g : Gang) : List Doing :=
  match g.place with
  | .saved .. => [execParkedRecordCheck g.id, execGangRestore g.id]
  | .resident .. =>
    (g.members.flatMap fun w => w.beads.flatMap (beadSteps g w))
      ++ (g.copies.flatMap fun p => [execCopyComplete p.id, execCopyPageHold p.id [], execCopyError p.id []])
      ++ [execGangRetire g.id, execParkGang g.id, execGangSaveComplete g.id, execColumnMove g.id, execColumnMoveCancel g.id]
      ++ g.members.flatMap fun w => [execLayerMove g.id w.pos, execBoostLeaseExpiry g.id w.pos]

/-- The step of a node by its kind, and its end. -/
def nodeSteps (t : Four) (q : Queue) (n : Node) : List Doing :=
  match n.state with
  | .workOver .. => [execNodeEnd t q.num n.ctr]
  | .ended _ => []
  | _ =>
    match n.kind with
    | 0 => [execNodeNop t q.num n.ctr]
    | 1 => [execLaunch t q.num n.ctr]
    | 2 => [execFeed t q.num n.ctr]
    | 3 => [execWrite t q.num n.ctr]
    | 4 => [execSignal t q.num n.ctr]
    | 5 => [execWaitmem t q.num n.ctr]
    | 6 => [execCopy t q.num n.ctr]
    | 7 => [execPhase t q.num n.ctr]
    | _ => [execTimestamp t q.num n.ctr]

def queueSteps (t : Four) (q : Queue) : List Doing :=
  [execSliceExpiry t q.num, execQueueUnmapComplete t q.num, execQueueMapComplete t q.num] ++ q.nodes.flatMap (nodeSteps t q)

/-- A start that meets nothing bad. -/
def goodStart : TowerStart :=
  { coreBad := [], storeBad := [], vertBad := [], stackBad := none, uncorrected := none, stalls := none, noLeader := false }

/-- The step that executes the admin command at the head; tests pass. -/
def adminStep (s : State) (t : Four) : List Doing :=
  match admCommand s t with
  | none => []
  | some c =>
    match field c 0 2 with
    | 0x01 => [execCreateSpace t]
    | 0x02 => [execDestroySpace t]
    | 0x03 => [execCreateQueue t]
    | 0x04 => [execDestroyQueue t]
    | 0x05 => [execBindWq t]
    | 0x06 => [execSetRing t]
    | 0x07 => [execXlateInval t]
    | 0x08 => [execSetCarveout t]
    | 0x09 => [execSetSlots t]
    | 0x0A => [execSetWatchdog t]
    | 0x0B => [execSetValves t]
    | 0x0C => [execSetHbm t]
    | 0x0D => [execDrain t]
    | 0x0E => [execSelfTest t .pass, execSelfTestTimeout t]
    | 0x0F => [execStackTest t [], execSelfTestTimeout t]
    | 0x10 => [execMaint t]
    | 0x11 => [execSetLink t]
    | 0x12 => [execOpenWindow t]
    | 0x13 => [execCloseWindow t]
    | 0x14 => [execPatch t]
    | 0x15 => [execAttest t]
    | _ => [execRestart t [Quad.fill goodStart]]

/-- Cores and columns that are due to gate or to wake, faulted lines to flush. -/
def columnSteps (t : Four) (now : Nat) (c : Nat) (co : Column) : List Doing :=
  (Four.all.flatMap fun k =>
    let x := co.cores.get k
    (if x.waking.isSome then [execCoreWake t c k] else [])
      ++ (if !x.gated && decide (x.emptySince + 50000 ≤ now) then [execCoreGate t c k] else []))
    ++ (if !co.gated && decide (co.emptySince + 50000 ≤ now) then [execColumnGate t c] else [])
    ++ (co.acc.filter (·.faulted)).map fun l => execFaultedLineReflush t c l.asid l.va

def towerSteps (s : State) (t : Four) : List Doing :=
  let tw := s.tower t
  [execGovernorEvaluation t [], execValveUpdate t [], execTrapRecordWrite t, execFaultRecordWrite t, execSchedulingPass t, execLeaseRenew t,
    execLeaseClaim t, execLockTimeout t]
    ++ adminStep s t ++ tw.queues.flatMap (queueSteps t)
    ++ (tw.cols.mapIdx (columnSteps t tw.time)).flatten
    ++ (tw.links.filter fun x => !x.started).map (fun x => execLinkTransfer t (x.ctr.toNat % 256))
    ++ (List.range tw.bank.length).map (fun k s => .next (drainBank s t k))
    ++ tw.errUnits.map (fun e => execTargetedSelfTest t e.unit e.index .pass)
    ++ Four.all.flatMap fun k => if 0 < (tw.hbmStacks.get k).retrain then [execHbmRetrainComplete t k] else []

def launchSteps (l : Launch) : List Doing :=
  if l.finished.isSome then []
  else Four.all.flatMap fun t => [execPlacementForward t l.id, execDivertInstant t l.id, execRemoteDivert t l.id, execDeadlineKill t l.id]

/-- The module's first start. -/
def startStep (s : State) : List Doing :=
  if s.startAt.isSome && s.towers.toList.all (·.boot.state == 0) then [execReset [Quad.fill goodStart]] else []

/-- Every step that the hardware may be about to take by itself. -/
def hardwareSteps (s : State) : List Doing :=
  startStep s ++ s.stores.map (fun r => execStoreAck r.id) ++ s.reds.map (fun r => execReductionApply r.id)
    ++ s.prods.map (fun p => execMatrixProductComplete p.id)
    ++ (s.bgemvs.filter (·.confirmed)).map (fun b => execBgemvRowDeliver b.id)
    ++ s.gangs.flatMap gangSteps ++ s.launches.flatMap launchSteps ++ Four.all.flatMap (towerSteps s)

def nextStep (s : State) : Option Doing :=
  let xs := hardwareSteps s
  xs[s.turn / 2 % xs.length]?

/-! ### Turns -/

/-- A group's turn: a held unit is tried again, or a word is fetched and run. -/
def runGroup (s : State) : Res :=
  match s.ctx? with
  | none => .next s
  | some c =>
    if !c.lead.mayIssue || !((c.core s).runs || c.lead.releasing) || !c.onTurn s then .next s
    else
      match c.lead.held with
      | some i => exec i s
      | none =>
        match fetch c s with
        | .stop s1 => .next s1
        | .run i s1 => exec i s1

/-- One choice happens. A word runs only when a group fetches it: the agenda cannot name one as a step of the hardware. -/
def perform (s : State) : Choice → Res
  | .issue g m grp => runGroup { s with cur := some { gang := g, member := m, grp, resv := false } }
  | .event i => if (encode i).isSome then .next s else exec i s
  | .replace level t col asid va => .next (replaceLine s level t col asid va)
  | .drainBank t k => .next (drainBank s t k)
  | .idle => .next s

/-- A turn of the hardware, or of a group when there is none. -/
def turnOf (s : State) (group : Option Choice) (own : Option Doing) : Res :=
  match group, own with
  | some c, _ => perform s c
  | none, some f => f s
  | none, none => .next s

/-- What happens when the agenda is empty. -/
def defaultTurn (s : State) : Res :=
  let s1 := { s with turn := s.turn + 1 }
  if s.turn % 2 = 0 then turnOf s1 (nextGroup s) (nextStep s)
  else
    match nextStep s with
    | some f => f s1
    | none => turnOf s1 (nextGroup s) none

end Sys2Proof.Machine
end

