-- ==== Sys2Proof/Machine/Step.lean ====
section
/-!
DEFINITION. One step: what lies between two steps, and then the first entry of the agenda happens, or what the default
schedule chooses (log 5): one word of an issue group, one step of the hardware, or a replacement that no rule orders.
-/

namespace Sys2Proof.Machine

/-- The machine's step. -/
def step (s : State) : Host.Outcome State Fault Refusal :=
  match s.agenda with
  | c :: rest => perform { prelude s with agenda := rest } c
  | [] => defaultTurn (prelude s)

/-- The same state with an instruction stored where step fetches its next one (log 8): the table's bits, and zeros above
them, as one word of 32 bits. -/
def State.withFetchWord (s : State) (nbits w : Nat) : State := placeWord s (w % 2 ^ nbits)

end Sys2Proof.Machine
end

