-- ==== Sys2Proof/Safety.lean ====
section
/-!
DEFINITION. What counts as a safe run, in the terms the claims use: the machine goes on, and module memory keeps the one
form in which equal memories are equal data. Then the words that the claims are stated with: when the word of a group issues
with no trap, and what it writes in the beads of its group.
-/

namespace Sys2Proof.Machine

/-- The step answers a next state. -/
def GoesOn (s : State) : Prop := ∃ t, step s = .next t

/-- The invariant of every run: module memory is in its canonical form. -/
def State.Inv (s : State) : Prop := s.hbm.wf = true

/-! ### Exact values -/

/-- The number that a finite value is (R69). -/
def Val.num : Val → Option Rat
  | .fin neg m e => some ((if neg then -1 else 1) * (m : Rat) * (2 : Rat) ^ e)
  | _ => none

/-- n, at a quantum of 1, is what the mode makes of a magnitude x (R75): a neighbour of x, the nearest one with ties to even
or away from zero, or the one on the mode's side. -/
def NearIn (mode : Rnd) (neg : Bool) (x : Rat) (n : Nat) : Prop :=
  match mode with
  | .rn => (n : Rat) - x ≤ 1 / 2 ∧ x - n ≤ 1 / 2 ∧ ((n : Rat) - x = 1 / 2 ∨ x - n = 1 / 2 → n % 2 = 0)
  | .rna => (n : Rat) - x ≤ 1 / 2 ∧ x - n < 1 / 2
  | .rz => (n : Rat) ≤ x ∧ x < n + 1
  | .ru => if neg then (n : Rat) ≤ x ∧ x < n + 1 else (n : Rat) - 1 < x ∧ x ≤ n
  | .rd => if neg then (n : Rat) - 1 < x ∧ x ≤ n else (n : Rat) ≤ x ∧ x < n + 1

/-- What R76 gives for an overflow of the sign `neg`. -/
def overflowCode (f : FloatFmt) (mode : Rnd) (sat neg : Bool) : Nat :=
  let most := f.signed neg f.maxCode
  let inf := f.signed neg (f.maxCode + 1)
  if sat || f = fmtE2m1 then most
  else if f = fmtE4m3 then 0x7F
  else match mode with
    | .rn | .rna => inf
    | .rz => most
    | .ru => if neg then most else inf
    | .rd => if neg then inf else most

/-- r is the code to which the nonzero magnitude x of sign `neg` rounds once (R75, R76): n quanta of 2^q, the quantum being that
of x with an unbounded exponent, or that of the subnormals; what exceeds the largest finite number overflows. -/
def RoundsTo (f : FloatFmt) (mode : Rnd) (sat neg : Bool) (x : Rat) (r : Nat) : Prop :=
  ∃ (q : Int) (n : Nat), f.emin ≤ q ∧ x < 2 ^ (f.mb + 1) * (2 : Rat) ^ q ∧ (q = f.emin ∨ 2 ^ f.mb * (2 : Rat) ^ q ≤ x)
    ∧ NearIn mode neg (x / (2 : Rat) ^ q) n
    ∧ if (f.val f.maxCode).num.any fun most => decide (most < n * (2 : Rat) ^ q) then r = overflowCode f mode sat neg
      else (f.val r).num = some ((if neg then -1 else 1) * n * (2 : Rat) ^ q) ∧ (f.val r).sign = neg

/-- What R76 gives for an infinity. -/
def infCode (f : FloatFmt) (sat neg : Bool) : Nat :=
  if sat || f = fmtE2m1 then f.signed neg f.maxCode else if f = fmtE4m3 then 0x7F else f.signed neg (f.maxCode + 1)

/-- r is the exact sum of two values rounded once (R75): a sum that is zero keeps the sign of two zeros of one sign, and is +0 in
every mode but RD otherwise; opposite infinities give a NaN. -/
def SumTo (f : FloatFmt) (mode : Rnd) (sat : Bool) (a b : Val) (r : Nat) : Prop :=
  match a.num, b.num with
  | some x, some y =>
    if x + y = 0 then r = f.signed (if x = 0 ∧ a.sign = b.sign then a.sign else mode == .rd) 0
    else RoundsTo f mode sat (decide (x + y < 0)) (if x + y < 0 then -(x + y) else x + y) r
  | some _, none => r = if b = .nan then f.nan else infCode f sat b.sign
  | none, some _ => r = if a = .nan then f.nan else infCode f sat a.sign
  | none, none => r = if a = .nan ∨ b = .nan ∨ a.sign ≠ b.sign then f.nan else infCode f sat a.sign

/-- p is the exact product of two values (R205): infinity times zero is a NaN. -/
def IsProduct (a b p : Val) : Prop :=
  match a.num, b.num with
  | some x, some y => p.num = some (x * y) ∧ p.sign = (a.sign != b.sign)
  | some x, none => p = if b = .nan ∨ x = 0 then .nan else .inf (a.sign != b.sign)
  | none, some y => p = if a = .nan ∨ y = 0 then .nan else .inf (a.sign != b.sign)
  | none, none => p = if a = .nan ∨ b = .nan then .nan else .inf (a.sign != b.sign)

/-- r is the exact product of two values rounded once. -/
def ProductTo (f : FloatFmt) (mode : Rnd) (sat : Bool) (a b : Val) (r : Nat) : Prop :=
  ∃ p, IsProduct a b p ∧ match p.num with
    | some x => if x = 0 then r = f.signed p.sign 0
      else RoundsTo f mode sat p.sign (if x < 0 then -x else x) r
    | none => r = if p = .nan then f.nan else infCode f sat p.sign

/-- r is the quotient of two values rounded once, as IEEE 754 division (R80). -/
def QuotientTo (f : FloatFmt) (mode : Rnd) (sat : Bool) (a b : Val) (r : Nat) : Prop :=
  let neg := a.sign != b.sign
  match a.num, b.num with
  | some x, some y =>
    if y = 0 then r = if x = 0 then f.nan else infCode f sat neg
    else if x = 0 then r = f.signed neg 0
    else RoundsTo f mode sat neg (if x / y < 0 then -(x / y) else x / y) r
  | some _, none => r = if b = .nan then f.nan else f.signed neg 0
  | none, some _ => r = if a = .nan then f.nan else infCode f sat neg
  | none, none => r = f.nan

/-- n is what the mode makes of the root of y, told by squares (R75): a root of a number of the format lies midway between two
neighbours never. -/
def NearRoot (mode : Rnd) (y : Rat) (n : Nat) : Prop :=
  match mode with
  | .rn | .rna => (2 * (n : Rat) - 1) * (2 * n - 1) ≤ 4 * y ∧ 4 * y ≤ (2 * n + 1) * (2 * n + 1)
  | .rz | .rd => (n : Rat) * n ≤ y ∧ y < (n + 1) * (n + 1)
  | .ru => ((n : Rat) - 1) * (n - 1) < y ∧ y ≤ n * n

/-- r is the square root of a value rounded once (R80). -/
def RootTo (f : FloatFmt) (mode : Rnd) (sat : Bool) (a : Val) (r : Nat) : Prop :=
  match a.num with
  | some x =>
    if x = 0 then r = f.signed a.sign 0
    else if x < 0 then r = f.nan
    else ∃ (q : Int) (n : Nat), x < 2 ^ (2 * f.mb + 2) * (2 : Rat) ^ (2 * q) ∧ 2 ^ (2 * f.mb) * (2 : Rat) ^ (2 * q) ≤ x
      ∧ NearRoot mode (x / (2 : Rat) ^ (2 * q)) n ∧ (f.val r).num = some (n * (2 : Rat) ^ q) ∧ (f.val r).sign = false
  | none => r = if a = .inf false then infCode f sat false else f.nan

/-- ulp of a number of magnitude y (R80): that of the power of two at or below it. -/
def IsUlp (y u : Rat) : Prop := ∃ k : Int, (2 : Rat) ^ k ≤ y ∧ y < (2 : Rat) ^ (k + 1) ∧ u = (2 : Rat) ^ (max k (-126) - 23)

/-- The magnitude of a finite value. -/
def Val.mag : Val → Rat
  | .fin _ m e => (m : Rat) * (2 : Rat) ^ e
  | _ => 0

/-- v is a magnitude y rounded to nearest, ties to even, in a format whose exponent is unbounded above (R86). -/
def NearestMag (f : FloatFmt) (y v : Rat) : Prop :=
  ∃ (q : Int) (n : Nat), f.emin ≤ q ∧ y < 2 ^ (f.mb + 1) * (2 : Rat) ^ q ∧ (q = f.emin ∨ 2 ^ f.mb * (2 : Rat) ^ q ≤ y)
    ∧ NearIn .rn false (y / (2 : Rat) ^ q) n ∧ v = n * (2 : Rat) ^ q

/-- Every value of a block, scaled by 2^-se and rounded, lies within the format's largest number (R86). -/
def BlockFits (f : FloatFmt) (vs : List Val) (se : Int) : Prop :=
  ∀ x ∈ vs, ∀ v most, NearestMag f (x.mag * (2 : Rat) ^ (-se)) v → (f.val f.maxCode).num = some most → v ≤ most

/-- The codes and the scale byte of a block of finite values (R86): the exponent begins at that of the largest magnitude less emax,
rises while the block does not fit, at most twice and to 127, and each value is rounded once and saturated. -/
def BlockTo (f : FloatFmt) (emax : Int) (vs : List Val) (codes : List Nat) (scale : Nat) : Prop :=
  ∃ first se : Int,
    ((∀ x ∈ vs, x.mag = 0) ∧ first = -127 ∨ ∃ l : Int, (∃ x ∈ vs, (2 : Rat) ^ l ≤ x.mag) ∧ (∀ x ∈ vs, x.mag < (2 : Rat) ^ (l + 1))
      ∧ first = max (-127) (min 127 (l - emax)))
    ∧ first ≤ se ∧ se ≤ first + 2 ∧ se ≤ 127 ∧ (∀ e, first ≤ e → e < se → ¬BlockFits f vs e)
    ∧ (BlockFits f vs se ∨ se = first + 2 ∨ se = 127)
    ∧ (scale : Int) = se + 127 ∧ codes.length = vs.length
    ∧ ∀ (k : Nat) (x : Val) (c : Nat), vs[k]? = some x → codes[k]? = some c →
      if x.mag = 0 then c = f.signed x.sign 0 else RoundsTo f .rn true x.sign (x.mag * (2 : Rat) ^ (-se)) c

/-- x is not above y, of two values that are not NaN. -/
def AtMost (x y : Val) : Prop := x = .inf true ∨ y = .inf false ∨ ∃ a b, x.num = some a ∧ y.num = some b ∧ a ≤ b

/-- r is the index of the codebook entry that stands for x (R87): that of least distance, of an infinity the one furthest on its side;
of equals the lowest index; 0 for a NaN, and where every entry is one. -/
def CodebookTo (cb : BitVec 256) (x : Val) (r : Nat) : Prop :=
  let entry (i : Nat) : Val := fmtBf16.val (cb.extractLsb' (16 * i) 16).toNat
  ((x = .nan ∨ ∀ i, i < 16 → entry i = .nan) → r = 0)
  ∧ (x ≠ .nan → (∃ i, i < 16 ∧ entry i ≠ .nan) → r < 16 ∧ entry r ≠ .nan ∧
    match x with
    | .inf neg => ∀ i, i < 16 → entry i ≠ .nan → (if neg then AtMost (entry r) (entry i) else AtMost (entry i) (entry r))
        ∧ (i < r → ¬if neg then AtMost (entry i) (entry r) else AtMost (entry r) (entry i))
    | v => ((∀ i, i < 16 → (entry i).num = none) → ∀ i, i < r → entry i = .nan)
        ∧ ∀ i q y, i < 16 → v.num = some q → (entry i).num = some y → ∃ z, (entry r).num = some z
          ∧ max (q - z) (z - q) ≤ max (q - y) (y - q) ∧ (i < r → max (q - z) (z - q) < max (q - y) (y - q)))

/-- r is the exact sum of the products of some pairs, rounded once to FP32 RN (R84). -/
def SliceTo (xs : List (Val × Val)) (r : Nat) : Prop :=
  ∃ ps : List Val, ps.length = xs.length ∧ (∀ (n : Nat) (x : Val × Val) (p : Val), xs[n]? = some x → ps[n]? = some p → IsProduct x.1 x.2 p)
    ∧ if .nan ∈ ps ∨ (.inf true ∈ ps ∧ .inf false ∈ ps) then r = 0x7FC00000
      else if .inf true ∈ ps then r = 0xFF800000
      else if .inf false ∈ ps then r = 0x7F800000
      else
        let total := (ps.filterMap Val.num).sum
        (total = 0 → ps ≠ [] → (∀ p ∈ ps, p.num = some 0 ∧ p.sign = true) → r = 0x80000000)
        ∧ (total = 0 → (ps = [] ∨ ∃ p ∈ ps, p.num ≠ some 0 ∨ p.sign = false) → r = 0)
        ∧ (total ≠ 0 → RoundsTo fmt32 .rn false (decide (total < 0)) (if total < 0 then -total else total) r)

/-- r is what the codes `qs` add up to from `acc` on, one FP32 addition under RN after the other (R84). -/
def AddsTo (acc : Nat) : List Nat → Nat → Prop
  | [], r => r = acc
  | q :: qs, r => ∃ z, SumTo fmt32 .rn false (fmt32.val acc) (fmt32.val q) z ∧ AddsTo z qs r

/-- r is the sum of slices or runs in ascending order, each rounded once and added as FP32 (R84). -/
def SlicesTo (xs : List (List (Val × Val))) (r : Nat) : Prop :=
  ∃ qs : List Nat, qs.length = xs.length ∧ (∀ (k : Nat) (x : List (Val × Val)) (q : Nat), xs[k]? = some x → qs[k]? = some q → SliceTo x q)
    ∧ match qs with
      | [] => r = 0
      | q :: rest => AddsTo q rest r

/-- The pairs (element of A's row, element of B's row) of slice k of row i: of a dense slice those of one index; of a sparse one
the kept elements, ascending, each with the position that the mask of its group gives (R88, R256). -/
def termsOf (a : Tile) (sparse : Bool) (i k : Nat) : List (Nat × Nat) :=
  let per := 768 / (tFmt a.ctl).width
  if sparse then
    let n := nOf (tNsel a.ctl)
    (List.range (per / n)).flatMap fun q =>
      let g := k * (per / n) + q
      ((List.range 128).filter fun p => (a.side.getD i 0).getLsbD (128 * g + p)).mapIdx fun t p => (k * per + q * n + t, 128 * g + p)
  else (List.range per).map fun n => (k * per + n, k * per + n)

/-! ### Words that issue -/

/-- The word i issues for the group of context c: the group is live and resident, no check of R159 traps, and no save or
move that is pending withholds the word (R309, R312, R335). -/
structure Issues (i : Instr) (c : Ctx) (s : State) : Prop where
  ctx : s.ctx? = some c
  clean : unitTrap i c = none
  free : c.withheld i = false

/-- Whenever the word i issues, exec answers the next state that r gives, from the context and the state with the group's
place in the round robin noted (R64). -/
def Gives (i : Instr) (r : Ctx → State → State) : Prop :=
  ∀ c s, Issues i c s → exec i s = .next (r c (c.stamp s))

/-- As `Gives`, where p holds of the operands. -/
def GivesWhen (i : Instr) (p : Ctx → State → Prop) (r : Ctx → State → State) : Prop :=
  ∀ c s, Issues i c s → p c (c.stamp s) → exec i s = .next (r c (c.stamp s))

/-- The state after a step of the hardware that acted in a group: no group is on turn. -/
def offTurn (s : State) : State := { s with cur := none }

/-- In each bead whose guard holds in its lowest active lane, s[d] takes f; the unit is over (R145, R187). -/
def scalarWrites (g : BitVec 3) (d : Reg) (f : Ctx → State → Bead → DWord) (c : Ctx) (s : State) : State :=
  c.eachBead s fun b => if b.guardLow g c.neg then b.sset d (f c s b) else b

/-- In each active lane whose guard holds, v[d] takes f of the bead as it was; the unit is over (R144, R145, R199). -/
def laneWrites (g : BitVec 3) (d : Reg) (f : Ctx → Bead → Four → Word) (c : Ctx) (s : State) : State :=
  c.eachBead s fun b => b.onLanes (b.lanesOn g c.neg) fun k r => r.vset k d (f c b k)

/-- In each active lane whose guard holds, p[d] takes f of the bead as it was; the unit is over (R145, R203). -/
def predWrites (g d : BitVec 3) (f : Bead → Four → Bool) (c : Ctx) (s : State) : State :=
  c.eachBead s fun b => b.onLanes (b.lanesOn g c.neg) fun k r => r.pset k d (f b k)

/-- t differs from s in the beads of the group alone, and there only in register values, as `keeps` says of each bead before
and after, and in PC, prefixes, wait and the instant of issue: memory, caches, towers, launches, every other bead, and the
group's formats, stacks, masks, pending bits, counts and diversion registers are as they were. -/
def RegisterFrame (c : Ctx) (s t : State) (keeps : Bead → Bead → Prop) : Prop :=
  ∃ f : Bead → Bead, t = s.updGrp c.cur f ∧ ∀ b, keeps b (f b) ∧ f b =
    { b with s := (f b).s, lanes := (f b).lanes, pc := b.pc + 4, pfx := [], held := none, wait := none, xfer := false,
             lastIssue := (s.tower c.g.tower).time }

/-- Bit j of an immediate (R150): the unit's own field lowest, the payload of each PFX.X above it, that of the outer prefix highest;
above the concatenation, its top bit. -/
def immBit {w : Nat} (own : BitVec w) (xs : List (BitVec 24)) (j : Nat) : Bool :=
  match xs with
  | [] => own.getLsbD (min j (w - 1))
  | [x] => if j < w then own.getLsbD j else x.getLsbD (min (j - w) 23)
  | outer :: inner :: _ => if j < w then own.getLsbD j else if j < w + 24 then inner.getLsbD (j - w) else outer.getLsbD (min (j - w - 24) 23)

/-- The payloads of a unit's PFX.X words, outer first. -/
def immPayloads (ps : List Pfx) : List (BitVec 24) := (ps.filter (·.kind == .x)).map (·.payload)

/-- What each special register of kind S reads in a bead of a group: the table of R196 with the coordinates of R51. -/
def specialTable : List (BitVec 10 × (Ctx → State → Bead → DWord)) :=
  let n (f : Ctx → Bead → Nat) : Ctx → State → Bead → DWord := fun c _ b => BitVec.ofNat 64 (f c b % 2 ^ 32)
  [(0x002, n fun _ b => b.pos), (0x003, n fun _ b => b.home), (0x004, n fun _ b => b.role),
   (0x008, n fun c _ => c.wg.w / c.l.nstage % c.l.ngx), (0x009, n fun c _ => c.wg.w / (c.l.nstage * c.l.ngx) % c.l.ngy),
   (0x00A, n fun c _ => c.wg.w / (c.l.nstage * c.l.ngx * c.l.ngy)), (0x00B, n fun c _ => c.wg.w % c.l.nstage),
   (0x00C, n fun c _ => c.wg.w / c.l.gangSize), (0x00D, n fun c _ => c.wg.w % c.l.gangSize)]
  ++ [(0x010, n fun c _ => c.l.ngx), (0x011, n fun c _ => c.l.ngy), (0x012, n fun c _ => c.l.ngz), (0x013, n fun c _ => c.l.nstage),
   (0x014, n fun c _ => c.wg.pos * c.l.scratchEach), (0x018, n fun c _ => c.g.col), (0x019, n fun c _ => c.wg.tier.val),
   (0x01A, n fun c _ => c.g.tower.val), (0x01B, fun c s _ => BitVec.ofNat 64 (((s.col c.g.tower c.g.col).cores.get c.wg.tier).ratio % 2 ^ 32))]
  ++ [(0x020, n fun c _ => (c.l.shapes.get 0).toNat), (0x021, n fun c _ => (c.l.shapes.get 1).toNat),
   (0x022, n fun c _ => (c.l.shapes.get 2).toNat), (0x023, n fun c _ => (c.l.shapes.get 3).toNat), (0x024, n fun c _ => c.l.bucket),
   (0x025, fun c _ _ => padBits c.l.padw (c.wg.w / c.l.nstage % c.l.ngx) (c.l.shapes.get 0)),
   (0x026, fun c _ _ => padBits c.l.padh (c.wg.w / (c.l.nstage * c.l.ngx) % c.l.ngy) (c.l.shapes.get 1)),
   (0x030, fun _ _ b => b.dpc), (0x031, n fun _ b => b.why.toNat)]

/-- The operations of VREDS and VSCAN (R215): code, identity, and what two values combine to. -/
def scanTable : List (BitVec 5 × Word × (Word → Word → Word)) :=
  [(0, 0, fun x y => x + y), (1, 0x7FFFFFFF, fun x y => if x.toInt ≤ y.toInt then x else y),
   (2, 0x80000000, fun x y => if y.toInt ≤ x.toInt then x else y), (3, 0xFFFFFFFF, fun x y => if x.toNat ≤ y.toNat then x else y),
   (4, 0, fun x y => if y.toNat ≤ x.toNat then x else y), (5, 0xFFFFFFFF, fun x y => x &&& y), (6, 0, fun x y => x ||| y),
   (7, 0, fun x y => x ^^^ y), (8, 0x80000000, fun x y => w32 (fmt32.addOp .rn false x.toNat y.toNat)),
   (9, 0x7F800000, fun x y => w32 (fmt32.minMax false false x.toNat y.toNat)),
   (10, 0xFF800000, fun x y => w32 (fmt32.minMax true false x.toNat y.toNat))]

/-- No lane in which the guard holds reads a signalling NaN (R78). -/
def quiet (g : BitVec 3) (reads : List FloatRead) (c : Ctx) (_ : State) : Prop :=
  snanOf c.beads (fun x => x.lanesOn g c.neg) reads = none

/-- The global parts of a tile word's ranges, as accesses of the lead bead (R254). -/
def rangeTouches (c : Ctx) (r : Ranges) : List Touch := r.parts.map fun p => { b := c.lead, va := p.1, n := p.2 }

/-- The state once what comes before an access to the ranges is done (R118, R219). -/
def ranged (c : Ctx) (s : State) (r : Ranges) (a : AccKind) : State :=
  if r.glob then c.clear s (a == .store) (a == .load) (rangeTouches c r) else s

/-- The ranges of a tile word pass: no check of R217 fails, each part is confirmed, and nothing makes the access wait. -/
def rangesPass (c : Ctx) (s : State) (r : Ranges) (addr align : Nat) (a : AccKind) (n : Need) : Prop :=
  c.rangeTrap s r addr align a = none ∧ (r.glob = true → (∀ x ∈ r.parts, ∃ h, c.confVa s n x.1 = .ok h)
    ∧ c.barred (ranged c s r a) (a == .store) (a == .load) (rangeTouches c r) = false)

/-- t is how a confirmation that fails ends its unit (R217 f and g): a translation error or a withheld permission takes trap 0x09
in the first lane that meets one; else an absent page parks the group, the trap naming the first lane with one, the fault record
the lowest absent address. -/
def ConfirmFails (c : Ctx) (s : State) (kind : Byte) (n : Need) (ts : List Target) (conf : DWord → Conf) (t : State) : Prop :=
  (∃ x, ts.find? (fun x => (conf x.va).refused) = some x ∧ t = takeTrap c s { code := 0x09, va := x.va, lane := x.lane })
    ∨ ((∀ x ∈ ts, (conf x.va).refused = false) ∧ ∃ x low e, ts.find? (fun x => (conf x.va).isAbsent) = some x
      ∧ low ∈ ts ∧ conf low.va = .absent e ∧ (∀ y ∈ ts, (conf y.va).isAbsent = true → low.va.toNat ≤ y.va.toNat)
      ∧ t = park c s kind n.code x.va x.lane low.va e)

/-- Whenever the word i issues, p holds and its access to ranges does not pass: it takes the trap of its check, or is stopped by its
confirmation, or waits to issue while something bars the access (R217, R254). -/
def RangesStop (i : Instr) (p : Ctx → State → Prop) (r : Ctx → Ranges) (addr : Ctx → Nat) (align : Nat) (a : AccKind) (n : Need) : Prop :=
  (∀ t, GivesWhen i (fun c s => p c s ∧ c.rangeTrap s (r c) (addr c) align a = some t) fun c s => takeTrap c s t)
    ∧ (∀ t, GivesWhen i (fun c s => p c s ∧ c.rangeTrap s (r c) (addr c) align a = none ∧ (r c).glob = true
        ∧ ConfirmFails c s 1 n ((r c).parts.map fun x => { lane := 0xFF, va := x.1 }) (c.confVa s n) t) fun _ _ => t)
    ∧ GivesWhen i (fun c s => p c s ∧ c.rangeTrap s (r c) (addr c) align a = none ∧ (r c).glob = true
        ∧ (∀ x ∈ (r c).parts, ∃ h, c.confVa s n x.1 = .ok h)
        ∧ c.barred (ranged c s (r c) a) (a == .store) (a == .load) (rangeTouches c (r c)) = true) fun c s => c.holdIssue (ranged c s (r c) a) i

/-- Node n of queue q (counter ctr) is of a kind, its queue is mapped, and it is its turn: running with nothing accepted yet,
or next to start (R284). -/
structure NodeTurn (kind : Nat) (t : Four) (queue : Nat) (ctr : Word) (s : State) (q : Queue) (n : Node) : Prop where
  found : s.queue? t queue = some q
  node : q.nodes.find? (·.ctr == ctr) = some n
  mapped : q.qstate = 2
  kindIs : n.kind = kind
  turn : (n.state = .running ∧ n.launch = none) ∨ mayStart s t q n = true

/-- The state in which an atomic that a tower makes acts at the home L2: the stores that the tower's remote-data-cache copy of the
line has shown are home, and the copy is gone (R95, R109, R110). -/
def pastCopy (s : State) (t : Four) (asid : Half) (va : DWord) : State :=
  match confL2 s asid va .write with
  | .ok h => dropRdc (pushPassed s t h.pa) t asid va h.pa
  | _ => s

/-- The command at the head of a tower's admin queue is well formed and of an OP, and a leader lives where the OP asks for one
(R357, R358). -/
structure CommandAt (op : Nat) (t : Four) (s : State) (c : List Byte) : Prop where
  head : admCommand s t = some c
  named : field c 0 2 = op
  clean : operandsClean op c = true
  leader : leaderOp op = true → leaderLive s = true

/-- i is the step that executes the commands of an OP (R358); what a test finds and what a start meets are arguments of the step. -/
def AdminStep (t : Four) (op : Nat) (i : Instr) : Prop :=
  ∃ v failing starts, (op, i) ∈ [((0x01 : Nat), Instr.createSpace t), (0x02, .destroySpace t), (0x03, .createQueue t), (0x04, .destroyQueue t), (0x05, .bindWq t), (0x06, .setRing t),
   (0x07, .xlateInval t), (0x08, .setCarveout t), (0x09, .setSlots t), (0x0A, .setWatchdog t), (0x0B, .setValves t), (0x0C, .setHbm t),
   (0x0D, .drain t), (0x0E, .selfTest t v), (0x0F, .stackTest t failing), (0x10, .maint t), (0x11, .setLink t), (0x12, .openWindow t),
   (0x13, .closeWindow t), (0x14, .patch t), (0x15, .attest t), (0x16, .restart t starts)]

/-- What makes a well-formed command fail, by OP, in the order in which it is judged, with the status (R358, R371). CLOSE_WINDOW while a
transfer uses the window, and PATCH of a well-formed image, are not listed. -/
def adminFailures (t : Four) (s : State) (c : List Byte) : Nat → List (Prop × Nat)
  | 0x01 => [(field c 8 2 = 0 ∨ physOk (field c 0x10 8) 65536 65536 = false, 2), (∃ x ∈ s.spaces, x.1 = BitVec.ofNat 16 (field c 8 2), 4)]
  | 0x02 => [(∃ u, (∃ q ∈ (s.tower u).queues, q.asid = BitVec.ofNat 16 (field c 8 2)) ∨ (∃ x, (s.tower u).trapq.cfg = some x ∧ x.asid = BitVec.ofNat 16 (field c 8 2))
      ∨ ∃ x, (s.tower u).fltq.cfg = some x ∧ x.asid = BitVec.ofNat 16 (field c 8 2), 4)]
  | 0x03 =>
    let id : Half := BitVec.ofNat 16 (field c 0xA 2)
    let qcb := BitVec.ofNat 64 (field c 0x10 8)
    let b := (sysRead s id qcb 16).2
    [((s.tower t).boot.minimal = true, 9), (1023 < field c 8 2 ∨ field c 0xA 2 = 0 ∨ field c 0x10 8 % 256 ≠ 0 ∨ s.queue? t (field c 8 2) ≠ none, 2),
     (rangeFault s id qcb 256 .read true ≠ none, 3),
     (field b 0 8 % 128 ≠ 0 ∨ field b 8 1 < 4 ∨ 16 < field b 8 1 ∨ 7 < field b 9 1 ∨ field b 0xC 4 < 10 ∨ 1000000 < field b 0xC 4, 2),
     (rangeFault s id (BitVec.ofNat 64 (field b 0 8)) (128 * 2 ^ field b 8 1) .read true ≠ none, 3)]
  | 0x04 => [(s.queue? t (field c 8 2) = none, 2), (∃ q, s.queue? t (field c 8 2) = some q ∧ (q.accepted ≠ q.head
      ∨ ∃ l ∈ s.launches, l.tower = t ∧ l.queue = q.num ∧ l.finished = none), 4)]
  | 0x05 => [(15 < field c 8 1, 2), (((s.tower t).wq (field c 8 1)).recs ≠ [], 4)]
  | 0x06 =>
    let size := if field c 8 1 = 0 then 128 else 64
    [(1 < field c 8 1 ∨ field c 9 1 < 4 ∨ 16 < field c 9 1 ∨ field c 0x10 8 % size ≠ 0, 2),
     (rangeFault s (BitVec.ofNat 16 (field c 0xA 2)) (BitVec.ofNat 64 (field c 0x10 8)) (size * 2 ^ field c 9 1) .read true ≠ none, 3),
     (field c 8 1 = 0 ∧ (s.tower t).trapq.prod ≠ (s.tower t).trapq.cons ∨ field c 8 1 = 1 ∧ (s.tower t).fltq.prod ≠ (s.tower t).fltq.cons, 4)]
  | 0x07 => [(field c 0x10 8 % 65536 ≠ 0 ∨ field c 0x18 8 % 65536 ≠ 0, 2)]
  | 0x08 => [(39 < field c 8 1 ∨ 15 < field c 9 1, 2), (10 < field c 9 1, 6), (columnFree s t (field c 8 1) = false, 5)]
  | 0x09 => [(field c 8 1 < 8 ∨ 32 < field c 8 1, 2), (∃ q ∈ (s.tower t).queues, q.qstate ≠ 0, 4)]
  | 0x0A => [(field c 8 4 < 1 ∨ 60000 < field c 8 4, 2)]
  | 0x0B => [(4 < field c 8 1 ∧ field c 8 1 ≠ 0xFF, 2)]
  | 0x0C => [((3 < field c 8 1 ∧ field c 8 1 ≠ 0xFF) ∨ 1 < field c 9 1 ∨ 3 < field c 0xA 1 ∨ 3 < field c 0xB 1 ∨ field c 0xC 2 ≤ field c 0xE 2 ∨ 100 < field c 0x10 1, 2)]
  | 0x0D => [(field c 9 1 < 1 ∨ 40 < field c 8 1 + field c 9 1 ∨ 1 < field c 0xA 1, 2)]
  | 0x0E => [(3 < field c 8 1 ∨ [40, 16, 4, 128].getD (field c 8 1) 0 ≤ field c 9 1, 2)]
  | 0x0F => [(4 < field c 8 1 ∨ physOk (field c 0x10 8) (64 + 8 * 65536) 64 = false, 2)]
  | 0x10 => [(1 < field c 8 1, 2), ((s.tower t).boot.minimal = true, 9), (∃ g ∈ s.gangs, g.tower = t, 4)]
  | 0x11 => [(1023 < field c 8 2, 2)]
  | 0x12 => [(3 < field c 9 1 ∨ field c 0xA 2 = 0 ∨ (field c 9 1 / 2 % 2 = 0 ∧ 1023 < field c 0xC 2) ∨ field c 0x10 8 % 4096 ≠ 0 ∨ field c 0x18 8 % 4096 ≠ 0
      ∨ field c 0x18 8 = 0, 2), (∃ w ∈ s.windows, w.num = field c 8 1, 4)]
  | 0x13 => [(∀ w ∈ s.windows, w.num ≠ field c 8 1, 2)]
  | 0x14 =>
    let h := physRead s (field c 0x10 8) 64
    [(physOk (field c 0x10 8) 64 64 = false ∨ field c 0x18 4 ≠ 64 + field h 8 4 + 384 ∨ physOk (field c 0x10 8) (field c 0x18 4) 64 = false ∨ field h 8 4 % 4 ≠ 0
      ∨ field h 0 4 ≠ 0x50483031 ∨ zeroAt h 0xC 4 = false ∨ zeroAt h 0x30 16 = false, 2)]
  | 0x15 => [(physOk (field c 0x10 8) 1024 64 = false, 2)]
  | 0x16 => [(1 < field c 8 1, 2)]
  | _ => []

/-! ### Module memory as the home L2s show it -/

/-- A byte of module memory: of a copy in the home L2 that holds it, else of HBM with what still waits for it (R95, R133). -/
def State.physByte (s : State) (p : Nat) : Byte := lineByte (physLine s (p / 128 * 128)) (p % 128)

/-- Every L2 holds lines of its own tower, each physical line once (R95, R98), and what a clean line holds is what lies below it;
module memory is in its canonical form. -/
def State.HomeOk (s : State) : Prop :=
  s.Inv ∧ ∀ t, (s.tower t).l2.Pairwise (fun a b => a.pa ≠ b.pa) ∧ ∀ l ∈ (s.tower t).l2, l.pa % 128 = 0 ∧ towerOfPa l.pa = t
    ∧ (l.dirty = false → ∀ k, k < 128 → l.valid.getLsbD k = true → lineByte l.data k = lineByte (overlayBank s l.pa (hbmLine s l.pa)) k)

/-- n bytes of one line written under a translation land there: the frame lies in the home tower of the VA, a line held under the VA is
of that frame, and no byte of an earlier BANK page of the frame still waits for HBM where the page is none (R98, R133, R324). -/
structure State.Lands (s : State) (asid : Half) (va : DWord) (n pa : Nat) (attr : Attr) : Prop where
  aligned : pa % 128 = 0
  oneLine : lineOff va + n ≤ 128
  tower : towerOfPa pa = homeOf va
  same : ∀ l ∈ (s.tower (homeOf va)).l2, isLine asid va l = true → l.pa = pa
  bank : attr.bank = false → ∀ b ∈ (s.tower (homeOf va)).bank, ¬(pa ≤ b.pa ∧ b.pa < pa + 128)

/-- The first condition of a list that holds has this status. -/
def FirstIs (status : Nat) : List (Prop × Nat) → Prop
  | [] => False
  | x :: xs => (x.1 ∧ x.2 = status) ∨ (¬x.1 ∧ FirstIs status xs)

end Sys2Proof.Machine
end

