-- ==== Sys2Proof/Certificates/Slice0/Obligations.lean ====
section
/-!
DEFINITION. The statements for the provers: what each instruction and each step of the hardware does, where it completes, what
it leaves as it was, and what every step keeps.
-/

open Sys2Proof Sys2Proof.Machine

/-- No bit of an encoding is dropped: decoding the word of a well-formed instruction gives back that instruction (R140, R155, R156). -/
def Obligations.WordsDecodeBack : Prop :=
  ∀ i w, Instr.wellFormed i = true → encode i = some w → decodeWord w = .ok i

/-- Words of the manual (R178, R186, R198) decode to the instructions they are written beside. -/
def Obligations.WordsReadAsWritten : Prop :=
  decodeWord 0x012FFFDF = .ok (.brany 2 0xFFFDF) ∧ decodeWord 0x004000BF = .ok (.call 0 0xBF)
    ∧ decodeWord 0x04000007 = .ok .nop ∧ decodeWord 0x10400080 = .ok (.srd 4 8)
    ∧ decodeWord 0x10000311 = .ok (.swr 0 0x31) ∧ decodeWord 0x10850022 = .ok (.vmovs 8 20 1 0)
    ∧ decodeWord 0x10A08043 = .ok (.smovv 10 2 0 0 1 0) ∧ decodeWord 0x10018004 = .ok (.sfmt 6)

/-- Whatever the state, the step answers a next state: an illegal word, a bad access or an absent page is a trap, a park or a record (R12, R318, R320), not a stop of the machine. That a step whose condition does not hold changes nothing (log 6), and that no step runs a word without a group (log 7), are the model's choices. -/
def Obligations.StepGoesOn : Prop :=
  ∀ s, GoesOn s

/-- From every state that meets the invariant, a step leads to one that meets it: equal memories stay equal data. The canonical form is the model's own (log 1). -/
def Obligations.StepKeepsMemoryForm : Prop :=
  ∀ s t, State.Inv s → step s = .next t → State.Inv t

/-- Reset lists nothing in module memory, which is the canonical form: both are the model's choice (log 1), for no rule gives memory contents at power-on. -/
def Obligations.ResetMeetsInvariant : Prop :=
  State.Inv State.reset

/-- A step runs the decoded instruction: the fetch, and then exec of the instruction fetched (R139). The model's choices: that an agenda in the state names the group that goes next, that a slot's ready groups issue in the order that onTurn keeps, and that naming a group out of its turn does nothing but what lies between two steps (log 5); the time that passes there (log 4). That the release of a SETTLE goes on at a core that does not run, the disjunct of `releasing`, is the model's reading of the manual (log 96). -/
def Obligations.StepRunsFetchedWord : Prop :=
  ∀ s gang member grp rest, s.agenda = .issue gang member grp :: rest →
    let s1 : State := { prelude s with agenda := rest, cur := some { gang, member, grp, resv := false } }
    ∀ c, s1.ctx? = some c → c.lead.mayIssue = true → ((c.core s1).runs || c.lead.releasing) = true →
      (c.onTurn s1 = true → (∀ i t, c.lead.held = none → fetch c s1 = .run i t → step s = exec i t)
        ∧ (∀ t, c.lead.held = none → fetch c s1 = .stop t → step s = .next t)
        ∧ ∀ i, c.lead.held = some i → step s = exec i s1)
      ∧ (c.onTurn s1 = false → step s = .next s1)

/-- The word that a group runs is the one at its PC, whose line takes no CACHE of the unit begun, read through the column and patched (R139, R166). A group whose line finds no room waits (R126); that room is made before the fetch by replacing a line, and that a group that waits for one goes to the end of its slot's order, are the model's choices (log 14). -/
def Obligations.FetchDecodesTheWordAtPc : Prop :=
  (∀ c s, let x : Touch := { b := c.lead, va := c.pc, n := 4 }
      let s1 := if c.needsLine s x then (makeRoom s c.tower c.col).1 else s
      (inCode c.l c.pc = false ∨ c.conf s .fetch c.pc = .error ∨ c.conf s .fetch c.pc = .perm →
        fetch c s = .stop (takeTrapAt c s { code := 0x09, va := c.pc } c.pc (c.pc + 4)))
      ∧ (∀ e, inCode c.l c.pc = true → c.conf s .fetch c.pc = .absent e →
        fetch c s = .stop (parkAt c s 1 4 c.pc 0xFF c.pc e c.pc))
      ∧ ∀ h, inCode c.l c.pc = true → c.conf s .fetch c.pc = .ok h →
        if noRoom s1 c.tower c.col && c.needsLine s1 x then fetch c s = .stop (c.passTurn s1)
        else let r := fetchAt c s1 c.pc h
          r.2 = patched c.l c.pc (BitVec.ofNat 32 (leNat (colRead s1 c.tower c.col c.asid c.pc 4 { h with hint := 0 } false).2))
          ∧ (decodeWord r.2 = .illegal → fetch c s = .stop (takeTrap c r.1 { code := 0x01 }))
          ∧ (∀ i, decodeWord r.2 = .ok i → fetch c s = .run i (markXfer c r.1))
          ∧ ∀ i, decodeWord r.2 = .reserved i → fetch c s = .run i ((markXfer c r.1).withResv true))
    ∧ ∀ w : Word, (major w).toNat ∈ [0x05, 0x0F, 0x17, 0x19, 0x1E, 0x1F, 0x21, 0x23] ∨ (0x25 ≤ (major w).toNat ∧ (major w).toNat ≤ 0x3E) →
      decodeWord w = .illegal

/-- Reading after writing: the little-endian fields of R6 are built on this. The canonical form that is assumed and kept is the model's own (log 1). -/
def Obligations.MemoryReadsWhatWasWritten : Prop :=
  ∀ (m : Memory) a (bs : List Byte), m.wf = true → (m.write a bs).wf = true ∧ (m.write a bs).read a bs.length = bs
    ∧ ∀ x, x < a ∨ a + bs.length ≤ x → (m.write a bs).get x = m.get x

/-- The registers that are hard-wired (R142), every register write as read back, and what a discarded write leaves to happen. -/
def Obligations.ZeroRegistersDiscardWrites : Prop :=
  (∀ (b : Bead), b.sget 0 = 0 ∧ (∀ x, b.sset 0 x = b) ∧ ∀ k, b.pget k 0 = true ∧ ∀ v, b.pset k 0 v = b)
    ∧ (∀ (b : Bead) r q x, (b.sset r x).sget q = if q = r ∧ r ≠ 0 then x else b.sget q)
    ∧ (∀ (b : Bead) k j r q x, (b.vset k r x).vget j q = if j = k ∧ q = r then x else b.vget j q)
    ∧ (∀ (b : Bead) k j p q v, (b.pset k p v).pget j q = if j = k ∧ q = p ∧ p ≠ 0 then v else b.pget j q)
    ∧ (∀ g (c : Ctx) s, (∀ f, scalarWrites g 0 f c s = c.done s) ∧ ∀ f, predWrites g 0 f c s = c.done s)
    ∧ (∀ bl c s, let s1 := serveCore (c.stamp s) c.tower c.col c.wg.tier
        Issues (.racqTry 0 bl) c s → c.holdsAny bl = false → bl ≠ 0 → c.racqFits s1 bl = true →
        exec (.racqTry 0 bl) s = .next (c.done (grantBlocks s1 c.g.id c.cur.member c.lead.home (blocksOf bl))))
    ∧ (∀ a q c s k rec, let wq := (s.tower c.tower).wq q.toNat
        let o := (c.lead.sget a).toNat % 2 ^ 32
        Issues (.wpop 0 a 1 q) c s → wq.asid = c.asid → o % 64 = 0 → o + 64 ≤ c.scrLen →
        c.lead.wait.all (fun w => w.kind != .wpop) = true → c.copyPending (c.stamp s) false true { b := c.lead, va := c.lead.sget a &&& 0xFFFFFFFF, n := 64 } = false →
        c.wpopRecord (c.stamp s) q.toNat = some (k, rec) →
        exec (.wpop 0 a 1 q) s = .next (c.done (c.acquire (c.scrWrite ((c.stamp s).updTower c.tower fun tw =>
          { tw with wqs := updAt tw.wqs q.toNat fun w => { w with recs := w.recs.eraseIdx k } }) o rec) 4)))
    ∧ ∀ g off, GivesWhen (.call g off) (fun c _ => g = 0 ∨ ∀ b ∈ c.beads, b.stack.length < 16) fun c s =>
        c.transfer s fun b =>
          let on := if g = 0 then b.active else b.lanesOn g c.neg
          let b1 := if on = 0 then b else b.sset 63 (b.pc + 4)
          if g = 0 then b1.goTo (c.target off) true else b1.guardedBranch on (c.target off)

/-- The operation that every register word ends with, bead by bead (R148), and its frame. -/
def Obligations.GroupEndsItsUnit : Prop :=
  ∀ (c : Ctx) s (f : Bead → Bead), (∀ b, (f b).grp = b.grp ∧ (f b).active = b.active) →
    c.eachBead s f = { s with gangs := s.gangs.map fun g => if g.id = c.cur.gang then { g with members := g.members.map fun w =>
        if w.pos = c.cur.member then { w with beads := w.beads.map fun b => if b.grp = c.cur.grp ∧ b.live then
          { f b with pc := (f b).pc + 4, pfx := [], held := none, wait := none, xfer := false, lastIssue := (s.tower c.g.tower).time }
          else b } else w } else g }

/-- The frame of the scalar words (R187), the vector words (R199) and the predicate words (R203), and that all sources are read first (R144). -/
def Obligations.RegisterWordsLeaveTheRest : Prop :=
  ∀ (c : Ctx) s g,
    (∀ d f, RegisterFrame c s (scalarWrites g d f c s) fun b u => u.lanes = b.lanes
      ∧ (∀ q, q ≠ d → u.sget q = b.sget q) ∧ (d ≠ 0 → b.guardLow g c.neg = true → u.sget d = f c s b))
    ∧ (∀ d f, RegisterFrame c s (laneWrites g d f c s) fun b u => u.s = b.s ∧ ∀ k, (u.lanes.get k).p = (b.lanes.get k).p
      ∧ (∀ q, (q ≠ d ∨ laneIn (b.lanesOn g c.neg) k = false) → u.vget k q = b.vget k q)
      ∧ (laneIn (b.lanesOn g c.neg) k = true → u.vget k d = f c b k))
    ∧ ∀ d f, RegisterFrame c s (predWrites g d f c s) fun b u => u.s = b.s ∧ ∀ k, (u.lanes.get k).v = (b.lanes.get k).v
      ∧ (∀ q, (q ≠ d ∨ laneIn (b.lanesOn g c.neg) k = false) → u.pget k q = b.pget k q)
      ∧ (d ≠ 0 → laneIn (b.lanesOn g c.neg) k = true → u.pget k d = f b k)

/-- The table of R188, one clause a row, under the guard of R187; quotients and remainders are those of R189. -/
def Obligations.ScalarWordsGiveTheirResult : Prop :=
  ∀ d a b g,
    Gives (.sadd d a b g) (scalarWrites g d fun _ _ z => let x := z.sget a; let y := z.sget b; x + y)
    ∧ Gives (.ssub d a b g) (scalarWrites g d fun _ _ z => let x := z.sget a; let y := z.sget b; x - y)
    ∧ Gives (.smul d a b g) (scalarWrites g d fun _ _ z => let x := z.sget a; let y := z.sget b; x * y)
    ∧ Gives (.smulh d a b g) (scalarWrites g d fun _ _ z => let x := z.sget a; let y := z.sget b; BitVec.ofInt 64 (x.toInt * y.toInt / 2 ^ 64))
    ∧ Gives (.smulhn d a b g) (scalarWrites g d fun _ _ z => let x := z.sget a; let y := z.sget b; BitVec.ofNat 64 (x.toNat * y.toNat / 2 ^ 64))
    ∧ Gives (.sdiv d a b g) (scalarWrites g d fun _ _ z => let x := z.sget a; let y := z.sget b; divSigned x y)
    ∧ Gives (.sdivn d a b g) (scalarWrites g d fun _ _ z => let x := z.sget a; let y := z.sget b; divUnsigned x y)
    ∧ Gives (.srem d a b g) (scalarWrites g d fun _ _ z => let x := z.sget a; let y := z.sget b; remSigned x y)
    ∧ Gives (.sremn d a b g) (scalarWrites g d fun _ _ z => let x := z.sget a; let y := z.sget b; remUnsigned x y)
    ∧ Gives (.sand d a b g) (scalarWrites g d fun _ _ z => let x := z.sget a; let y := z.sget b; x &&& y)
    ∧ Gives (.sor d a b g) (scalarWrites g d fun _ _ z => let x := z.sget a; let y := z.sget b; x ||| y)
    ∧ Gives (.sxor d a b g) (scalarWrites g d fun _ _ z => let x := z.sget a; let y := z.sget b; x ^^^ y)
    ∧ Gives (.sshl d a b g) (scalarWrites g d fun _ _ z => let x := z.sget a; let y := z.sget b; x <<< (y.toNat % 64))
    ∧ Gives (.sshr d a b g) (scalarWrites g d fun _ _ z => let x := z.sget a; let y := z.sget b; x >>> (y.toNat % 64))
    ∧ Gives (.ssra d a b g) (scalarWrites g d fun _ _ z => let x := z.sget a; let y := z.sget b; x.sshiftRight (y.toNat % 64))
    ∧ Gives (.smin d a b g) (scalarWrites g d fun _ _ z => let x := z.sget a; let y := z.sget b; if x.toInt < y.toInt then x else y)
    ∧ Gives (.smax d a b g) (scalarWrites g d fun _ _ z => let x := z.sget a; let y := z.sget b; if x.toInt < y.toInt then y else x)
    ∧ Gives (.sminn d a b g) (scalarWrites g d fun _ _ z => let x := z.sget a; let y := z.sget b; if x.toNat < y.toNat then x else y)
    ∧ Gives (.smaxn d a b g) (scalarWrites g d fun _ _ z => let x := z.sget a; let y := z.sget b; if x.toNat < y.toNat then y else x)
    ∧ Gives (.sseq d a b g) (scalarWrites g d fun _ _ z => let x := z.sget a; let y := z.sget b; if x = y then 1 else 0)
    ∧ Gives (.sslt d a b g) (scalarWrites g d fun _ _ z => let x := z.sget a; let y := z.sget b; if x.toInt < y.toInt then 1 else 0)
    ∧ Gives (.ssltn d a b g) (scalarWrites g d fun _ _ z => let x := z.sget a; let y := z.sget b; if x.toNat < y.toNat then 1 else 0)
    ∧ Gives (.ssel d a b g) (scalarWrites g d fun _ _ z => if z.sget d = 0 then z.sget b else z.sget a)

/-- The values of R189, case by case, and the identity that closes it; that division never traps is in the completion of its words (R188). -/
def Obligations.DivisionTruncates : Prop :=
  ∀ x y : DWord, (y = 0 → divSigned x y = BitVec.allOnes 64 ∧ divUnsigned x y = BitVec.allOnes 64 ∧ remSigned x y = x ∧ remUnsigned x y = x)
    ∧ (x.toInt = -2 ^ 63 → y.toInt = -1 → divSigned x y = x ∧ remSigned x y = 0)
    ∧ (y ≠ 0 → ¬(x.toInt = -2 ^ 63 ∧ y.toInt = -1) →
        (divSigned x y).toInt = Int.tdiv x.toInt y.toInt ∧ (remSigned x y).toInt = x.toInt - Int.tdiv x.toInt y.toInt * y.toInt)
    ∧ (y ≠ 0 → (divUnsigned x y).toNat = x.toNat / y.toNat ∧ (remUnsigned x y).toNat = x.toNat - x.toNat / y.toNat * y.toNat)
    ∧ divSigned x y * y + remSigned x y = x ∧ divUnsigned x y * y + remUnsigned x y = x

/-- The table of R190; v is the immediate of R150: sign-extended, with none, one or two PFX.X payloads above it. -/
def Obligations.ScalarImmediatesGiveTheirResult : Prop :=
  ∀ d a g imm,
    Gives (.saddi d a g imm) (scalarWrites g d fun c _ z => let x := z.sget a; let v := c.imm imm; x + v)
    ∧ Gives (.sandi d a g imm) (scalarWrites g d fun c _ z => let x := z.sget a; let v := c.imm imm; x &&& v)
    ∧ Gives (.sori d a g imm) (scalarWrites g d fun c _ z => let x := z.sget a; let v := c.imm imm; x ||| v)
    ∧ Gives (.sxori d a g imm) (scalarWrites g d fun c _ z => let x := z.sget a; let v := c.imm imm; x ^^^ v)
    ∧ Gives (.sshli d a g imm) (scalarWrites g d fun c _ z => let x := z.sget a; let v := c.imm imm; x <<< (v.toNat % 64))
    ∧ Gives (.sshri d a g imm) (scalarWrites g d fun c _ z => let x := z.sget a; let v := c.imm imm; x >>> (v.toNat % 64))
    ∧ Gives (.ssrai d a g imm) (scalarWrites g d fun c _ z => let x := z.sget a; let v := c.imm imm; x.sshiftRight (v.toNat % 64))
    ∧ Gives (.sli d g imm) (scalarWrites g d fun c _ _ => c.imm imm)
    ∧ ∀ (c : Ctx) j, j < 64 → (c.imm imm).getLsbD j = immBit imm (immPayloads c.pfx) j

/-- SRD (R192) over the table of R196 with the coordinates of R51 and the bits of R59, SWR (R193), VMOVS (R194), SMOVV (R195), SFMT (R198). The last clause, that an unassigned code10 is judged at check 1, before prefix misuse, reserved fields and pending registers, is the model's choice (log 32, its second half): R157 does not list it. -/
def Obligations.MovesGiveTheirResult : Prop :=
  (∀ d, ∀ x ∈ specialTable, Gives (.srd d x.1) fun c s => c.eachBead s fun b => b.sset d (x.2 c s b))
    ∧ (∀ d, Gives (.srd d 0x000) fun c s => c.eachBead s fun b => b.onLanes b.active fun k x => x.vset k d (w32 (4 * b.pos + k.val)))
    ∧ (∀ d, Gives (.srd d 0x001) fun c s => c.eachBead s fun b => b.onLanes b.active fun k x => x.vset k d (w32 (32 * b.home + (4 * b.pos + k.val))))
    ∧ (∀ pad n (shape : Word) j, j < 64 → (padBits pad n shape).getLsbD j = decide (pad = 0 ∨ (j < pad ∧ n * pad + j < shape.toNat)))
    ∧ (∀ code : BitVec 10, SReg.ofCode code = none ↔ code ∉ 0x000 :: 0x001 :: specialTable.map (·.1))
    ∧ (∀ a, Gives (.swr a 0x30) fun c s => c.eachBead s fun b => { b with dpc := b.sget a })
    ∧ (∀ a, Gives (.swr a 0x31) fun c s => c.eachBead s fun b => { b with why := (b.sget a).setWidth 32 })
    ∧ (∀ d a pair hi, Gives (.vmovs d a pair hi) fun c s => c.eachBead s fun b => b.onLanes b.active fun k x =>
        if pair = 1 then (x.vset k d ((b.sget a).setWidth 32)).vset k (d + 1) ((b.sget a).extractLsb' 32 32)
        else x.vset k d (if hi = 1 then (b.sget a).extractLsb' 32 32 else (b.sget a).setWidth 32))
    ∧ (∀ d a pair sx low k, Gives (.smovv d a pair sx low k) fun c s => c.eachBead s fun b =>
        let p := if low = 1 then b.low else Four.ofNat k.toNat
        b.sset d (if pair = 1 then b.vget p (a + 1) ++ b.vget p a else if sx = 1 then (b.vget p a).signExtend 64
          else (b.vget p a).setWidth 64))
    ∧ (∀ a, GivesWhen (.sfmt a) (fun c _ => fmtReserved ((c.lead.sget a).setWidth 12) = false)
        fun c s => c.eachBead s fun b => { b with fmt := (c.lead.sget a).setWidth 12 })
    ∧ (∀ a c s, Issues (.sfmt a) c s → fmtReserved ((c.lead.sget a).setWidth 12) = true →
        exec (.sfmt a) s = .next (takeTrap c (c.stamp s) { code := 0x02 }))
    ∧ (∀ f : BitVec 12, fmtReserved f = true ↔ 12 ≤ (f.extractLsb' 0 4).toNat ∨ f.extractLsb' 6 2 = 3 ∨ 6 ≤ (f.extractLsb' 8 3).toNat)
    ∧ (∀ a code c s, code ∈ 0x000 :: 0x001 :: specialTable.map (·.1) → code ≠ 0x030 → code ≠ 0x031 → Issues (.swr a code) c s →
        exec (.swr a code) s = .next (takeTrap c (c.stamp s) { code := 0x09 }))
    ∧ ∀ r code c s, SReg.ofCode code = none → s.ctx? = some c →
        exec (.swr r code) s = .next (takeTrap c (c.stamp s) { code := 0x01 })
        ∧ exec (.srd r code) s = .next (takeTrap c (c.stamp s) { code := 0x01 })

/-- The checks 1 to 6 of R159, each with its code, and the record naming the first register that fails. In a restrung strand that is itself parted both codes of R43 fit: 0x0B first is the model's choice (log 67). That the reserved form of a pair traps 0x02 also where its register is odd is the model's choice (log 32). -/
def Obligations.WordsThatFailACheckTrap : Prop :=
  (∀ i c s, (encode i).isSome = true → (∀ p, i ≠ .pfxX p) → (∀ n g r x q, i ≠ .pfxM n g r x q) → (∀ n y z, i ≠ .pfxH n y z) →
      s.ctx? = some c →
      let traps (t : TrapReq) : Prop := exec i s = .next (takeTrap c (c.stamp s) t)
      let rs := (named c.lead.fmt i).flatMap Named.regs
      if illegalFields i = true then traps { code := 0x01 }
      else if misuse i c.pfx = true ∨ c.lead.xfer = true then traps { code := 0x03 }
      else if c.cur.resv = true ∨ reservedFields i = true ∨ ∃ p ∈ c.pfx, pfxReserved p = true then traps { code := 0x02 }
      else if collective i = true ∧ parted c.wg c.lead = true then traps { code := 0x0B }
      else if collective i = true ∧ 32 ≤ c.lead.entry then traps { code := 0x0C }
      else (∀ l1 r l2, rs = l1 ++ r :: l2 → (∀ x ∈ l1, blockHeld c.blocks x = true) → blockHeld c.blocks r = false →
          traps { code := 0x0F, reg := BitVec.ofNat 8 r.2 })
        ∧ ∀ l1 r l2, rs = l1 ++ r :: l2 → (∀ x ∈ rs, blockHeld c.blocks x = true) →
          (∀ x ∈ l1, ∀ b ∈ c.beads, pendingIn b x = false) → (∃ b ∈ c.beads, pendingIn b r = true) →
          traps { code := 0x05, reg := BitVec.ofNat 8 r.2, sreg := r.1 })
    ∧ (∀ i c s, ((∃ p, i = .pfxX p) ∨ (∃ n g r x q, i = .pfxM n g r x q) ∨ ∃ n y z, i = .pfxH n y z) → s.ctx? = some c →
      2 ≤ c.pfx.length → exec i s = .next (takeTrap c (c.stamp s) { code := 0x03 }))
    ∧ (∀ i w ps, Instr.wellFormed i = true → encode i = some w →
      let mj := (major w).toNat
      let fn := w.toNat % 32
      let m : BitVec 24 := ((ps.filter (·.kind == .m)).head?.map (·.payload)).getD 0
      let many (k : PfxKind) : Nat := (ps.filter (·.kind == k)).length
      let g : BitVec 3 := if mj = 0 then w.extractLsb' 23 3 else if mj = 3 ∨ mj = 7 then w.extractLsb' 11 3
        else if mj = 0x14 ∨ mj = 0x15 then m.extractLsb' 20 3 else w.extractLsb' 5 3
      let xs := if mj = 3 ∨ (0x10 ≤ mj ∧ mj ≤ 0x15) then 2 else if mj = 0 ∨ mj = 7 then 1 else 0
      let neg : Prop := mj ∈ [0, 2, 3, 6, 7, 8, 9, 0xA, 0xB, 0xC, 0xD, 0xE, 0x10, 0x11, 0x12, 0x13, 0x14, 0x15] ∨ (mj = 1 ∧ fn ∈ [0, 1, 2, 4])
      let rnd : Prop := (mj = 0xA ∧ fn ∉ [8, 9, 10, 12]) ∨ mj ∈ [0xB, 0xC, 0xD] ∨ (mj = 0x13 ∧ fn = 5)
      let cache : Prop := mj ∈ [0x10, 0x11, 0x12, 0x1B] ∨ (mj = 0x18 ∧ fn % 16 ≤ 3)
      (misuse i ps = true ↔ xs < many .x ∨ 1 < many .m ∨ 1 < many .h ∨ (m.getLsbD 23 = true ∧ (¬neg ∨ g = 0))
        ∨ (m.extractLsb' 20 3 ≠ 0 ∧ mj ≠ 0x14 ∧ mj ≠ 0x15) ∨ ((m.extractLsb' 17 3 ≠ 0 ∨ m.getLsbD 16 = true) ∧ ¬rnd)
        ∨ (m.extractLsb' 14 2 ≠ 0 ∧ ¬cache)))
    ∧ ∀ c s r k a low, s.ctx? = some c → c.pfx = [] → c.lead.xfer = false →
      exec (.vmovs r a 1 1) s = .next (takeTrap c (c.stamp s) { code := 0x02 })
      ∧ exec (.smovv a r 1 1 low k) s = .next (takeTrap c (c.stamp s) { code := 0x02 })
      ∧ (r.toNat % 2 = 1 → exec (.vmovs r a 1 0) s = .next (takeTrap c (c.stamp s) { code := 0x01 })
        ∧ exec (.smovv a r 1 0 low k) s = .next (takeTrap c (c.stamp s) { code := 0x01 }))

/-- R175 and R178, with the target of R174. -/
def Obligations.BranchesGoWhereTheyShould : Prop :=
  ∀ g off,
    (∀ link i, i = (if link then Instr.call g off else Instr.bra g off) →
      GivesWhen i (fun c _ => g = 0 ∨ ∀ b ∈ c.beads, b.stack.length < 16) fun c s => c.transfer s fun b =>
        let on := b.lanesOn g c.neg
        let b1 := if link && (if g = 0 then b.active else on) != 0 then b.sset 63 (b.pc + 4) else b
        if g = 0 then b1.goTo (c.pc + 4 + (c.imm off <<< 2)) true
        else
          let e : RecEntry := { maskAll := b.active, maskNt := b.active &&& ~~~on, pcNt := b.pc + 4, fmt := b.fmt, phase := on == 0 }
          if on = 0 then { b1 with stack := e :: b.stack }.goTo (b.pc + 4) false
          else { b1 with stack := e :: b.stack, active := on }.goTo (c.pc + 4 + (c.imm off <<< 2)) true)
    ∧ ∀ i c s, (i = .bra g off ∨ i = .call g off) → Issues i c s → g ≠ 0 → (∃ b ∈ c.beads, 16 ≤ b.stack.length) →
        exec i s = .next (takeTrap c (c.stamp s) { code := 0x0E })

/-- R176. -/
def Obligations.BeadsBranchByTheirLowestLane : Prop :=
  ∀ g off, Gives (.br g off) fun c s => c.transfer s fun b =>
    if b.guardLow g c.neg then b.goTo (c.pc + 4 + (c.imm off <<< 2)) true else b.goTo (b.pc + 4) false

/-- R177: where every bead of the group stands at one PC and FMT, they still do. -/
def Obligations.GroupsBranchAsOne : Prop :=
  ∀ g off,
    Gives (.brany g off) (fun c s => c.transfer s fun b => if (∃ z ∈ c.beads, z.lanesOn g c.neg ≠ 0)
        then b.goTo (c.pc + 4 + (c.imm off <<< 2)) true else b.goTo (b.pc + 4) false)
    ∧ Gives (.brall g off) (fun c s => c.transfer s fun b => if (∀ z ∈ c.beads, z.lanesOn g c.neg = z.active)
        then b.goTo (c.pc + 4 + (c.imm off <<< 2)) true else b.goTo (b.pc + 4) false)
    ∧ ∀ (w : Wg) grp pc (f : BitVec 12), (w.group grp ≠ [] ∧ ∀ b ∈ w.beads, b.inGrp grp = true → b.pc = pc ∧ b.fmt = f) →
        (w.regroup grp).beads = w.beads ∧ (w.regroup grp).nextGrp = w.nextGrp

/-- R180, its check covering every bead before any changes. Of several misaligned taken beads R180 and R267 do not say whose target TREC.VA names: that of the lowest position is the model's choice (log 89). -/
def Obligations.JumpsGoWhereTheyShould : Prop :=
  ∀ g a i (t : Bead → DWord) (link : Bool),
    ((i = .ret g ∧ (t = fun b => b.sget 63) ∧ link = false) ∨ (i = .jmpr a g ∧ (t = fun b => b.sget a) ∧ link = false)
      ∨ (i = .callr a g ∧ (t = fun b => b.sget a) ∧ link = true)) →
    GivesWhen i (fun c _ => ∀ b ∈ c.beads, b.guardLow g c.neg = true → (t b).extractLsb' 0 2 = 0) (fun c s =>
      c.transfer s fun b => if b.guardLow g c.neg then (if link then b.sset 63 (b.pc + 4) else b).goTo (t b) true
        else b.goTo (b.pc + 4) false)
    ∧ ∀ c s b, Issues i c s → c.beads.find? (fun b => b.guardLow g c.neg && (t b).extractLsb' 0 2 != 0) = some b →
        exec i s = .next (takeTrap c (c.stamp s) { code := 0x06, va := t b })

/-- R181, R182, R184, R185, R186, the prefixes of R148 to R152 and the gathering of R42. That the JOINs of an EXIT each apply at the PC that the one before set, until a lane is active or the stack is empty, is the reading of log 29. -/
def Obligations.JoinExitAndTheRestOfControl : Prop :=
  Gives .join (fun c s => c.transfer s fun b => b.joinAt b.pc)
    ∧ (∀ g, Gives (.exit g) fun c s =>
        (c.transfer s fun b => b.exitLanes (b.lanesOn g c.neg)).updWg c.cur.gang c.cur.member fun w =>
          w.clasps (c.now s) (homesOf c.beads))
    ∧ Gives .clasp (fun c s =>
        (c.hold s .clasp .clasp).updWg c.cur.gang c.cur.member fun w => w.clasps (c.now s) (homesOf c.beads))
    ∧ Gives .yield (fun c s => (c.done (c.onGrp s fun b => { b with turn := s.nextId })).fresh)
    ∧ Gives .nop (fun c s => c.done s)
    ∧ (∀ i kind (pl : BitVec 24) s c, ((∃ p, i = .pfxX p ∧ kind = .x ∧ pl = p)
          ∨ (∃ n g r x q, i = .pfxM n g r x q ∧ kind = .m ∧ pl = n ++ (g ++ (r ++ (x ++ (q ++ 0#14)))))
          ∨ (∃ br y z, i = .pfxH br y z ∧ kind = .h ∧ pl = 0#20 ++ (br ++ (y ++ z)))) →
        s.ctx? = some c → c.pfx.length < 2 →
        exec i s = .next (c.onGrp (c.stamp s) fun b =>
          { b with pfx := b.pfx ++ [{ kind, payload := pl, resv := c.cur.resv }], pc := b.pc + 4 }))
    ∧ (∀ a (b : Bead), (b.stack = [] → b.joinAt a = b.goTo (a + 4) false)
      ∧ ∀ e rest, b.stack = e :: rest →
        (e.phase = false ∧ e.maskNt ≠ 0 → b.joinAt a
          = { b with stack := { e with phase := true } :: rest, active := e.maskNt, fmt := e.fmt }.goTo e.pcNt false)
        ∧ (e.phase = true ∨ e.maskNt = 0 → b.joinAt a
          = { b with stack := rest, active := e.maskAll &&& ~~~b.exited, fmt := e.fmt }.goTo (a + 4) false))
    ∧ (∀ e (b : Bead),
      let b1 := { b with exited := b.exited ||| e, active := b.active &&& ~~~e,
                         stack := b.stack.map fun x => { x with maskAll := x.maskAll &&& ~~~e, maskNt := x.maskNt &&& ~~~e } }
      let idle (x : Bead) : Prop := x.active = 0 ∧ x.stack ≠ []
      let join (x : Bead) : Bead := x.joinAt x.pc
      (¬idle b1 → b.exitLanes e = b1.goTo (b.pc + 4) false)
      ∧ (idle b1 → ∃ n, 0 < n ∧ (∀ m, m < n → idle (Nat.repeat join m b1)) ∧ ¬idle (Nat.repeat join n b1) ∧ b.exitLanes e = Nat.repeat join n b1))
    ∧ (∀ (w : Wg) now h hs, w.clasps now [] = w ∧ w.clasps now (h :: hs) = (w.clasp h now).clasps now hs)
    ∧ ∀ (w : Wg) home now,
      let here (b : Bead) : Prop := b ∈ w.beads ∧ b.home = home ∧ b.live = true
      let waits (b : Bead) : Prop := ∃ x, b.wait = some x ∧ x.kind = .clasp
      (((∀ b, ¬here b) ∨ ∃ b, here b ∧ ¬waits b) → w.clasp home now = w)
      ∧ ∀ lead low, here lead → lead.pos < 8 → (∀ b, here b → lead.pos ≤ b.pos) → (∀ b, here b → b.pos = lead.pos → b = lead) →
        (∀ b, here b → waits b) → here low → (∀ b, here b → low.pc.toNat ≤ b.pc.toNat) → (∀ b ∈ w.beads, b.grp < w.nextGrp) →
        ∃ grp, (∀ b ∈ w.beads, b.live = true → b.home ≠ home → b.grp ≠ grp)
          ∧ (w.clasp home now).beads = w.beads.map (fun b => if b.home = home ∧ b.live = true
            then { b.goTo (low.pc + 4) false with grp := grp, entry := home, fmt := lead.fmt, lastIssue := now } else b)
          ∧ ∀ st ∈ w.strands, st.id < 32 → st ∈ (w.clasp home now).strands

/-- The pseudocode of R45 on the entries of R44: one JOIN where no lane stays behind, two where the bead diverges. -/
def Obligations.ReconvergenceClosesWhatABranchOpens : Prop :=
  ∀ (b : Bead) g t a a2, b.exited = 0 → (∃ m, g = b.active &&& m) →
    let b1 := b.guardedBranch g t
    if g = 0 ∨ g = b.active then (b1.joinAt a).active = b.active ∧ (b1.joinAt a).stack = b.stack ∧ (b1.joinAt a).fmt = b.fmt
      ∧ (b1.joinAt a).pc = a + 4
    else b1.active = g ∧ (b1.joinAt a).active = b.active &&& ~~~g ∧ (b1.joinAt a).pc = b.pc + 4
      ∧ ((b1.joinAt a).joinAt a2).active = b.active ∧ ((b1.joinAt a).joinAt a2).stack = b.stack
      ∧ ((b1.joinAt a).joinAt a2).fmt = b.fmt ∧ ((b1.joinAt a).joinAt a2).pc = a2 + 4

/-- The table of R201, one clause a row. -/
def Obligations.VectorIntegerWordsGiveTheirResult : Prop :=
  ∀ d a b g,
    Gives (.vadd d a b g) (laneWrites g d fun _ u k => let x := u.vget k a; let y := u.vget k b; x + y)
    ∧ Gives (.vsub d a b g) (laneWrites g d fun _ u k => let x := u.vget k a; let y := u.vget k b; x - y)
    ∧ Gives (.vmul d a b g) (laneWrites g d fun _ u k => let x := u.vget k a; let y := u.vget k b; x * y)
    ∧ Gives (.vmulh d a b g) (laneWrites g d fun _ u k => let x := u.vget k a; let y := u.vget k b; BitVec.ofInt 32 (x.toInt * y.toInt / 2 ^ 32))
    ∧ Gives (.vmulhn d a b g) (laneWrites g d fun _ u k => let x := u.vget k a; let y := u.vget k b; BitVec.ofNat 32 (x.toNat * y.toNat / 2 ^ 32))
    ∧ Gives (.vmad d a b g) (laneWrites g d fun _ u k => let x := u.vget k a; let y := u.vget k b; let z := u.vget k d; x * y + z)
    ∧ Gives (.vand d a b g) (laneWrites g d fun _ u k => let x := u.vget k a; let y := u.vget k b; x &&& y)
    ∧ Gives (.vor d a b g) (laneWrites g d fun _ u k => let x := u.vget k a; let y := u.vget k b; x ||| y)
    ∧ Gives (.vxor d a b g) (laneWrites g d fun _ u k => let x := u.vget k a; let y := u.vget k b; x ^^^ y)
    ∧ Gives (.vandn d a b g) (laneWrites g d fun _ u k => let x := u.vget k a; let y := u.vget k b; x &&& ~~~y)
    ∧ Gives (.vshl d a b g) (laneWrites g d fun _ u k => let x := u.vget k a; let y := u.vget k b; x <<< (y.toNat % 32))
    ∧ Gives (.vshr d a b g) (laneWrites g d fun _ u k => let x := u.vget k a; let y := u.vget k b; x >>> (y.toNat % 32))
    ∧ Gives (.vsra d a b g) (laneWrites g d fun _ u k => let x := u.vget k a; let y := u.vget k b; x.sshiftRight (y.toNat % 32))
    ∧ Gives (.vmin d a b g) (laneWrites g d fun _ u k => let x := u.vget k a; let y := u.vget k b; if x.toInt < y.toInt then x else y)
    ∧ Gives (.vmax d a b g) (laneWrites g d fun _ u k => let x := u.vget k a; let y := u.vget k b; if x.toInt < y.toInt then y else x)
    ∧ Gives (.vminn d a b g) (laneWrites g d fun _ u k => let x := u.vget k a; let y := u.vget k b; if x.toNat < y.toNat then x else y)
    ∧ Gives (.vmaxn d a b g) (laneWrites g d fun _ u k => let x := u.vget k a; let y := u.vget k b; if x.toNat < y.toNat then y else x)
    ∧ Gives (.vsel d a b g) (laneWrites g d fun _ u k => let x := u.vget k a; let y := u.vget k b; let z := u.vget k d; if z = 0 then y else x)
    ∧ Gives (.vabs d a g) (laneWrites g d fun _ u k => let x := u.vget k a; if x.toInt < 0 then -x else x)
    ∧ Gives (.vneg d a g) (laneWrites g d fun _ u k => let x := u.vget k a; -x)
    ∧ Gives (.vpopc d a g) (laneWrites g d fun _ u k => let x := u.vget k a; popcount x)
    ∧ Gives (.vclz d a g) (laneWrites g d fun _ u k => let x := u.vget k a; leadingZeros x)
    ∧ Gives (.vbrev d a g) (laneWrites g d fun _ u k => let x := u.vget k a; bitReverse x)
    ∧ Gives (.vmov d a g) (laneWrites g d fun _ u k => let x := u.vget k a; x)

/-- The results of R201 and R204 said bit by bit. -/
def Obligations.BitCountsMeanWhatTheySay : Prop :=
  ∀ x y z : Word, (popcount x).toNat = ((List.range 32).filter fun k => x.getLsbD k).length
    ∧ (∀ k, k < 32 → (bitReverse x).getLsbD k = x.getLsbD (31 - k))
    ∧ (x = 0 → leadingZeros x = 32) ∧ (∀ k, k < 32 → x.getLsbD k = true → (∀ j, k < j → x.getLsbD j = false) → (leadingZeros x).toNat = 31 - k)
    ∧ (∀ k, k < 32 → (fieldMask y).getLsbD k = decide (fieldPos y ≤ k ∧ k < fieldPos y + fieldWidth y))
    ∧ ∀ k, k < 32 → ((z &&& ~~~fieldMask y) ||| ((x <<< fieldPos y) &&& fieldMask y)).getLsbD k =
        if fieldPos y ≤ k ∧ k < fieldPos y + fieldWidth y then x.getLsbD (k - fieldPos y) else z.getLsbD k

/-- R202, the immediate of R150 cut to 32 bits and stated bit by bit; R204, the field stated bit by bit. -/
def Obligations.VectorImmediatesAndFieldsGiveTheirResult : Prop :=
  ∀ d a b g imm,
    Gives (.vaddi d a g imm) (laneWrites g d fun c z k => let x := z.vget k a; let u : Word := (c.imm imm).setWidth 32; x + u)
    ∧ Gives (.vandi d a g imm) (laneWrites g d fun c z k => let x := z.vget k a; let u : Word := (c.imm imm).setWidth 32; x &&& u)
    ∧ Gives (.vori d a g imm) (laneWrites g d fun c z k => let x := z.vget k a; let u : Word := (c.imm imm).setWidth 32; x ||| u)
    ∧ Gives (.vxori d a g imm) (laneWrites g d fun c z k => let x := z.vget k a; let u : Word := (c.imm imm).setWidth 32; x ^^^ u)
    ∧ Gives (.vshli d a g imm) (laneWrites g d fun c z k => let x := z.vget k a; let u : Word := (c.imm imm).setWidth 32; x <<< (u.toNat % 32))
    ∧ Gives (.vshri d a g imm) (laneWrites g d fun c z k => let x := z.vget k a; let u : Word := (c.imm imm).setWidth 32; x >>> (u.toNat % 32))
    ∧ Gives (.vsrai d a g imm) (laneWrites g d fun c z k => let x := z.vget k a; let u : Word := (c.imm imm).setWidth 32; x.sshiftRight (u.toNat % 32))
    ∧ Gives (.vli d g imm) (laneWrites g d fun c _ _ => (c.imm imm).setWidth 32)
    ∧ Gives (.vbfe d a b g) (laneWrites g d fun _ z k => let y := z.vget k b; (z.vget k a &&& fieldMask y) >>> fieldPos y)
    ∧ Gives (.vbfes d a b g) (laneWrites g d fun _ z k => fieldSigned (z.vget k a) (z.vget k b))
    ∧ Gives (.vbfi d a b g) (laneWrites g d fun _ z k => let y := z.vget k b; (z.vget k d &&& ~~~fieldMask y) ||| ((z.vget k a <<< fieldPos y) &&& fieldMask y))
    ∧ (∀ (c : Ctx) j, j < 32 → ((c.imm imm).setWidth 32 : Word).getLsbD j = immBit imm (immPayloads c.pfx) j)
    ∧ ∀ x y : Word, let at0 := y.toNat % 32
      let w := min (y.toNat / 256 % 64) (32 - at0)
      fieldPos y = at0 ∧ ∀ k, k < 32 → (fieldMask y).getLsbD k = decide (at0 ≤ k ∧ k < at0 + w)
        ∧ ((x &&& fieldMask y) >>> fieldPos y).getLsbD k = (decide (k < w) && x.getLsbD (at0 + k))
        ∧ (fieldSigned x y).getLsbD k = (decide (0 < w) && x.getLsbD (at0 + min k (w - 1)))

/-- The table of R203; the f32 comparisons trap on a signalling NaN (R78) and are about the values read. -/
def Obligations.ComparisonsGiveTheirResult : Prop :=
  (∀ d a b g,
    Gives (.vseq d a b g) (predWrites g d fun z k => let x := z.vget k a; let y := z.vget k b; x == y)
    ∧ Gives (.vsne d a b g) (predWrites g d fun z k => let x := z.vget k a; let y := z.vget k b; x != y)
    ∧ Gives (.vslt d a b g) (predWrites g d fun z k => let x := z.vget k a; let y := z.vget k b; decide (x.toInt < y.toInt))
    ∧ Gives (.vsle d a b g) (predWrites g d fun z k => let x := z.vget k a; let y := z.vget k b; decide (x.toInt ≤ y.toInt))
    ∧ Gives (.vsltn d a b g) (predWrites g d fun z k => let x := z.vget k a; let y := z.vget k b; decide (x.toNat < y.toNat))
    ∧ Gives (.vslen d a b g) (predWrites g d fun z k => let x := z.vget k a; let y := z.vget k b; decide (x.toNat ≤ y.toNat))
    ∧ GivesWhen (.vfseq d a b g) (quiet g [.word a, .word b]) (predWrites g d fun z k => let x := fmt32.val (z.vget k a).toNat; let y := fmt32.val (z.vget k b).toNat; x.eq y)
    ∧ GivesWhen (.vfsne d a b g) (quiet g [.word a, .word b]) (predWrites g d fun z k => let x := fmt32.val (z.vget k a).toNat; let y := fmt32.val (z.vget k b).toNat; !x.eq y)
    ∧ GivesWhen (.vfslt d a b g) (quiet g [.word a, .word b]) (predWrites g d fun z k => let x := fmt32.val (z.vget k a).toNat; let y := fmt32.val (z.vget k b).toNat; x.lt y)
    ∧ GivesWhen (.vfsle d a b g) (quiet g [.word a, .word b]) (predWrites g d fun z k => let x := fmt32.val (z.vget k a).toNat; let y := fmt32.val (z.vget k b).toNat; x.lt y || x.eq y)
    ∧ GivesWhen (.vfsun d a b g) (quiet g [.word a, .word b]) (predWrites g d fun z k => let x := fmt32.val (z.vget k a).toNat; let y := fmt32.val (z.vget k b).toNat; x == .nan || y == .nan))
    ∧ (∀ d a b g,
    Gives (.pand d a b g) (predWrites g d fun z k => let p := z.pget k a; let q := z.pget k b; p && q)
    ∧ Gives (.por d a b g) (predWrites g d fun z k => let p := z.pget k a; let q := z.pget k b; p || q)
    ∧ Gives (.pxor d a b g) (predWrites g d fun z k => let p := z.pget k a; let q := z.pget k b; p != q)
    ∧ Gives (.pandn d a b g) (predWrites g d fun z k => let p := z.pget k a; let q := z.pget k b; p && !q))
    ∧ ∀ d a g, Gives (.pmov d a g) (predWrites g d fun z k => z.pget k a)

/-- R205 to R209: operations on the values of the formats under the unit's rounding and saturation. What the special functions return among the values R80 allows is free (log 12). -/
def Obligations.FloatWordsGiveTheirResult : Prop :=
  (∀ d a b g,
    GivesWhen (.vfadd d a b g) (quiet g [.word a, .word b]) (laneWrites g d fun c z k => let x := (z.vget k a).toNat; let y := (z.vget k b).toNat; w32 (fmt32.addOp c.rnd c.sat x y))
    ∧ GivesWhen (.vfsub d a b g) (quiet g [.word a, .word b]) (laneWrites g d fun c z k => let x := (z.vget k a).toNat; let y := (z.vget k b).toNat; w32 (fmt32.subOp c.rnd c.sat x y))
    ∧ GivesWhen (.vfmul d a b g) (quiet g [.word a, .word b]) (laneWrites g d fun c z k => let x := (z.vget k a).toNat; let y := (z.vget k b).toNat; w32 (fmt32.mulOp c.rnd c.sat x y))
    ∧ GivesWhen (.vfmin d a b g) (quiet g [.word a, .word b]) (laneWrites g d fun c z k => let x := (z.vget k a).toNat; let y := (z.vget k b).toNat; w32 (fmt32.minMax false c.sat x y))
    ∧ GivesWhen (.vfmax d a b g) (quiet g [.word a, .word b]) (laneWrites g d fun c z k => let x := (z.vget k a).toNat; let y := (z.vget k b).toNat; w32 (fmt32.minMax true c.sat x y))
    ∧ GivesWhen (.vfdiv d a b g) (quiet g [.word a, .word b]) (laneWrites g d fun c z k => let x := (z.vget k a).toNat; let y := (z.vget k b).toNat; w32 (fmt32.divOp c.rnd c.sat x y))
    ∧ GivesWhen (.vfma d a b g) (quiet g [.word a, .word b, .word d]) (laneWrites g d fun c z k => w32 (fmt32.fmaOp c.rnd c.sat false false (z.vget k a).toNat (z.vget k b).toNat (z.vget k d).toNat))
    ∧ GivesWhen (.vfms d a b g) (quiet g [.word a, .word b, .word d]) (laneWrites g d fun c z k => w32 (fmt32.fmaOp c.rnd c.sat false true (z.vget k a).toNat (z.vget k b).toNat (z.vget k d).toNat))
    ∧ GivesWhen (.vfnma d a b g) (quiet g [.word a, .word b, .word d]) (laneWrites g d fun c z k => w32 (fmt32.fmaOp c.rnd c.sat true false (z.vget k a).toNat (z.vget k b).toNat (z.vget k d).toNat))
    ∧ Gives (.vfcps d a b g) (laneWrites g d fun _ z k => (z.vget k a &&& 0x7FFFFFFF) ||| (z.vget k b &&& 0x80000000)))
    ∧ (∀ d a g,
    Gives (.vfabs d a g) (laneWrites g d fun _ z k => z.vget k a &&& 0x7FFFFFFF)
    ∧ Gives (.vfneg d a g) (laneWrites g d fun _ z k => z.vget k a ^^^ 0x80000000)
    ∧ Gives (.vfcls d a g) (laneWrites g d fun _ z k => w32 (classOf (z.vget k a).toNat))
    ∧ GivesWhen (.vfrnd d a g) (quiet g [.word a]) (laneWrites g d fun c z k => w32 (fmt32.integral c.rnd c.sat (z.vget k a).toNat))
    ∧ GivesWhen (.vsqrt d a g) (quiet g [.word a]) (laneWrites g d fun c z k => w32 (fmt32.sqrtOp c.rnd c.sat (z.vget k a).toNat))
    ∧ GivesWhen (.vrcp d a g) (quiet g [.word a]) (laneWrites g d fun c z k => w32 (rcp c.sat (z.vget k a)))
    ∧ GivesWhen (.vrsq d a g) (quiet g [.word a]) (laneWrites g d fun c z k => w32 (rsq c.sat (z.vget k a)))
    ∧ GivesWhen (.vexp2 d a g) (quiet g [.word a]) (laneWrites g d fun c z k => w32 (exp2 c.sat (z.vget k a)))
    ∧ GivesWhen (.vlog2 d a g) (quiet g [.word a]) (laneWrites g d fun c z k => w32 (log2f c.sat (z.vget k a)))
    ∧ GivesWhen (.vsin d a g) (quiet g [.word a]) (laneWrites g d fun _ z k => w32 (sinf (z.vget k a)))
    ∧ GivesWhen (.vcos d a g) (quiet g [.word a]) (laneWrites g d fun _ z k => w32 (cosf (z.vget k a)))
    ∧ GivesWhen (.vtanh d a g) (quiet g [.word a]) (laneWrites g d fun _ z k => w32 (tanhf (z.vget k a))))
    ∧ (∀ d a b g h,
    let q := halfFmt h
    GivesWhen (.vhadd d a b g h) (quiet g [.halves a q, .halves b q]) (laneWrites g d fun c z k => halves (q.addOp c.rnd c.sat) (z.vget k a) (z.vget k b))
    ∧ GivesWhen (.vhsub d a b g h) (quiet g [.halves a q, .halves b q]) (laneWrites g d fun c z k => halves (q.subOp c.rnd c.sat) (z.vget k a) (z.vget k b))
    ∧ GivesWhen (.vhmul d a b g h) (quiet g [.halves a q, .halves b q]) (laneWrites g d fun c z k => halves (q.mulOp c.rnd c.sat) (z.vget k a) (z.vget k b))
    ∧ GivesWhen (.vhmin d a b g h) (quiet g [.halves a q, .halves b q]) (laneWrites g d fun c z k => halves (q.minMax false c.sat) (z.vget k a) (z.vget k b))
    ∧ GivesWhen (.vhmax d a b g h) (quiet g [.halves a q, .halves b q]) (laneWrites g d fun c z k => halves (q.minMax true c.sat) (z.vget k a) (z.vget k b))
    ∧ GivesWhen (.vhfma d a b g h) (quiet g [.halves a q, .halves b q, .halves d q]) (laneWrites g d fun c z k => halves3 (q.fmaOp c.rnd c.sat false false) (z.vget k a) (z.vget k b) (z.vget k d)))

/-- R75 and R76 over exact numbers: `RoundsTo` says what one rounding of a magnitude is, `SumTo`, `ProductTo`, `QuotientTo` and `RootTo` what that of a result is. The bounds of VEXP2, VLOG2, VSIN, VCOS and VTANH, whose exact results are no fractions, and the order of results that R80 calls monotonic are not stated; which of the codes within a bound a part returns is free (log 12). -/
def Obligations.FloatResultsAreRoundedOnce : Prop :=
  (∀ sg e m, sg < 2 → e < 255 → m < 2 ^ 23 → (fmt32.val (sg * 2 ^ 31 + e * 2 ^ 23 + m)).num =
        some ((if sg = 1 then -1 else 1) * (if e = 0 then (m : Rat) * (2 : Rat) ^ (-149 : Int) else ((2 ^ 23 + m : Nat) : Rat) * (2 : Rat) ^ ((e : Int) - 150))))
    ∧ (∀ f ∈ [fmt32, fmtBf16, fmtF16, fmtE5m2, fmtE4m3, fmtE2m1], ∀ mode sat,
      (∀ neg (m : Nat) (e : Int), m ≠ 0 → RoundsTo f mode sat neg ((m : Rat) * (2 : Rat) ^ e) (f.ofVal mode sat (.fin neg m e)))
      ∧ (∀ neg (e : Int), f.ofVal mode sat (.fin neg 0 e) = f.signed neg 0) ∧ f.ofVal mode sat .nan = f.nan
      ∧ (∀ neg, f.ofVal mode sat (.inf neg) = infCode f sat neg)
      ∧ ∀ x y z, SumTo f mode sat (f.val x) (f.val y) (f.addOp mode sat x y)
        ∧ SumTo f mode sat (f.val x) (f.val y).neg (f.subOp mode sat x y)
        ∧ ProductTo f mode sat (f.val x) (f.val y) (f.mulOp mode sat x y)
        ∧ ∀ np nz, ∃ p, IsProduct (f.val x) (f.val y) p
          ∧ SumTo f mode sat (if np then p.neg else p) (if nz then (f.val z).neg else f.val z) (f.fmaOp mode sat np nz x y z))
    ∧ (∀ sg m, sg < 2 → m < 2 ^ 23 → fmt32.val (sg * 2 ^ 31 + 255 * 2 ^ 23 + m) = if m = 0 then .inf (sg == 1) else .nan)
    ∧ (∀ mode sat x y, QuotientTo fmt32 mode sat (fmt32.val x) (fmt32.val y) (fmt32.divOp mode sat x y)
      ∧ RootTo fmt32 mode sat (fmt32.val x) (fmt32.sqrtOp mode sat x))
    ∧ (∀ f ∈ [fmt32, fmtBf16, fmtF16], ∀ most sat x y, x < 2 ^ (f.eb + f.mb + 1) → y < 2 ^ (f.eb + f.mb + 1) →
      let top := 2 ^ (f.eb + f.mb)
      let nan (z : Nat) : Prop := f.maxCode + 1 < z % top
      let key (z : Nat) : Int := if top ≤ z then -((z % top : Nat) : Int) - 1 else z
      let cut (z : Nat) : Nat := if sat = true ∧ z % top = f.maxCode + 1 then z - 1 else z
      f.minMax most sat x y = if nan x then (if nan y then f.nan else cut y) else if nan y then cut x
        else cut (if (key y < key x ↔ most = true) then x else y))
    ∧ (∀ mode sat x, x < 2 ^ 32 → let r := fmt32.integral mode sat x
      match fmt32.val x with
      | .nan => r = 0x7FC00000
      | .inf _ => r = if sat then x - 1 else x
      | .fin neg m e => (m = 0 → r = x) ∧ (fmt32.val r).sign = neg
        ∧ ∃ n : Nat, NearIn mode neg ((m : Rat) * (2 : Rat) ^ e) n ∧ (fmt32.val r).num = some ((if neg then (-1 : Rat) else 1) * n))
    ∧ (∀ sg e m, sg < 2 → e < 256 → m < 2 ^ 23 → classOf (sg * 2 ^ 31 + e * 2 ^ 23 + m) = 2 ^ (
        if e = 255 then (if m = 0 then (if sg = 1 then 0 else 7) else if m < 2 ^ 22 then 8 else 9)
        else if e = 0 then (if m = 0 then (if sg = 1 then 3 else 4) else if sg = 1 then 2 else 5)
        else if sg = 1 then 1 else 6))
    ∧ (∀ x v, fmt32.val x.toNat = v →
      (∀ r ∈ [rcp false x, rcp true x, rsq false x, rsq true x, exp2 false x, exp2 true x, log2f false x, log2f true x, sinf x, cosf x, tanhf x],
        v = .nan → r = 0x7FC00000)
      ∧ (∀ neg, v = .inf neg → ∀ sat, rcp sat x = (if neg then 0x80000000 else 0) ∧ rsq sat x = (if neg then 0x7FC00000 else 0)
        ∧ exp2 sat x = (if neg then 0 else infCode fmt32 sat false) ∧ log2f sat x = (if neg then 0x7FC00000 else infCode fmt32 sat false)
        ∧ sinf x = 0x7FC00000 ∧ cosf x = 0x7FC00000 ∧ tanhf x = (if neg then 0xBF800000 else 0x3F800000))
      ∧ ∀ q, v.num = some q → ∀ sat,
        (q = 0 → rcp sat x = infCode fmt32 sat v.sign ∧ rsq sat x = infCode fmt32 sat v.sign ∧ exp2 sat x = 0x3F800000
          ∧ log2f sat x = infCode fmt32 sat true ∧ sinf x = x.toNat ∧ cosf x = 0x3F800000 ∧ tanhf x = x.toNat)
        ∧ (q < 0 → rsq sat x = 0x7FC00000 ∧ log2f sat x = 0x7FC00000)
        ∧ (128 ≤ q → exp2 sat x = infCode fmt32 sat false) ∧ (16 ≤ q → tanhf x = 0x3F800000) ∧ (q ≤ -16 → tanhf x = 0xBF800000)
        ∧ (∀ n : Int, q = n → -149 ≤ n → n < 128 → (fmt32.val (exp2 sat x)).num = some ((2 : Rat) ^ n))
        ∧ (∀ n : Int, q = (2 : Rat) ^ n → (fmt32.val (log2f sat x)).num = some (n : Rat) ∧ (n = 0 → log2f sat x = 0)))
    ∧ ∀ x q sat, (fmt32.val x.toNat).num = some q → q ≠ 0 → let y := if q < 0 then -(1 / q) else 1 / q
      ((2 : Rat) ^ (128 : Int) ≤ y → rcp sat x = infCode fmt32 sat (decide (q < 0)))
      ∧ (y < (2 : Rat) ^ (128 : Int) → ∃ z u, (fmt32.val (rcp sat x)).num = some z ∧ IsUlp y u ∧ z - 1 / q ≤ u ∧ 1 / q - z ≤ u
        ∧ ∀ k : Int, y = (2 : Rat) ^ k → -149 ≤ k → z = 1 / q)
      ∧ (0 < q → ∃ z u, ∃ k : Int, (fmt32.val (rsq sat x)).num = some z ∧ 0 ≤ z ∧ (2 : Rat) ^ (2 * k) * q ≤ 1 ∧ 1 < (2 : Rat) ^ (2 * k + 2) * q
        ∧ u = (2 : Rat) ^ (k - 23) ∧ (z ≤ u ∨ (z - u) * (z - u) * q ≤ 1) ∧ 1 ≤ (z + u) * (z + u) * q)

/-- The one floating-point trap (R78), with its record (R79). -/
def Obligations.SignallingNansTrap : Prop :=
  ∀ c s t,
    (∀ d a b g h p i (reads : List FloatRead), (i, reads) ∈ [
        ((Instr.vfrnd d a g, [FloatRead.word a]) : Instr × List FloatRead),
        ((Instr.vsqrt d a g, [FloatRead.word a]) : Instr × List FloatRead),
        ((Instr.vrcp d a g, [FloatRead.word a]) : Instr × List FloatRead),
        ((Instr.vrsq d a g, [FloatRead.word a]) : Instr × List FloatRead),
        ((Instr.vexp2 d a g, [FloatRead.word a]) : Instr × List FloatRead),
        ((Instr.vlog2 d a g, [FloatRead.word a]) : Instr × List FloatRead),
        ((Instr.vsin d a g, [FloatRead.word a]) : Instr × List FloatRead),
        ((Instr.vcos d a g, [FloatRead.word a]) : Instr × List FloatRead),
        ((Instr.vtanh d a g, [FloatRead.word a]) : Instr × List FloatRead),
        (.vfadd d a b g, [.word a, .word b]),
        (.vfsub d a b g, [.word a, .word b]),
        (.vfmul d a b g, [.word a, .word b]),
        (.vfmin d a b g, [.word a, .word b]),
        (.vfmax d a b g, [.word a, .word b]),
        (.vfdiv d a b g, [.word a, .word b]),
        (.vfma d a b g, [.word a, .word b, .word d]),
        (.vfms d a b g, [.word a, .word b, .word d]),
        (.vfnma d a b g, [.word a, .word b, .word d]),
        (.vfseq p a b g, [.word a, .word b]),
        (.vfsne p a b g, [.word a, .word b]),
        (.vfslt p a b g, [.word a, .word b]),
        (.vfsle p a b g, [.word a, .word b]),
        (.vfsun p a b g, [.word a, .word b]),
        (.vhadd d a b g h, [.halves a (halfFmt h), .halves b (halfFmt h)]),
        (.vhsub d a b g h, [.halves a (halfFmt h), .halves b (halfFmt h)]),
        (.vhmul d a b g h, [.halves a (halfFmt h), .halves b (halfFmt h)]),
        (.vhmin d a b g h, [.halves a (halfFmt h), .halves b (halfFmt h)]),
        (.vhmax d a b g h, [.halves a (halfFmt h), .halves b (halfFmt h)]),
        (.vhfma d a b g h, [.halves a (halfFmt h), .halves b (halfFmt h), .halves d (halfFmt h)])] →
      Issues i c s → snanOf c.beads (fun x => x.lanesOn g c.neg) reads = some t → exec i s = .next (takeTrap c (c.stamp s) t))
    ∧ (∀ d a b g fn, Issues (.vcvt d a b g fn) c s → cvtMisaligned fn c.lead.fmt d a = false →
        (cvtUsesCb fn c.lead.fmt && c.wg.tile.isNone) = false →
        snanOf c.beads (fun x => x.lanesOn g c.neg) ((cvtPair fn (fmtElem c.lead.fmt)).1.reads a b) = some t →
        exec (.vcvt d a b g fn) s = .next (takeTrap c (c.stamp s) t))
    ∧ (∀ d a b scope op, let as := c.laneAccs (modGuard c.pfx) fun x k => c.eaGlobal x k a b
        (Issues (.vatom d a b scope op) c s → op = 2 → (as.any fun x => countFull x.b.lops) = false →
          c.accTrap (c.stamp s) true 4 (some .rmw) as = none →
          snanOf c.beads (fun x => x.lanesOn (modGuard c.pfx) c.neg) [.word d] = some t →
          exec (.vatom d a b scope op) s = .next (takeTrap c (c.stamp s) t))
        ∧ ∀ (reads : List FloatRead), (RedOp.ofCode op, reads) ∈ [(RedOp.addF32, [FloatRead.word d]), (.minF32, [.word d]), (.maxF32, [.word d]), (.addBf16x2, [.halves d fmtBf16])] →
          Issues (.vred d a b scope op) c s → c.accTrap (c.stamp s) true (RedOp.ofCode op).bytes (some .rmw) as = none →
          snanOf c.beads (fun x => x.lanesOn (modGuard c.pfx) c.neg) reads = some t →
          exec (.vred d a b scope op) s = .next (takeTrap c (c.stamp s) t))
    ∧ (∀ on reads, snanOf c.beads on reads = some t → ∃ l1 b l2 k r1 o r2, c.beads = l1 ++ b :: l2 ∧ laneIn (on b) k = true
        ∧ reads = r1 ++ o :: r2 ∧ o.snan b k = some t
        ∧ (∀ x ∈ l1, ∀ j, laneIn (on x) j = true → ∀ y ∈ reads, y.snan x j = none)
        ∧ (∀ j, j < k → laneIn (on b) j = true → ∀ y ∈ reads, y.snan b j = none) ∧ ∀ y ∈ r1, y.snan b k = none)
    ∧ (∀ b k r f, (∃ o : FloatRead, (o = .word r ∧ fmt32.isSnan (b.vget k r).toNat = true ∨ o = .halves r f ∧
          (f.isSnan ((b.vget k r).toNat % 65536) || f.isSnan ((b.vget k r).toNat / 65536)) = true) ∧ o.snan b k = some t) →
        t.code = 0x04 ∧ t.lane.toNat = (4 * b.pos + k.val) % 256 ∧ t.reg.toNat = r.toNat
          ∧ t.origin.toNat = (b.vget k r).toNat % 64 ∧ (t.marker = true ↔ (b.vget k r) &&& 0xFFFFFFC0 = 0x7FA00000))
    ∧ ∀ f ∈ [fmt32, fmtBf16, fmtF16], ∀ x, f.isSnan x = true ↔
        x / 2 ^ f.mb % 2 ^ f.eb = 2 ^ f.eb - 1 ∧ x / 2 ^ (f.mb - 1) % 2 = 0 ∧ x % 2 ^ (f.mb - 1) ≠ 0

/-- R214, R215 over the lanes present in the group (R47, R213); VCVT of R82 and R210 to R212. That its traps 0x01 and 0x0D are raised also where no lane's guard holds is the model's choice (log 80). -/
def Obligations.CrossLaneWordsGiveTheirResult : Prop :=
  ∀ d a b g ex,
    Gives (.vshfl d a b g) (laneWrites g d fun c x k => (c.lanes g a ((x.vget k b).toNat % 32)).getD (x.vget k a))
    ∧ Gives (.vshflx d a b g) (laneWrites g d fun c x k => (c.lanes g a (x.lane k ^^^ ((x.vget k b).toNat % 32))).getD (x.vget k a))
    ∧ Gives (.vshflu d a b g) (laneWrites g d fun c x k =>
        if (x.vget k b).toNat ≤ x.lane k then (c.lanes g a (x.lane k - (x.vget k b).toNat)).getD (x.vget k a) else x.vget k a)
    ∧ Gives (.vshfld d a b g) (laneWrites g d fun c x k =>
        if x.lane k + (x.vget k b).toNat ≤ 31 then (c.lanes g a (x.lane k + (x.vget k b).toNat)).getD (x.vget k a) else x.vget k a)
    ∧ Gives (.vbcst d a g) (laneWrites g d fun c x k => ((c.present g a).head?.map (·.2)).getD (x.vget k a))
    ∧ (∃ f : Ctx → Word, Gives (.vvote d a g) (laneWrites g d fun c _ _ => f c)
        ∧ ∀ c j, j < 32 → (f c).getLsbD j = ((c.lanes g a j).any (· != 0)))
    ∧ (∀ r ∈ scanTable, Gives (.vreds d a r.1 g) (laneWrites g d fun c _ _ => (c.present g a).foldl (fun acc x => r.2.2 acc x.2) r.2.1)
      ∧ Gives (.vscan d a ex r.1 g) (laneWrites g d fun c x k =>
        ((c.present g a).filter fun y => if ex = 1 then decide (y.1 < x.lane k) else decide (y.1 ≤ x.lane k)).foldl (fun acc y => r.2.2 acc y.2) r.2.1))
    ∧ (∀ c : Ctx, c.present g a = (List.range 32).filterMap (fun j => (c.lanes g a j).map fun w => (j, w))
      ∧ ∀ j, j < 32 → c.lanes g a j = (c.beads.find? fun x => x.pos == j / 4).bind fun x =>
        if x.active.getLsbD (j % 4) && (x.pget (Four.ofNat j) g != c.neg) then some (x.vget (Four.ofNat j) a) else none)
    ∧ (∀ fn, GivesWhen (.vcvt d a b g fn)
        (fun c _ => cvtMisaligned fn c.lead.fmt d a = false ∧ (cvtUsesCb fn c.lead.fmt && c.wg.tile.isNone) = false ∧
          snanOf c.beads (fun x => x.lanesOn g c.neg) ((cvtPair fn (fmtElem c.lead.fmt)).1.reads a b) = none)
        fun c s => c.eachBead s fun x => x.onLanes (x.lanesOn g c.neg) fun k r =>
          r.vsets k d ((cvtPair fn (fmtElem c.lead.fmt)).2.words (c.codebook (fmtCb c.lead.fmt)) (c.rndFmt c.lead.fmt) (c.satFmt c.lead.fmt)
            ((cvtPair fn (fmtElem c.lead.fmt)).1.vals (c.codebook (fmtCb c.lead.fmt)) x k a b)))
    ∧ (∀ fn c s, Issues (.vcvt d a b g fn) c s → let k := elemsOf c.lead.fmt
      let off := (fn = 29 ∧ a.toNat % k ≠ 0) ∨ (fn = 30 ∧ d.toNat % k ≠ 0)
      let bare := (fn = 16 ∨ ((fn = 29 ∨ fn = 30) ∧ fmtElem c.lead.fmt = .c4)) ∧ c.wg.tile = none
      (off → exec (.vcvt d a b g fn) s = .next (takeTrap c (c.stamp s) { code := 0x01 }))
      ∧ (¬off ∧ bare → exec (.vcvt d a b g fn) s = .next (takeTrap c (c.stamp s) { code := 0x0D })))
    ∧ (∀ el : Elem, ((List.range 31).map fun n => cvtPair (BitVec.ofNat 5 n) el) =
      [(.floats 1, .packed .bf16), (.floats 1, .packed .f16), (.pair, .packed .bf16), (.pair, .packed .f16),
       (.packed .bf16 1 1, .floats), (.packed .f16 1 1, .floats), (.packed .bf16 2 1, .floats), (.packed .f16 2 1, .floats),
       (.floats 4, .packed .e4m3), (.floats 4, .packed .e5m2), (.packed .e4m3 4 1, .floats), (.packed .e5m2 4 1, .floats),
       (.floats 8, .packed .e2m1), (.packed .e2m1 8 1, .floats), (.packed .bf16 2 2, .packed .e4m3), (.packed .e4m3 4 1, .pairs .bf16),
       (.packed .c4 8 1, .pairs .bf16), (.packed .e2m1 8 1, .pairs .bf16), (.floats 1, .int), (.floats 1, .nat), (.ints 1, .floats),
       (.nats, .floats), (.floats 4, .packed .i8), (.floats 4, .packed .n8), (.packed .i8 4 1, .floats), (.packed .n8 4 1, .floats),
       (.ints 4, .low8), (.packed .f16 2 1, .packed .bf16), (.packed .bf16 2 1, .packed .f16), (.floats (32 / el.width), .packed el),
       (.packed el (32 / el.width) 1, .floats)])
    ∧ (∀ (x : Bead) k cb r n j, j < n →
      (CvtSrc.vals (.floats n) cb x k a b)[j]? = some (fmt32.val (x.vget k (a + BitVec.ofNat 6 j)).toNat)
      ∧ (CvtSrc.vals (.ints n) cb x k a b)[j]? = some (Val.ofInt (x.vget k (a + BitVec.ofNat 6 j)).toInt)
      ∧ CvtSrc.vals .pair cb x k a b = [fmt32.val (x.vget k a).toNat, fmt32.val (x.vget k b).toNat]
      ∧ CvtSrc.vals .nats cb x k a b = [Val.ofInt (x.vget k a).toNat]
      ∧ ∀ (el : Elem) q, q < r → (CvtSrc.vals (.packed el n r) cb x k a b)[q * n + j]?
        = some (el.val cb ((x.vget k (a + BitVec.ofNat 6 q)).toNat / 2 ^ (el.width * j) % 2 ^ el.width)))
    ∧ (∀ cb mode sat (vs : List Val) j v, vs[j]? = some v →
      (CvtDst.words .floats cb mode sat vs)[j]? = some (roundF32 mode sat v)
      ∧ (CvtDst.words .int cb mode sat vs)[j]? = some (BitVec.ofInt 32 (v.toInt mode (-2147483648) 2147483647))
      ∧ (CvtDst.words .nat cb mode sat vs)[j]? = some (BitVec.ofInt 32 (v.toInt mode 0 4294967295))
      ∧ (∀ el : Elem, el.width * vs.length ≤ 32 → ∃ w : Word, CvtDst.words (.packed el) cb mode sat vs = [w]
        ∧ w.toNat < 2 ^ (el.width * vs.length) ∧ w.toNat / 2 ^ (el.width * j) % 2 ^ el.width = el.ofVal cb mode sat v % 2 ^ el.width)
      ∧ (vs.length ≤ 4 → ∃ w : Word, CvtDst.words .low8 cb mode sat vs = [w] ∧ ∀ y : Int, v = Val.ofInt y →
        w.toNat / 2 ^ (8 * j) % 256 = (BitVec.ofInt 8 (if sat then max (-128) (min y 127) else y)).toNat)
      ∧ ∀ u, vs[j + 1]? = some u → j % 2 = 0 →
        (CvtDst.words (.pairs .bf16) cb mode sat vs)[j / 2]? = some (BitVec.ofNat 16 (fmtBf16.ofVal mode sat u) ++ BitVec.ofNat 16 (fmtBf16.ofVal mode sat v)))
    ∧ (∀ (x : Bead) k (ws : List Word), d.toNat + ws.length ≤ 64 →
      let y := x.vsets k d ws
      (∀ j w, ws[j]? = some w → y.vget k (d + BitVec.ofNat 6 j) = w)
      ∧ (∀ j (r : Reg), (j ≠ k ∨ r.toNat < d.toNat ∨ d.toNat + ws.length ≤ r.toNat) → y.vget j r = x.vget j r)
      ∧ { y with lanes := x.lanes } = x)
    ∧ ∀ cb x mode sat v,
      (∀ p ∈ [(Elem.f32, fmt32), (.bf16, fmtBf16), (.f16, fmtF16), (.e4m3, fmtE4m3), (.e5m2, fmtE5m2), (.e2m1, fmtE2m1), (.mx8, fmtE4m3), (.mx4, fmtE2m1)],
        p.1.val cb x = p.2.val x ∧ p.1.ofVal cb mode sat v = p.2.ofVal mode sat v)
      ∧ Elem.c4.val cb x = fmtBf16.val (cb.extractLsb' (16 * (x % 16)) 16).toNat ∧ Elem.c4.ofVal cb mode sat v = codebookIndex cb v
      ∧ Elem.i8.val cb x = Val.ofInt (BitVec.ofNat 8 x).toInt ∧ Elem.n8.val cb x = Val.ofInt (x % 256)
      ∧ Elem.i32.val cb x = Val.ofInt (BitVec.ofNat 32 x).toInt
      ∧ Elem.i8.ofVal cb mode sat v = (BitVec.ofInt 8 (v.toInt mode (-128) 127)).toNat ∧ Elem.n8.ofVal cb mode sat v = (v.toInt mode 0 255).toNat
      ∧ Elem.i32.ofVal cb mode sat v = (BitVec.ofInt 32 (v.toInt mode (-2147483648) 2147483647)).toNat
      ∧ ∀ lo hi : Int, lo ≤ hi → Val.nan.toInt mode lo hi = 0
        ∧ (∀ neg, (Val.inf neg).toInt mode lo hi = if neg then lo else hi)
        ∧ ∀ neg (m : Nat) (e : Int), ∃ n : Nat, NearIn mode neg ((m : Rat) * (2 : Rat) ^ e) n
          ∧ (Val.fin neg m e).toInt mode lo hi = max lo (min (if neg then -(n : Int) else n) hi)

/-- Checks a to d of R217 over the lanes of a unit, with the addresses that R93 allows and the reports of R267. -/
def Obligations.AccessChecksFindTheFirstFailure : Prop :=
  (∀ va : DWord, canonicalVa va = true ↔ va.toNat < 2 ^ 55 ∨ 2 ^ 64 - 2 ^ 55 ≤ va.toNat)
    ∧ ∀ (c : Ctx) s n k (as : List LaneAcc), 0 < n →
      (c.accTrap s true n (some k) as = none ↔ ∀ x ∈ as, canonicalVa x.ea = true ∧ x.ea.toNat % n = 0
        ∧ lockHit s c.tower c.col c.asid c.g.id true x.ea.toNat n k = false)
      ∧ (c.accTrap s false n (some k) as = none ↔ ∀ x ∈ as, x.ea.toNat % n = 0 ∧ x.ea.toNat + n ≤ c.scrLen
        ∧ lockHit s c.tower c.col c.asid c.g.id false x.ea.toNat n k = false)
      ∧ (∀ x, as.find? (fun x => !canonicalVa x.ea) = some x →
          c.accTrap s true n (some k) as = some { code := 0x09, va := x.ea, lane := x.lane })
      ∧ (∀ glob x, (glob = true → ∀ y ∈ as, canonicalVa y.ea = true) → as.find? (fun x => x.ea.toNat % n != 0) = some x →
          ∃ low ∈ as, low.ea.toNat % n ≠ 0 ∧ (∀ y ∈ as, y.ea.toNat % n ≠ 0 → low.ea.toNat ≤ y.ea.toNat)
            ∧ c.accTrap s glob n (some k) as = some { code := 0x06, va := low.ea, lane := x.lane })
      ∧ (∀ x, (∀ y ∈ as, y.ea.toNat % n = 0) → as.find? (fun x => decide (c.scrLen < x.ea.toNat + n)) = some x →
          c.accTrap s false n (some k) as = some { code := 0x07, va := x.ea, lane := x.lane })
      ∧ (∀ x, (∀ y ∈ as, canonicalVa y.ea = true ∧ y.ea.toNat % n = 0) →
          as.find? (fun x => lockHit s c.tower c.col c.asid c.g.id true x.ea.toNat n k) = some x →
          c.accTrap s true n (some k) as = some { code := 0x08, va := x.ea, lane := x.lane })
      ∧ ∀ x, (∀ y ∈ as, y.ea.toNat % n = 0 ∧ y.ea.toNat + n ≤ c.scrLen) →
          as.find? (fun x => lockHit s c.tower c.col c.asid c.g.id false x.ea.toNat n k) = some x →
          c.accTrap s false n (some k) as = some { code := 0x08, va := x.ea, lane := x.lane }

/-- The issue of the words of majors 0x10 to 0x12 and 0x14 (R217), with their addresses (R156), counted in their count (R160); a unit that had waited to issue has its watchdog's instant renewed when it issues (R272). That a full count holds the unit before its own address checks are judged is the model's choice (log 64). -/
def Obligations.GlobalAccessesIssueOrTrapOrWait : Prop :=
  (∀ d a b g na sx size scope op,
    (GivesWhen (.vld d a b g na sx size) (fun c s => let as := c.laneAccs g fun x k => x.sget a + laneOffset x k b + c.imm (0#0)
        as ≠ [] ∧ (∀ x ∈ as, countOf x.b.lops < 63) ∧ c.accTrap s true (2 ^ size.toNat) (some .load) as = none) (fun c s => c.await s (.vld d a b g na sx size)))
    ∧ (GivesWhen (.vld d a b g na sx size) (fun c _ => (c.laneAccs g fun x k => x.sget a + laneOffset x k b + c.imm (0#0)) = []) (fun c s => c.done s))
    ∧ (GivesWhen (.vld d a b g na sx size) (fun c _ => ∃ x ∈ (c.laneAccs g fun x k => x.sget a + laneOffset x k b + c.imm (0#0)), 63 ≤ countOf x.b.lops) (fun c s => c.holdIssue s (.vld d a b g na sx size)))
    ∧ (∀ t, GivesWhen (.vld d a b g na sx size) (fun c s => let as := c.laneAccs g fun x k => x.sget a + laneOffset x k b + c.imm (0#0)
        as ≠ [] ∧ (∀ x ∈ as, countOf x.b.lops < 63) ∧ c.accTrap s true (2 ^ size.toNat) (some .load) as = some t) (fun c s => takeTrap c s t))
    ∧ (GivesWhen (.vst d a b g na size) (fun c s => let as := c.laneAccs g fun x k => x.sget a + laneOffset x k b + c.imm (0#0)
        as ≠ [] ∧ (∀ x ∈ as, countOf x.b.sops < 63) ∧ c.accTrap s true (2 ^ size.toNat) (some .store) as = none) (fun c s => c.await s (.vst d a b g na size)))
    ∧ (GivesWhen (.vst d a b g na size) (fun c _ => (c.laneAccs g fun x k => x.sget a + laneOffset x k b + c.imm (0#0)) = []) (fun c s => c.done s))
    ∧ (GivesWhen (.vst d a b g na size) (fun c _ => ∃ x ∈ (c.laneAccs g fun x k => x.sget a + laneOffset x k b + c.imm (0#0)), 63 ≤ countOf x.b.sops) (fun c s => c.holdIssue s (.vst d a b g na size)))
    ∧ (∀ t, GivesWhen (.vst d a b g na size) (fun c s => let as := c.laneAccs g fun x k => x.sget a + laneOffset x k b + c.imm (0#0)
        as ≠ [] ∧ (∀ x ∈ as, countOf x.b.sops < 63) ∧ c.accTrap s true (2 ^ size.toNat) (some .store) as = some t) (fun c s => takeTrap c s t))
    ∧ (GivesWhen (.sld d a b g sx size) (fun c s => let as := c.beadAccs g fun x => x.sget a + x.sget b + c.imm (0#0)
        as ≠ [] ∧ (∀ x ∈ as, countOf x.b.lops < 63) ∧ c.accTrap s true (2 ^ size.toNat) (some .load) as = none) (fun c s => c.await s (.sld d a b g sx size)))
    ∧ (GivesWhen (.sld d a b g sx size) (fun c _ => (c.beadAccs g fun x => x.sget a + x.sget b + c.imm (0#0)) = []) (fun c s => c.done s))
    ∧ (GivesWhen (.sld d a b g sx size) (fun c _ => ∃ x ∈ (c.beadAccs g fun x => x.sget a + x.sget b + c.imm (0#0)), 63 ≤ countOf x.b.lops) (fun c s => c.holdIssue s (.sld d a b g sx size)))
    ∧ (∀ t, GivesWhen (.sld d a b g sx size) (fun c s => let as := c.beadAccs g fun x => x.sget a + x.sget b + c.imm (0#0)
        as ≠ [] ∧ (∀ x ∈ as, countOf x.b.lops < 63) ∧ c.accTrap s true (2 ^ size.toNat) (some .load) as = some t) (fun c s => takeTrap c s t))
    ∧ (GivesWhen (.sst d a b g size) (fun c s => let as := c.beadAccs g fun x => x.sget a + x.sget b + c.imm (0#0)
        as ≠ [] ∧ (∀ x ∈ as, countOf x.b.sops < 63) ∧ c.accTrap s true (2 ^ size.toNat) (some .store) as = none) (fun c s => c.await s (.sst d a b g size)))
    ∧ (GivesWhen (.sst d a b g size) (fun c _ => (c.beadAccs g fun x => x.sget a + x.sget b + c.imm (0#0)) = []) (fun c s => c.done s))
    ∧ (GivesWhen (.sst d a b g size) (fun c _ => ∃ x ∈ (c.beadAccs g fun x => x.sget a + x.sget b + c.imm (0#0)), 63 ≤ countOf x.b.sops) (fun c s => c.holdIssue s (.sst d a b g size)))
    ∧ (∀ t, GivesWhen (.sst d a b g size) (fun c s => let as := c.beadAccs g fun x => x.sget a + x.sget b + c.imm (0#0)
        as ≠ [] ∧ (∀ x ∈ as, countOf x.b.sops < 63) ∧ c.accTrap s true (2 ^ size.toNat) (some .store) as = some t) (fun c s => takeTrap c s t))
    ∧ (GivesWhen (.vatom d a b scope op) (fun c s => let as := c.laneAccs (modGuard c.pfx) fun x k => x.sget a + laneOffset x k b + c.imm (0#0)
        as ≠ [] ∧ (∀ x ∈ as, countOf x.b.lops < 63) ∧ c.accTrap s true (atomBytes op) (some .rmw) as = none ∧ (op = 2 → snanOf c.beads (fun x => x.lanesOn (modGuard c.pfx) c.neg) [.word d] = none)) (fun c s => c.await s (.vatom d a b scope op)))
    ∧ (GivesWhen (.vatom d a b scope op) (fun c _ => (c.laneAccs (modGuard c.pfx) fun x k => x.sget a + laneOffset x k b + c.imm (0#0)) = []) (fun c s => c.done s))
    ∧ (GivesWhen (.vatom d a b scope op) (fun c _ => ∃ x ∈ (c.laneAccs (modGuard c.pfx) fun x k => x.sget a + laneOffset x k b + c.imm (0#0)), 63 ≤ countOf x.b.lops) (fun c s => c.holdIssue s (.vatom d a b scope op)))
    ∧ (∀ t, GivesWhen (.vatom d a b scope op) (fun c s => let as := c.laneAccs (modGuard c.pfx) fun x k => x.sget a + laneOffset x k b + c.imm (0#0)
        as ≠ [] ∧ (∀ x ∈ as, countOf x.b.lops < 63) ∧ c.accTrap s true (atomBytes op) (some .rmw) as = some t) (fun c s => takeTrap c s t)))
    ∧ ∀ (c : Ctx) (s : State) i,
      let w : Wait := { kind := .confirm, scr := false, addr := BitVec.ofNat 64 s.nextId, scope := 0, cond := 0, cmp := 0, dst := 0, sat := none, order := s.nextId, since := (s.tower c.g.tower).time }
      c.await s i = { (s.updGrp c.cur fun b => { b with
          held := some i
          wait := some w
          lastIssue := if b.wait.any (·.kind == .issue) then (s.tower c.g.tower).time else b.lastIssue }) with nextId := s.nextId + 1 }

/-- VRED (R225) with its checks (R217) and the confirmation that R226 asks for beyond 16 records. -/
def Obligations.ReductionsLeaveOrWaitForConfirmation : Prop :=
  (∀ d a b scope op, let as (c : Ctx) := c.laneAccs (modGuard c.pfx) fun x k => x.sget a + laneOffset x k b + c.imm (0#0)
      ∀ t, GivesWhen (.vred d a b scope op) (fun c s => c.accTrap s true (RedOp.ofCode op).bytes (some .rmw) (as c) = some t) (fun c s => takeTrap c s t)
        ∧ GivesWhen (.vred d a b scope op) (fun c s => c.accTrap s true (RedOp.ofCode op).bytes (some .rmw) (as c) = none
          ∧ snanOf c.beads (fun x => x.lanesOn (modGuard c.pfx) c.neg) (redReads (RedOp.ofCode op) d) = some t) (fun c s => takeTrap c s t))
    ∧ (∀ d a b scope op, GivesWhen (.vred d a b scope op) (fun c s => let as := c.laneAccs (modGuard c.pfx) fun x k => x.sget a + laneOffset x k b + c.imm (0#0)
        c.accTrap s true (RedOp.ofCode op).bytes (some .rmw) as = none
        ∧ snanOf c.beads (fun x => x.lanesOn (modGuard c.pfx) c.neg) (redReads (RedOp.ofCode op) d) = none
        ∧ (scope.toNat < 3 ∨ c.recordsFull s = false ∨ as = [])) (fun c s => sendVred c s d a b scope op))
    ∧ (∀ d a b scope op, GivesWhen (.vred d a b scope op) (fun c s => let as := c.laneAccs (modGuard c.pfx) fun x k => x.sget a + laneOffset x k b + c.imm (0#0)
        c.accTrap s true (RedOp.ofCode op).bytes (some .rmw) as = none
        ∧ snanOf c.beads (fun x => x.lanesOn (modGuard c.pfx) c.neg) (redReads (RedOp.ofCode op) d) = none
        ∧ 3 ≤ scope.toNat ∧ c.recordsFull s = true ∧ as ≠ []) (fun c s => c.await s (.vred d a b scope op)))
    ∧ ∀ (c : Ctx) s d a b scope op, let t := sendVred c s d a b scope op
      let as := c.laneAccs (modGuard c.pfx) fun x k => x.sget a + laneOffset x k b + c.imm (0#0)
      t.hbm = s.hbm ∧ t.towers = s.towers ∧ t.launches = s.launches ∧ t.stores = s.stores ∧ t.gangs = (c.done s).gangs
      ∧ t.reds.length = s.reds.length + as.length ∧ t.reds.take s.reds.length = s.reds
      ∧ (t.reds.drop s.reds.length).map (fun r => (r.va, r.op, r.value, r.scope, r.gang, r.pos)) =
          as.map fun x => (x.ea, RedOp.ofCode op, BitVec.ofNat 64 (groupNat x.b x.k d ((RedOp.ofCode op).bytes / 4)), scope, c.g.id, x.b.pos)

/-- R217, R221 and R222, with the frame of the scratch stores; the offset of a lane is that of R156. That a full count holds the unit before its own checks are judged is the model's choice (log 64), as is the scale position of an element offset below the element base (log 65). -/
def Obligations.ScratchWordsActAtOnce : Prop :=
  (∀ d a b g sx size, GivesWhen (.vlds d a b g sx size) (fun c s => let as := c.scratchAccs g a b
        as ≠ [] ∧ (∀ x ∈ as, countOf x.b.lops < 63) ∧ c.accTrap s false (2 ^ size.toNat) (some .load) as = none)
      fun c s => let as := c.scratchAccs g a b
        c.done (State.fresh (c.countLoad s s.nextId as ((List.range (sizeRegs size)).map fun j => (false, d + BitVec.ofNat 6 j))
          (as.flatMap fun x => (loadWrites x.k d sx ((s.col c.tower c.col).scratch.read (c.g.scrBase + x.ea.toNat) (2 ^ size.toNat))).map
            fun w => (x.b.pos, w)))))
    ∧ (∀ d a b g size, GivesWhen (.vsts d a b g size) (fun c s => let as := c.scratchAccs g a b
        as ≠ [] ∧ (∀ x ∈ as, countOf x.b.sops < 63) ∧ c.accTrap s false (2 ^ size.toNat) (some .store) as = none)
      fun c s => let as := c.scratchAccs g a b
        let s1 := as.foldl (fun s x => c.scrWrite s x.ea.toNat (storeBytes x.b x.k d (2 ^ size.toNat))) s
        c.done (State.fresh (c.countStore s1 s1.nextId as)))
    ∧ (∀ d a b g sx size t,
      GivesWhen (.vlds d a b g sx size) (fun c _ => c.scratchAccs g a b = []) (fun c s => c.done s)
      ∧ GivesWhen (.vlds d a b g sx size) (fun c _ => ∃ x ∈ c.scratchAccs g a b, 63 ≤ countOf x.b.lops) (fun c s => c.holdIssue s (.vlds d a b g sx size))
      ∧ GivesWhen (.vlds d a b g sx size) (fun c s => let as := c.scratchAccs g a b
          as ≠ [] ∧ (∀ x ∈ as, countOf x.b.lops < 63) ∧ c.accTrap s false (2 ^ size.toNat) (some .load) as = some t) (fun c s => takeTrap c s t)
      ∧ GivesWhen (.vsts d a b g size) (fun c _ => c.scratchAccs g a b = []) (fun c s => c.done s)
      ∧ GivesWhen (.vsts d a b g size) (fun c _ => ∃ x ∈ c.scratchAccs g a b, 63 ≤ countOf x.b.sops) (fun c s => c.holdIssue s (.vsts d a b g size))
      ∧ GivesWhen (.vsts d a b g size) (fun c s => let as := c.scratchAccs g a b
          as ≠ [] ∧ (∀ x ∈ as, countOf x.b.sops < 63) ∧ c.accTrap s false (2 ^ size.toNat) (some .store) as = some t) (fun c s => takeTrap c s t))
    ∧ (∀ d a b g t, let free (c : Ctx) : Prop := ∀ x ∈ c.scratchAccs g a b, countOf x.b.lops < 63
      let whole (c : Ctx) : Prop := d.toNat % elemsOf c.lead.fmt = 0
      let book (c : Ctx) : Prop := fmtElem c.lead.fmt = .c4 → c.wg.tile ≠ none
      GivesWhen (.vldsDq d a b g) (fun c _ => ∃ x ∈ c.scratchAccs g a b, 63 ≤ countOf x.b.lops) (fun c s => c.holdIssue s (.vldsDq d a b g))
      ∧ GivesWhen (.vldsDq d a b g) (fun c _ => free c ∧ ¬whole c) (fun c s => takeTrap c s { code := 0x01 })
      ∧ GivesWhen (.vldsDq d a b g) (fun c _ => free c ∧ whole c ∧ ¬book c) (fun c s => takeTrap c s { code := 0x0D })
      ∧ GivesWhen (.vldsDq d a b g) (fun c _ => c.scratchAccs g a b = [] ∧ whole c ∧ book c) (fun c s => c.done s)
      ∧ GivesWhen (.vldsDq d a b g) (fun c s => c.scratchAccs g a b ≠ [] ∧ free c ∧ whole c ∧ book c
          ∧ dqTrap c s ((c.scratchAccs g a b).map (dqLane c.lead.fmt a)) = some t) (fun c s => takeTrap c s t))
    ∧ (∀ fmt a x, let q := dqLane fmt a x
      let sb : Int := ((x.b.sget a).extractLsb' 32 32).toNat
      q.x = x ∧ q.eb = ((x.b.sget a).extractLsb' 0 32).toNat ∧ (fmtScale fmt = 0 → q.sbytes = 0) ∧ (fmtScale fmt = 2 → q.sbytes = 4 ∧ q.so = sb)
      ∧ (fmtScale fmt = 1 → q.sbytes = 1 ∧ q.so = sb + ((x.ea.toNat : Int) - q.eb) * (elemsOf fmt : Nat) / 4 / 32))
    ∧ (∀ (c : Ctx) s qs, let va (o : Int) : DWord := BitVec.ofNat 64 (o % 2 ^ 32).toNat
      let inside (r : Int × Nat) : Prop := 0 ≤ r.1 ∧ r.1 + r.2 ≤ c.scrLen
      let free (r : Int × Nat) : Prop := lockHit s c.tower c.col c.asid c.g.id false r.1.toNat r.2 .load = false
      (dqTrap c s qs = none ↔ ∀ q ∈ qs, (∀ v ∈ q.words, v % 4 = 0) ∧ ∀ r ∈ q.ranges, inside r ∧ free r)
      ∧ ∀ l1 q l2, qs = l1 ++ q :: l2 →
        ((∀ y ∈ l1, ∀ v ∈ y.words, v % 4 = 0) → (∃ v ∈ q.words, v % 4 ≠ 0) →
          ∃ y ∈ qs, ∃ v ∈ y.words, v % 4 ≠ 0 ∧ (∀ y1 ∈ qs, ∀ v1 ∈ y1.words, v1 % 4 ≠ 0 → (va v).toNat ≤ (va v1).toNat)
            ∧ dqTrap c s qs = some { code := 0x06, va := va v, lane := q.x.lane })
        ∧ ∀ r1 r r2, (∀ y ∈ qs, ∀ v ∈ y.words, v % 4 = 0) → q.ranges = r1 ++ r :: r2 →
          ((∀ y ∈ l1, ∀ r ∈ y.ranges, inside r) → (∀ y ∈ r1, inside y) → ¬inside r → dqTrap c s qs = some { code := 0x07, va := va r.1, lane := q.x.lane })
          ∧ ((∀ y ∈ qs, ∀ r ∈ y.ranges, inside r) → (∀ y ∈ l1, ∀ r ∈ y.ranges, free r) → (∀ y ∈ r1, free y) → ¬free r →
            dqTrap c s qs = some { code := 0x08, va := va r.1, lane := q.x.lane }))
    ∧ (∀ (c : Ctx) s fmt d q, let w : Word := BitVec.ofNat 32 (leNat (c.scrRead s q.x.ea.toNat 4))
      (dqWrites c s fmt d q).length = elemsOf fmt ∧ ∀ j, j < elemsOf fmt → (dqWrites c s fmt d q)[j]? = some (RegWrite.mk (some q.x.k) (d + BitVec.ofNat 6 j)
        ((roundF32 (c.rndFmt fmt) (c.satFmt fmt) (((fmtElem fmt).val ((c.wg.tile.map (·.cbs.get (fmtCb fmt))).getD 0)
          (w.toNat / 2 ^ ((fmtElem fmt).width * j) % 2 ^ (fmtElem fmt).width)).mul (dqScale c s q))).setWidth 64)))
    ∧ (∀ d a b g, GivesWhen (.vldsDq d a b g) (fun c s => let as := c.scratchAccs g a b
        as ≠ [] ∧ (∀ x ∈ as, countOf x.b.lops < 63) ∧ d.toNat % elemsOf c.lead.fmt = 0
        ∧ (fmtElem c.lead.fmt = .c4 → c.wg.tile ≠ none) ∧ dqTrap c s (as.map (dqLane c.lead.fmt a)) = none)
      fun c s => let as := c.scratchAccs g a b
        c.done (State.fresh (c.countLoad s s.nextId as ((List.range (elemsOf c.lead.fmt)).map fun j => (false, d + BitVec.ofNat 6 j))
          ((as.map (dqLane c.lead.fmt a)).flatMap fun q => (dqWrites c s c.lead.fmt d q).map fun w => (q.x.b.pos, w)))))
    ∧ ∀ (c : Ctx) s d n (as : List LaneAcc),
      let t := as.foldl (fun s x => c.scrWrite s x.ea.toNat (storeBytes x.b x.k d n)) s
      t.hbm = s.hbm ∧ t.gangs = s.gangs ∧ t.stores = s.stores ∧ t.launches = s.launches
      ∧ (∀ u k, (u ≠ c.tower ∨ k ≠ c.col) → t.col u k = s.col u k)
      ∧ (t.col c.tower c.col).lines = (s.col c.tower c.col).lines ∧ (t.col c.tower c.col).acc = (s.col c.tower c.col).acc
      ∧ ((s.col c.tower c.col).scratch.wf = true → (t.col c.tower c.col).scratch.wf = true
        ∧ (∀ o, (∀ x ∈ as, o < c.g.scrBase + x.ea.toNat ∨ c.g.scrBase + x.ea.toNat + n ≤ o) →
            (t.col c.tower c.col).scratch.get o = (s.col c.tower c.col).scratch.get o)
        ∧ ∀ bs x, as = bs ++ [x] → c.col < (s.tower c.tower).cols.length →
            (t.col c.tower c.col).scratch.read (c.g.scrBase + x.ea.toNat) n = storeBytes x.b x.k d n)

/-- The confirmation of R217 for each word that waits for one, with its failures (R217 f and g), and the atomics of a VATOM one at a time (R224). That a unit is performed at its confirmation, one lane a step for a VATOM, whose lanes are all cleared before the first one acts, is the model's reading (log 15). -/
def Obligations.ConfirmedAccessesArePerformed : Prop :=
  ∀ id s cu c (hit : DWord → Hit), findGroup s (fun b => b.wait.any fun w => w.kind == .confirm && w.addr.toNat == id) = some cu →
    State.ctx? { s with cur := some cu } = some c →
    let s0 : State := { s with cur := some cu }
    (∀ d a b g na sx size, c.lead.held = some (.vld d a b g na sx size) → let as := c.laneAccs g fun x k => x.sget a + laneOffset x k b + c.imm (0#0)
        let s1 := c.clear s0 false (na == 0) (touches (2 ^ size.toNat) as)
        (∀ x ∈ as, c.conf s0 .read x.ea = .ok (hit x.ea)) →
        if c.barred s1 false (na == 0) (touches (2 ^ size.toNat) as) then exec (.accessConfirm id) s = .next (offTurn s1)
        else exec (.accessConfirm id) s = .next (offTurn ((let r := readEach as (fun s x => colRead s c.tower c.col c.asid x.ea (2 ^ size.toNat) (hit x.ea) (na == 1)) (fun x bs => loadWrites x.k d sx bs) s1;
          c.done (State.fresh (c.countLoad r.1 r.1.nextId as (vecDests d (sizeRegs size)) r.2))))))
    ∧ (∀ d a b g na size, c.lead.held = some (.vst d a b g na size) → let as := c.laneAccs g fun x k => x.sget a + laneOffset x k b + c.imm (0#0)
        let s1 := c.clear s0 true false (touches (2 ^ size.toNat) as)
        (∀ x ∈ as, c.conf s0 .write x.ea = .ok (hit x.ea)) →
        if c.barred s1 true false (touches (2 ^ size.toNat) as) then exec (.accessConfirm id) s = .next (offTurn s1)
        else exec (.accessConfirm id) s = .next (offTurn ((c.done (c.countStore
          (c.storeEach s1.fresh s1.nextId (na == 1) (lastWriters as) (fun x => storeBytes x.b x.k d (2 ^ size.toNat)) hit) s1.nextId as)))))
    ∧ (∀ d a b g sx size, c.lead.held = some (.sld d a b g sx size) → let as := c.beadAccs g fun x => x.sget a + x.sget b + c.imm (0#0)
        let s1 := c.clear s0 false true (touches (2 ^ size.toNat) as)
        (∀ x ∈ as, c.conf s0 .read x.ea = .ok (hit x.ea)) →
        if c.barred s1 false true (touches (2 ^ size.toNat) as) then exec (.accessConfirm id) s = .next (offTurn s1)
        else exec (.accessConfirm id) s = .next (offTurn ((let r := readEach as (fun s x => colRead s c.tower c.col c.asid x.ea (2 ^ size.toNat) (hit x.ea) false) (fun _ bs => [RegWrite.mk none d (if sx == 1 then BitVec.ofInt 64 (Int.bmod (leNat bs) (2 ^ (8 * 2 ^ size.toNat))) else BitVec.ofNat 64 (leNat bs))]) s1;
          c.done (State.fresh (c.countLoad r.1 r.1.nextId as [(true, d)] r.2))))))
    ∧ (∀ d a b g size, c.lead.held = some (.sst d a b g size) → let as := c.beadAccs g fun x => x.sget a + x.sget b + c.imm (0#0)
        let s1 := c.clear s0 true false (touches (2 ^ size.toNat) as)
        (∀ x ∈ as, c.conf s0 .write x.ea = .ok (hit x.ea)) →
        if c.barred s1 true false (touches (2 ^ size.toNat) as) then exec (.accessConfirm id) s = .next (offTurn s1)
        else exec (.accessConfirm id) s = .next (offTurn ((c.done (c.countStore
          (c.storeEach s1.fresh s1.nextId false as (fun x => leBytes (2 ^ size.toNat) (x.b.sget d).toNat) hit) s1.nextId as)))))
    ∧ (∀ d a b scope op w, c.lead.held = some (.vatom d a b scope op) → c.lead.wait = some w → w.addr.toNat = id →
        let as := c.laneAccs (modGuard c.pfx) fun x k => x.sget a + laneOffset x k b + c.imm (0#0)
        let fills := decide (scope.toNat ≤ 2)
        ∀ hs os x h rest, ((w.hits = [] ∧ (∀ x ∈ as, c.conf s0 .write x.ea = .ok (hit x.ea)) ∧ hs = as.map (fun x => (x.ea, (hit x.ea).pa, (hit x.ea).attr)) ∧ os = [])
            ∨ (w.hits ≠ [] ∧ hs = w.hits ∧ os = w.olds)) →
        hs = h :: rest → as[os.length]? = some x →
        let xs := touches (atomBytes op) (if os = [] then as else [x])
        let s1 := c.clear s0 true fills xs
        let q := c.rmw s1 x.b scope x.ea (atomBytes op) id 0 { pa := h.2.1, attr := h.2.2, who := some c.l.id } (atomNew op (groupNat x.b x.k d (atomRegs op)))
        let all := os ++ [BitVec.ofNat 64 q.2]
        let progress (s : State) (hs : List (DWord × Nat × Attr)) (os : List DWord) : State :=
          c.onGrp s fun b => { b with wait := b.wait.map fun w => { w with hits := hs, olds := os } }
        exec (.accessConfirm id) s = .next (offTurn (
          if c.barred s1 true fills xs then s1
          else if rest = [] then c.done (c.countLoad q.1 id as (vecDests d (atomDests op))
            ((as.zip all).flatMap fun y => (loadWrites y.1.k d 0 (leBytes (atomBytes op) y.2.toNat)).map fun w => (y.1.b.pos, w)))
          else progress q.1 rest all)))
    ∧ (∀ d a b scope op, c.lead.held = some (.vred d a b scope op) →
        (∀ x ∈ c.laneAccs (modGuard c.pfx) fun x k => x.sget a + laneOffset x k b + c.imm (0#0), c.conf s0 .write x.ea = .ok (hit x.ea)) →
        exec (.accessConfirm id) s = .next (offTurn (sendVred c s0 d a b scope op)))
    ∧ (∀ d a b g na sx size scope op i (need : Need) as, (i, need, as) ∈ [
          (Instr.vld d a b g na sx size, Need.read, c.laneAccs g fun x k => x.sget a + laneOffset x k b + c.imm (0#0)),
          (.vst d a b g na size, .write, c.laneAccs g fun x k => x.sget a + laneOffset x k b + c.imm (0#0)),
          (.sld d a b g sx size, .read, c.beadAccs g fun x => x.sget a + x.sget b + c.imm (0#0)),
          (.sst d a b g size, .write, c.beadAccs g fun x => x.sget a + x.sget b + c.imm (0#0)),
          (.vatom d a b scope op, .write, c.laneAccs (modGuard c.pfx) fun x k => x.sget a + laneOffset x k b + c.imm (0#0)),
          (.vred d a b scope op, .write, c.laneAccs (modGuard c.pfx) fun x k => x.sget a + laneOffset x k b + c.imm (0#0))] →
        c.lead.held = some i → (i = .vatom d a b scope op → ∃ w, c.lead.wait = some w ∧ w.hits = []) →
        (∀ x, as.find? (fun x => c.conf s0 need x.ea == .error || c.conf s0 need x.ea == .perm) = some x →
          exec (.accessConfirm id) s = .next (offTurn (takeTrap c s0 { code := 0x09, va := x.ea, lane := x.lane })))
        ∧ ∀ l1 x l2 e, as = l1 ++ x :: l2 → c.conf s0 need x.ea = .absent e → (∀ y ∈ l1, ∃ h, c.conf s0 need y.ea = .ok h) →
          (∀ y ∈ l2, c.conf s0 need y.ea ≠ .error ∧ c.conf s0 need y.ea ≠ .perm) →
          ∃ low e1, low ∈ as ∧ c.conf s0 need low.ea = .absent e1
            ∧ (∀ y ∈ as, ∀ e2, c.conf s0 need y.ea = .absent e2 → low.ea.toNat ≤ y.ea.toNat)
            ∧ exec (.accessConfirm id) s = .next (offTurn (park c s0 1 need.code x.ea x.lane low.ea e1)))

/-- The steps that end what is in flight (R106, R114, R160, R254). The frame of a store and a reduction at the home L2 is said through State.physByte, the byte that the home tower's L2 shows over what waits for HBM and HBM (R95, R133); its premises: the L2s hold lines of their own tower, a physical line once, clean lines as below (HomeOk, R95, R98), and the word lies in one line of the frame (Lands). -/
def Obligations.OperationsInFlightComplete : Prop :=
  (∀ id s, exec (.loadComplete id) s = .next (s.mapBeads (Bead.landLoad id)))
    ∧ (∀ id (b : Bead), (b.lops.find? (fun o => o.id == id && !o.done) = none → b.landLoad id = b)
        ∧ (∀ o, b.lops.find? (fun o => o.id == id && !o.done) = some o →
            (∀ l1 w l2, o.writes = l1 ++ w :: l2 → (∀ y ∈ l2, y.place ≠ w.place ∨ y.reg ≠ w.reg) →
              (∀ k, w.place = some k → (b.landLoad id).vget k w.reg = w.value.setWidth 32)
              ∧ (w.place = none → w.reg ≠ 0 → (b.landLoad id).sget w.reg = w.value))
            ∧ (∀ k q, (∀ y ∈ o.writes, y.place ≠ some k ∨ y.reg ≠ q) → (b.landLoad id).vget k q = b.vget k q)
            ∧ (∀ q, (∀ y ∈ o.writes, y.place ≠ none ∨ y.reg ≠ q) → (b.landLoad id).sget q = b.sget q)
            ∧ (∀ x ∈ (b.landLoad id).lops, x.id = id → x.done = true)
            ∧ (b.landLoad id).pc = b.pc ∧ (b.landLoad id).active = b.active ∧ (b.landLoad id).sops = b.sops ∧ (b.landLoad id).pendV = b.pendV))
    ∧ (∀ id s r, s.stores.find? (·.id == id) = some r → mayAdvance s r = true →
        ∃ t, exec (.storeAck id) s = .next t
        ∧ (r.stage = 0 → t.hbm = s.hbm ∧ t.towers = s.towers ∧ t.stores = s.stores.map fun x => if x.id == id then { x with stage := 1 } else x)
        ∧ (r.stage = 1 → homeOf r.va ≠ r.tower → t.hbm = s.hbm ∧ t.gangs = s.gangs ∧ t.stores = s.stores.filter (·.id != id) ++ [{ r with stage := 2 }])
        ∧ (r.stage = 1 → homeOf r.va = r.tower → t = storeHome s r) ∧ (r.stage = 2 → t = storeHome s r)
        ∧ (r.stage ≠ 0 → r.stage ≠ 1 ∨ homeOf r.va = r.tower → ∀ x ∈ t.stores, x.id ≠ id))
    ∧ (∀ s r, (storeHome s r).stores = s.stores.filter (·.id != r.id) ∧ (storeHome s r).gangs = s.gangs
        ∧ (s.HomeOk → s.Lands r.asid r.va r.bytes.length r.pa r.attr → ∀ p, (storeHome s r).physByte p =
            if r.pa + lineOff r.va ≤ p ∧ p < r.pa + lineOff r.va + r.bytes.length then r.bytes.getD (p - (r.pa + lineOff r.va)) 0
            else s.physByte p))
    ∧ (∀ s who t c asid va op y h, (confL2 s asid va .write).by who = .ok h →
        (pushStores s t c asid va h.pa).HomeOk → (pushStores s t c asid va h.pa).Lands asid va op.bytes h.pa h.attr →
        ∃ s1, reduceHome s who t c asid va op y = .ok s1 ∧ ∀ p, s1.physByte p =
          (let s0 := pushStores s t c asid va h.pa
          let at0 := h.pa + lineOff va
          let old : DWord := BitVec.ofNat 64 (leNat ((List.range op.bytes).map fun k => s0.physByte (at0 + k)))
          if at0 ≤ p ∧ p < at0 + op.bytes then (leBytes op.bytes (op.combine old y).toNat).getD (p - at0) 0 else s0.physByte p))
    ∧ (∀ s t c asid va pa, (∀ r ∈ s.stores, r.tower = t → r.pa ≠ pa ∧ (r.col = c → r.overlaps asid (lineOf va) 128 = false)) →
        pushStores s t c asid va pa = s)
    ∧ (∀ id s, s.stores.find? (·.id == id) = none → s.stores.any (·.op == id) = false →
        exec (.storeAck id) s = .next (s.mapBeads fun b => { b with sops := completeOp id b.sops }))
    ∧ (∀ id s r h, s.reds.find? (·.id == id) = some r → mayApply s r = true → 3 ≤ r.scope.toNat → confL2 s r.asid r.va .write = .ok h →
        ∃ s1, reduceHome s (some r.launch) r.tower r.col r.asid r.va r.op r.value = .ok s1
        ∧ exec (.reductionApply id) s = .next { s1 with reds := s1.reds.filter (·.id != id) })
    ∧ (∀ id s r, s.reds.find? (·.id == id) = some r → mayApply s r = true → r.scope.toNat ≤ 2 →
        exec (.reductionApply id) s = .next (let q := contribute s r
          if q.2 then { q.1 with reds := q.1.reds.filter (·.id != id) } else q.1))
    ∧ (∀ id s, s.prods.any (·.id == id) = false → s.stores.any (fun r => r.op == id && r.stage == 0) = false →
        exec (.tileOpComplete id) s = .next (s.mapBeads fun b => { b with tops := completeOp id b.tops }))
    ∧ ∀ t col asid va s, exec (.faultedLineReflush t col asid va) s =
        .next (((s.col t col).acc.filter fun l => l.asid == asid && l.va == lineOf va && l.faulted).foldl (fun s l => evictAcc s t col l) s)

/-- R228 to R230; what a WAIT covers and clears is R161 and R162. A completed release leaves its number in the beads of the group, by which a BFENCE tells what happens-before it (log 97). -/
def Obligations.FencesSettlesAndWaitsEnd : Prop :=
  (∀ acq rel scope, GivesWhen (.fence acq rel scope) (fun c s => (∀ b ∈ c.beads, (∀ o ∈ b.lops, o.done = true) ∧ ∀ o ∈ b.tops, o.load = true → o.done = true) ∧ (rel = 0 ∨ c.released s scope = true))
        (fun c s => let s1 := if rel = 1 then c.noteRelease s else s
          c.done (if acq = 1 then c.acquire s1 scope else s1))
      ∧ GivesWhen (.fence acq rel scope) (fun c s => (∃ b ∈ c.beads, (∃ o ∈ b.lops, o.done = false) ∨ ∃ o ∈ b.tops, o.load = true ∧ o.done = false)
          ∨ (rel ≠ 0 ∧ c.released s scope = false))
        (fun c s => c.hold s (.fence acq rel scope) .fence))
    ∧ (∀ scope, GivesWhen (.settle scope) (fun c s => (∀ w, c.lead.wait = some w → w.kind = .settle → w.sat = none) ∧ c.unsettled s = false ∧ scope.toNat ≤ 2 ∧ c.released s scope = true)
        (fun c s => c.done (c.noteRelease s))
      ∧ GivesWhen (.settle scope) (fun c s => (∀ w, c.lead.wait = some w → w.kind = .settle → w.sat = none) ∧ c.unsettled s = false ∧ 3 ≤ scope.toNat
            ∧ (((settleWide c s).gang? c.g.id).map (·.defers)).getD [] = [] ∧ c.released (settleWide c s) scope = true)
        (fun c s => c.done (c.noteRelease (settleWide c s)))
      ∧ GivesWhen (.settle scope) (fun c s => (∃ w x, c.lead.wait = some w ∧ w.kind = .settle ∧ w.sat = some x) ∧ c.released s scope = true)
        (fun c s => c.done (c.noteRelease s))
      ∧ GivesWhen (.settle scope) (fun c s => (∃ w x, c.lead.wait = some w ∧ w.kind = .settle ∧ w.sat = some x) ∧ c.released s scope = false)
        (fun c s => State.fresh (c.waitAt s (.settle scope) fun _ => some { plainWait .settle s (s.tower c.tower).time with sat := some 0 }))
      ∧ (∀ d, GivesWhen (.settle scope) (fun c s => (∀ w, c.lead.wait = some w → w.kind = .settle → w.sat = none) ∧ c.unsettled s = false ∧ 3 ≤ scope.toNat
            ∧ lowestDefer ((((settleWide c s).gang? c.g.id).map (·.defers)).getD []) = some d)
        (fun c s => takeTrap c (settleWide c s) { code := 0x10, va := d.va, dst := scope.setWidth 6 }))
      ∧ GivesWhen (.settle scope) (fun c s => (∀ w, c.lead.wait = some w → w.kind = .settle → w.sat = none) ∧ c.unsettled s = false ∧ scope.toNat ≤ 2 ∧ c.released s scope = false)
        (fun c s => State.fresh (c.waitAt s (.settle scope) fun _ => some { plainWait .settle s (s.tower c.tower).time with sat := some 0 }))
      ∧ GivesWhen (.settle scope) (fun c s => (∀ w, c.lead.wait = some w → w.kind = .settle → w.sat = none) ∧ c.unsettled s = false ∧ 3 ≤ scope.toNat
            ∧ (((settleWide c s).gang? c.g.id).map (·.defers)).getD [] = [] ∧ c.released (settleWide c s) scope = false)
        (fun c s => let s1 := settleWide c s
          State.fresh (c.waitAt s1 (.settle scope) fun _ => some { plainWait .settle s1 (s1.tower c.tower).time with sat := some 0 }))
      ∧ GivesWhen (.settle scope) (fun c s => (∀ w, c.lead.wait = some w → w.kind = .settle → w.sat = none) ∧ c.unsettled s = true) (fun c s => c.hold s (.settle scope) .settle))
    ∧ (∀ (c : Ctx) s, c.noteRelease s = s.updGrp c.cur fun b => { b with rel := s.nextId })
    ∧ (∀ l st t, GivesWhen (.wait l st t) (fun c _ => ∀ b ∈ c.beads, countOf b.lops ≤ l.toNat ∧ countOf b.sops ≤ st.toNat ∧ countOf b.tops ≤ t.toNat)
        (fun c s => c.done (c.onGrp s fun b => b.cover l.toNat st.toNat t.toNat))
      ∧ GivesWhen (.wait l st t) (fun c _ => ∃ b ∈ c.beads, l.toNat < countOf b.lops ∨ st.toNat < countOf b.sops ∨ t.toNat < countOf b.tops)
        (fun c s => c.hold s (.wait l st t) .count))
    ∧ ∀ (b : Bead) l st t, let b1 := b.cover l st t
      b1.lops = b.lops.drop (b.lops.length - l) ∧ b1.sops = b.sops.drop (b.sops.length - st) ∧ b1.tops = b.tops.drop (b.tops.length - t)
      ∧ b1.s = b.s ∧ b1.lanes = b.lanes ∧ b1.pc = b.pc
      ∧ (∀ o ∈ b.lops.take (b.lops.length - l), ∀ r, (false, r) ∈ o.dests → b1.pendV.getLsbD r.toNat = false)
      ∧ (∀ o ∈ b.lops.take (b.lops.length - l), ∀ r, (true, r) ∈ o.dests → b1.pendS.getLsbD r.toNat = false)
      ∧ ∀ r, b1.pendV.getLsbD r = true → b.pendV.getLsbD r = true

/-- R217, R232, R233 and R235: checks, arrival, token, wait and announcement; the later checks of R235 are WAIT_RECHECK. That a bead of BAR already waits when the phase that its own arrival completes is announced is log 83. -/
def Obligations.BarriersArriveAndWait : Prop :=
  (∀ d a scr scope, GivesWhen (.bara d a scr scope) (fun c s => c.accTrap s (scr == 0) 8 none (c.wordAccs (barAddr scr a)) = none
        ∧ (scr = 0 → ∀ b ∈ c.beads, ∃ h, c.conf s .write (b.sget a) = .ok h))
      fun c s => let xs := if scr == 1 then [] else touches 8 (c.wordAccs (barAddr scr a))
        let s1 := c.clear s true (decide (scope.toNat ≤ 2)) xs
        let r := arrivals c (plainWait .bar s1 (s.tower c.tower).time) scr scope d false (c.noteRelease s1) (c.wordAccs (barAddr scr a))
        let s2 := c.onGrp r.1 fun b => b.sset d (phaseOf r.2 b)
        if (c.barred s1 true (decide (scope.toNat ≤ 2)) xs || !c.released s1 scope) then c.holdIssue s1 (.bara d a scr scope) else c.done s2)
    ∧ (∀ d a scr scope, GivesWhen (.bar d a scr scope) (fun c s => (∀ w, c.lead.wait = some w → w.kind ≠ .bar) ∧ c.accTrap s (scr == 0) 8 none (c.wordAccs (barAddr scr a)) = none
        ∧ (scr = 0 → ∀ b ∈ c.beads, ∃ h, c.conf s .write (b.sget a) = .ok h))
      fun c s => let xs := if scr == 1 then [] else touches 8 (c.wordAccs (barAddr scr a))
        let s1 := c.clear s true (decide (scope.toNat ≤ 2)) xs
        let r := arrivals c (plainWait .bar s1 (s.tower c.tower).time) scr scope d true (c.noteRelease s1) (c.wordAccs (barAddr scr a))
        let s2 := c.onGrp r.1 fun b => b.sset d (phaseOf r.2 b)
        if (c.barred s1 true (decide (scope.toNat ≤ 2)) xs || !c.released s1 scope) then c.holdIssue s1 (.bar d a scr scope) else (c.onGrp s2 fun b => { b with held := some (.bar d a scr scope) }).fresh)
    ∧ (∀ d a scr scope, GivesWhen (.barw d a scr scope) (fun c s => (∀ w, c.lead.wait = some w → w.kind ≠ .barw) ∧ c.accTrap s (scr == 0) 8 none (c.wordAccs (barAddr scr a)) = none)
      fun c s => c.waitWord s (.barw d a scr scope) .barw (scr == 1) scope 0 d (barAddr scr a) fun b => b.sget d &&& 0xFFFFFFFF)
    ∧ (∀ d a scr scope, GivesWhen (.bar d a scr scope) (fun c _ => ∃ w, c.lead.wait = some w ∧ w.kind = .bar) (fun c s => recheckWord c s)
      ∧ GivesWhen (.barw d a scr scope) (fun c _ => ∃ w, c.lead.wait = some w ∧ w.kind = .barw) (fun c s => recheckWord c s))
    ∧ (∀ d a scr scope (t : TrapReq × State), let fails (c : Ctx) (s : State) : Prop := c.accTrap s (scr == 0) 8 none (c.wordAccs (barAddr scr a)) = some t.1
        let stops (c : Ctx) (s : State) : Prop := c.accTrap s (scr == 0) 8 none (c.wordAccs (barAddr scr a)) = none
          ∧ scr = 0 ∧ ConfirmFails c s 1 .write ((c.wordAccs (barAddr scr a)).map (·.target)) (c.conf s .write) t.2
        GivesWhen (.bara d a scr scope) fails (fun c s => takeTrap c s t.1)
        ∧ GivesWhen (.bar d a scr scope) (fun c s => (∀ w, c.lead.wait = some w → w.kind ≠ .bar) ∧ fails c s) (fun c s => takeTrap c s t.1)
        ∧ GivesWhen (.barw d a scr scope) (fun c s => (∀ w, c.lead.wait = some w → w.kind ≠ .barw) ∧ fails c s) (fun c s => takeTrap c s t.1)
        ∧ GivesWhen (.bara d a scr scope) stops (fun _ _ => t.2)
        ∧ GivesWhen (.bar d a scr scope) (fun c s => (∀ w, c.lead.wait = some w → w.kind ≠ .bar) ∧ stops c s) (fun _ _ => t.2))
    ∧ GivesWhen .gbar (fun c _ => c.l.gbar = false) (fun c s => takeTrap c s { code := 0x09 })
    ∧ GivesWhen .gbar (fun c s => c.l.gbar = true ∧ (∀ w, c.lead.wait = some w → w.kind ≠ .gbar) ∧ c.released s 4 = true ∧ c.lead.diverted = true)
        (fun c s => c.done (c.acquire (announceGbar (c.onGrp s fun b => { b with gbars := b.gbars + 1, rel := s.nextId }) c.l) 4))
    ∧ GivesWhen .gbar (fun c s => c.l.gbar = true ∧ (∀ w, c.lead.wait = some w → w.kind ≠ .gbar) ∧ c.released s 4 = true ∧ c.lead.diverted = false)
        (fun c s => announceGbar (c.waitWord (c.onGrp s fun b => { b with gbars := b.gbars + 1, rel := s.nextId }) .gbar .gbar false 4 0 0
          (fun _ => 0) fun b => BitVec.ofNat 64 b.gbars) c.l)
    ∧ GivesWhen .gbar (fun c s => c.l.gbar = true ∧ (∀ w, c.lead.wait = some w → w.kind ≠ .gbar) ∧ c.released s 4 = false) (fun c s => c.holdIssue s .gbar)
    ∧ GivesWhen .gbar (fun c _ => c.l.gbar = true ∧ ∃ w, c.lead.wait = some w ∧ w.kind = .gbar) (fun c s => recheckGbar c s)
    ∧ ∀ (c : Ctx) w scr scope d s as (x : LaneAcc),
      (scr = 1 → let o := leNat (c.scrRead s x.ea.toNat 8)
        arriveOne c scr scope s x = (c.scrWrite s x.ea.toNat (leBytes 8 (arrive o).1), (arrive o).2.2, (arrive o).2.1))
      ∧ (∀ h, scr = 0 → c.conf s .write x.ea = .ok h → let r := c.rmw s x.b scope x.ea 8 0 1 h fun o => (arrive o).1
        arriveOne c scr scope s x = (r.1, (arrive r.2).2.2, (arrive r.2).2.1))
      ∧ ∀ wait, arrivals c w scr scope d wait s (as ++ [x]) =
        (let r := arrivals c w scr scope d wait s as
        let q := arriveOne c scr scope r.1 x
        let s1 := if wait then c.onGrp q.1 fun b => if b.pos = x.b.pos then
            { b with
                wait := some { w with scr := scr == 1, addr := x.ea, scope := scope, cmp := BitVec.ofNat 64 q.2.1, dst := d }
                lastIssue := if b.wait.any (·.kind == .issue) then (q.1.tower c.g.tower).time else b.lastIssue } else b
          else q.1
        (if q.2.2 then announcePhase s1 c (scr == 1) x.ea ((q.2.1 + 1) % 2 ^ 32) else s1, (x.b.pos, q.2.1) :: r.2))

/-- The arithmetic of the barrier word (R231, R232), over all its arrivals. -/
def Obligations.APhaseTakesEveryArrival : Prop :=
  (∀ n ph, 0 < n → n < 65536 → ph < 2 ^ 32 →
    (∀ k, k < n → (Nat.repeat (fun o => (arrive o).1) k (n + ph * 2 ^ 32)) = n + k * 65536 + ph * 2 ^ 32
      ∧ (arrive (n + k * 65536 + ph * 2 ^ 32)).2 = (decide (k + 1 = n), ph))
    ∧ Nat.repeat (fun o => (arrive o).1) n (n + ph * 2 ^ 32) = n + (ph + 1) % 2 ^ 32 * 2 ^ 32)
    ∧ (∀ k ph, ph < 2 ^ 32 → Nat.repeat (fun o => (arrive o).1) k (ph * 2 ^ 32) = (ph + k) % 2 ^ 32 * 2 ^ 32
      ∧ (arrive (ph * 2 ^ 32)).2 = (true, ph))
    ∧ ∀ e a ph, e < 65536 → a < 65536 → ph < 2 ^ 32 → arrive (e + a * 65536 + ph * 2 ^ 32) =
      if e = 0 ∨ e ≤ a + 1 then (e + (ph + 1) % 2 ^ 32 * 2 ^ 32, true, ph) else (e + (a + 1) * 65536 + ph * 2 ^ 32, false, ph)

/-- R234 and R237 with the checks of R217; the group's own copies come first by R219 (log 39). -/
def Obligations.SignalsAndWorkQueues : Prop :=
  (∀ d a cond set scope t, GivesWhen (.sigw d a cond scope) (fun c s => (∀ w, c.lead.wait = some w → w.kind ≠ .sigw) ∧ c.accTrap s true 8 none (c.wordAccs (·.sget a)) = some t) (fun c s => takeTrap c s t)
      ∧ GivesWhen (.sigp d a set scope) (fun c s => c.accTrap s true 8 none (c.wordAccs (·.sget a)) = some t) (fun c s => takeTrap c s t)
      ∧ ∀ u, GivesWhen (.sigp d a set scope) (fun c s => c.accTrap s true 8 none (c.wordAccs (·.sget a)) = none
          ∧ ConfirmFails c s 1 .write ((c.wordAccs (·.sget a)).map (·.target)) (c.conf s .write) u) (fun _ _ => u))
    ∧ (∀ d a cond scope, GivesWhen (.sigw d a cond scope) (fun c s => (∀ w, c.lead.wait = some w → w.kind ≠ .sigw) ∧ c.accTrap s true 8 none (c.wordAccs (·.sget a)) = none)
        (fun c s => c.waitWord s (.sigw d a cond scope) .sigw false scope cond d (·.sget a) (·.sget d))
      ∧ GivesWhen (.sigw d a cond scope) (fun c _ => ∃ w, c.lead.wait = some w ∧ w.kind = .sigw) (fun c s => recheckWord c s))
    ∧ (∀ d a set scope, GivesWhen (.sigp d a set scope) (fun c s => c.accTrap s true 8 none (c.wordAccs (·.sget a)) = none
          ∧ ∀ b ∈ c.beads, ∃ h, c.conf s .write (b.sget a) = .ok h)
        (fun c s => let xs := touches 8 (c.wordAccs (·.sget a))
          let s1 := c.clear s true (decide (scope.toNat ≤ 2)) xs
          if c.barred s1 true (decide (scope.toNat ≤ 2)) xs || !c.released s1 scope then c.holdIssue s1 (.sigp d a set scope)
          else c.done ((c.wordAccs (·.sget a)).foldl (signalOne c set scope d) (c.noteRelease s1))))
    ∧ (∀ (c : Ctx) set scope d s (x : LaneAcc) h, c.conf s .write x.ea = .ok h →
        signalOne c set scope d s x =
          (let r := c.rmw s x.b scope x.ea 8 0 1 h fun o => if set == 1 then (x.b.sget d).toNat else (o + (x.b.sget d).toNat) % 2 ^ 64
          announceSignal r.1 c.asid x.ea (BitVec.ofNat 64 (if set == 1 then (x.b.sget d).toNat else (r.2 + (x.b.sget d).toNat) % 2 ^ 64))))
    ∧ ∀ d a try_ q, let o (c : Ctx) : Nat := (c.lead.sget a &&& 0xFFFFFFFF).toNat
      let wq (c : Ctx) (s : State) := (s.tower c.tower).wq q.toNat
      let ok (c : Ctx) (s : State) : Prop := (wq c s).asid = c.asid ∧ o c % 64 = 0 ∧ o c + 64 ≤ c.scrLen
      let free (c : Ctx) (s : State) : Prop := c.copyPending s false true { b := c.lead, va := c.lead.sget a &&& 0xFFFFFFFF, n := 64 } = false
      let behind (c : Ctx) (s : State) : Nat := (wpopOrders s c.tower q.toNat).length
      (∀ r, GivesWhen (.wpop d a try_ q) (fun c s => ok c s ∧ (∀ w, c.lead.wait = some w → w.kind ≠ .wpop) ∧ free c s ∧ (wq c s).recs[behind c s]? = some r)
        (fun c s => popRecord c s d a q.toNat (behind c s) r))
      ∧ GivesWhen (.wpop d a try_ q) (fun c s => ok c s ∧ (∀ w, c.lead.wait = some w → w.kind ≠ .wpop) ∧ free c s ∧ (wq c s).recs.length ≤ behind c s ∧ try_ = 1)
        (fun c s => c.done (c.onGrp s fun b => b.sset d (BitVec.allOnes 64)))
      ∧ GivesWhen (.wpop d a try_ q) (fun c s => ok c s ∧ (∀ w, c.lead.wait = some w → w.kind ≠ .wpop) ∧ free c s ∧ (wq c s).recs.length ≤ behind c s ∧ try_ = 0)
        (fun c s => State.fresh (c.waitAt s (.wpop d a try_ q) fun _ =>
          some { plainWait .wpop s (s.tower c.tower).time with addr := q.setWidth 64, dst := d }))
      ∧ GivesWhen (.wpop d a try_ q) (fun c s => ok c s ∧ (∀ w, c.lead.wait = some w → w.kind ≠ .wpop) ∧ ¬free c s) (fun c s => c.holdIssue s (.wpop d a try_ q))
      ∧ (∀ w, GivesWhen (.wpop d a try_ q) (fun c s => ok c s ∧ c.lead.wait = some w ∧ w.kind = .wpop) (fun c s =>
          let k := ((wpopOrders s c.tower q.toNat).filter (· < w.order)).length
          match (wq c s).recs[k]? with | some r => popRecord c s d a q.toNat k r | none => s))
      ∧ (∀ (c : Ctx) s k r, popRecord c s d a q.toNat k r = c.done (c.acquire (c.onGrp
          (c.scrWrite (s.updTower c.tower fun tw => { tw with wqs := updAt tw.wqs q.toNat fun w => { w with recs := w.recs.eraseIdx k } }) (o c) r)
          fun b => b.sset d (BitVec.ofNat 64 (field r 0 8))) 4))
      ∧ GivesWhen (.wpop d a try_ q) (fun c s => (wq c s).asid ≠ c.asid) (fun c s => takeTrap c s { code := 0x09 })
      ∧ GivesWhen (.wpop d a try_ q) (fun c s => (wq c s).asid = c.asid ∧ o c % 64 ≠ 0)
        (fun c s => takeTrap c s { code := 0x06, va := c.lead.sget a &&& 0xFFFFFFFF })
      ∧ GivesWhen (.wpop d a try_ q) (fun c s => (wq c s).asid = c.asid ∧ o c % 64 = 0 ∧ c.scrLen < o c + 64)
        (fun c s => takeTrap c s { code := 0x07, va := c.lead.sget a &&& 0xFFFFFFFF })

/-- R240 to R243, R246 and R247: checks, pieces, range locks, batches, errors. That a copy word of no bytes is checked as its table says, ACOPYG with COUNT 0 too (log 41), and that the acquire of CWAIT is at device scope (log 42), are the model's readings. -/
def Obligations.CopiesJoinTheirBatch : Prop :=
  (∀ (c : Ctx) va off n, n < 2 ^ 64 → off < 2 ^ 64 → (c.copyTrap va off n = none ↔ canonicalVa va = true ∧ canonicalVa (va + BitVec.ofNat 64 n - 1) = true
        ∧ va.toNat % 16 = 0 ∧ off % 16 = 0 ∧ n % 16 = 0 ∧ off + n ≤ c.scrLen))
    ∧ (∀ (va : DWord) off n, (inward va off n).flatMap (fun p => (List.range p.len).map fun j =>
          (p.src.map fun x => (x.1, x.2 + BitVec.ofNat 64 j), p.dst.1, p.dst.2 + BitVec.ofNat 64 j)) =
        (List.range n).map fun k => (some (true, va + BitVec.ofNat 64 k), false, BitVec.ofNat 64 off + BitVec.ofNat 64 k))
    ∧ (∀ d a, GivesWhen (.acopy d a) (fun c _ => c.copyTrap (c.lead.sget a) (c.loWord d) (c.hiWord d) = none) (fun c s =>
          c.takeCopy s (.acopy d a) (inward (c.lead.sget a) (c.loWord d) (c.hiWord d))
            (lockOf false (c.loWord d) (c.hiWord d) .dest ++ lockOf true (c.lead.sget a).toNat (c.hiWord d) .srcWrite))
      ∧ GivesWhen (.acopyo d a) (fun c _ => c.copyTrap (c.lead.sget a) (c.loWord d) (c.hiWord d) = none) (fun c s =>
          c.takeCopy s (.acopyo d a) (outward (c.lead.sget a) (c.loWord d) (c.hiWord d))
            (lockOf true (c.lead.sget a).toNat (c.hiWord d) .dest ++ lockOf false (c.loWord d) (c.hiWord d) .srcStore))
      ∧ ∀ t, GivesWhen (.acopy d a) (fun c _ => c.copyTrap (c.lead.sget a) (c.loWord d) (c.hiWord d) = some t) (fun c s => takeTrap c s t)
        ∧ GivesWhen (.acopyo d a) (fun c _ => c.copyTrap (c.lead.sget a) (c.loWord d) (c.hiWord d) = some t) (fun c s => takeTrap c s t))
    ∧ (∀ (c : Ctx) va off n, let last := va + BitVec.ofNat 64 n - 1
        (canonicalVa va = false → c.copyTrap va off n = some { code := 0x09, va })
        ∧ (canonicalVa va = true → canonicalVa last = false → c.copyTrap va off n = some { code := 0x09, va := last })
        ∧ (canonicalVa va = true → canonicalVa last = true →
          (∀ v, [va, BitVec.ofNat 64 off, BitVec.ofNat 64 n].find? (fun v => v.toNat % 16 != 0) = some v → c.copyTrap va off n = some { code := 0x06, va := v })
          ∧ ((∀ v ∈ [va, BitVec.ofNat 64 off, BitVec.ofNat 64 n], v.toNat % 16 = 0) → c.scrLen < off + n →
            c.copyTrap va off n = some { code := 0x07, va := BitVec.ofNat 64 off })))
    ∧ (∀ (c : Ctx) s off n align k, let va : DWord := BitVec.ofNat 64 off
        let locked := lockHit s c.tower c.col c.asid c.g.id false off n k
        (off % align ≠ 0 → c.scrTrap s off n align k = some { code := 0x06, va })
        ∧ (off % align = 0 → c.scrLen < off + n → c.scrTrap s off n align k = some { code := 0x07, va })
        ∧ (off % align = 0 → off + n ≤ c.scrLen → c.scrTrap s off n align k = if locked then some { code := 0x08, va } else none))
    ∧ (∀ d a, let mapTouches (c : Ctx) (va : DWord) : List Touch := [va, va + 128].map fun x => { b := c.lead, va := x, n := 128 }
        let cleared (c : Ctx) (s : State) : State := c.clear s false true (mapTouches c (c.lead.sget a))
        GivesWhen (.acopyt d a) (fun c s => let va := c.lead.sget a
          let r := c.readRange (cleared c s) va 256
          canonicalVa va = true ∧ va.toNat % 128 = 0 ∧ (∀ x ∈ [va, va + 128], ∃ h, c.confVa s .read x = .ok h)
          ∧ c.barred (cleared c s) false true (mapTouches c va) = false
          ∧ tmapOk r.2 = true ∧ c.scrTrap r.1 (c.hiWord d) (8 * (TMap.ofBytes r.2).rank) 8 .load = none ∧ c.loWord d % 16 = 0
          ∧ c.loWord d + ((TMap.ofBytes r.2).withRecord (c.scrRead r.1 (c.hiWord d) (8 * (TMap.ofBytes r.2).rank))).boxBytes ≤ c.scrLen)
        (fun c s => let r := c.readRange (cleared c s) (c.lead.sget a) 256
          let m := (TMap.ofBytes r.2).withRecord (c.scrRead r.1 (c.hiWord d) (8 * (TMap.ofBytes r.2).rank))
          c.takeCopy r.1 (.acopyt d a) (m.pieces (c.loWord d)) (lockOf false (c.loWord d) m.boxBytes .dest ++ m.sourceLock (c.loWord d)))
        ∧ GivesWhen (.acopyt d a) (fun c _ => canonicalVa (c.lead.sget a) = false) (fun c s => takeTrap c s { code := 0x09, va := c.lead.sget a })
        ∧ GivesWhen (.acopyt d a) (fun c _ => canonicalVa (c.lead.sget a) = true ∧ (c.lead.sget a).toNat % 128 ≠ 0)
          (fun c s => takeTrap c s { code := 0x06, va := c.lead.sget a })
        ∧ (∀ t, GivesWhen (.acopyt d a) (fun c s => let va := c.lead.sget a
            canonicalVa va = true ∧ va.toNat % 128 = 0
              ∧ ConfirmFails c s 1 .read [{ lane := 0xFF, va }, { lane := 0xFF, va := va + 128 }] (c.confVa s .read) t) (fun _ _ => t))
        ∧ (let open_ (c : Ctx) (s : State) : Prop := canonicalVa (c.lead.sget a) = true ∧ (c.lead.sget a).toNat % 128 = 0
            ∧ ∀ x ∈ [c.lead.sget a, c.lead.sget a + 128], ∃ h, c.confVa s .read x = .ok h
          let barred (c : Ctx) (s : State) : Bool := c.barred (cleared c s) false true (mapTouches c (c.lead.sget a))
          let read (c : Ctx) (s : State) := c.readRange (cleared c s) (c.lead.sget a) 256
          let box (c : Ctx) (s : State) : Nat := ((TMap.ofBytes (read c s).2).withRecord
            (c.scrRead (read c s).1 (c.hiWord d) (8 * (TMap.ofBytes (read c s).2).rank))).boxBytes
          let record (c : Ctx) (s : State) := c.scrTrap (read c s).1 (c.hiWord d) (8 * (TMap.ofBytes (read c s).2).rank) 8 .load
          let mapped (c : Ctx) (s : State) : Prop := open_ c s ∧ barred c s = false ∧ tmapOk (read c s).2 = true
          GivesWhen (.acopyt d a) (fun c s => open_ c s ∧ barred c s = true) (fun c s => c.holdIssue (cleared c s) (.acopyt d a))
          ∧ GivesWhen (.acopyt d a) (fun c s => open_ c s ∧ barred c s = false ∧ tmapOk (read c s).2 = false)
            (fun c s => takeTrap c (read c s).1 { code := 0x02 })
          ∧ (∀ t, GivesWhen (.acopyt d a) (fun c s => mapped c s ∧ record c s = some t) (fun c s => takeTrap c (read c s).1 t))
          ∧ GivesWhen (.acopyt d a) (fun c s => mapped c s ∧ record c s = none ∧ c.loWord d % 16 ≠ 0)
            (fun c s => takeTrap c (read c s).1 { code := 0x06, va := BitVec.ofNat 64 (c.loWord d) })
          ∧ GivesWhen (.acopyt d a) (fun c s => mapped c s ∧ record c s = none ∧ c.loWord d % 16 = 0 ∧ c.scrLen < c.loWord d + box c s)
            (fun c s => takeTrap c (read c s).1 { code := 0x07, va := BitVec.ofNat 64 (c.loWord d) })))
    ∧ (∀ d a geo, GivesWhen (.acopyg d a geo) (fun c s => let g := c.lead.sget geo
          let pitch := (g.extractLsb' 0 32).toNat
          let rowb := (g.extractLsb' 32 16).toNat
          let count := (g.extractLsb' 48 16).toNat
          16 ≤ rowb ∧ rowb ≤ 4096 ∧ count ≤ 4096 ∧ (c.lead.sget a).toNat % 16 = 0 ∧ pitch % 16 = 0 ∧ rowb % 16 = 0 ∧ c.loWord d % 16 = 0
          ∧ (count ≠ 0 → c.scrTrap s (c.hiWord d) (4 * count) 4 .load = none) ∧ c.loWord d + count * rowb ≤ c.scrLen)
        (fun c s => let g := c.lead.sget geo
          let pitch := (g.extractLsb' 0 32).toNat
          let rowb := (g.extractLsb' 32 16).toNat
          let count := (g.extractLsb' 48 16).toNat
          c.takeCopy s (.acopyg d a geo) (gatherPieces (c.lead.sget a) (c.loWord d) pitch rowb
              ((List.range count).map fun r => leNat (c.scrRead s (c.hiWord d + 4 * r) 4))) (lockOf false (c.loWord d) (count * rowb) .dest)))
    ∧ (∀ d a geo, let pitch (c : Ctx) : DWord := ((c.lead.sget geo).extractLsb' 0 32).setWidth 64
        let rowb (c : Ctx) : Nat := ((c.lead.sget geo).extractLsb' 32 16).toNat
        let count (c : Ctx) : Nat := ((c.lead.sget geo).extractLsb' 48 16).toNat
        let odd (c : Ctx) : Option DWord := [c.lead.sget a, pitch c, BitVec.ofNat 64 (rowb c), BitVec.ofNat 64 (c.loWord d)].find? fun v => v.toNat % 16 != 0
        let legal (c : Ctx) : Prop := 16 ≤ rowb c ∧ rowb c ≤ 4096 ∧ count c ≤ 4096
        let list (c : Ctx) (s : State) := c.scrTrap s (c.hiWord d) (4 * count c) 4 .load
        GivesWhen (.acopyg d a geo) (fun c _ => ¬legal c) (fun c s => takeTrap c s { code := 0x02 })
        ∧ (∀ v, GivesWhen (.acopyg d a geo) (fun c _ => legal c ∧ odd c = some v) (fun c s => takeTrap c s { code := 0x06, va := v }))
        ∧ (∀ t, GivesWhen (.acopyg d a geo) (fun c s => legal c ∧ odd c = none ∧ count c ≠ 0 ∧ list c s = some t) (fun c s => takeTrap c s t))
        ∧ GivesWhen (.acopyg d a geo) (fun c s => legal c ∧ odd c = none ∧ (count c ≠ 0 → list c s = none) ∧ c.scrLen < c.loWord d + count c * rowb c)
          (fun c s => takeTrap c s { code := 0x07, va := BitVec.ofNat 64 (c.loWord d) }))
    ∧ (∀ (c : Ctx) s i ps ks, (ps = [] → c.takeCopy s i ps ks = c.done s)
      ∧ (ps ≠ [] → (ks.any (c.lockBlocked s) || ps.any (c.pieceBlocked s)) = true ∨ 64 < locksUsed s c.tower c.col + ks.length →
          c.takeCopy s i ps ks = c.holdIssue s i)
      ∧ (ps ≠ [] → (ks.any (c.lockBlocked s) || ps.any (c.pieceBlocked s)) = false → locksUsed s c.tower c.col + ks.length ≤ 64 →
          c.takeCopy s i ps ks = c.done (State.fresh (s.updGang c.g.id fun g => { g with copies := g.copies ++
            [{ id := s.nextId, member := c.cur.member, home := c.lead.home, beadPos := c.lead.pos, batch := c.wg.closed + 1, pieces := ps, locks := ks, hold := none, again := false, hint := modCache c.pfx }] }))))
    ∧ (∀ d, Gives (.cclose d) fun c s => c.done (c.onGrp (s.updWg c.cur.gang c.cur.member fun w => { w with closed := c.wg.closed + 1 }) fun b =>
        b.sset d (BitVec.ofNat 64 (c.wg.closed + 1))))
    ∧ ∀ a, let m (c : Ctx) : Nat := match c.lead.wait.filter (·.kind == .cwait) with
        | some w => w.cmp.toNat
        | none => min (c.lead.sget a).toNat c.wg.closed
      let ended (c : Ctx) : Prop := ∀ p ∈ c.g.copies, p.member = c.cur.member → m c < p.batch
      GivesWhen (.cwait a) (fun c _ => m c = 0) (fun c s => c.done s)
      ∧ GivesWhen (.cwait a) (fun c _ => m c ≠ 0 ∧ ended c ∧ ∀ e ∈ c.wg.copyErrs, m c < e.batch) (fun c s => c.done (c.acquire s 4))
      ∧ GivesWhen (.cwait a) (fun c _ => m c ≠ 0 ∧ ended c ∧ ∃ e ∈ c.wg.copyErrs, e.batch ≤ m c)
        (fun (c : Ctx) (s : State) => let errs := c.wg.copyErrs.filter fun (e : CopyErr) => (e.batch).ble (m c)
          takeTrap c ((c.acquire s 4).updWg c.cur.gang c.cur.member fun w =>
            { w with copyErrs := w.copyErrs.filter fun (e : CopyErr) => !(e.batch).ble (m c) }) { code := 0x09, va := lowestVa (errs.map (·.va)) })
      ∧ (∀ (vs : List DWord), vs ≠ [] → lowestVa vs ∈ vs ∧ ∀ v ∈ vs, (lowestVa vs).toNat ≤ v.toNat)
      ∧ GivesWhen (.cwait a) (fun c _ => m c ≠ 0 ∧ ∃ p ∈ c.g.copies, p.member = c.cur.member ∧ p.batch ≤ m c)
        (fun c s => State.fresh (c.waitAt s (.cwait a) fun _ => some { plainWait .cwait s (s.tower c.tower).time with cmp := BitVec.ofNat 64 (m c) }))

/-- R244 and R247, with what comes before by R118, R219 and R238; the frame of a piece. That a copy moves every remaining piece in one step, or the pieces an event lists before a hold or an error, is the model's choice (log 28); that a hold or an error names the lowest address that fails is its reading (log 44). -/
def Obligations.CopiesMoveTheirBytes : Prop :=
  (∀ id s g p, findCopy s id = some (g, p) → g.resident = true → p.hold = none →
        (∀ x ∈ p.pieces, ∃ h, pieceConf s g (s.asidOf g) x = .ok h) →
        let s1 := clearPieces g (s.asidOf g) p s p.pieces
        (piecesBlocked g (s.asidOf g) p s1 p.pieces = false →
          exec (.copyComplete id) s = .next ((p.pieces.foldl (movePiece g (s.asidOf g) p.hint) s1).dropCopy g.id id))
        ∧ (piecesBlocked g (s.asidOf g) p s1 p.pieces = true → exec (.copyComplete id) s = .next s1))
    ∧ (∀ s (g : Gang) asid p ps, (∀ r ∈ s.reds, r.gang ≠ g.id) → (∀ x ∈ s.prods, x.gang ≠ g.id) → (∀ b ∈ s.bgemvs, b.gang ≠ g.id) →
        (s.col g.tower g.col).acc = [] → clearPieces g asid p s ps = s ∧ piecesBlocked g asid p s ps = false)
    ∧ (∀ id moved s g p l va n e, findCopy s id = some (g, p) → g.resident = true → p.hold = none → s.launch? g.launch = some l →
        lowestFail (failing s g (s.asidOf g) p.pieces Conf.isAbsent) = some (va, n, .absent e) →
        exec (.copyPageHold id moved) s = .next (let r := moveSome s g (s.asidOf g) p moved
          let q := absence r.1 g.tower 2 n.code 0 l g (((g.member? p.member).map (·.w)).getD 0) va e
          q.1.updCopy g.id id fun x => { x with pieces := r.2, hold := some (q.2, va) }))
    ∧ (∀ id moved s g p va n f, findCopy s id = some (g, p) → g.resident = true → p.hold = none →
        lowestFail (failing s g (s.asidOf g) p.pieces Conf.refused) = some (va, n, f) →
        exec (.copyError id moved) s = .next (stopCopy (moveSome s g (s.asidOf g) p moved).1 g p va f.cause n.code))
    ∧ (∀ xs va n f, lowestFail xs = some (va, n, f) → (va, n, f) ∈ xs ∧ ∀ y ∈ xs, va.toNat ≤ y.1.toNat)
    ∧ ∀ (g : Gang) asid hint s p h, pieceConf s g asid p = .ok h → p.dst.1 = false →
      let bs := (pieceRead s g asid p { h with hint }).2
      let s1 := (pieceRead s g asid p { h with hint }).1
      let t := movePiece g asid hint s p
      t.hbm = s1.hbm ∧ t.gangs = s1.gangs ∧ t.stores = s1.stores ∧ (∀ u k, (u ≠ g.tower ∨ k ≠ g.col) → t.col u k = s1.col u k)
      ∧ ((s1.col g.tower g.col).scratch.wf = true → (t.col g.tower g.col).scratch.wf = true
        ∧ (∀ o, (o < g.scrBase + p.dst.2.toNat ∨ g.scrBase + p.dst.2.toNat + bs.length ≤ o) →
            (t.col g.tower g.col).scratch.get o = (s1.col g.tower g.col).scratch.get o)
        ∧ (g.col < (s1.tower g.tower).cols.length → (t.col g.tower g.col).scratch.read (g.scrBase + p.dst.2.toNat) bs.length = bs))

/-- R250, R251 and R253; the ranges are those of R254. That tiles, codebooks and scratch change at issue while the count completes later is the model's reading (log 17); that a full count holds a tile word before its own traps (log 64), and which bytes check a looks at (log 81), are its choices. -/
def Obligations.TileWordsAct : Prop :=
  (∀ td rs target ts, let v (c : Ctx) : Word := (c.lead.sget rs).setWidth 32
      GivesWhen (.tcfg td rs target) (fun c _ => c.wg.tile = some ts ∧ target = 0 ∧ tctlOk (v c) = true) (fun c s => c.done (c.setTiles s (ts.upd td fun t => { t with ctl := v c })))
      ∧ GivesWhen (.tcfg td rs target) (fun c _ => c.wg.tile = some ts ∧ target = 1 ∧ (v c).toNat % 16 = 0) (fun c s => c.done (c.setTiles s { ts with lpitch := v c }))
      ∧ GivesWhen (.tcfg td rs target) (fun c _ => c.wg.tile = some ts ∧ target = 2 ∧ (v c).toNat % 4 = 0) (fun c s => c.done (c.setTiles s { ts with dpitch := v c })))
    ∧ (∀ i c s, Issues i c s → c.wg.tile = none → ((∃ td rs x, i = .tcfg td rs x) ∨ (∃ cb rs scr, i = .tcb cb rs scr) ∨ (∃ td, i = .tzero td)
          ∨ (∃ td rs sb scr, i = .tld td rs sb scr) ∨ (∃ ta rs sb scr, i = .tst ta rs sb scr) ∨ (∃ td rs scr, i = .tldt td rs scr)
          ∨ (∃ ta tb rs scope, i = .tmma ta tb rs scope ∨ i = .tmmas ta tb rs scope)
          ∨ (∃ td ta tb sat p q, i = .tmmab td ta tb sat p q ∨ i = .tmmasb td ta tb sat p q)
          ∨ ∃ td rs scr, i = .tquant td rs scr ∨ i = .tqcb td rs scr) →
        exec i s = .next (takeTrap c (c.stamp s) { code := 0x0D }))
    ∧ (∀ td rs x c s, Issues (.tcfg td rs x) c s → (let v : Word := (c.lead.sget rs).setWidth 32
          (x = 0 ∧ tctlOk v = false) ∨ (x = 1 ∧ v.toNat % 16 ≠ 0) ∨ (x = 2 ∧ v.toNat % 4 ≠ 0)) →
        exec (.tcfg td rs x) s = .next (takeTrap c (c.stamp s) { code := 0x0D }))
    ∧ (∀ cb rs scr ts, RangesStop (.tcb cb rs scr) (fun c _ => c.wg.tile = some ts) (fun c => rowRanges scr (c.lead.sget rs) 1 0 32)
        (fun c => tileAddr scr (c.lead.sget rs)) 32 .load .read)
    ∧ (∀ td rs sb scr ts n, let ctl := (ts.tile td).ctl
        let held (c : Ctx) (_ : State) : Prop := c.wg.tile = some ts ∧ (∀ b ∈ c.beads, countOf b.tops < 63)
        let r (c : Ctx) := rowRanges scr (c.lead.sget rs) (tRows ctl) ts.lpitch.toNat n
        let w := (tFmt ctl).width / 8
        let turned (c : Ctx) := rowRanges scr (c.lead.sget rs) (tSlices ctl * 96 / w) ts.lpitch.toNat (tRows ctl * w)
        let address (c : Ctx) := tileAddr scr (c.lead.sget rs)
        (∀ i, i = .tld td rs sb scr ∨ i = .tst td rs sb scr → GivesWhen i (fun c s => held c s ∧ tileRowBytes ctl sb = none) (fun c s => takeTrap c s { code := 0x0D }))
        ∧ GivesWhen (.tldt td rs scr) (fun c s => held c s ∧ (tRows ctl = 0 ∨ tldtFmt (tFmt ctl) = false)) (fun c s => takeTrap c s { code := 0x0D })
        ∧ RangesStop (.tld td rs sb scr) (fun c s => held c s ∧ tileRowBytes ctl sb = some n) r address 16 .load .read
        ∧ RangesStop (.tst td rs sb scr) (fun c s => held c s ∧ tileRowBytes ctl sb = some n) r address 16 .store .write
        ∧ RangesStop (.tldt td rs scr) (fun c s => held c s ∧ tRows ctl ≠ 0 ∧ tldtFmt (tFmt ctl) = true) turned address 16 .load .read
        ∧ ∀ i, i = .tld td rs sb scr ∨ i = .tst td rs sb scr ∨ i = .tldt td rs scr →
          GivesWhen i (fun c _ => c.wg.tile = some ts ∧ ∃ b ∈ c.beads, 63 ≤ countOf b.tops) (fun c s => c.holdIssue s i))
    ∧ (∀ ctl sb n, (tileRowBytes ctl sb = none ↔ tRows ctl = 0 ∨ (sb = 1 ∧ sideBytes ctl = 0))
        ∧ (tileRowBytes ctl sb = some n → n = if sb = 1 then sideBytes ctl else 96 * tSlices ctl))
    ∧ (∀ cb rs scr ts, GivesWhen (.tcb cb rs scr) (fun c s => c.wg.tile = some ts
          ∧ rangesPass c s (rowRanges scr (c.lead.sget rs) 1 0 32) (tileAddr scr (c.lead.sget rs)) 32 .load .read)
        (fun c s => let r := rowRanges scr (c.lead.sget rs) 1 0 32
          let q := c.readRanges (ranged c s r .load) r
          c.done (c.setTiles q.1 { ts with cbs := ts.cbs.set (Four.ofNat cb.toNat) (rowOf 256 q.2.flatten) })))
    ∧ (∀ td ts, GivesWhen (.tzero td) (fun c _ => c.wg.tile = some ts)
        (fun c s => c.done (c.setTiles s (ts.upd td fun t => { t with data := List.replicate 32 0, side := List.replicate 32 0 }))))
    ∧ (∀ td rs sb scr ts n, let ctl := (ts.tile td).ctl
        let r (c : Ctx) := rowRanges scr (c.lead.sget rs) (tRows ctl) ts.lpitch.toNat n
        GivesWhen (.tld td rs sb scr) (fun c s => c.wg.tile = some ts ∧ (∀ b ∈ c.beads, countOf b.tops < 63) ∧ tileRowBytes ctl sb = some n
          ∧ rangesPass c s (r c) (tileAddr scr (c.lead.sget rs)) 16 .load .read)
        (fun c s => let q := c.readRanges (ranged c s (r c) .load) (r c)
          c.tileDone (c.setTiles q.1 (ts.upd td fun t =>
            if sb == 1 then { t with side := rows32 12288 q.2 } else { t with data := rows32 6144 q.2 })) true))
    ∧ (∀ ta rs sb scr ts n, let t := ts.tile ta
        let r (c : Ctx) := rowRanges scr (c.lead.sget rs) (tRows t.ctl) ts.lpitch.toNat n
        GivesWhen (.tst ta rs sb scr) (fun c s => c.wg.tile = some ts ∧ (∀ b ∈ c.beads, countOf b.tops < 63) ∧ tileRowBytes t.ctl sb = some n
          ∧ rangesPass c s (r c) (tileAddr scr (c.lead.sget rs)) 16 .store .write)
        (fun c s => let rows := (r c).starts.zip (t.rows sb n)
          let s1 := ranged c s (r c) .store
          c.done (c.countTile (rows.foldl (fun s x =>
            if scr == 1 then c.scrWrite s x.1 x.2 else c.storeRow s1.nextId s (BitVec.ofNat 64 x.1) x.2) s1.fresh) s1.nextId false)))
    ∧ (∀ td rs scr ts, let ctl := (ts.tile td).ctl
        let w := (tFmt ctl).width / 8
        let r (c : Ctx) := rowRanges scr (c.lead.sget rs) (tSlices ctl * 96 / w) ts.lpitch.toNat (tRows ctl * w)
        GivesWhen (.tldt td rs scr) (fun c s => c.wg.tile = some ts ∧ (∀ b ∈ c.beads, countOf b.tops < 63) ∧ tRows ctl ≠ 0 ∧ tldtFmt (tFmt ctl) = true
          ∧ rangesPass c s (r c) (tileAddr scr (c.lead.sget rs)) 16 .load .read)
        (fun c s => let q := c.readRanges (ranged c s (r c) .load) (r c)
          c.tileDone (c.setTiles q.1 (ts.upd td fun t =>
            { t with data := (List.range 32).map fun j => if j < tRows ctl then rowOf 6144 (tldtRow q.2 w j) else 0 })) true))
    ∧ (∀ w (bs : List Byte) k, 8 * k + 8 ≤ w → k < bs.length → (rowOf w bs).extractLsb' (8 * k) 8 = bs.getD k 0)
    ∧ ∀ (c : Ctx) s (rows : List (Nat × List Byte)), let t := rows.foldl (fun s x => c.scrWrite s x.1 x.2) s
      t.hbm = s.hbm ∧ t.gangs = s.gangs ∧ t.stores = s.stores ∧ (∀ u k, (u ≠ c.tower ∨ k ≠ c.col) → t.col u k = s.col u k)
      ∧ ((s.col c.tower c.col).scratch.wf = true → (t.col c.tower c.col).scratch.wf = true
        ∧ ∀ o, (∀ x ∈ rows, o < c.g.scrBase + x.1 ∨ c.g.scrBase + x.1 + x.2.length ≤ o) →
            (t.col c.tower c.col).scratch.get o = (s.col c.tower c.col).scratch.get o)

/-- R260 with the quantiser of R86 and the codebook search of R87, both over exact numbers (BlockTo, CodebookTo). That a full count holds the word before its own traps is log 64; that the rows are written at issue while the count completes later is the model's reading (log 17). -/
def Obligations.QuantiserWordsAct : Prop :=
  (∀ td rs scr ts, let ctl := (ts.tile td).ctl
        let r (c : Ctx) := rowRanges scr (c.lead.sget rs) (tRows ctl) ts.lpitch.toNat (4 * quantK ctl)
        GivesWhen (.tquant td rs scr) (fun c s => c.wg.tile = some ts ∧ (∀ b ∈ c.beads, countOf b.tops < 63) ∧ tRows ctl ≠ 0 ∧ (tFmt ctl = .mx8 ∨ tFmt ctl = .mx4)
          ∧ rangesPass c s (r c) (tileAddr scr (c.lead.sget rs)) 16 .load .read)
        (fun c s => let q := c.readRanges (ranged c s (r c) .load) (r c)
          let qs := q.2.map (quantRow (tFmt ctl == .mx8))
          c.tileDone (c.setTiles q.1 (ts.upd td fun t =>
            { t with data := overRows (fun q r => rowKeep r q.1) qs t.data, side := overRows (fun q r => rowKeep r q.2) qs t.side })) false))
    ∧ (∀ td rs scr ts, let ctl := (ts.tile td).ctl
        let r (c : Ctx) := rowRanges scr (c.lead.sget rs) (tRows ctl) ts.lpitch.toNat (4 * quantK ctl)
        GivesWhen (.tqcb td rs scr) (fun c s => c.wg.tile = some ts ∧ (∀ b ∈ c.beads, countOf b.tops < 63) ∧ tRows ctl ≠ 0 ∧ tFmt ctl = .c4
          ∧ rangesPass c s (r c) (tileAddr scr (c.lead.sget rs)) 16 .load .read)
        (fun c s => let q := c.readRanges (ranged c s (r c) .load) (r c)
          c.tileDone (c.setTiles q.1 (ts.upd td fun t => { t with data := overRows (fun bs r =>
            rowKeep r (elemBytes 4 ((wordsOf bs).map fun x => codebookIndex (ts.cbs.get (tCb ctl)) (fmt32.val x.toNat)))) q.2 t.data })) false))
    ∧ (∀ td rs scr ts i ok, (i = Instr.tquant td rs scr ∧ (ok = fun e => e == Elem.mx8 || e == .mx4)) ∨ (i = .tqcb td rs scr ∧ (ok = fun e => e == .c4)) →
        let ctl := (ts.tile td).ctl
        let held (c : Ctx) (_ : State) : Prop := c.wg.tile = some ts ∧ (∀ b ∈ c.beads, countOf b.tops < 63)
        GivesWhen i (fun c s => held c s ∧ (tRows ctl = 0 ∨ ok (tFmt ctl) = false)) (fun c s => takeTrap c s { code := 0x0D })
        ∧ RangesStop i (fun c s => held c s ∧ tRows ctl ≠ 0 ∧ ok (tFmt ctl) = true)
          (fun c => rowRanges scr (c.lead.sget rs) (tRows ctl) ts.lpitch.toNat (4 * quantK ctl)) (fun c => tileAddr scr (c.lead.sget rs)) 16 .load .read
        ∧ GivesWhen i (fun c _ => c.wg.tile = some ts ∧ ∃ b ∈ c.beads, 63 ≤ countOf b.tops) (fun c s => c.holdIssue s i))
    ∧ (∀ mx8 (xs : List Word), (∃ x ∈ xs, ∀ n m e, fmt32.val x.toNat ≠ .fin n m e) → quantise mx8 xs = (xs.map fun _ => 0, 0xFF))
    ∧ (∀ mx8 (xs : List Word), (∀ x ∈ xs, ∃ n m e, fmt32.val x.toNat = .fin n m e) →
      BlockTo (if mx8 then fmtE4m3 else fmtE2m1) (if mx8 then 8 else 2) (xs.map fun x => fmt32.val x.toNat) (quantise mx8 xs).1 (quantise mx8 xs).2)
    ∧ (∀ cb x, CodebookTo cb x (codebookIndex cb x))
    ∧ (∀ bs k, 4 * k + 4 ≤ bs.length → (wordsOf bs)[k]? = some (BitVec.ofNat 32 (leNat ((bs.drop (4 * k)).take 4))))
    ∧ (∀ mx8 bs k b, let w := if mx8 then 8 else 4
      let block (b : Nat) := quantise mx8 (((wordsOf bs).drop (32 * b)).take 32)
      b < (wordsOf bs).length / 32 → k < 32 →
        (quantRow mx8 bs).2[b]? = some (BitVec.ofNat 8 (block b).2)
        ∧ leNat (quantRow mx8 bs).1 / 2 ^ (w * (32 * b + k)) % 2 ^ w = ((block b).1.getD k 0) % 2 ^ w
        ∧ (quantRow mx8 bs).1.length = (wordsOf bs).length / 32 * 4 * w)
    ∧ (∀ xs k, xs.length % 2 = 0 → k < xs.length → (elemBytes 4 xs).length = xs.length / 2 ∧ leNat (elemBytes 4 xs) / 16 ^ k % 16 = xs.getD k 0 % 16)
    ∧ ∀ w (r : BitVec w) (bs : List Byte) k, 8 * k + 8 ≤ w → 8 * bs.length ≤ w →
      (rowKeep r bs).extractLsb' (8 * k) 8 = if k < bs.length then bs.getD k 0 else r.extractLsb' (8 * k) 8

/-- R255 to R259, with the confirmation of R226; the value of an element is that of R84 over exact numbers (SlicesTo), with the terms of R88, the masks of R89 and the values of R72 and R73. That a full count holds the word before its own traps is log 64. That a product writes its tile at issue, and that a drain's words and values are fixed at issue, is the model's reading (log 17). -/
def Obligations.ProductsStartAndEnd : Prop :=
  (∀ ta tb rs scope ts, let a := ts.tile ta
        let b := ts.tile tb
        let ok (sparse : Bool) (c : Ctx) (s : State) : Prop := c.wg.tile = some ts ∧ (∀ b ∈ c.beads, countOf b.tops < 63) ∧ productOk a b sparse = true
          ∧ canonicalVa (c.lead.sget rs) = true ∧ (c.lead.sget rs).toNat % 4 = 0
          ∧ (scope.toNat < 3 ∨ c.recordsFull s = false ∨ ∀ x ∈ drainWords ts a b sparse (c.lead.sget rs), ∃ h, c.confVa s .write x.1 = .ok h)
        let start (sparse : Bool) (c : Ctx) (s : State) : State :=
          c.startProduct s (drainWords ts a b sparse (c.lead.sget rs)) (if intPair (tFmt a.ctl) then .addI32 else .addF32) scope
        GivesWhen (.tmma ta tb rs scope) (ok false) (start false) ∧ GivesWhen (.tmmas ta tb rs scope) (ok true) (start true))
    ∧ (∀ td ta tb sat p q ts, let a := ts.tile ta
        let b := ts.tile tb
        let ok (sparse : Bool) (c : Ctx) (_ : State) : Prop := c.wg.tile = some ts ∧ (∀ b ∈ c.beads, countOf b.tops < 63) ∧ productOk a b sparse = true
          ∧ destOk a (ts.tile td) q.toNat p.toNat = true
        let start (sparse : Bool) (c : Ctx) (s : State) : State :=
          c.startProduct (c.setTiles s (ts.upd td fun d => intoTile ts a b d sparse (sat == 1) q.toNat p.toNat)) [] .addF32 0
        GivesWhen (.tmmab td ta tb sat p q) (ok false) (start false) ∧ GivesWhen (.tmmasb td ta tb sat p q) (ok true) (start true))
    ∧ (∀ ta tb rs scope td sat p q ts i sparse, let a := ts.tile ta
        let b := ts.tile tb
        let held (c : Ctx) : Prop := c.wg.tile = some ts ∧ (∀ b ∈ c.beads, countOf b.tops < 63)
        let base (c : Ctx) : DWord := c.lead.sget rs
        ((i = .tmma ta tb rs scope ∧ sparse = false) ∨ (i = .tmmas ta tb rs scope ∧ sparse = true) →
          GivesWhen i (fun c _ => held c ∧ productOk a b sparse = false) (fun c s => takeTrap c s { code := 0x0D })
          ∧ GivesWhen i (fun c _ => held c ∧ productOk a b sparse = true ∧ canonicalVa (base c) = false) (fun c s => takeTrap c s { code := 0x09, va := base c })
          ∧ GivesWhen i (fun c _ => held c ∧ productOk a b sparse = true ∧ canonicalVa (base c) = true ∧ (base c).toNat % 4 ≠ 0)
            (fun c s => takeTrap c s { code := 0x06, va := base c })
          ∧ ∀ t, GivesWhen i (fun c s => held c ∧ productOk a b sparse = true ∧ canonicalVa (base c) = true ∧ (base c).toNat % 4 = 0
              ∧ 3 ≤ scope.toNat ∧ c.recordsFull s = true ∧ ConfirmFails c s 1 .write (drainTargets (drainWords ts a b sparse (base c))) (c.confVa s .write) t) (fun _ _ => t))
        ∧ ((i = .tmmab td ta tb sat p q ∧ sparse = false) ∨ (i = .tmmasb td ta tb sat p q ∧ sparse = true) →
          GivesWhen i (fun c _ => held c ∧ (productOk a b sparse = false ∨ destOk a (ts.tile td) q.toNat p.toNat = false)) (fun c s => takeTrap c s { code := 0x0D }))
        ∧ (i ∈ [Instr.tmma ta tb rs scope, .tmmas ta tb rs scope, .tmmab td ta tb sat p q, .tmmasb td ta tb sat p q] →
          GivesWhen i (fun c _ => c.wg.tile = some ts ∧ ∃ b ∈ c.beads, 63 ≤ countOf b.tops) (fun c s => c.holdIssue s i)))
    ∧ (∀ (ws : List (DWord × Word)), (drainTargets ws).map (fun (x : Target) => x.lane) = ws.map (fun _ => 0xFF) ∧ (∀ va, (∃ x ∈ drainTargets ws, x.va = va) ↔ ∃ x ∈ ws, x.1 = va)
        ∧ (drainTargets ws).Pairwise (fun x y => x.va.toNat ≤ y.va.toNat))
    ∧ (∀ ts (a b d : Tile) sparse sat q p i n, destOk a d q p = true → q < 8 → d.data.length = 32 → i < 32 → (tFmt d.ctl).width * (n + 1) ≤ 6144 →
        let first := 768 / (tFmt d.ctl).width * q + 32 * p
        rowElem ((intoTile ts a b d sparse sat q p).data.getD i 0) (tFmt d.ctl).width n =
          if i < tRows a.ctl ∧ first ≤ n ∧ n < first + 32 then
            intoFormat (tFmt d.ctl) sat (intPair (tFmt a.ctl)) (productElem ts a b sparse i (n - first)) % 2 ^ (tFmt d.ctl).width
          else rowElem (d.data.getD i 0) (tFmt d.ctl).width n)
    ∧ (∀ ts (a b : Tile) sparse base x, x ∈ drainWords ts a b sparse base ↔ ∃ i j, i < tRows a.ctl ∧ j < tRows b.ctl
        ∧ x = (base + BitVec.ofNat 64 (i * ts.dpitch.toNat + 4 * j), productElem ts a b sparse i j))
    ∧ (∀ ts (a b : Tile) sparse i j, let d := productElem ts a b sparse i j
        let n := nOf (tNsel a.ctl)
        let kept (g : Nat) := ((List.range 128).filter fun p => (a.side.getD i 0).getLsbD (128 * g + p)).length
        let bad : Prop := sparse = true ∧ ∃ g, g < tSlices a.ctl * (768 / (tFmt a.ctl).width / n) ∧ kept g ≠ n
        (tRows a.ctl ≤ i ∨ tRows b.ctl ≤ j → d = 0)
        ∧ (i < tRows a.ctl → j < tRows b.ctl → bad → d = if intPair (tFmt a.ctl) then 0x80000000 else 0x7FC00000)
        ∧ (i < tRows a.ctl → j < tRows b.ctl → ¬bad → intPair (tFmt a.ctl) = false →
          SlicesTo ((List.range (tSlices a.ctl)).map fun k => (termsOf a sparse i k).map fun x => (a.value ts i x.1, b.value ts j x.2)) d.toNat)
        ∧ (i < tRows a.ctl → j < tRows b.ctl → ¬bad → intPair (tFmt a.ctl) = true → pairOk (tFmt a.ctl) (tFmt b.ctl) = true →
          ∀ z : Int, (z : Rat) = (((List.range (tSlices a.ctl)).flatMap fun k => (termsOf a sparse i k).map fun x =>
              (((a.value ts i x.1).num.getD 0) * ((b.value ts j x.2).num.getD 0) : Rat)).sum) → d = BitVec.ofInt 32 z))
    ∧ (∀ ts (t : Tile) i n, let e := tFmt t.ctl
        let v := e.val (ts.cbs.get (tCb t.ctl)) ((t.data.getD i 0).extractLsb' (e.width * n) e.width).toNat
        let scale := ((t.side.getD i 0).extractLsb' (8 * (n / 32)) 8).toNat
        if e = .mx8 ∨ e = .mx4 then (scale = 255 ∨ v = .nan → t.value ts i n = .nan)
          ∧ ∀ q, v.num = some q → scale ≠ 255 → (t.value ts i n).num = some (q * (2 : Rat) ^ ((scale : Int) - 127)) ∧ (t.value ts i n).sign = v.sign
        else t.value ts i n = v)
    ∧ ∀ id s p, s.prods.find? (·.id == id) = some p → ((unitProducts s p.tower p.col p.tier).head?.map (·.id)) = some id →
      ∃ t, exec (.matrixProductComplete id) s = .next t ∧ t.hbm = s.hbm ∧ t.stores = s.stores ∧ t.launches = s.launches
      ∧ t.prods.map (·.id) = (s.prods.filter (·.id != id)).map (·.id)
      ∧ t.gangs = (s.mapBeads fun b => { b with tops := completeOp id b.tops }).gangs
      ∧ t.reds.take s.reds.length = s.reds
      ∧ (t.reds.drop s.reds.length).map (fun r => (r.va, r.value, r.op, r.scope)) = p.drains.map fun x => (x.1, x.2.setWidth 64, p.op, p.scope)

/-- R262 to R264 and R134; a row total is that of R84 over exact numbers (SlicesTo). That a release and a later acquire, whatever word links them, stand for happens-before is the model's choice (log 97); what is waited for is fixed when the BFENCE issues (log 18). -/
def Obligations.BankCommandsRun : Prop :=
  (∀ d a scope geo, let g (c : Ctx) := BankGeo.ofReg (c.lead.sget geo)
        GivesWhen (.bgemv d a scope geo) (fun c s => bankOk (g c) scope (c.lead.sget a) (c.lead.sget d) = true
          ∧ (wfElem (g c).wf = .c4 → c.wg.tile ≠ none) ∧ c.scrTrap s (g c).xoff (g c).xBytes 16 .load = none ∧ bgemvCount s c.tower c.col < 16)
        (fun c s => State.fresh (c.waitAt { s with bgemvs := s.bgemvs ++ [{ id := s.nextId, gang := c.g.id, launch := c.l.id, member := c.cur.member, home := c.lead.home, pos := c.lead.pos, w := c.wg.w, tower := c.tower, col := c.col, asid := c.asid, weight := c.lead.sget a, rows := (g c).rows, k := (g c).k, wf := (g c).wf, xf := (g c).xf, x := c.scrRead s (g c).xoff (g c).xBytes, cb := c.codebook (g c).cb, dest := c.lead.sget d, scope, confirmed := false, frames := [], next := 0 }] }
          (.bgemv d a scope geo) fun _ => some { plainWait .bank s (s.tower c.tower).time with addr := BitVec.ofNat 64 s.nextId }))
        ∧ GivesWhen (.bgemv d a scope geo) (fun c _ => bankOk (g c) scope (c.lead.sget a) (c.lead.sget d) = false)
          (fun c s => takeTrap c s { code := 0x11, va := c.lead.sget a })
        ∧ (let legal (c : Ctx) : Prop := bankOk (g c) scope (c.lead.sget a) (c.lead.sget d) = true
          let book (c : Ctx) : Prop := wfElem (g c).wf = .c4 → c.wg.tile ≠ none
          let trap (c : Ctx) (s : State) := c.scrTrap s (g c).xoff (g c).xBytes 16 .load
          GivesWhen (.bgemv d a scope geo) (fun c _ => legal c ∧ ¬book c) (fun c s => takeTrap c s { code := 0x0D })
          ∧ (∀ t, GivesWhen (.bgemv d a scope geo) (fun c s => legal c ∧ book c ∧ trap c s = some t) (fun c s => takeTrap c s t))
          ∧ GivesWhen (.bgemv d a scope geo) (fun c s => legal c ∧ book c ∧ trap c s = none ∧ 16 ≤ bgemvCount s c.tower c.col)
            (fun c s => c.holdIssue s (.bgemv d a scope geo))))
    ∧ (∀ id s b cu c, s.bgemvs.find? (·.id == id) = some b →
        findGroup s (fun b => b.wait.any fun w => w.kind == .bank && w.addr.toNat == id) = some cu → State.ctx? { s with cur := some cu } = some c →
        let s0 : State := { s with cur := some cu }
        let dropped : State := { s0 with bgemvs := s0.bgemvs.filter (·.id != b.id) }
        let conf (va : DWord) : Conf := confAtHome s0 c.asid va .bank
        (∀ i, 16 ≤ bgemvCount s c.tower c.col → c.lead.held = some i → exec (.bgemvConfirm id) s = .next (offTurn (c.holdIssue
          (dropped.updGrp c.cur fun x => { x with wait := none }) i)))
        ∧ (bgemvCount s c.tower c.col < 16 → (∀ t, ConfirmFails c dropped 3 .bank ((weightVas b).map fun va => { lane := 0xFF, va }) conf t → exec (.bgemvConfirm id) s = .next (offTurn t))
        ∧ ∀ hit : DWord → Hit, (∀ va ∈ weightVas b, conf va = .ok (hit va)) →
          ((∃ va ∈ weightVas b, (hit va).attr.bfmt ≠ b.wf ∨ homeOf va ≠ homeOf b.weight) →
            exec (.bgemvConfirm id) s = .next (offTurn (takeTrap c dropped { code := 0x11, va := b.weight })))
          ∧ ∀ t, (∀ va ∈ weightVas b, (hit va).attr.bfmt = b.wf ∧ homeOf va = homeOf b.weight) → c.recordsFull s0 = true →
            ConfirmFails c dropped 3 .write (bankTargets b) (c.confVa s0 .write) t → exec (.bgemvConfirm id) s = .next (offTurn t)))
    ∧ (∀ (t : Four) col s, bgemvCount s t col = (((s.bgemvs.filter fun b => b.confirmed && b.tower == t && b.col == col).map (·.id)
        ++ (s.reds.filter fun r => r.tower == t && r.col == col).filterMap (·.bgemv)).eraseDups).length)
    ∧ (∀ ids, let left (s : State) (ids : List Nat) : Prop := (∃ r ∈ s.stores, r.id ∈ ids) ∨ ∃ t, ∃ b ∈ (s.tower t).bank, b.stamp ∈ ids
        GivesWhen .bfence (fun c s => (∃ w, c.lead.wait = some w ∧ w.kind = .fence ∧ w.ids = ids) ∧ left s ids) (fun c s => c.hold s .bfence .fence)
        ∧ GivesWhen .bfence (fun c s => (∃ w, c.lead.wait = some w ∧ w.kind = .fence ∧ w.ids = ids) ∧ ¬left s ids) (fun c s => c.done s)
        ∧ GivesWhen .bfence (fun c s => (∀ w, c.lead.wait = some w → w.kind ≠ .fence) ∧ c.bankBefore s = ids ∧ left s ids) (fun c s => State.fresh (c.waitAt s .bfence fun _ =>
            some { plainWait .fence s (s.tower c.tower).time with ids := ids }))
        ∧ GivesWhen .bfence (fun c s => (∀ w, c.lead.wait = some w → w.kind ≠ .fence) ∧ ¬left s (c.bankBefore s)) (fun c s => c.done s))
    ∧ (∀ (c : Ctx) s x, x ∈ c.bankBefore s ↔ (∃ t, ∃ b ∈ (s.tower t).bank, b.stamp = x)
        ∨ ∃ r ∈ s.stores, r.id = x ∧ r.attr.bank = true
          ∧ ((r.gang = c.g.id ∧ r.member = c.cur.member ∧ ∃ b ∈ c.beads, b.home = r.home ∧ b.pos = r.pos)
            ∨ ∃ g ∈ s.gangs, g.id = r.gang ∧ ∃ w ∈ g.members, w.pos = r.member ∧ ∃ b ∈ w.beads, b.home = r.home ∧ b.pos = r.pos
              ∧ r.id < b.rel ∧ ∃ y ∈ c.beads, b.rel ≤ y.acq))
    ∧ (∀ id s b cu c (hit : DWord → Hit), s.bgemvs.find? (·.id == id) = some b →
        findGroup s (fun b => b.wait.any fun w => w.kind == .bank && w.addr.toNat == id) = some cu → State.ctx? { s with cur := some cu } = some c →
        (∀ va ∈ weightVas b, confAtHome { s with cur := some cu } c.asid va .bank = .ok (hit va) ∧ (hit va).attr.bfmt = b.wf ∧ homeOf va = homeOf b.weight) →
        c.recordsFull { s with cur := some cu } = false → bgemvCount s c.tower c.col < 16 →
        exec (.bgemvConfirm id) s = .next (offTurn (c.done { s with
          cur := some cu
          bgemvs := s.bgemvs.map fun x => if x.id == b.id then
            { x with confirmed := true, frames := (weightVas b).map fun va => ((lineOf va).toNat / 65536, (hit va).pa / 65536 * 65536) } else x })))
    ∧ (∀ s (b : Bgemv) r, let we := wfElem b.wf
        let xe := xfElem b.xf
        let at0 := b.weight.toNat + r * ((b.k * we.width + 1023) / 1024 * 128)
        let bytes := (List.range ((b.k * we.width + 7) / 8)).map fun j =>
          ((b.frames.find? (·.1 == (at0 + j) % 2 ^ 64 / 65536)).map fun f => s.hbm.get (f.2 + (at0 + j) % 65536)).getD Memory.blank
        let per := 768 / we.width
        SlicesTo ((List.range ((b.k + per - 1) / per)).map fun q => (List.range (min per (b.k - q * per))).map fun n =>
          (we.val b.cb (leNat bytes / 2 ^ (we.width * (q * per + n)) % 2 ^ we.width),
           xe.val 0 (leNat b.x / 2 ^ (xe.width * (q * per + n)) % 2 ^ xe.width))) (rowTotal s b r).toNat)
    ∧ (∀ w : BitVec 2, wfElem w = [Elem.e4m3, .e2m1, .c4, .bf16].getD w.toNat .bf16 ∧ (w.toNat < 3 → xfElem w = [Elem.bf16, .e4m3, .e2m1].getD w.toNat .bf16))
    ∧ ∀ id s b, s.bgemvs.find? (·.id == id) = some b → b.confirmed = true →
      ∃ t, exec (.bgemvRowDeliver id) s = .next t ∧ t.hbm = s.hbm ∧ t.towers = s.towers ∧ t.gangs = s.gangs
      ∧ (∃ r, t.reds = s.reds ++ [r] ∧ r.va = b.dest + BitVec.ofNat 64 (4 * b.next) ∧ r.op = .addF32 ∧ r.scope = b.scope
        ∧ r.value = (rowTotal s b b.next).setWidth 64 ∧ r.bgemv = some id)
      ∧ (b.rows ≤ b.next + 1 → t.bgemvs = s.bgemvs.filter (·.id != id))
      ∧ (b.next + 1 < b.rows → t.bgemvs = s.bgemvs.map fun x => if x.id == id then { x with next := x.next + 1 } else x)

/-- R268 to R271, R273, R274, R276 and R277; the offer of what an RREL frees is R299. -/
def Obligations.SystemWordsAct : Prop :=
  (∀ d a call, GivesWhen (.trap d a call) (fun c s => c.released s 5 = true) (fun c s => takeTrap c (c.noteRelease s) { code := 0x20, call, args := some a, dst := d })
      ∧ GivesWhen (.trap d a call) (fun c s => c.released s 5 = false) (fun c s => c.holdIssue s (.trap d a call))
      ∧ GivesWhen (.brk call) (fun c s => c.released s 5 = true) (fun c s => takeTrap c (c.noteRelease s) { code := 0x21, call })
      ∧ GivesWhen (.brk call) (fun c s => c.released s 5 = false) (fun c s => c.holdIssue s (.brk call)))
    ∧ (∀ (bl : BitVec 7), let s1 (c : Ctx) (s : State) := serveCore s c.tower c.col c.wg.tier
      GivesWhen (.racqWait bl) (fun c s => (∀ w, c.lead.wait = some w → w.kind ≠ .racq) ∧ c.blocks &&& blocksOf bl = 0 ∧ bl ≠ 0 ∧ c.racqFits (s1 c s) bl = true)
        (fun c s => c.done (grantBlocks (s1 c s) c.g.id c.cur.member c.lead.home (blocksOf bl)))
      ∧ GivesWhen (.racqWait bl) (fun c s => (∀ w, c.lead.wait = some w → w.kind ≠ .racq) ∧ c.blocks &&& blocksOf bl = 0 ∧ bl ≠ 0 ∧ c.racqFits (s1 c s) bl = false)
        (fun c s => c.hold (setCore (s1 c s) c.tower c.col c.wg.tier fun x => { x with racq := (x.racq.filter (· != c.strandKey)) ++ [c.strandKey] }) (.racqWait bl) .racq)
      ∧ GivesWhen (.racqWait bl) (fun c _ => (∀ w, c.lead.wait = some w → w.kind ≠ .racq) ∧ c.blocks &&& blocksOf bl ≠ 0) (fun c s => takeTrap c s { code := 0x0F, reg := 0xFF })
      ∧ (∀ d, GivesWhen (.racqTry d bl) (fun c s => c.blocks &&& blocksOf bl = 0 ∧ bl ≠ 0 ∧ c.racqFits (s1 c s) bl = true)
          (fun c s => c.done (c.setPredAll (grantBlocks (s1 c s) c.g.id c.cur.member c.lead.home (blocksOf bl)) d true))
        ∧ GivesWhen (.racqTry d bl) (fun c s => c.blocks &&& blocksOf bl = 0 ∧ bl ≠ 0 ∧ c.racqFits (s1 c s) bl = false)
          (fun c s => c.done (c.setPredAll (s1 c s) d false)))
      ∧ GivesWhen (.rrel bl) (fun c _ => blocksOf bl &&& ~~~c.blocks = 0 ∧ pendingBlocks c.wg c.lead.home (blocksOf bl) = none) (fun c s =>
          offer (serveCore (c.done (s.updWg c.cur.gang c.cur.member fun w => { w with strands := w.strands.map fun st =>
            if st.id == c.lead.home then { st with blocks := st.blocks &&& ~~~blocksOf bl } else st })) c.tower c.col c.wg.tier) c.tower (some c.col))
      ∧ GivesWhen (.racqWait bl) (fun c _ => ∃ w, c.lead.wait = some w ∧ w.kind = .racq) (fun c s => s1 c s)
      ∧ GivesWhen (.racqWait 0) (fun c _ => (∀ w, c.lead.wait = some w → w.kind ≠ .racq)) (fun c s => c.done (s1 c s))
      ∧ (∀ d, GivesWhen (.racqTry d 0) (fun _ _ => True) (fun c s => c.done (c.setPredAll (s1 c s) d true))
        ∧ GivesWhen (.racqTry d bl) (fun c _ => c.blocks &&& blocksOf bl ≠ 0) (fun c s => takeTrap c s { code := 0x0F, reg := 0xFF }))
      ∧ (∀ r, GivesWhen (.rrel bl) (fun c _ => blocksOf bl &&& ~~~c.blocks = 0 ∧ pendingBlocks c.wg c.lead.home (blocksOf bl) = some r)
          (fun c s => takeTrap c s { code := 0x05, reg := BitVec.ofNat 8 r }))
      ∧ GivesWhen (.rrel bl) (fun c _ => blocksOf bl &&& ~~~c.blocks ≠ 0) (fun c s => takeTrap c s { code := 0x0F, reg := 0xFF }))
    ∧ (∀ d us, let lease (c : Ctx) (s : State) (r : Option Nat) : State := s.updWg c.cur.gang c.cur.member fun w => { w with lease := r }
      GivesWhen (.boost d us) (fun _ _ => us = 0) (fun c s => c.done (c.setPredAll (lease c s none) d true))
      ∧ GivesWhen (.boost d us) (fun c s => us ≠ 0 ∧ boostGranted s c = true) (fun c s => c.done (c.setPredAll (lease c s (some (us.toNat * 1000))) d true))
      ∧ GivesWhen (.boost d us) (fun c s => us ≠ 0 ∧ boostGranted s c = false) (fun c s => c.done (c.setPredAll s d false)))
    ∧ (∀ valid, Gives (.wmark valid) fun c s => c.done (s.updWg c.cur.gang c.cur.member fun w => { w with valid := valid == 1 }))
    ∧ ∀ d, Gives (.clk d) (fun c s => c.eachBead s fun b => b.sset d (BitVec.ofNat 64 (c.wg.resNs * 165 / 100)))
      ∧ Gives (.time d) fun c s => c.eachBead s fun b => b.sset d (BitVec.ofNat 64 (s.tower c.tower).time)

/-- The table of R275, read at issue, bead by bead. -/
def Obligations.DlrReadsTheTimeLeft : Prop :=
  (∀ d, Gives (.dlr d) fun c s => c.eachBead s fun b => b.sset d
        (if c.l.deadline = 0 then 0x7FFFFFFFFFFFFFFF
         else if b.diverted then c.l.deadline - BitVec.ofNat 64 (s.tower c.tower).time
         else c.l.deadline - c.l.wrapBudget.setWidth 64 - BitVec.ofNat 64 (s.tower c.tower).time))
    ∧ ∃ (l : Launch) (now : Nat) (b : Bead), b.diverted = false ∧ l.deadline ≠ 0 ∧ (dlrValue l now b).toInt ≤ 0

/-- The one operation that takes a trap (R266, R267, R318, R319, R332, R333). Three clauses are the model's readings: that the beads of every home strand of a restrung group stop (log 13), that a RESUME goes on at the word after the one at which the unit trapped, the second argument of the record (log 31), and that the workgroup counts as faulted at the trap itself (log 33). -/
def Obligations.TakingATrapStopsTheStrand : Prop :=
  (∀ (c : Ctx) s q pc next, q.code ≠ 0x0A → let t := takeTrapAt c s q pc next
      let cover := c.l.divertOnTrap && q.code != 0x20 && q.code != 0x21
      t.hbm = s.hbm ∧ t.launches = s.launches ∧ t.stores = s.stores ∧ t.reds = s.reds ∧ t.spaces = s.spaces ∧ t.nextId = s.nextId + 1
      ∧ (∀ u, u ≠ c.g.tower → t.tower u = s.tower u)
      ∧ (∃ r, t.tower c.g.tower = { s.tower c.g.tower with trapq := { (s.tower c.g.tower).trapq with held := (s.tower c.g.tower).trapq.held ++ [r] } }
        ∧ r.id = s.nextId ∧ r.code = q.code ∧ r.bytes = trapBytes c s q pc ∧ r.pc = next ∧ r.launch = c.l.id ∧ r.gang = c.g.id
        ∧ r.member = c.cur.member ∧ r.homes = homesOf c.beads ∧ r.dst = q.dst ∧ r.awaits = !cover
        ∧ r.divert = (cover && !c.lead.diverted) ∧ r.strand = if cover then some c.lead.diverted else none)
      ∧ t.gangs = (s.updWg c.cur.gang c.cur.member fun w => { w with
          beads := w.beads.map fun b => if (homesOf c.beads).contains b.home then b.stopFor s.nextId c.cur.grp q.code (s.tower c.g.tower).time else b
          faulted := w.faulted || cover }).gangs)
    ∧ (∀ (b : Bead) trap grp code now, let x := b.stopFor trap grp code now
      let used := match b.park with | some p => p.used | none => now - b.lastIssue
      (b.live = true → b.grp = grp → x.stop = some { trap, own := true, code, used := used, reply := none }
        ∧ x.pc = b.pc - BitVec.ofNat 64 (4 * b.pfx.length) ∧ x.pfx = [] ∧ x.held = none)
      ∧ (b.live = true → b.grp ≠ grp → x.stop = (if b.stop.isSome then b.stop else some { trap, own := false, code, used := used, reply := none })
        ∧ x.pc = b.pc ∧ x.pfx = b.pfx ∧ x.held = b.held ∧ x.wait = b.wait)
      ∧ x.s = b.s ∧ x.lanes = b.lanes ∧ x.active = b.active ∧ x.stack = b.stack ∧ x.fmt = b.fmt ∧ x.lops = b.lops ∧ x.pendV = b.pendV
      ∧ x.dpc = b.dpc ∧ x.why = b.why ∧ (b.live = false → x = b))
    ∧ (∀ c s q, takeTrap c s q = takeTrapAt c s q (c.lead.pc - BitVec.ofNat 64 (4 * c.lead.pfx.length)) (c.lead.pc + 4))
    ∧ ∀ (c : Ctx) s q pc, let r := trapBytes c s q pc
      let bit (n k : Nat) : Bool := decide (n / 2 ^ k % 2 = 1)
      r.length = 128 ∧ field r 0 1 = q.code.toNat
      ∧ (bit (field r 1 1) 0 = q.marker ∧ bit (field r 1 1) 1 = q.sreg ∧ bit (field r 1 1) 2 = (q.code == 0x0A) ∧ bit (field r 1 1) 3 = c.lead.diverted)
      ∧ field r 2 1 = q.lane.toNat ∧ field r 3 1 = q.reg.toNat ∧ field r 4 1 = q.origin.toNat
      ∧ (∀ k, k < 8 → bit (field r 5 1) k = c.beads.any (·.pos == k)) ∧ field r 6 2 = q.call.toNat
      ∧ field r 8 8 = pc.toNat ∧ field r 0x10 8 = q.va.toNat ∧ field r 0x18 8 = (s.tower c.g.tower).time
      ∧ field r 0x20 4 = c.wg.w % 2 ^ 32 ∧ field r 0x24 2 = c.lead.home % 2 ^ 16 ∧ field r 0x26 1 = c.g.tower.val
      ∧ field r 0x27 1 = c.g.col % 2 ^ 8 ∧ field r 0x28 1 = c.wg.tier.val ∧ field r 0x2A 2 = c.l.asid.toNat
      ∧ field r 0x2C 2 = c.l.slot % 2 ^ 16 ∧ field r 0x2E 2 = nodeIndex s c.l % 2 ^ 16
      ∧ (∀ k a b, k < 8 → q.code = 0x20 → q.args = some a → c.beads.find? (·.pos == k) = some b → field r (0x40 + 8 * k) 8 = (b.sget a).toNat)
      ∧ ∀ k, k < 8 → q.code ≠ 0x20 ∨ c.beads.find? (·.pos == k) = none → field r (0x40 + 8 * k) 8 = 0

/-- R272, R329, R330, R331 and the three steps of R345. The model's choices: the watchdog bounds a wait at CLASP (log 73) and leaves a VATOM under way (log 15); a BAR or GBAR resumed after 0x3F keeps the record of its arrival (log 88); a parked or stopped bead whose record waits for room is diverted or killed at once (log 87). -/
def Obligations.StoppedAndParkedBeadsGoOn : Prop :=
  (∀ t va s s1 block index r, let s0 := s.updTower t fun tw => { tw with trapq := { tw.trapq with reply := va } }
      replyBlock s0 t va = some (s1, block) →
      (s1.tower t).trapq.waiting.find? (·.1 == BitVec.ofNat 32 (field block 0 4)) = some (index, r) → recordKilled s1 t r = false →
      let s2 := s1.updTower t fun tw => { tw with trapq := { tw.trapq with waiting := tw.trapq.waiting.filter (·.1 != BitVec.ofNat 32 (field block 0 4)) } }
      (field block 8 1 = 1 → exec (.resume t va) s = .next (resumeStrand s2 t r block))
      ∧ (field block 8 1 = 2 → exec (.kill t va) s = .next (killLaunch .host s2 r.launch))
      ∧ (field block 8 1 = 3 → exec (.divert t va) s = .next (divertReply s2 t r)))
    ∧ (∀ s t (r : RingRec) block g l, s.gang? r.gang = some g → s.launch? r.launch = some l →
      let val (b : Bead) : DWord := BitVec.ofNat 64 (field block (0x40 + 8 * b.pos) 8)
      (g.resident = true → resumeStrand s t r block = ((if r.code = 0x20 ∨ r.code = 0x21 then Machine.acquire s g.tower g.col l.asid 5 else s).mapStrand r.gang r.id
          fun other b => (if r.code = 0x20 ∨ r.code = 0x21 then { b with acq := s.nextId } else b).resumed l r.id r.dst (val b) r.pc other (s.tower t).time))
      ∧ (g.resident = false → resumeStrand s t r block = s.mapTrapped r.gang r.id fun b =>
          { b with stop := b.stop.map fun st => { st with reply := some (.resume (val b) r.dst r.pc) } }))
    ∧ (∀ (b : Bead) st l dst val pc other now, b.stop = some st → b.divertDue = none →
      let x := b.resumed l st.trap dst val pc other now
      x.stop = other.map (fun (o : Stop) => { o with own := false, used := st.used, reply := none })
      ∧ (st.own = true → st.code ≠ 0x10 → x.pc = pc ∧ x.pfx = [] ∧ x.held = none
        ∧ x.wait = if st.code = 0x3F then b.wait.filter (fun w => w.kind == .bar || w.kind == .gbar) else none)
      ∧ (st.own = true → st.code = 0x10 → x.pc = pc - 4 ∧ x.held = some (.settle (dst.setWidth 3)))
      ∧ (st.own = true → st.code = 0x20 → dst ≠ 0 → x.sget dst = val) ∧ (st.own = true → st.code ≠ 0x20 → x.s = b.s)
      ∧ (st.own = false → x.pc = b.pc ∧ x.s = b.s ∧ x.held = b.held ∧ x.wait = b.wait) ∧ x.lanes = b.lanes ∧ x.active = b.active
      ∧ x.lastIssue = (if st.own = true ∧ st.code = 0x3F then now else now - st.used))
    ∧ (∀ t index s i r, (s.tower t).fltq.waiting.find? (·.1 == index) = some (i, r) →
      let s1 (k : BitVec 2) := (s.updTower t fun tw => { tw with fltq := { tw.fltq with reply := (k ++ index).setWidth 64 } }).updTower t fun tw =>
        { tw with fltq := { tw.fltq with waiting := tw.fltq.waiting.filter (·.1 != index) } }
      exec (.retry t index) s = .next (retryRecord (s1 0) r.id) ∧ exec (.fail t index) s = .next (failRecord (s1 1) r.id))
    ∧ (∀ s id, retryRecord s id = releaseParks { markParks s id (fun p => { p with replay := true }) with
          gangs := (markParks s id fun p => { p with replay := true }).gangs.map fun g =>
            { g with copies := g.copies.map fun p => if p.hold.any (·.1 == id) && !p.again then { p with hold := none, again := false } else p } }
        ∧ failRecord s id = releaseParks (((markParks s id fun p => { p with fail := true }).gangs.flatMap fun g => g.copies.map fun p => (g, p)).foldl
          (failCopy id) (markParks s id fun p => { p with fail := true })))
    ∧ (∀ s g (p : Park), p.freed s g = true ↔ (p.replay = true ∨ p.fail = true) ∧ (s.tower g.tower).trapq.anyWaits (·.id == p.trap) = false
        ∧ (s.tower g.tower).fltq.anyWaits (·.id == p.record) = false)
    ∧ (∀ (p : Copy), p.saved = { p with again := p.hold.isSome } ∧ ∀ s t, p.resumed s t =
        if p.again = true ∧ (∀ h, p.hold = some h → (s.tower t).fltq.anyWaits (·.id == h.1) = false) then { p with hold := none, again := false } else p)
    ∧ (∀ s cu c p, let s0 : State := { s with cur := some cu }
      s0.ctx? = some c → c.lead.park = some p →
      (p.fail = true → releasePark s cu = offTurn (takeTrapAt c (c.onGrp s0 (Bead.unpark (s.tower c.tower).time)) { code := 0x09, va := p.va, lane := p.lane } p.pc p.next))
      ∧ (p.fail = false → releasePark s cu = offTurn (c.onGrp s0 (Bead.unpark (s.tower c.tower).time))))
    ∧ (∀ (b : Bead) now p, b.park = some p → b.unpark now = { b with park := none, lastIssue := now - p.used })
    ∧ (∀ gang member grp s c, let s0 : State := { s with cur := some { gang, member, grp, resv := false } }
      s0.ctx? = some c → c.lead.stop = none → c.lead.park = none →
      c.lead.lastIssue + (s.tower c.tower).watchdogMs * 1000000 ≤ (s.tower c.tower).time →
      ((∀ w, c.lead.wait = some w → w.hits = []) → exec (.watchdog gang member grp) s = .next (offTurn (takeTrapAt c (c.leaveBank s0) { code := 0x3F } c.upc c.upc)))
      ∧ ((∃ w, c.lead.wait = some w ∧ w.hits ≠ []) → exec (.watchdog gang member grp) s = .next (offTurn s0)))
    ∧ (∀ (c : Ctx) s, ((∀ w, c.lead.wait = some w → w.kind ≠ .bank) → c.leaveBank s = s)
      ∧ ∀ w, c.lead.wait = some w → w.kind = .bank → c.leaveBank s = { s with bgemvs := s.bgemvs.filter fun b => b.id != w.addr.toNat })
    ∧ (∀ (l : Launch) (d : DivertDue) (b : Bead) now, let x := b.divert l d now
      x.pc = l.code + l.wrapEntry.setWidth 64 ∧ x.dpc = b.pc - BitVec.ofNat 64 (4 * b.pfx.length) ∧ x.diverted = true
      ∧ x.why.extractLsb' 0 4 = d.cause ∧ x.why.extractLsb' 4 4 = d.wait ∧ x.why.getLsbD 8 = d.restored ∧ x.why.extractLsb' 9 23 = 0
      ∧ x.pfx = [] ∧ x.held = none ∧ x.wait = none ∧ x.stop = none ∧ x.park = none ∧ x.divertDue = none
      ∧ x.lanes = b.lanes ∧ x.active = b.active ∧ x.stack = b.stack ∧ x.fmt = b.fmt ∧ x.lops = b.lops ∧ x.pendV = b.pendV
      ∧ ((∀ w, b.wait = some w → w.kind ≠ .wpop) → x.s = b.s)
      ∧ ∀ w, b.wait = some w → w.kind = .wpop → w.dst ≠ 0 → x.sget w.dst = BitVec.allOnes 64)
    ∧ (∀ (l : Launch) cause restored now (b : Bead), b.live = true → b.diverted = false → b.divertDue = none →
      let d : DivertDue := { cause, restored, wait := whyWait b }
      (b.stop = none → b.atBoundary = true → b.divertSoon l cause restored now = b.divert l d now)
      ∧ (b.stop ≠ none ∨ b.atBoundary = false → b.divertSoon l cause restored now = { b with divertDue := some d }))
    ∧ ∀ (b : Bead), (b.stop ≠ none → whyWait b = 8) ∧ (b.stop = none → b.park ≠ none → whyWait b = 9)
      ∧ (b.stop = none → b.park = none → b.wait = none → whyWait b = 0)
      ∧ ∀ w, b.stop = none → b.park = none → b.wait = some w → whyWait b = (match w.kind with
        | .bar | .barw => 1 | .gbar => 2 | .sigw => 3 | .wpop => 4 | .cwait => 5 | .racq => 6 | .clasp => 7 | _ => 0)

/-- R326 for the trap ring and the fault ring, with the interrupt bits of R355; R332 and R333 for a covered trap. That a ring which is not configured holds nothing back is log 33. -/
def Obligations.RecordsReachTheirRings : Prop :=
  (∀ t s c x rest, (s.tower t).trapq.cfg = some c → (s.tower t).trapq.held = x :: rest → (s.tower t).trapq.blocked = false →
      ((s.tower t).trapq.prod - (s.tower t).trapq.cons).toNat < 2 ^ c.rlog →
      let r := (s.tower t).trapq
      let va := c.base + BitVec.ofNat 64 (128 * (r.prod.toNat % 2 ^ c.rlog))
      (rangeFault s c.asid va 128 .write true = none → exec (.trapRecordWrite t) s = .next (strandOut (raiseIrq ((sysWrite s c.asid va x.bytes).updTower t fun tw =>
          { tw with trapq := { r with held := rest, prod := r.prod + 1, waiting := if x.awaits then r.waiting ++ [(r.prod, x)] else r.waiting } }) t 1) t x))
      ∧ (rangeFault s c.asid va 128 .write true ≠ none → exec (.trapRecordWrite t) s = .next (s.updTower t fun tw =>
          { tw with trapq := { r with ringErr := true, blocked := true } })))
    ∧ (∀ t s c x rest, (s.tower t).fltq.cfg = some c → (s.tower t).fltq.held = x :: rest → (s.tower t).fltq.blocked = false →
      ((s.tower t).fltq.prod - (s.tower t).fltq.cons).toNat < 2 ^ c.rlog →
      let r := (s.tower t).fltq
      let va := c.base + BitVec.ofNat 64 (64 * (r.prod.toNat % 2 ^ c.rlog))
      (rangeFault s c.asid va 64 .write true = none → exec (.faultRecordWrite t) s = .next (raiseIrq ((sysWrite s c.asid va x.bytes).updTower t fun tw =>
          { tw with fltq := { r with held := rest, prod := r.prod + 1, waiting := if x.awaits then r.waiting ++ [(r.prod, x)] else r.waiting } }) t 2))
      ∧ (rangeFault s c.asid va 64 .write true ≠ none → exec (.faultRecordWrite t) s = .next (s.updTower t fun tw =>
          { tw with fltq := { r with ringErr := true, blocked := true } })))
    ∧ (∀ t v s, let w : Word := v.setWidth 32
      (exec (.trapqConsWrite t v) s = .next (s.updTower t fun tw => { tw with trapq :=
        if (w - tw.trapq.cons).toNat ≤ (tw.trapq.prod - tw.trapq.cons).toNat then { tw.trapq with cons := w } else { tw.trapq with badCons := true } }))
      ∧ (exec (.fltqConsWrite t v) s = .next (s.updTower t fun tw => { tw with fltq :=
        if (w - tw.fltq.cons).toNat ≤ (tw.fltq.prod - tw.fltq.cons).toNat then { tw.fltq with cons := w } else { tw.fltq with badCons := true } })))
    ∧ (∀ s t (k : Fin 5), ((raiseIrq s t k.val).tower t).irq.getLsbD k.val = true ∧ (∀ j, j ≠ k.val → ((raiseIrq s t k.val).tower t).irq.getLsbD j = (s.tower t).irq.getLsbD j)
      ∧ ((raiseIrq s t k.val).tower t).sent = (if (s.tower t).irq.getLsbD k.val = true then (s.tower t).sent else (s.tower t).sent ++ [k.val])
      ∧ (raiseIrq s t k.val).hbm = s.hbm ∧ (raiseIrq s t k.val).gangs = s.gangs)
    ∧ (∀ s t (r : RingRec), (r.strand = none → strandOut s t r = s)
      ∧ ∀ again, r.strand = some again → ((s.launch? r.launch).any fun l => (l.towers.get t).killed.isSome) = false →
        (again = true → strandOut s t r = s.updWg r.gang r.member fun w => { w with beads := w.beads.map fun b =>
            if b.home ∈ r.homes then { b with dying := true, stop := none } else b })
        ∧ (again = false → strandOut s t r = divertStrand s r 2 false))
    ∧ (∀ s (r : RingRec) cause again g l, s.gang? r.gang = some g → s.launch? r.launch = some l →
      (g.resident = true → g.saving = false → divertStrand s r cause again = s.mapStrand r.gang r.id fun other b =>
        b.divertStopped l r.id cause g.wrapBack again other (s.tower g.tower).time)
      ∧ (g.resident = false ∨ g.saving = true → divertStrand s r cause again = s.mapTrapped r.gang r.id fun b =>
        { b with stop := b.stop.map fun st => { st with reply := some (.divert cause) } }))
    ∧ ∀ s t id r, (s.tower t).trapq.held.find? (·.id == id) = some r → r.divert = true → r.strand = none →
      settleTrap t s id = divertLaunch 2 .device (s.updTower t fun tw => { tw with trapq := { tw.trapq with
        held := tw.trapq.held.map fun r => if r.id == id then { r with divert := false } else r } }) r.launch t

/-- The steps of the launch hardware on launches and gangs (R46, R53, R57, R65, R66, R68, R128, R235, R297, R298, R300, R331, R335, R338, R343 to R345, R347, R349, R351 to R353). That the launch for which a column was cleared is offered it first, before all launches (afterSave), is the model's choice of log 48; that nothing is charged to a refused launch is log 47; which of two diversions counts as first where the clocks of two towers meet is log 84. -/
def Obligations.LaunchesArePlacedParkedAndRetired : Prop :=
  (∀ t queue ctr s q n, NodeTurn 1 t queue ctr s q n →
        exec (.launch t queue ctr) s = .next (acceptLaunch (startNode s t q n) { t, q, ctr := n.ctr, bytes := n.bytes }))
    ∧ (∀ s (a : Accepting), field a.bytes 0x20 8 % 256 = 0 → field a.bytes 0x40 8 % 8 = 0 → field a.bytes 0x60 8 % 128 = 0 →
        let h := completionHit s a.q.asid a.bytes
        (launchReads s a.q.asid a.bytes = none → acceptLaunch s a = refuseLaunch s a h 1)
        ∧ ∀ s1 r, launchReads s a.q.asid a.bytes = some (s1, r) →
          let l := buildLaunch s1 a r (h.getD { pa := 0, attr := attrOf 0 }) (mapOf a r.map)
          (∀ code, launchRefusal s1 a r h l = some code → acceptLaunch s a = refuseLaunch s1 a h code)
          ∧ (launchRefusal s1 a r h l = none → acceptLaunch s a = takeLaunch s1 a l))
    ∧ (∀ t launch s l, s.launch? launch = some l → l.finished = none → (l.towers.get t).listed = false →
        exec (.placementForward t launch) s = .next (offer (s.updLaunch launch fun l => { l with towers := l.towers.upd t fun x => { x with listed := true } }) t none))
    ∧ (∀ gang s g l, s.gang? gang = some g → s.launch? g.launch = some l → g.parkable s = true → g.idle (s.tower g.tower).time = true →
        unmet s g.tower = true → (cellarRun s g.tower l.id (g.granules l)).isSome = true →
        exec (.parkGang gang) s = .next (s.updGang gang fun g => { g with pending := some (.save .park) }))
    ∧ (∀ gang s g l cause first, s.gang? gang = some g → s.launch? g.launch = some l → g.pending = some (.save cause) → g.resident = true → g.mayLeave = true →
        cellarRun s g.tower l.id (g.granules l) = some first → (cause = .trip ∨ g.inWrap = false) →
        ((cause ≠ .park ∨ savesBefore s l g = false) →
          exec (.gangSaveComplete gang) s = .next (afterSave (saveGang s l g cause first) g.tower g.col cause))
        ∧ (cause = .park → savesBefore s l g = true → exec (.gangSaveComplete gang) s = .next s))
    ∧ (∀ gang s g l cause, s.gang? gang = some g → s.launch? g.launch = some l → g.pending = some (.save cause) → cause ≠ .trip → g.inWrap = true →
        exec (.gangSaveComplete gang) s = .next (offer (s.endSave gang) g.tower none))
    ∧ (∀ s t col, afterSave s t col .park = offer s t (some col) ∧ afterSave s t col .trip = offer s t (some col)
        ∧ ∀ id, (evictsFor s id t = true → afterSave s t col (.evict id) = offer s t (some col))
          ∧ (evictsFor s id t = false → afterSave s t col (.evict id) = offer (offerLaunch t (some col) id 1 s) t (some col)))
    ∧ (∀ gang s g l h x, s.gang? gang = some g → s.launch? g.launch = some l → nextGang s l g.tower = some (.saved h) → h.id = gang → l.mayPlace s g.tower = true →
        spotFor (offerUrgent s g.tower l.id) l g.tower (.saved h) none = some x →
        exec (.gangRestore gang) s = .next (restoreGang (offerUrgent s g.tower l.id) l h x.1 x.2.1 x.2.2))
    ∧ (∀ gang s g l, s.gang? gang = some g → s.launch? g.launch = some l → mayRetire s g = true → (applyGang s gang).reds.any (·.gang == gang) = false →
        let s3 := reportRetire (applyGang s gang) l g
        let waits := (s3.tower g.tower).fltq.anyWaits fun r => r.gang == gang && (r.code == 6 || r.code == 9)
        (waits = true → exec (.gangRetire gang) s = .next s3)
        ∧ ∀ g1, waits = false → s3.gang? gang = some g1 → exec (.gangRetire gang) s =
          .next (checkDone (offer (announceGbar (leftColumn s3 (((countGang s3 g1).endMove gang).dropGang gang) g.tower g.col) l) g.tower (some g.col)) l.id))
    ∧ (∀ s l g, (g.reported = true → reportRetire s l g = s)
        ∧ (g.reported = false → reportRetire s l g =
          (g.members.foldl (retireCopies l g) (retireRecords (retryDefers (evictAll s g.tower g.col fun x => x.asid == l.asid) g l.asid) l g)).updGang g.id
            fun g => { g with reported := true }))
    ∧ (∀ gang member beads s g l w, s.gang? gang = some g → s.launch? g.launch = some l → g.member? member = some w → g.resident = true → g.pending = none →
        mayRestring s l g w (w.beads.filter fun b => beads.contains (b.home, b.pos)) = true →
        exec (.restring gang member beads) s = .next (s.updWg gang member fun w => w.restrung ((residents s g.tower g.col).flatMap (·.members)) beads))
    ∧ (∀ gang member grp s c, let s0 : State := { s with cur := some { gang, member, grp, resv := false } }
        s0.ctx? = some c → exec (.waitRecheck gang member grp) s = .next (offTurn (recheckGroup c s0)))
    ∧ (∀ gang s g l n m q, s.gang? gang = some g → s.launch? g.launch = some l → g.place = .saved n m q →
        (∃ w ∈ g.members, ∃ b ∈ w.beads, b.live = true ∧ ∃ x, b.wait = some x ∧ parkedMet s g l x = true) →
        exec (.parkedRecordCheck gang) s = .next (s.updGang gang fun g => { g with place := .saved n m true }))
    ∧ (∀ t launch s l, s.launch? launch = some l → l.map.contains t = true → l.deadline ≠ 0 →
        (l.deadline.toNat - l.wrapBudget.toNat ≤ (s.tower t).time → exec (.divertInstant t launch) s = .next (divertTower (match (l.towers.get t).divertDue with
          | some (cause, _, at_) => if l.deadline.toNat - l.wrapBudget.toNat < at_ then 1 else cause
          | none => 1) s launch t))
        ∧ (l.deadline.toNat ≤ (s.tower t).time → exec (.deadlineKill t launch) s = .next (checkDone (killTower .deadline s launch t) launch)))
    ∧ (∀ t launch s l cause u at_, s.launch? launch = some l → (l.towers.get t).divertDue = some (cause, u, at_) →
        exec (.remoteDivert t launch) s = .next (divertTower (if l.deadline ≠ 0 ∧ l.deadline.toNat - l.wrapBudget.toNat < at_ then 1 else cause) s launch t)
        ∧ (l.deadline = 0 → at_ + 2000 ≤ (s.tower u).time → dueIn launch s t = divertTower cause s launch t))
    ∧ (∀ t launch s l, s.launch? launch = some l → l.deadline ≠ 0 → (l.towers.get t).divertDue = none →
        ((s.tower t).time < l.deadline.toNat - l.wrapBudget.toNat → (s.tower t).time < l.deadline.toNat → dueIn launch s t = s)
        ∧ (l.deadline.toNat - l.wrapBudget.toNat ≤ (s.tower t).time → (s.tower t).time < l.deadline.toNat → dueIn launch s t = divertTower 1 s launch t)
        ∧ (l.deadline.toNat ≤ (s.tower t).time → dueIn launch s t = checkDone (killTower .deadline (divertTower 1 s launch t) launch t) launch))
    ∧ (∀ t launch s l cause u at_, s.launch? launch = some l → l.deadline ≠ 0 → (l.towers.get t).divertDue = some (cause, u, at_) →
        (at_ + 2000 ≤ (s.tower u).time ∨ l.deadline.toNat - l.wrapBudget.toNat ≤ (s.tower t).time) → (s.tower t).time < l.deadline.toNat →
        dueIn launch s t = divertTower (if l.deadline.toNat - l.wrapBudget.toNat < at_ then 1 else cause) s launch t)
    ∧ (∀ cause by_ s id t (l : Launch), s.launch? id = some l →
        (l.wrap = false → divertLaunch cause by_ s id t = killLaunch by_ s id)
        ∧ (l.wrap = true → (l.towers.get t).diverted = true → divertLaunch cause by_ s id t = s)
        ∧ (∀ first u at_, l.wrap = true → (l.towers.get t).diverted = false → (l.towers.get t).divertDue = some (first, u, at_) →
          divertLaunch cause by_ s id t = divertTower (if l.deadline ≠ 0 ∧ l.deadline.toNat - l.wrapBudget.toNat < at_ then 1 else first) s id t)
        ∧ (l.wrap = true → (l.towers.get t).diverted = false → (l.towers.get t).divertDue = none →
          divertLaunch cause by_ s id t = divertTower cause (s.updLaunch id fun l => { l with
            towers := l.towers.mapIdx fun u x =>
              if u = t ∨ l.map.contains u = false ∨ x.diverted = true ∨ x.divertDue ≠ none then x
              else { x with divertDue := some (cause, t, (s.tower t).time) } }) id t))
    ∧ (∀ s (a : Accepting) (code : Byte), ∃ bytes : List Byte, bytes.length = 128 ∧ field bytes 0 1 = 6 ∧ field bytes 1 1 = code.toNat
        ∧ field bytes 2 2 = 0 ∧ field bytes 4 4 = 1 ∧ field bytes 8 8 = (s.tower a.t).time % 2 ^ 64 ∧ (∀ k, k < 40 → field bytes (0x10 + k) 1 = 0)
        ∧ (∀ h, refuseLaunch s a (some h) code = State.fresh ((sysWriteHit s a.q.asid (BitVec.ofNat 64 (field a.bytes 0x60 8)) bytes h).updNode
            a.t a.q.num a.ctr (Node.finish 4 (code.setWidth 16))))
        ∧ refuseLaunch s a none code = State.fresh (s.updNode a.t a.q.num a.ctr (Node.finish 4 (code.setWidth 16))))
    ∧ (∀ s (a : Accepting) l, l.deadline = 0 ∨ (s.tower a.t).time < l.deadline.toNat - l.wrapBudget.toNat →
        let l1 : Launch := if l.gbar then { l with towers := l.towers.mapIdx fun u x => { x with reserve := gbarReserve s l u } } else l
        takeLaunch s a l = offer ((changePhase { s with launches := s.launches ++ [l1], nextId := s.nextId + 1 } a l.id l.map
          (BitVec.ofNat 16 (field a.bytes 0x3A 2))).updNode a.t a.q.num a.ctr fun n => { n with launch := some l.id }) a.t none)
    ∧ (∀ s (a : Accepting) l, l.deadline ≠ 0 → l.deadline.toNat - l.wrapBudget.toNat ≤ (s.tower a.t).time →
        let l1 : Launch := if l.gbar then { l with towers := l.towers.mapIdx fun u x => { x with reserve := gbarReserve s l u } } else l
        takeLaunch s a l = l.map.eraseDups.foldl (fun x u => divertTower 1 x l.id u) ((changePhase
          { s with launches := s.launches ++ [l1], nextId := s.nextId + 1 } a l.id l.map (BitVec.ofNat 16 (field a.bytes 0x3A 2))).updNode
            a.t a.q.num a.ctr fun n => { n with launch := some l.id }))
    ∧ (∀ s (a : Accepting) id map phase, (a.q.slot = none → changePhase s a id map phase = s)
        ∧ ∀ n, a.q.slot = some n → ((s.tower a.t).phases.getD n 0 = phase → changePhase s a id map phase = s)
          ∧ (n < (s.tower a.t).phases.length → ((changePhase s a id map phase).tower a.t).phases.getD n 0 = phase)
          ∧ (changePhase s a id map phase).hbm = s.hbm ∧ (changePhase s a id map phase).gangs = s.gangs)
    ∧ (∀ s t col, (∀ l ∈ s.launches, nextGang s l t = none) → offer s t col = s)
    ∧ (∀ s l t num col base ks, ks.length = l.gangSize → (∀ g ∈ s.gangs, g.id ≠ s.nextId) →
        let u := startGang s l t num col base ks
        u.hbm = s.hbm ∧ u.stores = s.stores ∧ u.nextId = s.nextId + 1
        ∧ ∃ g, u.gang? s.nextId = some g ∧ g.launch = l.id ∧ g.num = num ∧ g.tower = t ∧ g.place = .resident col base ∧ g.pending = none ∧ g.copies = []
          ∧ g.members.map (·.w) = (List.range l.gangSize).map (num * l.gangSize + ·))
    ∧ (∀ (l : Launch) now w pos, ∀ b ∈ (l.startWg now w pos).beads, ∃ j r, l.strandRoles[b.home]? = some (j, r) ∧ b.role = j ∧ b.pos < 8 ∧ b.grp = b.home
        ∧ b.pc = l.code + r.entry.setWidth 64 + l.entryDelta.signExtend 64 ∧ b.active = 0xF ∧ b.stack = [] ∧ b.fmt = 0 ∧ b.dpc = 0 ∧ b.why = 0
        ∧ (∀ q, b.sget q = if q = 1 then l.param else 0) ∧ ∀ k q, b.vget k q = 0x7FA00000 + q.setWidth 32 ∧ b.pget k (q.setWidth 3) = (q.setWidth 3 == 0#3))
    ∧ (∀ s l (g : Gang) cause first col base, s.gang? g.id = some g → s.launch? l.id = some l → g.place = .resident col base → (l.towers.get g.tower).killed = none →
        let t := saveGang s l g cause first
        let num := freeSlotNumber (s.tower g.tower)
        (t.tower g.tower).cellar = { num, first, count := g.granules l, gang := g.id } :: (s.tower g.tower).cellar
        ∧ t.gang? g.id = some { g with
            place := .saved num ((s.col g.tower col).scratch.slice base l.scratchAll) (g.leavesQueued l cause), pending := none, wake := false
            members := g.members.map (Wg.saved (s.tower g.tower).time), copies := g.copies.map Copy.saved }
        ∧ (∃ l1, t.launch? l.id = some l1 ∧ ((∃ id, cause = .evict id) → l1.evicts = l.evicts + 1 ∧ l1.parks = l.parks)
          ∧ ((∀ id, cause ≠ .evict id) → l1.parks = l.parks + 1 ∧ l1.evicts = l.evicts))
        ∧ ((∀ r ∈ s.stores, ¬(r.tower = g.tower ∧ r.col = col ∧ r.asid = l.asid)) → t.hbm = s.hbm ∧ t.stores = s.stores))
    ∧ (∀ now (w : Wg), (w.saved now).beads = w.beads.map (fun b => b.settleUnit.flipIssue now) ∧ (w.saved now).move = none ∧ (w.saved now).tile = w.tile
        ∧ (w.saved now).closed = w.closed ∧ (w.saved now).strands = w.strands)
    ∧ (∀ now (b : Bead), let x := b.settleUnit.flipIssue now
        x.s = b.s ∧ x.lanes = b.lanes ∧ x.active = b.active ∧ x.exited = b.exited ∧ x.stack = b.stack ∧ x.fmt = b.fmt ∧ x.stop = b.stop ∧ x.park = b.park
        ∧ x.lastIssue = now - b.lastIssue ∧ (b.wait.any (·.kind == .issue) = false → x.pc = b.pc ∧ x.pfx = b.pfx ∧ x.wait = b.wait ∧ x.held = b.held)
        ∧ (b.wait.any (·.kind == .issue) = true → x.pc = b.pc - BitVec.ofNat 64 (4 * b.pfx.length) ∧ x.pfx = [] ∧ x.held = none))
    ∧ (∀ s l (g : Gang) col base ks num img q, s.gang? g.id = some g → g.place = .saved num img q → ks.length = g.members.length →
        col < (s.tower g.tower).cols.length →
        let t := restoreGang s l g col base ks
        (t.tower g.tower).cellar = (s.tower g.tower).cellar.filter (·.gang != g.id)
        ∧ (t.col g.tower col).scratch = (s.col g.tower col).scratch.paste base l.scratchAll img
        ∧ t.hbm = s.hbm ∧ t.stores = s.stores ∧ t.reds = s.reds
        ∧ ∃ g1, t.gang? g.id = some g1 ∧ g1.place = .resident col base ∧ g1.pending = none ∧ g1.num = g.num ∧ g1.defers = g.defers
          ∧ (g1.wrapBack = true ↔ g.wrapBack = true ∨ ((l.towers.get g.tower).diverted = true ∧ l.wrap = true
            ∧ ∃ w ∈ g.members, ∃ b ∈ w.beads, b.live = true ∧ b.diverted = false ∧ b.divertDue = none))
          ∧ g1.members.map (fun w => w.beads.map (·.lanes)) = g.members.map (fun w => w.beads.map (·.lanes)) ∧ g1.members.map (·.tile) = g.members.map (·.tile))
    ∧ (∀ (b : Bead), (b.wait.any (fun w => w.kind == .issue || w.kind == .clasp) = false → b.reissued = b)
        ∧ (b.wait.any (fun w => w.kind == .issue || w.kind == .clasp) = true → b.reissued.pc = b.pc - BitVec.ofNat 64 (4 * b.pfx.length)
          ∧ b.reissued.pfx = [] ∧ b.reissued.held = none ∧ b.reissued.wait = none ∧ b.reissued.s = b.s ∧ b.reissued.lanes = b.lanes
          ∧ b.reissued.active = b.active ∧ b.reissued.stack = b.stack ∧ b.reissued.fmt = b.fmt))
    ∧ (∀ s id t (l : Launch), s.launch? id = some l → let x := l.towers.get t
        (l.finished ≠ none ∨ x.killed ≠ none → ∀ cause by_, divertTower cause s id t = s ∧ killTower by_ s id t = s)
        ∧ (∀ cause, x.diverted = true → divertTower cause s id t = s)
        ∧ (l.finished = none → x.killed = none →
          (∀ cause, x.diverted = false → let s1 := s.updLaunch id fun l => { l with
              nunstart := l.nunstart + l.gangSize * (l.towers.get t).todo.length
              towers := l.towers.upd t fun x => { x with todo := [], diverted := true, cause := cause, divertDue := none } }
            divertTower cause s id t = checkDone (if l.wrap then (gangsIn s l t).foldl (divertGang l cause) s1 else s1) id)
          ∧ ∀ by_, killTower by_ s id t = (gangsIn s l t).foldl (killGang by_ l) (s.updLaunch id fun l => { l with
              nunstart := l.nunstart + l.gangSize * (l.towers.get t).todo.length
              towers := l.towers.upd t fun x => { x with todo := [], killed := some by_ } })))
    ∧ (∀ (l : Launch) s (g : Gang), (∀ n m q, g.place = .saved n m q → ∀ cause, divertGang l cause s g = s.updGang g.id fun g => { g with place := .saved n m true })
        ∧ (g.resident = true → g.saving = true → ∀ cause by_, divertGang l cause s g = s ∧ killGang by_ l s g = s)
        ∧ (g.resident = true → g.saving = false →
          (∀ cause, divertGang l cause s g = leftColumn s (s.updGang g.id fun x => { x with members := x.members.map fun w =>
            { w with beads := w.beads.map (Bead.divertSoon l cause x.wrapBack (s.tower x.tower).time) } }) g.tower g.col)
          ∧ ∀ by_, killGang by_ l s g = leftColumn s (s.updGang g.id fun x => { x with members := x.members.map fun w =>
            { w.killed by_ with beads := w.beads.map Bead.killSoon, lease := none } }) g.tower g.col)
        ∧ ∀ by_ n m q, g.place = .saved n m q → g.defers = [] → s.gang? g.id = some g →
          (s.tower g.tower).fltq.anyWaits (fun r => r.gang == g.id && r.code == 5) = false →
          killGang by_ l s g = { (s.updLaunch g.launch fun l => (g.members.map (Wg.killed by_)).foldl (fun l w => l.count w.ending) l).updTower g.tower
            fun tw => { tw with cellar := tw.cellar.filter (·.gang != g.id) } with gangs := s.gangs.filter (·.id != g.id) })
    ∧ (∀ (b : Bead), (b.live = false → b.killSoon = b) ∧ (b.live = true → b.atBoundary = false → b.killSoon = { b with dying := true })
        ∧ (b.live = true → b.atBoundary = true → b.killSoon = b.kill) ∧ b.kill.active = 0 ∧ b.kill.exited = 0xF ∧ b.kill.stack = [] ∧ b.kill.s = b.s
        ∧ b.kill.lanes = b.lanes ∧ b.kill.wait = none ∧ b.kill.park = none ∧ b.kill.stop = none)
    ∧ (∀ by_ (w : Wg), ((∀ b ∈ w.beads, b.live = false) → w.killed by_ = w)
        ∧ ((∃ b ∈ w.beads, b.live = true) → (by_ ≠ .deadline → w.killed by_ = { w with faulted := true })
          ∧ (by_ = .deadline → w.killed by_ = { w with overrun := true, faulted := w.faulted || w.beads.any fun b => b.live && b.stop.isSome })))
    ∧ (∀ s id l, s.launch? id = some l → (l.spent s = false → checkDone s id = s) ∧ (l.spent s = true → checkDone s id = finishLaunch s l))
    ∧ (∀ s l, finishLaunch s l = State.fresh (((sysWriteHit s l.asid l.completion (completionBytes l l.status 0 ((s.tower l.tower).time - l.accept.toNat)
          (BitVec.ofNat 64 l.charges.read) (Config.energy l.charges.toList s.nextId)) { pa := l.crPa, attr := l.crAttr }).updLaunch l.id fun x =>
            { x with finished := some l.status, towers := x.towers.map fun y => { y with reserve := 0 } }).updNode l.tower l.queue l.node (Node.finishLaunch l.status)))
    ∧ (∀ (l : Launch) st r e h en, let b := completionBytes l st r e h en
        b.length = 128 ∧ field b 0 1 = st.toNat ∧ field b 1 1 = r.toNat ∧ field b 2 2 = 0 ∧ field b 4 4 = 1 ∧ field b 8 8 = l.accept.toNat
        ∧ field b 0x10 8 = e % 2 ^ 64 ∧ field b 0x18 4 = l.ncomp % 2 ^ 32 ∧ field b 0x1C 4 = l.ndvalid % 2 ^ 32 ∧ field b 0x20 4 = l.ndinvalid % 2 ^ 32
        ∧ field b 0x24 4 = l.nunstart % 2 ^ 32 ∧ field b 0x28 4 = l.noverrun % 2 ^ 32 ∧ field b 0x2C 4 = l.nfault % 2 ^ 32
        ∧ field b 0x30 8 = h.toNat ∧ field b 0x38 8 = en.toNat ∧ field b 0x40 4 = l.lmoves.toNat ∧ field b 0x44 4 = l.cmoves.toNat
        ∧ field b 0x48 4 = l.parks.toNat ∧ field b 0x4C 4 = l.evicts.toNat ∧ (∀ k, k < 48 → field b (0x50 + k) 1 = 0)
        ∧ l.status = (if l.hostKill then 5 else if l.deviceKill ∨ 0 < l.nfault then 4 else if 0 < l.noverrun then 3
          else if l.ncomp = l.ngx * l.ngy * l.ngz * l.nstage then 0 else if l.ndinvalid = 0 then 1 else 2))
    ∧ (∀ (c : Ctx) s, (c.lead.stop ≠ none ∨ c.lead.park ≠ none ∨ c.lead.wait = none → recheckGroup c s = s)
        ∧ ∀ w, c.lead.stop = none → c.lead.park = none → c.lead.wait = some w →
          (w.kind = .bar ∨ w.kind = .barw ∨ w.kind = .sigw → recheckGroup c s = recheckWord c s)
          ∧ (w.kind = .gbar → ((∀ b ∈ c.beads, ∃ x, b.wait = some x ∧ (x.sat ≠ none ∨ gbarDone s c.l x.cmp.toNat = true)) → recheckGroup c s = c.done (c.acquire s 4))
            ∧ ((∃ b ∈ c.beads, ∀ x, b.wait = some x → x.sat = none ∧ gbarDone s c.l x.cmp.toNat = false) → recheckGroup c s = s))
          ∧ (∀ d a try_ q, w.kind = .wpop → c.lead.held = some (.wpop d a try_ q) →
            let k := ((wpopOrders s c.tower q.toNat).filter (· < w.order)).length
            recheckGroup c s = match ((s.tower c.tower).wq q.toNat).recs[k]? with | some r => popRecord c s d a q.toNat k r | none => s)
          ∧ (w.kind ∉ [.bar, .barw, .sigw, .gbar, .wpop] → recheckGroup c s = s))
    ∧ (∀ (c : Ctx) s, (∀ b ∈ c.beads, ∃ w v, b.wait = some w ∧ w.sat = some v) →
        recheckWord c s = c.done (c.acquire (c.onGrp s fun b => match b.wait with
          | some w => if w.kind = .sigw then b.sset w.dst (w.sat.getD 0) else b
          | none => b) ((c.lead.wait.map (·.scope)).getD 0)))
    ∧ (∀ (w : Wait) x, (w.kind = .sigw → w.meets x = if sigCond w.cond x w.cmp then some x else none)
        ∧ (w.kind = .bar ∨ w.kind = .barw → w.meets x = if x.extractLsb' 32 32 ≠ w.cmp.extractLsb' 0 32 then some x else none))

/-- R284 to R289. A successor that has started takes such an end in place of how its own work ends (log 49), one that is named twice is told once (log 70), and a FEED on an unbound work queue, or on one of another space, ends with status 12 whatever its room (log 78): choices of the model. -/
def Obligations.NodesRunAndEnd : Prop :=
  (∀ t queue ctr s q n, NodeTurn 0 t queue ctr s q n → exec (.nodeNop t queue ctr) s = .next (overNode (startNode s t q n) t q n 3 0))
    ∧ (∀ t queue ctr s q n, NodeTurn 2 t queue ctr s q n → let s0 := startNode s t q n
        let k := field n.bytes 0x2C 1
        let count := field n.bytes 0x28 4
        (((s0.tower t).wq k).asid = 0 ∨ ((s0.tower t).wq k).asid ≠ q.asid → exec (.feed t queue ctr) s = .next (overNode s0 t q n 4 12))
        ∧ (((s0.tower t).wq k).asid ≠ 0 → ((s0.tower t).wq k).asid = q.asid →
          (4096 < ((s0.tower t).wq k).recs.length + count → exec (.feed t queue ctr) s = .next s0)
          ∧ (((s0.tower t).wq k).recs.length + count ≤ 4096 →
            (∀ x f, rangeFault s0 q.asid (n.va 0x20) (64 * count) .read false = some (x, f) → exec (.feed t queue ctr) s = .next (nodeFault s0 t q n x f .read))
            ∧ (rangeFault s0 q.asid (n.va 0x20) (64 * count) .read false = none →
              exec (.feed t queue ctr) s = .next (let r := sysRead s0 q.asid (n.va 0x20) (64 * count)
                overNode (announce (appendRecords t k ((List.range count).map fun j => (r.2.drop (64 * j)).take 64) r.1)
                  (fun g => g.tower == t && !g.resident) fun x => if x.kind == .wpop && x.addr.toNat == k then some 0 else none) t q n 3 0)))))
    ∧ (∀ t queue ctr s q n, NodeTurn 3 t queue ctr s q n → rangeFault (startNode s t q n) q.asid (n.va 0x20) (field n.bytes 0x30 1) .write false = none →
        exec (.write t queue ctr) s = .next (overNode (sysWrite (sysRead (pastCopy (startNode s t q n) t q.asid (n.va 0x20)) q.asid (n.va 0x20) (field n.bytes 0x30 1)).1 q.asid (n.va 0x20)
          (leBytes (field n.bytes 0x30 1) (field n.bytes 0x28 8))) t q n 3 0))
    ∧ (∀ t queue ctr s q n, NodeTurn 4 t queue ctr s q n → rangeFault (startNode s t q n) q.asid (n.va 0x20) 8 .write false = none →
        exec (.signal t queue ctr) s = .next (let r := sysRead (pastCopy (startNode s t q n) t q.asid (n.va 0x20)) q.asid (n.va 0x20) 8
          let x := if field n.bytes 0x30 1 = 1 then field n.bytes 0x28 8 else (leNat r.2 + field n.bytes 0x28 8) % 2 ^ 64
          overNode (announceSignal (sysWrite r.1 q.asid (n.va 0x20) (leBytes 8 x)) q.asid (n.va 0x20) (BitVec.ofNat 64 x)) t q n 3 0))
    ∧ (∀ t queue ctr s q n, NodeTurn 5 t queue ctr s q n → rangeFault (startNode s t q n) q.asid (n.va 0x20) 8 .read false = none →
        let r := sysRead (startNode s t q n) q.asid (n.va 0x20) 8
        let met := n.latched || sigCond (BitVec.ofNat 2 (field n.bytes 0x30 1)) (BitVec.ofNat 64 (leNat r.2)) (n.va 0x28)
        (met = true → exec (.waitmem t queue ctr) s = .next (overNode (r.1.updTower t fun tw => { tw with rdc := tw.rdc.filter (·.asid != q.asid) }) t q n 3 0))
        ∧ (met = false → exec (.waitmem t queue ctr) s = .next r.1))
    ∧ (∀ t queue ctr s q n, NodeTurn 6 t queue ctr s q n → let s0 := startNode s t q n
        let total := field n.bytes 0x30 8
        let k := min 4096 (total - n.moved)
        let src := n.va 0x20 + BitVec.ofNat 64 n.moved
        let dst := n.va 0x28 + BitVec.ofNat 64 n.moved
        (∀ x f, rangeFault s0 q.asid src k .read false = some (x, f) → exec (.copy t queue ctr) s = .next (nodeFault s0 t q n x f .read))
        ∧ (∀ x f, rangeFault s0 q.asid src k .read false = none → rangeFault s0 q.asid dst k .write false = some (x, f) →
          exec (.copy t queue ctr) s = .next (nodeFault s0 t q n x f .write))
        ∧ (rangeFault s0 q.asid src k .read false = none → rangeFault s0 q.asid dst k .write false = none →
          let r := towerRange t q.asid s0 src k
          let s1 := (towerWrite t q.asid r.1 dst r.2).updNode t q.num n.ctr fun n => { n with moved := n.moved + k }
          exec (.copy t queue ctr) s = .next (if n.moved + k = total then overNode s1 t q n 3 0 else s1)))
    ∧ (∀ t queue ctr s q n k, NodeTurn 7 t queue ctr s q n → q.slot = some k →
        exec (.phase t queue ctr) s = .next (overNode ((phaseAcquire (startNode s t q n) t q.asid none).updTower t fun tw =>
          { tw with phases := updAt tw.phases k fun _ => BitVec.ofNat 16 (field n.bytes 0x20 2) }) t q n 3 0))
    ∧ (∀ t queue ctr s q n, NodeTurn 8 t queue ctr s q n → rangeFault (startNode s t q n) q.asid (n.va 0x20) 8 .write false = none →
        exec (.timestamp t queue ctr) s = .next (overNode (sysWrite (sysRead (pastCopy (startNode s t q n) t q.asid (n.va 0x20)) q.asid (n.va 0x20) 8).1 q.asid (n.va 0x20)
          (leBytes 8 ((startNode s t q n).tower t).time)) t q n 3 0))
    ∧ (∀ s t asid va h, confL2 s asid va .write = .ok h → let u := pastCopy s t asid va
        (∀ r ∈ u.stores, ¬(r.tower = t ∧ r.stage = 2 ∧ r.pa = h.pa))
        ∧ (homeOf va ≠ t → ∀ l ∈ (u.tower t).rdc, l.pa ≠ h.pa ∧ (l.asid = asid → l.va ≠ lineOf va)) ∧ u.gangs = s.gangs)
    ∧ (∀ t queue ctr s q n x f, NodeTurn 3 t queue ctr s q n → rangeFault (startNode s t q n) q.asid (n.va 0x20) (field n.bytes 0x30 1) .write false = some (x, f) →
        exec (.write t queue ctr) s = .next (nodeFault (startNode s t q n) t q n x f .write))
    ∧ (∀ t queue ctr s q n x f, NodeTurn 4 t queue ctr s q n → rangeFault (startNode s t q n) q.asid (n.va 0x20) 8 .write false = some (x, f) →
        exec (.signal t queue ctr) s = .next (nodeFault (startNode s t q n) t q n x f .write))
    ∧ (∀ t queue ctr s q n x f, NodeTurn 5 t queue ctr s q n → rangeFault (startNode s t q n) q.asid (n.va 0x20) 8 .read false = some (x, f) →
        exec (.waitmem t queue ctr) s = .next (nodeFault (startNode s t q n) t q n x f .read))
    ∧ (∀ t queue ctr s q n x f, NodeTurn 8 t queue ctr s q n → rangeFault (startNode s t q n) q.asid (n.va 0x20) 8 .write false = some (x, f) →
        exec (.timestamp t queue ctr) s = .next (nodeFault (startNode s t q n) t q n x f .write))
    ∧ (∀ s t q n va f (need : Need), nodeFault s t q n va f need = overNode (reportNode s t q n.ctr va f.cause need.code) t q n 4 10)
    ∧ (∀ t queue ctr s q n state status, s.queue? t queue = some q → q.nodes.find? (·.ctr == ctr) = some n → n.state = .workOver state status → (q.qstate = 2 ∨ q.qstate = 3) →
        (q.heldRead = none → q.heldWrite = none → nodeRecordWaits s t q ctr = false →
          (∀ va f, rangeFault s q.asid (q.recVa n.ctr) 32 .write true = some (va, f) → exec (.nodeEnd t queue ctr) s =
            .next (schedule ((reportNode s t q n.ctr va f.cause 2).updQueue t q.num fun q => { q with heldWrite := some n.ctr }) t))
          ∧ (rangeFault s q.asid (q.recVa n.ctr) 32 .write true = none →
            exec (.nodeEnd t queue ctr) s = .next (schedule (mirror (endNode s t q n state status) t q.num) t)))
        ∧ (q.heldRead ≠ none ∨ q.heldWrite ≠ none ∨ nodeRecordWaits s t q ctr = true → exec (.nodeEnd t queue ctr) s = .next s))
    ∧ (∀ s t q (n : Node) state (status : Half), let va := q.recVa n.ctr
        endNode s t q n state status = ((sysWrite (sysWrite s q.asid (va + 5) (state :: leBytes 2 status.toNat)) q.asid (va + 0x18) (leBytes 8 (s.tower t).time)).updQueue
          t q.num fun q => Queue.advanceHead { q with nodes := q.nodes.map (n.afterEnd state) }))
    ∧ (∀ (q : Queue) (gone rest : List Node), (∀ n ∈ gone, ∃ st, n.state = .ended st) → (∀ n, rest.head? = some n → ∀ st, n.state ≠ .ended st) → q.nodes = gone ++ rest →
        q.advanceHead = { q with head := q.head + BitVec.ofNat 32 gone.length, nodes := rest })
    ∧ (∀ (n m : Node) state, m.ctr = n.ctr → n.afterEnd state m = { m with state := .ended state })
    ∧ (∀ (n m : Node) state, m.ctr ≠ n.ctr → n.succs.contains m.ctr = false → n.afterEnd state m = m)
    ∧ (∀ (n m : Node), m.ctr ≠ n.ctr → n.succs.contains m.ctr = true → m.state = .pendingPreds →
        (m.preds ≠ 0 → n.afterEnd 3 m = { m with preds := m.preds - 1 }) ∧ (m.preds = 0 → n.afterEnd 3 m = { m with state := .workOver 4 9 })
        ∧ (n.afterEnd 4 m = { m with state := .workOver 5 11 }) ∧ n.afterEnd 5 m = { m with state := .workOver 5 11 })
    ∧ (∀ (n m : Node), m.ctr ≠ n.ctr → n.succs.contains m.ctr = true → m.state = .running →
        (m.kind ≠ 1 → n.afterEnd 3 m = { m with state := .workOver 4 9, fate := some (4, 9) } ∧ n.afterEnd 4 m = { m with state := .workOver 5 11, fate := some (5, 11) }
          ∧ n.afterEnd 5 m = { m with state := .workOver 5 11, fate := some (5, 11) })
        ∧ (m.kind = 1 → m.fate = none → n.afterEnd 3 m = { m with fate := some (4, 9) } ∧ n.afterEnd 4 m = { m with fate := some (5, 11) } ∧ n.afterEnd 5 m = { m with fate := some (5, 11) }))
    ∧ (∀ (n m : Node) state st status, m.ctr ≠ n.ctr → m.state = .workOver st status → (m.fate ≠ none → n.afterEnd state m = m))
    ∧ ∀ (n : Node) state status, (n.fate = none → n.finish state status = { n with state := .workOver state status })
      ∧ ∀ x, n.fate = some x → n.finish state status = { n with state := .workOver x.1 x.2 }

/-- R280, R291, R292 and R296; how a write is judged is R291, case by case. The model's choices: newly runnable queues bring a pass, and the first map that begins after an unmap measures SRT (log 51); of several unmaps before one map the latest start stands (log 79). -/
def Obligations.QueuesAreRungMappedAndUnmapped : Prop :=
  (∀ (q : Queue) (v : Word), let d := (v - q.accepted).toNat
        let room := 2 ^ q.rlog - (q.accepted - q.head).toNat
        (v = q.accepted → q.judge v = .kick) ∧ (v ≠ q.accepted → d ≤ room → q.judge v = .tail v)
        ∧ (room < d → d ≠ 0 → d < 2 ^ 31 → q.judge v = .ignored true) ∧ (room < d → 2 ^ 31 ≤ d → q.judge v = .ignored false))
    ∧ (∀ t queue (v : DWord) s q, s.queue? t queue = some q → let w : Word := v.setWidth 32
        let s1 := if v.getLsbD 32 then s.updQueue t queue fun q => { q with badTail := false } else s
        (q.judge w = .kick ∨ q.judge w = .tail w → exec (.wakeRegisterWrite t queue v) s = .next (schedule (mirror (wakeLands s1 t q w) t queue) t))
        ∧ (q.judge w = .ignored true → exec (.wakeRegisterWrite t queue v) s = .next (mirror (s1.updQueue t queue fun q => { q with badTail := true }) t queue))
        ∧ (q.judge w = .ignored false → exec (.wakeRegisterWrite t queue v) s = .next (mirror s1 t queue)))
    ∧ (∀ s t (q : Queue) v, (q.qstate = 1 → wakeLands s t q v = s.updQueue t q.num fun q => { q with heldTail := some v })
        ∧ (q.qstate = 3 → wakeLands s t q v = s.updQueue t q.num fun q => { q with ltail := v, latch := true })
        ∧ (q.qstate = 0 → wakeLands s t q v = s.updQueue t q.num fun q => { q with ltail := v, pending := true })
        ∧ (q.qstate = 2 → v = q.tail → wakeLands s t q v = kick s t q.num)
        ∧ (q.qstate = 2 → v ≠ q.tail → wakeLands s t q v = kick (publish s t q.num v) t q.num))
    ∧ (∀ s t num q, s.queue? t num = some q → let s1 := s.updQueue t num fun q => { q with heldRead := none, heldWrite := none, kicked := false }
        (q.heldRead = none → q.heldWrite = none → kick s t num = readAll s1 t num)
        ∧ (∀ c n, q.heldWrite = some c → q.heldRead = none → nodeRecordWaits s t q c = false → q.nodes.find? (·.ctr == c) = some n →
          kick s t num = readAll (tryEnd s1 t q n) t num)
        ∧ (∀ c, (q.heldWrite = some c ∨ q.heldRead = some c) → nodeRecordWaits s t q c = true → kick s t num = s.updQueue t num fun q => { q with kicked := true }))
    ∧ (∀ s t q, (s.tower t).queues.filter (fun q => q.kicked && q.qstate == 2 && !heldRecordWaits s t q) = [q] → retryKicks s t = schedule (kick s t q.num) t)
    ∧ (∀ t s, exec (.schedulingPass t) s = .next (schedule s t) ∧ ((s.tower t).boot.minimal = true → exec (.schedulingPass t) s = .next s))
    ∧ (∀ t queue s q, s.queue? t queue = some q → q.qstate = 2 → q.mapT + q.eslice * 1000 ≤ (s.tower t).time →
        exec (.sliceExpiry t queue) s = .next (schedule s t))
    ∧ (∀ t s, (s.tower t).queues ≠ [] → (s.tower t).lastPass + 100000 ≤ (s.tower t).time → timedPass s t = schedule s t)
    ∧ (∀ t s, newRunnable s t ≠ [] → runnablePass s t = schedule s t)
    ∧ (∀ t queue s q, s.queue? t queue = some q → q.qstate = 3 → q.heldRead = none → q.heldWrite = none →
        (∃ n ∈ q.nodes, ∃ st status, n.state = .workOver st status) → exec (.queueUnmapComplete t queue) s = .next s)
    ∧ (∀ t queue s q, s.queue? t queue = some q → q.qstate = 3 →
        (q.heldRead ≠ none ∨ q.heldWrite ≠ none ∨ ∀ n ∈ q.nodes, ∀ st status, n.state ≠ .workOver st status) →
        let wakes := q.latch || q.kicked || q.nodes.any fun n => n.kind == 5 && n.state == .running && n.latched
        let s1 := mirror (s.updQueue t queue fun q =>
          { q with qstate := 0, slot := none, latch := false, kicked := false, pending := q.pending || wakes }) t queue
        (q.latch = false → exec (.queueUnmapComplete t queue) s = .next s1) ∧ (q.latch = true → exec (.queueUnmapComplete t queue) s = .next (schedule s1 t)))
    ∧ (∀ s t num slot, beginMap s t num slot = mirror ((s.updQueue t num fun q =>
        { q.sliced (s.tower t).srtLast with qstate := 1, slot := some slot, heldTail := none, measure := (s.tower t).unmapBegun }).updTower t fun tw => { tw with unmapBegun := none }) t num)
    ∧ (∀ t queue s q, s.queue? t queue = some q → q.qstate = 1 → (∀ x ∈ (s.tower t).queues, x.qstate = 3 → x.slot ≠ q.slot) →
        q.ltail = q.tail → q.heldTail = none → q.pending = false →
        let s1 := (s.updQueue t queue fun q => { q with qstate := 2, pending := false, age := 0, eprio := q.prio, mapT := (s.tower t).time, heldTail := none }).updTower t
          fun tw => { tw with srtLast := (match q.measure with | some b => tw.time - b | none => tw.srtLast) }
        let offers (s : State) : State := mirror (Four.all.foldl (fun s u => offer s u none) s) t queue
        ((∀ n ∈ q.nodes, n.completed = false) → exec (.queueMapComplete t queue) s = .next (offers s1))
        ∧ ((∃ n ∈ q.nodes, n.completed = true) → exec (.queueMapComplete t queue) s = .next (schedule (offers (endCompleted s1 t queue)) t)))
    ∧ (∀ (n : Node), n.completed = true ↔ n.launch ≠ none ∧ ∃ st status, n.state = .workOver st status)
    ∧ ∀ s t num q n, s.queue? t num = some q → q.nodes.filter Node.completed = [n] → q.nodes.find? (·.ctr == n.ctr) = some n →
        (q.heldRead = none → q.heldWrite = none → nodeRecordWaits s t q n.ctr = false → endCompleted s t num = tryEnd s t q n)
        ∧ (q.heldRead ≠ none ∨ q.heldWrite ≠ none ∨ nodeRecordWaits s t q n.ctr = true → endCompleted s t num = s)
        ∧ ∀ st status, n.state = .workOver st status →
          (rangeFault s q.asid (q.recVa n.ctr) 32 .write true = none → tryEnd s t q n = mirror (endNode s t q n st status) t q.num)
          ∧ ∀ va f, rangeFault s q.asid (q.recVa n.ctr) 32 .write true = some (va, f) →
            tryEnd s t q n = (reportNode s t q n.ctr va f.cause 2).updQueue t q.num fun q => { q with heldWrite := some n.ctr }

/-- R303, R305, R307, R309 to R312, R314, R316, R317 and the end of pending moves in R359; the offers are R299. That a layer move whose target has ceased to fit, whose core has tripped, or whose gang is being saved is given up is log 45, that a trip ends the column moves bound for the core log 72, that a column with a line that cannot leave stays awake log 74, and the order in which several cores of a column change class at one instant log 77: the model's choices. -/
def Obligations.PowerAndMigrationSteps : Prop :=
  (∀ t samples s, ((s.tower t).lastEval + 10000 ≤ (s.tower t).time → exec (.governorEvaluation t samples) s = .next (evaluate s t samples))
        ∧ ((s.tower t).time < (s.tower t).lastEval + 10000 → exec (.governorEvaluation t samples) s = .next s))
    ∧ (∀ was sample at_, (at_ * 16 ≤ sample → crossed was sample at_ = true) ∧ (sample < (at_ - 3) * 16 → 3 ≤ at_ → crossed was sample at_ = false)
        ∧ ((at_ - 3) * 16 ≤ sample → sample < at_ * 16 → crossed was sample at_ = was))
    ∧ (∀ gang member s g w (m : LayerMove), s.gang? gang = some g → g.member? member = some w → w.move = some m →
        let freed (s1 : State) : State := offer s1 g.tower (some g.col)
        let cancel := freed (s.updWg gang member fun w => { w with move := none })
        ((g.resident = false ∨ g.saving = true ∨ ((s.col g.tower g.col).cores.get m.tier).trip = true) →
          exec (.layerMove gang member) s = .next cancel)
        ∧ (g.resident = true → g.saving = false → ((s.col g.tower g.col).cores.get m.tier).trip = false →
          (w.atMigration = false → exec (.layerMove gang member) s = .next s)
          ∧ (w.atMigration = true → coresAwake s g.tower g.col [m.tier, w.tier] = false →
            exec (.layerMove gang member) s = .next (wakeCores s g.tower g.col [m.tier, w.tier]))
          ∧ (w.atMigration = true → coresAwake s g.tower g.col [m.tier, w.tier] = true → m.other = none →
            ((coreUse s g.tower g.col m.tier).fits w.use = true →
              exec (.layerMove gang member) s = .next (freed (leftColumn s (crossTo s g member m.tier none) g.tower g.col)))
            ∧ ((coreUse s g.tower g.col m.tier).fits w.use = false → exec (.layerMove gang member) s = .next cancel))
          ∧ (∀ o h y back, w.atMigration = true → coresAwake s g.tower g.col [m.tier, w.tier] = true → m.other = some o → partnerReady s g member o = some (h, y, back) → y.atMigration = true →
            exec (.layerMove gang member) s = .next (freed (leftColumn s (crossTo (crossTo s g member m.tier (some o)) h y.pos back none) g.tower g.col)))))
    ∧ (∀ gang s g g1 l col base tiers since, s.gang? gang = some g → s.launch? g.launch = some l → g.pending = some (.column col base tiers since) →
        ((s.col g.tower col).draining = true → exec (.columnMove gang) s = .next (offer (s.endMove gang) g.tower none))
        ∧ ((s.col g.tower col).draining = false → g.mayLeave = true → (s.tower g.tower).time ≤ since + 20000 →
          coresAwake s g.tower col (tiers.map (·.2)) = true →
          (applyGang s gang).reds.any (·.gang == gang) = false → (applyGang s gang).gang? gang = some g1 →
          exec (.columnMove gang) s = .next (moveGang (applyGang s gang) l g1 col base tiers))
        ∧ ((s.col g.tower col).draining = false → g.mayLeave = true → (s.tower g.tower).time ≤ since + 20000 →
          coresAwake s g.tower col (tiers.map (·.2)) = false → exec (.columnMove gang) s = .next (wakeCores s g.tower col (tiers.map (·.2))))
        ∧ (since + 20000 ≤ (s.tower g.tower).time → exec (.columnMoveCancel gang) s = .next (offer (s.endMove gang) g.tower none))
        ∧ s.endMove gang = ((s.updGang gang fun g => { g with pending := none }).updCol g.tower g.col fun co => { co with halved := true }).updCol g.tower col
          fun co => { co with emptySince := (s.tower g.tower).time })
    ∧ (∀ s t col (ks : List Four), (coresAwake s t col ks = true ↔ (s.col t col).gated = false
          ∧ ∀ k ∈ ks, ((s.col t col).cores.get k).gated = false ∧ ((s.col t col).cores.get k).waking = none)
        ∧ ∀ k ∈ ks, col < (s.tower t).cols.length → ks.Nodup → (((wakeCores s t col ks).col t col).cores.get k).waking =
          if (((s.col t col).cores.get k).gated = true ∨ (s.col t col).gated = true) ∧ ((s.col t col).cores.get k).waking = none
          then some (s.tower t).time else ((s.col t col).cores.get k).waking)
    ∧ (∀ t base s, (s.tower t).lastValve + 1000000 ≤ (s.tower t).time → ∃ u, exec (.valveUpdate t base) s = .next u ∧ (u.tower t).lastValve = (s.tower t).time
        ∧ (u.tower t).valves.length = 40 ∧ (∀ l z, l < 5 → z < 8 → (u.tower t).valves.getD (8 * l + z) 0 = opening ((s.tower t).laws.getD l ⟨0, 0, 0, 0⟩) (zoneHeat s t base l z))
        ∧ u.hbm = s.hbm ∧ u.gangs = s.gangs)
    ∧ (∀ law heat, law.min ≤ 255 → law.min ≤ opening law heat ∧ opening law heat ≤ 255)
    ∧ (∀ t stack temp traffic s, let st := (s.tower t).hbmStacks.get stack
        st.wanted temp traffic ≠ st.state → (∀ x, st.changed = some x → x + 10000000 ≤ (s.tower t).time) →
        exec (.hbmStateChange t stack temp traffic) s = .next (s.updTower t fun tw => { tw with hbmStacks := tw.hbmStacks.upd stack fun st =>
          { st with state := st.wanted temp traffic, changed := some (s.tower t).time, retrain := 4 } }))
    ∧ (∀ t stack s, exec (.hbmRetrainComplete t stack) s = .next (s.updTower t fun tw => { tw with hbmStacks := tw.hbmStacks.upd stack fun st => { st with retrain := st.retrain - 1 } }))
    ∧ (∀ t col tier s, ((s.col t col).cores.get tier).gated = false → (∀ x ∈ coreWgs s t col tier, x.2.heldStrands = []) →
        ((s.col t col).cores.get tier).emptySince + 50000 ≤ (s.tower t).time →
        exec (.coreGate t col tier) s = .next (setCore s t col tier fun c => { c with gated := true, waking := none, gov := 1, ratio := 1 }))
    ∧ (∀ t col s, (s.col t col).gated = false → residents s t col = [] → columnExpects s t col = false → (s.col t col).emptySince + 50000 ≤ (s.tower t).time →
        ((evictAll s t col fun _ => true).col t col).acc = [] →
        exec (.columnGate t col) s = .next ((evictAll s t col fun _ => true).updCol t col fun co => { co with lines := [], gated := true }))
    ∧ (∀ t col tier s since, ((s.col t col).cores.get tier).waking = some since → ((s.col t col).cores.get tier).trip = false → since + 2000 ≤ (s.tower t).time →
        let s1 := (setCore s t col tier fun c => { c with gated := false, waking := none, emptySince := (s.tower t).time }).updCol t col
          fun co => { co with gated := false }
        exec (.coreWake t col tier) s = .next (reclass s1 t col tier ((classes s1 t col).upd tier fun _ => .gated)))
    ∧ (∀ s t col k, (s.col t col).halved = true → ratioCap s t col k = 1)
    ∧ ∀ gang member s, exec (.boostLeaseExpiry gang member) s = .next (s.updWg gang member fun w => { w with lease := w.lease.filter (0 < ·) })

/-- R357 to R359, R361, R367 to R371, R375 to R377: one clause a command. The model's choices: the statuses that `adminFailures` gives where R358 names none (CREATE_QUEUE of a number that exists, DESTROY_QUEUE and CLOSE_WINDOW of one that does not, OPEN_WINDOW of one that is open, window flags beyond bit 1, CLEAR beyond bit 0, the magic, the length and the zeros of a patch), NOT_PIN before BUSY in SET_RING, and the order in which the conditions of a command are judged (log 56); whether a transfer uses a window is a free value (log 56); an accumulator line that cannot go home is discarded by DESTROY_SPACE (log 57); SELF_TEST logs a column as unit 1, STACK_TEST tests the present columns only, 8192 connections a column, with no entry in ERRLOG, and RESTART leaves FAILS (log 57); SET_CARVEOUT ends OK with a faulted line in the column (log 74). -/
def Obligations.AdminCommandsComplete : Prop :=
  (∀ t v s, let q := (s.tower t).admq
        let w : Word := v.setWidth 32
        (((w - q.tail).toNat ≤ 256 - (q.tail - q.head).toNat) → exec (.admqTailWrite t v) s = .next (s.updTower t fun tw => { tw with admq := { tw.admq with tail := w } }))
        ∧ (256 - (q.tail - q.head).toNat < (w - q.tail).toNat → exec (.admqTailWrite t v) s = .next s))
    ∧ (∀ t s c, CommandAt 0x01 t s c → field c 8 2 ≠ 0 → physOk (field c 0x10 8) 65536 65536 = true → (∀ x ∈ s.spaces, x.1 ≠ BitVec.ofNat 16 (field c 8 2)) → BitVec.ofNat 16 (field c 8 2) ≠ 0 →
        exec (.createSpace t) s = .next (endCommand { s with spaces := (BitVec.ofNat 16 (field c 8 2), field c 0x10 8) :: s.spaces } t 0))
    ∧ (∀ t s c, CommandAt 0x02 t s c → let id : Half := BitVec.ofNat 16 (field c 8 2)
        spaceUsed s id = false → discardWaits (dropSpan s (inSpan id 0 none)) id = false → ((List.range 4).all fun t => (List.range 40).all fun k => ((dropSpan s (inSpan id 0 none)).col (Four.ofNat t) k).acc.all (·.asid != id)) = true →
        exec (.destroySpace t) s = .next (endCommand { dropSpan s (inSpan id 0 none) with spaces := (dropSpan s (inSpan id 0 none)).spaces.filter (·.1 != id) } t 0))
    ∧ (∀ t s c, CommandAt 0x02 t s c → let id : Half := BitVec.ofNat 16 (field c 8 2)
        let d := dropSpan s (inSpan id 0 none)
        let left : List (Four × Nat × AccLine) := Four.all.flatMap fun t => (List.range 40).flatMap fun k =>
          ((d.col t k).acc.filter (·.asid == id)).map fun l => (t, k, l)
        let u := left.foldl (fun s x => discardLine x.1 x.2.1 s x.2.2) d
        spaceUsed s id = false →
        (discardWaits u id = false → exec (.destroySpace t) s = .next (endCommand { u with spaces := u.spaces.filter (·.1 != id) } t 0))
        ∧ (discardWaits u id = true → exec (.destroySpace t) s = .next (u.updTower t fun tw => { tw with admSince := some (tw.admSince.getD tw.time) })))
    ∧ (∀ t col s (l : AccLine), let u := discardLine t col s l
        u.hbm = s.hbm ∧ u.gangs = s.gangs ∧ u.spaces = s.spaces ∧ (∀ k, k ≠ t → u.tower k = s.tower k)
        ∧ (col < (s.tower t).cols.length → (u.col t col).acc = (s.col t col).acc.filter (· != l))
        ∧ ∃ r, (u.tower t).fltq.held = (s.tower t).fltq.held ++ [r] ∧ r.code = 5 ∧ r.awaits = false ∧ field r.bytes 0 1 = 5 ∧ field r.bytes 2 1 = 2
          ∧ field r.bytes 4 2 = l.asid.toNat ∧ field r.bytes 6 1 = t.val ∧ field r.bytes 7 1 = col % 256)
    ∧ (∀ t s c, CommandAt 0x03 t s c → let id : Half := BitVec.ofNat 16 (field c 0xA 2)
        let qcb := BitVec.ofNat 64 (field c 0x10 8)
        let r := sysRead s id qcb 16
        (s.tower t).boot.minimal = false → field c 8 2 ≤ 1023 → id ≠ 0 → qcb.toNat % 256 = 0 → s.queue? t (field c 8 2) = none →
        rangeFault s id qcb 256 .read true = none → qcbOk r.2 = true → rangeFault s id (BitVec.ofNat 64 (field r.2 0 8)) (128 * 2 ^ field r.2 8 1) .read true = none →
        exec (.createQueue t) s = .next (endCommand (mirror (r.1.updTower t fun tw => { tw with queues := tw.queues ++ [newQueue tw (field c 8 2) id qcb r.2] }) t (field c 8 2)) t 0))
    ∧ (∀ t s c q, CommandAt 0x04 t s c → s.queue? t (field c 8 2) = some q → q.accepted = q.head →
        (∀ l ∈ s.launches, l.tower = t → l.queue = q.num → l.finished ≠ none) →
        exec (.destroyQueue t) s = .next (endCommand (s.updTower t fun tw => { tw with queues := tw.queues.filter (·.num != q.num) }) t 0))
    ∧ (∀ t s c, CommandAt 0x05 t s c → field c 8 1 ≤ 15 → ((s.tower t).wq (field c 8 1)).recs = [] →
        exec (.bindWq t) s = .next (endCommand (s.updTower t fun tw => { tw with wqs := updAt tw.wqs (field c 8 1) fun w => { w with asid := BitVec.ofNat 16 (field c 0xA 2), seq := 0 } }) t 0))
    ∧ (∀ t s c, CommandAt 0x06 t s c → let which := field c 8 1
        let x : RingCfg := { base := BitVec.ofNat 64 (field c 0x10 8), rlog := field c 9 1, asid := BitVec.ofNat 16 (field c 0xA 2) }
        let size := if which = 0 then 128 else 64
        let r := if which = 0 then (s.tower t).trapq else (s.tower t).fltq
        which ≤ 1 → 4 ≤ x.rlog → x.rlog ≤ 16 → x.base.toNat % size = 0 → rangeFault s x.asid x.base (size * 2 ^ x.rlog) .read true = none → r.prod = r.cons →
        exec (.setRing t) s = .next (endCommand (s.updTower t fun tw =>
          if which = 0 then { tw with trapq := tw.trapq.configure x } else { tw with fltq := tw.fltq.configure x }) t 0))
    ∧ (∀ t s c, CommandAt 0x07 t s c → let p := inSpan (BitVec.ofNat 16 (field c 8 2)) (field c 0x10 8) (if field c 0x18 8 = 0 then none else some (field c 0x10 8 + field c 0x18 8))
        field c 0x10 8 % 65536 = 0 → field c 0x18 8 % 65536 = 0 → spanBusy s (BitVec.ofNat 16 (field c 8 2)) p = false → exec (.xlateInval t) s = .next (endCommand (dropSpan s p) t 0))
    ∧ (∀ t s c, CommandAt 0x08 t s c → field c 8 1 ≤ 39 → field c 9 1 ≤ 10 → columnFree s t (field c 8 1) = true →
        exec (.setCarveout t) s = .next (endCommand (offer ((emptyCachePart s t (field c 8 1)).updCol t (field c 8 1) fun co => { co with steps := field c 9 1 }) t (some (field c 8 1))) t 0))
    ∧ (∀ t s c, CommandAt 0x09 t s c → 8 ≤ field c 8 1 → field c 8 1 ≤ 32 → (∀ q ∈ (s.tower t).queues, q.qstate = 0) →
        exec (.setSlots t) s = .next (endCommand (s.updTower t fun tw => { tw with boot := { tw.boot with slots := field c 8 1 } }) t 0))
    ∧ (∀ t s c, CommandAt 0x0A t s c → 1 ≤ field c 8 4 → field c 8 4 ≤ 60000 → exec (.setWatchdog t) s = .next (endCommand (s.updTower t fun tw => { tw with watchdogMs := field c 8 4 }) t 0))
    ∧ (∀ t s c, CommandAt 0x0B t s c → field c 8 1 ≤ 4 ∨ field c 8 1 = 0xFF →
        exec (.setValves t) s = .next (endCommand (s.updTower t fun tw => { tw with laws := tw.laws.mapIdx fun k x => if field c 8 1 = 0xFF || field c 8 1 = k then { setpt := field c 0xA 2, gain := field c 0xC 1, base := field c 0xD 1, min := field c 0xE 1 } else x }) t 0))
    ∧ (∀ t s c, CommandAt 0x0C t s c → (field c 8 1 ≤ 3 ∨ field c 8 1 = 0xFF) → field c 9 1 ≤ 1 → field c 0xA 1 ≤ 3 → field c 0xB 1 ≤ 3 → field c 0xE 2 < field c 0xC 2 → field c 0x10 1 ≤ 100 →
        exec (.setHbm t) s = .next (endCommand (s.updTower t fun tw => { tw with hbmStacks := tw.hbmStacks.mapIdx fun k st => if field c 8 1 = 0xFF || field c 8 1 = k.val then { st with mode := field c 9 1, hold := field c 0xA 1, floor := field c 0xB 1, hot := field c 0xC 2, cool := field c 0xE 2, util := field c 0x10 1 } else st }) t 0))
    ∧ (∀ t s c, CommandAt 0x0D t s c → let cols := (List.range (field c 9 1)).map (field c 8 1 + ·)
        let s1 := s.updTower t fun tw => { tw with cols := tw.cols.mapIdx fun k co => if cols.contains k then { co with draining := field c 0xA 1 == 1 } else co }
        1 ≤ field c 9 1 → field c 8 1 + field c 9 1 ≤ 40 →
        (field c 0xA 1 = 0 → exec (.drain t) s = .next (endCommand (offer s1 t none) t 0))
        ∧ (field c 0xA 1 = 1 → exec (.drain t) s = .next (endCommand (cancelMoves s1 t cols) t 0)))
    ∧ (∀ t s c v, CommandAt 0x0E t s c →
        (field c 8 1 = 0 → field c 9 1 < 40 → testable s t [field c 9 1] = true →
          exec (.selfTest t v) s = .next (endCommand (concludeColumn s t 1 (BitVec.ofNat 8 (field c 9 1)) 0xFF v) t 0))
        ∧ (field c 8 1 = 1 → field c 9 1 < 16 → exec (.selfTest t v) s = .next (endCommand (concludeUnit s t 3 (BitVec.ofNat 8 (field c 9 1)) 0xFF v) t 0))
        ∧ (field c 8 1 = 2 → field c 9 1 < 4 → exec (.selfTest t v) s = .next (endCommand (concludeUnit s t 4 (BitVec.ofNat 8 (field c 9 1)) 0xFF v) t 0))
        ∧ (field c 8 1 = 3 → field c 9 1 < 128 → exec (.selfTest t v) s = .next (endCommand (concludeUnit s t 6 (BitVec.ofNat 8 (field c 9 1)) 0xFF v) t 0)))
    ∧ (∀ t s c failing, CommandAt 0x0F t s c → let cols := ((List.range 8).map (8 * field c 8 1 + ·)).filter (s.tower t).present
        field c 8 1 ≤ 4 → physOk (field c 0x10 8) (64 + 8 * 65536) 64 = true → testable s t cols = true →
        let r := (sortBy (fun a b => decide (connKey a ≤ connKey b)) ((failing.filter fun x => cols.contains x.col.toNat).eraseDups)).foldl remapConn (s.tower t, [])
        let bad := ((r.2.filter (·.2)).map (·.1.col.toNat)).eraseDups
        let s1 := (bad.foldl (fun s col => emptyCachePart s t col) (s.updTower t fun _ => r.1)).updTower t fun tw => bad.foldl Tower.retireColumn tw
        exec (.stackTest t failing) s = .next (endCommand (physWrite s1 (field c 0x10 8) (stackLog (field c 8 1) (8192 * cols.length) (s.tower t).time r.2)) t 0))
    ∧ (∀ (tw : Tower) done (x : ConnFail), let left := (tw.col x.col.toNat).conns.get (Four.ofNat x.boundary.toNat)
        (left = 0 → remapConn (tw, done) x = (tw, done ++ [(x, true)]))
        ∧ (left ≠ 0 → remapConn (tw, done) x = ({ tw with cols := updAt tw.cols x.col.toNat fun co =>
            { co with conns := co.conns.upd (Four.ofNat x.boundary.toNat) (· - 1) } }, done ++ [(x, false)])))
    ∧ (∀ t s c, CommandAt 0x10 t s c → let s1 := (List.range 40).foldl (fun s col => emptyCachePart s t col) s
        let s2 := ((s1.tower t).l2.foldl writeBack s1).updTower t fun tw => { tw with l2 := [], rdc := [], boot := { tw.boot with maint := field c 8 1 == 1 } }
        field c 8 1 ≤ 1 → (s.tower t).boot.minimal = false → (∀ g ∈ s.gangs, g.tower ≠ t) →
        exec (.maint t) s = .next (endCommand (if field c 8 1 = 0 then offer s2 t none else s2) t 0))
    ∧ (∀ t s c, CommandAt 0x11 t s c → field c 8 2 ≤ 1023 → exec (.setLink t) s = .next (endCommand (applyMask { s with moduleId := field c 8 2, portMask := BitVec.ofNat 16 (field c 0xA 2) }) t 0))
    ∧ (∀ t s c, CommandAt 0x12 t s c → let w : Window := Window.mk (field c 8 1) (BitVec.ofNat 16 (field c 0xA 2)) (BitVec.ofNat 64 (field c 0x10 8)) (BitVec.ofNat 64 (field c 0x18 8)) (field c 9 1 % 2 == 1) (field c 9 1 / 2 % 2 == 1) (BitVec.ofNat 16 (field c 0xC 2))
        field c 9 1 ≤ 3 → w.asid ≠ 0 → (w.anyPeer = true ∨ w.peer.toNat ≤ 1023) → w.va.toNat % 4096 = 0 → w.len.toNat % 4096 = 0 → w.len ≠ 0 →
        (∀ x ∈ s.windows, x.num ≠ w.num) → exec (.openWindow t) s = .next (endCommand { s with windows := w :: s.windows } t 0))
    ∧ (∀ t s c, CommandAt 0x13 t s c → (∃ w ∈ s.windows, w.num = field c 8 1) →
        (Config.windowUsed s.nextId (field c 8 1) = false →
          exec (.closeWindow t) s = .next (endCommand (State.fresh { s with windows := s.windows.filter (·.num != field c 8 1) }) t 0))
        ∧ (Config.windowUsed s.nextId (field c 8 1) = true → exec (.closeWindow t) s = .next (endCommand s.fresh t 4)))
    ∧ (∀ t s c, CommandAt 0x14 t s c → let at_ := field c 0x10 8
        let h := physRead s at_ 64
        physOk at_ 64 64 = true → field c 0x18 4 = 64 + field h 8 4 + 384 → physOk at_ (field c 0x18 4) 64 = true → field h 8 4 % 4 = 0 → field h 0 4 = 0x50483031 →
        zeroAt h 0xC 4 = true → zeroAt h 0x30 16 = true → let version : Word := BitVec.ofNat 32 (field h 4 4)
        let digest : BitVec 256 := BitVec.ofNat 256 (field h 0x10 32)
        exec (.patch t) s = .next (
          if Config.sha256 (physRead s (at_ + 64) (field h 8 4)) = digest ∧ Config.patchVerifies (physRead s at_ (field c 0x18 4)) = true then
            (if version.toNat < Config.minPatchVersion.toNat then endCommand s t 8 else endCommand { s with patch := some { version, digest, image := physRead s at_ (field c 0x18 4) } } t 0)
          else endCommand s t 7))
    ∧ (∀ t s c, CommandAt 0x15 t s c → let body := attestBody s ((c.drop 0x20).take 32)
        physOk (field c 0x10 8) 1024 64 = true →
        exec (.attest t) s = .next (endCommand (physWrite s (field c 0x10 8) (body ++ leBytes 384 (Config.attestSign body).toNat ++ zeros 256)) t 0))
    ∧ (∀ t starts s c, CommandAt 0x16 t s c → (field c 8 1 = 0 →
          exec (.restart t starts) s = .next (startFrom starts (resetModule (endCommand s t 0))))
        ∧ (field c 8 1 = 1 → exec (.restart t starts) s = .next (startFrom starts (resetModule { endCommand s t 0 with
          towers := (endCommand s t 0).towers.map fun (tw : Tower) => { tw with boot := { tw.boot with fails := 0 } } }))))
    ∧ (∀ t s c, admCommand s t = some c → let cols := if field c 0 2 = 0x0F then ((List.range 8).map (8 * field c 8 1 + ·)).filter (s.tower t).present else [field c 9 1]
        (field c 0 2 = 0x0E ∧ field c 8 1 = 0) ∨ field c 0 2 = 0x0F →
        (∀ since, (s.tower t).admSince = some since →
          (since + 100000000 ≤ (s.tower t).time → testable s t cols = false → exec (.selfTestTimeout t) s = .next (endCommand s t 5) ∧ testOver s t = endCommand s t 5)
          ∧ ((s.tower t).time < since + 100000000 ∨ testable s t cols = true → exec (.selfTestTimeout t) s = .next s ∧ testOver s t = s))
        ∧ ∀ v failing, testable s t cols = false →
          let waits : State := s.updTower t fun tw => { tw with admSince := some (tw.admSince.getD tw.time) }
          (CommandAt 0x0E t s c → field c 9 1 < 40 → exec (.selfTest t v) s = .next waits)
          ∧ (CommandAt 0x0F t s c → field c 8 1 ≤ 4 → physOk (field c 0x10 8) (64 + 8 * 65536) 64 = true → exec (.stackTest t failing) s = .next waits))
    ∧ (∀ t s op i, AdminStep t op i →
        (admCommand s t = none → exec i s = .next s)
        ∧ (∀ c, admCommand s t = some c → field c 0 2 = 0 ∨ 0x16 < field c 0 2 → exec i s = .next (endCommand s t 1))
        ∧ (∀ c, admCommand s t = some c → field c 0 2 ≠ 0 → field c 0 2 ≤ 0x16 → field c 0 2 ≠ op → exec i s = .next s)
        ∧ (∀ c, admCommand s t = some c → field c 0 2 = op → leaderOp op = true → leaderLive s = false → exec i s = .next s)
        ∧ (∀ c, admCommand s t = some c → field c 0 2 = op → (leaderOp op = true → leaderLive s = true) → operandsClean op c = false → exec i s = .next (endCommand s t 1))
        ∧ ∀ c status, CommandAt op t s c → FirstIs status (adminFailures t s c op) → exec i s = .next (endCommand s t status))
    ∧ (∀ s t, (∀ c, admCommand s t = some c → 0x11 ≤ field c 0 2 → field c 0 2 ≤ 0x15 → loseLeader s t = endCommand s t 10)
        ∧ ((∀ c, admCommand s t = some c → field c 0 2 < 0x11 ∨ 0x15 < field c 0 2) → loseLeader s t = s))
    ∧ (∀ s t status, endCommand s t status = (physWrite s ((s.tower t).admq.base.toNat + 64 * ((s.tower t).admq.head.toNat % 256) + 2) (leBytes 2 status)).updTower t fun tw =>
        { tw with admq := { tw.admq with head := tw.admq.head + 1 }, admSince := none, irq := tw.irq ||| 1#5,
                  sent := if tw.irq.getLsbD 0 then tw.sent else tw.sent ++ [0] })
    ∧ ∀ s pa bs, let u := physWrite s pa bs
      { u with hbm := s.hbm, towers := s.towers } = s
      ∧ ∀ t, { u.tower t with cols := [], l2 := [], rdc := [], bank := [] } = { s.tower t with cols := [], l2 := [], rdc := [], bank := [] }
        ∧ ((u.tower t).cols.map fun co => { co with lines := [] }) = (s.tower t).cols.map fun co => { co with lines := [] }

/-- R103, R355, R360, R367, R368 and R374. That a follower claims with epoch + 1 is log 22; that a transfer needs any port of the module, and moves its data and writes its completion word in one step, is log 61; the seconds of a port, and flits and retries that are free, counted per transfer, are log 75: the model's choices. -/
def Obligations.LinksHostAndLease : Prop :=
  (∀ t v s tail, (s.tower t).linkq.judge (v.setWidth 32) = some tail → (s.tower t).linkq.baseOk t = true → linksRun s t = true →
        ∃ u, exec (.linkqTailWrite t v) s = .next u ∧ (u.tower t).linkq.tail = tail ∧ (u.tower t).linkq.head = (s.tower t).linkq.head
        ∧ (u.tower t).links.length = (s.tower t).links.length + (tail - (s.tower t).linkq.tail).toNat ∧ u.hbm = s.hbm ∧ u.gangs = s.gangs)
    ∧ (∀ t v slot status data s, linksRun s t = false → exec (.linkqTailWrite t v) s = .next s ∧ exec (.linkTransfer t slot) s = .next s
        ∧ exec (.linkTransferComplete t slot status data) s = .next s)
    ∧ (∀ t slot s x, linksRun s t = true → (s.tower t).links.find? (fun x => x.ctr.toNat % 256 == slot && !x.started) = some x →
        let status : Option Byte := if !x.ok then some 5 else if !(Four.all.any (portUp s)) then some 4 else none
        exec (.linkTransfer t slot) s = .next (s.updTower t fun tw => tw.updLink x.ctr fun x => { x with started := true, status }))
    ∧ (∀ t slot status data s x, linksRun s t = true → (s.tower t).links.find? (fun x => x.ctr.toNat % 256 == slot && x.started && !x.answered) = some x → linkAnswer x status data = true →
        let r := linkEffect (countRetries s).fresh x status data
        let cva := BitVec.ofNat 64 (field x.bytes 0x20 8)
        rangeFault r.1 x.lasid cva 8 .write true = none →
        exec (.linkTransferComplete t slot status data) s = .next ((sysWrite r.1 x.lasid cva (leBytes 8 r.2.toNat)).updTower t fun tw =>
          Tower.advanceLinks (Tower.updLink { tw with rdc := tw.rdc.filter (·.asid != x.lasid) } x.ctr fun x => { x with answered := true })))
    ∧ (∀ s x status data, x.status = none → field x.bytes 2 1 = 1 → rangeFault s x.lasid x.lva x.count .write false = none →
        linkEffect s x status data = (sysWrite s x.lasid x.lva (data.take x.count), status))
    ∧ (∀ t win peer off len bs s w, windowFor s win peer (off : DWord).toNat bs.length true = some w → rangeFault s w.asid (w.va + off) bs.length .write false = none →
        exec (.peerAccess t win peer off len (some bs)) s = .next (sysWrite s w.asid (w.va + off) bs))
    ∧ (∀ t win peer off len s w, windowFor s win peer (off : DWord).toNat len false = some w → rangeFault s w.asid (w.va + off) len .read false = none →
        exec (.peerAccess t win peer off len none) s = .next (sysRead s w.asid (w.va + off) len).1)
    ∧ (∀ t win peer off len write s, windowFor s win peer (off : DWord).toNat (match write with | some bs => bs.length | none => len) write.isSome = none →
        exec (.peerAccess t win peer off len write) s = .next s)
    ∧ (∀ asid va len bs s, (rangeFault s asid va bs.length .write false = none → exec (.hostAccess asid va len (some bs)) s = .next (sysWrite s asid va bs))
        ∧ (rangeFault s asid va bs.length .write false ≠ none → exec (.hostAccess asid va len (some bs)) s = .next s)
        ∧ (rangeFault s asid va len .read false = none → exec (.hostAccess asid va len none) s = .next (sysRead s asid va len).1)
        ∧ (rangeFault s asid va len .read false ≠ none → exec (.hostAccess asid va len none) s = .next s))
    ∧ (∀ t (port : Four) (retries : Word) s, let p := (s.tower t).ports.get port
        let n := if p.state = 2 then p.flits + Config.portFlits s.nextId (4 * t.val + port.val) else p.flits
        let m := if p.state = 2 then p.errs + retries.toNat else p.errs
        let met : Port := { p with flits := n, errs := m, retries := if p.state = 2 then p.retries + retries else p.retries }
        let past := p.since + 1000000000 ≤ (s.tower t).time
        let worn := p.state = 2 ∧ n < m * 1000000
        ∃ u, exec (.portDown t port retries) s = .next u ∧ u.hbm = s.hbm ∧ u.gangs = s.gangs
        ∧ (¬past → (u.tower t).ports.get port = met ∧ (u.tower t).irq = (s.tower t).irq)
        ∧ (past → (u.tower t).ports.get port = { met with state := if worn then 0 else p.state, flits := 0, errs := 0, since := (s.tower t).time })
        ∧ (past → worn → (u.tower t).irq.getLsbD 4 = true))
    ∧ (∀ s t k, let p := (s.tower t).ports.get k
        ((portSeconds s t).tower t).ports.get k = (if p.state = 2 ∧ p.since + 1000000000 ≤ (s.tower t).time
          then { p with state := if p.flits < p.errs * 1000000 then 0 else 2, flits := 0, errs := 0, since := (s.tower t).time } else p))
    ∧ (∀ s t (k : Four), let p := (s.tower t).ports.get k
        let errs := Config.portRetries s.nextId (4 * t.val + k.val)
        ((countRetries s).tower t).ports.get k = (if p.state = 2 then { p with
          flits := p.flits + Config.portFlits s.nextId (4 * t.val + k.val), errs := p.errs + errs, retries := p.retries + BitVec.ofNat 32 errs } else p))
    ∧ (∀ t port state peersw s, state ≠ 3 → (state = 0 ∨ portEnabled s t port = true) → let p := (s.tower t).ports.get port
        ∃ u, exec (.portStateChange t port state peersw) s = .next u
        ∧ (p.state ≠ state → (u.tower t).ports.get port = { p with state, peersw, flits := 0, errs := 0, since := (s.tower t).time } ∧ (u.tower t).irq.getLsbD 4 = true)
        ∧ (p.state = state → (u.tower t).ports.get port = { p with peersw } ∧ (u.tower t).irq = (s.tower t).irq))
    ∧ (∀ t s, (s.tower t).boot.leader = true → s.lease.leader = t → s.lease.expiry.toNat ≤ (s.tower t).time + 8000000 →
        exec (.leaseRenew t) s = .next { s with lease := { s.lease with expiry := BitVec.ofNat 64 ((s.tower t).time + 10000000) } })
    ∧ (∀ t s, s.lease.leader ≠ t → ((s.tower t).boot.state = 4 ∨ (s.tower t).boot.state = 5) → s.lease.expiry.toNat + 5000000 * leaseRank s t ≤ (s.tower t).time →
        exec (.leaseClaim t) s = .next (Four.all.foldl loseLeader (lead s t (s.lease.epoch + 1))))
    ∧ (∀ t off size v s, (size ≠ 8 ∨ (off : BitVec 18).toNat % 8 ≠ 0) → exec (.registerWrite t off size v) s = .next s)
    ∧ (∀ t v s, exec (.registerWrite t 0x28 8 v) s = exec (.admqTailWrite t v) s ∧ exec (.registerWrite t 0x48 8 v) s = exec (.trapqConsWrite t v) s
        ∧ exec (.registerWrite t 0x68 8 v) s = exec (.fltqConsWrite t v) s ∧ exec (.registerWrite t 0x90 8 v) s = exec (.linkqTailWrite t v) s
        ∧ exec (.registerWrite t 0x20 8 v) s = .next (s.updTower t fun tw => { tw with admq := { tw.admq with base := v } })
        ∧ exec (.registerWrite t 0x80 8 v) s = .next (s.updTower t fun tw => { tw with irq := tw.irq &&& ~~~(v.setWidth 5) })
        ∧ exec (.registerWrite t 0x88 8 v) s = .next (s.updTower t fun tw => { tw with linkq := { tw.linkq with base := v } })
        ∧ exec (.registerWrite t 0x18 8 v) s = .next (s.updTower t fun tw => { tw with lock := { tw.lock with lost := tw.lock.lost && !v.getLsbD 1 } })
        ∧ exec (.registerWrite t 0x58 8 v) s = .next (s.updTower t fun tw => { tw with trapq := { tw.trapq with
            badReply := tw.trapq.badReply && !v.getLsbD 0, ringErr := tw.trapq.ringErr && !v.getLsbD 2, badCons := tw.trapq.badCons && !v.getLsbD 3 } })
        ∧ exec (.registerWrite t 0x78 8 v) s = .next (s.updTower t fun tw => { tw with fltq := { tw.fltq with
            badReply := tw.fltq.badReply && !v.getLsbD 0, ringErr := tw.fltq.ringErr && !v.getLsbD 2, badCons := tw.fltq.badCons && !v.getLsbD 3 } }))
    ∧ (∀ t v s, let s0 := s.updTower t fun tw => { tw with trapq := { tw.trapq with reply := v } }
        let bad (s : State) : State := s.updTower t fun tw => { tw with trapq := { tw.trapq with badReply := true } }
        (exec (.registerWrite t 0x50 8 v) s = exec (.resume t v) s ∧ exec (.registerWrite t 0x50 8 v) s = exec (.kill t v) s
          ∧ exec (.registerWrite t 0x50 8 v) s = exec (.divert t v) s)
        ∧ (replyBlock s0 t v = none → exec (.registerWrite t 0x50 8 v) s = .next (bad s0))
        ∧ ∀ s1 block, replyBlock s0 t v = some (s1, block) →
          let named := (s1.tower t).trapq.waiting.find? (·.1 == BitVec.ofNat 32 (field block 0 4))
          (named = none ∨ field block 8 1 < 1 ∨ 3 < field block 8 1 → exec (.registerWrite t 0x50 8 v) s = .next (bad s1))
          ∧ ∀ x, named = some x → 1 ≤ field block 8 1 → field block 8 1 ≤ 3 → recordKilled s1 t x.2 = true → exec (.registerWrite t 0x50 8 v) s = .next s1)
    ∧ (∀ t (v : DWord) s, let index : Word := v.setWidth 32
        let s0 := s.updTower t fun tw => { tw with fltq := { tw.fltq with reply := (v.extractLsb' 0 34).setWidth 64 } }
        (v.extractLsb' 32 2 = 0 → exec (.registerWrite t 0x70 8 v) s = exec (.retry t index) s)
        ∧ (v.extractLsb' 32 2 = 1 → exec (.registerWrite t 0x70 8 v) s = exec (.fail t index) s)
        ∧ (v.getLsbD 33 = true ∨ (s.tower t).fltq.waiting.find? (·.1 == index) = none →
          exec (.registerWrite t 0x70 8 v) s = .next (s0.updTower t fun tw => { tw with fltq := { tw.fltq with badReply := true } })))
    ∧ (∀ t (off : BitVec 18) v s, off.toNat ∉ [0x18, 0x20, 0x28, 0x48, 0x50, 0x58, 0x68, 0x70, 0x78, 0x80, 0x88, 0x90] → off.toNat < 0x10000 ∨ 0x12000 ≤ off.toNat →
        exec (.registerWrite t off 8 v) s = .next s)
    ∧ ∀ t (queue : Nat) v s, queue < 1024 → exec (.registerWrite t (BitVec.ofNat 18 (0x10000 + 8 * queue)) 8 v) s = exec (.wakeRegisterWrite t queue v) s

/-- R341, R356, R361 to R365, R369. The model's choices: HBM reads blank after a loss of power (log 1); HBM after a reset is as writeBackAll leaves it (log 21); tower 0 leads first (log 22); a reset in minimal mode comes up in minimal mode again (log 86); the order of the stages, spares that survive a loss of power, what each attempt finds as an input of the step, and STATE 0 where none is left (log 58); that an event which names no unit changes nothing (log 23); one error a test, and the end of the drain (log 59); the step of the count to the later of it and the sample before lock, and the rate law (log 60); what a failed test of units 5 and 7 to 9 does at the next start (log 76). -/
def Obligations.StartsErrorsAndTime : Prop :=
  (∀ starts more s, (∀ t, (starts.get t).coreBad = [] ∧ (starts.get t).storeBad = [] ∧ (starts.get t).vertBad = [] ∧ (starts.get t).stackBad = none
          ∧ (starts.get t).uncorrected = none ∧ (starts.get t).stalls = none ∧ (s.tower t).failNext = none) → (∀ t, (starts.get t).noLeader = false) →
        (∀ x, s.patch = some x → x.stands = true) → (s.tower 0).boot.fails < 3 →
        ∃ u, exec (.reset (starts :: more)) s = .next u ∧ u.hbm = (writeBackAll s).hbm ∧ u.patch = s.patch ∧ u.applied = s.patch ∧ u.launches = [] ∧ u.gangs = [] ∧ u.spaces = []
        ∧ u.startAt = none ∧ u.lease.leader = 0 ∧ ∀ t, (u.tower t).boot.state = 4 ∧ (u.tower t).boot.maint = false ∧ (u.tower t).boot.fails = 0
          ∧ (u.tower t).boot.leader = (t == 0) ∧ (u.tower t).queues = [] ∧ (u.tower t).irq.getLsbD 3 = true)
    ∧ (∀ x xs s, 3 ≤ ((resetModule s).tower 0).boot.fails → exec (.reset (x :: xs)) s = .next (minimalMode
        (startStage { resetModule s with towers := (resetModule s).towers.map Tower.numbered } x 1 Tower.selfTested).1))
    ∧ (∀ s, exec (.reset []) s = .next (resetModule s))
    ∧ (∀ x s, let s1 : State := { s with towers := s.towers.map Tower.numbered }
        let r1 := startStage s1 x 1 Tower.selfTested
        let r2 := startStage r1.1 x 2 fun x tw => ({ (tw.trained x).1 with failNext := none }, (tw.trained x).2)
        (∀ r, r1.2 = some r → attemptOnce s x = .failed r1.1 r)
        ∧ (r1.2 = none → (∀ r, r2.2 = some r → attemptOnce s x = .failed r2.1 r)
          ∧ (r2.2 = none →
            ((∃ t, (x.get t).stalls ≠ none) → ∃ u, attemptOnce s x = .stalled u ∧ ∀ t n, (x.get t).stalls = some n → (u.tower t).boot.state = n.toNat)
            ∧ ((∀ t, (x.get t).stalls = none) →
              ((∃ t, (x.get t).noLeader = true) → attemptOnce s x = .failed r2.1 7)
              ∧ ((∀ t, (x.get t).noLeader = false) → (∀ p, r2.1.patch = some p → p.stands = false → attemptOnce s x = .failed r2.1 6)
                ∧ ((∀ p, r2.1.patch = some p → p.stands = true) → attemptOnce s x = .ready (readyAll r2.1)))))))
    ∧ (∀ x xs s, startFrom [] s = { s with tries := [] }
        ∧ (∀ u, attemptOnce s x = .ready u → startFrom (x :: xs) s = u)
        ∧ (∀ u, attemptOnce s x = .stalled u → startFrom (x :: xs) s = { u with tries := xs })
        ∧ ∀ u reason, attemptOnce s x = .failed u reason → startFrom (x :: xs) s = failStart u reason xs)
    ∧ (∀ s reason starts, (∀ t, (s.tower t).boot.fails = (s.tower 0).boot.fails) → let u := failStart s reason starts
        let counted : State := { s with towers := s.towers.map fun tw => { tw with boot := { tw.boot with reason := reason, fails := min 3 (tw.boot.fails + 1) } } }
        ((s.tower 0).boot.fails + 1 < 3 → u = startFrom starts (resetModule counted))
        ∧ ((s.tower 0).boot.fails + 1 < 3 → starts = [] → u.startAt = some 0
          ∧ ∀ t, (u.tower t).boot.reason = reason ∧ (u.tower t).boot.fails = (s.tower t).boot.fails + 1 ∧ (u.tower t).boot.state = 0)
        ∧ (3 ≤ (s.tower 0).boot.fails + 1 → u = minimalMode counted ∧ u.startAt = none ∧ u.tries = []
          ∧ ∀ t, (u.tower t).boot.reason = reason ∧ (u.tower t).boot.fails = 3
            ∧ ((s.tower t).boot.passed = true → (∀ k, k < t → (s.tower k).boot.passed = false) →
              (u.tower t).boot.state = 5 ∧ (u.tower t).boot.minimal = true ∧ (u.tower t).boot.leader = true ∧ ∀ k, k ≠ t → (u.tower k).boot.state = 6)))
    ∧ (∀ (tw : Tower) (x : TowerStart) e, x.stackBad = none → x.uncorrected = some e → let u := ErrUnit.named e.1 e.2.1 e.2.2
        u.exists = true → tw.trained x = ({ tw.logError (errWord u.unit u.index u.sub false 2 0) with errUnits := tw.errUnits ++ [u] }, some 8))
    ∧ (∀ unit index sub, let u := ErrUnit.named unit index sub
        u.unit = unit ∧ (unit ≠ 8 → u.index = index) ∧ (unit = 8 → u.index = 0) ∧ (unit ≠ 0 → unit ≠ 2 → u.sub = 0xFF) ∧ (unit = 0 ∨ unit = 2 → u.sub.toNat = sub.toNat % 4)
        ∧ (u.exists = true ↔ unit = 5 ∨ unit = 8 ∨ u.index.toNat < [40, 40, 40, 16, 4, 0, 128, 6, 0, 4].getD unit.toNat 0))
    ∧ (∀ starts s t0, s.startAt = some t0 →
        (t0 + 5000000000 ≤ (s.tower 0).time → exec (.startTimeout starts) s = .next (failStart s 5 starts) ∧ startDue s = failStart s 5 s.tries)
        ∧ ((s.tower 0).time < t0 + 5000000000 → exec (.startTimeout starts) s = .next s ∧ startDue s = s))
    ∧ (∀ starts s, s.startAt = none → exec (.startTimeout starts) s = .next s ∧ startDue s = s)
    ∧ (∀ s, ∃ u, exec .powerLoss s = .next u ∧ u.hbm = [] ∧ u.patch = none ∧ u.gangs = [] ∧ u.launches = [] ∧ u.startAt = some 0
        ∧ ∀ t, (u.tower t).boot.state = 0 ∧ (u.tower t).boot.fails = 0 ∧ (u.tower t).boot.cols = (s.tower t).boot.cols ∧ (u.tower t).spares = (s.tower t).spares)
    ∧ (∀ t reference s, ∃ u, exec (.ptpSample t reference) s = .next u ∧ (s.tower t).time ≤ (u.tower t).time ∧ u.hbm = s.hbm
        ∧ let ref := reference % 2 ^ 64
          let near := (s.tower t).time ≤ ref + 50 ∧ ref ≤ (s.tower t).time + 50
          let held := (s.tower t).lock.locked = true ∧ (s.tower t).time < (s.tower t).lock.lastSample + 10000000
          (held → (u.tower t).time = (s.tower t).time ∧ ((u.tower t).lock.locked = true ↔ near)
            ∧ (near → -100000 ≤ (u.tower t).rate ∧ (u.tower t).rate ≤ 100000) ∧ (¬near → (u.tower t).rate = (s.tower t).rate))
          ∧ (¬held → (u.tower t).rate = (s.tower t).rate
            ∧ (near → ((u.tower t).lock.locked = true ↔ (s.tower t).lock.locked = false ∧ 16 ≤ (s.tower t).lock.good + 1))
            ∧ (¬near → (u.tower t).lock.locked = false ∧ (u.tower t).time = max (s.tower t).time ref)))
    ∧ (∀ t s, ∃ u, exec (.lockTimeout t) s = .next u
        ∧ ((s.tower t).lock.locked = true → (s.tower t).lock.lastSample + 10000000 ≤ (s.tower t).time → (u.tower t).lock.locked = false ∧ (u.tower t).lock.lost = true)
        ∧ ((s.tower t).time < (s.tower t).lock.lastSample + 10000000 → (u.tower t).lock = (s.tower t).lock))
    ∧ (∀ t (e : ErrorEvent) s, let u := ErrUnit.named e.unit e.index e.sub
        let struck := if e.corrected then [] else e.launches.filter fun id => (s.launch? id).any (·.finished.isNone)
        let outcome : BitVec 3 := if e.corrected then 0 else if struck = [] then 2 else 1
        let s2 := s.updTower t fun tw => { tw.logError (errWord u.unit u.index u.sub e.corrected outcome e.loc) with
          errUnits := tw.errUnits ++ [u]
          cols := if u.unit.toNat ≤ 2 then updAt tw.cols u.index.toNat fun co => { co with draining := true } else tw.cols }
        (u.exists = true → exec (.errorDetected t e) s = .next (struck.foldl (killLaunch .device) (if u.unit.toNat ≤ 2 then cancelMoves s2 t [u.index.toNat] else s2))
          ∧ (struck = [] → ∃ v, exec (.errorDetected t e) s = .next v ∧ (v.tower t).errcnt = (s.tower t).errcnt + 1 ∧ (v.tower t).errUnits = (s.tower t).errUnits ++ [u]
            ∧ (u.unit.toNat ≤ 2 → u.index.toNat < (s.tower t).cols.length → (v.col t u.index.toNat).draining = true)))
        ∧ (u.exists = false → exec (.errorDetected t e) s = .next s))
    ∧ (∀ by_ s id (l : Launch), s.launch? id = some l → killLaunch by_ s id = checkDone (l.map.eraseDups.foldl (fun s t => killTower by_ s id t)
        (s.updLaunch id fun x => { x with
          hostKill := x.hostKill || (by_ == .host && x.finished.isNone)
          deviceKill := x.deviceKill || (by_ == .device && x.finished.isNone) })) id)
    ∧ ∀ t unit index v s e, (s.tower t).errUnits.find? (fun e => e.unit == unit && e.index == index) = some e →
        (2 < unit.toNat → exec (.targetedSelfTest t unit index v) s =
          .next ((concludeUnit s t unit index e.sub v).updTower t fun tw => { tw with errUnits := tw.errUnits.filter (· != e) }))
        ∧ (unit.toNat ≤ 2 → columnFree s t index.toNat = true →
          let s1 := (concludeColumn s t unit index e.sub v).updTower t fun tw => { tw with errUnits := tw.errUnits.filter (· != e) }
          (∀ x ∈ (s1.tower t).errUnits, ¬(x.unit.toNat ≤ 2 ∧ x.index = index)) →
          exec (.targetedSelfTest t unit index v) s = .next (offer (s1.updCol t index.toNat fun co => { co with draining := false }) t (some index.toNat)))

/-- R355 with the tables of R325, R356, R357, R368 and R372; the read of a wake register is R291. That FULL, bit 1 of a ring's STAT, is set only while the ring is full and a record waits for room is the model's reading (log 95). -/
def Obligations.HostReadsTheWindow : Prop :=
  (∀ (s : State) t (off : BitVec 18) size, size ≠ 8 ∨ off.toNat % 8 ≠ 0 → s.readRegister t off size = 0)
    ∧ (∀ (s : State) t, let tw := s.tower t
      let rd (off : BitVec 18) := s.readRegister t off 8
      rd 0x00 = BitVec.ofNat 64 tw.boot.tcap ∧ rd 0x08 = BitVec.ofNat 64 tw.boot.bootstat ∧ rd 0x10 = tw.clock
      ∧ (rd 0x18).getLsbD 0 = tw.lock.locked ∧ (rd 0x18).getLsbD 1 = tw.lock.lost ∧ (rd 0x18) &&& ~~~3 = 0
      ∧ rd 0x20 = tw.admq.base ∧ rd 0x28 = tw.admq.tail.setWidth 64 ∧ rd 0x30 = tw.admq.head.setWidth 64
      ∧ rd 0x40 = tw.trapq.prod.setWidth 64 ∧ rd 0x48 = tw.trapq.cons.setWidth 64 ∧ rd 0x50 = tw.trapq.reply
      ∧ (rd 0x58).getLsbD 0 = tw.trapq.badReply ∧ (rd 0x58).getLsbD 1 = tw.trapq.isFull ∧ (rd 0x58).getLsbD 2 = tw.trapq.ringErr
      ∧ (rd 0x58).getLsbD 3 = tw.trapq.badCons ∧ (rd 0x58) &&& ~~~15 = 0
      ∧ rd 0x60 = tw.fltq.prod.setWidth 64 ∧ rd 0x68 = tw.fltq.cons.setWidth 64 ∧ rd 0x70 = tw.fltq.reply
      ∧ (rd 0x78).getLsbD 0 = tw.fltq.badReply ∧ (rd 0x78).getLsbD 1 = tw.fltq.isFull ∧ (rd 0x78).getLsbD 2 = tw.fltq.ringErr
      ∧ (rd 0x78).getLsbD 3 = tw.fltq.badCons ∧ (rd 0x78) &&& ~~~15 = 0
      ∧ rd 0x80 = tw.irq.setWidth 64 ∧ rd 0x88 = tw.linkq.base ∧ rd 0x90 = tw.linkq.tail.setWidth 64 ∧ rd 0x98 = tw.linkq.head.setWidth 64
      ∧ rd 0xA0 = tw.errcnt.setWidth 64)
    ∧ (∀ (s : State) t (off : BitVec 18), off.toNat = 0x38 ∨ (0xA8 ≤ off.toNat ∧ off.toNat < 0x100) ∨ (0x120 ≤ off.toNat ∧ off.toNat < 0x400)
        ∨ (0x800 ≤ off.toNat ∧ off.toNat < 0x10000) ∨ 0x12000 ≤ off.toNat → s.readRegister t off 8 = 0)
    ∧ (∀ (r : Ring), r.isFull = true ↔ ∃ c, r.cfg = some c ∧ r.held ≠ [] ∧ 2 ^ c.rlog ≤ (r.prod - r.cons).toNat)
    ∧ (∀ (s : State) t (k : Four), let x := s.readRegister t (BitVec.ofNat 18 (0x100 + 8 * k.val)) 8
      x.extractLsb' 0 2 = ((s.tower t).ports.get k).state ∧ x.extractLsb' 2 14 = 0 ∧ x.extractLsb' 16 32 = ((s.tower t).ports.get k).retries
      ∧ x.extractLsb' 48 16 = ((s.tower t).ports.get k).peersw)
    ∧ (∀ (s : State) t n, n < 64 → s.readRegister t (BitVec.ofNat 18 (0x400 + 16 * n)) 8 = ((s.tower t).errlog.getD n (0, 0)).1
      ∧ s.readRegister t (BitVec.ofNat 18 (0x408 + 16 * n)) 8 = ((s.tower t).errlog.getD n (0, 0)).2)
    ∧ ∀ (s : State) t n, n < 1024 → (∀ q, s.queue? t n = some q → s.readRegister t (BitVec.ofNat 18 (0x10000 + 8 * n)) 8 = q.accepted.setWidth 64)
      ∧ (s.queue? t n = none → s.readRegister t (BitVec.ofNat 18 (0x10000 + 8 * n)) 8 = 0)

/-- Reset values that the manual states (R38 for the number of work queues, R272 for the 2000 ms of the watchdog, R307, R317 and R371 for MODE, FLOOR, HOT, COOL and UTIL of an HBM stack, R325, R356, R357, R372). TCAP.COLS, IRQ.STAT, the tail registers, the STATE that a stack holds, the binding of a work queue and what else has no stated value are log 2 and stand in no clause here. -/
def Obligations.ResetLeavesTheRegistersSo : Prop :=
  State.reset.launches = [] ∧ State.reset.gangs = [] ∧ State.reset.stores = [] ∧ State.reset.reds = [] ∧ State.reset.spaces = [] ∧ State.reset.windows = []
    ∧ State.reset.patch = none ∧ ∀ t, let tw := State.reset.tower t
      tw.time = 0 ∧ tw.errcnt = 0 ∧ tw.watchdogMs = 2000 ∧ tw.queues = [] ∧ tw.boot.state = 0 ∧ tw.boot.maint = true ∧ tw.boot.minimal = false
      ∧ tw.boot.slots = 32 ∧ tw.boot.fails = 0 ∧ tw.boot.leader = false ∧ tw.lock.locked = false ∧ tw.lock.lost = false
      ∧ tw.trapq.cfg = none ∧ tw.trapq.prod = 0 ∧ tw.trapq.cons = 0 ∧ tw.fltq.cfg = none ∧ tw.fltq.prod = 0 ∧ tw.fltq.cons = 0
      ∧ tw.wqs.length = 16 ∧ (∀ x ∈ tw.laws, x = ⟨1120, 8, 64, 32⟩) ∧ tw.laws.length = 5
      ∧ ∀ k, let st := tw.hbmStacks.get k
        st.mode = 0 ∧ st.floor = 3 ∧ st.hot = 1360 ∧ st.cool = 1200 ∧ st.util = 25
end

