-- ==== Sys2Proof/Laws/Memory.lean ====
section
/-!
SUPPORT. Memory: every operation keeps the canonical form, and a byte written is the byte read, the others as before.
-/

set_option Elab.async false

namespace Sys2Proof.Machine

/-- The canonical form, said of the list as a whole. -/
theorem Memory.above_iff {lo : Nat} {m : Memory} :
    Memory.above lo m = true ↔ (∀ c ∈ m, lo ≤ c.1 ∧ c.2 ≠ Memory.blank) ∧ m.Pairwise fun a b => a.1 < b.1 := by
  induction m generalizing lo with
  | nil => simp [Memory.above]
  | cons c m ih =>
    obtain ⟨k, x⟩ := c
    simp only [Memory.above, Bool.and_eq_true, decide_eq_true_eq, ih, List.mem_cons, forall_eq_or_imp, List.pairwise_cons]
    constructor
    · rintro ⟨h, h2, h3⟩
      exact ⟨⟨h, fun c hc => ⟨by have := (h2 c hc).1; omega, (h2 c hc).2⟩⟩, fun c hc => by have := (h2 c hc).1; omega, h3⟩
    · rintro ⟨⟨h, h2⟩, h3, h4⟩
      exact ⟨h, fun c hc => ⟨by have := h3 c hc; omega, (h2 c hc).2⟩, h4⟩

theorem Memory.wf_iff {m : Memory} :
    m.wf = true ↔ (∀ c ∈ m, c.2 ≠ Memory.blank) ∧ m.Pairwise fun a b => a.1 < b.1 := by
  simp [Memory.wf, above_iff]

theorem Memory.above_mono {lo hi : Nat} {m : Memory} (h : lo ≤ hi) (w : Memory.above hi m = true) : Memory.above lo m = true := by
  rw [above_iff] at *; exact ⟨fun c hc => ⟨by have := (w.1 c hc).1; omega, (w.1 c hc).2⟩, w.2⟩

theorem Memory.above_set {lo a : Nat} {b : Byte} {m : Memory} (h : lo ≤ a) (w : Memory.above lo m = true) :
    Memory.above lo (m.set a b) = true := by
  induction m generalizing lo with
  | nil => by_cases hb : b = Memory.blank <;> simp [Memory.set, Memory.above, hb, h]
  | cons c m ih =>
    obtain ⟨k, x⟩ := c
    simp only [Memory.above, Bool.and_eq_true, decide_eq_true_eq] at w
    simp only [Memory.set]
    split
    · split
      · simp only [Memory.above, Bool.and_eq_true, decide_eq_true_eq]; exact w
      · simp only [Memory.above, Bool.and_eq_true, decide_eq_true_eq]
        exact ⟨⟨h, ‹_›⟩, ⟨⟨by omega, w.1.2⟩, w.2⟩⟩
    · split
      · split
        · exact above_mono (by omega) w.2
        · simp only [Memory.above, Bool.and_eq_true, decide_eq_true_eq]
          exact ⟨⟨h, ‹_›⟩, above_mono (by omega) w.2⟩
      · simp only [Memory.above, Bool.and_eq_true, decide_eq_true_eq]
        exact ⟨w.1, ih (by omega) w.2⟩

/-- A byte written keeps the canonical form. -/
theorem Memory.wf_set {a : Nat} {b : Byte} {m : Memory} (w : m.wf = true) : (m.set a b).wf = true :=
  above_set (Nat.zero_le a) w

/-- Bytes written keep the canonical form. -/
theorem Memory.wf_write {bs : List Byte} {a : Nat} {m : Memory} (w : m.wf = true) : (m.write a bs).wf = true := by
  induction bs generalizing a m with
  | nil => exact w
  | cons b bs ih => exact ih (wf_set w)

theorem Memory.get_above {lo a : Nat} {m : Memory} (w : Memory.above lo m = true) (h : a < lo) : m.get a = Memory.blank := by
  cases m with
  | nil => rfl
  | cons c m =>
    obtain ⟨k, x⟩ := c
    simp only [Memory.above, Bool.and_eq_true, decide_eq_true_eq] at w
    simp only [Memory.get]; rw [if_pos (by omega)]

theorem Memory.get_set_above {lo a x : Nat} {b : Byte} {m : Memory} (w : Memory.above lo m = true) :
    (m.set a b).get x = if x = a then b else m.get x := by
  induction m generalizing lo with
  | nil => simp only [Memory.set]; split <;> grind [Memory.get]
  | cons c m ih =>
    obtain ⟨k, y⟩ := c
    simp only [Memory.above, Bool.and_eq_true, decide_eq_true_eq] at w
    have ih := ih w.2
    have g : ∀ z, z ≤ k → Memory.get m z = Memory.blank := fun z hz => get_above w.2 (by omega)
    simp only [Memory.set]
    split
    · split <;> simp only [Memory.get] <;> grind
    · split
      · split <;> simp only [Memory.get] <;> grind
      · simp only [Memory.get]; grind

/-- The byte at an address after a byte is written. -/
theorem Memory.get_set {a x : Nat} {b : Byte} {m : Memory} (w : m.wf = true) :
    (m.set a b).get x = if x = a then b else m.get x := get_set_above w

/-- Bytes outside a range written are as before. -/
theorem Memory.get_write_other {bs : List Byte} {a x : Nat} {m : Memory} (w : m.wf = true) (h : x < a ∨ a + bs.length ≤ x) :
    (m.write a bs).get x = m.get x := by
  induction bs generalizing a m with
  | nil => rfl
  | cons b bs ih =>
    simp only [Memory.write, List.length_cons] at *
    rw [ih (wf_set w) (by omega), get_set w, if_neg (by omega)]

/-- A byte inside a range written is the byte written there. -/
theorem Memory.get_write_in {bs : List Byte} {a j : Nat} {m : Memory} (w : m.wf = true) (h : j < bs.length) :
    (m.write a bs).get (a + j) = bs[j] := by
  induction bs generalizing a m j with
  | nil => simp at h
  | cons b bs ih =>
    simp only [Memory.write]
    cases j with
    | zero => rw [get_write_other (wf_set w) (by omega), get_set w]; simp
    | succ j =>
      have := ih (a := a + 1) (m := m.set a b) (j := j) (wf_set w) (by simpa using h)
      rw [show a + (j + 1) = a + 1 + j by omega, this]; rfl

/-- Bytes written and read back. -/
theorem Memory.read_write {bs : List Byte} {a : Nat} {m : Memory} (w : m.wf = true) : (m.write a bs).read a bs.length = bs := by
  apply List.ext_getElem
  · simp [Memory.read]
  · intro j h1 h2
    simp only [Memory.read, List.getElem_map, List.getElem_range]
    exact get_write_in w h2

/-- A range moved to address 0 is in the canonical form. -/
theorem Memory.wf_slice {a n : Nat} {m : Memory} (w : m.wf = true) : (m.slice a n).wf = true := by
  rw [wf_iff] at *
  constructor
  · intro c hc
    simp only [Memory.slice, List.mem_filterMap] at hc
    obtain ⟨d, hd, e⟩ := hc
    split at e
    · cases e; exact w.1 d hd
    · cases e
  · simp only [Memory.slice]
    refine List.Pairwise.filterMap _ ?_ w.2
    intro c d h e he f hf
    simp only [Option.ite_none_right_eq_some, Option.some.injEq] at he hf
    obtain ⟨h1, rfl⟩ := he; obtain ⟨h2, rfl⟩ := hf
    simp only; omega

/-- A range replaced keeps the canonical form. -/
theorem Memory.wf_paste {a n : Nat} {m img : Memory} (w : m.wf = true) (v : img.wf = true) : (m.paste a n img).wf = true := by
  rw [wf_iff] at *
  constructor
  · intro c hc
    simp only [Memory.paste, List.mem_append, List.mem_filter, List.mem_filterMap] at hc
    rcases hc with (hc | ⟨d, hd, e⟩) | hc
    · exact w.1 c hc.1
    · split at e
      · cases e; exact v.1 d hd
      · cases e
    · exact w.1 c hc.1
  · simp only [Memory.paste, List.pairwise_append, List.mem_append, List.mem_filter, List.mem_filterMap, decide_eq_true_eq]
    refine ⟨⟨w.2.filter _, List.Pairwise.filterMap _ ?_ v.2, ?_⟩, w.2.filter _, ?_⟩
    · intro c d h e he f hf
      simp only [Option.ite_none_right_eq_some, Option.some.injEq] at he hf
      obtain ⟨h1, rfl⟩ := he; obtain ⟨h2, rfl⟩ := hf
      simp only; omega
    · rintro c hc d ⟨e, he, h⟩
      simp only [Option.ite_none_right_eq_some, Option.some.injEq] at h
      obtain ⟨h1, rfl⟩ := h
      simp only; omega
    · rintro c (hc | ⟨e, he, h⟩) d hd
      · omega
      · simp only [Option.ite_none_right_eq_some, Option.some.injEq] at h
        obtain ⟨h1, rfl⟩ := h
        simp only; omega

end Sys2Proof.Machine
end

