-- ==== Sys2Proof/Laws/State.lean ====
section
/-!
SUPPORT. One lemma for each field of the state and each update of it: what the update leaves as it was.
-/

set_option Elab.async false

namespace Sys2Proof.Machine

/-! ### fresh -/

@[simp] theorem fresh_seq (s : State) : (s.fresh).seq = s.seq := rfl
@[simp] theorem fresh_turn (s : State) : (s.fresh).turn = s.turn := rfl
@[simp] theorem fresh_agenda (s : State) : (s.fresh).agenda = s.agenda := rfl
@[simp] theorem fresh_cur (s : State) : (s.fresh).cur = s.cur := rfl
@[simp] theorem fresh_hbm (s : State) : (s.fresh).hbm = s.hbm := rfl
@[simp] theorem fresh_spaces (s : State) : (s.fresh).spaces = s.spaces := rfl
@[simp] theorem fresh_launches (s : State) : (s.fresh).launches = s.launches := rfl
@[simp] theorem fresh_gangs (s : State) : (s.fresh).gangs = s.gangs := rfl
@[simp] theorem fresh_stores (s : State) : (s.fresh).stores = s.stores := rfl
@[simp] theorem fresh_reds (s : State) : (s.fresh).reds = s.reds := rfl
@[simp] theorem fresh_prods (s : State) : (s.fresh).prods = s.prods := rfl
@[simp] theorem fresh_bgemvs (s : State) : (s.fresh).bgemvs = s.bgemvs := rfl
@[simp] theorem fresh_towers (s : State) : (s.fresh).towers = s.towers := rfl
@[simp] theorem fresh_lease (s : State) : (s.fresh).lease = s.lease := rfl
@[simp] theorem fresh_patch (s : State) : (s.fresh).patch = s.patch := rfl
@[simp] theorem fresh_applied (s : State) : (s.fresh).applied = s.applied := rfl
@[simp] theorem fresh_moduleId (s : State) : (s.fresh).moduleId = s.moduleId := rfl
@[simp] theorem fresh_portMask (s : State) : (s.fresh).portMask = s.portMask := rfl
@[simp] theorem fresh_windows (s : State) : (s.fresh).windows = s.windows := rfl
@[simp] theorem fresh_startAt (s : State) : (s.fresh).startAt = s.startAt := rfl
@[simp] theorem fresh_tries (s : State) : (s.fresh).tries = s.tries := rfl

/-! ### updTower -/

@[simp] theorem updTower_seq (s : State) (t : Four) (f : Tower → Tower) : (s.updTower t f).seq = s.seq := rfl
@[simp] theorem updTower_nextId (s : State) (t : Four) (f : Tower → Tower) : (s.updTower t f).nextId = s.nextId := rfl
@[simp] theorem updTower_turn (s : State) (t : Four) (f : Tower → Tower) : (s.updTower t f).turn = s.turn := rfl
@[simp] theorem updTower_agenda (s : State) (t : Four) (f : Tower → Tower) : (s.updTower t f).agenda = s.agenda := rfl
@[simp] theorem updTower_cur (s : State) (t : Four) (f : Tower → Tower) : (s.updTower t f).cur = s.cur := rfl
@[simp] theorem updTower_hbm (s : State) (t : Four) (f : Tower → Tower) : (s.updTower t f).hbm = s.hbm := rfl
@[simp] theorem updTower_spaces (s : State) (t : Four) (f : Tower → Tower) : (s.updTower t f).spaces = s.spaces := rfl
@[simp] theorem updTower_launches (s : State) (t : Four) (f : Tower → Tower) : (s.updTower t f).launches = s.launches := rfl
@[simp] theorem updTower_gangs (s : State) (t : Four) (f : Tower → Tower) : (s.updTower t f).gangs = s.gangs := rfl
@[simp] theorem updTower_stores (s : State) (t : Four) (f : Tower → Tower) : (s.updTower t f).stores = s.stores := rfl
@[simp] theorem updTower_reds (s : State) (t : Four) (f : Tower → Tower) : (s.updTower t f).reds = s.reds := rfl
@[simp] theorem updTower_prods (s : State) (t : Four) (f : Tower → Tower) : (s.updTower t f).prods = s.prods := rfl
@[simp] theorem updTower_bgemvs (s : State) (t : Four) (f : Tower → Tower) : (s.updTower t f).bgemvs = s.bgemvs := rfl
@[simp] theorem updTower_lease (s : State) (t : Four) (f : Tower → Tower) : (s.updTower t f).lease = s.lease := rfl
@[simp] theorem updTower_patch (s : State) (t : Four) (f : Tower → Tower) : (s.updTower t f).patch = s.patch := rfl
@[simp] theorem updTower_applied (s : State) (t : Four) (f : Tower → Tower) : (s.updTower t f).applied = s.applied := rfl
@[simp] theorem updTower_moduleId (s : State) (t : Four) (f : Tower → Tower) : (s.updTower t f).moduleId = s.moduleId := rfl
@[simp] theorem updTower_portMask (s : State) (t : Four) (f : Tower → Tower) : (s.updTower t f).portMask = s.portMask := rfl
@[simp] theorem updTower_windows (s : State) (t : Four) (f : Tower → Tower) : (s.updTower t f).windows = s.windows := rfl
@[simp] theorem updTower_startAt (s : State) (t : Four) (f : Tower → Tower) : (s.updTower t f).startAt = s.startAt := rfl
@[simp] theorem updTower_tries (s : State) (t : Four) (f : Tower → Tower) : (s.updTower t f).tries = s.tries := rfl

/-! ### updCol -/

@[simp] theorem updCol_seq (s : State) (t : Four) (c : Nat) (f : Column → Column) : (s.updCol t c f).seq = s.seq := rfl
@[simp] theorem updCol_nextId (s : State) (t : Four) (c : Nat) (f : Column → Column) : (s.updCol t c f).nextId = s.nextId := rfl
@[simp] theorem updCol_turn (s : State) (t : Four) (c : Nat) (f : Column → Column) : (s.updCol t c f).turn = s.turn := rfl
@[simp] theorem updCol_agenda (s : State) (t : Four) (c : Nat) (f : Column → Column) : (s.updCol t c f).agenda = s.agenda := rfl
@[simp] theorem updCol_cur (s : State) (t : Four) (c : Nat) (f : Column → Column) : (s.updCol t c f).cur = s.cur := rfl
@[simp] theorem updCol_hbm (s : State) (t : Four) (c : Nat) (f : Column → Column) : (s.updCol t c f).hbm = s.hbm := rfl
@[simp] theorem updCol_spaces (s : State) (t : Four) (c : Nat) (f : Column → Column) : (s.updCol t c f).spaces = s.spaces := rfl
@[simp] theorem updCol_launches (s : State) (t : Four) (c : Nat) (f : Column → Column) : (s.updCol t c f).launches = s.launches := rfl
@[simp] theorem updCol_gangs (s : State) (t : Four) (c : Nat) (f : Column → Column) : (s.updCol t c f).gangs = s.gangs := rfl
@[simp] theorem updCol_stores (s : State) (t : Four) (c : Nat) (f : Column → Column) : (s.updCol t c f).stores = s.stores := rfl
@[simp] theorem updCol_reds (s : State) (t : Four) (c : Nat) (f : Column → Column) : (s.updCol t c f).reds = s.reds := rfl
@[simp] theorem updCol_prods (s : State) (t : Four) (c : Nat) (f : Column → Column) : (s.updCol t c f).prods = s.prods := rfl
@[simp] theorem updCol_bgemvs (s : State) (t : Four) (c : Nat) (f : Column → Column) : (s.updCol t c f).bgemvs = s.bgemvs := rfl
@[simp] theorem updCol_lease (s : State) (t : Four) (c : Nat) (f : Column → Column) : (s.updCol t c f).lease = s.lease := rfl
@[simp] theorem updCol_patch (s : State) (t : Four) (c : Nat) (f : Column → Column) : (s.updCol t c f).patch = s.patch := rfl
@[simp] theorem updCol_applied (s : State) (t : Four) (c : Nat) (f : Column → Column) : (s.updCol t c f).applied = s.applied := rfl
@[simp] theorem updCol_moduleId (s : State) (t : Four) (c : Nat) (f : Column → Column) : (s.updCol t c f).moduleId = s.moduleId := rfl
@[simp] theorem updCol_portMask (s : State) (t : Four) (c : Nat) (f : Column → Column) : (s.updCol t c f).portMask = s.portMask := rfl
@[simp] theorem updCol_windows (s : State) (t : Four) (c : Nat) (f : Column → Column) : (s.updCol t c f).windows = s.windows := rfl
@[simp] theorem updCol_startAt (s : State) (t : Four) (c : Nat) (f : Column → Column) : (s.updCol t c f).startAt = s.startAt := rfl
@[simp] theorem updCol_tries (s : State) (t : Four) (c : Nat) (f : Column → Column) : (s.updCol t c f).tries = s.tries := rfl

/-! ### updQueue -/

@[simp] theorem updQueue_seq (s : State) (t : Four) (q : Nat) (f : Queue → Queue) : (s.updQueue t q f).seq = s.seq := rfl
@[simp] theorem updQueue_nextId (s : State) (t : Four) (q : Nat) (f : Queue → Queue) : (s.updQueue t q f).nextId = s.nextId := rfl
@[simp] theorem updQueue_turn (s : State) (t : Four) (q : Nat) (f : Queue → Queue) : (s.updQueue t q f).turn = s.turn := rfl
@[simp] theorem updQueue_agenda (s : State) (t : Four) (q : Nat) (f : Queue → Queue) : (s.updQueue t q f).agenda = s.agenda := rfl
@[simp] theorem updQueue_cur (s : State) (t : Four) (q : Nat) (f : Queue → Queue) : (s.updQueue t q f).cur = s.cur := rfl
@[simp] theorem updQueue_hbm (s : State) (t : Four) (q : Nat) (f : Queue → Queue) : (s.updQueue t q f).hbm = s.hbm := rfl
@[simp] theorem updQueue_spaces (s : State) (t : Four) (q : Nat) (f : Queue → Queue) : (s.updQueue t q f).spaces = s.spaces := rfl
@[simp] theorem updQueue_launches (s : State) (t : Four) (q : Nat) (f : Queue → Queue) : (s.updQueue t q f).launches = s.launches := rfl
@[simp] theorem updQueue_gangs (s : State) (t : Four) (q : Nat) (f : Queue → Queue) : (s.updQueue t q f).gangs = s.gangs := rfl
@[simp] theorem updQueue_stores (s : State) (t : Four) (q : Nat) (f : Queue → Queue) : (s.updQueue t q f).stores = s.stores := rfl
@[simp] theorem updQueue_reds (s : State) (t : Four) (q : Nat) (f : Queue → Queue) : (s.updQueue t q f).reds = s.reds := rfl
@[simp] theorem updQueue_prods (s : State) (t : Four) (q : Nat) (f : Queue → Queue) : (s.updQueue t q f).prods = s.prods := rfl
@[simp] theorem updQueue_bgemvs (s : State) (t : Four) (q : Nat) (f : Queue → Queue) : (s.updQueue t q f).bgemvs = s.bgemvs := rfl
@[simp] theorem updQueue_lease (s : State) (t : Four) (q : Nat) (f : Queue → Queue) : (s.updQueue t q f).lease = s.lease := rfl
@[simp] theorem updQueue_patch (s : State) (t : Four) (q : Nat) (f : Queue → Queue) : (s.updQueue t q f).patch = s.patch := rfl
@[simp] theorem updQueue_applied (s : State) (t : Four) (q : Nat) (f : Queue → Queue) : (s.updQueue t q f).applied = s.applied := rfl
@[simp] theorem updQueue_moduleId (s : State) (t : Four) (q : Nat) (f : Queue → Queue) : (s.updQueue t q f).moduleId = s.moduleId := rfl
@[simp] theorem updQueue_portMask (s : State) (t : Four) (q : Nat) (f : Queue → Queue) : (s.updQueue t q f).portMask = s.portMask := rfl
@[simp] theorem updQueue_windows (s : State) (t : Four) (q : Nat) (f : Queue → Queue) : (s.updQueue t q f).windows = s.windows := rfl
@[simp] theorem updQueue_startAt (s : State) (t : Four) (q : Nat) (f : Queue → Queue) : (s.updQueue t q f).startAt = s.startAt := rfl
@[simp] theorem updQueue_tries (s : State) (t : Four) (q : Nat) (f : Queue → Queue) : (s.updQueue t q f).tries = s.tries := rfl

/-! ### pushTrap -/

@[simp] theorem pushTrap_seq (s : State) (t : Four) (r : RingRec) : (pushTrap s t r).seq = s.seq := rfl
@[simp] theorem pushTrap_nextId (s : State) (t : Four) (r : RingRec) : (pushTrap s t r).nextId = s.nextId := rfl
@[simp] theorem pushTrap_turn (s : State) (t : Four) (r : RingRec) : (pushTrap s t r).turn = s.turn := rfl
@[simp] theorem pushTrap_agenda (s : State) (t : Four) (r : RingRec) : (pushTrap s t r).agenda = s.agenda := rfl
@[simp] theorem pushTrap_cur (s : State) (t : Four) (r : RingRec) : (pushTrap s t r).cur = s.cur := rfl
@[simp] theorem pushTrap_hbm (s : State) (t : Four) (r : RingRec) : (pushTrap s t r).hbm = s.hbm := rfl
@[simp] theorem pushTrap_spaces (s : State) (t : Four) (r : RingRec) : (pushTrap s t r).spaces = s.spaces := rfl
@[simp] theorem pushTrap_launches (s : State) (t : Four) (r : RingRec) : (pushTrap s t r).launches = s.launches := rfl
@[simp] theorem pushTrap_gangs (s : State) (t : Four) (r : RingRec) : (pushTrap s t r).gangs = s.gangs := rfl
@[simp] theorem pushTrap_stores (s : State) (t : Four) (r : RingRec) : (pushTrap s t r).stores = s.stores := rfl
@[simp] theorem pushTrap_reds (s : State) (t : Four) (r : RingRec) : (pushTrap s t r).reds = s.reds := rfl
@[simp] theorem pushTrap_prods (s : State) (t : Four) (r : RingRec) : (pushTrap s t r).prods = s.prods := rfl
@[simp] theorem pushTrap_bgemvs (s : State) (t : Four) (r : RingRec) : (pushTrap s t r).bgemvs = s.bgemvs := rfl
@[simp] theorem pushTrap_lease (s : State) (t : Four) (r : RingRec) : (pushTrap s t r).lease = s.lease := rfl
@[simp] theorem pushTrap_patch (s : State) (t : Four) (r : RingRec) : (pushTrap s t r).patch = s.patch := rfl
@[simp] theorem pushTrap_applied (s : State) (t : Four) (r : RingRec) : (pushTrap s t r).applied = s.applied := rfl
@[simp] theorem pushTrap_moduleId (s : State) (t : Four) (r : RingRec) : (pushTrap s t r).moduleId = s.moduleId := rfl
@[simp] theorem pushTrap_portMask (s : State) (t : Four) (r : RingRec) : (pushTrap s t r).portMask = s.portMask := rfl
@[simp] theorem pushTrap_windows (s : State) (t : Four) (r : RingRec) : (pushTrap s t r).windows = s.windows := rfl
@[simp] theorem pushTrap_startAt (s : State) (t : Four) (r : RingRec) : (pushTrap s t r).startAt = s.startAt := rfl
@[simp] theorem pushTrap_tries (s : State) (t : Four) (r : RingRec) : (pushTrap s t r).tries = s.tries := rfl

/-! ### pushFault -/

@[simp] theorem pushFault_seq (s : State) (t : Four) (r : RingRec) : (pushFault s t r).seq = s.seq := rfl
@[simp] theorem pushFault_nextId (s : State) (t : Four) (r : RingRec) : (pushFault s t r).nextId = s.nextId := rfl
@[simp] theorem pushFault_turn (s : State) (t : Four) (r : RingRec) : (pushFault s t r).turn = s.turn := rfl
@[simp] theorem pushFault_agenda (s : State) (t : Four) (r : RingRec) : (pushFault s t r).agenda = s.agenda := rfl
@[simp] theorem pushFault_cur (s : State) (t : Four) (r : RingRec) : (pushFault s t r).cur = s.cur := rfl
@[simp] theorem pushFault_hbm (s : State) (t : Four) (r : RingRec) : (pushFault s t r).hbm = s.hbm := rfl
@[simp] theorem pushFault_spaces (s : State) (t : Four) (r : RingRec) : (pushFault s t r).spaces = s.spaces := rfl
@[simp] theorem pushFault_launches (s : State) (t : Four) (r : RingRec) : (pushFault s t r).launches = s.launches := rfl
@[simp] theorem pushFault_gangs (s : State) (t : Four) (r : RingRec) : (pushFault s t r).gangs = s.gangs := rfl
@[simp] theorem pushFault_stores (s : State) (t : Four) (r : RingRec) : (pushFault s t r).stores = s.stores := rfl
@[simp] theorem pushFault_reds (s : State) (t : Four) (r : RingRec) : (pushFault s t r).reds = s.reds := rfl
@[simp] theorem pushFault_prods (s : State) (t : Four) (r : RingRec) : (pushFault s t r).prods = s.prods := rfl
@[simp] theorem pushFault_bgemvs (s : State) (t : Four) (r : RingRec) : (pushFault s t r).bgemvs = s.bgemvs := rfl
@[simp] theorem pushFault_lease (s : State) (t : Four) (r : RingRec) : (pushFault s t r).lease = s.lease := rfl
@[simp] theorem pushFault_patch (s : State) (t : Four) (r : RingRec) : (pushFault s t r).patch = s.patch := rfl
@[simp] theorem pushFault_applied (s : State) (t : Four) (r : RingRec) : (pushFault s t r).applied = s.applied := rfl
@[simp] theorem pushFault_moduleId (s : State) (t : Four) (r : RingRec) : (pushFault s t r).moduleId = s.moduleId := rfl
@[simp] theorem pushFault_portMask (s : State) (t : Four) (r : RingRec) : (pushFault s t r).portMask = s.portMask := rfl
@[simp] theorem pushFault_windows (s : State) (t : Four) (r : RingRec) : (pushFault s t r).windows = s.windows := rfl
@[simp] theorem pushFault_startAt (s : State) (t : Four) (r : RingRec) : (pushFault s t r).startAt = s.startAt := rfl
@[simp] theorem pushFault_tries (s : State) (t : Four) (r : RingRec) : (pushFault s t r).tries = s.tries := rfl

/-! ### updGang -/

@[simp] theorem updGang_seq (s : State) (id : Nat) (f : Gang → Gang) : (s.updGang id f).seq = s.seq := rfl
@[simp] theorem updGang_nextId (s : State) (id : Nat) (f : Gang → Gang) : (s.updGang id f).nextId = s.nextId := rfl
@[simp] theorem updGang_turn (s : State) (id : Nat) (f : Gang → Gang) : (s.updGang id f).turn = s.turn := rfl
@[simp] theorem updGang_agenda (s : State) (id : Nat) (f : Gang → Gang) : (s.updGang id f).agenda = s.agenda := rfl
@[simp] theorem updGang_cur (s : State) (id : Nat) (f : Gang → Gang) : (s.updGang id f).cur = s.cur := rfl
@[simp] theorem updGang_hbm (s : State) (id : Nat) (f : Gang → Gang) : (s.updGang id f).hbm = s.hbm := rfl
@[simp] theorem updGang_spaces (s : State) (id : Nat) (f : Gang → Gang) : (s.updGang id f).spaces = s.spaces := rfl
@[simp] theorem updGang_launches (s : State) (id : Nat) (f : Gang → Gang) : (s.updGang id f).launches = s.launches := rfl
@[simp] theorem updGang_stores (s : State) (id : Nat) (f : Gang → Gang) : (s.updGang id f).stores = s.stores := rfl
@[simp] theorem updGang_reds (s : State) (id : Nat) (f : Gang → Gang) : (s.updGang id f).reds = s.reds := rfl
@[simp] theorem updGang_prods (s : State) (id : Nat) (f : Gang → Gang) : (s.updGang id f).prods = s.prods := rfl
@[simp] theorem updGang_bgemvs (s : State) (id : Nat) (f : Gang → Gang) : (s.updGang id f).bgemvs = s.bgemvs := rfl
@[simp] theorem updGang_towers (s : State) (id : Nat) (f : Gang → Gang) : (s.updGang id f).towers = s.towers := rfl
@[simp] theorem updGang_lease (s : State) (id : Nat) (f : Gang → Gang) : (s.updGang id f).lease = s.lease := rfl
@[simp] theorem updGang_patch (s : State) (id : Nat) (f : Gang → Gang) : (s.updGang id f).patch = s.patch := rfl
@[simp] theorem updGang_applied (s : State) (id : Nat) (f : Gang → Gang) : (s.updGang id f).applied = s.applied := rfl
@[simp] theorem updGang_moduleId (s : State) (id : Nat) (f : Gang → Gang) : (s.updGang id f).moduleId = s.moduleId := rfl
@[simp] theorem updGang_portMask (s : State) (id : Nat) (f : Gang → Gang) : (s.updGang id f).portMask = s.portMask := rfl
@[simp] theorem updGang_windows (s : State) (id : Nat) (f : Gang → Gang) : (s.updGang id f).windows = s.windows := rfl
@[simp] theorem updGang_startAt (s : State) (id : Nat) (f : Gang → Gang) : (s.updGang id f).startAt = s.startAt := rfl
@[simp] theorem updGang_tries (s : State) (id : Nat) (f : Gang → Gang) : (s.updGang id f).tries = s.tries := rfl

/-! ### updWg -/

@[simp] theorem updWg_seq (s : State) (g m : Nat) (f : Wg → Wg) : (s.updWg g m f).seq = s.seq := rfl
@[simp] theorem updWg_nextId (s : State) (g m : Nat) (f : Wg → Wg) : (s.updWg g m f).nextId = s.nextId := rfl
@[simp] theorem updWg_turn (s : State) (g m : Nat) (f : Wg → Wg) : (s.updWg g m f).turn = s.turn := rfl
@[simp] theorem updWg_agenda (s : State) (g m : Nat) (f : Wg → Wg) : (s.updWg g m f).agenda = s.agenda := rfl
@[simp] theorem updWg_cur (s : State) (g m : Nat) (f : Wg → Wg) : (s.updWg g m f).cur = s.cur := rfl
@[simp] theorem updWg_hbm (s : State) (g m : Nat) (f : Wg → Wg) : (s.updWg g m f).hbm = s.hbm := rfl
@[simp] theorem updWg_spaces (s : State) (g m : Nat) (f : Wg → Wg) : (s.updWg g m f).spaces = s.spaces := rfl
@[simp] theorem updWg_launches (s : State) (g m : Nat) (f : Wg → Wg) : (s.updWg g m f).launches = s.launches := rfl
@[simp] theorem updWg_stores (s : State) (g m : Nat) (f : Wg → Wg) : (s.updWg g m f).stores = s.stores := rfl
@[simp] theorem updWg_reds (s : State) (g m : Nat) (f : Wg → Wg) : (s.updWg g m f).reds = s.reds := rfl
@[simp] theorem updWg_prods (s : State) (g m : Nat) (f : Wg → Wg) : (s.updWg g m f).prods = s.prods := rfl
@[simp] theorem updWg_bgemvs (s : State) (g m : Nat) (f : Wg → Wg) : (s.updWg g m f).bgemvs = s.bgemvs := rfl
@[simp] theorem updWg_towers (s : State) (g m : Nat) (f : Wg → Wg) : (s.updWg g m f).towers = s.towers := rfl
@[simp] theorem updWg_lease (s : State) (g m : Nat) (f : Wg → Wg) : (s.updWg g m f).lease = s.lease := rfl
@[simp] theorem updWg_patch (s : State) (g m : Nat) (f : Wg → Wg) : (s.updWg g m f).patch = s.patch := rfl
@[simp] theorem updWg_applied (s : State) (g m : Nat) (f : Wg → Wg) : (s.updWg g m f).applied = s.applied := rfl
@[simp] theorem updWg_moduleId (s : State) (g m : Nat) (f : Wg → Wg) : (s.updWg g m f).moduleId = s.moduleId := rfl
@[simp] theorem updWg_portMask (s : State) (g m : Nat) (f : Wg → Wg) : (s.updWg g m f).portMask = s.portMask := rfl
@[simp] theorem updWg_windows (s : State) (g m : Nat) (f : Wg → Wg) : (s.updWg g m f).windows = s.windows := rfl
@[simp] theorem updWg_startAt (s : State) (g m : Nat) (f : Wg → Wg) : (s.updWg g m f).startAt = s.startAt := rfl
@[simp] theorem updWg_tries (s : State) (g m : Nat) (f : Wg → Wg) : (s.updWg g m f).tries = s.tries := rfl

/-! ### updGrp -/

@[simp] theorem updGrp_seq (s : State) (c : Cursor) (f : Bead → Bead) : (s.updGrp c f).seq = s.seq := rfl
@[simp] theorem updGrp_nextId (s : State) (c : Cursor) (f : Bead → Bead) : (s.updGrp c f).nextId = s.nextId := rfl
@[simp] theorem updGrp_turn (s : State) (c : Cursor) (f : Bead → Bead) : (s.updGrp c f).turn = s.turn := rfl
@[simp] theorem updGrp_agenda (s : State) (c : Cursor) (f : Bead → Bead) : (s.updGrp c f).agenda = s.agenda := rfl
@[simp] theorem updGrp_cur (s : State) (c : Cursor) (f : Bead → Bead) : (s.updGrp c f).cur = s.cur := rfl
@[simp] theorem updGrp_hbm (s : State) (c : Cursor) (f : Bead → Bead) : (s.updGrp c f).hbm = s.hbm := rfl
@[simp] theorem updGrp_spaces (s : State) (c : Cursor) (f : Bead → Bead) : (s.updGrp c f).spaces = s.spaces := rfl
@[simp] theorem updGrp_launches (s : State) (c : Cursor) (f : Bead → Bead) : (s.updGrp c f).launches = s.launches := rfl
@[simp] theorem updGrp_stores (s : State) (c : Cursor) (f : Bead → Bead) : (s.updGrp c f).stores = s.stores := rfl
@[simp] theorem updGrp_reds (s : State) (c : Cursor) (f : Bead → Bead) : (s.updGrp c f).reds = s.reds := rfl
@[simp] theorem updGrp_prods (s : State) (c : Cursor) (f : Bead → Bead) : (s.updGrp c f).prods = s.prods := rfl
@[simp] theorem updGrp_bgemvs (s : State) (c : Cursor) (f : Bead → Bead) : (s.updGrp c f).bgemvs = s.bgemvs := rfl
@[simp] theorem updGrp_towers (s : State) (c : Cursor) (f : Bead → Bead) : (s.updGrp c f).towers = s.towers := rfl
@[simp] theorem updGrp_lease (s : State) (c : Cursor) (f : Bead → Bead) : (s.updGrp c f).lease = s.lease := rfl
@[simp] theorem updGrp_patch (s : State) (c : Cursor) (f : Bead → Bead) : (s.updGrp c f).patch = s.patch := rfl
@[simp] theorem updGrp_applied (s : State) (c : Cursor) (f : Bead → Bead) : (s.updGrp c f).applied = s.applied := rfl
@[simp] theorem updGrp_moduleId (s : State) (c : Cursor) (f : Bead → Bead) : (s.updGrp c f).moduleId = s.moduleId := rfl
@[simp] theorem updGrp_portMask (s : State) (c : Cursor) (f : Bead → Bead) : (s.updGrp c f).portMask = s.portMask := rfl
@[simp] theorem updGrp_windows (s : State) (c : Cursor) (f : Bead → Bead) : (s.updGrp c f).windows = s.windows := rfl
@[simp] theorem updGrp_startAt (s : State) (c : Cursor) (f : Bead → Bead) : (s.updGrp c f).startAt = s.startAt := rfl
@[simp] theorem updGrp_tries (s : State) (c : Cursor) (f : Bead → Bead) : (s.updGrp c f).tries = s.tries := rfl

/-! ### mapBeads -/

@[simp] theorem mapBeads_seq (s : State) (f : Bead → Bead) : (s.mapBeads f).seq = s.seq := rfl
@[simp] theorem mapBeads_nextId (s : State) (f : Bead → Bead) : (s.mapBeads f).nextId = s.nextId := rfl
@[simp] theorem mapBeads_turn (s : State) (f : Bead → Bead) : (s.mapBeads f).turn = s.turn := rfl
@[simp] theorem mapBeads_agenda (s : State) (f : Bead → Bead) : (s.mapBeads f).agenda = s.agenda := rfl
@[simp] theorem mapBeads_cur (s : State) (f : Bead → Bead) : (s.mapBeads f).cur = s.cur := rfl
@[simp] theorem mapBeads_hbm (s : State) (f : Bead → Bead) : (s.mapBeads f).hbm = s.hbm := rfl
@[simp] theorem mapBeads_spaces (s : State) (f : Bead → Bead) : (s.mapBeads f).spaces = s.spaces := rfl
@[simp] theorem mapBeads_launches (s : State) (f : Bead → Bead) : (s.mapBeads f).launches = s.launches := rfl
@[simp] theorem mapBeads_stores (s : State) (f : Bead → Bead) : (s.mapBeads f).stores = s.stores := rfl
@[simp] theorem mapBeads_reds (s : State) (f : Bead → Bead) : (s.mapBeads f).reds = s.reds := rfl
@[simp] theorem mapBeads_prods (s : State) (f : Bead → Bead) : (s.mapBeads f).prods = s.prods := rfl
@[simp] theorem mapBeads_bgemvs (s : State) (f : Bead → Bead) : (s.mapBeads f).bgemvs = s.bgemvs := rfl
@[simp] theorem mapBeads_towers (s : State) (f : Bead → Bead) : (s.mapBeads f).towers = s.towers := rfl
@[simp] theorem mapBeads_lease (s : State) (f : Bead → Bead) : (s.mapBeads f).lease = s.lease := rfl
@[simp] theorem mapBeads_patch (s : State) (f : Bead → Bead) : (s.mapBeads f).patch = s.patch := rfl
@[simp] theorem mapBeads_applied (s : State) (f : Bead → Bead) : (s.mapBeads f).applied = s.applied := rfl
@[simp] theorem mapBeads_moduleId (s : State) (f : Bead → Bead) : (s.mapBeads f).moduleId = s.moduleId := rfl
@[simp] theorem mapBeads_portMask (s : State) (f : Bead → Bead) : (s.mapBeads f).portMask = s.portMask := rfl
@[simp] theorem mapBeads_windows (s : State) (f : Bead → Bead) : (s.mapBeads f).windows = s.windows := rfl
@[simp] theorem mapBeads_startAt (s : State) (f : Bead → Bead) : (s.mapBeads f).startAt = s.startAt := rfl
@[simp] theorem mapBeads_tries (s : State) (f : Bead → Bead) : (s.mapBeads f).tries = s.tries := rfl

/-! ### onGrp -/

@[simp] theorem onGrp_seq (c : Ctx) (s : State) (f : Bead → Bead) : (c.onGrp s f).seq = s.seq := rfl
@[simp] theorem onGrp_nextId (c : Ctx) (s : State) (f : Bead → Bead) : (c.onGrp s f).nextId = s.nextId := rfl
@[simp] theorem onGrp_turn (c : Ctx) (s : State) (f : Bead → Bead) : (c.onGrp s f).turn = s.turn := rfl
@[simp] theorem onGrp_agenda (c : Ctx) (s : State) (f : Bead → Bead) : (c.onGrp s f).agenda = s.agenda := rfl
@[simp] theorem onGrp_cur (c : Ctx) (s : State) (f : Bead → Bead) : (c.onGrp s f).cur = s.cur := rfl
@[simp] theorem onGrp_hbm (c : Ctx) (s : State) (f : Bead → Bead) : (c.onGrp s f).hbm = s.hbm := rfl
@[simp] theorem onGrp_spaces (c : Ctx) (s : State) (f : Bead → Bead) : (c.onGrp s f).spaces = s.spaces := rfl
@[simp] theorem onGrp_launches (c : Ctx) (s : State) (f : Bead → Bead) : (c.onGrp s f).launches = s.launches := rfl
@[simp] theorem onGrp_stores (c : Ctx) (s : State) (f : Bead → Bead) : (c.onGrp s f).stores = s.stores := rfl
@[simp] theorem onGrp_reds (c : Ctx) (s : State) (f : Bead → Bead) : (c.onGrp s f).reds = s.reds := rfl
@[simp] theorem onGrp_prods (c : Ctx) (s : State) (f : Bead → Bead) : (c.onGrp s f).prods = s.prods := rfl
@[simp] theorem onGrp_bgemvs (c : Ctx) (s : State) (f : Bead → Bead) : (c.onGrp s f).bgemvs = s.bgemvs := rfl
@[simp] theorem onGrp_towers (c : Ctx) (s : State) (f : Bead → Bead) : (c.onGrp s f).towers = s.towers := rfl
@[simp] theorem onGrp_lease (c : Ctx) (s : State) (f : Bead → Bead) : (c.onGrp s f).lease = s.lease := rfl
@[simp] theorem onGrp_patch (c : Ctx) (s : State) (f : Bead → Bead) : (c.onGrp s f).patch = s.patch := rfl
@[simp] theorem onGrp_applied (c : Ctx) (s : State) (f : Bead → Bead) : (c.onGrp s f).applied = s.applied := rfl
@[simp] theorem onGrp_moduleId (c : Ctx) (s : State) (f : Bead → Bead) : (c.onGrp s f).moduleId = s.moduleId := rfl
@[simp] theorem onGrp_portMask (c : Ctx) (s : State) (f : Bead → Bead) : (c.onGrp s f).portMask = s.portMask := rfl
@[simp] theorem onGrp_windows (c : Ctx) (s : State) (f : Bead → Bead) : (c.onGrp s f).windows = s.windows := rfl
@[simp] theorem onGrp_startAt (c : Ctx) (s : State) (f : Bead → Bead) : (c.onGrp s f).startAt = s.startAt := rfl
@[simp] theorem onGrp_tries (c : Ctx) (s : State) (f : Bead → Bead) : (c.onGrp s f).tries = s.tries := rfl

/-! ### done -/

@[simp] theorem done_seq (c : Ctx) (s : State) : (c.done s).seq = s.seq := rfl
@[simp] theorem done_nextId (c : Ctx) (s : State) : (c.done s).nextId = s.nextId := rfl
@[simp] theorem done_turn (c : Ctx) (s : State) : (c.done s).turn = s.turn := rfl
@[simp] theorem done_agenda (c : Ctx) (s : State) : (c.done s).agenda = s.agenda := rfl
@[simp] theorem done_cur (c : Ctx) (s : State) : (c.done s).cur = s.cur := rfl
@[simp] theorem done_hbm (c : Ctx) (s : State) : (c.done s).hbm = s.hbm := rfl
@[simp] theorem done_spaces (c : Ctx) (s : State) : (c.done s).spaces = s.spaces := rfl
@[simp] theorem done_launches (c : Ctx) (s : State) : (c.done s).launches = s.launches := rfl
@[simp] theorem done_stores (c : Ctx) (s : State) : (c.done s).stores = s.stores := rfl
@[simp] theorem done_reds (c : Ctx) (s : State) : (c.done s).reds = s.reds := rfl
@[simp] theorem done_prods (c : Ctx) (s : State) : (c.done s).prods = s.prods := rfl
@[simp] theorem done_bgemvs (c : Ctx) (s : State) : (c.done s).bgemvs = s.bgemvs := rfl
@[simp] theorem done_towers (c : Ctx) (s : State) : (c.done s).towers = s.towers := rfl
@[simp] theorem done_lease (c : Ctx) (s : State) : (c.done s).lease = s.lease := rfl
@[simp] theorem done_patch (c : Ctx) (s : State) : (c.done s).patch = s.patch := rfl
@[simp] theorem done_applied (c : Ctx) (s : State) : (c.done s).applied = s.applied := rfl
@[simp] theorem done_moduleId (c : Ctx) (s : State) : (c.done s).moduleId = s.moduleId := rfl
@[simp] theorem done_portMask (c : Ctx) (s : State) : (c.done s).portMask = s.portMask := rfl
@[simp] theorem done_windows (c : Ctx) (s : State) : (c.done s).windows = s.windows := rfl
@[simp] theorem done_startAt (c : Ctx) (s : State) : (c.done s).startAt = s.startAt := rfl
@[simp] theorem done_tries (c : Ctx) (s : State) : (c.done s).tries = s.tries := rfl

/-! ### eachBead -/

@[simp] theorem eachBead_seq (c : Ctx) (s : State) (f : Bead → Bead) : (c.eachBead s f).seq = s.seq := rfl
@[simp] theorem eachBead_nextId (c : Ctx) (s : State) (f : Bead → Bead) : (c.eachBead s f).nextId = s.nextId := rfl
@[simp] theorem eachBead_turn (c : Ctx) (s : State) (f : Bead → Bead) : (c.eachBead s f).turn = s.turn := rfl
@[simp] theorem eachBead_agenda (c : Ctx) (s : State) (f : Bead → Bead) : (c.eachBead s f).agenda = s.agenda := rfl
@[simp] theorem eachBead_cur (c : Ctx) (s : State) (f : Bead → Bead) : (c.eachBead s f).cur = s.cur := rfl
@[simp] theorem eachBead_hbm (c : Ctx) (s : State) (f : Bead → Bead) : (c.eachBead s f).hbm = s.hbm := rfl
@[simp] theorem eachBead_spaces (c : Ctx) (s : State) (f : Bead → Bead) : (c.eachBead s f).spaces = s.spaces := rfl
@[simp] theorem eachBead_launches (c : Ctx) (s : State) (f : Bead → Bead) : (c.eachBead s f).launches = s.launches := rfl
@[simp] theorem eachBead_stores (c : Ctx) (s : State) (f : Bead → Bead) : (c.eachBead s f).stores = s.stores := rfl
@[simp] theorem eachBead_reds (c : Ctx) (s : State) (f : Bead → Bead) : (c.eachBead s f).reds = s.reds := rfl
@[simp] theorem eachBead_prods (c : Ctx) (s : State) (f : Bead → Bead) : (c.eachBead s f).prods = s.prods := rfl
@[simp] theorem eachBead_bgemvs (c : Ctx) (s : State) (f : Bead → Bead) : (c.eachBead s f).bgemvs = s.bgemvs := rfl
@[simp] theorem eachBead_towers (c : Ctx) (s : State) (f : Bead → Bead) : (c.eachBead s f).towers = s.towers := rfl
@[simp] theorem eachBead_lease (c : Ctx) (s : State) (f : Bead → Bead) : (c.eachBead s f).lease = s.lease := rfl
@[simp] theorem eachBead_patch (c : Ctx) (s : State) (f : Bead → Bead) : (c.eachBead s f).patch = s.patch := rfl
@[simp] theorem eachBead_applied (c : Ctx) (s : State) (f : Bead → Bead) : (c.eachBead s f).applied = s.applied := rfl
@[simp] theorem eachBead_moduleId (c : Ctx) (s : State) (f : Bead → Bead) : (c.eachBead s f).moduleId = s.moduleId := rfl
@[simp] theorem eachBead_portMask (c : Ctx) (s : State) (f : Bead → Bead) : (c.eachBead s f).portMask = s.portMask := rfl
@[simp] theorem eachBead_windows (c : Ctx) (s : State) (f : Bead → Bead) : (c.eachBead s f).windows = s.windows := rfl
@[simp] theorem eachBead_startAt (c : Ctx) (s : State) (f : Bead → Bead) : (c.eachBead s f).startAt = s.startAt := rfl
@[simp] theorem eachBead_tries (c : Ctx) (s : State) (f : Bead → Bead) : (c.eachBead s f).tries = s.tries := rfl

/-! ### waitAt -/

@[simp] theorem waitAt_seq (c : Ctx) (s : State) (i : Instr) (f : Bead → Option Wait) : (c.waitAt s i f).seq = s.seq := rfl
@[simp] theorem waitAt_nextId (c : Ctx) (s : State) (i : Instr) (f : Bead → Option Wait) : (c.waitAt s i f).nextId = s.nextId := rfl
@[simp] theorem waitAt_turn (c : Ctx) (s : State) (i : Instr) (f : Bead → Option Wait) : (c.waitAt s i f).turn = s.turn := rfl
@[simp] theorem waitAt_agenda (c : Ctx) (s : State) (i : Instr) (f : Bead → Option Wait) : (c.waitAt s i f).agenda = s.agenda := rfl
@[simp] theorem waitAt_cur (c : Ctx) (s : State) (i : Instr) (f : Bead → Option Wait) : (c.waitAt s i f).cur = s.cur := rfl
@[simp] theorem waitAt_hbm (c : Ctx) (s : State) (i : Instr) (f : Bead → Option Wait) : (c.waitAt s i f).hbm = s.hbm := rfl
@[simp] theorem waitAt_spaces (c : Ctx) (s : State) (i : Instr) (f : Bead → Option Wait) : (c.waitAt s i f).spaces = s.spaces := rfl
@[simp] theorem waitAt_launches (c : Ctx) (s : State) (i : Instr) (f : Bead → Option Wait) : (c.waitAt s i f).launches = s.launches := rfl
@[simp] theorem waitAt_stores (c : Ctx) (s : State) (i : Instr) (f : Bead → Option Wait) : (c.waitAt s i f).stores = s.stores := rfl
@[simp] theorem waitAt_reds (c : Ctx) (s : State) (i : Instr) (f : Bead → Option Wait) : (c.waitAt s i f).reds = s.reds := rfl
@[simp] theorem waitAt_prods (c : Ctx) (s : State) (i : Instr) (f : Bead → Option Wait) : (c.waitAt s i f).prods = s.prods := rfl
@[simp] theorem waitAt_bgemvs (c : Ctx) (s : State) (i : Instr) (f : Bead → Option Wait) : (c.waitAt s i f).bgemvs = s.bgemvs := rfl
@[simp] theorem waitAt_towers (c : Ctx) (s : State) (i : Instr) (f : Bead → Option Wait) : (c.waitAt s i f).towers = s.towers := rfl
@[simp] theorem waitAt_lease (c : Ctx) (s : State) (i : Instr) (f : Bead → Option Wait) : (c.waitAt s i f).lease = s.lease := rfl
@[simp] theorem waitAt_patch (c : Ctx) (s : State) (i : Instr) (f : Bead → Option Wait) : (c.waitAt s i f).patch = s.patch := rfl
@[simp] theorem waitAt_applied (c : Ctx) (s : State) (i : Instr) (f : Bead → Option Wait) : (c.waitAt s i f).applied = s.applied := rfl
@[simp] theorem waitAt_moduleId (c : Ctx) (s : State) (i : Instr) (f : Bead → Option Wait) : (c.waitAt s i f).moduleId = s.moduleId := rfl
@[simp] theorem waitAt_portMask (c : Ctx) (s : State) (i : Instr) (f : Bead → Option Wait) : (c.waitAt s i f).portMask = s.portMask := rfl
@[simp] theorem waitAt_windows (c : Ctx) (s : State) (i : Instr) (f : Bead → Option Wait) : (c.waitAt s i f).windows = s.windows := rfl
@[simp] theorem waitAt_startAt (c : Ctx) (s : State) (i : Instr) (f : Bead → Option Wait) : (c.waitAt s i f).startAt = s.startAt := rfl
@[simp] theorem waitAt_tries (c : Ctx) (s : State) (i : Instr) (f : Bead → Option Wait) : (c.waitAt s i f).tries = s.tries := rfl

/-! ### stamp -/

@[simp] theorem stamp_seq (c : Ctx) (s : State) : (c.stamp s).seq = s.seq := rfl
@[simp] theorem stamp_turn (c : Ctx) (s : State) : (c.stamp s).turn = s.turn := rfl
@[simp] theorem stamp_agenda (c : Ctx) (s : State) : (c.stamp s).agenda = s.agenda := rfl
@[simp] theorem stamp_cur (c : Ctx) (s : State) : (c.stamp s).cur = s.cur := rfl
@[simp] theorem stamp_hbm (c : Ctx) (s : State) : (c.stamp s).hbm = s.hbm := rfl
@[simp] theorem stamp_spaces (c : Ctx) (s : State) : (c.stamp s).spaces = s.spaces := rfl
@[simp] theorem stamp_launches (c : Ctx) (s : State) : (c.stamp s).launches = s.launches := rfl
@[simp] theorem stamp_stores (c : Ctx) (s : State) : (c.stamp s).stores = s.stores := rfl
@[simp] theorem stamp_reds (c : Ctx) (s : State) : (c.stamp s).reds = s.reds := rfl
@[simp] theorem stamp_prods (c : Ctx) (s : State) : (c.stamp s).prods = s.prods := rfl
@[simp] theorem stamp_bgemvs (c : Ctx) (s : State) : (c.stamp s).bgemvs = s.bgemvs := rfl
@[simp] theorem stamp_towers (c : Ctx) (s : State) : (c.stamp s).towers = s.towers := rfl
@[simp] theorem stamp_lease (c : Ctx) (s : State) : (c.stamp s).lease = s.lease := rfl
@[simp] theorem stamp_patch (c : Ctx) (s : State) : (c.stamp s).patch = s.patch := rfl
@[simp] theorem stamp_applied (c : Ctx) (s : State) : (c.stamp s).applied = s.applied := rfl
@[simp] theorem stamp_moduleId (c : Ctx) (s : State) : (c.stamp s).moduleId = s.moduleId := rfl
@[simp] theorem stamp_portMask (c : Ctx) (s : State) : (c.stamp s).portMask = s.portMask := rfl
@[simp] theorem stamp_windows (c : Ctx) (s : State) : (c.stamp s).windows = s.windows := rfl
@[simp] theorem stamp_startAt (c : Ctx) (s : State) : (c.stamp s).startAt = s.startAt := rfl
@[simp] theorem stamp_tries (c : Ctx) (s : State) : (c.stamp s).tries = s.tries := rfl

/-! ### holdIssue -/

@[simp] theorem holdIssue_seq (c : Ctx) (s : State) (i : Instr) : (c.holdIssue s i).seq = s.seq := rfl
@[simp] theorem holdIssue_turn (c : Ctx) (s : State) (i : Instr) : (c.holdIssue s i).turn = s.turn := rfl
@[simp] theorem holdIssue_agenda (c : Ctx) (s : State) (i : Instr) : (c.holdIssue s i).agenda = s.agenda := rfl
@[simp] theorem holdIssue_cur (c : Ctx) (s : State) (i : Instr) : (c.holdIssue s i).cur = s.cur := rfl
@[simp] theorem holdIssue_hbm (c : Ctx) (s : State) (i : Instr) : (c.holdIssue s i).hbm = s.hbm := rfl
@[simp] theorem holdIssue_spaces (c : Ctx) (s : State) (i : Instr) : (c.holdIssue s i).spaces = s.spaces := rfl
@[simp] theorem holdIssue_launches (c : Ctx) (s : State) (i : Instr) : (c.holdIssue s i).launches = s.launches := rfl
@[simp] theorem holdIssue_stores (c : Ctx) (s : State) (i : Instr) : (c.holdIssue s i).stores = s.stores := rfl
@[simp] theorem holdIssue_reds (c : Ctx) (s : State) (i : Instr) : (c.holdIssue s i).reds = s.reds := rfl
@[simp] theorem holdIssue_prods (c : Ctx) (s : State) (i : Instr) : (c.holdIssue s i).prods = s.prods := rfl
@[simp] theorem holdIssue_bgemvs (c : Ctx) (s : State) (i : Instr) : (c.holdIssue s i).bgemvs = s.bgemvs := rfl
@[simp] theorem holdIssue_towers (c : Ctx) (s : State) (i : Instr) : (c.holdIssue s i).towers = s.towers := rfl
@[simp] theorem holdIssue_lease (c : Ctx) (s : State) (i : Instr) : (c.holdIssue s i).lease = s.lease := rfl
@[simp] theorem holdIssue_patch (c : Ctx) (s : State) (i : Instr) : (c.holdIssue s i).patch = s.patch := rfl
@[simp] theorem holdIssue_applied (c : Ctx) (s : State) (i : Instr) : (c.holdIssue s i).applied = s.applied := rfl
@[simp] theorem holdIssue_moduleId (c : Ctx) (s : State) (i : Instr) : (c.holdIssue s i).moduleId = s.moduleId := rfl
@[simp] theorem holdIssue_portMask (c : Ctx) (s : State) (i : Instr) : (c.holdIssue s i).portMask = s.portMask := rfl
@[simp] theorem holdIssue_windows (c : Ctx) (s : State) (i : Instr) : (c.holdIssue s i).windows = s.windows := rfl
@[simp] theorem holdIssue_startAt (c : Ctx) (s : State) (i : Instr) : (c.holdIssue s i).startAt = s.startAt := rfl
@[simp] theorem holdIssue_tries (c : Ctx) (s : State) (i : Instr) : (c.holdIssue s i).tries = s.tries := rfl

/-! ### hold -/

@[simp] theorem hold_seq (c : Ctx) (s : State) (i : Instr) (k : WaitKind) : (c.hold s i k).seq = s.seq := rfl
@[simp] theorem hold_turn (c : Ctx) (s : State) (i : Instr) (k : WaitKind) : (c.hold s i k).turn = s.turn := rfl
@[simp] theorem hold_agenda (c : Ctx) (s : State) (i : Instr) (k : WaitKind) : (c.hold s i k).agenda = s.agenda := rfl
@[simp] theorem hold_cur (c : Ctx) (s : State) (i : Instr) (k : WaitKind) : (c.hold s i k).cur = s.cur := rfl
@[simp] theorem hold_hbm (c : Ctx) (s : State) (i : Instr) (k : WaitKind) : (c.hold s i k).hbm = s.hbm := rfl
@[simp] theorem hold_spaces (c : Ctx) (s : State) (i : Instr) (k : WaitKind) : (c.hold s i k).spaces = s.spaces := rfl
@[simp] theorem hold_launches (c : Ctx) (s : State) (i : Instr) (k : WaitKind) : (c.hold s i k).launches = s.launches := rfl
@[simp] theorem hold_stores (c : Ctx) (s : State) (i : Instr) (k : WaitKind) : (c.hold s i k).stores = s.stores := rfl
@[simp] theorem hold_reds (c : Ctx) (s : State) (i : Instr) (k : WaitKind) : (c.hold s i k).reds = s.reds := rfl
@[simp] theorem hold_prods (c : Ctx) (s : State) (i : Instr) (k : WaitKind) : (c.hold s i k).prods = s.prods := rfl
@[simp] theorem hold_bgemvs (c : Ctx) (s : State) (i : Instr) (k : WaitKind) : (c.hold s i k).bgemvs = s.bgemvs := rfl
@[simp] theorem hold_towers (c : Ctx) (s : State) (i : Instr) (k : WaitKind) : (c.hold s i k).towers = s.towers := rfl
@[simp] theorem hold_lease (c : Ctx) (s : State) (i : Instr) (k : WaitKind) : (c.hold s i k).lease = s.lease := rfl
@[simp] theorem hold_patch (c : Ctx) (s : State) (i : Instr) (k : WaitKind) : (c.hold s i k).patch = s.patch := rfl
@[simp] theorem hold_applied (c : Ctx) (s : State) (i : Instr) (k : WaitKind) : (c.hold s i k).applied = s.applied := rfl
@[simp] theorem hold_moduleId (c : Ctx) (s : State) (i : Instr) (k : WaitKind) : (c.hold s i k).moduleId = s.moduleId := rfl
@[simp] theorem hold_portMask (c : Ctx) (s : State) (i : Instr) (k : WaitKind) : (c.hold s i k).portMask = s.portMask := rfl
@[simp] theorem hold_windows (c : Ctx) (s : State) (i : Instr) (k : WaitKind) : (c.hold s i k).windows = s.windows := rfl
@[simp] theorem hold_startAt (c : Ctx) (s : State) (i : Instr) (k : WaitKind) : (c.hold s i k).startAt = s.startAt := rfl
@[simp] theorem hold_tries (c : Ctx) (s : State) (i : Instr) (k : WaitKind) : (c.hold s i k).tries = s.tries := rfl

/-! ### updLaunch -/

@[simp] theorem updLaunch_seq (s : State) (id : Nat) (f : Launch → Launch) : (s.updLaunch id f).seq = s.seq := rfl
@[simp] theorem updLaunch_nextId (s : State) (id : Nat) (f : Launch → Launch) : (s.updLaunch id f).nextId = s.nextId := rfl
@[simp] theorem updLaunch_turn (s : State) (id : Nat) (f : Launch → Launch) : (s.updLaunch id f).turn = s.turn := rfl
@[simp] theorem updLaunch_agenda (s : State) (id : Nat) (f : Launch → Launch) : (s.updLaunch id f).agenda = s.agenda := rfl
@[simp] theorem updLaunch_cur (s : State) (id : Nat) (f : Launch → Launch) : (s.updLaunch id f).cur = s.cur := rfl
@[simp] theorem updLaunch_hbm (s : State) (id : Nat) (f : Launch → Launch) : (s.updLaunch id f).hbm = s.hbm := rfl
@[simp] theorem updLaunch_spaces (s : State) (id : Nat) (f : Launch → Launch) : (s.updLaunch id f).spaces = s.spaces := rfl
@[simp] theorem updLaunch_gangs (s : State) (id : Nat) (f : Launch → Launch) : (s.updLaunch id f).gangs = s.gangs := rfl
@[simp] theorem updLaunch_stores (s : State) (id : Nat) (f : Launch → Launch) : (s.updLaunch id f).stores = s.stores := rfl
@[simp] theorem updLaunch_reds (s : State) (id : Nat) (f : Launch → Launch) : (s.updLaunch id f).reds = s.reds := rfl
@[simp] theorem updLaunch_prods (s : State) (id : Nat) (f : Launch → Launch) : (s.updLaunch id f).prods = s.prods := rfl
@[simp] theorem updLaunch_bgemvs (s : State) (id : Nat) (f : Launch → Launch) : (s.updLaunch id f).bgemvs = s.bgemvs := rfl
@[simp] theorem updLaunch_towers (s : State) (id : Nat) (f : Launch → Launch) : (s.updLaunch id f).towers = s.towers := rfl
@[simp] theorem updLaunch_lease (s : State) (id : Nat) (f : Launch → Launch) : (s.updLaunch id f).lease = s.lease := rfl
@[simp] theorem updLaunch_patch (s : State) (id : Nat) (f : Launch → Launch) : (s.updLaunch id f).patch = s.patch := rfl
@[simp] theorem updLaunch_applied (s : State) (id : Nat) (f : Launch → Launch) : (s.updLaunch id f).applied = s.applied := rfl
@[simp] theorem updLaunch_moduleId (s : State) (id : Nat) (f : Launch → Launch) : (s.updLaunch id f).moduleId = s.moduleId := rfl
@[simp] theorem updLaunch_portMask (s : State) (id : Nat) (f : Launch → Launch) : (s.updLaunch id f).portMask = s.portMask := rfl
@[simp] theorem updLaunch_windows (s : State) (id : Nat) (f : Launch → Launch) : (s.updLaunch id f).windows = s.windows := rfl
@[simp] theorem updLaunch_startAt (s : State) (id : Nat) (f : Launch → Launch) : (s.updLaunch id f).startAt = s.startAt := rfl
@[simp] theorem updLaunch_tries (s : State) (id : Nat) (f : Launch → Launch) : (s.updLaunch id f).tries = s.tries := rfl

/-! ### charge -/

@[simp] theorem charge_seq (s : State) (l : Option Nat) (f : Charges → Charges) : (s.charge l f).seq = s.seq := by cases l <;> rfl
@[simp] theorem charge_nextId (s : State) (l : Option Nat) (f : Charges → Charges) : (s.charge l f).nextId = s.nextId := by cases l <;> rfl
@[simp] theorem charge_turn (s : State) (l : Option Nat) (f : Charges → Charges) : (s.charge l f).turn = s.turn := by cases l <;> rfl
@[simp] theorem charge_agenda (s : State) (l : Option Nat) (f : Charges → Charges) : (s.charge l f).agenda = s.agenda := by cases l <;> rfl
@[simp] theorem charge_cur (s : State) (l : Option Nat) (f : Charges → Charges) : (s.charge l f).cur = s.cur := by cases l <;> rfl
@[simp] theorem charge_hbm (s : State) (l : Option Nat) (f : Charges → Charges) : (s.charge l f).hbm = s.hbm := by cases l <;> rfl
@[simp] theorem charge_spaces (s : State) (l : Option Nat) (f : Charges → Charges) : (s.charge l f).spaces = s.spaces := by cases l <;> rfl
@[simp] theorem charge_gangs (s : State) (l : Option Nat) (f : Charges → Charges) : (s.charge l f).gangs = s.gangs := by cases l <;> rfl
@[simp] theorem charge_stores (s : State) (l : Option Nat) (f : Charges → Charges) : (s.charge l f).stores = s.stores := by cases l <;> rfl
@[simp] theorem charge_reds (s : State) (l : Option Nat) (f : Charges → Charges) : (s.charge l f).reds = s.reds := by cases l <;> rfl
@[simp] theorem charge_prods (s : State) (l : Option Nat) (f : Charges → Charges) : (s.charge l f).prods = s.prods := by cases l <;> rfl
@[simp] theorem charge_bgemvs (s : State) (l : Option Nat) (f : Charges → Charges) : (s.charge l f).bgemvs = s.bgemvs := by cases l <;> rfl
@[simp] theorem charge_towers (s : State) (l : Option Nat) (f : Charges → Charges) : (s.charge l f).towers = s.towers := by cases l <;> rfl
@[simp] theorem charge_lease (s : State) (l : Option Nat) (f : Charges → Charges) : (s.charge l f).lease = s.lease := by cases l <;> rfl
@[simp] theorem charge_patch (s : State) (l : Option Nat) (f : Charges → Charges) : (s.charge l f).patch = s.patch := by cases l <;> rfl
@[simp] theorem charge_applied (s : State) (l : Option Nat) (f : Charges → Charges) : (s.charge l f).applied = s.applied := by cases l <;> rfl
@[simp] theorem charge_moduleId (s : State) (l : Option Nat) (f : Charges → Charges) : (s.charge l f).moduleId = s.moduleId := by cases l <;> rfl
@[simp] theorem charge_portMask (s : State) (l : Option Nat) (f : Charges → Charges) : (s.charge l f).portMask = s.portMask := by cases l <;> rfl
@[simp] theorem charge_windows (s : State) (l : Option Nat) (f : Charges → Charges) : (s.charge l f).windows = s.windows := by cases l <;> rfl
@[simp] theorem charge_startAt (s : State) (l : Option Nat) (f : Charges → Charges) : (s.charge l f).startAt = s.startAt := by cases l <;> rfl
@[simp] theorem charge_tries (s : State) (l : Option Nat) (f : Charges → Charges) : (s.charge l f).tries = s.tries := by cases l <;> rfl

/-! ### withResv -/

@[simp] theorem withResv_seq (s : State) (r : Bool) : (s.withResv r).seq = s.seq := rfl
@[simp] theorem withResv_nextId (s : State) (r : Bool) : (s.withResv r).nextId = s.nextId := rfl
@[simp] theorem withResv_turn (s : State) (r : Bool) : (s.withResv r).turn = s.turn := rfl
@[simp] theorem withResv_agenda (s : State) (r : Bool) : (s.withResv r).agenda = s.agenda := rfl
@[simp] theorem withResv_hbm (s : State) (r : Bool) : (s.withResv r).hbm = s.hbm := rfl
@[simp] theorem withResv_spaces (s : State) (r : Bool) : (s.withResv r).spaces = s.spaces := rfl
@[simp] theorem withResv_launches (s : State) (r : Bool) : (s.withResv r).launches = s.launches := rfl
@[simp] theorem withResv_gangs (s : State) (r : Bool) : (s.withResv r).gangs = s.gangs := rfl
@[simp] theorem withResv_stores (s : State) (r : Bool) : (s.withResv r).stores = s.stores := rfl
@[simp] theorem withResv_reds (s : State) (r : Bool) : (s.withResv r).reds = s.reds := rfl
@[simp] theorem withResv_prods (s : State) (r : Bool) : (s.withResv r).prods = s.prods := rfl
@[simp] theorem withResv_bgemvs (s : State) (r : Bool) : (s.withResv r).bgemvs = s.bgemvs := rfl
@[simp] theorem withResv_towers (s : State) (r : Bool) : (s.withResv r).towers = s.towers := rfl
@[simp] theorem withResv_lease (s : State) (r : Bool) : (s.withResv r).lease = s.lease := rfl
@[simp] theorem withResv_patch (s : State) (r : Bool) : (s.withResv r).patch = s.patch := rfl
@[simp] theorem withResv_applied (s : State) (r : Bool) : (s.withResv r).applied = s.applied := rfl
@[simp] theorem withResv_moduleId (s : State) (r : Bool) : (s.withResv r).moduleId = s.moduleId := rfl
@[simp] theorem withResv_portMask (s : State) (r : Bool) : (s.withResv r).portMask = s.portMask := rfl
@[simp] theorem withResv_windows (s : State) (r : Bool) : (s.withResv r).windows = s.windows := rfl
@[simp] theorem withResv_startAt (s : State) (r : Bool) : (s.withResv r).startAt = s.startAt := rfl
@[simp] theorem withResv_tries (s : State) (r : Bool) : (s.withResv r).tries = s.tries := rfl

/-! ### Updates seen through the accessors -/

@[simp] theorem Quad.get_mapIdx {α β : Type} (f : Four → α → β) (q : Quad α) (k : Four) : (q.mapIdx f).get k = f k (q.get k) := by
  match k with
  | 0 | 1 | 2 | 3 => rfl

@[simp] theorem Quad.get_map {α β : Type} (f : α → β) (q : Quad α) (k : Four) : (q.map f).get k = f (q.get k) :=
  get_mapIdx _ q k

theorem Quad.get_set {α : Type} (q : Quad α) (j k : Four) (x : α) : (q.set j x).get k = if k = j then x else q.get k := by
  match j, k with
  | 0, 0 | 0, 1 | 0, 2 | 0, 3 | 1, 0 | 1, 1 | 1, 2 | 1, 3 | 2, 0 | 2, 1 | 2, 2 | 2, 3 | 3, 0 | 3, 1 | 3, 2 | 3, 3 => rfl

@[simp] theorem Quad.get_set_self {α : Type} (q : Quad α) (k : Four) (x : α) : (q.set k x).get k = x := by simp [get_set]

theorem Quad.get_upd {α : Type} (q : Quad α) (j k : Four) (f : α → α) :
    (q.upd j f).get k = if k = j then f (q.get k) else q.get k := by
  simp only [Quad.upd, get_set]; split
  · subst_vars; rfl
  · rfl

/-- Another tower is as it was. -/
theorem updTower_tower (s : State) (t u : Four) (f : Tower → Tower) :
    (s.updTower t f).tower u = if u = t then f (s.tower u) else s.tower u := Quad.get_upd ..

@[simp] theorem updTower_tower_self (s : State) (t : Four) (f : Tower → Tower) : (s.updTower t f).tower t = f (s.tower t) := by
  simp [updTower_tower]

@[simp] theorem fresh_tower (s : State) (u : Four) : (s.fresh).tower u = s.tower u := rfl
@[simp] theorem fresh_col (s : State) (u : Four) (n : Nat) : (s.fresh).col u n = s.col u n := rfl
@[simp] theorem updGang_tower (s : State) (id : Nat) (f : Gang → Gang) (u : Four) : (s.updGang id f).tower u = s.tower u := rfl
@[simp] theorem updGang_col (s : State) (id : Nat) (f : Gang → Gang) (u : Four) (n : Nat) : (s.updGang id f).col u n = s.col u n := rfl
@[simp] theorem updWg_tower (s : State) (g m : Nat) (f : Wg → Wg) (u : Four) : (s.updWg g m f).tower u = s.tower u := rfl
@[simp] theorem updWg_col (s : State) (g m : Nat) (f : Wg → Wg) (u : Four) (n : Nat) : (s.updWg g m f).col u n = s.col u n := rfl
@[simp] theorem updGrp_tower (s : State) (c : Cursor) (f : Bead → Bead) (u : Four) : (s.updGrp c f).tower u = s.tower u := rfl
@[simp] theorem updGrp_col (s : State) (c : Cursor) (f : Bead → Bead) (u : Four) (n : Nat) : (s.updGrp c f).col u n = s.col u n := rfl
@[simp] theorem mapBeads_tower (s : State) (f : Bead → Bead) (u : Four) : (s.mapBeads f).tower u = s.tower u := rfl
@[simp] theorem mapBeads_col (s : State) (f : Bead → Bead) (u : Four) (n : Nat) : (s.mapBeads f).col u n = s.col u n := rfl
@[simp] theorem onGrp_tower (c : Ctx) (s : State) (f : Bead → Bead) (u : Four) : (c.onGrp s f).tower u = s.tower u := rfl
@[simp] theorem onGrp_col (c : Ctx) (s : State) (f : Bead → Bead) (u : Four) (n : Nat) : (c.onGrp s f).col u n = s.col u n := rfl
@[simp] theorem done_tower (c : Ctx) (s : State) (u : Four) : (c.done s).tower u = s.tower u := rfl
@[simp] theorem done_col (c : Ctx) (s : State) (u : Four) (n : Nat) : (c.done s).col u n = s.col u n := rfl
@[simp] theorem eachBead_tower (c : Ctx) (s : State) (f : Bead → Bead) (u : Four) : (c.eachBead s f).tower u = s.tower u := rfl
@[simp] theorem eachBead_col (c : Ctx) (s : State) (f : Bead → Bead) (u : Four) (n : Nat) : (c.eachBead s f).col u n = s.col u n := rfl
@[simp] theorem waitAt_tower (c : Ctx) (s : State) (i : Instr) (f : Bead → Option Wait) (u : Four) : (c.waitAt s i f).tower u = s.tower u := rfl
@[simp] theorem waitAt_col (c : Ctx) (s : State) (i : Instr) (f : Bead → Option Wait) (u : Four) (n : Nat) : (c.waitAt s i f).col u n = s.col u n := rfl
@[simp] theorem stamp_tower (c : Ctx) (s : State) (u : Four) : (c.stamp s).tower u = s.tower u := rfl
@[simp] theorem stamp_col (c : Ctx) (s : State) (u : Four) (n : Nat) : (c.stamp s).col u n = s.col u n := rfl
@[simp] theorem holdIssue_tower (c : Ctx) (s : State) (i : Instr) (u : Four) : (c.holdIssue s i).tower u = s.tower u := rfl
@[simp] theorem holdIssue_col (c : Ctx) (s : State) (i : Instr) (u : Four) (n : Nat) : (c.holdIssue s i).col u n = s.col u n := rfl
@[simp] theorem hold_tower (c : Ctx) (s : State) (i : Instr) (k : WaitKind) (u : Four) : (c.hold s i k).tower u = s.tower u := rfl
@[simp] theorem hold_col (c : Ctx) (s : State) (i : Instr) (k : WaitKind) (u : Four) (n : Nat) : (c.hold s i k).col u n = s.col u n := rfl
@[simp] theorem updLaunch_tower (s : State) (id : Nat) (f : Launch → Launch) (u : Four) : (s.updLaunch id f).tower u = s.tower u := rfl
@[simp] theorem updLaunch_col (s : State) (id : Nat) (f : Launch → Launch) (u : Four) (n : Nat) : (s.updLaunch id f).col u n = s.col u n := rfl
@[simp] theorem charge_tower (s : State) (l : Option Nat) (f : Charges → Charges) (u : Four) : (s.charge l f).tower u = s.tower u := by cases l <;> rfl
@[simp] theorem charge_col (s : State) (l : Option Nat) (f : Charges → Charges) (u : Four) (n : Nat) : (s.charge l f).col u n = s.col u n := by cases l <;> rfl
@[simp] theorem withResv_tower (s : State) (r : Bool) (u : Four) : (s.withResv r).tower u = s.tower u := rfl
@[simp] theorem withResv_col (s : State) (r : Bool) (u : Four) (n : Nat) : (s.withResv r).col u n = s.col u n := rfl
@[simp] theorem fresh_launch? (s : State) (n : Nat) : (s.fresh).launch? n = s.launch? n := rfl
@[simp] theorem updTower_launch? (s : State) (t : Four) (f : Tower → Tower) (n : Nat) : (s.updTower t f).launch? n = s.launch? n := rfl
@[simp] theorem updCol_launch? (s : State) (t : Four) (c : Nat) (f : Column → Column) (n : Nat) : (s.updCol t c f).launch? n = s.launch? n := rfl
@[simp] theorem updQueue_launch? (s : State) (t : Four) (q : Nat) (f : Queue → Queue) (n : Nat) : (s.updQueue t q f).launch? n = s.launch? n := rfl
@[simp] theorem pushTrap_launch? (s : State) (t : Four) (r : RingRec) (n : Nat) : (pushTrap s t r).launch? n = s.launch? n := rfl
@[simp] theorem pushFault_launch? (s : State) (t : Four) (r : RingRec) (n : Nat) : (pushFault s t r).launch? n = s.launch? n := rfl
@[simp] theorem updGang_launch? (s : State) (id : Nat) (f : Gang → Gang) (n : Nat) : (s.updGang id f).launch? n = s.launch? n := rfl
@[simp] theorem updWg_launch? (s : State) (g m : Nat) (f : Wg → Wg) (n : Nat) : (s.updWg g m f).launch? n = s.launch? n := rfl
@[simp] theorem updGrp_launch? (s : State) (c : Cursor) (f : Bead → Bead) (n : Nat) : (s.updGrp c f).launch? n = s.launch? n := rfl
@[simp] theorem mapBeads_launch? (s : State) (f : Bead → Bead) (n : Nat) : (s.mapBeads f).launch? n = s.launch? n := rfl
@[simp] theorem onGrp_launch? (c : Ctx) (s : State) (f : Bead → Bead) (n : Nat) : (c.onGrp s f).launch? n = s.launch? n := rfl
@[simp] theorem done_launch? (c : Ctx) (s : State) (n : Nat) : (c.done s).launch? n = s.launch? n := rfl
@[simp] theorem eachBead_launch? (c : Ctx) (s : State) (f : Bead → Bead) (n : Nat) : (c.eachBead s f).launch? n = s.launch? n := rfl
@[simp] theorem waitAt_launch? (c : Ctx) (s : State) (i : Instr) (f : Bead → Option Wait) (n : Nat) : (c.waitAt s i f).launch? n = s.launch? n := rfl
@[simp] theorem stamp_launch? (c : Ctx) (s : State) (n : Nat) : (c.stamp s).launch? n = s.launch? n := rfl
@[simp] theorem holdIssue_launch? (c : Ctx) (s : State) (i : Instr) (n : Nat) : (c.holdIssue s i).launch? n = s.launch? n := rfl
@[simp] theorem hold_launch? (c : Ctx) (s : State) (i : Instr) (k : WaitKind) (n : Nat) : (c.hold s i k).launch? n = s.launch? n := rfl
@[simp] theorem withResv_launch? (s : State) (r : Bool) (n : Nat) : (s.withResv r).launch? n = s.launch? n := rfl
@[simp] theorem fresh_gang? (s : State) (n : Nat) : (s.fresh).gang? n = s.gang? n := rfl
@[simp] theorem updTower_gang? (s : State) (t : Four) (f : Tower → Tower) (n : Nat) : (s.updTower t f).gang? n = s.gang? n := rfl
@[simp] theorem updCol_gang? (s : State) (t : Four) (c : Nat) (f : Column → Column) (n : Nat) : (s.updCol t c f).gang? n = s.gang? n := rfl
@[simp] theorem updQueue_gang? (s : State) (t : Four) (q : Nat) (f : Queue → Queue) (n : Nat) : (s.updQueue t q f).gang? n = s.gang? n := rfl
@[simp] theorem pushTrap_gang? (s : State) (t : Four) (r : RingRec) (n : Nat) : (pushTrap s t r).gang? n = s.gang? n := rfl
@[simp] theorem pushFault_gang? (s : State) (t : Four) (r : RingRec) (n : Nat) : (pushFault s t r).gang? n = s.gang? n := rfl
@[simp] theorem updLaunch_gang? (s : State) (id : Nat) (f : Launch → Launch) (n : Nat) : (s.updLaunch id f).gang? n = s.gang? n := rfl
@[simp] theorem charge_gang? (s : State) (l : Option Nat) (f : Charges → Charges) (n : Nat) : (s.charge l f).gang? n = s.gang? n := by cases l <;> rfl
@[simp] theorem withResv_gang? (s : State) (r : Bool) (n : Nat) : (s.withResv r).gang? n = s.gang? n := rfl

/-! ### The fields of a bead -/

@[simp] theorem Bead.advance_home (b : Bead) : b.advance.home = b.home := rfl
@[simp] theorem Bead.advance_pos (b : Bead) : b.advance.pos = b.pos := rfl
@[simp] theorem Bead.advance_role (b : Bead) : b.advance.role = b.role := rfl
@[simp] theorem Bead.advance_entry (b : Bead) : b.advance.entry = b.entry := rfl
@[simp] theorem Bead.advance_grp (b : Bead) : b.advance.grp = b.grp := rfl
@[simp] theorem Bead.advance_stack (b : Bead) : b.advance.stack = b.stack := rfl
@[simp] theorem Bead.advance_active (b : Bead) : b.advance.active = b.active := rfl
@[simp] theorem Bead.advance_exited (b : Bead) : b.advance.exited = b.exited := rfl
@[simp] theorem Bead.advance_fmt (b : Bead) : b.advance.fmt = b.fmt := rfl
@[simp] theorem Bead.advance_s (b : Bead) : b.advance.s = b.s := rfl
@[simp] theorem Bead.advance_lanes (b : Bead) : b.advance.lanes = b.lanes := rfl
@[simp] theorem Bead.advance_dpc (b : Bead) : b.advance.dpc = b.dpc := rfl
@[simp] theorem Bead.advance_why (b : Bead) : b.advance.why = b.why := rfl
@[simp] theorem Bead.advance_lops (b : Bead) : b.advance.lops = b.lops := rfl
@[simp] theorem Bead.advance_sops (b : Bead) : b.advance.sops = b.sops := rfl
@[simp] theorem Bead.advance_tops (b : Bead) : b.advance.tops = b.tops := rfl
@[simp] theorem Bead.advance_pendV (b : Bead) : b.advance.pendV = b.pendV := rfl
@[simp] theorem Bead.advance_pendS (b : Bead) : b.advance.pendS = b.pendS := rfl
@[simp] theorem Bead.advance_gbars (b : Bead) : b.advance.gbars = b.gbars := rfl
@[simp] theorem Bead.advance_stop (b : Bead) : b.advance.stop = b.stop := rfl
@[simp] theorem Bead.advance_park (b : Bead) : b.advance.park = b.park := rfl
@[simp] theorem Bead.advance_diverted (b : Bead) : b.advance.diverted = b.diverted := rfl
@[simp] theorem Bead.advance_divertDue (b : Bead) : b.advance.divertDue = b.divertDue := rfl
@[simp] theorem Bead.advance_dying (b : Bead) : b.advance.dying = b.dying := rfl
@[simp] theorem Bead.advance_turn (b : Bead) : b.advance.turn = b.turn := rfl
@[simp] theorem Bead.advance_lastIssue (b : Bead) : b.advance.lastIssue = b.lastIssue := rfl

@[simp] theorem Bead.goTo_home (b : Bead) (p : DWord) (x : Bool) : (b.goTo p x).home = b.home := rfl
@[simp] theorem Bead.goTo_pos (b : Bead) (p : DWord) (x : Bool) : (b.goTo p x).pos = b.pos := rfl
@[simp] theorem Bead.goTo_role (b : Bead) (p : DWord) (x : Bool) : (b.goTo p x).role = b.role := rfl
@[simp] theorem Bead.goTo_entry (b : Bead) (p : DWord) (x : Bool) : (b.goTo p x).entry = b.entry := rfl
@[simp] theorem Bead.goTo_grp (b : Bead) (p : DWord) (x : Bool) : (b.goTo p x).grp = b.grp := rfl
@[simp] theorem Bead.goTo_stack (b : Bead) (p : DWord) (x : Bool) : (b.goTo p x).stack = b.stack := rfl
@[simp] theorem Bead.goTo_active (b : Bead) (p : DWord) (x : Bool) : (b.goTo p x).active = b.active := rfl
@[simp] theorem Bead.goTo_exited (b : Bead) (p : DWord) (x : Bool) : (b.goTo p x).exited = b.exited := rfl
@[simp] theorem Bead.goTo_fmt (b : Bead) (p : DWord) (x : Bool) : (b.goTo p x).fmt = b.fmt := rfl
@[simp] theorem Bead.goTo_s (b : Bead) (p : DWord) (x : Bool) : (b.goTo p x).s = b.s := rfl
@[simp] theorem Bead.goTo_lanes (b : Bead) (p : DWord) (x : Bool) : (b.goTo p x).lanes = b.lanes := rfl
@[simp] theorem Bead.goTo_dpc (b : Bead) (p : DWord) (x : Bool) : (b.goTo p x).dpc = b.dpc := rfl
@[simp] theorem Bead.goTo_why (b : Bead) (p : DWord) (x : Bool) : (b.goTo p x).why = b.why := rfl
@[simp] theorem Bead.goTo_lops (b : Bead) (p : DWord) (x : Bool) : (b.goTo p x).lops = b.lops := rfl
@[simp] theorem Bead.goTo_sops (b : Bead) (p : DWord) (x : Bool) : (b.goTo p x).sops = b.sops := rfl
@[simp] theorem Bead.goTo_tops (b : Bead) (p : DWord) (x : Bool) : (b.goTo p x).tops = b.tops := rfl
@[simp] theorem Bead.goTo_pendV (b : Bead) (p : DWord) (x : Bool) : (b.goTo p x).pendV = b.pendV := rfl
@[simp] theorem Bead.goTo_pendS (b : Bead) (p : DWord) (x : Bool) : (b.goTo p x).pendS = b.pendS := rfl
@[simp] theorem Bead.goTo_gbars (b : Bead) (p : DWord) (x : Bool) : (b.goTo p x).gbars = b.gbars := rfl
@[simp] theorem Bead.goTo_stop (b : Bead) (p : DWord) (x : Bool) : (b.goTo p x).stop = b.stop := rfl
@[simp] theorem Bead.goTo_park (b : Bead) (p : DWord) (x : Bool) : (b.goTo p x).park = b.park := rfl
@[simp] theorem Bead.goTo_diverted (b : Bead) (p : DWord) (x : Bool) : (b.goTo p x).diverted = b.diverted := rfl
@[simp] theorem Bead.goTo_divertDue (b : Bead) (p : DWord) (x : Bool) : (b.goTo p x).divertDue = b.divertDue := rfl
@[simp] theorem Bead.goTo_dying (b : Bead) (p : DWord) (x : Bool) : (b.goTo p x).dying = b.dying := rfl
@[simp] theorem Bead.goTo_turn (b : Bead) (p : DWord) (x : Bool) : (b.goTo p x).turn = b.turn := rfl
@[simp] theorem Bead.goTo_lastIssue (b : Bead) (p : DWord) (x : Bool) : (b.goTo p x).lastIssue = b.lastIssue := rfl

@[simp] theorem Bead.rewind_home (b : Bead) : b.rewind.home = b.home := rfl
@[simp] theorem Bead.rewind_pos (b : Bead) : b.rewind.pos = b.pos := rfl
@[simp] theorem Bead.rewind_role (b : Bead) : b.rewind.role = b.role := rfl
@[simp] theorem Bead.rewind_entry (b : Bead) : b.rewind.entry = b.entry := rfl
@[simp] theorem Bead.rewind_grp (b : Bead) : b.rewind.grp = b.grp := rfl
@[simp] theorem Bead.rewind_stack (b : Bead) : b.rewind.stack = b.stack := rfl
@[simp] theorem Bead.rewind_active (b : Bead) : b.rewind.active = b.active := rfl
@[simp] theorem Bead.rewind_exited (b : Bead) : b.rewind.exited = b.exited := rfl
@[simp] theorem Bead.rewind_fmt (b : Bead) : b.rewind.fmt = b.fmt := rfl
@[simp] theorem Bead.rewind_s (b : Bead) : b.rewind.s = b.s := rfl
@[simp] theorem Bead.rewind_lanes (b : Bead) : b.rewind.lanes = b.lanes := rfl
@[simp] theorem Bead.rewind_dpc (b : Bead) : b.rewind.dpc = b.dpc := rfl
@[simp] theorem Bead.rewind_why (b : Bead) : b.rewind.why = b.why := rfl
@[simp] theorem Bead.rewind_lops (b : Bead) : b.rewind.lops = b.lops := rfl
@[simp] theorem Bead.rewind_sops (b : Bead) : b.rewind.sops = b.sops := rfl
@[simp] theorem Bead.rewind_tops (b : Bead) : b.rewind.tops = b.tops := rfl
@[simp] theorem Bead.rewind_pendV (b : Bead) : b.rewind.pendV = b.pendV := rfl
@[simp] theorem Bead.rewind_pendS (b : Bead) : b.rewind.pendS = b.pendS := rfl
@[simp] theorem Bead.rewind_gbars (b : Bead) : b.rewind.gbars = b.gbars := rfl
@[simp] theorem Bead.rewind_stop (b : Bead) : b.rewind.stop = b.stop := rfl
@[simp] theorem Bead.rewind_park (b : Bead) : b.rewind.park = b.park := rfl
@[simp] theorem Bead.rewind_diverted (b : Bead) : b.rewind.diverted = b.diverted := rfl
@[simp] theorem Bead.rewind_divertDue (b : Bead) : b.rewind.divertDue = b.divertDue := rfl
@[simp] theorem Bead.rewind_dying (b : Bead) : b.rewind.dying = b.dying := rfl
@[simp] theorem Bead.rewind_turn (b : Bead) : b.rewind.turn = b.turn := rfl
@[simp] theorem Bead.rewind_lastIssue (b : Bead) : b.rewind.lastIssue = b.lastIssue := rfl

@[simp] theorem Bead.kill_home (b : Bead) : b.kill.home = b.home := rfl
@[simp] theorem Bead.kill_pos (b : Bead) : b.kill.pos = b.pos := rfl
@[simp] theorem Bead.kill_role (b : Bead) : b.kill.role = b.role := rfl
@[simp] theorem Bead.kill_entry (b : Bead) : b.kill.entry = b.entry := rfl
@[simp] theorem Bead.kill_grp (b : Bead) : b.kill.grp = b.grp := rfl
@[simp] theorem Bead.kill_pc (b : Bead) : b.kill.pc = b.pc := rfl
@[simp] theorem Bead.kill_xfer (b : Bead) : b.kill.xfer = b.xfer := rfl
@[simp] theorem Bead.kill_fmt (b : Bead) : b.kill.fmt = b.fmt := rfl
@[simp] theorem Bead.kill_s (b : Bead) : b.kill.s = b.s := rfl
@[simp] theorem Bead.kill_lanes (b : Bead) : b.kill.lanes = b.lanes := rfl
@[simp] theorem Bead.kill_dpc (b : Bead) : b.kill.dpc = b.dpc := rfl
@[simp] theorem Bead.kill_why (b : Bead) : b.kill.why = b.why := rfl
@[simp] theorem Bead.kill_lops (b : Bead) : b.kill.lops = b.lops := rfl
@[simp] theorem Bead.kill_sops (b : Bead) : b.kill.sops = b.sops := rfl
@[simp] theorem Bead.kill_tops (b : Bead) : b.kill.tops = b.tops := rfl
@[simp] theorem Bead.kill_pendV (b : Bead) : b.kill.pendV = b.pendV := rfl
@[simp] theorem Bead.kill_pendS (b : Bead) : b.kill.pendS = b.pendS := rfl
@[simp] theorem Bead.kill_gbars (b : Bead) : b.kill.gbars = b.gbars := rfl
@[simp] theorem Bead.kill_diverted (b : Bead) : b.kill.diverted = b.diverted := rfl
@[simp] theorem Bead.kill_turn (b : Bead) : b.kill.turn = b.turn := rfl
@[simp] theorem Bead.kill_lastIssue (b : Bead) : b.kill.lastIssue = b.lastIssue := rfl

@[simp] theorem Bead.vset_home (b : Bead) (k : Four) (r : Reg) (x : Word) : (b.vset k r x).home = b.home := rfl
@[simp] theorem Bead.vset_pos (b : Bead) (k : Four) (r : Reg) (x : Word) : (b.vset k r x).pos = b.pos := rfl
@[simp] theorem Bead.vset_role (b : Bead) (k : Four) (r : Reg) (x : Word) : (b.vset k r x).role = b.role := rfl
@[simp] theorem Bead.vset_entry (b : Bead) (k : Four) (r : Reg) (x : Word) : (b.vset k r x).entry = b.entry := rfl
@[simp] theorem Bead.vset_grp (b : Bead) (k : Four) (r : Reg) (x : Word) : (b.vset k r x).grp = b.grp := rfl
@[simp] theorem Bead.vset_pc (b : Bead) (k : Four) (r : Reg) (x : Word) : (b.vset k r x).pc = b.pc := rfl
@[simp] theorem Bead.vset_pfx (b : Bead) (k : Four) (r : Reg) (x : Word) : (b.vset k r x).pfx = b.pfx := rfl
@[simp] theorem Bead.vset_xfer (b : Bead) (k : Four) (r : Reg) (x : Word) : (b.vset k r x).xfer = b.xfer := rfl
@[simp] theorem Bead.vset_stack (b : Bead) (k : Four) (r : Reg) (x : Word) : (b.vset k r x).stack = b.stack := rfl
@[simp] theorem Bead.vset_active (b : Bead) (k : Four) (r : Reg) (x : Word) : (b.vset k r x).active = b.active := rfl
@[simp] theorem Bead.vset_exited (b : Bead) (k : Four) (r : Reg) (x : Word) : (b.vset k r x).exited = b.exited := rfl
@[simp] theorem Bead.vset_fmt (b : Bead) (k : Four) (r : Reg) (x : Word) : (b.vset k r x).fmt = b.fmt := rfl
@[simp] theorem Bead.vset_s (b : Bead) (k : Four) (r : Reg) (x : Word) : (b.vset k r x).s = b.s := rfl
@[simp] theorem Bead.vset_dpc (b : Bead) (k : Four) (r : Reg) (x : Word) : (b.vset k r x).dpc = b.dpc := rfl
@[simp] theorem Bead.vset_why (b : Bead) (k : Four) (r : Reg) (x : Word) : (b.vset k r x).why = b.why := rfl
@[simp] theorem Bead.vset_lops (b : Bead) (k : Four) (r : Reg) (x : Word) : (b.vset k r x).lops = b.lops := rfl
@[simp] theorem Bead.vset_sops (b : Bead) (k : Four) (r : Reg) (x : Word) : (b.vset k r x).sops = b.sops := rfl
@[simp] theorem Bead.vset_tops (b : Bead) (k : Four) (r : Reg) (x : Word) : (b.vset k r x).tops = b.tops := rfl
@[simp] theorem Bead.vset_pendV (b : Bead) (k : Four) (r : Reg) (x : Word) : (b.vset k r x).pendV = b.pendV := rfl
@[simp] theorem Bead.vset_pendS (b : Bead) (k : Four) (r : Reg) (x : Word) : (b.vset k r x).pendS = b.pendS := rfl
@[simp] theorem Bead.vset_gbars (b : Bead) (k : Four) (r : Reg) (x : Word) : (b.vset k r x).gbars = b.gbars := rfl
@[simp] theorem Bead.vset_wait (b : Bead) (k : Four) (r : Reg) (x : Word) : (b.vset k r x).wait = b.wait := rfl
@[simp] theorem Bead.vset_held (b : Bead) (k : Four) (r : Reg) (x : Word) : (b.vset k r x).held = b.held := rfl
@[simp] theorem Bead.vset_stop (b : Bead) (k : Four) (r : Reg) (x : Word) : (b.vset k r x).stop = b.stop := rfl
@[simp] theorem Bead.vset_park (b : Bead) (k : Four) (r : Reg) (x : Word) : (b.vset k r x).park = b.park := rfl
@[simp] theorem Bead.vset_diverted (b : Bead) (k : Four) (r : Reg) (x : Word) : (b.vset k r x).diverted = b.diverted := rfl
@[simp] theorem Bead.vset_divertDue (b : Bead) (k : Four) (r : Reg) (x : Word) : (b.vset k r x).divertDue = b.divertDue := rfl
@[simp] theorem Bead.vset_dying (b : Bead) (k : Four) (r : Reg) (x : Word) : (b.vset k r x).dying = b.dying := rfl
@[simp] theorem Bead.vset_turn (b : Bead) (k : Four) (r : Reg) (x : Word) : (b.vset k r x).turn = b.turn := rfl
@[simp] theorem Bead.vset_lastIssue (b : Bead) (k : Four) (r : Reg) (x : Word) : (b.vset k r x).lastIssue = b.lastIssue := rfl

@[simp] theorem Bead.sset_home (b : Bead) (r : Reg) (x : DWord) : (b.sset r x).home = b.home := by unfold Bead.sset; split <;> rfl
@[simp] theorem Bead.sset_pos (b : Bead) (r : Reg) (x : DWord) : (b.sset r x).pos = b.pos := by unfold Bead.sset; split <;> rfl
@[simp] theorem Bead.sset_role (b : Bead) (r : Reg) (x : DWord) : (b.sset r x).role = b.role := by unfold Bead.sset; split <;> rfl
@[simp] theorem Bead.sset_entry (b : Bead) (r : Reg) (x : DWord) : (b.sset r x).entry = b.entry := by unfold Bead.sset; split <;> rfl
@[simp] theorem Bead.sset_grp (b : Bead) (r : Reg) (x : DWord) : (b.sset r x).grp = b.grp := by unfold Bead.sset; split <;> rfl
@[simp] theorem Bead.sset_pc (b : Bead) (r : Reg) (x : DWord) : (b.sset r x).pc = b.pc := by unfold Bead.sset; split <;> rfl
@[simp] theorem Bead.sset_pfx (b : Bead) (r : Reg) (x : DWord) : (b.sset r x).pfx = b.pfx := by unfold Bead.sset; split <;> rfl
@[simp] theorem Bead.sset_xfer (b : Bead) (r : Reg) (x : DWord) : (b.sset r x).xfer = b.xfer := by unfold Bead.sset; split <;> rfl
@[simp] theorem Bead.sset_stack (b : Bead) (r : Reg) (x : DWord) : (b.sset r x).stack = b.stack := by unfold Bead.sset; split <;> rfl
@[simp] theorem Bead.sset_active (b : Bead) (r : Reg) (x : DWord) : (b.sset r x).active = b.active := by unfold Bead.sset; split <;> rfl
@[simp] theorem Bead.sset_exited (b : Bead) (r : Reg) (x : DWord) : (b.sset r x).exited = b.exited := by unfold Bead.sset; split <;> rfl
@[simp] theorem Bead.sset_fmt (b : Bead) (r : Reg) (x : DWord) : (b.sset r x).fmt = b.fmt := by unfold Bead.sset; split <;> rfl
@[simp] theorem Bead.sset_lanes (b : Bead) (r : Reg) (x : DWord) : (b.sset r x).lanes = b.lanes := by unfold Bead.sset; split <;> rfl
@[simp] theorem Bead.sset_dpc (b : Bead) (r : Reg) (x : DWord) : (b.sset r x).dpc = b.dpc := by unfold Bead.sset; split <;> rfl
@[simp] theorem Bead.sset_why (b : Bead) (r : Reg) (x : DWord) : (b.sset r x).why = b.why := by unfold Bead.sset; split <;> rfl
@[simp] theorem Bead.sset_lops (b : Bead) (r : Reg) (x : DWord) : (b.sset r x).lops = b.lops := by unfold Bead.sset; split <;> rfl
@[simp] theorem Bead.sset_sops (b : Bead) (r : Reg) (x : DWord) : (b.sset r x).sops = b.sops := by unfold Bead.sset; split <;> rfl
@[simp] theorem Bead.sset_tops (b : Bead) (r : Reg) (x : DWord) : (b.sset r x).tops = b.tops := by unfold Bead.sset; split <;> rfl
@[simp] theorem Bead.sset_pendV (b : Bead) (r : Reg) (x : DWord) : (b.sset r x).pendV = b.pendV := by unfold Bead.sset; split <;> rfl
@[simp] theorem Bead.sset_pendS (b : Bead) (r : Reg) (x : DWord) : (b.sset r x).pendS = b.pendS := by unfold Bead.sset; split <;> rfl
@[simp] theorem Bead.sset_gbars (b : Bead) (r : Reg) (x : DWord) : (b.sset r x).gbars = b.gbars := by unfold Bead.sset; split <;> rfl
@[simp] theorem Bead.sset_wait (b : Bead) (r : Reg) (x : DWord) : (b.sset r x).wait = b.wait := by unfold Bead.sset; split <;> rfl
@[simp] theorem Bead.sset_held (b : Bead) (r : Reg) (x : DWord) : (b.sset r x).held = b.held := by unfold Bead.sset; split <;> rfl
@[simp] theorem Bead.sset_stop (b : Bead) (r : Reg) (x : DWord) : (b.sset r x).stop = b.stop := by unfold Bead.sset; split <;> rfl
@[simp] theorem Bead.sset_park (b : Bead) (r : Reg) (x : DWord) : (b.sset r x).park = b.park := by unfold Bead.sset; split <;> rfl
@[simp] theorem Bead.sset_diverted (b : Bead) (r : Reg) (x : DWord) : (b.sset r x).diverted = b.diverted := by unfold Bead.sset; split <;> rfl
@[simp] theorem Bead.sset_divertDue (b : Bead) (r : Reg) (x : DWord) : (b.sset r x).divertDue = b.divertDue := by unfold Bead.sset; split <;> rfl
@[simp] theorem Bead.sset_dying (b : Bead) (r : Reg) (x : DWord) : (b.sset r x).dying = b.dying := by unfold Bead.sset; split <;> rfl
@[simp] theorem Bead.sset_turn (b : Bead) (r : Reg) (x : DWord) : (b.sset r x).turn = b.turn := by unfold Bead.sset; split <;> rfl
@[simp] theorem Bead.sset_lastIssue (b : Bead) (r : Reg) (x : DWord) : (b.sset r x).lastIssue = b.lastIssue := by unfold Bead.sset; split <;> rfl

@[simp] theorem Bead.pset_home (b : Bead) (k : Four) (p : BitVec 3) (v : Bool) : (b.pset k p v).home = b.home := by unfold Bead.pset; split <;> rfl
@[simp] theorem Bead.pset_pos (b : Bead) (k : Four) (p : BitVec 3) (v : Bool) : (b.pset k p v).pos = b.pos := by unfold Bead.pset; split <;> rfl
@[simp] theorem Bead.pset_role (b : Bead) (k : Four) (p : BitVec 3) (v : Bool) : (b.pset k p v).role = b.role := by unfold Bead.pset; split <;> rfl
@[simp] theorem Bead.pset_entry (b : Bead) (k : Four) (p : BitVec 3) (v : Bool) : (b.pset k p v).entry = b.entry := by unfold Bead.pset; split <;> rfl
@[simp] theorem Bead.pset_grp (b : Bead) (k : Four) (p : BitVec 3) (v : Bool) : (b.pset k p v).grp = b.grp := by unfold Bead.pset; split <;> rfl
@[simp] theorem Bead.pset_pc (b : Bead) (k : Four) (p : BitVec 3) (v : Bool) : (b.pset k p v).pc = b.pc := by unfold Bead.pset; split <;> rfl
@[simp] theorem Bead.pset_pfx (b : Bead) (k : Four) (p : BitVec 3) (v : Bool) : (b.pset k p v).pfx = b.pfx := by unfold Bead.pset; split <;> rfl
@[simp] theorem Bead.pset_xfer (b : Bead) (k : Four) (p : BitVec 3) (v : Bool) : (b.pset k p v).xfer = b.xfer := by unfold Bead.pset; split <;> rfl
@[simp] theorem Bead.pset_stack (b : Bead) (k : Four) (p : BitVec 3) (v : Bool) : (b.pset k p v).stack = b.stack := by unfold Bead.pset; split <;> rfl
@[simp] theorem Bead.pset_active (b : Bead) (k : Four) (p : BitVec 3) (v : Bool) : (b.pset k p v).active = b.active := by unfold Bead.pset; split <;> rfl
@[simp] theorem Bead.pset_exited (b : Bead) (k : Four) (p : BitVec 3) (v : Bool) : (b.pset k p v).exited = b.exited := by unfold Bead.pset; split <;> rfl
@[simp] theorem Bead.pset_fmt (b : Bead) (k : Four) (p : BitVec 3) (v : Bool) : (b.pset k p v).fmt = b.fmt := by unfold Bead.pset; split <;> rfl
@[simp] theorem Bead.pset_s (b : Bead) (k : Four) (p : BitVec 3) (v : Bool) : (b.pset k p v).s = b.s := by unfold Bead.pset; split <;> rfl
@[simp] theorem Bead.pset_dpc (b : Bead) (k : Four) (p : BitVec 3) (v : Bool) : (b.pset k p v).dpc = b.dpc := by unfold Bead.pset; split <;> rfl
@[simp] theorem Bead.pset_why (b : Bead) (k : Four) (p : BitVec 3) (v : Bool) : (b.pset k p v).why = b.why := by unfold Bead.pset; split <;> rfl
@[simp] theorem Bead.pset_lops (b : Bead) (k : Four) (p : BitVec 3) (v : Bool) : (b.pset k p v).lops = b.lops := by unfold Bead.pset; split <;> rfl
@[simp] theorem Bead.pset_sops (b : Bead) (k : Four) (p : BitVec 3) (v : Bool) : (b.pset k p v).sops = b.sops := by unfold Bead.pset; split <;> rfl
@[simp] theorem Bead.pset_tops (b : Bead) (k : Four) (p : BitVec 3) (v : Bool) : (b.pset k p v).tops = b.tops := by unfold Bead.pset; split <;> rfl
@[simp] theorem Bead.pset_pendV (b : Bead) (k : Four) (p : BitVec 3) (v : Bool) : (b.pset k p v).pendV = b.pendV := by unfold Bead.pset; split <;> rfl
@[simp] theorem Bead.pset_pendS (b : Bead) (k : Four) (p : BitVec 3) (v : Bool) : (b.pset k p v).pendS = b.pendS := by unfold Bead.pset; split <;> rfl
@[simp] theorem Bead.pset_gbars (b : Bead) (k : Four) (p : BitVec 3) (v : Bool) : (b.pset k p v).gbars = b.gbars := by unfold Bead.pset; split <;> rfl
@[simp] theorem Bead.pset_wait (b : Bead) (k : Four) (p : BitVec 3) (v : Bool) : (b.pset k p v).wait = b.wait := by unfold Bead.pset; split <;> rfl
@[simp] theorem Bead.pset_held (b : Bead) (k : Four) (p : BitVec 3) (v : Bool) : (b.pset k p v).held = b.held := by unfold Bead.pset; split <;> rfl
@[simp] theorem Bead.pset_stop (b : Bead) (k : Four) (p : BitVec 3) (v : Bool) : (b.pset k p v).stop = b.stop := by unfold Bead.pset; split <;> rfl
@[simp] theorem Bead.pset_park (b : Bead) (k : Four) (p : BitVec 3) (v : Bool) : (b.pset k p v).park = b.park := by unfold Bead.pset; split <;> rfl
@[simp] theorem Bead.pset_diverted (b : Bead) (k : Four) (p : BitVec 3) (v : Bool) : (b.pset k p v).diverted = b.diverted := by unfold Bead.pset; split <;> rfl
@[simp] theorem Bead.pset_divertDue (b : Bead) (k : Four) (p : BitVec 3) (v : Bool) : (b.pset k p v).divertDue = b.divertDue := by unfold Bead.pset; split <;> rfl
@[simp] theorem Bead.pset_dying (b : Bead) (k : Four) (p : BitVec 3) (v : Bool) : (b.pset k p v).dying = b.dying := by unfold Bead.pset; split <;> rfl
@[simp] theorem Bead.pset_turn (b : Bead) (k : Four) (p : BitVec 3) (v : Bool) : (b.pset k p v).turn = b.turn := by unfold Bead.pset; split <;> rfl
@[simp] theorem Bead.pset_lastIssue (b : Bead) (k : Four) (p : BitVec 3) (v : Bool) : (b.pset k p v).lastIssue = b.lastIssue := by unfold Bead.pset; split <;> rfl

/-! ### Registers -/

theorem vecGet_vecSet {α : Type} (v : Vector α 64) (r q : Reg) (x : α) : vecGet (vecSet v r x) q = if q = r then x else vecGet v q := by
  unfold vecGet vecSet
  rw [Vector.getElem_set]
  by_cases h : q = r
  · subst h; simp
  · rw [if_neg h, if_neg]; intro e; exact h (BitVec.eq_of_toNat_eq e.symm)

/-- s0 reads 0 (R142). -/
@[simp] theorem Bead.sget_zero (b : Bead) : b.sget 0 = 0 := rfl

/-- A scalar register after a write (R142). -/
theorem Bead.sget_sset (b : Bead) (r q : Reg) (x : DWord) :
    (b.sset r x).sget q = if q = r ∧ r ≠ 0 then x else b.sget q := by
  unfold Bead.sset Bead.sget
  by_cases hr : r = 0#6
  · simp [hr]
  · by_cases hq : q = 0#6
    · subst hq; simp [Ne.symm hr]
    · simp [hr, hq, vecGet_vecSet]

/-- A write to s0 is discarded (R142). -/
@[simp] theorem Bead.sset_zero (b : Bead) (x : DWord) : b.sset 0 x = b := rfl

/-- A vector register of a lane after a write. -/
theorem Bead.vget_vset (b : Bead) (k j : Four) (r q : Reg) (x : Word) :
    (b.vset k r x).vget j q = if j = k ∧ q = r then x else b.vget j q := by
  unfold Bead.vset Bead.vget
  simp only [Quad.get_upd]
  by_cases h : j = k
  · subst h; simp [vecGet_vecSet]
  · simp [h]

/-- p0 is true (R142). -/
@[simp] theorem Bead.pget_zero (b : Bead) (k : Four) : b.pget k 0 = true := rfl

/-- A write to p0 is discarded (R142). -/
@[simp] theorem Bead.pset_zero (b : Bead) (k : Four) (v : Bool) : b.pset k 0 v = b := rfl

theorem setBit_getLsbD (x : BitVec 8) (n j : Nat) (v : Bool) (h : n < 8) :
    (setBit x n v).getLsbD j = if j = n then v else x.getLsbD j := by
  unfold setBit
  by_cases e : j = n
  · subst e
    cases v <;> simp [h]
  · cases v <;> by_cases hj : j < 8 <;> simp [e, hj] <;> grind

/-- A predicate of a lane after a write (R142). -/
theorem Bead.pget_pset (b : Bead) (k j : Four) (p q : BitVec 3) (v : Bool) :
    (b.pset k p v).pget j q = if j = k ∧ q = p ∧ p ≠ 0 then v else b.pget j q := by
  unfold Bead.pset Bead.pget
  by_cases hp : p = 0#3
  · simp [hp]
  · by_cases hq : q = 0#3
    · subst hq; simp [Ne.symm hp]
    · simp only [BitVec.ofNat_eq_ofNat, hp, ite_false, Quad.get_upd]
      by_cases hj : j = k
      · subst hj
        simp only [ite_true, setBit_getLsbD _ _ _ _ p.isLt]
        by_cases e : q = p
        · subst e; simp [hp]
        · have : q.toNat ≠ p.toNat := fun h => e (BitVec.eq_of_toNat_eq h)
          simp [e, this]
      · simp [hj]

end Sys2Proof.Machine
end

