-- ==== Sys2Proof/Laws/Home.lean ====
section
/-!
SUPPORT. What the home L2s, what waits for HBM, and HBM together show of module memory: a write-back, the remap filter, room made and a
fill leave every byte as it was seen; a store or a reduction that reaches the home changes the bytes of its word and no others.
-/

set_option Elab.async false

namespace Sys2Proof.Machine

theorem lineByte_set {d : BitVec 1024} {j k : Nat} {b : Byte} (hj : j < 128) (hk : k < 128) :
    lineByte (lineSetByte d j b) k = if k = j then b else lineByte d k := by
  ext i hi
  have h8 : 8 * k + i < 1024 := by omega
  simp only [lineByte, lineSetByte, BitVec.getElem_extractLsb', BitVec.getLsbD_or, BitVec.getLsbD_and, BitVec.getLsbD_not,
    BitVec.getLsbD_shiftLeft, BitVec.getLsbD_setWidth]
  split
  · subst_vars
    have : 8 * k + i - 8 * k = i := by omega
    simp [this, h8, show ¬(8 * k + i < 8 * k) by omega, show i < 1024 by omega]
    have h255 : (255#8).getLsbD i = true := by
      have : ∀ i : Fin 8, (255#8).getLsbD i.val = true := by decide
      exact this ⟨i, hi⟩
    simp_all
  · rename_i hne
    simp only [h8, decide_true, Bool.true_and, BitVec.getElem_extractLsb']
    by_cases hlt : 8 * k + i < 8 * j
    · simp [hlt]
    · have h3 : ¬ 8 * k + i - 8 * j < 8 := by omega
      have h4 : (255#8).getLsbD (8 * k + i - 8 * j) = false := BitVec.getLsbD_of_ge _ _ (by omega)
      have h5 : b.getLsbD (8 * k + i - 8 * j) = false := BitVec.getLsbD_of_ge _ _ (by omega)
      simp [hlt, h4, h5]

theorem lineByte_write {bs : List Byte} {d : BitVec 1024} {j k : Nat} (hj : j + bs.length ≤ 128) (hk : k < 128) :
    lineByte (lineWrite d j bs) k = if j ≤ k ∧ k < j + bs.length then bs.getD (k - j) 0 else lineByte d k := by
  induction bs generalizing d j with
  | nil => rw [if_neg (by simp only [List.length_nil]; omega)]; rfl
  | cons b bs ih =>
    simp only [List.length_cons] at hj
    simp only [lineWrite]; rw [ih (by omega)]
    by_cases h : j + 1 ≤ k ∧ k < j + 1 + bs.length
    · rw [if_pos h, if_pos (by simp; omega)]
      rw [show k - j = (k - (j + 1)) + 1 by omega]; rfl
    · rw [if_neg h, lineByte_set (by omega) hk]
      by_cases h2 : k = j
      · subst h2; simp
      · rw [if_neg h2, if_neg (by simp; omega)]

theorem leNat_append_div (bs : List Byte) (k : Nat) : leNat bs / 256 ^ k % 256 = (bs.getD k 0).toNat := by
  induction bs generalizing k with
  | nil => simp [leNat]
  | cons b bs ih =>
    have hb := b.isLt
    cases k with
    | zero => simp [leNat]; omega
    | succ k =>
      simp only [leNat, List.getD_cons_succ]
      rw [← ih k, Nat.pow_succ, Nat.mul_comm (256 ^ k) 256, ← Nat.div_div_eq_div_mul]
      congr 2; omega

theorem leNat_lt (bs : List Byte) : leNat bs < 256 ^ bs.length := by
  induction bs with
  | nil => simp [leNat]
  | cons b bs ih => have := b.isLt; simp only [leNat, List.length_cons, Nat.pow_succ]; omega

theorem lineByte_hbmLine (s : State) {pa k : Nat} (hk : k < 128) : lineByte (hbmLine s pa) k = s.hbm.get (pa + k) := by
  apply BitVec.eq_of_toNat_eq
  simp only [lineByte, hbmLine, BitVec.extractLsb'_toNat, BitVec.toNat_ofNat, Memory.readNat, Nat.shiftRight_eq_div_pow]
  have h1 : leNat (s.hbm.read pa 128) < 2 ^ 1024 := by
    have := leNat_lt (s.hbm.read pa 128)
    have e : (s.hbm.read pa 128).length = 128 := by simp [Memory.read]
    rw [e] at this
    calc _ < 256 ^ 128 := this
      _ = 2 ^ 1024 := by rw [show (256:Nat) = 2 ^ 8 from rfl, ← Nat.pow_mul]
  rw [Nat.mod_eq_of_lt h1, Nat.pow_mul]
  have := leNat_append_div (s.hbm.read pa 128) k
  rw [show (2:Nat)^8 = 256 by rfl, this]
  simp [Memory.read, List.getD, hk]

/-- The byte below every L2: HBM under what waits for it. -/
def State.below (s : State) (p : Nat) : Byte :=
  (s.tower (towerOfPa (p / 128 * 128))).bank.foldl (fun b (w : BankByte) => if w.pa = p then w.byte else b) (s.hbm.get p)

theorem lineByte_overlay (s : State) {pa k : Nat} (ha : pa % 128 = 0) (hk : k < 128) :
    lineByte (overlayBank s pa (hbmLine s pa)) k = s.below (pa + k) := by
  have h1 : (pa + k) / 128 * 128 = pa := by omega
  simp only [overlayBank, State.below, h1, ← lineByte_hbmLine s hk]
  generalize hbmLine s pa = d
  induction (s.tower (towerOfPa pa)).bank generalizing d with
  | nil => rfl
  | cons w ws ih =>
    simp only [List.foldl_cons]
    rw [ih]; congr 1
    split
    · rw [lineByte_set (by omega) hk]
      by_cases h : w.pa = pa + k
      · rw [if_pos (by omega), if_pos h]
      · rw [if_neg (by omega), if_neg h]
    · rw [if_neg (by omega)]

theorem lineByte_places {l : Line} {d : BitVec 1024} {k : Nat} (hk : k < 128) :
    lineByte (l.places.foldl (fun d k => lineSetByte d k (lineByte l.data k)) d) k =
      if l.valid.getLsbD k then lineByte l.data k else lineByte d k := by
  have key : ∀ (ks : List Nat) d, (∀ j ∈ ks, j < 128) → lineByte (ks.foldl (fun d k => lineSetByte d k (lineByte l.data k)) d) k =
      if k ∈ ks then lineByte l.data k else lineByte d k := by
    intro ks
    induction ks with
    | nil => intro d _; simp
    | cons j ks ih =>
      intro d h
      simp only [List.foldl_cons]
      rw [ih _ (fun i hi => h i (List.mem_cons_of_mem _ hi)), lineByte_set (h j List.mem_cons_self) hk]
      by_cases h1 : k ∈ ks
      · simp [h1]
      · by_cases h2 : k = j
        · subst h2; simp
        · simp [h1, h2]
  rw [key _ _ (by intro j hj; simp [Line.places] at hj; exact hj.1)]
  simp [Line.places, hk]

theorem lineByte_over {l : Line} {d : BitVec 1024} {k : Nat} (hk : k < 128) :
    lineByte (l.over d) k = if l.valid.getLsbD k then lineByte l.data k else lineByte d k := by
  unfold Line.over
  split
  · rename_i h
    have : l.valid.getLsbD k = true := by rw [h, BitVec.getLsbD_allOnes]; simp [hk]
    simp [this]
  · exact lineByte_places hk

/-- What a list of lines shows at an address, over what lies below. -/
def shown (ls : List Line) (b : Byte) (p : Nat) : Byte :=
  match ls.find? (·.pa == p / 128 * 128) with
  | some l => if l.valid.getLsbD (p % 128) then lineByte l.data (p % 128) else b
  | none => b

theorem physByte_eq (s : State) (p : Nat) : s.physByte p = shown (s.tower (towerOfPa (p / 128 * 128))).l2 (s.below p) p := by
  have hk : p % 128 < 128 := by omega
  have ha : p / 128 * 128 % 128 = 0 := by omega
  have hp : p / 128 * 128 + p % 128 = p := by omega
  unfold State.physByte physLine shown
  cases h : (s.tower (towerOfPa (p / 128 * 128))).l2.find? (·.pa == p / 128 * 128) with
  | some l => simp only; rw [lineByte_over hk, lineByte_overlay s ha hk, hp]
  | none => simp only; rw [lineByte_overlay s ha hk, hp]

theorem Memory.get_foldl_set {α : Type} (f : α → Nat) (g : α → Byte) (xs : List α) (m : Memory) (w : m.wf = true) (p : Nat) :
    (xs.foldl (fun m x => m.set (f x) (g x)) m).wf = true
    ∧ (xs.foldl (fun m x => m.set (f x) (g x)) m).get p = xs.foldl (fun b x => if f x = p then g x else b) (m.get p) := by
  induction xs generalizing m with
  | nil => exact ⟨w, rfl⟩
  | cons x xs ih =>
    simp only [List.foldl_cons]
    have := ih (m.set (f x) (g x)) (Memory.wf_set w)
    rw [this.2, Memory.get_set w]
    refine ⟨this.1, ?_⟩
    congr 1; by_cases h : p = f x
    · simp [h]
    · rw [if_neg h, if_neg (fun e => h e.symm)]

theorem foldl_filter_skip (ws : List BankByte) (p : Nat) (q : BankByte → Bool) (b : Byte) (h : ∀ w ∈ ws, w.pa = p → q w = true) :
    (ws.filter q).foldl (fun b (w : BankByte) => if w.pa = p then w.byte else b) b = ws.foldl (fun b (w : BankByte) => if w.pa = p then w.byte else b) b := by
  induction ws generalizing b with
  | nil => rfl
  | cons w ws ih =>
    simp only [List.filter_cons, List.foldl_cons]
    have ih := fun b => ih b (fun x hx => h x (List.mem_cons_of_mem _ hx))
    by_cases hq : q w = true
    · simp [hq, ih]
    · have : w.pa ≠ p := fun e => hq (h w List.mem_cons_self e)
      simp [hq, ih, this]

theorem foldl_filter_none (ws : List BankByte) (p : Nat) (q : BankByte → Bool) (b : Byte) (h : ∀ w ∈ ws, w.pa = p → q w = false) :
    (ws.filter q).foldl (fun b (w : BankByte) => if w.pa = p then w.byte else b) b = b := by
  induction ws generalizing b with
  | nil => rfl
  | cons w ws ih =>
    simp only [List.filter_cons]
    have ih := fun b => ih b (fun x hx => h x (List.mem_cons_of_mem _ hx))
    by_cases hq : q w = true
    · have : w.pa ≠ p := fun e => by simp [h w List.mem_cons_self e] at hq
      simp [hq, ih, this]
    · simp [hq, ih]

theorem flush_tower (s : State) (pa : Nat) (u : Four) : (flushBankLine s pa).tower u =
    if u = towerOfPa pa then { s.tower u with bank := (s.tower u).bank.filter fun w => !(pa ≤ w.pa && w.pa < pa + 128) } else s.tower u :=
  updTower_tower ..

theorem flush_hbm (s : State) (pa : Nat) : (flushBankLine s pa).hbm =
    ((s.tower (towerOfPa pa)).bank.filter fun w => pa ≤ w.pa && w.pa < pa + 128).foldl (fun m (w : BankByte) => m.set w.pa w.byte) s.hbm := rfl

/-- Flushing the waiting bytes of a line changes nothing that is seen. -/
theorem flush_seen (s : State) {pa : Nat} (ha : pa % 128 = 0) (w : s.Inv) :
    (flushBankLine s pa).Inv ∧ ∀ p, (flushBankLine s pa).below p = s.below p := by
  have hs := Memory.get_foldl_set (fun w : BankByte => w.pa) (fun w => w.byte)
    ((s.tower (towerOfPa pa)).bank.filter fun w => decide (pa ≤ w.pa) && decide (w.pa < pa + 128)) s.hbm w
  refine ⟨(hs 0).1, fun p => ?_⟩
  unfold State.below
  rw [flush_hbm, flush_tower, (hs p).2]
  by_cases hp : p / 128 * 128 = pa
  · subst hp
    simp only [if_true]
    rw [foldl_filter_none _ _ _ _ (by intro w _ e; simp; omega), foldl_filter_skip _ _ _ _ (by intro w _ e; simp; omega)]
  · rw [foldl_filter_none (s.tower (towerOfPa pa)).bank p _ _ (by intro w _ e; simp; omega)]
    split
    · rw [foldl_filter_skip _ _ _ _ (by intro w _ e; simp; omega)]
    · rfl

/-- What module memory is seen through: the L2s, what waits for HBM, HBM. -/
def State.home (s : State) : (Four → List Line) × (Four → List BankByte) × Memory :=
  (fun u => (s.tower u).l2, fun u => (s.tower u).bank, s.hbm)

theorem home_l2 {s s' : State} (h : s'.home = s.home) (u : Four) : (s'.tower u).l2 = (s.tower u).l2 := congrFun (congrArg (·.1) h) u
theorem home_bank {s s' : State} (h : s'.home = s.home) (u : Four) : (s'.tower u).bank = (s.tower u).bank := congrFun (congrArg (·.2.1) h) u
theorem home_hbm {s s' : State} (h : s'.home = s.home) : s'.hbm = s.hbm := congrArg (·.2.2) h

theorem below_home {s s' : State} (h : s'.home = s.home) (p : Nat) : s'.below p = s.below p := by
  simp [State.below, home_bank h, home_hbm h]

theorem physByte_home {s s' : State} (h : s'.home = s.home) (p : Nat) : s'.physByte p = s.physByte p := by
  simp [physByte_eq, home_l2 h, below_home h]

/-- HomeOk, said through what lies below. -/
theorem homeOk_iff (s : State) : s.HomeOk ↔ s.Inv ∧ ∀ t, (s.tower t).l2.Pairwise (fun a b => a.pa ≠ b.pa) ∧ ∀ l ∈ (s.tower t).l2,
    l.pa % 128 = 0 ∧ towerOfPa l.pa = t ∧ (l.dirty = false → ∀ k, k < 128 → l.valid.getLsbD k = true → lineByte l.data k = s.below (l.pa + k)) := by
  unfold State.HomeOk
  refine and_congr Iff.rfl (forall_congr' fun t => and_congr Iff.rfl (forall_congr' fun l => forall_congr' fun _ => ?_))
  constructor
  · rintro ⟨h1, h2, h3⟩; exact ⟨h1, h2, fun d k hk hv => by rw [h3 d k hk hv, lineByte_overlay s h1 hk]⟩
  · rintro ⟨h1, h2, h3⟩; exact ⟨h1, h2, fun d k hk hv => by rw [h3 d k hk hv, lineByte_overlay s h1 hk]⟩

theorem homeOk_home {s s' : State} (h : s'.home = s.home) (w : s.HomeOk) : s'.HomeOk := by
  rw [homeOk_iff] at *
  simp only [State.Inv, home_l2 h, home_hbm h, below_home h] at *
  exact w

theorem charge_home (s : State) (who : Option Nat) (n : Nat) : (s.chargeWrite who n).home = s.home := by
  cases who <;> rfl

/-- A line written back: HBM shows its dirty bytes, and what lies below every other line is as before. -/
theorem writeBack_below (s : State) {l : Line} (ha : l.pa % 128 = 0) (w : s.Inv) :
    (writeBack s l).Inv ∧ (∀ u, ((writeBack s l).tower u).l2 = (s.tower u).l2)
    ∧ (∀ u, ((writeBack s l).tower u).bank = if u = towerOfPa l.pa then (s.tower u).bank.filter (fun w => !(decide (l.pa ≤ w.pa) && decide (w.pa < l.pa + 128))) else (s.tower u).bank)
    ∧ ∀ p, (writeBack s l).below p =
      if l.dirty = true ∧ p / 128 * 128 = l.pa ∧ l.valid.getLsbD (p % 128) = true then lineByte l.data (p % 128) else s.below p := by
  obtain ⟨w1, hb⟩ := flush_seen s ha w
  have hl : ∀ u, ((flushBankLine s l.pa).tower u).l2 = (s.tower u).l2 := by intro u; rw [flush_tower]; split <;> rfl
  have hk : ∀ u, ((flushBankLine s l.pa).tower u).bank = if u = towerOfPa l.pa then (s.tower u).bank.filter (fun w => !(decide (l.pa ≤ w.pa) && decide (w.pa < l.pa + 128))) else (s.tower u).bank := by
    intro u; rw [flush_tower]; split <;> rfl
  unfold writeBack
  cases hd : l.dirty with
  | false => simp only [Bool.false_eq_true, if_false, false_and]; exact ⟨w1, hl, hk, hb⟩
  | true =>
    simp only [if_true]
    generalize hs1 : flushBankLine s l.pa = s1 at *
    have hs := Memory.get_foldl_set (fun k => l.pa + k) (fun k => lineByte l.data k) l.places s1.hbm w1
    have hc := charge_home { s1 with hbm := l.places.foldl (fun m k => m.set (l.pa + k) (lineByte l.data k)) s1.hbm } l.writer l.places.length
    refine ⟨?_, fun u => by rw [home_l2 hc]; exact hl u, fun u => by rw [home_bank hc]; exact hk u, fun p => ?_⟩
    · unfold State.Inv; rw [home_hbm hc]; exact (hs 0).1
    · rw [below_home hc, ← hb p]
      unfold State.below
      change (s1.tower (towerOfPa (p / 128 * 128))).bank.foldl _ ((l.places.foldl (fun m k => m.set (l.pa + k) (lineByte l.data k)) s1.hbm).get p) = _
      rw [(hs p).2]
      have key : ∀ (ks : List Nat) b, (∀ k ∈ ks, k < 128) → ks.foldl (fun b k => if l.pa + k = p then lineByte l.data k else b) b =
          if p / 128 * 128 = l.pa ∧ p % 128 ∈ ks then lineByte l.data (p % 128) else b := by
        intro ks
        induction ks with
        | nil => intro b _; simp
        | cons j ks ih =>
          intro b h
          have hj := h j List.mem_cons_self
          simp only [List.foldl_cons]
          rw [ih _ (fun k hk => h k (List.mem_cons_of_mem _ hk))]
          by_cases h1 : p / 128 * 128 = l.pa ∧ p % 128 ∈ ks
          · rw [if_pos h1, if_pos ⟨h1.1, List.mem_cons_of_mem _ h1.2⟩]
          · rw [if_neg h1]
            by_cases h2 : l.pa + j = p
            · have : p % 128 = j := by omega
              rw [if_pos h2, if_pos ⟨by omega, by simp [this]⟩, this]
            · rw [if_neg h2, if_neg]
              rintro ⟨h3, h4⟩
              rcases List.mem_cons.1 h4 with h5 | h5
              · omega
              · exact h1 ⟨h3, h5⟩
      rw [key _ _ (by intro k hk; simp [Line.places] at hk; exact hk.1)]
      have hm : p % 128 ∈ l.places ↔ l.valid.getLsbD (p % 128) = true := by simp [Line.places]; intro; omega
      simp only [hm, true_and]
      by_cases h : p / 128 * 128 = l.pa ∧ l.valid.getLsbD (p % 128) = true
      · rw [if_pos h, if_pos h, h.1, hk, if_pos rfl]
        have : ∀ ws : List BankByte, (∀ w ∈ ws, w.pa ≠ p) → ∀ b : Byte, ws.foldl (fun b (w : BankByte) => if w.pa = p then w.byte else b) b = b := by
          intro ws; induction ws with
          | nil => intros; rfl
          | cons x xs ih => intro h b; simp only [List.foldl_cons, if_neg (h x List.mem_cons_self)]; exact ih (fun y hy => h y (List.mem_cons_of_mem _ hy)) b
        apply this
        intro w hw e
        simp only [List.mem_filter, Bool.not_eq_true', Bool.and_eq_false_iff, decide_eq_false_iff_not] at hw
        omega
      · rw [if_neg h, if_neg h]

/-- A line of an L2 written back and dropped leaves what is seen. -/
theorem drop_seen (s s' : State) {l : Line} {t : Four} (w : s.HomeOk) (hl : l ∈ (s.tower t).l2)
    (h : s'.home = (fun u => if u = t then (s.tower t).l2.filter (·.pa != l.pa) else (s.tower u).l2, (writeBack s l).home.2)) :
    s'.HomeOk ∧ ∀ p, s'.physByte p = s.physByte p := by
  rw [homeOk_iff] at w
  obtain ⟨wi, wt⟩ := w
  obtain ⟨la, lt, lc⟩ := (wt t).2 l hl
  obtain ⟨b1, b2, b3, b4⟩ := writeBack_below s la wi
  have hb : ∀ p, s'.below p = (writeBack s l).below p := by
    intro p
    have e1 : (s'.tower (towerOfPa (p / 128 * 128))).bank = ((writeBack s l).tower (towerOfPa (p / 128 * 128))).bank :=
      congrFun (congrArg (·.2.1) h) _
    have e2 : s'.hbm = (writeBack s l).hbm := congrArg (·.2.2) h
    simp [State.below, e1, e2]
  have hl2 : ∀ u, (s'.tower u).l2 = if u = t then (s.tower t).l2.filter (·.pa != l.pa) else (s.tower u).l2 := fun u => congrFun (congrArg (·.1) h) u
  have other : ∀ p, p / 128 * 128 ≠ l.pa → s'.below p = s.below p := by
    intro p hp; rw [hb, b4, if_neg (fun e => hp e.2.1)]
  constructor
  · rw [homeOk_iff]
    refine ⟨by unfold State.Inv; rw [show s'.hbm = (writeBack s l).hbm from congrArg (·.2.2) h]; exact b1, fun u => ?_⟩
    rw [hl2 u]
    split
    · subst_vars
      refine ⟨(wt _).1.filter _, fun m hm => ?_⟩
      simp only [List.mem_filter, bne_iff_ne] at hm
      obtain ⟨h1, h2, h3⟩ := (wt _).2 m hm.1
      refine ⟨h1, h2, fun d k hk hv => ?_⟩
      rw [h3 d k hk hv, other]; omega
    · rename_i hu
      refine ⟨(wt u).1, fun m hm => ?_⟩
      obtain ⟨h1, h2, h3⟩ := (wt u).2 m hm
      refine ⟨h1, h2, fun d k hk hv => ?_⟩
      rw [h3 d k hk hv, other]
      intro e
      have : m.pa = l.pa := by omega
      rw [this, lt] at h2; exact hu h2.symm
  · intro p
    rw [physByte_eq, physByte_eq, hl2]
    have huniq : ∀ m ∈ (s.tower t).l2, m.pa = l.pa → m = l := by
      intro m hm e
      have := (wt t).1
      refine Classical.byContradiction fun hne => ?_
      rcases List.pairwise_iff_getElem.1 this with this
      obtain ⟨i, hi, rfl⟩ := List.getElem_of_mem hm
      obtain ⟨j, hj, rfl⟩ := List.getElem_of_mem hl
      rcases Nat.lt_trichotomy i j with h | h | h
      · exact this i j hi hj h e
      · subst h; exact hne rfl
      · exact this j i hj hi h e.symm
    by_cases hp : p / 128 * 128 = l.pa
    · rw [hp, lt, if_pos rfl]
      have f1 : ((s.tower t).l2.filter (·.pa != l.pa)).find? (·.pa == l.pa) = none := by
        rw [List.find?_eq_none]; intro m hm; simp only [List.mem_filter, bne_iff_ne] at hm; simpa using hm.2
      have f2 : (s.tower t).l2.find? (·.pa == l.pa) = some l := by
        cases hf : (s.tower t).l2.find? (·.pa == l.pa) with
        | none => rw [List.find?_eq_none] at hf; exact absurd (by simp) (hf l hl)
        | some m => rw [huniq m (List.mem_of_find?_eq_some hf) (by simpa using List.find?_some hf)]
      unfold shown; rw [hp, f1, f2]
      simp only
      rw [hb, b4]
      have hpk : l.pa + p % 128 = p := by omega
      cases hv : l.valid.getLsbD (p % 128) with
      | false => simp
      | true =>
        cases hd : l.dirty with
        | true => simp [hp]
        | false => simp [lc hd (p % 128) (by omega) hv, hpk]
    · have hf : ∀ ls : List Line, (ls.filter (·.pa != l.pa)).find? (·.pa == p / 128 * 128) = ls.find? (·.pa == p / 128 * 128) := by
        intro ls
        rw [List.find?_filter]
        congr 1; funext m
        by_cases e : m.pa = p / 128 * 128
        · simp [e, hp]
        · simp [e]
      have e : (if towerOfPa (p / 128 * 128) = t then (s.tower t).l2.filter (·.pa != l.pa) else (s.tower (towerOfPa (p / 128 * 128))).l2).find?
          (·.pa == p / 128 * 128) = (s.tower (towerOfPa (p / 128 * 128))).l2.find? (·.pa == p / 128 * 128) := by
        split
        · rename_i ht; rw [hf, ht]
        · rfl
      unfold shown
      rw [e, other p hp]

theorem remember_home (s : State) (asid : Half) (va : DWord) : (remember s asid va).home = s.home := by
  unfold remember
  split
  · dsimp only; split
    · rfl
    · have : ∀ f : Tower → Tower, (∀ x, (f x).l2 = x.l2 ∧ (f x).bank = x.bank) → (s.updTower (homeOf va) f).home = s.home := by
        intro f hf
        unfold State.home
        simp only [updTower_tower]
        congr 1
        · funext u; split
          · exact (hf _).1
          · rfl
        · congr 1; funext u; split
          · exact (hf _).2
          · rfl
      exact this _ (fun _ => ⟨rfl, rfl⟩)
  · rfl

theorem updTower_home (s : State) (t : Four) (f : Tower → Tower) (hf : ∀ x, (f x).l2 = x.l2 ∧ (f x).bank = x.bank) :
    (s.updTower t f).home = s.home := by
  unfold State.home
  simp only [updTower_tower]
  congr 1
  · funext u; split
    · exact (hf _).1
    · rfl
  · congr 1; funext u; split
    · exact (hf _).2
    · rfl

theorem snoop_home (s : State) (pa : Nat) : (snoop s pa).home = s.home := by
  unfold snoop
  generalize homeAgent s pa = ts
  induction ts generalizing s with
  | nil => rfl
  | cons t ts ih => simp only [List.foldl_cons]; rw [ih]; exact updTower_home _ _ _ fun _ => ⟨rfl, rfl⟩

theorem pairwise_filter_one {ls : List Line} (h : ls.Pairwise fun a b => a.pa ≠ b.pa) (q : Line → Bool) (pa : Nat) (hq : ∀ l ∈ ls, q l = true → l.pa = pa) :
    ls.filter q = [] ∨ ∃ l ∈ ls, q l = true ∧ ls.filter q = [l] ∧ ls.filter (!q ·) = ls.filter (·.pa != l.pa) := by
  induction ls with
  | nil => left; rfl
  | cons m ls ih =>
    rw [List.pairwise_cons] at h
    have ih := ih h.2 (fun l hl => hq l (List.mem_cons_of_mem _ hl))
    by_cases hm : q m = true
    · right
      have hpa := hq m List.mem_cons_self hm
      have hno : ∀ l ∈ ls, q l = false := by
        intro l hl
        cases e : q l with
        | false => rfl
        | true => exact absurd (hpa.trans (hq l (List.mem_cons_of_mem _ hl) e).symm) (h.1 l hl)
      refine ⟨m, List.mem_cons_self, hm, ?_, ?_⟩
      · simp only [List.filter_cons, hm, if_true]
        rw [List.filter_eq_nil_iff.2 (by intro l hl; simp [hno l hl])]
      · simp only [List.filter_cons, hm, Bool.not_true, Bool.false_eq_true, if_false, bne_self_eq_false]
        apply List.filter_congr
        intro l hl
        have := h.1 l hl
        simp [hno l hl, Ne.symm this]
    · rcases ih with e | ⟨l, hl, e1, e2, e3⟩
      · left; simp [hm, e]
      · right
        refine ⟨l, List.mem_cons_of_mem _ hl, e1, by simp [hm, e2], ?_⟩
        have := h.1 l hl
        simp [hm, e3, this]

/-- The remap filter leaves what is seen; after it no other copy of the frame is in the L2. -/
theorem remapFilter_seen (s : State) {t : Four} {asid : Half} {va : DWord} {pa : Nat} (w : s.HomeOk) :
    (remapFilter s t asid va pa).HomeOk ∧ (∀ p, (remapFilter s t asid va pa).physByte p = s.physByte p)
    ∧ (∀ u, ((remapFilter s t asid va pa).tower u).l2 = if u = t then (s.tower t).l2.filter (fun l => !(l.pa == pa && !isLine asid va l)) else (s.tower u).l2)
    ∧ ∀ u, ∀ b ∈ ((remapFilter s t asid va pa).tower u).bank, b ∈ (s.tower u).bank := by
  have w0 := w
  rw [homeOk_iff] at w0
  have l2eq : ∀ u, ((remapFilter s t asid va pa).tower u).l2 = if u = t then (s.tower t).l2.filter (fun l => !(l.pa == pa && !isLine asid va l)) else (s.tower u).l2 := by
    have hwb : ∀ (ls : List Line) (s : State) u, ((ls.foldl writeBack s).tower u).l2 = (s.tower u).l2 := by
      intro ls
      induction ls with
      | nil => intros; rfl
      | cons l ls ih =>
        intro s u; simp only [List.foldl_cons]; rw [ih]
        unfold writeBack; dsimp only
        split
        · rw [home_l2 (charge_home _ _ _)]
          change ((flushBankLine s l.pa).tower u).l2 = _
          rw [flush_tower]; split <;> rfl
        · rw [flush_tower]; split <;> rfl
    intro u
    unfold remapFilter; dsimp only
    rw [updTower_tower]
    split
    · subst_vars; simp only; rw [hwb]
    · rw [hwb]
  rcases pairwise_filter_one (w0.2 t).1 (fun l => l.pa == pa && !isLine asid va l) pa (by intro l _ h; simp at h; exact h.1) with e | ⟨l, hl, _, e1, e2⟩
  · have hh : (remapFilter s t asid va pa).home = s.home := by
      have : ∀ u, ((remapFilter s t asid va pa).tower u).l2 = (s.tower u).l2 := by
        intro u; rw [l2eq]; split
        · subst_vars
          rw [List.filter_eq_self]; intro m hm
          have := List.filter_eq_nil_iff.1 e m hm
          by_cases h : m.pa = pa <;> simp_all
        · rfl
      have hb : ∀ u, ((remapFilter s t asid va pa).tower u).bank = (s.tower u).bank := by
        intro u; unfold remapFilter; dsimp only; rw [e, updTower_tower]; split <;> rfl
      have hm : (remapFilter s t asid va pa).hbm = s.hbm := by unfold remapFilter; dsimp only; rw [e]; rfl
      unfold State.home; simp [this, hb, hm]
    exact ⟨homeOk_home hh w, physByte_home hh, l2eq, fun u b hb => by rw [home_bank hh] at hb; exact hb⟩
  · obtain ⟨la, lt, _⟩ := (w0.2 t).2 l hl
    have hb : ∀ u, ((remapFilter s t asid va pa).tower u).bank = ((writeBack s l).tower u).bank := by
      intro u; unfold remapFilter; dsimp only; rw [e1, updTower_tower]; split <;> rfl
    have hm : (remapFilter s t asid va pa).hbm = (writeBack s l).hbm := by unfold remapFilter; dsimp only; rw [e1]; rfl
    have hd := drop_seen s (remapFilter s t asid va pa) w hl (by
      unfold State.home
      simp only [l2eq, hb, hm, e2])
    refine ⟨hd.1, hd.2, l2eq, fun u b hbm => ?_⟩
    rw [hb, (writeBack_below s la w0.1).2.2.1] at hbm
    split at hbm
    · exact (List.mem_filter.1 hbm).1
    · exact hbm

theorem eraseIdx_eq_filter {ls : List Line} (h : ls.Pairwise fun a b => a.pa ≠ b.pa) {k : Nat} {l : Line} (hk : ls[k]? = some l) :
    ls.eraseIdx k = ls.filter (·.pa != l.pa) := by
  induction ls generalizing k with
  | nil => simp at hk
  | cons m ls ih =>
    rw [List.pairwise_cons] at h
    cases k with
    | zero =>
      simp at hk; subst hk
      simp only [List.eraseIdx_cons_zero, List.filter_cons, bne_self_eq_false, Bool.false_eq_true, if_false]
      rw [List.filter_eq_self.2]; intro x hx; simp; exact (h.1 x hx).symm
    | succ k =>
      simp at hk
      have := h.1 l (List.mem_of_getElem? hk)
      simp [List.eraseIdx_cons_succ, this, ih h.2 hk]

/-- Room in an L2 leaves what is seen. -/
theorem roomL2_seen (s : State) {t : Four} (w : s.HomeOk) :
    (roomL2 s t).HomeOk ∧ (∀ p, (roomL2 s t).physByte p = s.physByte p)
    ∧ (∀ u, ∀ l ∈ ((roomL2 s t).tower u).l2, l ∈ (s.tower u).l2) ∧ (∀ u, ∀ b ∈ ((roomL2 s t).tower u).bank, b ∈ (s.tower u).bank)
    ∧ ∀ p, (∀ l ∈ (s.tower t).l2, l.pa ≠ p / 128 * 128) → (roomL2 s t).below p = s.below p := by
  have w0 := w
  rw [homeOk_iff] at w0
  unfold roomL2; dsimp only
  split
  · exact ⟨w, fun _ => rfl, fun _ _ h => h, fun _ _ h => h, fun _ _ => rfl⟩
  · split
    · exact ⟨w, fun _ => rfl, fun _ _ h => h, fun _ _ h => h, fun _ _ => rfl⟩
    · rename_i l hl
      have hmem : l ∈ (s.tower t).l2 := List.mem_of_getElem? hl
      obtain ⟨la, lt, _⟩ := (w0.2 t).2 l hmem
      obtain ⟨b1, b2, b3, b4⟩ := writeBack_below s la w0.1
      generalize victimAt _ _ = k at *
      generalize hs1 : State.fresh ((writeBack s l).updTower t fun tw => { tw with l2 := tw.l2.eraseIdx k }) = s1
      have hl2 : ∀ u, (s1.tower u).l2 = if u = t then (s.tower t).l2.filter (·.pa != l.pa) else (s.tower u).l2 := by
        intro u; subst hs1
        change (((writeBack s l).updTower t _).tower u).l2 = _
        rw [updTower_tower]; split
        · subst_vars; simp only; rw [b2, eraseIdx_eq_filter (w0.2 _).1 hl]
        · exact b2 u
      have hb : ∀ u, (s1.tower u).bank = ((writeBack s l).tower u).bank := by
        intro u; subst hs1
        change (((writeBack s l).updTower t _).tower u).bank = _
        rw [updTower_tower]; split <;> rfl
      have hm : s1.hbm = (writeBack s l).hbm := by subst hs1; rfl
      have hd := drop_seen s s1 w hmem (by unfold State.home; simp only [hl2, hb, hm])
      refine ⟨hd.1, hd.2, fun u m hmm => ?_, fun u b hbm => ?_, fun p hp => ?_⟩
      · rw [hl2] at hmm; split at hmm
        · rename_i hu; rw [hu]; exact (List.mem_filter.1 hmm).1
        · exact hmm
      · rw [hb, b3] at hbm
        split at hbm
        · exact (List.mem_filter.1 hbm).1
        · exact hbm
      · have : s1.below p = (writeBack s l).below p := by simp [State.below, hb, hm]
        rw [this, b4, if_neg]
        rintro ⟨_, h, _⟩; exact hp l hmem h.symm

theorem spanMask_get {k n j : Nat} (hj : j < 128) : (spanMask k n).getLsbD j = decide (k ≤ j ∧ j < k + n) := by
  simp only [spanMask, BitVec.getLsbD_shiftLeft, BitVec.getLsbD_ofNat, Nat.testBit_two_pow_sub_one, hj, decide_true, Bool.true_and]
  by_cases h : j < k
  · simp only [h, decide_true, Bool.not_true, Bool.false_and]; exact (decide_eq_false (by omega)).symm
  · have h1 : j - k < 128 := by omega
    simp only [h, h1, decide_false, decide_true, Bool.not_false, Bool.true_and]
    exact decide_eq_decide.2 (by omega)

theorem foldl_queued (bs : List Byte) (a p : Nat) (g : Nat → Byte → BankByte) (hg : ∀ k b, (g k b).pa = a + k ∧ (g k b).byte = b) (b0 : Byte) :
    (bs.mapIdx g).foldl (fun b (w : BankByte) => if w.pa = p then w.byte else b) b0 =
      if a ≤ p ∧ p < a + bs.length then bs.getD (p - a) 0 else b0 := by
  induction bs generalizing a g b0 with
  | nil => rw [if_neg (by simp only [List.length_nil]; omega)]; rfl
  | cons x xs ih =>
    rw [List.mapIdx_cons, List.foldl_cons, ih (a + 1) (fun k b => g (k + 1) b) (by intro k b; have := hg (k + 1) b; exact ⟨by have := this.1; show (g (k + 1) b).pa = _; omega, this.2⟩)]
    have h0 := hg 0 x
    simp only [List.length_cons]
    by_cases h : a + 1 ≤ p ∧ p < a + 1 + xs.length
    · rw [if_pos h, if_pos (by omega), show p - a = (p - (a + 1)) + 1 by omega]; rfl
    · rw [if_neg h, h0.1, h0.2]
      by_cases h2 : p = a
      · subst h2; simp
      · rw [if_neg (by omega), if_neg (by omega)]

theorem map_find {ls : List Line} (f : Line → Line) (pa : Nat) (hf : ∀ l, (f l).pa = l.pa) :
    (ls.map f).find? (·.pa == pa) = (ls.find? (·.pa == pa)).map f := by
  induction ls with
  | nil => rfl
  | cons l ls ih => simp only [List.map_cons, List.find?_cons, hf]; split <;> simp_all

theorem lineOff_lt (va : DWord) : lineOff va < 128 := by unfold lineOff; omega

/-- What the bytes put into the lines of an L2 leave seen. -/
theorem put_seen (s2 s3 : State) {t : Four} {asid : Half} {va : DWord} {bs : List Byte} {pa : Nat} (f : Line → Line)
    (hf : ∀ l, (f l).pa = l.pa ∧ (isLine asid va l = false → f l = l) ∧ (isLine asid va l = true →
      (f l).data = lineWrite l.data (lineOff va) bs ∧ (f l).valid = l.valid ||| spanMask (lineOff va) bs.length))
    (h3 : s3.home = (fun u => if u = t then (s2.tower t).l2.map f else (s2.tower u).l2, s2.home.2))
    (al : pa % 128 = 0) (one : lineOff va + bs.length ≤ 128) (tow : towerOfPa pa = t)
    (only : ∀ m ∈ (s2.tower t).l2, m.pa = pa ↔ isLine asid va m = true) (p : Nat) :
    s3.physByte p = if p / 128 * 128 = pa then
      (match (s2.tower t).l2.find? (·.pa == pa) with
        | some _ => if pa + lineOff va ≤ p ∧ p < pa + lineOff va + bs.length then bs.getD (p - (pa + lineOff va)) 0 else s2.physByte p
        | none => s2.below p)
      else s2.physByte p := by
  have hl2 : ∀ u, (s3.tower u).l2 = if u = t then (s2.tower t).l2.map f else (s2.tower u).l2 := fun u => congrFun (congrArg (·.1) h3) u
  have hb : s3.below p = s2.below p := by
    have e1 : (s3.tower (towerOfPa (p / 128 * 128))).bank = (s2.tower (towerOfPa (p / 128 * 128))).bank := congrFun (congrArg (·.2.1) h3) _
    have e2 : s3.hbm = s2.hbm := congrArg (·.2.2) h3
    simp [State.below, e1, e2]
  rw [physByte_eq, physByte_eq, hb, hl2]
  by_cases hp : p / 128 * 128 = pa
  · rw [if_pos hp, hp, tow, if_pos rfl]
    unfold shown
    rw [hp, map_find f pa fun l => (hf l).1]
    cases hm : (s2.tower t).l2.find? (·.pa == pa) with
    | none => rfl
    | some m =>
      have hmem := List.mem_of_find?_eq_some hm
      have hpa : m.pa = pa := by simpa using List.find?_some hm
      obtain ⟨hd, hv⟩ := (hf m).2.2 ((only m hmem).1 hpa)
      have hk : p % 128 < 128 := by omega
      simp only [Option.map_some, hd, hv, BitVec.getLsbD_or, spanMask_get hk, lineByte_write one hk, Bool.or_eq_true, decide_eq_true_eq]
      by_cases hr : pa + lineOff va ≤ p ∧ p < pa + lineOff va + bs.length
      · rw [if_pos (Or.inr (by omega)), if_pos (by omega), if_pos hr, show p % 128 - lineOff va = p - (pa + lineOff va) by omega]
      · have : ¬(lineOff va ≤ p % 128 ∧ p % 128 < lineOff va + bs.length) := by omega
        simp only [this, or_false, if_false, hr]
  · rw [if_neg hp]
    split
    · rename_i ht
      unfold shown
      rw [map_find f _ fun l => (hf l).1, ht]
      cases hm : (s2.tower t).l2.find? (·.pa == p / 128 * 128) with
      | none => rfl
      | some m =>
        have hmem := List.mem_of_find?_eq_some hm
        have hpa : m.pa = p / 128 * 128 := by simpa using List.find?_some hm
        have : isLine asid va m = false := by
          cases e : isLine asid va m with
          | false => rfl
          | true => exact absurd ((only m hmem).2 e ▸ hpa.symm) hp
        simp only [Option.map_some, (hf m).2.1 this]
    · rfl

/-- A write at the home changes the bytes written, and what is seen of every other byte is as before. -/
theorem homeWrite_seen (s : State) (asid : Half) (va : DWord) (bs : List Byte) (h : Hit) (w : s.HomeOk)
    (la : s.Lands asid va bs.length h.pa h.attr) (p : Nat) :
    (homeWrite s asid va bs h).physByte p =
      if h.pa + lineOff va ≤ p ∧ p < h.pa + lineOff va + bs.length then bs.getD (p - (h.pa + lineOff va)) 0 else s.physByte p := by
  obtain ⟨al, one, tow, same, bankOk⟩ := la
  have w0 := w
  rw [homeOk_iff] at w0
  -- the state before the bytes are put: no other copy of the frame
  obtain ⟨s1, hs1, w1, v1, f1, f2, k1, th⟩ : ∃ s1 : State,
      s1 = (if (findLine (s.tower (homeOf va)).l2 asid va).isSome then s else remapFilter (remember s asid va) (homeOf va) asid va h.pa)
      ∧ s1.HomeOk ∧ (∀ p, s1.physByte p = s.physByte p)
      ∧ (∀ m ∈ (s1.tower (homeOf va)).l2, m.pa = h.pa → isLine asid va m = true) ∧ (∀ m ∈ (s1.tower (homeOf va)).l2, isLine asid va m = true → m.pa = h.pa)
      ∧ (∀ b ∈ (s1.tower (homeOf va)).bank, b ∈ (s.tower (homeOf va)).bank)
      ∧ ((findLine (s.tower (homeOf va)).l2 asid va).isSome = false → ∀ m ∈ (s1.tower (homeOf va)).l2, isLine asid va m = false) := by
    cases hth : findLine (s.tower (homeOf va)).l2 asid va with
    | some l =>
      refine ⟨s, rfl, w, fun _ => rfl, ?_, same, fun _ h => h, by simp⟩
      intro m hm e
      have hl := List.mem_of_find?_eq_some hth
      have hi : isLine asid va l = true := List.find?_some hth
      have hlpa := same l hl hi
      rcases Classical.em (m = l) with rfl | hne
      · exact hi
      · exfalso
        obtain ⟨i, hi', rfl⟩ := List.getElem_of_mem hm
        obtain ⟨j, hj, rfl⟩ := List.getElem_of_mem hl
        have pw := List.pairwise_iff_getElem.1 (w0.2 (homeOf va)).1
        rcases Nat.lt_trichotomy i j with h | h | h
        · exact pw i j hi' hj h (e.trans hlpa.symm)
        · subst h; exact hne rfl
        · exact pw j i hj hi' h (hlpa.trans e.symm)
    | none =>
      have hr := remember_home s asid va
      obtain ⟨q1, q2, q3, q4⟩ := remapFilter_seen (remember s asid va) (t := homeOf va) (asid := asid) (va := va) (pa := h.pa) (homeOk_home hr w)
      have no : ∀ m ∈ (s.tower (homeOf va)).l2, isLine asid va m = false := by
        intro m hm
        have := List.find?_eq_none.1 hth m hm
        simpa [isLine] using this
      have sub : ∀ m, m ∈ ((remapFilter (remember s asid va) (homeOf va) asid va h.pa).tower (homeOf va)).l2 →
          m ∈ (s.tower (homeOf va)).l2 ∧ (m.pa = h.pa → isLine asid va m = true) := by
        intro m hm
        rw [q3, if_pos rfl, home_l2 hr, List.mem_filter] at hm
        exact ⟨hm.1, fun e => by have := hm.2; simp [e] at this; exact this⟩
      refine ⟨remapFilter (remember s asid va) (homeOf va) asid va h.pa, by simp, q1, fun p => by rw [q2, physByte_home hr], fun m hm => (sub m hm).2, fun m hm e => same m (sub m hm).1 e, ?_, ?_⟩
      · intro b hb; have := q4 _ b hb; rwa [home_bank hr] at this
      · intro _ m hm; exact no m (sub m hm).1
  have hput : ∀ (s2 : State), (∀ m ∈ (s2.tower (homeOf va)).l2, m.pa = h.pa ↔ isLine asid va m = true) →
      ((snoop s2 h.pa).updTower (homeOf va) fun tw =>
        { tw with l2 := tw.l2.map fun l =>
            if isLine asid va l then
              { l with data := lineWrite l.data (lineOff va) bs, dirty := l.dirty || (h.attr.c && !h.attr.bank), writer := h.who
                       valid := l.valid ||| spanMask (lineOff va) bs.length }
            else l }).physByte p = if p / 128 * 128 = h.pa then
      (match (s2.tower (homeOf va)).l2.find? (·.pa == h.pa) with
        | some _ => if h.pa + lineOff va ≤ p ∧ p < h.pa + lineOff va + bs.length then bs.getD (p - (h.pa + lineOff va)) 0 else s2.physByte p
        | none => s2.below p)
      else s2.physByte p := by
    intro s2 only
    refine put_seen s2 _ (fun l => if isLine asid va l then
              { l with data := lineWrite l.data (lineOff va) bs, dirty := l.dirty || (h.attr.c && !h.attr.bank), writer := h.who
                       valid := l.valid ||| spanMask (lineOff va) bs.length }
            else l) ?_ ?_ al one tow only p
    · intro l; cases isLine asid va l <;> simp
    · have hs := snoop_home s2 h.pa
      unfold State.home
      simp only [updTower_tower]
      congr 1
      · funext u
        by_cases hu : u = homeOf va
        · subst hu; simp only [if_true, home_l2 hs]
        · simp only [if_neg hu, home_l2 hs]
      · refine Prod.ext ?_ (show (snoop s2 h.pa).hbm = s2.hbm from home_hbm hs)
        funext u
        by_cases hu : u = homeOf va
        · subst hu; simp only [if_true]; exact home_bank hs _
        · simp only [if_neg hu]; exact home_bank hs _
  have range_line : h.pa + lineOff va ≤ p ∧ p < h.pa + lineOff va + bs.length → p / 128 * 128 = h.pa := by omega
  have only1 : ∀ m ∈ (s1.tower (homeOf va)).l2, m.pa = h.pa ↔ isLine asid va m = true := fun m hm => ⟨f1 m hm, f2 m hm⟩
  have noline : (findLine (s.tower (homeOf va)).l2 asid va).isSome = false → (s1.tower (homeOf va)).l2.find? (·.pa == h.pa) = none := by
    intro e; rw [List.find?_eq_none]; intro m hm e2
    have := (only1 m hm).1 (by simpa using e2); rw [th e m hm] at this; exact absurd this (by simp)
  have noneSeen : (s1.tower (homeOf va)).l2.find? (·.pa == h.pa) = none → p / 128 * 128 = h.pa → s1.physByte p = s1.below p := by
    intro e hp; rw [physByte_eq, hp, tow]; unfold shown; rw [hp, e]
  -- the lines as they are, what lies below with the bytes or not
  have finish : ∀ s2 : State, (∀ u, (s2.tower u).l2 = (s1.tower u).l2) →
      (¬(h.pa + lineOff va ≤ p ∧ p < h.pa + lineOff va + bs.length) → s2.below p = s1.below p) →
      ((h.pa + lineOff va ≤ p ∧ p < h.pa + lineOff va + bs.length) → (s1.tower (homeOf va)).l2.find? (·.pa == h.pa) = none →
        s2.below p = bs.getD (p - (h.pa + lineOff va)) 0) →
      (if p / 128 * 128 = h.pa then
        (match (s2.tower (homeOf va)).l2.find? (·.pa == h.pa) with
          | some _ => if h.pa + lineOff va ≤ p ∧ p < h.pa + lineOff va + bs.length then bs.getD (p - (h.pa + lineOff va)) 0 else s2.physByte p
          | none => s2.below p)
        else s2.physByte p) =
      if h.pa + lineOff va ≤ p ∧ p < h.pa + lineOff va + bs.length then bs.getD (p - (h.pa + lineOff va)) 0 else s.physByte p := by
    intro s2 e1 e2 e3
    by_cases hr : h.pa + lineOff va ≤ p ∧ p < h.pa + lineOff va + bs.length
    · simp only [if_pos (range_line hr), if_pos hr, e1]
      cases hm : (s1.tower (homeOf va)).l2.find? (·.pa == h.pa) with
      | some m => rfl
      | none => exact e3 hr hm
    · have hs2 : s2.physByte p = s.physByte p := by rw [← v1, physByte_eq, physByte_eq, e1, e2 hr]
      simp only [if_neg hr]
      by_cases hp : p / 128 * 128 = h.pa
      · rw [if_pos hp, e1]
        cases hm : (s1.tower (homeOf va)).l2.find? (·.pa == h.pa) with
        | some m => exact hs2
        | none => show s2.below p = _; rw [e2 hr, ← noneSeen hm hp, v1]
      · rw [if_neg hp, hs2]
  unfold homeWrite
  dsimp only
  rw [← hs1]
  by_cases hb : h.attr.bank = true
  · rw [if_pos hb]
    generalize hs2 : State.chargeWrite _ _ _ = s2
    have l2s : ∀ u, (s2.tower u).l2 = (s1.tower u).l2 := by
      intro u; subst hs2; rw [home_l2 (charge_home _ _ _), updTower_tower]; split <;> rfl
    have hbel : s2.below p = if h.pa + lineOff va ≤ p ∧ p < h.pa + lineOff va + bs.length then bs.getD (p - (h.pa + lineOff va)) 0 else s1.below p := by
      subst hs2
      rw [below_home (charge_home _ _ _)]
      unfold State.below
      rw [updTower_tower]
      by_cases ht : towerOfPa (p / 128 * 128) = homeOf va
      · rw [if_pos ht]
        simp only [List.foldl_append]
        rw [foldl_queued bs (h.pa + lineOff va) p _ (by intro k b; exact ⟨rfl, rfl⟩)]
        rfl
      · rw [if_neg ht, if_neg]
        · rfl
        · intro hr; rw [range_line hr, tow] at ht; exact ht rfl
    rw [hput s2 (by intro m hm; rw [l2s] at hm; exact only1 m hm)]
    exact finish s2 l2s (fun e => by rw [hbel, if_neg e]) (fun e _ => by rw [hbel, if_pos e])
  · rw [if_neg hb]
    simp only [Bool.not_eq_true] at hb
    by_cases hc : h.attr.c = false
    · rw [if_pos (by simp [hc])]
      generalize hs2 : State.chargeWrite _ _ _ = s2
      have l2s : ∀ u, (s2.tower u).l2 = (s1.tower u).l2 := by intro u; subst hs2; rw [home_l2 (charge_home _ _ _)]; rfl
      have wi : s1.hbm.wf = true := w1.1
      have hbel : s2.below p = if h.pa + lineOff va ≤ p ∧ p < h.pa + lineOff va + bs.length then bs.getD (p - (h.pa + lineOff va)) 0 else s1.below p := by
        subst hs2
        rw [below_home (charge_home _ _ _)]
        unfold State.below
        change (s1.tower _).bank.foldl _ ((s1.hbm.write (h.pa + lineOff va) bs).get p) = _
        by_cases hr : h.pa + lineOff va ≤ p ∧ p < h.pa + lineOff va + bs.length
        · rw [if_pos hr, range_line hr, tow]
          have hg := Memory.get_write_in (bs := bs) (a := h.pa + lineOff va) (j := p - (h.pa + lineOff va)) wi (by omega)
          rw [show h.pa + lineOff va + (p - (h.pa + lineOff va)) = p by omega] at hg
          have : ∀ ws : List BankByte, (∀ w ∈ ws, w.pa ≠ p) → ∀ b : Byte, ws.foldl (fun b (w : BankByte) => if w.pa = p then w.byte else b) b = b := by
            intro ws; induction ws with
            | nil => intros; rfl
            | cons x xs ih => intro h b; simp only [List.foldl_cons, if_neg (h x List.mem_cons_self)]; exact ih (fun y hy => h y (List.mem_cons_of_mem _ hy)) b
          rw [this _ (by intro b hb2 e; exact bankOk hb b (k1 b hb2) (by omega)), hg]
          simp [List.getD, show p - (h.pa + lineOff va) < bs.length by omega]
        · rw [if_neg hr, Memory.get_write_other wi (by omega)]
      rw [hput s2 (by intro m hm; rw [l2s] at hm; exact only1 m hm)]
      exact finish s2 l2s (fun e => by rw [hbel, if_neg e]) (fun e _ => by rw [hbel, if_pos e])
    · simp only [Bool.not_eq_false] at hc
      rw [if_neg (by simp [hc])]
      by_cases hth : (findLine (s.tower (homeOf va)).l2 asid va).isSome = true
      · rw [if_pos hth, hput s1 only1]
        refine finish s1 (fun _ => rfl) (fun _ => rfl) fun _ hn => ?_
        exfalso
        have : s1 = s := by rw [hs1, if_pos hth]
        subst this
        obtain ⟨l, hl⟩ := Option.isSome_iff_exists.1 hth
        have := same l (List.mem_of_find?_eq_some hl) (List.find?_some hl)
        rw [List.find?_eq_none] at hn
        exact hn l (List.mem_of_find?_eq_some hl) (by simp [this])
      · have hth' : (findLine (s.tower (homeOf va)).l2 asid va).isSome = false := by simpa using hth
        rw [if_neg hth]
        obtain ⟨r1, r2, r3, r4, r5⟩ := roomL2_seen s1 (t := homeOf va) w1
        generalize hl : Line.mk asid (lineOf va) 0 true h.pa h.attr h.who 0 h.hint = l
        have hlpa : l.pa = h.pa := by subst hl; rfl
        have hlv : l.valid = 0 := by subst hl; rfl
        have hli : isLine asid va l = true := by subst hl; simp [isLine]
        generalize hs2 : (roomL2 s1 (homeOf va)).updTower (homeOf va) (fun tw => { tw with l2 := l :: tw.l2 }) = s2
        have l2t : (s2.tower (homeOf va)).l2 = l :: ((roomL2 s1 (homeOf va)).tower (homeOf va)).l2 := by subst hs2; simp
        have hb2 : s2.below p = (roomL2 s1 (homeOf va)).below p := by
          subst hs2; unfold State.below; rw [updTower_tower]; split <;> rfl
        rw [hput s2 (by
          intro m hm; rw [l2t] at hm
          rcases List.mem_cons.1 hm with e | e
          · rw [e]; simp [hlpa, hli]
          · exact only1 m (r3 _ m e))]
        rw [l2t]
        simp only [List.find?_cons, hlpa, beq_self_eq_true]
        have nl := noline hth'
        have below1 : p / 128 * 128 = h.pa → (roomL2 s1 (homeOf va)).below p = s.physByte p := by
          intro hp
          rw [r5 p (by intro m hm e; exact List.find?_eq_none.1 nl m hm (by simp [e, hp])), ← noneSeen nl hp, v1]
        by_cases hr : h.pa + lineOff va ≤ p ∧ p < h.pa + lineOff va + bs.length
        · rw [if_pos (range_line hr), if_pos hr]; simp only [if_pos hr]
        · rw [if_neg hr]
          by_cases hp : p / 128 * 128 = h.pa
          · rw [if_pos hp]; simp only [if_neg hr]
            rw [physByte_eq, hp, tow, l2t]
            unfold shown
            simp only [hp, List.find?_cons, hlpa, beq_self_eq_true, hlv, hb2, below1 hp]
            simp
          · rw [if_neg hp, ← v1, ← r2]
            rw [physByte_eq, physByte_eq, hb2]
            unfold shown
            have hl2 : ∀ u, (s2.tower u).l2 = if u = homeOf va then l :: ((roomL2 s1 (homeOf va)).tower u).l2 else ((roomL2 s1 (homeOf va)).tower u).l2 := by
              intro u; subst hs2; rw [updTower_tower]; split <;> rfl
            have hf : (l.pa == p / 128 * 128) = false := by rw [hlpa]; simp; exact fun e => hp e.symm
            have e : (s2.tower (towerOfPa (p / 128 * 128))).l2.find? (·.pa == p / 128 * 128) =
                ((roomL2 s1 (homeOf va)).tower (towerOfPa (p / 128 * 128))).l2.find? (·.pa == p / 128 * 128) := by
              rw [hl2]; split
              · simp only [List.find?_cons, hf]
              · rfl
            rw [e, if_neg hr]

theorem find_pa {ls : List Line} (h : ls.Pairwise fun a b => a.pa ≠ b.pa) {l : Line} (hl : l ∈ ls) : ls.find? (·.pa == l.pa) = some l := by
  induction ls with
  | nil => cases hl
  | cons m ls ih =>
    rw [List.pairwise_cons] at h
    rcases List.mem_cons.1 hl with rfl | hm
    · simp
    · rw [List.find?_cons, beq_eq_false_iff_ne.2 (h.1 l hm)]; exact ih h.2 hm

/-- The byte that a line of an L2 shows. -/
theorem physByte_line (s : State) {t : Four} {l : Line} {k : Nat} (w : s.HomeOk) (hl : l ∈ (s.tower t).l2) (hk : k < 128) :
    s.physByte (l.pa + k) = if l.valid.getLsbD k then lineByte l.data k else s.below (l.pa + k) := by
  rw [homeOk_iff] at w
  obtain ⟨h1, h2, _⟩ := (w.2 t).2 l hl
  have e : (l.pa + k) / 128 * 128 = l.pa := by omega
  have e2 : (l.pa + k) % 128 = k := by omega
  rw [physByte_eq]
  unfold shown
  rw [e, e2, h2, find_pa (w.2 t).1 hl]

theorem chargeRead_home (s : State) (who : Option Nat) (n m : Nat) : (s.chargeRead who n m).home = s.home := by
  cases who <;> rfl

theorem dropPassed_home (s : State) (t : Four) (c : Nat) (asid : Half) (va : DWord) (pa : Nat) : (dropPassed s t c asid va pa).home = s.home := by
  unfold dropPassed dropRdc dropColLine State.updCol
  split
  · exact updTower_home _ _ _ fun _ => ⟨rfl, rfl⟩
  · refine (updTower_home _ _ _ ?_).trans (updTower_home _ _ _ ?_) <;> exact fun _ => ⟨rfl, rfl⟩

theorem Lands.of_sub {s s' : State} {asid : Half} {va : DWord} {n pa : Nat} {attr : Attr} (la : s.Lands asid va n pa attr)
    (hl : ∀ m ∈ (s'.tower (homeOf va)).l2, isLine asid va m = true → m.pa = pa)
    (hb : ∀ b ∈ (s'.tower (homeOf va)).bank, b ∈ (s.tower (homeOf va)).bank) : s'.Lands asid va n pa attr :=
  ⟨la.1, la.2, la.3, hl, fun e b hm => la.5 e b (hb b hm)⟩

theorem isLine_lineOf (asid : Half) (va : DWord) (l : Line) : isLine asid (lineOf va) l = isLine asid va l := by
  unfold isLine lineOf
  rw [BitVec.and_assoc, BitVec.and_self]

theorem homeOf_lineOf (va : DWord) : homeOf (lineOf va) = homeOf va := by
  unfold homeOf lineOf
  congr 2
  rw [BitVec.extractLsb'_and]
  have : (~~~127#64 : DWord).extractLsb' 44 2 = BitVec.allOnes 2 := by decide
  rw [this, BitVec.and_allOnes]

/-- A line filled at the home L2 leaves what is seen, and shows it. -/
theorem homeFill_seen (s : State) (asid : Half) (va : DWord) (n : Nat) (h : Hit) (w : s.HomeOk) (la : s.Lands asid va n h.pa h.attr) :
    (homeFill s asid va h).1.HomeOk ∧ (∀ p, (homeFill s asid va h).1.physByte p = s.physByte p)
    ∧ (homeFill s asid va h).1.Lands asid va n h.pa h.attr
    ∧ ∀ k, k < 128 → lineByte (homeFill s asid va h).2.data k = s.physByte (h.pa + k) := by
  have w0 := w
  rw [homeOk_iff] at w0
  unfold homeFill
  dsimp only
  cases hth : findLine (s.tower (homeOf va)).l2 asid va with
  | some l =>
    dsimp only
    have hl : l ∈ (s.tower (homeOf va)).l2 := List.mem_of_find?_eq_some hth
    have hi : isLine asid va l = true := List.find?_some hth
    have hpa := la.same l hl hi
    obtain ⟨l1, l2, l3⟩ := (w0.2 _).2 l hl
    split
    · rename_i hv
      refine ⟨w, fun _ => rfl, la, fun k hk => ?_⟩
      rw [← hpa, physByte_line s w hl hk, hv, BitVec.getLsbD_allOnes]; simp [hk]
    · have hi2 : l.asid = asid ∧ l.va = lineOf va := by simpa [isLine] using hi
      have hil : ∀ x, isLine l.asid l.va x = isLine asid va x := by
        intro x; rw [hi2.1, hi2.2, isLine_lineOf]
      have hho : homeOf l.va = homeOf va := by rw [hi2.2, homeOf_lineOf]
      have uniq : ∀ x ∈ (s.tower (homeOf va)).l2, isLine asid va x = true → x = l := by
        intro x hx e
        have e1 := find_pa (w0.2 _).1 hx
        have e2 := find_pa (w0.2 _).1 hl
        rw [la.same x hx e, ← hpa] at e1
        exact Option.some.inj (e1.symm.trans e2)
      unfold fillRest
      dsimp only
      generalize hm : Line.mk l.asid l.va (l.over (overlayBank s l.pa (hbmLine s l.pa))) l.dirty l.pa l.attr l.writer (BitVec.allOnes 128) h.hint = m
      have mpa : m.pa = l.pa := by subst hm; rfl
      have mda : ∀ k, k < 128 → lineByte m.data k = s.physByte (l.pa + k) := by
        intro k hk; subst hm; simp only; rw [lineByte_over hk, lineByte_overlay s l1 hk, physByte_line s w hl hk]
      have mv : m.valid = BitVec.allOnes 128 := by subst hm; rfl
      have mdi : m.dirty = l.dirty := by subst hm; rfl
      have mli : isLine asid va m = true := by subst hm; exact hi
      generalize hs1 : (s.chargeRead h.who 128 1).updTower (homeOf l.va) _ = s1
      have tl : ∀ u, (s1.tower u).l2 = if u = homeOf va then (s.tower u).l2.map (fun x => if isLine asid va x then m else x) else (s.tower u).l2 := by
        intro u; subst hs1; rw [updTower_tower, hho]
        simp only [hil]
        split
        · subst_vars; simp only [home_l2 (chargeRead_home s h.who 128 1)]
        · exact home_l2 (chargeRead_home s h.who 128 1) u
      have tb : ∀ u, (s1.tower u).bank = (s.tower u).bank := by
        intro u; subst hs1; rw [updTower_tower]
        split
        · subst_vars; exact home_bank (chargeRead_home s h.who 128 1) _
        · exact home_bank (chargeRead_home s h.who 128 1) u
      have th : s1.hbm = s.hbm := by subst hs1; exact (show (s.chargeRead h.who 128 1).hbm = s.hbm from home_hbm (chargeRead_home s h.who 128 1))
      have bel : ∀ p, s1.below p = s.below p := by intro p; simp [State.below, tb, th]
      have keep : ∀ x ∈ (s.tower (homeOf va)).l2, (if isLine asid va x then m else x).pa = x.pa := by
        intro x hx; split
        · rename_i e; rw [uniq x hx e, mpa]
        · rfl
      have ok1 : s1.HomeOk := by
        rw [homeOk_iff]
        refine ⟨by unfold State.Inv; rw [th]; exact w0.1, fun u => ?_⟩
        rw [tl u]; split
        · subst_vars
          refine ⟨?_, ?_⟩
          · rw [List.pairwise_map]
            refine List.Pairwise.imp_of_mem ?_ (w0.2 _).1
            intro a b ha hb hab; rw [keep a ha, keep b hb]; exact hab
          · intro x hx
            obtain ⟨y, hy, rfl⟩ := List.mem_map.1 hx
            obtain ⟨y1, y2, y3⟩ := (w0.2 _).2 y hy
            refine ⟨by rw [keep y hy]; exact y1, by rw [keep y hy]; exact y2, ?_⟩
            by_cases e : isLine asid va y = true
            · rw [if_pos e, mpa]
              intro d k hk _
              rw [mda k hk, physByte_line s w hl hk, bel]
              split
              · rename_i hv2; rw [mdi] at d; exact l3 d k hk hv2
              · rfl
            · rw [if_neg e]; intro d k hk hv2; rw [bel]; exact y3 d k hk hv2
        · refine ⟨(w0.2 u).1, fun x hx => ?_⟩
          obtain ⟨y1, y2, y3⟩ := (w0.2 u).2 x hx
          exact ⟨y1, y2, fun d k hk hv2 => by rw [bel]; exact y3 d k hk hv2⟩
      refine ⟨ok1, ?_, Lands.of_sub la ?_ ?_, fun k hk => by rw [← hpa]; have e := mda k hk; rw [← hm] at e; exact e⟩
      · intro p
        by_cases hp : p / 128 * 128 = l.pa
        · have e : p = m.pa + p % 128 := by rw [mpa]; omega
          have hmem : m ∈ (s1.tower (homeOf va)).l2 := by
            rw [tl, if_pos rfl]; exact List.mem_map.2 ⟨l, hl, by rw [if_pos hi]⟩
          rw [e, physByte_line s1 ok1 hmem (by omega), mv, BitVec.getLsbD_allOnes, mpa]
          simp only [show p % 128 < 128 by omega, decide_true, if_true]
          rw [mda _ (by omega)]
        · rw [physByte_eq, physByte_eq, bel, tl]
          by_cases hu : towerOfPa (p / 128 * 128) = homeOf va
          · have : ∀ ls : List Line, (∀ x ∈ ls, isLine asid va x = true → x = l) →
                (ls.map fun x => if isLine asid va x then m else x).find? (·.pa == p / 128 * 128) = ls.find? (·.pa == p / 128 * 128) := by
              intro ls
              induction ls with
              | nil => intro _; rfl
              | cons x xs ih =>
                intro hx
                have ih := ih fun y hy => hx y (List.mem_cons_of_mem _ hy)
                simp only [List.map_cons, List.find?_cons]
                by_cases e : isLine asid va x = true
                · rw [if_pos e, hx x List.mem_cons_self e, mpa, beq_eq_false_iff_ne.2 (Ne.symm hp)]; exact ih
                · rw [if_neg e, ih]
            rw [if_pos hu]
            unfold shown
            rw [this _ (by rw [hu]; exact uniq)]
          · rw [if_neg hu]
      · intro x hx _
        rw [tl, if_pos rfl] at hx
        obtain ⟨y, hy, rfl⟩ := List.mem_map.1 hx
        split
        · rw [mpa, hpa]
        · rename_i e1 e2; rw [if_neg e2] at e1; exact absurd e1 e2
      · intro b hb; rwa [tb] at hb
  | none =>
    dsimp only
    have hr := remember_home s asid va
    obtain ⟨q1, q2, q3, q4⟩ := remapFilter_seen (remember s asid va) (t := homeOf va) (asid := asid) (va := va) (pa := h.pa) (homeOk_home hr w)
    have no : ∀ m ∈ (s.tower (homeOf va)).l2, isLine asid va m = false := by
      intro m hm
      have := List.find?_eq_none.1 hth m hm
      simpa [isLine] using this
    have hc := chargeRead_home (remapFilter (remember s asid va) (homeOf va) asid va h.pa) h.who 128 (if h.attr.c then 1 else 0)
    generalize hs1 : State.chargeRead (remapFilter (remember s asid va) (homeOf va) asid va h.pa) h.who 128 (if h.attr.c then 1 else 0) = s1 at *
    have w1 : s1.HomeOk := homeOk_home hc q1
    have v1 : ∀ p, s1.physByte p = s.physByte p := fun p => by rw [physByte_home hc, q2, physByte_home hr]
    have sub : ∀ m, m ∈ (s1.tower (homeOf va)).l2 → m ∈ (s.tower (homeOf va)).l2 ∧ m.pa ≠ h.pa := by
      intro m hm
      rw [home_l2 hc, q3, if_pos rfl, home_l2 hr, List.mem_filter] at hm
      refine ⟨hm.1, fun e => ?_⟩
      have h2 := hm.2
      rw [no m hm.1, e] at h2; simp at h2
    have bsub : ∀ b ∈ (s1.tower (homeOf va)).bank, b ∈ (s.tower (homeOf va)).bank := by
      intro b hb; rw [home_bank hc] at hb; have := q4 _ b hb; rwa [home_bank hr] at this
    have la1 : s1.Lands asid va n h.pa h.attr := Lands.of_sub la
      (fun m hm e => by rw [no m (sub m hm).1] at e; exact absurd e (by simp)) bsub
    have ov : ∀ k, k < 128 → lineByte (overlayBank s1 h.pa (hbmLine s1 h.pa)) k = s.physByte (h.pa + k) := by
      intro k hk
      rw [lineByte_overlay s1 la.aligned hk, ← v1, physByte_eq]
      have e : (h.pa + k) / 128 * 128 = h.pa := by have := la.aligned; omega
      unfold shown
      rw [e, la.tower, List.find?_eq_none.2]
      intro m hm e2; exact (sub m hm).2 (by simpa using e2)
    generalize hl : Line.mk asid (lineOf va) (overlayBank s1 h.pa (hbmLine s1 h.pa)) false h.pa h.attr none (BitVec.allOnes 128) h.hint = l
    have lpa : l.pa = h.pa := by subst hl; rfl
    have ld : ∀ k, k < 128 → lineByte l.data k = s.physByte (h.pa + k) := by subst hl; exact ov
    have lv : l.valid = BitVec.allOnes 128 := by subst hl; rfl
    cases hcc : h.attr.c with
    | false => exact ⟨w1, v1, la1, ld⟩
    | true =>
      simp only [if_true]
      obtain ⟨r1, r2, r3, r4, r5⟩ := roomL2_seen s1 (t := homeOf va) w1
      generalize hs2 : (roomL2 s1 (homeOf va)).updTower (homeOf va) (fun tw => { tw with l2 := l :: tw.l2 }) = s2
      have tl : ∀ u, (s2.tower u).l2 = if u = homeOf va then l :: ((roomL2 s1 (homeOf va)).tower u).l2 else ((roomL2 s1 (homeOf va)).tower u).l2 := by
        intro u; subst hs2; rw [updTower_tower]; split <;> rfl
      have tb : ∀ u, (s2.tower u).bank = ((roomL2 s1 (homeOf va)).tower u).bank := by
        intro u; subst hs2; rw [updTower_tower]; split <;> rfl
      have th : s2.hbm = (roomL2 s1 (homeOf va)).hbm := by subst hs2; rfl
      have bel : ∀ p, s2.below p = (roomL2 s1 (homeOf va)).below p := by intro p; simp [State.below, tb, th]
      have own : ∀ k, k < 128 → (roomL2 s1 (homeOf va)).below (h.pa + k) = s.physByte (h.pa + k) := by
        intro k hk
        have e : (h.pa + k) / 128 * 128 = h.pa := by have := la.aligned; omega
        rw [r5 _ (by intro m hm; rw [e]; exact (sub m hm).2), ← v1, physByte_eq]
        unfold shown
        rw [e, la.tower, List.find?_eq_none.2]
        intro m hm e2; exact (sub m hm).2 (by simpa using e2)
      have r1' := r1
      rw [homeOk_iff] at r1'
      have ok2 : s2.HomeOk := by
        rw [homeOk_iff]
        refine ⟨by unfold State.Inv; rw [th]; exact r1'.1, fun u => ?_⟩
        rw [tl u]
        have old : ∀ x ∈ ((roomL2 s1 (homeOf va)).tower u).l2, x.pa % 128 = 0 ∧ towerOfPa x.pa = u ∧ (x.dirty = false →
            ∀ k, k < 128 → x.valid.getLsbD k = true → lineByte x.data k = s2.below (x.pa + k)) := by
          intro x hx
          obtain ⟨y1, y2, y3⟩ := (r1'.2 u).2 x hx
          exact ⟨y1, y2, fun d k hk hv2 => by rw [bel]; exact y3 d k hk hv2⟩
        split
        · subst_vars
          refine ⟨List.pairwise_cons.2 ⟨?_, (r1'.2 _).1⟩, ?_⟩
          · intro x hx; rw [lpa]; exact ((sub x (r3 _ x hx)).2).symm
          · intro x hx
            rcases List.mem_cons.1 hx with rfl | hx
            · refine ⟨by rw [lpa]; exact la.aligned, by rw [lpa]; exact la.tower, fun _ k hk _ => ?_⟩
              rw [ld k hk, bel, lpa, own k hk]
            · exact old x hx
        · exact ⟨(r1'.2 u).1, old⟩
      refine ⟨ok2, ?_, Lands.of_sub la ?_ ?_, ld⟩
      · intro p
        have hmem : l ∈ (s2.tower (homeOf va)).l2 := by rw [tl, if_pos rfl]; exact List.mem_cons_self
        by_cases hp : p / 128 * 128 = h.pa
        · have e : p = l.pa + p % 128 := by rw [lpa]; omega
          rw [e, physByte_line s2 ok2 hmem (by omega), lv, BitVec.getLsbD_allOnes, lpa]
          simp only [show p % 128 < 128 by omega, decide_true, if_true]
          rw [ld _ (by omega)]
        · rw [← v1, ← r2, physByte_eq, physByte_eq, bel, tl]
          by_cases hu : towerOfPa (p / 128 * 128) = homeOf va
          · rw [if_pos hu]
            unfold shown
            rw [List.find?_cons, lpa, beq_eq_false_iff_ne.2 (Ne.symm hp)]
          · rw [if_neg hu]
      · intro x hx _
        rw [tl, if_pos rfl] at hx
        rcases List.mem_cons.1 hx with rfl | hx
        · exact lpa
        · rename_i e; exact absurd (no x (sub x (r3 _ x hx)).1) (by simp [e])
      · intro b hb; rw [tb] at hb; exact bsub b (r4 _ b hb)

/-- A reduction at the home changes the bytes of its word by the combine rule on what was seen there, and nothing else is seen. -/
theorem reduceHome_seen (s : State) (who : Option Nat) (t : Four) (c : Nat) (asid : Half) (va : DWord) (op : RedOp) (y : DWord) (h : Hit)
    (hh : (confL2 s asid va .write).by who = .ok h)
    (w : (pushStores s t c asid va h.pa).HomeOk) (la : (pushStores s t c asid va h.pa).Lands asid va op.bytes h.pa h.attr) :
    ∃ s1, reduceHome s who t c asid va op y = .ok s1 ∧ ∀ p, s1.physByte p =
      if h.pa + lineOff va ≤ p ∧ p < h.pa + lineOff va + op.bytes then
        (leBytes op.bytes (op.combine (BitVec.ofNat 64 (leNat ((List.range op.bytes).map fun k =>
          (pushStores s t c asid va h.pa).physByte (h.pa + lineOff va + k)))) y).toNat).getD (p - (h.pa + lineOff va)) 0
      else (pushStores s t c asid va h.pa).physByte p := by
  unfold reduceHome
  rw [hh]
  refine ⟨_, rfl, fun p => ?_⟩
  generalize pushStores s t c asid va h.pa = s0 at *
  have hd := dropPassed_home s0 t c asid va h.pa
  have la1 : (dropPassed s0 t c asid va h.pa).Lands asid va op.bytes h.pa h.attr :=
    Lands.of_sub la (by rw [home_l2 hd]; exact la.same) (by rw [home_bank hd]; exact fun b h => h)
  obtain ⟨f1, f2, f3, f4⟩ := homeFill_seen _ asid va op.bytes h (homeOk_home hd w) la1
  have len : ∀ n, (leBytes op.bytes n).length = op.bytes := by simp [leBytes]
  have val : (homeRead (dropPassed s0 t c asid va h.pa) asid va op.bytes h).2 = (List.range op.bytes).map fun k => s0.physByte (h.pa + lineOff va + k) := by
    unfold homeRead lineRead
    dsimp only
    refine List.map_congr_left fun k hk => ?_
    have := List.mem_range.1 hk
    have := la.oneLine
    rw [f4 _ (by omega), physByte_home hd, Nat.add_assoc]
  have fin := homeWrite_seen _ asid va (leBytes op.bytes (op.combine (BitVec.ofNat 64 (leNat ((List.range op.bytes).map fun k =>
          s0.physByte (h.pa + lineOff va + k)))) y).toNat) h f1 (by rw [len]; exact f3) p
  rw [len, f2, physByte_home hd] at fin
  rw [val]
  exact fin

/-- A store that reaches the home changes the bytes it stores, and nothing else is seen. -/
theorem storeHome_seen (s : State) (r : StoreRec) (w : s.HomeOk) (la : s.Lands r.asid r.va r.bytes.length r.pa r.attr) (p : Nat) :
    (storeHome s r).physByte p =
      if r.pa + lineOff r.va ≤ p ∧ p < r.pa + lineOff r.va + r.bytes.length then r.bytes.getD (p - (r.pa + lineOff r.va)) 0 else s.physByte p :=
  homeWrite_seen s r.asid r.va r.bytes { pa := r.pa, attr := r.attr, who := s.payer r.gang, hint := r.hint, stamp := some r.id } w la p

/-! What no step of the home L2 touches: the stores on their way and the gangs. -/

theorem foldl_holds {α : Type} (f : State → α → State) (ls : List α) (s : State) (h : ∀ s a, (f s a).stores = s.stores ∧ (f s a).gangs = s.gangs) :
    (ls.foldl f s).stores = s.stores ∧ (ls.foldl f s).gangs = s.gangs := by
  induction ls generalizing s with
  | nil => exact ⟨rfl, rfl⟩
  | cons a ls ih => simp only [List.foldl_cons]; exact ⟨(ih _).1.trans (h _ _).1, (ih _).2.trans (h _ _).2⟩

theorem chargeWrite_holds (s : State) (who : Option Nat) (n : Nat) :
    (s.chargeWrite who n).stores = s.stores ∧ (s.chargeWrite who n).gangs = s.gangs := by cases who <;> exact ⟨rfl, rfl⟩

theorem writeBack_holds (s : State) (l : Line) : (writeBack s l).stores = s.stores ∧ (writeBack s l).gangs = s.gangs := by
  unfold writeBack; dsimp only; split
  · exact chargeWrite_holds _ _ _
  · exact ⟨rfl, rfl⟩

theorem remember_holds (s : State) (asid : Half) (va : DWord) :
    (remember s asid va).stores = s.stores ∧ (remember s asid va).gangs = s.gangs := by
  unfold remember; split
  · dsimp only; split <;> exact ⟨rfl, rfl⟩
  · exact ⟨rfl, rfl⟩

theorem remapFilter_holds (s : State) (t : Four) (asid : Half) (va : DWord) (pa : Nat) :
    (remapFilter s t asid va pa).stores = s.stores ∧ (remapFilter s t asid va pa).gangs = s.gangs := by
  unfold remapFilter; exact foldl_holds writeBack _ s writeBack_holds

theorem roomL2_holds (s : State) (t : Four) : (roomL2 s t).stores = s.stores ∧ (roomL2 s t).gangs = s.gangs := by
  unfold roomL2; dsimp only; split
  · exact ⟨rfl, rfl⟩
  · split
    · exact ⟨rfl, rfl⟩
    · exact writeBack_holds _ _

theorem snoop_holds (s : State) (pa : Nat) : (snoop s pa).stores = s.stores ∧ (snoop s pa).gangs = s.gangs := by
  unfold snoop; exact foldl_holds _ _ s fun _ _ => ⟨rfl, rfl⟩

theorem homeWrite_holds (s : State) (asid : Half) (va : DWord) (bs : List Byte) (h : Hit) :
    (homeWrite s asid va bs h).stores = s.stores ∧ (homeWrite s asid va bs h).gangs = s.gangs := by
  unfold homeWrite; dsimp only
  generalize hs1 : ite ((findLine (s.tower (homeOf va)).l2 asid va).isSome = true) s _ = s1
  have k1 : s1.stores = s.stores ∧ s1.gangs = s.gangs := by
    subst hs1; split
    · exact ⟨rfl, rfl⟩
    · exact ⟨(remapFilter_holds _ _ _ _ _).1.trans (remember_holds _ _ _).1, (remapFilter_holds _ _ _ _ _).2.trans (remember_holds _ _ _).2⟩
  suffices h2 : ∀ s2 : State, s2.stores = s1.stores ∧ s2.gangs = s1.gangs → (snoop s2 h.pa).stores = s.stores ∧ (snoop s2 h.pa).gangs = s.gangs by
    refine h2 _ ?_
    split
    · exact chargeWrite_holds _ _ _
    · split
      · exact chargeWrite_holds _ _ _
      · split
        · exact ⟨rfl, rfl⟩
        · exact roomL2_holds _ _
  exact fun s2 e => ⟨(snoop_holds _ _).1.trans (e.1.trans k1.1), (snoop_holds _ _).2.trans (e.2.trans k1.2)⟩

theorem storeHome_holds (s : State) (r : StoreRec) :
    (storeHome s r).stores = s.stores.filter (·.id != r.id) ∧ (storeHome s r).gangs = s.gangs := by
  unfold storeHome; dsimp only; exact ⟨by rw [(homeWrite_holds _ _ _ _ _).1], (homeWrite_holds _ _ _ _ _).2⟩

/-- Where no store on its way meets the line, none is pushed. -/
theorem pushStores_none (s : State) (t : Four) (c : Nat) (asid : Half) (va : DWord) (pa : Nat)
    (h : ∀ r ∈ s.stores, r.tower = t → r.pa ≠ pa ∧ (r.col = c → r.overlaps asid (lineOf va) 128 = false)) :
    pushStores s t c asid va pa = s := by
  have e1 : pushPassed s t pa = s := by
    unfold pushPassed
    rw [List.filter_eq_nil_iff.2]
    · rfl
    · intro r hr; simp; intro ht _; simp [StoreRec.ofPhys, (h r hr ht).1]
  unfold pushStores
  simp only [e1]
  rw [List.filter_eq_nil_iff.2]
  · rfl
  · intro r hr; simp; intro ht hc _; exact (h r hr ht).2 hc

end Sys2Proof.Machine
end

