-- ==== Sys2Proof/Laws/Issue.lean ====
section
/-!
SUPPORT. What the issue of a unit can come to, said once: its own effect, a trap, being withheld, or no issuing group.
-/

set_option Elab.async false

namespace Sys2Proof.Machine

/-- A word that issues has its own effect, the group's turn noted. -/
theorem issue_own {i : Instr} {c : Ctx} {s : State} (h : Issues i c s) (own : Ctx → State → State) :
    issue i s own = .next (own c (c.stamp s)) := by
  simp [issue, h.ctx, h.clean, h.free]

/-- A word that fails a check of R159 takes its trap. -/
theorem issue_trap {i : Instr} {c : Ctx} {s : State} {t : TrapReq} (h : s.ctx? = some c) (ht : unitTrap i c = some t)
    (own : Ctx → State → State) : issue i s own = .next (takeTrap c (c.stamp s) t) := by
  simp [issue, h, ht]

/-- A word that a pending save or move withholds waits to issue. -/
theorem issue_held {i : Instr} {c : Ctx} {s : State} (h : s.ctx? = some c) (ht : unitTrap i c = none)
    (hw : c.withheld i = true) (own : Ctx → State → State) : issue i s own = .next (c.holdIssue (c.stamp s) i) := by
  simp [issue, h, ht, hw]

/-- Without a live issuing group a word does not issue (log 7). -/
theorem issue_none {i : Instr} {s : State} (h : s.ctx? = none) (own : Ctx → State → State) :
    issue i s own = .fault .noIssuingGroup := by
  simp [issue, h]

/-- The issue of a word answers a next state, or there is no issuing group. -/
theorem issue_next_or_fault (i : Instr) (s : State) (own : Ctx → State → State) :
    (∃ t, issue i s own = .next t) ∨ issue i s own = .fault .noIssuingGroup := by
  unfold issue
  split
  · exact .inr rfl
  · exact .inl ⟨_, rfl⟩

/-- A live issuing group: the issue answers a next state. -/
theorem issue_next {i : Instr} {s : State} (h : s.ctx? ≠ none) (own : Ctx → State → State) : ∃ t, issue i s own = .next t := by
  unfold issue
  split
  · contradiction
  · exact ⟨_, rfl⟩

/-- Whatever holds of the state after a trap, after being withheld and after the word's own effect holds after its issue. -/
theorem issue_keeps {i : Instr} {s t : State} {own : Ctx → State → State} {P : State → Prop} (h : issue i s own = .next t)
    (trap : ∀ (c : Ctx) q, P (takeTrap c (c.stamp s) q)) (hold : ∀ c : Ctx, P (c.holdIssue (c.stamp s) i))
    (eff : ∀ c, s.ctx? = some c → P (own c (c.stamp s))) : P t := by
  unfold issue at h
  split at h
  · cases h
  · rename_i c hc
    cases h
    split
    · exact trap ..
    · split
      · exact hold c
      · exact eff c hc

/-! ### What traps, records and parks leave as it was -/

variable (c : Ctx) (s : State)

/-- Taking a trap leaves module memory as it was. -/
@[simp] theorem takeTrapAt_hbm (q : TrapReq) (pc next : DWord) : (takeTrapAt c s q pc next).hbm = s.hbm := rfl
@[simp] theorem takeTrap_hbm (q : TrapReq) : (takeTrap c s q).hbm = s.hbm := rfl

@[simp] theorem reportFault_hbm (t : Four) (kind cause need : Byte) (l : Launch) (g : Option Gang) (col : Nat) (va : DWord)
    (w n : Nat) : (reportFault s t kind cause need l g col va w n).hbm = s.hbm := rfl

/-- A not-present event leaves module memory as it was. -/
@[simp] theorem absence_hbm (t : Four) (kind need tier : Byte) (l : Launch) (g : Gang) (w : Nat) (va : DWord) (e : Nat) :
    (absence s t kind need tier l g w va e).1.hbm = s.hbm := by
  unfold absence; dsimp only; split <;> rfl

/-- Parking leaves module memory as it was. -/
@[simp] theorem parkAt_hbm (kind need : Byte) (va : DWord) (lane : Byte) (fva : DWord) (e : Nat) (pc : DWord) :
    (parkAt c s kind need va lane fva e pc).hbm = s.hbm := by
  simp [parkAt]

@[simp] theorem park_hbm (kind need : Byte) (va : DWord) (lane : Byte) (fva : DWord) (e : Nat) :
    (park c s kind need va lane fva e).hbm = s.hbm := by
  simp [park]

/-- Noting how far a VATOM has come, dropping a remote copy and checking a parked record leave module memory as it was. -/
@[simp] theorem atomProgress_hbm (hits : List (DWord × Nat × Attr)) (olds : List DWord) : (c.atomProgress s hits olds).hbm = s.hbm := rfl

/-- A release noted, a bank product given up and a start counted as failed leave module memory as it was. -/
@[simp] theorem noteRelease_hbm : (c.noteRelease s).hbm = s.hbm := rfl
@[simp] theorem noteRelease_stores : (c.noteRelease s).stores = s.stores := rfl
@[simp] theorem dropBgemv_hbm (id : Nat) : (dropBgemv s id).hbm = s.hbm := rfl
@[simp] theorem leaveBank_hbm : (c.leaveBank s).hbm = s.hbm := by
  unfold Ctx.leaveBank; split
  · split <;> rfl
  · rfl
@[simp] theorem countFailure_hbm (r : Byte) : (countFailure r s).hbm = s.hbm := rfl
@[simp] theorem countFailure_tower (r : Byte) (t : Four) : (countFailure r s).tower t =
    { s.tower t with boot := { (s.tower t).boot with reason := r, fails := min 3 ((s.tower t).boot.fails + 1) } } := by
  match t with
  | 0 | 1 | 2 | 3 => rfl

@[simp] theorem dropRdc_hbm (t : Four) (asid : Half) (va : DWord) (pa : Nat) : (dropRdc s t asid va pa).hbm = s.hbm := by
  unfold dropRdc; split <;> rfl

@[simp] theorem checkParked_hbm (gang : Nat) : (checkParked s gang).hbm = s.hbm := by
  unfold checkParked
  split
  · rfl
  · split
    · split <;> rfl
    · rfl

/-- A failed confirmation leaves module memory as it was. -/
theorem confFail_hbm {kind : Byte} {n : Need} {ts : List Target} {conf : DWord → Conf} {t : State}
    (h : confFail c s kind n ts conf = some t) : t.hbm = s.hbm := by
  unfold confFail at h
  split at h
  · cases h; rfl
  · dsimp only at h
    split at h
    · cases h; simp
    · cases h

/-- The lowest absent page is one of those that are absent, and none lies below it. -/
theorem lowestAbsent_some : ∀ {xs : List (DWord × Nat)} {low : DWord × Nat}, lowestAbsent xs = some low →
    low ∈ xs ∧ ∀ y ∈ xs, low.1.toNat ≤ y.1.toNat
  | [], _, h => by simp [lowestAbsent] at h
  | x :: xs, low, h => by
    rw [lowestAbsent] at h
    split at h
    · rename_i hn
      cases h
      cases xs with
      | nil => simp
      | cons z zs => rw [lowestAbsent] at hn; split at hn <;> (try split at hn) <;> cases hn
    · rename_i y hy
      obtain ⟨hm, hl⟩ := lowestAbsent_some hy
      split at h <;> cases h <;> simp only [List.mem_cons, forall_eq_or_imp] <;>
        refine ⟨by simp [hm], by omega, fun z hz => ?_⟩ <;> have := hl z hz <;> omega

/-- A confirmation that fails stops its unit as `ConfirmFails` says. -/
theorem confFail_of_fails {c : Ctx} {s t : State} {kind : Byte} {n : Need} {ts : List Target} {conf : DWord → Conf}
    (h : ConfirmFails c s kind n ts conf t) : confFail c s kind n ts conf = some t := by
  have same : (fun x : Target => conf x.va == .error || conf x.va == .perm) = fun x => (conf x.va).refused := by
    funext x; cases conf x.va <;> rfl
  unfold confFail
  rw [same]
  obtain ⟨x, hx, rfl⟩ | ⟨hn, x, low, e, hx, hlow, he, hmin, rfl⟩ := h
  · simp [hx]
  · have none : ts.find? (fun x => (conf x.va).refused) = none := by simpa using hn
    rw [none]
    dsimp only
    obtain ⟨l1, l2, rfl, hl⟩ := List.find?_eq_some_iff_append.mp hx |>.2
    have hx1 := (List.find?_eq_some_iff_append.mp hx).1
    obtain ⟨e0, he0⟩ : ∃ e, conf x.va = .absent e := by cases hc : conf x.va <;> simp [hc, Conf.isAbsent] at hx1 ⊢
    have first : l1.filterMap (fun t => (conf t.va).entry?.map fun e => (t, e)) = [] := by
      rw [List.filterMap_eq_nil_iff]
      intro y hy
      have := hl y hy
      cases hc : conf y.va <;> simp [hc, Conf.isAbsent, Conf.entry?] at this ⊢
    have split : (l1 ++ x :: l2).filterMap (fun t => (conf t.va).entry?.map fun e => (t, e)) =
        (x, e0) :: l2.filterMap fun t => (conf t.va).entry?.map fun e => (t, e) := by
      rw [List.filterMap_append, first, List.nil_append, List.filterMap_cons, he0]
      rfl
    rw [split]
    generalize hg : l2.filterMap (fun t => (conf t.va).entry?.map fun e => (t, e)) = rest at split ⊢
    have mem : ∀ y e1, (y, e1) ∈ (x, e0) :: rest ↔ y ∈ l1 ++ x :: l2 ∧ conf y.va = .absent e1 := by
      intro y e1
      rw [← split, List.mem_filterMap]
      constructor
      · rintro ⟨a, ha, hq⟩
        cases hc : conf a.va <;> simp [hc, Conf.entry?] at hq
        obtain ⟨rfl, rfl⟩ := hq
        exact ⟨ha, hc⟩
      · rintro ⟨ha, hq⟩
        exact ⟨y, ha, by simp [hq, Conf.entry?]⟩
    cases hq : lowestAbsent (((x, e0) :: rest).map fun x => (x.1.va, x.2)) with
    | none =>
      exfalso
      rw [List.map_cons, lowestAbsent] at hq
      split at hq <;> (try split at hq) <;> cases hq
    | some q =>
      obtain ⟨hqm, hql⟩ := lowestAbsent_some hq
      obtain ⟨⟨y, e1⟩, hy, rfl⟩ := List.mem_map.mp hqm
      obtain ⟨hym, hye⟩ := (mem y e1).mp hy
      have a1 := hmin y hym (by simp [hye, Conf.isAbsent])
      have a2 := hql (low.va, e) (List.mem_map.mpr ⟨(low, e), (mem low e).mpr ⟨hlow, he⟩, rfl⟩)
      have eq : y.va = low.va := BitVec.eq_of_toNat_eq (by simp at a2; omega)
      rw [eq, he] at hye
      cases hye
      simp [eq]

/-- Targets that are all confirmed fail nothing. -/
theorem confFail_ok {c : Ctx} {s : State} {kind : Byte} {n : Need} {ts : List Target} {conf : DWord → Conf}
    (h : ∀ t ∈ ts, ∃ k, conf t.va = .ok k) : confFail c s kind n ts conf = none := by
  have h1 : ts.find? (fun t => conf t.va == .error || conf t.va == .perm) = none := by
    rw [List.find?_eq_none]; intro t ht; obtain ⟨k, hk⟩ := h t ht; simp [hk]
  have h2 : ts.filterMap (fun t => (conf t.va).entry?.map fun e => (t, e)) = [] := by
    rw [List.filterMap_eq_nil_iff]; intro t ht; obtain ⟨k, hk⟩ := h t ht; simp [hk, Conf.entry?]
  rw [confFail, h1, h2]

/-- A word that accesses ranges stops, where they do not pass, as `RangesStop` says. -/
theorem rangesStop {i : Instr} {p : Ctx → State → Prop} {r : Ctx → Ranges} {addr : Ctx → Nat} {align : Nat} {a : AccKind} {n : Need}
    {own : Ctx → State → State → State} (h : ∀ c s, Issues i c s → p c (c.stamp s) →
      exec i s = .next (c.onRanges (c.stamp s) i (r c) (addr c) align a n (own c (c.stamp s)))) : RangesStop i p r addr align a n := by
  have targets (c : Ctx) : ((r c).parts.map fun p => ({ b := c.lead, va := p.1, n := p.2 } : Touch)).map (fun x => ({ lane := 0xFF, va := x.va } : Target)) =
      (r c).parts.map fun x => { lane := 0xFF, va := x.1 } := List.map_map
  refine ⟨fun t c s hi hp => ?_, fun t c s hi ⟨hp, h1, h2, h3⟩ => ?_, fun c s hi ⟨hp, h1, h2, h3, h4⟩ => ?_⟩
  · rw [h c s hi hp.1, Ctx.onRanges, hp.2]
  · rw [h c s hi hp, Ctx.onRanges, h1]
    dsimp only
    rw [if_neg (by simp [h2]), targets, confFail_of_fails h3]
  · have ok := confFail_ok (c := c) (s := c.stamp s) (kind := 1) (n := n) (ts := (r c).parts.map fun x => { lane := 0xFF, va := x.1 })
      (conf := c.confVa (c.stamp s) n) (fun t ht => by obtain ⟨x, hx, rfl⟩ := List.mem_map.mp ht; exact h3 x hx)
    have hr : ranged c (c.stamp s) (r c) a = c.clear (c.stamp s) (a == .store) (a == .load) (rangeTouches c (r c)) := if_pos h2
    dsimp only
    rw [hr] at h4 ⊢
    rw [h c s hi hp, Ctx.onRanges, h1]
    dsimp only
    rw [if_neg (by simp [h2]), targets, ok]
    exact congrArg Host.Outcome.next (if_pos h4)

end Sys2Proof.Machine
end

