-- ==== Sys2Proof/Laws/PerInstr.lean ====
section
/-!
SUPPORT. Statements made once per instruction: decoding gives back every well-formed instruction from its word (R140, R155).
-/

set_option Elab.async false
set_option linter.unusedSimpArgs false

namespace Sys2Proof

/-! ### The fields of a word laid out by its form (R140) -/

theorem major_formA (m d a b : BitVec 6) (g : BitVec 3) (f : BitVec 5) : major (formA m d a b g f) = m := by
  ext j hj
  change BitVec.getLsbD (BitVec.extractLsb' (n := 6+6+6+6+3+5) 26 6 (m ++ d ++ a ++ b ++ g ++ f)) j = _
  simp only [BitVec.getLsbD_extractLsb', BitVec.getLsbD_append]
  grind

theorem fieldD_formA (m d a b : BitVec 6) (g : BitVec 3) (f : BitVec 5) : fieldD (formA m d a b g f) = d := by
  ext j hj
  change BitVec.getLsbD (BitVec.extractLsb' (n := 6+6+6+6+3+5) 20 6 (m ++ d ++ a ++ b ++ g ++ f)) j = _
  simp only [BitVec.getLsbD_extractLsb', BitVec.getLsbD_append]
  grind

theorem fieldA_formA (m d a b : BitVec 6) (g : BitVec 3) (f : BitVec 5) : fieldA (formA m d a b g f) = a := by
  ext j hj
  change BitVec.getLsbD (BitVec.extractLsb' (n := 6+6+6+6+3+5) 14 6 (m ++ d ++ a ++ b ++ g ++ f)) j = _
  simp only [BitVec.getLsbD_extractLsb', BitVec.getLsbD_append]
  grind

theorem fieldB_formA (m d a b : BitVec 6) (g : BitVec 3) (f : BitVec 5) : fieldB (formA m d a b g f) = b := by
  ext j hj
  change BitVec.getLsbD (BitVec.extractLsb' (n := 6+6+6+6+3+5) 8 6 (m ++ d ++ a ++ b ++ g ++ f)) j = _
  simp only [BitVec.getLsbD_extractLsb', BitVec.getLsbD_append]
  grind

theorem guardA_formA (m d a b : BitVec 6) (g : BitVec 3) (f : BitVec 5) : guardA (formA m d a b g f) = g := by
  ext j hj
  change BitVec.getLsbD (BitVec.extractLsb' (n := 6+6+6+6+3+5) 5 3 (m ++ d ++ a ++ b ++ g ++ f)) j = _
  simp only [BitVec.getLsbD_extractLsb', BitVec.getLsbD_append]
  grind

theorem fnA_formA (m d a b : BitVec 6) (g : BitVec 3) (f : BitVec 5) : fnA (formA m d a b g f) = f := by
  ext j hj
  change BitVec.getLsbD (BitVec.extractLsb' (n := 6+6+6+6+3+5) 0 5 (m ++ d ++ a ++ b ++ g ++ f)) j = _
  simp only [BitVec.getLsbD_extractLsb', BitVec.getLsbD_append]
  grind

theorem major_formB (m d a : BitVec 6) (g f : BitVec 3) (i : BitVec 8) : major (formB m d a g f i) = m := by
  ext j hj
  change BitVec.getLsbD (BitVec.extractLsb' (n := 6+6+6+3+3+8) 26 6 (m ++ d ++ a ++ g ++ f ++ i)) j = _
  simp only [BitVec.getLsbD_extractLsb', BitVec.getLsbD_append]
  grind

theorem fieldD_formB (m d a : BitVec 6) (g f : BitVec 3) (i : BitVec 8) : fieldD (formB m d a g f i) = d := by
  ext j hj
  change BitVec.getLsbD (BitVec.extractLsb' (n := 6+6+6+3+3+8) 20 6 (m ++ d ++ a ++ g ++ f ++ i)) j = _
  simp only [BitVec.getLsbD_extractLsb', BitVec.getLsbD_append]
  grind

theorem fieldA_formB (m d a : BitVec 6) (g f : BitVec 3) (i : BitVec 8) : fieldA (formB m d a g f i) = a := by
  ext j hj
  change BitVec.getLsbD (BitVec.extractLsb' (n := 6+6+6+3+3+8) 14 6 (m ++ d ++ a ++ g ++ f ++ i)) j = _
  simp only [BitVec.getLsbD_extractLsb', BitVec.getLsbD_append]
  grind

theorem guardB_formB (m d a : BitVec 6) (g f : BitVec 3) (i : BitVec 8) : guardB (formB m d a g f i) = g := by
  ext j hj
  change BitVec.getLsbD (BitVec.extractLsb' (n := 6+6+6+3+3+8) 11 3 (m ++ d ++ a ++ g ++ f ++ i)) j = _
  simp only [BitVec.getLsbD_extractLsb', BitVec.getLsbD_append]
  grind

theorem fnB_formB (m d a : BitVec 6) (g f : BitVec 3) (i : BitVec 8) : fnB (formB m d a g f i) = f := by
  ext j hj
  change BitVec.getLsbD (BitVec.extractLsb' (n := 6+6+6+3+3+8) 8 3 (m ++ d ++ a ++ g ++ f ++ i)) j = _
  simp only [BitVec.getLsbD_extractLsb', BitVec.getLsbD_append]
  grind

theorem imm8_formB (m d a : BitVec 6) (g f : BitVec 3) (i : BitVec 8) : imm8 (formB m d a g f i) = i := by
  ext j hj
  change BitVec.getLsbD (BitVec.extractLsb' (n := 6+6+6+3+3+8) 0 8 (m ++ d ++ a ++ g ++ f ++ i)) j = _
  simp only [BitVec.getLsbD_extractLsb', BitVec.getLsbD_append]
  grind

theorem major_formC (m : BitVec 6) (g f : BitVec 3) (x : BitVec 20) : major (formC m g f x) = m := by
  ext j hj
  change BitVec.getLsbD (BitVec.extractLsb' (n := 6+3+3+20) 26 6 (m ++ g ++ f ++ x)) j = _
  simp only [BitVec.getLsbD_extractLsb', BitVec.getLsbD_append]
  grind

theorem guardC_formC (m : BitVec 6) (g f : BitVec 3) (x : BitVec 20) : guardC (formC m g f x) = g := by
  ext j hj
  change BitVec.getLsbD (BitVec.extractLsb' (n := 6+3+3+20) 23 3 (m ++ g ++ f ++ x)) j = _
  simp only [BitVec.getLsbD_extractLsb', BitVec.getLsbD_append]
  grind

theorem fnC_formC (m : BitVec 6) (g f : BitVec 3) (x : BitVec 20) : fnC (formC m g f x) = f := by
  ext j hj
  change BitVec.getLsbD (BitVec.extractLsb' (n := 6+3+3+20) 20 3 (m ++ g ++ f ++ x)) j = _
  simp only [BitVec.getLsbD_extractLsb', BitVec.getLsbD_append]
  grind

theorem offC_formC (m : BitVec 6) (g f : BitVec 3) (x : BitVec 20) : offC (formC m g f x) = x := by
  ext j hj
  change BitVec.getLsbD (BitVec.extractLsb' (n := 6+3+3+20) 0 20 (m ++ g ++ f ++ x)) j = _
  simp only [BitVec.getLsbD_extractLsb', BitVec.getLsbD_append]
  grind

theorem major_formS (m d a : BitVec 6) (c : BitVec 10) (f : BitVec 4) : major (formS m d a c f) = m := by
  ext j hj
  change BitVec.getLsbD (BitVec.extractLsb' (n := 6+6+6+10+4) 26 6 (m ++ d ++ a ++ c ++ f)) j = _
  simp only [BitVec.getLsbD_extractLsb', BitVec.getLsbD_append]
  grind

theorem fieldD_formS (m d a : BitVec 6) (c : BitVec 10) (f : BitVec 4) : fieldD (formS m d a c f) = d := by
  ext j hj
  change BitVec.getLsbD (BitVec.extractLsb' (n := 6+6+6+10+4) 20 6 (m ++ d ++ a ++ c ++ f)) j = _
  simp only [BitVec.getLsbD_extractLsb', BitVec.getLsbD_append]
  grind

theorem fieldA_formS (m d a : BitVec 6) (c : BitVec 10) (f : BitVec 4) : fieldA (formS m d a c f) = a := by
  ext j hj
  change BitVec.getLsbD (BitVec.extractLsb' (n := 6+6+6+10+4) 14 6 (m ++ d ++ a ++ c ++ f)) j = _
  simp only [BitVec.getLsbD_extractLsb', BitVec.getLsbD_append]
  grind

theorem code10_formS (m d a : BitVec 6) (c : BitVec 10) (f : BitVec 4) : code10 (formS m d a c f) = c := by
  ext j hj
  change BitVec.getLsbD (BitVec.extractLsb' (n := 6+6+6+10+4) 4 10 (m ++ d ++ a ++ c ++ f)) j = _
  simp only [BitVec.getLsbD_extractLsb', BitVec.getLsbD_append]
  grind

theorem fnS_formS (m d a : BitVec 6) (c : BitVec 10) (f : BitVec 4) : fnS (formS m d a c f) = f := by
  ext j hj
  change BitVec.getLsbD (BitVec.extractLsb' (n := 6+6+6+10+4) 0 4 (m ++ d ++ a ++ c ++ f)) j = _
  simp only [BitVec.getLsbD_extractLsb', BitVec.getLsbD_append]
  grind

theorem major_formT (m : BitVec 6) (x y z : BitVec 3) (s : BitVec 6) (c : BitVec 7) (f : BitVec 4) : major (formT m x y z s c f) = m := by
  ext j hj
  change BitVec.getLsbD (BitVec.extractLsb' (n := 6+3+3+3+6+7+4) 26 6 (m ++ x ++ y ++ z ++ s ++ c ++ f)) j = _
  simp only [BitVec.getLsbD_extractLsb', BitVec.getLsbD_append]
  grind

theorem fieldTd_formT (m : BitVec 6) (x y z : BitVec 3) (s : BitVec 6) (c : BitVec 7) (f : BitVec 4) : fieldTd (formT m x y z s c f) = x := by
  ext j hj
  change BitVec.getLsbD (BitVec.extractLsb' (n := 6+3+3+3+6+7+4) 23 3 (m ++ x ++ y ++ z ++ s ++ c ++ f)) j = _
  simp only [BitVec.getLsbD_extractLsb', BitVec.getLsbD_append]
  grind

theorem fieldTa_formT (m : BitVec 6) (x y z : BitVec 3) (s : BitVec 6) (c : BitVec 7) (f : BitVec 4) : fieldTa (formT m x y z s c f) = y := by
  ext j hj
  change BitVec.getLsbD (BitVec.extractLsb' (n := 6+3+3+3+6+7+4) 20 3 (m ++ x ++ y ++ z ++ s ++ c ++ f)) j = _
  simp only [BitVec.getLsbD_extractLsb', BitVec.getLsbD_append]
  grind

theorem fieldTb_formT (m : BitVec 6) (x y z : BitVec 3) (s : BitVec 6) (c : BitVec 7) (f : BitVec 4) : fieldTb (formT m x y z s c f) = z := by
  ext j hj
  change BitVec.getLsbD (BitVec.extractLsb' (n := 6+3+3+3+6+7+4) 17 3 (m ++ x ++ y ++ z ++ s ++ c ++ f)) j = _
  simp only [BitVec.getLsbD_extractLsb', BitVec.getLsbD_append]
  grind

theorem fieldTs_formT (m : BitVec 6) (x y z : BitVec 3) (s : BitVec 6) (c : BitVec 7) (f : BitVec 4) : fieldTs (formT m x y z s c f) = s := by
  ext j hj
  change BitVec.getLsbD (BitVec.extractLsb' (n := 6+3+3+3+6+7+4) 11 6 (m ++ x ++ y ++ z ++ s ++ c ++ f)) j = _
  simp only [BitVec.getLsbD_extractLsb', BitVec.getLsbD_append]
  grind

theorem fieldCtl_formT (m : BitVec 6) (x y z : BitVec 3) (s : BitVec 6) (c : BitVec 7) (f : BitVec 4) : fieldCtl (formT m x y z s c f) = c := by
  ext j hj
  change BitVec.getLsbD (BitVec.extractLsb' (n := 6+3+3+3+6+7+4) 4 7 (m ++ x ++ y ++ z ++ s ++ c ++ f)) j = _
  simp only [BitVec.getLsbD_extractLsb', BitVec.getLsbD_append]
  grind

theorem fnS_formT (m : BitVec 6) (x y z : BitVec 3) (s : BitVec 6) (c : BitVec 7) (f : BitVec 4) : fnS (formT m x y z s c f) = f := by
  ext j hj
  change BitVec.getLsbD (BitVec.extractLsb' (n := 6+3+3+3+6+7+4) 0 4 (m ++ x ++ y ++ z ++ s ++ c ++ f)) j = _
  simp only [BitVec.getLsbD_extractLsb', BitVec.getLsbD_append]
  grind

theorem major_formP (m : BitVec 6) (k : BitVec 2) (p : BitVec 24) : major (formP m k p) = m := by
  ext j hj
  change BitVec.getLsbD (BitVec.extractLsb' (n := 6+2+24) 26 6 (m ++ k ++ p)) j = _
  simp only [BitVec.getLsbD_extractLsb', BitVec.getLsbD_append]
  grind

theorem kindP_formP (m : BitVec 6) (k : BitVec 2) (p : BitVec 24) : kindP (formP m k p) = k := by
  ext j hj
  change BitVec.getLsbD (BitVec.extractLsb' (n := 6+2+24) 24 2 (m ++ k ++ p)) j = _
  simp only [BitVec.getLsbD_extractLsb', BitVec.getLsbD_append]
  grind

theorem payload_formP (m : BitVec 6) (k : BitVec 2) (p : BitVec 24) : payload (formP m k p) = p := by
  ext j hj
  change BitVec.getLsbD (BitVec.extractLsb' (n := 6+2+24) 0 24 (m ++ k ++ p)) j = _
  simp only [BitVec.getLsbD_extractLsb', BitVec.getLsbD_append]
  grind

/-! ### Fields within a field -/

theorem sub_0_2_8 (x1 : BitVec 1) (x2 : BitVec 1) : BitVec.extractLsb' 2 8 (0#8 ++ x1 ++ x2 : BitVec 10) = 0#8 := by
  ext j hj
  change BitVec.getLsbD (BitVec.extractLsb' (n := 8+1+1) 2 8 (0#8 ++ x1 ++ x2)) j = _
  simp only [BitVec.getLsbD_extractLsb', BitVec.getLsbD_append]
  grind

theorem sub_0_1_1 (x1 : BitVec 1) (x2 : BitVec 1) : BitVec.extractLsb' 1 1 (0#8 ++ x1 ++ x2 : BitVec 10) = x1 := by
  ext j hj
  change BitVec.getLsbD (BitVec.extractLsb' (n := 8+1+1) 1 1 (0#8 ++ x1 ++ x2)) j = _
  simp only [BitVec.getLsbD_extractLsb', BitVec.getLsbD_append]
  grind

theorem sub_0_0_1 (x1 : BitVec 1) (x2 : BitVec 1) : BitVec.extractLsb' 0 1 (0#8 ++ x1 ++ x2 : BitVec 10) = x2 := by
  ext j hj
  change BitVec.getLsbD (BitVec.extractLsb' (n := 8+1+1) 0 1 (0#8 ++ x1 ++ x2)) j = _
  simp only [BitVec.getLsbD_extractLsb', BitVec.getLsbD_append]
  grind

theorem sub_1_5_5 (x1 : BitVec 1) (x2 : BitVec 1) (x3 : BitVec 1) (x4 : BitVec 2) : BitVec.extractLsb' 5 5 (0#5 ++ x1 ++ x2 ++ x3 ++ x4 : BitVec 10) = 0#5 := by
  ext j hj
  change BitVec.getLsbD (BitVec.extractLsb' (n := 5+1+1+1+2) 5 5 (0#5 ++ x1 ++ x2 ++ x3 ++ x4)) j = _
  simp only [BitVec.getLsbD_extractLsb', BitVec.getLsbD_append]
  grind

theorem sub_1_4_1 (x1 : BitVec 1) (x2 : BitVec 1) (x3 : BitVec 1) (x4 : BitVec 2) : BitVec.extractLsb' 4 1 (0#5 ++ x1 ++ x2 ++ x3 ++ x4 : BitVec 10) = x1 := by
  ext j hj
  change BitVec.getLsbD (BitVec.extractLsb' (n := 5+1+1+1+2) 4 1 (0#5 ++ x1 ++ x2 ++ x3 ++ x4)) j = _
  simp only [BitVec.getLsbD_extractLsb', BitVec.getLsbD_append]
  grind

theorem sub_1_3_1 (x1 : BitVec 1) (x2 : BitVec 1) (x3 : BitVec 1) (x4 : BitVec 2) : BitVec.extractLsb' 3 1 (0#5 ++ x1 ++ x2 ++ x3 ++ x4 : BitVec 10) = x2 := by
  ext j hj
  change BitVec.getLsbD (BitVec.extractLsb' (n := 5+1+1+1+2) 3 1 (0#5 ++ x1 ++ x2 ++ x3 ++ x4)) j = _
  simp only [BitVec.getLsbD_extractLsb', BitVec.getLsbD_append]
  grind

theorem sub_1_2_1 (x1 : BitVec 1) (x2 : BitVec 1) (x3 : BitVec 1) (x4 : BitVec 2) : BitVec.extractLsb' 2 1 (0#5 ++ x1 ++ x2 ++ x3 ++ x4 : BitVec 10) = x3 := by
  ext j hj
  change BitVec.getLsbD (BitVec.extractLsb' (n := 5+1+1+1+2) 2 1 (0#5 ++ x1 ++ x2 ++ x3 ++ x4)) j = _
  simp only [BitVec.getLsbD_extractLsb', BitVec.getLsbD_append]
  grind

theorem sub_1_0_2 (x1 : BitVec 1) (x2 : BitVec 1) (x3 : BitVec 1) (x4 : BitVec 2) : BitVec.extractLsb' 0 2 (0#5 ++ x1 ++ x2 ++ x3 ++ x4 : BitVec 10) = x4 := by
  ext j hj
  change BitVec.getLsbD (BitVec.extractLsb' (n := 5+1+1+1+2) 0 2 (0#5 ++ x1 ++ x2 ++ x3 ++ x4)) j = _
  simp only [BitVec.getLsbD_extractLsb', BitVec.getLsbD_append]
  grind

theorem sub_2_3_3 (x1 : BitVec 3) : BitVec.extractLsb' 3 3 (0#3 ++ x1 : BitVec 6) = 0#3 := by
  ext j hj
  change BitVec.getLsbD (BitVec.extractLsb' (n := 3+3) 3 3 (0#3 ++ x1)) j = _
  simp only [BitVec.getLsbD_extractLsb', BitVec.getLsbD_append]
  grind

theorem sub_2_0_3 (x1 : BitVec 3) : BitVec.extractLsb' 0 3 (0#3 ++ x1 : BitVec 6) = x1 := by
  ext j hj
  change BitVec.getLsbD (BitVec.extractLsb' (n := 3+3) 0 3 (0#3 ++ x1)) j = _
  simp only [BitVec.getLsbD_extractLsb', BitVec.getLsbD_append]
  grind

theorem sub_3_4_1 (x0 : BitVec 1) : BitVec.extractLsb' 4 1 (x0 ++ 0#4 : BitVec 5) = x0 := by
  ext j hj
  change BitVec.getLsbD (BitVec.extractLsb' (n := 1+4) 4 1 (x0 ++ 0#4)) j = _
  simp only [BitVec.getLsbD_extractLsb', BitVec.getLsbD_append]
  grind

theorem sub_3_0_4 (x0 : BitVec 1) : BitVec.extractLsb' 0 4 (x0 ++ 0#4 : BitVec 5) = 0#4 := by
  ext j hj
  change BitVec.getLsbD (BitVec.extractLsb' (n := 1+4) 0 4 (x0 ++ 0#4)) j = _
  simp only [BitVec.getLsbD_extractLsb', BitVec.getLsbD_append]
  grind

theorem sub_4_4_1 (x0 : BitVec 1) : BitVec.extractLsb' 4 1 (x0 ++ 1#4 : BitVec 5) = x0 := by
  ext j hj
  change BitVec.getLsbD (BitVec.extractLsb' (n := 1+4) 4 1 (x0 ++ 1#4)) j = _
  simp only [BitVec.getLsbD_extractLsb', BitVec.getLsbD_append]
  grind

theorem sub_4_0_4 (x0 : BitVec 1) : BitVec.extractLsb' 0 4 (x0 ++ 1#4 : BitVec 5) = 1#4 := by
  ext j hj
  change BitVec.getLsbD (BitVec.extractLsb' (n := 1+4) 0 4 (x0 ++ 1#4)) j = _
  simp only [BitVec.getLsbD_extractLsb', BitVec.getLsbD_append]
  grind

theorem sub_5_4_1 (x0 : BitVec 1) : BitVec.extractLsb' 4 1 (x0 ++ 2#4 : BitVec 5) = x0 := by
  ext j hj
  change BitVec.getLsbD (BitVec.extractLsb' (n := 1+4) 4 1 (x0 ++ 2#4)) j = _
  simp only [BitVec.getLsbD_extractLsb', BitVec.getLsbD_append]
  grind

theorem sub_5_0_4 (x0 : BitVec 1) : BitVec.extractLsb' 0 4 (x0 ++ 2#4 : BitVec 5) = 2#4 := by
  ext j hj
  change BitVec.getLsbD (BitVec.extractLsb' (n := 1+4) 0 4 (x0 ++ 2#4)) j = _
  simp only [BitVec.getLsbD_extractLsb', BitVec.getLsbD_append]
  grind

theorem sub_6_4_1 (x0 : BitVec 1) : BitVec.extractLsb' 4 1 (x0 ++ 3#4 : BitVec 5) = x0 := by
  ext j hj
  change BitVec.getLsbD (BitVec.extractLsb' (n := 1+4) 4 1 (x0 ++ 3#4)) j = _
  simp only [BitVec.getLsbD_extractLsb', BitVec.getLsbD_append]
  grind

theorem sub_6_0_4 (x0 : BitVec 1) : BitVec.extractLsb' 0 4 (x0 ++ 3#4 : BitVec 5) = 3#4 := by
  ext j hj
  change BitVec.getLsbD (BitVec.extractLsb' (n := 1+4) 0 4 (x0 ++ 3#4)) j = _
  simp only [BitVec.getLsbD_extractLsb', BitVec.getLsbD_append]
  grind

theorem sub_7_4_1 (x0 : BitVec 1) : BitVec.extractLsb' 4 1 (x0 ++ 4#4 : BitVec 5) = x0 := by
  ext j hj
  change BitVec.getLsbD (BitVec.extractLsb' (n := 1+4) 4 1 (x0 ++ 4#4)) j = _
  simp only [BitVec.getLsbD_extractLsb', BitVec.getLsbD_append]
  grind

theorem sub_7_0_4 (x0 : BitVec 1) : BitVec.extractLsb' 0 4 (x0 ++ 4#4 : BitVec 5) = 4#4 := by
  ext j hj
  change BitVec.getLsbD (BitVec.extractLsb' (n := 1+4) 0 4 (x0 ++ 4#4)) j = _
  simp only [BitVec.getLsbD_extractLsb', BitVec.getLsbD_append]
  grind

theorem sub_8_4_1 (x0 : BitVec 1) : BitVec.extractLsb' 4 1 (x0 ++ 5#4 : BitVec 5) = x0 := by
  ext j hj
  change BitVec.getLsbD (BitVec.extractLsb' (n := 1+4) 4 1 (x0 ++ 5#4)) j = _
  simp only [BitVec.getLsbD_extractLsb', BitVec.getLsbD_append]
  grind

theorem sub_8_0_4 (x0 : BitVec 1) : BitVec.extractLsb' 0 4 (x0 ++ 5#4 : BitVec 5) = 5#4 := by
  ext j hj
  change BitVec.getLsbD (BitVec.extractLsb' (n := 1+4) 0 4 (x0 ++ 5#4)) j = _
  simp only [BitVec.getLsbD_extractLsb', BitVec.getLsbD_append]
  grind

theorem sub_9_5_1 (x1 : BitVec 5) : BitVec.extractLsb' 5 1 (0#1 ++ x1 : BitVec 6) = 0#1 := by
  ext j hj
  change BitVec.getLsbD (BitVec.extractLsb' (n := 1+5) 5 1 (0#1 ++ x1)) j = _
  simp only [BitVec.getLsbD_extractLsb', BitVec.getLsbD_append]
  grind

theorem sub_9_0_5 (x1 : BitVec 5) : BitVec.extractLsb' 0 5 (0#1 ++ x1 : BitVec 6) = x1 := by
  ext j hj
  change BitVec.getLsbD (BitVec.extractLsb' (n := 1+5) 0 5 (0#1 ++ x1)) j = _
  simp only [BitVec.getLsbD_extractLsb', BitVec.getLsbD_append]
  grind

theorem sub_10_5_1 (x0 : BitVec 1) (x1 : BitVec 5) : BitVec.extractLsb' 5 1 (x0 ++ x1 : BitVec 6) = x0 := by
  ext j hj
  change BitVec.getLsbD (BitVec.extractLsb' (n := 1+5) 5 1 (x0 ++ x1)) j = _
  simp only [BitVec.getLsbD_extractLsb', BitVec.getLsbD_append]
  grind

theorem sub_10_0_5 (x0 : BitVec 1) (x1 : BitVec 5) : BitVec.extractLsb' 0 5 (x0 ++ x1 : BitVec 6) = x1 := by
  ext j hj
  change BitVec.getLsbD (BitVec.extractLsb' (n := 1+5) 0 5 (x0 ++ x1)) j = _
  simp only [BitVec.getLsbD_extractLsb', BitVec.getLsbD_append]
  grind

theorem sub_11_4_1 (x0 : BitVec 1) (x1 : BitVec 1) (x2 : BitVec 3) : BitVec.extractLsb' 4 1 (x0 ++ x1 ++ x2 : BitVec 5) = x0 := by
  ext j hj
  change BitVec.getLsbD (BitVec.extractLsb' (n := 1+1+3) 4 1 (x0 ++ x1 ++ x2)) j = _
  simp only [BitVec.getLsbD_extractLsb', BitVec.getLsbD_append]
  grind

theorem sub_11_3_1 (x0 : BitVec 1) (x1 : BitVec 1) (x2 : BitVec 3) : BitVec.extractLsb' 3 1 (x0 ++ x1 ++ x2 : BitVec 5) = x1 := by
  ext j hj
  change BitVec.getLsbD (BitVec.extractLsb' (n := 1+1+3) 3 1 (x0 ++ x1 ++ x2)) j = _
  simp only [BitVec.getLsbD_extractLsb', BitVec.getLsbD_append]
  grind

theorem sub_11_0_3 (x0 : BitVec 1) (x1 : BitVec 1) (x2 : BitVec 3) : BitVec.extractLsb' 0 3 (x0 ++ x1 ++ x2 : BitVec 5) = x2 := by
  ext j hj
  change BitVec.getLsbD (BitVec.extractLsb' (n := 1+1+3) 0 3 (x0 ++ x1 ++ x2)) j = _
  simp only [BitVec.getLsbD_extractLsb', BitVec.getLsbD_append]
  grind

theorem sub_12_4_1 (x0 : BitVec 1) (x2 : BitVec 3) : BitVec.extractLsb' 4 1 (x0 ++ 0#1 ++ x2 : BitVec 5) = x0 := by
  ext j hj
  change BitVec.getLsbD (BitVec.extractLsb' (n := 1+1+3) 4 1 (x0 ++ 0#1 ++ x2)) j = _
  simp only [BitVec.getLsbD_extractLsb', BitVec.getLsbD_append]
  grind

theorem sub_12_3_1 (x0 : BitVec 1) (x2 : BitVec 3) : BitVec.extractLsb' 3 1 (x0 ++ 0#1 ++ x2 : BitVec 5) = 0#1 := by
  ext j hj
  change BitVec.getLsbD (BitVec.extractLsb' (n := 1+1+3) 3 1 (x0 ++ 0#1 ++ x2)) j = _
  simp only [BitVec.getLsbD_extractLsb', BitVec.getLsbD_append]
  grind

theorem sub_12_0_3 (x0 : BitVec 1) (x2 : BitVec 3) : BitVec.extractLsb' 0 3 (x0 ++ 0#1 ++ x2 : BitVec 5) = x2 := by
  ext j hj
  change BitVec.getLsbD (BitVec.extractLsb' (n := 1+1+3) 0 3 (x0 ++ 0#1 ++ x2)) j = _
  simp only [BitVec.getLsbD_extractLsb', BitVec.getLsbD_append]
  grind

theorem sub_13_4_1 (x1 : BitVec 1) (x2 : BitVec 3) : BitVec.extractLsb' 4 1 (0#1 ++ x1 ++ x2 : BitVec 5) = 0#1 := by
  ext j hj
  change BitVec.getLsbD (BitVec.extractLsb' (n := 1+1+3) 4 1 (0#1 ++ x1 ++ x2)) j = _
  simp only [BitVec.getLsbD_extractLsb', BitVec.getLsbD_append]
  grind

theorem sub_13_3_1 (x1 : BitVec 1) (x2 : BitVec 3) : BitVec.extractLsb' 3 1 (0#1 ++ x1 ++ x2 : BitVec 5) = x1 := by
  ext j hj
  change BitVec.getLsbD (BitVec.extractLsb' (n := 1+1+3) 3 1 (0#1 ++ x1 ++ x2)) j = _
  simp only [BitVec.getLsbD_extractLsb', BitVec.getLsbD_append]
  grind

theorem sub_13_0_3 (x1 : BitVec 1) (x2 : BitVec 3) : BitVec.extractLsb' 0 3 (0#1 ++ x1 ++ x2 : BitVec 5) = x2 := by
  ext j hj
  change BitVec.getLsbD (BitVec.extractLsb' (n := 1+1+3) 0 3 (0#1 ++ x1 ++ x2)) j = _
  simp only [BitVec.getLsbD_extractLsb', BitVec.getLsbD_append]
  grind

theorem sub_14_3_2 (x1 : BitVec 3) : BitVec.extractLsb' 3 2 (2#2 ++ x1 : BitVec 5) = 2#2 := by
  ext j hj
  change BitVec.getLsbD (BitVec.extractLsb' (n := 2+3) 3 2 (2#2 ++ x1)) j = _
  simp only [BitVec.getLsbD_extractLsb', BitVec.getLsbD_append]
  grind

theorem sub_14_3_1 (x1 : BitVec 3) : BitVec.extractLsb' 3 1 (2#2 ++ x1 : BitVec 5) = 0#1 := by
  ext j hj
  change BitVec.getLsbD (BitVec.extractLsb' (n := 2+3) 3 1 (2#2 ++ x1)) j = _
  simp only [BitVec.getLsbD_extractLsb', BitVec.getLsbD_append]
  grind

theorem sub_14_4_1 (x1 : BitVec 3) : BitVec.extractLsb' 4 1 (2#2 ++ x1 : BitVec 5) = 1#1 := by
  ext j hj
  change BitVec.getLsbD (BitVec.extractLsb' (n := 2+3) 4 1 (2#2 ++ x1)) j = _
  simp only [BitVec.getLsbD_extractLsb', BitVec.getLsbD_append]
  grind

theorem sub_14_0_3 (x1 : BitVec 3) : BitVec.extractLsb' 0 3 (2#2 ++ x1 : BitVec 5) = x1 := by
  ext j hj
  change BitVec.getLsbD (BitVec.extractLsb' (n := 2+3) 0 3 (2#2 ++ x1)) j = _
  simp only [BitVec.getLsbD_extractLsb', BitVec.getLsbD_append]
  grind

theorem sub_15_5_5 (x1 : BitVec 1) (x2 : BitVec 1) (x3 : BitVec 3) : BitVec.extractLsb' 5 5 (0#5 ++ x1 ++ x2 ++ x3 : BitVec 10) = 0#5 := by
  ext j hj
  change BitVec.getLsbD (BitVec.extractLsb' (n := 5+1+1+3) 5 5 (0#5 ++ x1 ++ x2 ++ x3)) j = _
  simp only [BitVec.getLsbD_extractLsb', BitVec.getLsbD_append]
  grind

theorem sub_15_4_1 (x1 : BitVec 1) (x2 : BitVec 1) (x3 : BitVec 3) : BitVec.extractLsb' 4 1 (0#5 ++ x1 ++ x2 ++ x3 : BitVec 10) = x1 := by
  ext j hj
  change BitVec.getLsbD (BitVec.extractLsb' (n := 5+1+1+3) 4 1 (0#5 ++ x1 ++ x2 ++ x3)) j = _
  simp only [BitVec.getLsbD_extractLsb', BitVec.getLsbD_append]
  grind

theorem sub_15_3_1 (x1 : BitVec 1) (x2 : BitVec 1) (x3 : BitVec 3) : BitVec.extractLsb' 3 1 (0#5 ++ x1 ++ x2 ++ x3 : BitVec 10) = x2 := by
  ext j hj
  change BitVec.getLsbD (BitVec.extractLsb' (n := 5+1+1+3) 3 1 (0#5 ++ x1 ++ x2 ++ x3)) j = _
  simp only [BitVec.getLsbD_extractLsb', BitVec.getLsbD_append]
  grind

theorem sub_15_0_3 (x1 : BitVec 1) (x2 : BitVec 1) (x3 : BitVec 3) : BitVec.extractLsb' 0 3 (0#5 ++ x1 ++ x2 ++ x3 : BitVec 10) = x3 := by
  ext j hj
  change BitVec.getLsbD (BitVec.extractLsb' (n := 5+1+1+3) 0 3 (0#5 ++ x1 ++ x2 ++ x3)) j = _
  simp only [BitVec.getLsbD_extractLsb', BitVec.getLsbD_append]
  grind

theorem sub_16_3_7 (x1 : BitVec 3) : BitVec.extractLsb' 3 7 (0#7 ++ x1 : BitVec 10) = 0#7 := by
  ext j hj
  change BitVec.getLsbD (BitVec.extractLsb' (n := 7+3) 3 7 (0#7 ++ x1)) j = _
  simp only [BitVec.getLsbD_extractLsb', BitVec.getLsbD_append]
  grind

theorem sub_16_0_3 (x1 : BitVec 3) : BitVec.extractLsb' 0 3 (0#7 ++ x1 : BitVec 10) = x1 := by
  ext j hj
  change BitVec.getLsbD (BitVec.extractLsb' (n := 7+3) 0 3 (0#7 ++ x1)) j = _
  simp only [BitVec.getLsbD_extractLsb', BitVec.getLsbD_append]
  grind

theorem sub_17_6_4 (x1 : BitVec 6) : BitVec.extractLsb' 6 4 (0#4 ++ x1 : BitVec 10) = 0#4 := by
  ext j hj
  change BitVec.getLsbD (BitVec.extractLsb' (n := 4+6) 6 4 (0#4 ++ x1)) j = _
  simp only [BitVec.getLsbD_extractLsb', BitVec.getLsbD_append]
  grind

theorem sub_17_0_6 (x1 : BitVec 6) : BitVec.extractLsb' 0 6 (0#4 ++ x1 : BitVec 10) = x1 := by
  ext j hj
  change BitVec.getLsbD (BitVec.extractLsb' (n := 4+6) 0 6 (0#4 ++ x1)) j = _
  simp only [BitVec.getLsbD_extractLsb', BitVec.getLsbD_append]
  grind

theorem sub_18_3_4 (x1 : BitVec 3) : BitVec.extractLsb' 3 4 (0#4 ++ x1 : BitVec 7) = 0#4 := by
  ext j hj
  change BitVec.getLsbD (BitVec.extractLsb' (n := 4+3) 3 4 (0#4 ++ x1)) j = _
  simp only [BitVec.getLsbD_extractLsb', BitVec.getLsbD_append]
  grind

theorem sub_18_0_3 (x1 : BitVec 3) : BitVec.extractLsb' 0 3 (0#4 ++ x1 : BitVec 7) = x1 := by
  ext j hj
  change BitVec.getLsbD (BitVec.extractLsb' (n := 4+3) 0 3 (0#4 ++ x1)) j = _
  simp only [BitVec.getLsbD_extractLsb', BitVec.getLsbD_append]
  grind

theorem sub_19_2_1 (x1 : BitVec 2) : BitVec.extractLsb' 2 1 (0#1 ++ x1 : BitVec 3) = 0#1 := by
  ext j hj
  change BitVec.getLsbD (BitVec.extractLsb' (n := 1+2) 2 1 (0#1 ++ x1)) j = _
  simp only [BitVec.getLsbD_extractLsb', BitVec.getLsbD_append]
  grind

theorem sub_19_0_2 (x1 : BitVec 2) : BitVec.extractLsb' 0 2 (0#1 ++ x1 : BitVec 3) = x1 := by
  ext j hj
  change BitVec.getLsbD (BitVec.extractLsb' (n := 1+2) 0 2 (0#1 ++ x1)) j = _
  simp only [BitVec.getLsbD_extractLsb', BitVec.getLsbD_append]
  grind

theorem sub_20_1_6 (x1 : BitVec 1) : BitVec.extractLsb' 1 6 (0#6 ++ x1 : BitVec 7) = 0#6 := by
  ext j hj
  change BitVec.getLsbD (BitVec.extractLsb' (n := 6+1) 1 6 (0#6 ++ x1)) j = _
  simp only [BitVec.getLsbD_extractLsb', BitVec.getLsbD_append]
  grind

theorem sub_20_0_1 (x1 : BitVec 1) : BitVec.extractLsb' 0 1 (0#6 ++ x1 : BitVec 7) = x1 := by
  ext j hj
  change BitVec.getLsbD (BitVec.extractLsb' (n := 6+1) 0 1 (0#6 ++ x1)) j = _
  simp only [BitVec.getLsbD_extractLsb', BitVec.getLsbD_append]
  grind

theorem sub_21_2_5 (x1 : BitVec 1) (x2 : BitVec 1) : BitVec.extractLsb' 2 5 (0#5 ++ x1 ++ x2 : BitVec 7) = 0#5 := by
  ext j hj
  change BitVec.getLsbD (BitVec.extractLsb' (n := 5+1+1) 2 5 (0#5 ++ x1 ++ x2)) j = _
  simp only [BitVec.getLsbD_extractLsb', BitVec.getLsbD_append]
  grind

theorem sub_21_1_1 (x1 : BitVec 1) (x2 : BitVec 1) : BitVec.extractLsb' 1 1 (0#5 ++ x1 ++ x2 : BitVec 7) = x1 := by
  ext j hj
  change BitVec.getLsbD (BitVec.extractLsb' (n := 5+1+1) 1 1 (0#5 ++ x1 ++ x2)) j = _
  simp only [BitVec.getLsbD_extractLsb', BitVec.getLsbD_append]
  grind

theorem sub_21_0_1 (x1 : BitVec 1) (x2 : BitVec 1) : BitVec.extractLsb' 0 1 (0#5 ++ x1 ++ x2 : BitVec 7) = x2 := by
  ext j hj
  change BitVec.getLsbD (BitVec.extractLsb' (n := 5+1+1) 0 1 (0#5 ++ x1 ++ x2)) j = _
  simp only [BitVec.getLsbD_extractLsb', BitVec.getLsbD_append]
  grind

theorem sub_22_6_1 (x0 : BitVec 1) (x1 : BitVec 3) (x2 : BitVec 3) : BitVec.extractLsb' 6 1 (x0 ++ x1 ++ x2 : BitVec 7) = x0 := by
  ext j hj
  change BitVec.getLsbD (BitVec.extractLsb' (n := 1+3+3) 6 1 (x0 ++ x1 ++ x2)) j = _
  simp only [BitVec.getLsbD_extractLsb', BitVec.getLsbD_append]
  grind

theorem sub_22_3_3 (x0 : BitVec 1) (x1 : BitVec 3) (x2 : BitVec 3) : BitVec.extractLsb' 3 3 (x0 ++ x1 ++ x2 : BitVec 7) = x1 := by
  ext j hj
  change BitVec.getLsbD (BitVec.extractLsb' (n := 1+3+3) 3 3 (x0 ++ x1 ++ x2)) j = _
  simp only [BitVec.getLsbD_extractLsb', BitVec.getLsbD_append]
  grind

theorem sub_22_0_3 (x0 : BitVec 1) (x1 : BitVec 3) (x2 : BitVec 3) : BitVec.extractLsb' 0 3 (x0 ++ x1 ++ x2 : BitVec 7) = x2 := by
  ext j hj
  change BitVec.getLsbD (BitVec.extractLsb' (n := 1+3+3) 0 3 (x0 ++ x1 ++ x2)) j = _
  simp only [BitVec.getLsbD_extractLsb', BitVec.getLsbD_append]
  grind

theorem sub_23_9_1 (x1 : BitVec 3) (x2 : BitVec 6) : BitVec.extractLsb' 9 1 (0#1 ++ x1 ++ x2 : BitVec 10) = 0#1 := by
  ext j hj
  change BitVec.getLsbD (BitVec.extractLsb' (n := 1+3+6) 9 1 (0#1 ++ x1 ++ x2)) j = _
  simp only [BitVec.getLsbD_extractLsb', BitVec.getLsbD_append]
  grind

theorem sub_23_6_3 (x1 : BitVec 3) (x2 : BitVec 6) : BitVec.extractLsb' 6 3 (0#1 ++ x1 ++ x2 : BitVec 10) = x1 := by
  ext j hj
  change BitVec.getLsbD (BitVec.extractLsb' (n := 1+3+6) 6 3 (0#1 ++ x1 ++ x2)) j = _
  simp only [BitVec.getLsbD_extractLsb', BitVec.getLsbD_append]
  grind

theorem sub_23_0_6 (x1 : BitVec 3) (x2 : BitVec 6) : BitVec.extractLsb' 0 6 (0#1 ++ x1 ++ x2 : BitVec 10) = x2 := by
  ext j hj
  change BitVec.getLsbD (BitVec.extractLsb' (n := 1+3+6) 0 6 (0#1 ++ x1 ++ x2)) j = _
  simp only [BitVec.getLsbD_extractLsb', BitVec.getLsbD_append]
  grind

theorem sub_24_4_6 (x1 : BitVec 1) (x2 : BitVec 3) : BitVec.extractLsb' 4 6 (0#6 ++ x1 ++ x2 : BitVec 10) = 0#6 := by
  ext j hj
  change BitVec.getLsbD (BitVec.extractLsb' (n := 6+1+3) 4 6 (0#6 ++ x1 ++ x2)) j = _
  simp only [BitVec.getLsbD_extractLsb', BitVec.getLsbD_append]
  grind

theorem sub_24_3_1 (x1 : BitVec 1) (x2 : BitVec 3) : BitVec.extractLsb' 3 1 (0#6 ++ x1 ++ x2 : BitVec 10) = x1 := by
  ext j hj
  change BitVec.getLsbD (BitVec.extractLsb' (n := 6+1+3) 3 1 (0#6 ++ x1 ++ x2)) j = _
  simp only [BitVec.getLsbD_extractLsb', BitVec.getLsbD_append]
  grind

theorem sub_24_0_3 (x1 : BitVec 1) (x2 : BitVec 3) : BitVec.extractLsb' 0 3 (0#6 ++ x1 ++ x2 : BitVec 10) = x2 := by
  ext j hj
  change BitVec.getLsbD (BitVec.extractLsb' (n := 6+1+3) 0 3 (0#6 ++ x1 ++ x2)) j = _
  simp only [BitVec.getLsbD_extractLsb', BitVec.getLsbD_append]
  grind

theorem sub_25_5_5 (x1 : BitVec 2) (x2 : BitVec 3) : BitVec.extractLsb' 5 5 (0#5 ++ x1 ++ x2 : BitVec 10) = 0#5 := by
  ext j hj
  change BitVec.getLsbD (BitVec.extractLsb' (n := 5+2+3) 5 5 (0#5 ++ x1 ++ x2)) j = _
  simp only [BitVec.getLsbD_extractLsb', BitVec.getLsbD_append]
  grind

theorem sub_25_3_2 (x1 : BitVec 2) (x2 : BitVec 3) : BitVec.extractLsb' 3 2 (0#5 ++ x1 ++ x2 : BitVec 10) = x1 := by
  ext j hj
  change BitVec.getLsbD (BitVec.extractLsb' (n := 5+2+3) 3 2 (0#5 ++ x1 ++ x2)) j = _
  simp only [BitVec.getLsbD_extractLsb', BitVec.getLsbD_append]
  grind

theorem sub_25_0_3 (x1 : BitVec 2) (x2 : BitVec 3) : BitVec.extractLsb' 0 3 (0#5 ++ x1 ++ x2 : BitVec 10) = x2 := by
  ext j hj
  change BitVec.getLsbD (BitVec.extractLsb' (n := 5+2+3) 0 3 (0#5 ++ x1 ++ x2)) j = _
  simp only [BitVec.getLsbD_extractLsb', BitVec.getLsbD_append]
  grind

theorem sub_26_5_5 (x1 : BitVec 1) (x2 : BitVec 4) : BitVec.extractLsb' 5 5 (0#5 ++ x1 ++ x2 : BitVec 10) = 0#5 := by
  ext j hj
  change BitVec.getLsbD (BitVec.extractLsb' (n := 5+1+4) 5 5 (0#5 ++ x1 ++ x2)) j = _
  simp only [BitVec.getLsbD_extractLsb', BitVec.getLsbD_append]
  grind

theorem sub_26_4_1 (x1 : BitVec 1) (x2 : BitVec 4) : BitVec.extractLsb' 4 1 (0#5 ++ x1 ++ x2 : BitVec 10) = x1 := by
  ext j hj
  change BitVec.getLsbD (BitVec.extractLsb' (n := 5+1+4) 4 1 (0#5 ++ x1 ++ x2)) j = _
  simp only [BitVec.getLsbD_extractLsb', BitVec.getLsbD_append]
  grind

theorem sub_26_0_4 (x1 : BitVec 1) (x2 : BitVec 4) : BitVec.extractLsb' 0 4 (0#5 ++ x1 ++ x2 : BitVec 10) = x2 := by
  ext j hj
  change BitVec.getLsbD (BitVec.extractLsb' (n := 5+1+4) 0 4 (0#5 ++ x1 ++ x2)) j = _
  simp only [BitVec.getLsbD_extractLsb', BitVec.getLsbD_append]
  grind

theorem sub_27_8_2 (x1 : BitVec 7) : BitVec.extractLsb' 8 2 (0#2 ++ x1 ++ 0#1 : BitVec 10) = 0#2 := by
  ext j hj
  change BitVec.getLsbD (BitVec.extractLsb' (n := 2+7+1) 8 2 (0#2 ++ x1 ++ 0#1)) j = _
  simp only [BitVec.getLsbD_extractLsb', BitVec.getLsbD_append]
  grind

theorem sub_27_8_1 (x1 : BitVec 7) : BitVec.extractLsb' 8 1 (0#2 ++ x1 ++ 0#1 : BitVec 10) = 0#1 := by
  ext j hj
  change BitVec.getLsbD (BitVec.extractLsb' (n := 2+7+1) 8 1 (0#2 ++ x1 ++ 0#1)) j = _
  simp only [BitVec.getLsbD_extractLsb', BitVec.getLsbD_append]
  grind

theorem sub_27_9_1 (x1 : BitVec 7) : BitVec.extractLsb' 9 1 (0#2 ++ x1 ++ 0#1 : BitVec 10) = 0#1 := by
  ext j hj
  change BitVec.getLsbD (BitVec.extractLsb' (n := 2+7+1) 9 1 (0#2 ++ x1 ++ 0#1)) j = _
  simp only [BitVec.getLsbD_extractLsb', BitVec.getLsbD_append]
  grind

theorem sub_27_1_7 (x1 : BitVec 7) : BitVec.extractLsb' 1 7 (0#2 ++ x1 ++ 0#1 : BitVec 10) = x1 := by
  ext j hj
  change BitVec.getLsbD (BitVec.extractLsb' (n := 2+7+1) 1 7 (0#2 ++ x1 ++ 0#1)) j = _
  simp only [BitVec.getLsbD_extractLsb', BitVec.getLsbD_append]
  grind

theorem sub_27_0_1 (x1 : BitVec 7) : BitVec.extractLsb' 0 1 (0#2 ++ x1 ++ 0#1 : BitVec 10) = 0#1 := by
  ext j hj
  change BitVec.getLsbD (BitVec.extractLsb' (n := 2+7+1) 0 1 (0#2 ++ x1 ++ 0#1)) j = _
  simp only [BitVec.getLsbD_extractLsb', BitVec.getLsbD_append]
  grind

theorem sub_28_8_2 (x1 : BitVec 7) : BitVec.extractLsb' 8 2 (1#2 ++ x1 ++ 0#1 : BitVec 10) = 1#2 := by
  ext j hj
  change BitVec.getLsbD (BitVec.extractLsb' (n := 2+7+1) 8 2 (1#2 ++ x1 ++ 0#1)) j = _
  simp only [BitVec.getLsbD_extractLsb', BitVec.getLsbD_append]
  grind

theorem sub_28_8_1 (x1 : BitVec 7) : BitVec.extractLsb' 8 1 (1#2 ++ x1 ++ 0#1 : BitVec 10) = 1#1 := by
  ext j hj
  change BitVec.getLsbD (BitVec.extractLsb' (n := 2+7+1) 8 1 (1#2 ++ x1 ++ 0#1)) j = _
  simp only [BitVec.getLsbD_extractLsb', BitVec.getLsbD_append]
  grind

theorem sub_28_9_1 (x1 : BitVec 7) : BitVec.extractLsb' 9 1 (1#2 ++ x1 ++ 0#1 : BitVec 10) = 0#1 := by
  ext j hj
  change BitVec.getLsbD (BitVec.extractLsb' (n := 2+7+1) 9 1 (1#2 ++ x1 ++ 0#1)) j = _
  simp only [BitVec.getLsbD_extractLsb', BitVec.getLsbD_append]
  grind

theorem sub_28_1_7 (x1 : BitVec 7) : BitVec.extractLsb' 1 7 (1#2 ++ x1 ++ 0#1 : BitVec 10) = x1 := by
  ext j hj
  change BitVec.getLsbD (BitVec.extractLsb' (n := 2+7+1) 1 7 (1#2 ++ x1 ++ 0#1)) j = _
  simp only [BitVec.getLsbD_extractLsb', BitVec.getLsbD_append]
  grind

theorem sub_28_0_1 (x1 : BitVec 7) : BitVec.extractLsb' 0 1 (1#2 ++ x1 ++ 0#1 : BitVec 10) = 0#1 := by
  ext j hj
  change BitVec.getLsbD (BitVec.extractLsb' (n := 2+7+1) 0 1 (1#2 ++ x1 ++ 0#1)) j = _
  simp only [BitVec.getLsbD_extractLsb', BitVec.getLsbD_append]
  grind

theorem sub_29_1_9 (x1 : BitVec 1) : BitVec.extractLsb' 1 9 (0#9 ++ x1 : BitVec 10) = 0#9 := by
  ext j hj
  change BitVec.getLsbD (BitVec.extractLsb' (n := 9+1) 1 9 (0#9 ++ x1)) j = _
  simp only [BitVec.getLsbD_extractLsb', BitVec.getLsbD_append]
  grind

theorem sub_29_0_1 (x1 : BitVec 1) : BitVec.extractLsb' 0 1 (0#9 ++ x1 : BitVec 10) = x1 := by
  ext j hj
  change BitVec.getLsbD (BitVec.extractLsb' (n := 9+1) 0 1 (0#9 ++ x1)) j = _
  simp only [BitVec.getLsbD_extractLsb', BitVec.getLsbD_append]
  grind

theorem sub_30_23_1 (x0 : BitVec 1) (x1 : BitVec 3) (x2 : BitVec 3) (x3 : BitVec 1) (x4 : BitVec 2) : BitVec.extractLsb' 23 1 (x0 ++ x1 ++ x2 ++ x3 ++ x4 ++ 0#14 : BitVec 24) = x0 := by
  ext j hj
  change BitVec.getLsbD (BitVec.extractLsb' (n := 1+3+3+1+2+14) 23 1 (x0 ++ x1 ++ x2 ++ x3 ++ x4 ++ 0#14)) j = _
  simp only [BitVec.getLsbD_extractLsb', BitVec.getLsbD_append]
  grind

theorem sub_30_20_3 (x0 : BitVec 1) (x1 : BitVec 3) (x2 : BitVec 3) (x3 : BitVec 1) (x4 : BitVec 2) : BitVec.extractLsb' 20 3 (x0 ++ x1 ++ x2 ++ x3 ++ x4 ++ 0#14 : BitVec 24) = x1 := by
  ext j hj
  change BitVec.getLsbD (BitVec.extractLsb' (n := 1+3+3+1+2+14) 20 3 (x0 ++ x1 ++ x2 ++ x3 ++ x4 ++ 0#14)) j = _
  simp only [BitVec.getLsbD_extractLsb', BitVec.getLsbD_append]
  grind

theorem sub_30_17_3 (x0 : BitVec 1) (x1 : BitVec 3) (x2 : BitVec 3) (x3 : BitVec 1) (x4 : BitVec 2) : BitVec.extractLsb' 17 3 (x0 ++ x1 ++ x2 ++ x3 ++ x4 ++ 0#14 : BitVec 24) = x2 := by
  ext j hj
  change BitVec.getLsbD (BitVec.extractLsb' (n := 1+3+3+1+2+14) 17 3 (x0 ++ x1 ++ x2 ++ x3 ++ x4 ++ 0#14)) j = _
  simp only [BitVec.getLsbD_extractLsb', BitVec.getLsbD_append]
  grind

theorem sub_30_16_1 (x0 : BitVec 1) (x1 : BitVec 3) (x2 : BitVec 3) (x3 : BitVec 1) (x4 : BitVec 2) : BitVec.extractLsb' 16 1 (x0 ++ x1 ++ x2 ++ x3 ++ x4 ++ 0#14 : BitVec 24) = x3 := by
  ext j hj
  change BitVec.getLsbD (BitVec.extractLsb' (n := 1+3+3+1+2+14) 16 1 (x0 ++ x1 ++ x2 ++ x3 ++ x4 ++ 0#14)) j = _
  simp only [BitVec.getLsbD_extractLsb', BitVec.getLsbD_append]
  grind

theorem sub_30_14_2 (x0 : BitVec 1) (x1 : BitVec 3) (x2 : BitVec 3) (x3 : BitVec 1) (x4 : BitVec 2) : BitVec.extractLsb' 14 2 (x0 ++ x1 ++ x2 ++ x3 ++ x4 ++ 0#14 : BitVec 24) = x4 := by
  ext j hj
  change BitVec.getLsbD (BitVec.extractLsb' (n := 1+3+3+1+2+14) 14 2 (x0 ++ x1 ++ x2 ++ x3 ++ x4 ++ 0#14)) j = _
  simp only [BitVec.getLsbD_extractLsb', BitVec.getLsbD_append]
  grind

theorem sub_30_0_14 (x0 : BitVec 1) (x1 : BitVec 3) (x2 : BitVec 3) (x3 : BitVec 1) (x4 : BitVec 2) : BitVec.extractLsb' 0 14 (x0 ++ x1 ++ x2 ++ x3 ++ x4 ++ 0#14 : BitVec 24) = 0#14 := by
  ext j hj
  change BitVec.getLsbD (BitVec.extractLsb' (n := 1+3+3+1+2+14) 0 14 (x0 ++ x1 ++ x2 ++ x3 ++ x4 ++ 0#14)) j = _
  simp only [BitVec.getLsbD_extractLsb', BitVec.getLsbD_append]
  grind

theorem sub_31_4_20 (x1 : BitVec 2) (x2 : BitVec 1) (x3 : BitVec 1) : BitVec.extractLsb' 4 20 (0#20 ++ x1 ++ x2 ++ x3 : BitVec 24) = 0#20 := by
  ext j hj
  change BitVec.getLsbD (BitVec.extractLsb' (n := 20+2+1+1) 4 20 (0#20 ++ x1 ++ x2 ++ x3)) j = _
  simp only [BitVec.getLsbD_extractLsb', BitVec.getLsbD_append]
  grind

theorem sub_31_2_2 (x1 : BitVec 2) (x2 : BitVec 1) (x3 : BitVec 1) : BitVec.extractLsb' 2 2 (0#20 ++ x1 ++ x2 ++ x3 : BitVec 24) = x1 := by
  ext j hj
  change BitVec.getLsbD (BitVec.extractLsb' (n := 20+2+1+1) 2 2 (0#20 ++ x1 ++ x2 ++ x3)) j = _
  simp only [BitVec.getLsbD_extractLsb', BitVec.getLsbD_append]
  grind

theorem sub_31_1_1 (x1 : BitVec 2) (x2 : BitVec 1) (x3 : BitVec 1) : BitVec.extractLsb' 1 1 (0#20 ++ x1 ++ x2 ++ x3 : BitVec 24) = x2 := by
  ext j hj
  change BitVec.getLsbD (BitVec.extractLsb' (n := 20+2+1+1) 1 1 (0#20 ++ x1 ++ x2 ++ x3)) j = _
  simp only [BitVec.getLsbD_extractLsb', BitVec.getLsbD_append]
  grind

theorem sub_31_0_1 (x1 : BitVec 2) (x2 : BitVec 1) (x3 : BitVec 1) : BitVec.extractLsb' 0 1 (0#20 ++ x1 ++ x2 ++ x3 : BitVec 24) = x3 := by
  ext j hj
  change BitVec.getLsbD (BitVec.extractLsb' (n := 20+2+1+1) 0 1 (0#20 ++ x1 ++ x2 ++ x3)) j = _
  simp only [BitVec.getLsbD_extractLsb', BitVec.getLsbD_append]
  grind

namespace Laws.RoundTrip

/-- Decoding the word of a well-formed instruction gives the instruction (a step of the hardware has no word). -/
def Statement (i : Instr) : Prop := i.wellFormed = true → ∀ w, encode i = some w → decodeWord w = .ok i

theorem bra (g : BitVec 3) (off : BitVec 20) : Statement (.bra g off) := by
  rintro hw _ ⟨⟩
  simp only [Instr.wellFormed, Bool.and_eq_true, Bool.not_eq_true'] at hw
  simp [decodeWord, decode00, major_formC, guardC_formC, fnC_formC, offC_formC, verdict, hw.1, hw.2]

theorem br (g : BitVec 3) (off : BitVec 20) : Statement (.br g off) := by
  rintro hw _ ⟨⟩
  simp only [Instr.wellFormed, Bool.and_eq_true, Bool.not_eq_true'] at hw
  simp [decodeWord, decode00, major_formC, guardC_formC, fnC_formC, offC_formC, verdict, hw.1, hw.2]

theorem brany (g : BitVec 3) (off : BitVec 20) : Statement (.brany g off) := by
  rintro hw _ ⟨⟩
  simp only [Instr.wellFormed, Bool.and_eq_true, Bool.not_eq_true'] at hw
  simp [decodeWord, decode00, major_formC, guardC_formC, fnC_formC, offC_formC, verdict, hw.1, hw.2]

theorem brall (g : BitVec 3) (off : BitVec 20) : Statement (.brall g off) := by
  rintro hw _ ⟨⟩
  simp only [Instr.wellFormed, Bool.and_eq_true, Bool.not_eq_true'] at hw
  simp [decodeWord, decode00, major_formC, guardC_formC, fnC_formC, offC_formC, verdict, hw.1, hw.2]

theorem call (g : BitVec 3) (off : BitVec 20) : Statement (.call g off) := by
  rintro hw _ ⟨⟩
  simp only [Instr.wellFormed, Bool.and_eq_true, Bool.not_eq_true'] at hw
  simp [decodeWord, decode00, major_formC, guardC_formC, fnC_formC, offC_formC, verdict, hw.1, hw.2]

theorem ret (g : BitVec 3) : Statement (.ret g) := by
  rintro hw _ ⟨⟩
  simp only [Instr.wellFormed, Bool.and_eq_true, Bool.not_eq_true'] at hw
  simp [decodeWord, decode01, major_formA, fieldD_formA, fieldA_formA, fieldB_formA, guardA_formA, fnA_formA, verdict, hw.1, hw.2]

theorem jmpr (a : Reg) (g : BitVec 3) : Statement (.jmpr a g) := by
  rintro hw _ ⟨⟩
  simp only [Instr.wellFormed, Bool.and_eq_true, Bool.not_eq_true'] at hw
  simp [decodeWord, decode01, major_formA, fieldD_formA, fieldA_formA, fieldB_formA, guardA_formA, fnA_formA, verdict, hw.1, hw.2]

theorem callr (a : Reg) (g : BitVec 3) : Statement (.callr a g) := by
  rintro hw _ ⟨⟩
  simp only [Instr.wellFormed, Bool.and_eq_true, Bool.not_eq_true'] at hw
  simp [decodeWord, decode01, major_formA, fieldD_formA, fieldA_formA, fieldB_formA, guardA_formA, fnA_formA, verdict, hw.1, hw.2]

theorem join : Statement .join := by
  rintro hw _ ⟨⟩
  simp only [Instr.wellFormed, Bool.and_eq_true, Bool.not_eq_true'] at hw
  simp [decodeWord, decode01, major_formA, fieldD_formA, fieldA_formA, fieldB_formA, guardA_formA, fnA_formA, verdict, hw.1, hw.2]

theorem exit (g : BitVec 3) : Statement (.exit g) := by
  rintro hw _ ⟨⟩
  simp only [Instr.wellFormed, Bool.and_eq_true, Bool.not_eq_true'] at hw
  simp [decodeWord, decode01, major_formA, fieldD_formA, fieldA_formA, fieldB_formA, guardA_formA, fnA_formA, verdict, hw.1, hw.2]

theorem clasp : Statement .clasp := by
  rintro hw _ ⟨⟩
  simp only [Instr.wellFormed, Bool.and_eq_true, Bool.not_eq_true'] at hw
  simp [decodeWord, decode01, major_formA, fieldD_formA, fieldA_formA, fieldB_formA, guardA_formA, fnA_formA, verdict, hw.1, hw.2]

theorem yield : Statement .yield := by
  rintro hw _ ⟨⟩
  simp only [Instr.wellFormed, Bool.and_eq_true, Bool.not_eq_true'] at hw
  simp [decodeWord, decode01, major_formA, fieldD_formA, fieldA_formA, fieldB_formA, guardA_formA, fnA_formA, verdict, hw.1, hw.2]

theorem nop : Statement .nop := by
  rintro hw _ ⟨⟩
  simp only [Instr.wellFormed, Bool.and_eq_true, Bool.not_eq_true'] at hw
  simp [decodeWord, decode01, major_formA, fieldD_formA, fieldA_formA, fieldB_formA, guardA_formA, fnA_formA, verdict, hw.1, hw.2]

theorem sadd (d : Reg) (a : Reg) (b : Reg) (g : BitVec 3) : Statement (.sadd d a b g) := by
  rintro hw _ ⟨⟩
  simp only [Instr.wellFormed, Bool.and_eq_true, Bool.not_eq_true'] at hw
  simp [decodeWord, decode02, major_formA, fieldD_formA, fieldA_formA, fieldB_formA, guardA_formA, fnA_formA, verdict, hw.1, hw.2]

theorem ssub (d : Reg) (a : Reg) (b : Reg) (g : BitVec 3) : Statement (.ssub d a b g) := by
  rintro hw _ ⟨⟩
  simp only [Instr.wellFormed, Bool.and_eq_true, Bool.not_eq_true'] at hw
  simp [decodeWord, decode02, major_formA, fieldD_formA, fieldA_formA, fieldB_formA, guardA_formA, fnA_formA, verdict, hw.1, hw.2]

theorem smul (d : Reg) (a : Reg) (b : Reg) (g : BitVec 3) : Statement (.smul d a b g) := by
  rintro hw _ ⟨⟩
  simp only [Instr.wellFormed, Bool.and_eq_true, Bool.not_eq_true'] at hw
  simp [decodeWord, decode02, major_formA, fieldD_formA, fieldA_formA, fieldB_formA, guardA_formA, fnA_formA, verdict, hw.1, hw.2]

theorem smulh (d : Reg) (a : Reg) (b : Reg) (g : BitVec 3) : Statement (.smulh d a b g) := by
  rintro hw _ ⟨⟩
  simp only [Instr.wellFormed, Bool.and_eq_true, Bool.not_eq_true'] at hw
  simp [decodeWord, decode02, major_formA, fieldD_formA, fieldA_formA, fieldB_formA, guardA_formA, fnA_formA, verdict, hw.1, hw.2]

theorem smulhn (d : Reg) (a : Reg) (b : Reg) (g : BitVec 3) : Statement (.smulhn d a b g) := by
  rintro hw _ ⟨⟩
  simp only [Instr.wellFormed, Bool.and_eq_true, Bool.not_eq_true'] at hw
  simp [decodeWord, decode02, major_formA, fieldD_formA, fieldA_formA, fieldB_formA, guardA_formA, fnA_formA, verdict, hw.1, hw.2]

theorem sdiv (d : Reg) (a : Reg) (b : Reg) (g : BitVec 3) : Statement (.sdiv d a b g) := by
  rintro hw _ ⟨⟩
  simp only [Instr.wellFormed, Bool.and_eq_true, Bool.not_eq_true'] at hw
  simp [decodeWord, decode02, major_formA, fieldD_formA, fieldA_formA, fieldB_formA, guardA_formA, fnA_formA, verdict, hw.1, hw.2]

theorem sdivn (d : Reg) (a : Reg) (b : Reg) (g : BitVec 3) : Statement (.sdivn d a b g) := by
  rintro hw _ ⟨⟩
  simp only [Instr.wellFormed, Bool.and_eq_true, Bool.not_eq_true'] at hw
  simp [decodeWord, decode02, major_formA, fieldD_formA, fieldA_formA, fieldB_formA, guardA_formA, fnA_formA, verdict, hw.1, hw.2]

theorem srem (d : Reg) (a : Reg) (b : Reg) (g : BitVec 3) : Statement (.srem d a b g) := by
  rintro hw _ ⟨⟩
  simp only [Instr.wellFormed, Bool.and_eq_true, Bool.not_eq_true'] at hw
  simp [decodeWord, decode02, major_formA, fieldD_formA, fieldA_formA, fieldB_formA, guardA_formA, fnA_formA, verdict, hw.1, hw.2]

theorem sremn (d : Reg) (a : Reg) (b : Reg) (g : BitVec 3) : Statement (.sremn d a b g) := by
  rintro hw _ ⟨⟩
  simp only [Instr.wellFormed, Bool.and_eq_true, Bool.not_eq_true'] at hw
  simp [decodeWord, decode02, major_formA, fieldD_formA, fieldA_formA, fieldB_formA, guardA_formA, fnA_formA, verdict, hw.1, hw.2]

theorem sand (d : Reg) (a : Reg) (b : Reg) (g : BitVec 3) : Statement (.sand d a b g) := by
  rintro hw _ ⟨⟩
  simp only [Instr.wellFormed, Bool.and_eq_true, Bool.not_eq_true'] at hw
  simp [decodeWord, decode02, major_formA, fieldD_formA, fieldA_formA, fieldB_formA, guardA_formA, fnA_formA, verdict, hw.1, hw.2]

theorem sor (d : Reg) (a : Reg) (b : Reg) (g : BitVec 3) : Statement (.sor d a b g) := by
  rintro hw _ ⟨⟩
  simp only [Instr.wellFormed, Bool.and_eq_true, Bool.not_eq_true'] at hw
  simp [decodeWord, decode02, major_formA, fieldD_formA, fieldA_formA, fieldB_formA, guardA_formA, fnA_formA, verdict, hw.1, hw.2]

theorem sxor (d : Reg) (a : Reg) (b : Reg) (g : BitVec 3) : Statement (.sxor d a b g) := by
  rintro hw _ ⟨⟩
  simp only [Instr.wellFormed, Bool.and_eq_true, Bool.not_eq_true'] at hw
  simp [decodeWord, decode02, major_formA, fieldD_formA, fieldA_formA, fieldB_formA, guardA_formA, fnA_formA, verdict, hw.1, hw.2]

theorem sshl (d : Reg) (a : Reg) (b : Reg) (g : BitVec 3) : Statement (.sshl d a b g) := by
  rintro hw _ ⟨⟩
  simp only [Instr.wellFormed, Bool.and_eq_true, Bool.not_eq_true'] at hw
  simp [decodeWord, decode02, major_formA, fieldD_formA, fieldA_formA, fieldB_formA, guardA_formA, fnA_formA, verdict, hw.1, hw.2]

theorem sshr (d : Reg) (a : Reg) (b : Reg) (g : BitVec 3) : Statement (.sshr d a b g) := by
  rintro hw _ ⟨⟩
  simp only [Instr.wellFormed, Bool.and_eq_true, Bool.not_eq_true'] at hw
  simp [decodeWord, decode02, major_formA, fieldD_formA, fieldA_formA, fieldB_formA, guardA_formA, fnA_formA, verdict, hw.1, hw.2]

theorem ssra (d : Reg) (a : Reg) (b : Reg) (g : BitVec 3) : Statement (.ssra d a b g) := by
  rintro hw _ ⟨⟩
  simp only [Instr.wellFormed, Bool.and_eq_true, Bool.not_eq_true'] at hw
  simp [decodeWord, decode02, major_formA, fieldD_formA, fieldA_formA, fieldB_formA, guardA_formA, fnA_formA, verdict, hw.1, hw.2]

theorem smin (d : Reg) (a : Reg) (b : Reg) (g : BitVec 3) : Statement (.smin d a b g) := by
  rintro hw _ ⟨⟩
  simp only [Instr.wellFormed, Bool.and_eq_true, Bool.not_eq_true'] at hw
  simp [decodeWord, decode02, major_formA, fieldD_formA, fieldA_formA, fieldB_formA, guardA_formA, fnA_formA, verdict, hw.1, hw.2]

theorem smax (d : Reg) (a : Reg) (b : Reg) (g : BitVec 3) : Statement (.smax d a b g) := by
  rintro hw _ ⟨⟩
  simp only [Instr.wellFormed, Bool.and_eq_true, Bool.not_eq_true'] at hw
  simp [decodeWord, decode02, major_formA, fieldD_formA, fieldA_formA, fieldB_formA, guardA_formA, fnA_formA, verdict, hw.1, hw.2]

theorem sminn (d : Reg) (a : Reg) (b : Reg) (g : BitVec 3) : Statement (.sminn d a b g) := by
  rintro hw _ ⟨⟩
  simp only [Instr.wellFormed, Bool.and_eq_true, Bool.not_eq_true'] at hw
  simp [decodeWord, decode02, major_formA, fieldD_formA, fieldA_formA, fieldB_formA, guardA_formA, fnA_formA, verdict, hw.1, hw.2]

theorem smaxn (d : Reg) (a : Reg) (b : Reg) (g : BitVec 3) : Statement (.smaxn d a b g) := by
  rintro hw _ ⟨⟩
  simp only [Instr.wellFormed, Bool.and_eq_true, Bool.not_eq_true'] at hw
  simp [decodeWord, decode02, major_formA, fieldD_formA, fieldA_formA, fieldB_formA, guardA_formA, fnA_formA, verdict, hw.1, hw.2]

theorem sseq (d : Reg) (a : Reg) (b : Reg) (g : BitVec 3) : Statement (.sseq d a b g) := by
  rintro hw _ ⟨⟩
  simp only [Instr.wellFormed, Bool.and_eq_true, Bool.not_eq_true'] at hw
  simp [decodeWord, decode02, major_formA, fieldD_formA, fieldA_formA, fieldB_formA, guardA_formA, fnA_formA, verdict, hw.1, hw.2]

theorem sslt (d : Reg) (a : Reg) (b : Reg) (g : BitVec 3) : Statement (.sslt d a b g) := by
  rintro hw _ ⟨⟩
  simp only [Instr.wellFormed, Bool.and_eq_true, Bool.not_eq_true'] at hw
  simp [decodeWord, decode02, major_formA, fieldD_formA, fieldA_formA, fieldB_formA, guardA_formA, fnA_formA, verdict, hw.1, hw.2]

theorem ssltn (d : Reg) (a : Reg) (b : Reg) (g : BitVec 3) : Statement (.ssltn d a b g) := by
  rintro hw _ ⟨⟩
  simp only [Instr.wellFormed, Bool.and_eq_true, Bool.not_eq_true'] at hw
  simp [decodeWord, decode02, major_formA, fieldD_formA, fieldA_formA, fieldB_formA, guardA_formA, fnA_formA, verdict, hw.1, hw.2]

theorem ssel (d : Reg) (a : Reg) (b : Reg) (g : BitVec 3) : Statement (.ssel d a b g) := by
  rintro hw _ ⟨⟩
  simp only [Instr.wellFormed, Bool.and_eq_true, Bool.not_eq_true'] at hw
  simp [decodeWord, decode02, major_formA, fieldD_formA, fieldA_formA, fieldB_formA, guardA_formA, fnA_formA, verdict, hw.1, hw.2]

theorem saddi (d : Reg) (a : Reg) (g : BitVec 3) (imm : BitVec 8) : Statement (.saddi d a g imm) := by
  rintro hw _ ⟨⟩
  simp only [Instr.wellFormed, Bool.and_eq_true, Bool.not_eq_true'] at hw
  simp [decodeWord, decode03, major_formB, fieldD_formB, fieldA_formB, guardB_formB, fnB_formB, imm8_formB, verdict, hw.1, hw.2]

theorem sandi (d : Reg) (a : Reg) (g : BitVec 3) (imm : BitVec 8) : Statement (.sandi d a g imm) := by
  rintro hw _ ⟨⟩
  simp only [Instr.wellFormed, Bool.and_eq_true, Bool.not_eq_true'] at hw
  simp [decodeWord, decode03, major_formB, fieldD_formB, fieldA_formB, guardB_formB, fnB_formB, imm8_formB, verdict, hw.1, hw.2]

theorem sori (d : Reg) (a : Reg) (g : BitVec 3) (imm : BitVec 8) : Statement (.sori d a g imm) := by
  rintro hw _ ⟨⟩
  simp only [Instr.wellFormed, Bool.and_eq_true, Bool.not_eq_true'] at hw
  simp [decodeWord, decode03, major_formB, fieldD_formB, fieldA_formB, guardB_formB, fnB_formB, imm8_formB, verdict, hw.1, hw.2]

theorem sxori (d : Reg) (a : Reg) (g : BitVec 3) (imm : BitVec 8) : Statement (.sxori d a g imm) := by
  rintro hw _ ⟨⟩
  simp only [Instr.wellFormed, Bool.and_eq_true, Bool.not_eq_true'] at hw
  simp [decodeWord, decode03, major_formB, fieldD_formB, fieldA_formB, guardB_formB, fnB_formB, imm8_formB, verdict, hw.1, hw.2]

theorem sshli (d : Reg) (a : Reg) (g : BitVec 3) (imm : BitVec 8) : Statement (.sshli d a g imm) := by
  rintro hw _ ⟨⟩
  simp only [Instr.wellFormed, Bool.and_eq_true, Bool.not_eq_true'] at hw
  simp [decodeWord, decode03, major_formB, fieldD_formB, fieldA_formB, guardB_formB, fnB_formB, imm8_formB, verdict, hw.1, hw.2]

theorem sshri (d : Reg) (a : Reg) (g : BitVec 3) (imm : BitVec 8) : Statement (.sshri d a g imm) := by
  rintro hw _ ⟨⟩
  simp only [Instr.wellFormed, Bool.and_eq_true, Bool.not_eq_true'] at hw
  simp [decodeWord, decode03, major_formB, fieldD_formB, fieldA_formB, guardB_formB, fnB_formB, imm8_formB, verdict, hw.1, hw.2]

theorem ssrai (d : Reg) (a : Reg) (g : BitVec 3) (imm : BitVec 8) : Statement (.ssrai d a g imm) := by
  rintro hw _ ⟨⟩
  simp only [Instr.wellFormed, Bool.and_eq_true, Bool.not_eq_true'] at hw
  simp [decodeWord, decode03, major_formB, fieldD_formB, fieldA_formB, guardB_formB, fnB_formB, imm8_formB, verdict, hw.1, hw.2]

theorem sli (d : Reg) (g : BitVec 3) (imm : BitVec 8) : Statement (.sli d g imm) := by
  rintro hw _ ⟨⟩
  simp only [Instr.wellFormed, Bool.and_eq_true, Bool.not_eq_true'] at hw
  simp [decodeWord, decode03, major_formB, fieldD_formB, fieldA_formB, guardB_formB, fnB_formB, imm8_formB, verdict, hw.1, hw.2]

theorem srd (d : Reg) (code : BitVec 10) : Statement (.srd d code) := by
  rintro hw _ ⟨⟩
  simp only [Instr.wellFormed, Bool.and_eq_true, Bool.not_eq_true'] at hw
  simp [decodeWord, decode04, major_formS, fieldD_formS, fieldA_formS, code10_formS, fnS_formS, verdict, hw.1, hw.2]

theorem swr (a : Reg) (code : BitVec 10) : Statement (.swr a code) := by
  rintro hw _ ⟨⟩
  simp only [Instr.wellFormed, Bool.and_eq_true, Bool.not_eq_true'] at hw
  simp [decodeWord, decode04, major_formS, fieldD_formS, fieldA_formS, code10_formS, fnS_formS, verdict, hw.1, hw.2]

theorem vmovs (d : Reg) (a : Reg) (pair : BitVec 1) (hi : BitVec 1) : Statement (.vmovs d a pair hi) := by
  rintro hw _ ⟨⟩
  simp only [Instr.wellFormed, Bool.and_eq_true, Bool.not_eq_true'] at hw
  simp [decodeWord, decode04, major_formS, fieldD_formS, fieldA_formS, code10_formS, fnS_formS, sub_0_2_8, sub_0_1_1, sub_0_0_1, verdict, hw.1, hw.2]

theorem smovv (d : Reg) (a : Reg) (pair : BitVec 1) (sx : BitVec 1) (low : BitVec 1) (k : BitVec 2) : Statement (.smovv d a pair sx low k) := by
  rintro hw _ ⟨⟩
  simp only [Instr.wellFormed, Bool.and_eq_true, Bool.not_eq_true'] at hw
  simp [decodeWord, decode04, major_formS, fieldD_formS, fieldA_formS, code10_formS, fnS_formS, sub_1_5_5, sub_1_4_1, sub_1_3_1, sub_1_2_1, sub_1_0_2, verdict, hw.1, hw.2]

theorem sfmt (a : Reg) : Statement (.sfmt a) := by
  rintro hw _ ⟨⟩
  simp only [Instr.wellFormed, Bool.and_eq_true, Bool.not_eq_true'] at hw
  simp [decodeWord, decode04, major_formS, fieldD_formS, fieldA_formS, code10_formS, fnS_formS, verdict, hw.1, hw.2]

theorem vadd (d : Reg) (a : Reg) (b : Reg) (g : BitVec 3) : Statement (.vadd d a b g) := by
  rintro hw _ ⟨⟩
  simp only [Instr.wellFormed, Bool.and_eq_true, Bool.not_eq_true'] at hw
  simp [decodeWord, decode06, major_formA, fieldD_formA, fieldA_formA, fieldB_formA, guardA_formA, fnA_formA, verdict, hw.1, hw.2]

theorem vsub (d : Reg) (a : Reg) (b : Reg) (g : BitVec 3) : Statement (.vsub d a b g) := by
  rintro hw _ ⟨⟩
  simp only [Instr.wellFormed, Bool.and_eq_true, Bool.not_eq_true'] at hw
  simp [decodeWord, decode06, major_formA, fieldD_formA, fieldA_formA, fieldB_formA, guardA_formA, fnA_formA, verdict, hw.1, hw.2]

theorem vmul (d : Reg) (a : Reg) (b : Reg) (g : BitVec 3) : Statement (.vmul d a b g) := by
  rintro hw _ ⟨⟩
  simp only [Instr.wellFormed, Bool.and_eq_true, Bool.not_eq_true'] at hw
  simp [decodeWord, decode06, major_formA, fieldD_formA, fieldA_formA, fieldB_formA, guardA_formA, fnA_formA, verdict, hw.1, hw.2]

theorem vmulh (d : Reg) (a : Reg) (b : Reg) (g : BitVec 3) : Statement (.vmulh d a b g) := by
  rintro hw _ ⟨⟩
  simp only [Instr.wellFormed, Bool.and_eq_true, Bool.not_eq_true'] at hw
  simp [decodeWord, decode06, major_formA, fieldD_formA, fieldA_formA, fieldB_formA, guardA_formA, fnA_formA, verdict, hw.1, hw.2]

theorem vmulhn (d : Reg) (a : Reg) (b : Reg) (g : BitVec 3) : Statement (.vmulhn d a b g) := by
  rintro hw _ ⟨⟩
  simp only [Instr.wellFormed, Bool.and_eq_true, Bool.not_eq_true'] at hw
  simp [decodeWord, decode06, major_formA, fieldD_formA, fieldA_formA, fieldB_formA, guardA_formA, fnA_formA, verdict, hw.1, hw.2]

theorem vmad (d : Reg) (a : Reg) (b : Reg) (g : BitVec 3) : Statement (.vmad d a b g) := by
  rintro hw _ ⟨⟩
  simp only [Instr.wellFormed, Bool.and_eq_true, Bool.not_eq_true'] at hw
  simp [decodeWord, decode06, major_formA, fieldD_formA, fieldA_formA, fieldB_formA, guardA_formA, fnA_formA, verdict, hw.1, hw.2]

theorem vand (d : Reg) (a : Reg) (b : Reg) (g : BitVec 3) : Statement (.vand d a b g) := by
  rintro hw _ ⟨⟩
  simp only [Instr.wellFormed, Bool.and_eq_true, Bool.not_eq_true'] at hw
  simp [decodeWord, decode06, major_formA, fieldD_formA, fieldA_formA, fieldB_formA, guardA_formA, fnA_formA, verdict, hw.1, hw.2]

theorem vor (d : Reg) (a : Reg) (b : Reg) (g : BitVec 3) : Statement (.vor d a b g) := by
  rintro hw _ ⟨⟩
  simp only [Instr.wellFormed, Bool.and_eq_true, Bool.not_eq_true'] at hw
  simp [decodeWord, decode06, major_formA, fieldD_formA, fieldA_formA, fieldB_formA, guardA_formA, fnA_formA, verdict, hw.1, hw.2]

theorem vxor (d : Reg) (a : Reg) (b : Reg) (g : BitVec 3) : Statement (.vxor d a b g) := by
  rintro hw _ ⟨⟩
  simp only [Instr.wellFormed, Bool.and_eq_true, Bool.not_eq_true'] at hw
  simp [decodeWord, decode06, major_formA, fieldD_formA, fieldA_formA, fieldB_formA, guardA_formA, fnA_formA, verdict, hw.1, hw.2]

theorem vandn (d : Reg) (a : Reg) (b : Reg) (g : BitVec 3) : Statement (.vandn d a b g) := by
  rintro hw _ ⟨⟩
  simp only [Instr.wellFormed, Bool.and_eq_true, Bool.not_eq_true'] at hw
  simp [decodeWord, decode06, major_formA, fieldD_formA, fieldA_formA, fieldB_formA, guardA_formA, fnA_formA, verdict, hw.1, hw.2]

theorem vshl (d : Reg) (a : Reg) (b : Reg) (g : BitVec 3) : Statement (.vshl d a b g) := by
  rintro hw _ ⟨⟩
  simp only [Instr.wellFormed, Bool.and_eq_true, Bool.not_eq_true'] at hw
  simp [decodeWord, decode06, major_formA, fieldD_formA, fieldA_formA, fieldB_formA, guardA_formA, fnA_formA, verdict, hw.1, hw.2]

theorem vshr (d : Reg) (a : Reg) (b : Reg) (g : BitVec 3) : Statement (.vshr d a b g) := by
  rintro hw _ ⟨⟩
  simp only [Instr.wellFormed, Bool.and_eq_true, Bool.not_eq_true'] at hw
  simp [decodeWord, decode06, major_formA, fieldD_formA, fieldA_formA, fieldB_formA, guardA_formA, fnA_formA, verdict, hw.1, hw.2]

theorem vsra (d : Reg) (a : Reg) (b : Reg) (g : BitVec 3) : Statement (.vsra d a b g) := by
  rintro hw _ ⟨⟩
  simp only [Instr.wellFormed, Bool.and_eq_true, Bool.not_eq_true'] at hw
  simp [decodeWord, decode06, major_formA, fieldD_formA, fieldA_formA, fieldB_formA, guardA_formA, fnA_formA, verdict, hw.1, hw.2]

theorem vmin (d : Reg) (a : Reg) (b : Reg) (g : BitVec 3) : Statement (.vmin d a b g) := by
  rintro hw _ ⟨⟩
  simp only [Instr.wellFormed, Bool.and_eq_true, Bool.not_eq_true'] at hw
  simp [decodeWord, decode06, major_formA, fieldD_formA, fieldA_formA, fieldB_formA, guardA_formA, fnA_formA, verdict, hw.1, hw.2]

theorem vmax (d : Reg) (a : Reg) (b : Reg) (g : BitVec 3) : Statement (.vmax d a b g) := by
  rintro hw _ ⟨⟩
  simp only [Instr.wellFormed, Bool.and_eq_true, Bool.not_eq_true'] at hw
  simp [decodeWord, decode06, major_formA, fieldD_formA, fieldA_formA, fieldB_formA, guardA_formA, fnA_formA, verdict, hw.1, hw.2]

theorem vminn (d : Reg) (a : Reg) (b : Reg) (g : BitVec 3) : Statement (.vminn d a b g) := by
  rintro hw _ ⟨⟩
  simp only [Instr.wellFormed, Bool.and_eq_true, Bool.not_eq_true'] at hw
  simp [decodeWord, decode06, major_formA, fieldD_formA, fieldA_formA, fieldB_formA, guardA_formA, fnA_formA, verdict, hw.1, hw.2]

theorem vmaxn (d : Reg) (a : Reg) (b : Reg) (g : BitVec 3) : Statement (.vmaxn d a b g) := by
  rintro hw _ ⟨⟩
  simp only [Instr.wellFormed, Bool.and_eq_true, Bool.not_eq_true'] at hw
  simp [decodeWord, decode06, major_formA, fieldD_formA, fieldA_formA, fieldB_formA, guardA_formA, fnA_formA, verdict, hw.1, hw.2]

theorem vabs (d : Reg) (a : Reg) (g : BitVec 3) : Statement (.vabs d a g) := by
  rintro hw _ ⟨⟩
  simp only [Instr.wellFormed, Bool.and_eq_true, Bool.not_eq_true'] at hw
  simp [decodeWord, decode06, major_formA, fieldD_formA, fieldA_formA, fieldB_formA, guardA_formA, fnA_formA, verdict, hw.1, hw.2]

theorem vneg (d : Reg) (a : Reg) (g : BitVec 3) : Statement (.vneg d a g) := by
  rintro hw _ ⟨⟩
  simp only [Instr.wellFormed, Bool.and_eq_true, Bool.not_eq_true'] at hw
  simp [decodeWord, decode06, major_formA, fieldD_formA, fieldA_formA, fieldB_formA, guardA_formA, fnA_formA, verdict, hw.1, hw.2]

theorem vpopc (d : Reg) (a : Reg) (g : BitVec 3) : Statement (.vpopc d a g) := by
  rintro hw _ ⟨⟩
  simp only [Instr.wellFormed, Bool.and_eq_true, Bool.not_eq_true'] at hw
  simp [decodeWord, decode06, major_formA, fieldD_formA, fieldA_formA, fieldB_formA, guardA_formA, fnA_formA, verdict, hw.1, hw.2]

theorem vclz (d : Reg) (a : Reg) (g : BitVec 3) : Statement (.vclz d a g) := by
  rintro hw _ ⟨⟩
  simp only [Instr.wellFormed, Bool.and_eq_true, Bool.not_eq_true'] at hw
  simp [decodeWord, decode06, major_formA, fieldD_formA, fieldA_formA, fieldB_formA, guardA_formA, fnA_formA, verdict, hw.1, hw.2]

theorem vbrev (d : Reg) (a : Reg) (g : BitVec 3) : Statement (.vbrev d a g) := by
  rintro hw _ ⟨⟩
  simp only [Instr.wellFormed, Bool.and_eq_true, Bool.not_eq_true'] at hw
  simp [decodeWord, decode06, major_formA, fieldD_formA, fieldA_formA, fieldB_formA, guardA_formA, fnA_formA, verdict, hw.1, hw.2]

theorem vsel (d : Reg) (a : Reg) (b : Reg) (g : BitVec 3) : Statement (.vsel d a b g) := by
  rintro hw _ ⟨⟩
  simp only [Instr.wellFormed, Bool.and_eq_true, Bool.not_eq_true'] at hw
  simp [decodeWord, decode06, major_formA, fieldD_formA, fieldA_formA, fieldB_formA, guardA_formA, fnA_formA, verdict, hw.1, hw.2]

theorem vmov (d : Reg) (a : Reg) (g : BitVec 3) : Statement (.vmov d a g) := by
  rintro hw _ ⟨⟩
  simp only [Instr.wellFormed, Bool.and_eq_true, Bool.not_eq_true'] at hw
  simp [decodeWord, decode06, major_formA, fieldD_formA, fieldA_formA, fieldB_formA, guardA_formA, fnA_formA, verdict, hw.1, hw.2]

theorem vaddi (d : Reg) (a : Reg) (g : BitVec 3) (imm : BitVec 8) : Statement (.vaddi d a g imm) := by
  rintro hw _ ⟨⟩
  simp only [Instr.wellFormed, Bool.and_eq_true, Bool.not_eq_true'] at hw
  simp [decodeWord, decode07, major_formB, fieldD_formB, fieldA_formB, guardB_formB, fnB_formB, imm8_formB, verdict, hw.1, hw.2]

theorem vandi (d : Reg) (a : Reg) (g : BitVec 3) (imm : BitVec 8) : Statement (.vandi d a g imm) := by
  rintro hw _ ⟨⟩
  simp only [Instr.wellFormed, Bool.and_eq_true, Bool.not_eq_true'] at hw
  simp [decodeWord, decode07, major_formB, fieldD_formB, fieldA_formB, guardB_formB, fnB_formB, imm8_formB, verdict, hw.1, hw.2]

theorem vori (d : Reg) (a : Reg) (g : BitVec 3) (imm : BitVec 8) : Statement (.vori d a g imm) := by
  rintro hw _ ⟨⟩
  simp only [Instr.wellFormed, Bool.and_eq_true, Bool.not_eq_true'] at hw
  simp [decodeWord, decode07, major_formB, fieldD_formB, fieldA_formB, guardB_formB, fnB_formB, imm8_formB, verdict, hw.1, hw.2]

theorem vxori (d : Reg) (a : Reg) (g : BitVec 3) (imm : BitVec 8) : Statement (.vxori d a g imm) := by
  rintro hw _ ⟨⟩
  simp only [Instr.wellFormed, Bool.and_eq_true, Bool.not_eq_true'] at hw
  simp [decodeWord, decode07, major_formB, fieldD_formB, fieldA_formB, guardB_formB, fnB_formB, imm8_formB, verdict, hw.1, hw.2]

theorem vshli (d : Reg) (a : Reg) (g : BitVec 3) (imm : BitVec 8) : Statement (.vshli d a g imm) := by
  rintro hw _ ⟨⟩
  simp only [Instr.wellFormed, Bool.and_eq_true, Bool.not_eq_true'] at hw
  simp [decodeWord, decode07, major_formB, fieldD_formB, fieldA_formB, guardB_formB, fnB_formB, imm8_formB, verdict, hw.1, hw.2]

theorem vshri (d : Reg) (a : Reg) (g : BitVec 3) (imm : BitVec 8) : Statement (.vshri d a g imm) := by
  rintro hw _ ⟨⟩
  simp only [Instr.wellFormed, Bool.and_eq_true, Bool.not_eq_true'] at hw
  simp [decodeWord, decode07, major_formB, fieldD_formB, fieldA_formB, guardB_formB, fnB_formB, imm8_formB, verdict, hw.1, hw.2]

theorem vsrai (d : Reg) (a : Reg) (g : BitVec 3) (imm : BitVec 8) : Statement (.vsrai d a g imm) := by
  rintro hw _ ⟨⟩
  simp only [Instr.wellFormed, Bool.and_eq_true, Bool.not_eq_true'] at hw
  simp [decodeWord, decode07, major_formB, fieldD_formB, fieldA_formB, guardB_formB, fnB_formB, imm8_formB, verdict, hw.1, hw.2]

theorem vli (d : Reg) (g : BitVec 3) (imm : BitVec 8) : Statement (.vli d g imm) := by
  rintro hw _ ⟨⟩
  simp only [Instr.wellFormed, Bool.and_eq_true, Bool.not_eq_true'] at hw
  simp [decodeWord, decode07, major_formB, fieldD_formB, fieldA_formB, guardB_formB, fnB_formB, imm8_formB, verdict, hw.1, hw.2]

theorem vseq (d : BitVec 3) (a : Reg) (b : Reg) (g : BitVec 3) : Statement (.vseq d a b g) := by
  rintro hw _ ⟨⟩
  simp only [Instr.wellFormed, Bool.and_eq_true, Bool.not_eq_true'] at hw
  simp [decodeWord, decode08, major_formA, fieldD_formA, fieldA_formA, fieldB_formA, guardA_formA, fnA_formA, sub_2_3_3, sub_2_0_3, verdict, hw.1, hw.2]

theorem vsne (d : BitVec 3) (a : Reg) (b : Reg) (g : BitVec 3) : Statement (.vsne d a b g) := by
  rintro hw _ ⟨⟩
  simp only [Instr.wellFormed, Bool.and_eq_true, Bool.not_eq_true'] at hw
  simp [decodeWord, decode08, major_formA, fieldD_formA, fieldA_formA, fieldB_formA, guardA_formA, fnA_formA, sub_2_3_3, sub_2_0_3, verdict, hw.1, hw.2]

theorem vslt (d : BitVec 3) (a : Reg) (b : Reg) (g : BitVec 3) : Statement (.vslt d a b g) := by
  rintro hw _ ⟨⟩
  simp only [Instr.wellFormed, Bool.and_eq_true, Bool.not_eq_true'] at hw
  simp [decodeWord, decode08, major_formA, fieldD_formA, fieldA_formA, fieldB_formA, guardA_formA, fnA_formA, sub_2_3_3, sub_2_0_3, verdict, hw.1, hw.2]

theorem vsle (d : BitVec 3) (a : Reg) (b : Reg) (g : BitVec 3) : Statement (.vsle d a b g) := by
  rintro hw _ ⟨⟩
  simp only [Instr.wellFormed, Bool.and_eq_true, Bool.not_eq_true'] at hw
  simp [decodeWord, decode08, major_formA, fieldD_formA, fieldA_formA, fieldB_formA, guardA_formA, fnA_formA, sub_2_3_3, sub_2_0_3, verdict, hw.1, hw.2]

theorem vsltn (d : BitVec 3) (a : Reg) (b : Reg) (g : BitVec 3) : Statement (.vsltn d a b g) := by
  rintro hw _ ⟨⟩
  simp only [Instr.wellFormed, Bool.and_eq_true, Bool.not_eq_true'] at hw
  simp [decodeWord, decode08, major_formA, fieldD_formA, fieldA_formA, fieldB_formA, guardA_formA, fnA_formA, sub_2_3_3, sub_2_0_3, verdict, hw.1, hw.2]

theorem vslen (d : BitVec 3) (a : Reg) (b : Reg) (g : BitVec 3) : Statement (.vslen d a b g) := by
  rintro hw _ ⟨⟩
  simp only [Instr.wellFormed, Bool.and_eq_true, Bool.not_eq_true'] at hw
  simp [decodeWord, decode08, major_formA, fieldD_formA, fieldA_formA, fieldB_formA, guardA_formA, fnA_formA, sub_2_3_3, sub_2_0_3, verdict, hw.1, hw.2]

theorem vfseq (d : BitVec 3) (a : Reg) (b : Reg) (g : BitVec 3) : Statement (.vfseq d a b g) := by
  rintro hw _ ⟨⟩
  simp only [Instr.wellFormed, Bool.and_eq_true, Bool.not_eq_true'] at hw
  simp [decodeWord, decode08, major_formA, fieldD_formA, fieldA_formA, fieldB_formA, guardA_formA, fnA_formA, sub_2_3_3, sub_2_0_3, verdict, hw.1, hw.2]

theorem vfsne (d : BitVec 3) (a : Reg) (b : Reg) (g : BitVec 3) : Statement (.vfsne d a b g) := by
  rintro hw _ ⟨⟩
  simp only [Instr.wellFormed, Bool.and_eq_true, Bool.not_eq_true'] at hw
  simp [decodeWord, decode08, major_formA, fieldD_formA, fieldA_formA, fieldB_formA, guardA_formA, fnA_formA, sub_2_3_3, sub_2_0_3, verdict, hw.1, hw.2]

theorem vfslt (d : BitVec 3) (a : Reg) (b : Reg) (g : BitVec 3) : Statement (.vfslt d a b g) := by
  rintro hw _ ⟨⟩
  simp only [Instr.wellFormed, Bool.and_eq_true, Bool.not_eq_true'] at hw
  simp [decodeWord, decode08, major_formA, fieldD_formA, fieldA_formA, fieldB_formA, guardA_formA, fnA_formA, sub_2_3_3, sub_2_0_3, verdict, hw.1, hw.2]

theorem vfsle (d : BitVec 3) (a : Reg) (b : Reg) (g : BitVec 3) : Statement (.vfsle d a b g) := by
  rintro hw _ ⟨⟩
  simp only [Instr.wellFormed, Bool.and_eq_true, Bool.not_eq_true'] at hw
  simp [decodeWord, decode08, major_formA, fieldD_formA, fieldA_formA, fieldB_formA, guardA_formA, fnA_formA, sub_2_3_3, sub_2_0_3, verdict, hw.1, hw.2]

theorem vfsun (d : BitVec 3) (a : Reg) (b : Reg) (g : BitVec 3) : Statement (.vfsun d a b g) := by
  rintro hw _ ⟨⟩
  simp only [Instr.wellFormed, Bool.and_eq_true, Bool.not_eq_true'] at hw
  simp [decodeWord, decode08, major_formA, fieldD_formA, fieldA_formA, fieldB_formA, guardA_formA, fnA_formA, sub_2_3_3, sub_2_0_3, verdict, hw.1, hw.2]

theorem pand (d : BitVec 3) (a : BitVec 3) (b : BitVec 3) (g : BitVec 3) : Statement (.pand d a b g) := by
  rintro hw _ ⟨⟩
  simp only [Instr.wellFormed, Bool.and_eq_true, Bool.not_eq_true'] at hw
  simp [decodeWord, decode08, major_formA, fieldD_formA, fieldA_formA, fieldB_formA, guardA_formA, fnA_formA, sub_2_3_3, sub_2_0_3, verdict, hw.1, hw.2]

theorem por (d : BitVec 3) (a : BitVec 3) (b : BitVec 3) (g : BitVec 3) : Statement (.por d a b g) := by
  rintro hw _ ⟨⟩
  simp only [Instr.wellFormed, Bool.and_eq_true, Bool.not_eq_true'] at hw
  simp [decodeWord, decode08, major_formA, fieldD_formA, fieldA_formA, fieldB_formA, guardA_formA, fnA_formA, sub_2_3_3, sub_2_0_3, verdict, hw.1, hw.2]

theorem pxor (d : BitVec 3) (a : BitVec 3) (b : BitVec 3) (g : BitVec 3) : Statement (.pxor d a b g) := by
  rintro hw _ ⟨⟩
  simp only [Instr.wellFormed, Bool.and_eq_true, Bool.not_eq_true'] at hw
  simp [decodeWord, decode08, major_formA, fieldD_formA, fieldA_formA, fieldB_formA, guardA_formA, fnA_formA, sub_2_3_3, sub_2_0_3, verdict, hw.1, hw.2]

theorem pandn (d : BitVec 3) (a : BitVec 3) (b : BitVec 3) (g : BitVec 3) : Statement (.pandn d a b g) := by
  rintro hw _ ⟨⟩
  simp only [Instr.wellFormed, Bool.and_eq_true, Bool.not_eq_true'] at hw
  simp [decodeWord, decode08, major_formA, fieldD_formA, fieldA_formA, fieldB_formA, guardA_formA, fnA_formA, sub_2_3_3, sub_2_0_3, verdict, hw.1, hw.2]

theorem pmov (d : BitVec 3) (a : BitVec 3) (g : BitVec 3) : Statement (.pmov d a g) := by
  rintro hw _ ⟨⟩
  simp only [Instr.wellFormed, Bool.and_eq_true, Bool.not_eq_true'] at hw
  simp [decodeWord, decode08, major_formA, fieldD_formA, fieldA_formA, fieldB_formA, guardA_formA, fnA_formA, sub_2_3_3, sub_2_0_3, verdict, hw.1, hw.2]

theorem vbfe (d : Reg) (a : Reg) (b : Reg) (g : BitVec 3) : Statement (.vbfe d a b g) := by
  rintro hw _ ⟨⟩
  simp only [Instr.wellFormed, Bool.and_eq_true, Bool.not_eq_true'] at hw
  simp [decodeWord, decode09, major_formA, fieldD_formA, fieldA_formA, fieldB_formA, guardA_formA, fnA_formA, verdict, hw.1, hw.2]

theorem vbfes (d : Reg) (a : Reg) (b : Reg) (g : BitVec 3) : Statement (.vbfes d a b g) := by
  rintro hw _ ⟨⟩
  simp only [Instr.wellFormed, Bool.and_eq_true, Bool.not_eq_true'] at hw
  simp [decodeWord, decode09, major_formA, fieldD_formA, fieldA_formA, fieldB_formA, guardA_formA, fnA_formA, verdict, hw.1, hw.2]

theorem vbfi (d : Reg) (a : Reg) (b : Reg) (g : BitVec 3) : Statement (.vbfi d a b g) := by
  rintro hw _ ⟨⟩
  simp only [Instr.wellFormed, Bool.and_eq_true, Bool.not_eq_true'] at hw
  simp [decodeWord, decode09, major_formA, fieldD_formA, fieldA_formA, fieldB_formA, guardA_formA, fnA_formA, verdict, hw.1, hw.2]

theorem vfadd (d : Reg) (a : Reg) (b : Reg) (g : BitVec 3) : Statement (.vfadd d a b g) := by
  rintro hw _ ⟨⟩
  simp only [Instr.wellFormed, Bool.and_eq_true, Bool.not_eq_true'] at hw
  simp [decodeWord, decode0A, major_formA, fieldD_formA, fieldA_formA, fieldB_formA, guardA_formA, fnA_formA, verdict, hw.1, hw.2]

theorem vfsub (d : Reg) (a : Reg) (b : Reg) (g : BitVec 3) : Statement (.vfsub d a b g) := by
  rintro hw _ ⟨⟩
  simp only [Instr.wellFormed, Bool.and_eq_true, Bool.not_eq_true'] at hw
  simp [decodeWord, decode0A, major_formA, fieldD_formA, fieldA_formA, fieldB_formA, guardA_formA, fnA_formA, verdict, hw.1, hw.2]

theorem vfmul (d : Reg) (a : Reg) (b : Reg) (g : BitVec 3) : Statement (.vfmul d a b g) := by
  rintro hw _ ⟨⟩
  simp only [Instr.wellFormed, Bool.and_eq_true, Bool.not_eq_true'] at hw
  simp [decodeWord, decode0A, major_formA, fieldD_formA, fieldA_formA, fieldB_formA, guardA_formA, fnA_formA, verdict, hw.1, hw.2]

theorem vfma (d : Reg) (a : Reg) (b : Reg) (g : BitVec 3) : Statement (.vfma d a b g) := by
  rintro hw _ ⟨⟩
  simp only [Instr.wellFormed, Bool.and_eq_true, Bool.not_eq_true'] at hw
  simp [decodeWord, decode0A, major_formA, fieldD_formA, fieldA_formA, fieldB_formA, guardA_formA, fnA_formA, verdict, hw.1, hw.2]

theorem vfms (d : Reg) (a : Reg) (b : Reg) (g : BitVec 3) : Statement (.vfms d a b g) := by
  rintro hw _ ⟨⟩
  simp only [Instr.wellFormed, Bool.and_eq_true, Bool.not_eq_true'] at hw
  simp [decodeWord, decode0A, major_formA, fieldD_formA, fieldA_formA, fieldB_formA, guardA_formA, fnA_formA, verdict, hw.1, hw.2]

theorem vfnma (d : Reg) (a : Reg) (b : Reg) (g : BitVec 3) : Statement (.vfnma d a b g) := by
  rintro hw _ ⟨⟩
  simp only [Instr.wellFormed, Bool.and_eq_true, Bool.not_eq_true'] at hw
  simp [decodeWord, decode0A, major_formA, fieldD_formA, fieldA_formA, fieldB_formA, guardA_formA, fnA_formA, verdict, hw.1, hw.2]

theorem vfmin (d : Reg) (a : Reg) (b : Reg) (g : BitVec 3) : Statement (.vfmin d a b g) := by
  rintro hw _ ⟨⟩
  simp only [Instr.wellFormed, Bool.and_eq_true, Bool.not_eq_true'] at hw
  simp [decodeWord, decode0A, major_formA, fieldD_formA, fieldA_formA, fieldB_formA, guardA_formA, fnA_formA, verdict, hw.1, hw.2]

theorem vfmax (d : Reg) (a : Reg) (b : Reg) (g : BitVec 3) : Statement (.vfmax d a b g) := by
  rintro hw _ ⟨⟩
  simp only [Instr.wellFormed, Bool.and_eq_true, Bool.not_eq_true'] at hw
  simp [decodeWord, decode0A, major_formA, fieldD_formA, fieldA_formA, fieldB_formA, guardA_formA, fnA_formA, verdict, hw.1, hw.2]

theorem vfabs (d : Reg) (a : Reg) (g : BitVec 3) : Statement (.vfabs d a g) := by
  rintro hw _ ⟨⟩
  simp only [Instr.wellFormed, Bool.and_eq_true, Bool.not_eq_true'] at hw
  simp [decodeWord, decode0A, major_formA, fieldD_formA, fieldA_formA, fieldB_formA, guardA_formA, fnA_formA, verdict, hw.1, hw.2]

theorem vfneg (d : Reg) (a : Reg) (g : BitVec 3) : Statement (.vfneg d a g) := by
  rintro hw _ ⟨⟩
  simp only [Instr.wellFormed, Bool.and_eq_true, Bool.not_eq_true'] at hw
  simp [decodeWord, decode0A, major_formA, fieldD_formA, fieldA_formA, fieldB_formA, guardA_formA, fnA_formA, verdict, hw.1, hw.2]

theorem vfcps (d : Reg) (a : Reg) (b : Reg) (g : BitVec 3) : Statement (.vfcps d a b g) := by
  rintro hw _ ⟨⟩
  simp only [Instr.wellFormed, Bool.and_eq_true, Bool.not_eq_true'] at hw
  simp [decodeWord, decode0A, major_formA, fieldD_formA, fieldA_formA, fieldB_formA, guardA_formA, fnA_formA, verdict, hw.1, hw.2]

theorem vfrnd (d : Reg) (a : Reg) (g : BitVec 3) : Statement (.vfrnd d a g) := by
  rintro hw _ ⟨⟩
  simp only [Instr.wellFormed, Bool.and_eq_true, Bool.not_eq_true'] at hw
  simp [decodeWord, decode0A, major_formA, fieldD_formA, fieldA_formA, fieldB_formA, guardA_formA, fnA_formA, verdict, hw.1, hw.2]

theorem vfcls (d : Reg) (a : Reg) (g : BitVec 3) : Statement (.vfcls d a g) := by
  rintro hw _ ⟨⟩
  simp only [Instr.wellFormed, Bool.and_eq_true, Bool.not_eq_true'] at hw
  simp [decodeWord, decode0A, major_formA, fieldD_formA, fieldA_formA, fieldB_formA, guardA_formA, fnA_formA, verdict, hw.1, hw.2]

theorem vhadd (d : Reg) (a : Reg) (b : Reg) (g : BitVec 3) (h : BitVec 1) : Statement (.vhadd d a b g h) := by
  rintro hw _ ⟨⟩
  simp only [Instr.wellFormed, Bool.and_eq_true, Bool.not_eq_true'] at hw
  simp [decodeWord, decode0B, major_formA, fieldD_formA, fieldA_formA, fieldB_formA, guardA_formA, fnA_formA, sub_3_4_1, sub_3_0_4, verdict, hw.1, hw.2]

theorem vhsub (d : Reg) (a : Reg) (b : Reg) (g : BitVec 3) (h : BitVec 1) : Statement (.vhsub d a b g h) := by
  rintro hw _ ⟨⟩
  simp only [Instr.wellFormed, Bool.and_eq_true, Bool.not_eq_true'] at hw
  simp [decodeWord, decode0B, major_formA, fieldD_formA, fieldA_formA, fieldB_formA, guardA_formA, fnA_formA, sub_4_4_1, sub_4_0_4, verdict, hw.1, hw.2]

theorem vhmul (d : Reg) (a : Reg) (b : Reg) (g : BitVec 3) (h : BitVec 1) : Statement (.vhmul d a b g h) := by
  rintro hw _ ⟨⟩
  simp only [Instr.wellFormed, Bool.and_eq_true, Bool.not_eq_true'] at hw
  simp [decodeWord, decode0B, major_formA, fieldD_formA, fieldA_formA, fieldB_formA, guardA_formA, fnA_formA, sub_5_4_1, sub_5_0_4, verdict, hw.1, hw.2]

theorem vhfma (d : Reg) (a : Reg) (b : Reg) (g : BitVec 3) (h : BitVec 1) : Statement (.vhfma d a b g h) := by
  rintro hw _ ⟨⟩
  simp only [Instr.wellFormed, Bool.and_eq_true, Bool.not_eq_true'] at hw
  simp [decodeWord, decode0B, major_formA, fieldD_formA, fieldA_formA, fieldB_formA, guardA_formA, fnA_formA, sub_6_4_1, sub_6_0_4, verdict, hw.1, hw.2]

theorem vhmin (d : Reg) (a : Reg) (b : Reg) (g : BitVec 3) (h : BitVec 1) : Statement (.vhmin d a b g h) := by
  rintro hw _ ⟨⟩
  simp only [Instr.wellFormed, Bool.and_eq_true, Bool.not_eq_true'] at hw
  simp [decodeWord, decode0B, major_formA, fieldD_formA, fieldA_formA, fieldB_formA, guardA_formA, fnA_formA, sub_7_4_1, sub_7_0_4, verdict, hw.1, hw.2]

theorem vhmax (d : Reg) (a : Reg) (b : Reg) (g : BitVec 3) (h : BitVec 1) : Statement (.vhmax d a b g h) := by
  rintro hw _ ⟨⟩
  simp only [Instr.wellFormed, Bool.and_eq_true, Bool.not_eq_true'] at hw
  simp [decodeWord, decode0B, major_formA, fieldD_formA, fieldA_formA, fieldB_formA, guardA_formA, fnA_formA, sub_8_4_1, sub_8_0_4, verdict, hw.1, hw.2]

theorem vrcp (d : Reg) (a : Reg) (g : BitVec 3) : Statement (.vrcp d a g) := by
  rintro hw _ ⟨⟩
  simp only [Instr.wellFormed, Bool.and_eq_true, Bool.not_eq_true'] at hw
  simp [decodeWord, decode0C, major_formA, fieldD_formA, fieldA_formA, fieldB_formA, guardA_formA, fnA_formA, verdict, hw.1, hw.2]

theorem vrsq (d : Reg) (a : Reg) (g : BitVec 3) : Statement (.vrsq d a g) := by
  rintro hw _ ⟨⟩
  simp only [Instr.wellFormed, Bool.and_eq_true, Bool.not_eq_true'] at hw
  simp [decodeWord, decode0C, major_formA, fieldD_formA, fieldA_formA, fieldB_formA, guardA_formA, fnA_formA, verdict, hw.1, hw.2]

theorem vsqrt (d : Reg) (a : Reg) (g : BitVec 3) : Statement (.vsqrt d a g) := by
  rintro hw _ ⟨⟩
  simp only [Instr.wellFormed, Bool.and_eq_true, Bool.not_eq_true'] at hw
  simp [decodeWord, decode0C, major_formA, fieldD_formA, fieldA_formA, fieldB_formA, guardA_formA, fnA_formA, verdict, hw.1, hw.2]

theorem vfdiv (d : Reg) (a : Reg) (b : Reg) (g : BitVec 3) : Statement (.vfdiv d a b g) := by
  rintro hw _ ⟨⟩
  simp only [Instr.wellFormed, Bool.and_eq_true, Bool.not_eq_true'] at hw
  simp [decodeWord, decode0C, major_formA, fieldD_formA, fieldA_formA, fieldB_formA, guardA_formA, fnA_formA, verdict, hw.1, hw.2]

theorem vexp2 (d : Reg) (a : Reg) (g : BitVec 3) : Statement (.vexp2 d a g) := by
  rintro hw _ ⟨⟩
  simp only [Instr.wellFormed, Bool.and_eq_true, Bool.not_eq_true'] at hw
  simp [decodeWord, decode0C, major_formA, fieldD_formA, fieldA_formA, fieldB_formA, guardA_formA, fnA_formA, verdict, hw.1, hw.2]

theorem vlog2 (d : Reg) (a : Reg) (g : BitVec 3) : Statement (.vlog2 d a g) := by
  rintro hw _ ⟨⟩
  simp only [Instr.wellFormed, Bool.and_eq_true, Bool.not_eq_true'] at hw
  simp [decodeWord, decode0C, major_formA, fieldD_formA, fieldA_formA, fieldB_formA, guardA_formA, fnA_formA, verdict, hw.1, hw.2]

theorem vsin (d : Reg) (a : Reg) (g : BitVec 3) : Statement (.vsin d a g) := by
  rintro hw _ ⟨⟩
  simp only [Instr.wellFormed, Bool.and_eq_true, Bool.not_eq_true'] at hw
  simp [decodeWord, decode0C, major_formA, fieldD_formA, fieldA_formA, fieldB_formA, guardA_formA, fnA_formA, verdict, hw.1, hw.2]

theorem vcos (d : Reg) (a : Reg) (g : BitVec 3) : Statement (.vcos d a g) := by
  rintro hw _ ⟨⟩
  simp only [Instr.wellFormed, Bool.and_eq_true, Bool.not_eq_true'] at hw
  simp [decodeWord, decode0C, major_formA, fieldD_formA, fieldA_formA, fieldB_formA, guardA_formA, fnA_formA, verdict, hw.1, hw.2]

theorem vtanh (d : Reg) (a : Reg) (g : BitVec 3) : Statement (.vtanh d a g) := by
  rintro hw _ ⟨⟩
  simp only [Instr.wellFormed, Bool.and_eq_true, Bool.not_eq_true'] at hw
  simp [decodeWord, decode0C, major_formA, fieldD_formA, fieldA_formA, fieldB_formA, guardA_formA, fnA_formA, verdict, hw.1, hw.2]

theorem vcvt (d : Reg) (a : Reg) (b : Reg) (g : BitVec 3) (fn : BitVec 5) : Statement (.vcvt d a b g fn) := by
  rintro hw _ ⟨⟩
  simp only [Instr.wellFormed, Bool.and_eq_true, Bool.not_eq_true'] at hw
  simp [decodeWord, major_formA, fieldD_formA, fieldA_formA, fieldB_formA, guardA_formA, fnA_formA, verdict, hw.1, hw.2]

theorem vshfl (d : Reg) (a : Reg) (b : Reg) (g : BitVec 3) : Statement (.vshfl d a b g) := by
  rintro hw _ ⟨⟩
  simp only [Instr.wellFormed, Bool.and_eq_true, Bool.not_eq_true'] at hw
  simp [decodeWord, decode0E, major_formA, fieldD_formA, fieldA_formA, fieldB_formA, guardA_formA, fnA_formA, verdict, hw.1, hw.2]

theorem vshflx (d : Reg) (a : Reg) (b : Reg) (g : BitVec 3) : Statement (.vshflx d a b g) := by
  rintro hw _ ⟨⟩
  simp only [Instr.wellFormed, Bool.and_eq_true, Bool.not_eq_true'] at hw
  simp [decodeWord, decode0E, major_formA, fieldD_formA, fieldA_formA, fieldB_formA, guardA_formA, fnA_formA, verdict, hw.1, hw.2]

theorem vshflu (d : Reg) (a : Reg) (b : Reg) (g : BitVec 3) : Statement (.vshflu d a b g) := by
  rintro hw _ ⟨⟩
  simp only [Instr.wellFormed, Bool.and_eq_true, Bool.not_eq_true'] at hw
  simp [decodeWord, decode0E, major_formA, fieldD_formA, fieldA_formA, fieldB_formA, guardA_formA, fnA_formA, verdict, hw.1, hw.2]

theorem vshfld (d : Reg) (a : Reg) (b : Reg) (g : BitVec 3) : Statement (.vshfld d a b g) := by
  rintro hw _ ⟨⟩
  simp only [Instr.wellFormed, Bool.and_eq_true, Bool.not_eq_true'] at hw
  simp [decodeWord, decode0E, major_formA, fieldD_formA, fieldA_formA, fieldB_formA, guardA_formA, fnA_formA, verdict, hw.1, hw.2]

theorem vbcst (d : Reg) (a : Reg) (g : BitVec 3) : Statement (.vbcst d a g) := by
  rintro hw _ ⟨⟩
  simp only [Instr.wellFormed, Bool.and_eq_true, Bool.not_eq_true'] at hw
  simp [decodeWord, decode0E, major_formA, fieldD_formA, fieldA_formA, fieldB_formA, guardA_formA, fnA_formA, verdict, hw.1, hw.2]

theorem vvote (d : Reg) (a : Reg) (g : BitVec 3) : Statement (.vvote d a g) := by
  rintro hw _ ⟨⟩
  simp only [Instr.wellFormed, Bool.and_eq_true, Bool.not_eq_true'] at hw
  simp [decodeWord, decode0E, major_formA, fieldD_formA, fieldA_formA, fieldB_formA, guardA_formA, fnA_formA, verdict, hw.1, hw.2]

theorem vreds (d : Reg) (a : Reg) (op : BitVec 5) (g : BitVec 3) : Statement (.vreds d a op g) := by
  rintro hw _ ⟨⟩
  simp only [Instr.wellFormed, Bool.and_eq_true, Bool.not_eq_true'] at hw
  simp [decodeWord, decode0E, major_formA, fieldD_formA, fieldA_formA, fieldB_formA, guardA_formA, fnA_formA, sub_9_5_1, sub_9_0_5, verdict, hw.1, hw.2]

theorem vscan (d : Reg) (a : Reg) (excl : BitVec 1) (op : BitVec 5) (g : BitVec 3) : Statement (.vscan d a excl op g) := by
  rintro hw _ ⟨⟩
  simp only [Instr.wellFormed, Bool.and_eq_true, Bool.not_eq_true'] at hw
  simp [decodeWord, decode0E, major_formA, fieldD_formA, fieldA_formA, fieldB_formA, guardA_formA, fnA_formA, sub_10_5_1, sub_10_0_5, verdict, hw.1, hw.2]

theorem vld (d : Reg) (a : Reg) (b : Reg) (g : BitVec 3) (na : BitVec 1) (sx : BitVec 1) (size : BitVec 3) : Statement (.vld d a b g na sx size) := by
  rintro hw _ ⟨⟩
  simp only [Instr.wellFormed, Bool.and_eq_true, Bool.not_eq_true'] at hw
  simp [decodeWord, major_formA, fieldD_formA, fieldA_formA, fieldB_formA, guardA_formA, fnA_formA, sub_11_4_1, sub_11_3_1, sub_11_0_3, verdict, hw.1, hw.2]

theorem vst (d : Reg) (a : Reg) (b : Reg) (g : BitVec 3) (na : BitVec 1) (size : BitVec 3) : Statement (.vst d a b g na size) := by
  rintro hw _ ⟨⟩
  simp only [Instr.wellFormed, Bool.and_eq_true, Bool.not_eq_true'] at hw
  simp [decodeWord, major_formA, fieldD_formA, fieldA_formA, fieldB_formA, guardA_formA, fnA_formA, sub_12_4_1, sub_12_3_1, sub_12_0_3, verdict, hw.1, hw.2]

theorem sld (d : Reg) (a : Reg) (b : Reg) (g : BitVec 3) (sx : BitVec 1) (size : BitVec 3) : Statement (.sld d a b g sx size) := by
  rintro hw _ ⟨⟩
  simp only [Instr.wellFormed, Bool.and_eq_true, Bool.not_eq_true'] at hw
  simp [decodeWord, decode12, major_formA, fieldD_formA, fieldA_formA, fieldB_formA, guardA_formA, fnA_formA, sub_13_4_1, sub_13_3_1, sub_13_0_3, verdict, hw.1, hw.2]

theorem sst (d : Reg) (a : Reg) (b : Reg) (g : BitVec 3) (size : BitVec 3) : Statement (.sst d a b g size) := by
  rintro hw _ ⟨⟩
  simp only [Instr.wellFormed, Bool.and_eq_true, Bool.not_eq_true'] at hw
  simp [decodeWord, decode12, major_formA, fieldD_formA, fieldA_formA, fieldB_formA, guardA_formA, fnA_formA, sub_14_3_2, sub_14_3_1, sub_14_4_1, sub_14_0_3, verdict, hw.1, hw.2]

theorem vlds (d : Reg) (a : Reg) (b : Reg) (g : BitVec 3) (sx : BitVec 1) (size : BitVec 3) : Statement (.vlds d a b g sx size) := by
  rintro hw _ ⟨⟩
  simp only [Instr.wellFormed, Bool.and_eq_true, Bool.not_eq_true'] at hw
  simp [decodeWord, decode13, major_formA, fieldD_formA, fieldA_formA, fieldB_formA, guardA_formA, fnA_formA, sub_13_4_1, sub_13_3_1, sub_13_0_3, verdict, hw.1, hw.2]
  rintro rfl
  simp [Machine.illegalFields] at hw

theorem vldsDq (d : Reg) (a : Reg) (b : Reg) (g : BitVec 3) : Statement (.vldsDq d a b g) := by
  rintro hw _ ⟨⟩
  simp only [Instr.wellFormed, Bool.and_eq_true, Bool.not_eq_true'] at hw
  simp [decodeWord, decode13, major_formA, fieldD_formA, fieldA_formA, fieldB_formA, guardA_formA, fnA_formA, verdict, hw.1, hw.2]

theorem vsts (d : Reg) (a : Reg) (b : Reg) (g : BitVec 3) (size : BitVec 3) : Statement (.vsts d a b g size) := by
  rintro hw _ ⟨⟩
  simp only [Instr.wellFormed, Bool.and_eq_true, Bool.not_eq_true'] at hw
  simp [decodeWord, decode13, major_formA, fieldD_formA, fieldA_formA, fieldB_formA, guardA_formA, fnA_formA, sub_14_3_2, sub_14_3_1, sub_14_4_1, sub_14_0_3, verdict, hw.1, hw.2]

theorem vatom (d : Reg) (a : Reg) (b : Reg) (scope : BitVec 3) (op : BitVec 5) : Statement (.vatom d a b scope op) := by
  rintro hw _ ⟨⟩
  simp only [Instr.wellFormed, Bool.and_eq_true, Bool.not_eq_true'] at hw
  simp [decodeWord, major_formA, fieldD_formA, fieldA_formA, fieldB_formA, guardA_formA, fnA_formA, verdict, hw.1, hw.2]

theorem vred (d : Reg) (a : Reg) (b : Reg) (scope : BitVec 3) (op : BitVec 5) : Statement (.vred d a b scope op) := by
  rintro hw _ ⟨⟩
  simp only [Instr.wellFormed, Bool.and_eq_true, Bool.not_eq_true'] at hw
  simp [decodeWord, major_formA, fieldD_formA, fieldA_formA, fieldB_formA, guardA_formA, fnA_formA, verdict, hw.1, hw.2]

theorem fence (acq : BitVec 1) (rel : BitVec 1) (scope : BitVec 3) : Statement (.fence acq rel scope) := by
  rintro hw _ ⟨⟩
  simp only [Instr.wellFormed, Bool.and_eq_true, Bool.not_eq_true'] at hw
  simp [decodeWord, decode16, major_formS, fieldD_formS, fieldA_formS, code10_formS, fnS_formS, sub_15_5_5, sub_15_4_1, sub_15_3_1, sub_15_0_3, verdict, hw.1, hw.2]

theorem settle (scope : BitVec 3) : Statement (.settle scope) := by
  rintro hw _ ⟨⟩
  simp only [Instr.wellFormed, Bool.and_eq_true, Bool.not_eq_true'] at hw
  simp [decodeWord, decode16, major_formS, fieldD_formS, fieldA_formS, code10_formS, fnS_formS, sub_16_3_7, sub_16_0_3, verdict, hw.1, hw.2]

theorem wait (l : BitVec 6) (s : BitVec 6) (t : BitVec 6) : Statement (.wait l s t) := by
  rintro hw _ ⟨⟩
  simp only [Instr.wellFormed, Bool.and_eq_true, Bool.not_eq_true'] at hw
  simp [decodeWord, decode16, major_formS, fieldD_formS, fieldA_formS, code10_formS, fnS_formS, sub_17_6_4, sub_17_0_6, verdict, hw.1, hw.2]

theorem acopy (d : Reg) (a : Reg) : Statement (.acopy d a) := by
  rintro hw _ ⟨⟩
  simp only [Instr.wellFormed, Bool.and_eq_true, Bool.not_eq_true'] at hw
  simp [decodeWord, decode18, major_formS, fieldD_formS, fieldA_formS, code10_formS, fnS_formS, verdict, hw.1, hw.2]

theorem acopyo (d : Reg) (a : Reg) : Statement (.acopyo d a) := by
  rintro hw _ ⟨⟩
  simp only [Instr.wellFormed, Bool.and_eq_true, Bool.not_eq_true'] at hw
  simp [decodeWord, decode18, major_formS, fieldD_formS, fieldA_formS, code10_formS, fnS_formS, verdict, hw.1, hw.2]

theorem acopyt (d : Reg) (a : Reg) : Statement (.acopyt d a) := by
  rintro hw _ ⟨⟩
  simp only [Instr.wellFormed, Bool.and_eq_true, Bool.not_eq_true'] at hw
  simp [decodeWord, decode18, major_formS, fieldD_formS, fieldA_formS, code10_formS, fnS_formS, verdict, hw.1, hw.2]

theorem acopyg (d : Reg) (a : Reg) (geo : Reg) : Statement (.acopyg d a geo) := by
  rintro hw _ ⟨⟩
  simp only [Instr.wellFormed, Bool.and_eq_true, Bool.not_eq_true'] at hw
  simp [decodeWord, decode18, major_formS, fieldD_formS, fieldA_formS, code10_formS, fnS_formS, sub_17_6_4, sub_17_0_6, verdict, hw.1, hw.2]

theorem cclose (d : Reg) : Statement (.cclose d) := by
  rintro hw _ ⟨⟩
  simp only [Instr.wellFormed, Bool.and_eq_true, Bool.not_eq_true'] at hw
  simp [decodeWord, decode18, major_formS, fieldD_formS, fieldA_formS, code10_formS, fnS_formS, verdict, hw.1, hw.2]

theorem cwait (a : Reg) : Statement (.cwait a) := by
  rintro hw _ ⟨⟩
  simp only [Instr.wellFormed, Bool.and_eq_true, Bool.not_eq_true'] at hw
  simp [decodeWord, decode18, major_formS, fieldD_formS, fieldA_formS, code10_formS, fnS_formS, verdict, hw.1, hw.2]

theorem tcfg (td : BitVec 3) (s : Reg) (target : BitVec 3) : Statement (.tcfg td s target) := by
  rintro hw _ ⟨⟩
  simp only [Instr.wellFormed, Bool.and_eq_true, Bool.not_eq_true'] at hw
  simp [decodeWord, decode1A, major_formT, fieldTd_formT, fieldTa_formT, fieldTb_formT, fieldTs_formT, fieldCtl_formT, fnS_formT, sub_18_3_4, sub_18_0_3, verdict, hw.1, hw.2]

theorem tcb (cb : BitVec 2) (s : Reg) (scr : BitVec 1) : Statement (.tcb cb s scr) := by
  rintro hw _ ⟨⟩
  simp only [Instr.wellFormed, Bool.and_eq_true, Bool.not_eq_true'] at hw
  simp [decodeWord, decode1A, major_formT, fieldTd_formT, fieldTa_formT, fieldTb_formT, fieldTs_formT, fieldCtl_formT, fnS_formT, sub_19_2_1, sub_19_0_2, sub_20_1_6, sub_20_0_1, verdict, hw.1, hw.2]

theorem tzero (td : BitVec 3) : Statement (.tzero td) := by
  rintro hw _ ⟨⟩
  simp only [Instr.wellFormed, Bool.and_eq_true, Bool.not_eq_true'] at hw
  simp [decodeWord, decode1A, major_formT, fieldTd_formT, fieldTa_formT, fieldTb_formT, fieldTs_formT, fieldCtl_formT, fnS_formT, verdict, hw.1, hw.2]

theorem tld (td : BitVec 3) (s : Reg) (sb : BitVec 1) (scr : BitVec 1) : Statement (.tld td s sb scr) := by
  rintro hw _ ⟨⟩
  simp only [Instr.wellFormed, Bool.and_eq_true, Bool.not_eq_true'] at hw
  simp [decodeWord, decode1B, major_formT, fieldTd_formT, fieldTa_formT, fieldTb_formT, fieldTs_formT, fieldCtl_formT, fnS_formT, sub_21_2_5, sub_21_1_1, sub_21_0_1, verdict, hw.1, hw.2]

theorem tst (ta : BitVec 3) (s : Reg) (sb : BitVec 1) (scr : BitVec 1) : Statement (.tst ta s sb scr) := by
  rintro hw _ ⟨⟩
  simp only [Instr.wellFormed, Bool.and_eq_true, Bool.not_eq_true'] at hw
  simp [decodeWord, decode1B, major_formT, fieldTd_formT, fieldTa_formT, fieldTb_formT, fieldTs_formT, fieldCtl_formT, fnS_formT, sub_21_2_5, sub_21_1_1, sub_21_0_1, verdict, hw.1, hw.2]

theorem tldt (td : BitVec 3) (s : Reg) (scr : BitVec 1) : Statement (.tldt td s scr) := by
  rintro hw _ ⟨⟩
  simp only [Instr.wellFormed, Bool.and_eq_true, Bool.not_eq_true'] at hw
  simp [decodeWord, decode1B, major_formT, fieldTd_formT, fieldTa_formT, fieldTb_formT, fieldTs_formT, fieldCtl_formT, fnS_formT, sub_20_1_6, sub_20_0_1, verdict, hw.1, hw.2]

theorem tmma (ta : BitVec 3) (tb : BitVec 3) (s : Reg) (scope : BitVec 3) : Statement (.tmma ta tb s scope) := by
  rintro hw _ ⟨⟩
  simp only [Instr.wellFormed, Bool.and_eq_true, Bool.not_eq_true'] at hw
  simp [decodeWord, decode1C, major_formT, fieldTd_formT, fieldTa_formT, fieldTb_formT, fieldTs_formT, fieldCtl_formT, fnS_formT, sub_18_3_4, sub_18_0_3, verdict, hw.1, hw.2]

theorem tmmab (td : BitVec 3) (ta : BitVec 3) (tb : BitVec 3) (sat : BitVec 1) (p : BitVec 3) (q : BitVec 3) : Statement (.tmmab td ta tb sat p q) := by
  rintro hw _ ⟨⟩
  simp only [Instr.wellFormed, Bool.and_eq_true, Bool.not_eq_true'] at hw
  simp [decodeWord, decode1C, major_formT, fieldTd_formT, fieldTa_formT, fieldTb_formT, fieldTs_formT, fieldCtl_formT, fnS_formT, sub_22_6_1, sub_22_3_3, sub_22_0_3, verdict, hw.1, hw.2]

theorem tmmas (ta : BitVec 3) (tb : BitVec 3) (s : Reg) (scope : BitVec 3) : Statement (.tmmas ta tb s scope) := by
  rintro hw _ ⟨⟩
  simp only [Instr.wellFormed, Bool.and_eq_true, Bool.not_eq_true'] at hw
  simp [decodeWord, decode1C, major_formT, fieldTd_formT, fieldTa_formT, fieldTb_formT, fieldTs_formT, fieldCtl_formT, fnS_formT, sub_18_3_4, sub_18_0_3, verdict, hw.1, hw.2]

theorem tmmasb (td : BitVec 3) (ta : BitVec 3) (tb : BitVec 3) (sat : BitVec 1) (p : BitVec 3) (q : BitVec 3) : Statement (.tmmasb td ta tb sat p q) := by
  rintro hw _ ⟨⟩
  simp only [Instr.wellFormed, Bool.and_eq_true, Bool.not_eq_true'] at hw
  simp [decodeWord, decode1C, major_formT, fieldTd_formT, fieldTa_formT, fieldTb_formT, fieldTs_formT, fieldCtl_formT, fnS_formT, sub_22_6_1, sub_22_3_3, sub_22_0_3, verdict, hw.1, hw.2]

theorem tquant (td : BitVec 3) (s : Reg) (scr : BitVec 1) : Statement (.tquant td s scr) := by
  rintro hw _ ⟨⟩
  simp only [Instr.wellFormed, Bool.and_eq_true, Bool.not_eq_true'] at hw
  simp [decodeWord, decode1D, major_formT, fieldTd_formT, fieldTa_formT, fieldTb_formT, fieldTs_formT, fieldCtl_formT, fnS_formT, sub_20_1_6, sub_20_0_1, verdict, hw.1, hw.2]

theorem tqcb (td : BitVec 3) (s : Reg) (scr : BitVec 1) : Statement (.tqcb td s scr) := by
  rintro hw _ ⟨⟩
  simp only [Instr.wellFormed, Bool.and_eq_true, Bool.not_eq_true'] at hw
  simp [decodeWord, decode1D, major_formT, fieldTd_formT, fieldTa_formT, fieldTb_formT, fieldTs_formT, fieldCtl_formT, fnS_formT, sub_20_1_6, sub_20_0_1, verdict, hw.1, hw.2]

theorem bgemv (d : Reg) (a : Reg) (scope : BitVec 3) (geo : Reg) : Statement (.bgemv d a scope geo) := by
  rintro hw _ ⟨⟩
  simp only [Instr.wellFormed, Bool.and_eq_true, Bool.not_eq_true'] at hw
  simp [decodeWord, decode20, major_formS, fieldD_formS, fieldA_formS, code10_formS, fnS_formS, sub_23_9_1, sub_23_6_3, sub_23_0_6, verdict, hw.1, hw.2]

theorem bfence : Statement .bfence := by
  rintro hw _ ⟨⟩
  simp only [Instr.wellFormed, Bool.and_eq_true, Bool.not_eq_true'] at hw
  simp [decodeWord, decode20, major_formS, fieldD_formS, fieldA_formS, code10_formS, fnS_formS, verdict, hw.1, hw.2]

theorem bara (d : Reg) (a : Reg) (scr : BitVec 1) (scope : BitVec 3) : Statement (.bara d a scr scope) := by
  rintro hw _ ⟨⟩
  simp only [Instr.wellFormed, Bool.and_eq_true, Bool.not_eq_true'] at hw
  simp [decodeWord, decode22, major_formS, fieldD_formS, fieldA_formS, code10_formS, fnS_formS, sub_24_4_6, sub_24_3_1, sub_24_0_3, verdict, hw.1, hw.2]

theorem barw (d : Reg) (a : Reg) (scr : BitVec 1) (scope : BitVec 3) : Statement (.barw d a scr scope) := by
  rintro hw _ ⟨⟩
  simp only [Instr.wellFormed, Bool.and_eq_true, Bool.not_eq_true'] at hw
  simp [decodeWord, decode22, major_formS, fieldD_formS, fieldA_formS, code10_formS, fnS_formS, sub_24_4_6, sub_24_3_1, sub_24_0_3, verdict, hw.1, hw.2]

theorem bar (d : Reg) (a : Reg) (scr : BitVec 1) (scope : BitVec 3) : Statement (.bar d a scr scope) := by
  rintro hw _ ⟨⟩
  simp only [Instr.wellFormed, Bool.and_eq_true, Bool.not_eq_true'] at hw
  simp [decodeWord, decode22, major_formS, fieldD_formS, fieldA_formS, code10_formS, fnS_formS, sub_24_4_6, sub_24_3_1, sub_24_0_3, verdict, hw.1, hw.2]

theorem gbar : Statement .gbar := by
  rintro hw _ ⟨⟩
  simp only [Instr.wellFormed, Bool.and_eq_true, Bool.not_eq_true'] at hw
  simp [decodeWord, decode22, major_formS, fieldD_formS, fieldA_formS, code10_formS, fnS_formS, verdict, hw.1, hw.2]

theorem sigw (d : Reg) (a : Reg) (cond : BitVec 2) (scope : BitVec 3) : Statement (.sigw d a cond scope) := by
  rintro hw _ ⟨⟩
  simp only [Instr.wellFormed, Bool.and_eq_true, Bool.not_eq_true'] at hw
  simp [decodeWord, decode22, major_formS, fieldD_formS, fieldA_formS, code10_formS, fnS_formS, sub_25_5_5, sub_25_3_2, sub_25_0_3, verdict, hw.1, hw.2]

theorem sigp (d : Reg) (a : Reg) (set : BitVec 1) (scope : BitVec 3) : Statement (.sigp d a set scope) := by
  rintro hw _ ⟨⟩
  simp only [Instr.wellFormed, Bool.and_eq_true, Bool.not_eq_true'] at hw
  simp [decodeWord, decode22, major_formS, fieldD_formS, fieldA_formS, code10_formS, fnS_formS, sub_24_4_6, sub_24_3_1, sub_24_0_3, verdict, hw.1, hw.2]

theorem wpop (d : Reg) (a : Reg) (try_ : BitVec 1) (q : BitVec 4) : Statement (.wpop d a try_ q) := by
  rintro hw _ ⟨⟩
  simp only [Instr.wellFormed, Bool.and_eq_true, Bool.not_eq_true'] at hw
  simp [decodeWord, decode22, major_formS, fieldD_formS, fieldA_formS, code10_formS, fnS_formS, sub_26_5_5, sub_26_4_1, sub_26_0_4, verdict, hw.1, hw.2]

theorem trap (d : Reg) (a : Reg) (call : BitVec 10) : Statement (.trap d a call) := by
  rintro hw _ ⟨⟩
  simp only [Instr.wellFormed, Bool.and_eq_true, Bool.not_eq_true'] at hw
  simp [decodeWord, decode24, major_formS, fieldD_formS, fieldA_formS, code10_formS, fnS_formS, verdict, hw.1, hw.2]

theorem brk (call : BitVec 10) : Statement (.brk call) := by
  rintro hw _ ⟨⟩
  simp only [Instr.wellFormed, Bool.and_eq_true, Bool.not_eq_true'] at hw
  simp [decodeWord, decode24, major_formS, fieldD_formS, fieldA_formS, code10_formS, fnS_formS, verdict, hw.1, hw.2]

theorem racqWait (blocks : BitVec 7) : Statement (.racqWait blocks) := by
  rintro hw _ ⟨⟩
  simp only [Instr.wellFormed, Bool.and_eq_true, Bool.not_eq_true'] at hw
  simp [decodeWord, decode24, major_formS, fieldD_formS, fieldA_formS, code10_formS, fnS_formS, sub_27_8_2, sub_27_8_1, sub_27_9_1, sub_27_1_7, sub_27_0_1, verdict, hw.1, hw.2]

theorem racqTry (d : BitVec 3) (blocks : BitVec 7) : Statement (.racqTry d blocks) := by
  rintro hw _ ⟨⟩
  simp only [Instr.wellFormed, Bool.and_eq_true, Bool.not_eq_true'] at hw
  simp [decodeWord, decode24, major_formS, fieldD_formS, fieldA_formS, code10_formS, fnS_formS, sub_2_3_3, sub_2_0_3, sub_28_8_2, sub_28_8_1, sub_28_9_1, sub_28_1_7, sub_28_0_1, verdict, hw.1, hw.2]

theorem rrel (blocks : BitVec 7) : Statement (.rrel blocks) := by
  rintro hw _ ⟨⟩
  simp only [Instr.wellFormed, Bool.and_eq_true, Bool.not_eq_true'] at hw
  simp [decodeWord, decode24, major_formS, fieldD_formS, fieldA_formS, code10_formS, fnS_formS, sub_27_8_2, sub_27_8_1, sub_27_9_1, sub_27_1_7, sub_27_0_1, verdict, hw.1, hw.2]

theorem boost (d : BitVec 3) (us : BitVec 10) : Statement (.boost d us) := by
  rintro hw _ ⟨⟩
  simp only [Instr.wellFormed, Bool.and_eq_true, Bool.not_eq_true'] at hw
  simp [decodeWord, decode24, major_formS, fieldD_formS, fieldA_formS, code10_formS, fnS_formS, sub_2_3_3, sub_2_0_3, verdict, hw.1, hw.2]

theorem wmark (valid : BitVec 1) : Statement (.wmark valid) := by
  rintro hw _ ⟨⟩
  simp only [Instr.wellFormed, Bool.and_eq_true, Bool.not_eq_true'] at hw
  simp [decodeWord, decode24, major_formS, fieldD_formS, fieldA_formS, code10_formS, fnS_formS, sub_29_1_9, sub_29_0_1, verdict, hw.1, hw.2]

theorem dlr (d : Reg) : Statement (.dlr d) := by
  rintro hw _ ⟨⟩
  simp only [Instr.wellFormed, Bool.and_eq_true, Bool.not_eq_true'] at hw
  simp [decodeWord, decode24, major_formS, fieldD_formS, fieldA_formS, code10_formS, fnS_formS, verdict, hw.1, hw.2]

theorem clk (d : Reg) : Statement (.clk d) := by
  rintro hw _ ⟨⟩
  simp only [Instr.wellFormed, Bool.and_eq_true, Bool.not_eq_true'] at hw
  simp [decodeWord, decode24, major_formS, fieldD_formS, fieldA_formS, code10_formS, fnS_formS, verdict, hw.1, hw.2]

theorem time (d : Reg) : Statement (.time d) := by
  rintro hw _ ⟨⟩
  simp only [Instr.wellFormed, Bool.and_eq_true, Bool.not_eq_true'] at hw
  simp [decodeWord, decode24, major_formS, fieldD_formS, fieldA_formS, code10_formS, fnS_formS, verdict, hw.1, hw.2]

theorem pfxX (payload : BitVec 24) : Statement (.pfxX payload) := by
  rintro hw _ ⟨⟩
  simp only [Instr.wellFormed, Bool.and_eq_true, Bool.not_eq_true'] at hw
  simp [decodeWord, decode3F, major_formP, kindP_formP, payload_formP, verdict, hw.1, hw.2]

theorem pfxM (neg : BitVec 1) (guard : BitVec 3) (rnd : BitVec 3) (sat : BitVec 1) (cache : BitVec 2) : Statement (.pfxM neg guard rnd sat cache) := by
  rintro hw _ ⟨⟩
  simp only [Instr.wellFormed, Bool.and_eq_true, Bool.not_eq_true'] at hw
  simp [decodeWord, decode3F, major_formP, kindP_formP, payload_formP, sub_30_23_1, sub_30_20_3, sub_30_17_3, sub_30_16_1, sub_30_14_2, sub_30_0_14, verdict, hw.1, hw.2]

theorem pfxH (branch : BitVec 2) (reuseB : BitVec 1) (reuseA : BitVec 1) : Statement (.pfxH branch reuseB reuseA) := by
  rintro hw _ ⟨⟩
  simp only [Instr.wellFormed, Bool.and_eq_true, Bool.not_eq_true'] at hw
  simp [decodeWord, decode3F, major_formP, kindP_formP, payload_formP, sub_31_4_20, sub_31_2_2, sub_31_1_1, sub_31_0_1, verdict, hw.1, hw.2]

theorem accessConfirm (id : Nat) : Statement (.accessConfirm id) := by
  intro _ w h; simp [encode] at h

theorem loadComplete (id : Nat) : Statement (.loadComplete id) := by
  intro _ w h; simp [encode] at h

theorem storeAck (id : Nat) : Statement (.storeAck id) := by
  intro _ w h; simp [encode] at h

theorem reductionApply (id : Nat) : Statement (.reductionApply id) := by
  intro _ w h; simp [encode] at h

theorem faultedLineReflush (t : Four) (col : Nat) (asid : Half) (va : DWord) : Statement (.faultedLineReflush t col asid va) := by
  intro _ w h; simp [encode] at h

theorem copyComplete (id : Nat) : Statement (.copyComplete id) := by
  intro _ w h; simp [encode] at h

theorem copyPageHold (id : Nat) (moved : List Nat) : Statement (.copyPageHold id moved) := by
  intro _ w h; simp [encode] at h

theorem copyError (id : Nat) (moved : List Nat) : Statement (.copyError id moved) := by
  intro _ w h; simp [encode] at h

theorem tileOpComplete (id : Nat) : Statement (.tileOpComplete id) := by
  intro _ w h; simp [encode] at h

theorem matrixProductComplete (id : Nat) : Statement (.matrixProductComplete id) := by
  intro _ w h; simp [encode] at h

theorem bgemvConfirm (id : Nat) : Statement (.bgemvConfirm id) := by
  intro _ w h; simp [encode] at h

theorem bgemvRowDeliver (id : Nat) : Statement (.bgemvRowDeliver id) := by
  intro _ w h; simp [encode] at h

theorem restring (gang : Nat) (member : Nat) (beads : List (Nat × Nat)) : Statement (.restring gang member beads) := by
  intro _ w h; simp [encode] at h

theorem launch (t : Four) (queue : Nat) (ctr : Word) : Statement (.launch t queue ctr) := by
  intro _ w h; simp [encode] at h

theorem placementForward (t : Four) (launch : Nat) : Statement (.placementForward t launch) := by
  intro _ w h; simp [encode] at h

theorem gangRetire (gang : Nat) : Statement (.gangRetire gang) := by
  intro _ w h; simp [encode] at h

theorem parkGang (gang : Nat) : Statement (.parkGang gang) := by
  intro _ w h; simp [encode] at h

theorem gangSaveComplete (gang : Nat) : Statement (.gangSaveComplete gang) := by
  intro _ w h; simp [encode] at h

theorem gangRestore (gang : Nat) : Statement (.gangRestore gang) := by
  intro _ w h; simp [encode] at h

theorem waitRecheck (gang : Nat) (member : Nat) (grp : Nat) : Statement (.waitRecheck gang member grp) := by
  intro _ w h; simp [encode] at h

theorem parkedRecordCheck (gang : Nat) : Statement (.parkedRecordCheck gang) := by
  intro _ w h; simp [encode] at h

theorem wakeRegisterWrite (t : Four) (queue : Nat) (v : DWord) : Statement (.wakeRegisterWrite t queue v) := by
  intro _ w h; simp [encode] at h

theorem nodeNop (t : Four) (queue : Nat) (ctr : Word) : Statement (.nodeNop t queue ctr) := by
  intro _ w h; simp [encode] at h

theorem feed (t : Four) (queue : Nat) (ctr : Word) : Statement (.feed t queue ctr) := by
  intro _ w h; simp [encode] at h

theorem write (t : Four) (queue : Nat) (ctr : Word) : Statement (.write t queue ctr) := by
  intro _ w h; simp [encode] at h

theorem signal (t : Four) (queue : Nat) (ctr : Word) : Statement (.signal t queue ctr) := by
  intro _ w h; simp [encode] at h

theorem waitmem (t : Four) (queue : Nat) (ctr : Word) : Statement (.waitmem t queue ctr) := by
  intro _ w h; simp [encode] at h

theorem copy (t : Four) (queue : Nat) (ctr : Word) : Statement (.copy t queue ctr) := by
  intro _ w h; simp [encode] at h

theorem phase (t : Four) (queue : Nat) (ctr : Word) : Statement (.phase t queue ctr) := by
  intro _ w h; simp [encode] at h

theorem timestamp (t : Four) (queue : Nat) (ctr : Word) : Statement (.timestamp t queue ctr) := by
  intro _ w h; simp [encode] at h

theorem nodeEnd (t : Four) (queue : Nat) (ctr : Word) : Statement (.nodeEnd t queue ctr) := by
  intro _ w h; simp [encode] at h

theorem schedulingPass (t : Four) : Statement (.schedulingPass t) := by
  intro _ w h; simp [encode] at h

theorem queueUnmapComplete (t : Four) (queue : Nat) : Statement (.queueUnmapComplete t queue) := by
  intro _ w h; simp [encode] at h

theorem sliceExpiry (t : Four) (queue : Nat) : Statement (.sliceExpiry t queue) := by
  intro _ w h; simp [encode] at h

theorem governorEvaluation (t : Four) (samples : List Nat) : Statement (.governorEvaluation t samples) := by
  intro _ w h; simp [encode] at h

theorem layerMove (gang : Nat) (member : Nat) : Statement (.layerMove gang member) := by
  intro _ w h; simp [encode] at h

theorem columnMove (gang : Nat) : Statement (.columnMove gang) := by
  intro _ w h; simp [encode] at h

theorem columnMoveCancel (gang : Nat) : Statement (.columnMoveCancel gang) := by
  intro _ w h; simp [encode] at h

theorem valveUpdate (t : Four) (base : List Nat) : Statement (.valveUpdate t base) := by
  intro _ w h; simp [encode] at h

theorem hbmStateChange (t : Four) (stack : Four) (temp : Nat) (traffic : Nat) : Statement (.hbmStateChange t stack temp traffic) := by
  intro _ w h; simp [encode] at h

theorem hbmRetrainComplete (t : Four) (stack : Four) : Statement (.hbmRetrainComplete t stack) := by
  intro _ w h; simp [encode] at h

theorem coreGate (t : Four) (col : Nat) (tier : Four) : Statement (.coreGate t col tier) := by
  intro _ w h; simp [encode] at h

theorem columnGate (t : Four) (col : Nat) : Statement (.columnGate t col) := by
  intro _ w h; simp [encode] at h

theorem coreWake (t : Four) (col : Nat) (tier : Four) : Statement (.coreWake t col tier) := by
  intro _ w h; simp [encode] at h

theorem boostLeaseExpiry (gang : Nat) (member : Nat) : Statement (.boostLeaseExpiry gang member) := by
  intro _ w h; simp [encode] at h

theorem trapRecordWrite (t : Four) : Statement (.trapRecordWrite t) := by
  intro _ w h; simp [encode] at h

theorem faultRecordWrite (t : Four) : Statement (.faultRecordWrite t) := by
  intro _ w h; simp [encode] at h

theorem trapqConsWrite (t : Four) (v : DWord) : Statement (.trapqConsWrite t v) := by
  intro _ w h; simp [encode] at h

theorem fltqConsWrite (t : Four) (v : DWord) : Statement (.fltqConsWrite t v) := by
  intro _ w h; simp [encode] at h

theorem resume (t : Four) (block : DWord) : Statement (.resume t block) := by
  intro _ w h; simp [encode] at h

theorem kill (t : Four) (block : DWord) : Statement (.kill t block) := by
  intro _ w h; simp [encode] at h

theorem divert (t : Four) (block : DWord) : Statement (.divert t block) := by
  intro _ w h; simp [encode] at h

theorem retry (t : Four) (index : Word) : Statement (.retry t index) := by
  intro _ w h; simp [encode] at h

theorem fail (t : Four) (index : Word) : Statement (.fail t index) := by
  intro _ w h; simp [encode] at h

theorem watchdog (gang : Nat) (member : Nat) (grp : Nat) : Statement (.watchdog gang member grp) := by
  intro _ w h; simp [encode] at h

theorem divertInstant (t : Four) (launch : Nat) : Statement (.divertInstant t launch) := by
  intro _ w h; simp [encode] at h

theorem remoteDivert (t : Four) (launch : Nat) : Statement (.remoteDivert t launch) := by
  intro _ w h; simp [encode] at h

theorem deadlineKill (t : Four) (launch : Nat) : Statement (.deadlineKill t launch) := by
  intro _ w h; simp [encode] at h

theorem admqTailWrite (t : Four) (v : DWord) : Statement (.admqTailWrite t v) := by
  intro _ w h; simp [encode] at h

theorem createSpace (t : Four) : Statement (.createSpace t) := by
  intro _ w h; simp [encode] at h

theorem destroySpace (t : Four) : Statement (.destroySpace t) := by
  intro _ w h; simp [encode] at h

theorem createQueue (t : Four) : Statement (.createQueue t) := by
  intro _ w h; simp [encode] at h

theorem destroyQueue (t : Four) : Statement (.destroyQueue t) := by
  intro _ w h; simp [encode] at h

theorem bindWq (t : Four) : Statement (.bindWq t) := by
  intro _ w h; simp [encode] at h

theorem setRing (t : Four) : Statement (.setRing t) := by
  intro _ w h; simp [encode] at h

theorem xlateInval (t : Four) : Statement (.xlateInval t) := by
  intro _ w h; simp [encode] at h

theorem setCarveout (t : Four) : Statement (.setCarveout t) := by
  intro _ w h; simp [encode] at h

theorem setSlots (t : Four) : Statement (.setSlots t) := by
  intro _ w h; simp [encode] at h

theorem setWatchdog (t : Four) : Statement (.setWatchdog t) := by
  intro _ w h; simp [encode] at h

theorem setValves (t : Four) : Statement (.setValves t) := by
  intro _ w h; simp [encode] at h

theorem setHbm (t : Four) : Statement (.setHbm t) := by
  intro _ w h; simp [encode] at h

theorem drain (t : Four) : Statement (.drain t) := by
  intro _ w h; simp [encode] at h

theorem selfTest (t : Four) (verdict : TestVerdict) : Statement (.selfTest t verdict) := by
  intro _ w h; simp [encode] at h

theorem stackTest (t : Four) (failing : List ConnFail) : Statement (.stackTest t failing) := by
  intro _ w h; simp [encode] at h

theorem maint (t : Four) : Statement (.maint t) := by
  intro _ w h; simp [encode] at h

theorem setLink (t : Four) : Statement (.setLink t) := by
  intro _ w h; simp [encode] at h

theorem openWindow (t : Four) : Statement (.openWindow t) := by
  intro _ w h; simp [encode] at h

theorem closeWindow (t : Four) : Statement (.closeWindow t) := by
  intro _ w h; simp [encode] at h

theorem patch (t : Four) : Statement (.patch t) := by
  intro _ w h; simp [encode] at h

theorem attest (t : Four) : Statement (.attest t) := by
  intro _ w h; simp [encode] at h

theorem restart (t : Four) (starts : List (Quad TowerStart)) : Statement (.restart t starts) := by
  intro _ w h; simp [encode] at h

theorem linkqTailWrite (t : Four) (v : DWord) : Statement (.linkqTailWrite t v) := by
  intro _ w h; simp [encode] at h

theorem linkTransfer (t : Four) (slot : Nat) : Statement (.linkTransfer t slot) := by
  intro _ w h; simp [encode] at h

theorem linkTransferComplete (t : Four) (slot : Nat) (status : Byte) (data : List Byte) : Statement (.linkTransferComplete t slot status data) := by
  intro _ w h; simp [encode] at h

theorem peerAccess (t : Four) (win : Byte) (peer : Half) (off : DWord) (len : Nat) (write : Option (List Byte)) : Statement (.peerAccess t win peer off len write) := by
  intro _ w h; simp [encode] at h

theorem portDown (t : Four) (port : Four) (retries : Word) : Statement (.portDown t port retries) := by
  intro _ w h; simp [encode] at h

theorem portStateChange (t : Four) (port : Four) (state : BitVec 2) (peersw : Half) : Statement (.portStateChange t port state peersw) := by
  intro _ w h; simp [encode] at h

theorem leaseRenew (t : Four) : Statement (.leaseRenew t) := by
  intro _ w h; simp [encode] at h

theorem leaseClaim (t : Four) : Statement (.leaseClaim t) := by
  intro _ w h; simp [encode] at h

theorem reset (starts : List (Quad TowerStart)) : Statement (.reset starts) := by
  intro _ w h; simp [encode] at h

theorem startTimeout (starts : List (Quad TowerStart)) : Statement (.startTimeout starts) := by
  intro _ w h; simp [encode] at h

theorem ptpSample (t : Four) (reference : Nat) : Statement (.ptpSample t reference) := by
  intro _ w h; simp [encode] at h

theorem lockTimeout (t : Four) : Statement (.lockTimeout t) := by
  intro _ w h; simp [encode] at h

theorem errorDetected (t : Four) (e : ErrorEvent) : Statement (.errorDetected t e) := by
  intro _ w h; simp [encode] at h

theorem targetedSelfTest (t : Four) (unit : Byte) (index : Byte) (verdict : TestVerdict) : Statement (.targetedSelfTest t unit index verdict) := by
  intro _ w h; simp [encode] at h

theorem registerWrite (t : Four) (off : BitVec 18) (size : Nat) (v : DWord) : Statement (.registerWrite t off size v) := by
  intro _ w h; simp [encode] at h

theorem queueMapComplete (t : Four) (queue : Nat) : Statement (.queueMapComplete t queue) := by
  intro _ w h; simp [encode] at h

theorem selfTestTimeout (t : Four) : Statement (.selfTestTimeout t) := by
  intro _ w h; simp [encode] at h

theorem powerLoss : Statement .powerLoss := by
  intro _ w h; simp [encode] at h

theorem hostAccess (asid : Half) (va : DWord) (len : Nat) (write : Option (List Byte)) : Statement (.hostAccess asid va len write) := by
  intro _ w h; simp [encode] at h

end Laws.RoundTrip

end Sys2Proof
end

