-- ==== Sys2Proof/Tests/Slice0.lean ====
section
/-!
SUPPORT. Tests: words written out from the encodings, ill-formed terms refused, small single steps, and for every statement
a concrete state and operands that meet its hypotheses.
-/

set_option Elab.async false

open Sys2Proof Sys2Proof.Machine

namespace Sys2Proof.Tests

/-! ### Ill-formed terms are refused (R143, R157) -/

/-- Unassigned codes and sizes, misaligned register groups (R157). -/
theorem test_illegal_terms_refused :
    ([.srd 1 5, .swr 1 5, .vmovs 1 2 1 0, .smovv 2 1 1 0 0 0, .vcvt 0 0 0 0 31, .vcvt 0 1 0 0 14, .vcvt 1 0 0 0 6,
      .vreds 1 2 11 0, .vscan 1 2 0 11 0, .vld 0 2 0 0 0 0 5, .vld 2 2 0 0 0 0 4, .vst 0 2 0 0 0 5, .vst 1 2 0 0 0 3,
      .sld 1 2 0 0 0 4, .sst 1 2 0 0 4, .vlds 0 2 0 0 0 6, .vlds 2 2 0 0 0 4, .vsts 0 2 0 0 5, .vsts 1 2 0 0 3,
      .vatom 0 2 0 4 15, .vatom 2 2 0 4 13, .vred 0 2 0 4 10, .vred 1 2 0 4 2] : List Instr).all (!·.wellFormed) = true := by
  decide

/-- Reserved field values (R158). -/
theorem test_reserved_terms_refused :
    ([.vmovs 2 2 1 1, .smovv 2 2 1 1 0 0, .smovv 2 2 0 0 1 1, .vcvt 0 0 1 0 0, .vld 0 2 0 0 0 1 2, .sld 1 2 0 0 1 3,
      .vlds 0 2 0 0 1 2, .vatom 0 2 0 6 0, .vred 0 2 0 7 0, .fence 1 1 6, .fence 0 0 4, .settle 6, .tcfg 0 1 3, .tcfg 1 1 1,
      .tmma 0 1 2 6, .tmmas 0 1 2 7, .bgemv 1 2 6 3, .bara 1 2 0 6, .bara 1 2 1 3, .barw 1 2 0 7, .barw 1 2 1 4, .bar 1 2 0 6,
      .bar 1 2 1 3, .sigw 1 2 3 4, .sigw 1 2 0 6, .sigp 1 2 0 6, .boost 1 1001, .pfxM 0 0 6 0 0, .pfxM 0 0 0 0 3,
      .pfxH 3 0 0] : List Instr).all (!·.wellFormed) = true := by
  decide

/-! ### A small state: one workgroup of one strand of eight beads at a word, its group on turn (log 8) -/

def turn0 : Cursor := { gang := 0, member := 0, grp := 0, resv := false }

/-- The launch, workgroup and beads of log 8's one word, with changes, and 4 KiB of scratch. -/
def demoWith (lf : Launch → Launch) (wf : Wg → Wg) (bf : Bead → Bead) : State :=
  let s := placeWord State.reset 0
  { s with cur := some turn0, launches := s.launches.map fun l => lf { l with scratch := 4096 },
           gangs := s.gangs.map fun g => { g with members := g.members.map fun w => wf { w with beads := w.beads.map bf } } }

def demo : State := demoWith id id id

def beads (bf : Bead → Bead) : State := demoWith id id bf

/-- Vector registers 0 and every predicate true. -/
def calm (b : Bead) : Bead := { b with lanes := Quad.fill { v := Vector.replicate 64 0, p := 0xFF } }

/-- s2 holds a mapped address, s3 a scratch offset of 0 and a length of 16, s4 the address of a word that is mapped. -/
def aimed (b : Bead) : Bead := ((calm b).sset 2 bootVa).sset 3 0x1000000000

/-- An operation that has not completed. -/
def openOp : CountedOp := { id := 99, done := false, dests := [], writes := [], load := false }

def waitOf (k : WaitKind) : Wait :=
  { kind := k, scr := false, addr := 0, scope := 0, cond := 0, cmp := 0, dst := 5, sat := none, order := 0, since := 0 }

/-- The word i issues in some state in which P holds of its operands. -/
def Met (i : Instr) (P : Ctx → State → Prop) : Prop := ∃ c s, Issues i c s ∧ P c (c.stamp s)

def holds (i : Instr) (s : State) (P : Ctx → State → Prop) [∀ c s, Decidable (P c s)] : Bool :=
  match s.ctx? with
  | some c => (unitTrap i c).isNone && !c.withheld i && decide (P c (c.stamp s))
  | none => false

theorem met {i : Instr} {P : Ctx → State → Prop} [∀ c s, Decidable (P c s)] (s : State) (h : holds i s P = true) : Met i P := by
  unfold holds at h
  split at h
  · next c hc =>
    simp only [Bool.and_eq_true, Bool.not_eq_true', Option.isNone_iff_eq_none, decide_eq_true_eq] at h
    exact ⟨c, s, ⟨hc, h.1.1, h.1.2⟩, h.2⟩
  · cases h

/-- Whether a confirmation succeeds is decidable. -/
@[reducible] def decOk : (x : Conf) → Decidable (∃ h, x = .ok h)
  | .ok h => isTrue ⟨h, rfl⟩
  | .absent _ => isFalse (by simp)
  | .error => isFalse (by simp)
  | .perm => isFalse (by simp)

/-- What holds of the context of a group on turn. -/
theorem onCtx {P : Ctx → Prop} [∀ c, Decidable (P c)] (s : State) (h : (s.ctx?.any fun c => decide (P c)) = true) :
    ∃ c, s.ctx? = some c ∧ P c := by
  cases hc : s.ctx? with
  | none => simp [hc] at h
  | some c => exact ⟨c, rfl, by simpa [hc] using h⟩

/-! ### Words written field by field (R140) decode to the instructions of R155 -/

def wordA (m d a b : BitVec 6) (g : BitVec 3) (f : BitVec 5) : Word := m ++ (d ++ (a ++ (b ++ (g ++ f))))
def wordB (m d a : BitVec 6) (g f : BitVec 3) (i : BitVec 8) : Word := m ++ (d ++ (a ++ (g ++ (f ++ i))))
def wordC (m : BitVec 6) (g f : BitVec 3) (o : BitVec 20) : Word := m ++ (g ++ (f ++ o))
def wordS (m d a : BitVec 6) (c : BitVec 10) (f : BitVec 4) : Word := m ++ (d ++ (a ++ (c ++ f)))
def wordT (m : BitVec 6) (td ta tb : BitVec 3) (s : BitVec 6) (c : BitVec 7) (f : BitVec 4) : Word :=
  m ++ (td ++ (ta ++ (tb ++ (s ++ (c ++ f)))))

/-- Major 0x00 (R155, R175 to R178). -/
theorem test_decode_branches :
    decodeWord (wordC 0x00 5 0 0xABCDE) = .ok (.bra 5 0xABCDE)
    ∧ decodeWord (wordC 0x00 5 1 0xABCDE) = .ok (.br 5 0xABCDE)
    ∧ decodeWord (wordC 0x00 5 2 0xABCDE) = .ok (.brany 5 0xABCDE)
    ∧ decodeWord (wordC 0x00 5 3 0xABCDE) = .ok (.brall 5 0xABCDE)
    ∧ decodeWord (wordC 0x00 5 4 0xABCDE) = .ok (.call 5 0xABCDE) := by decide +kernel

/-- Major 0x01 (R155, R180 to R186). -/
theorem test_decode_control :
    decodeWord (wordA 0x01 0 0 0 6 0) = .ok (.ret 6)
    ∧ decodeWord (wordA 0x01 0 42 0 6 1) = .ok (.jmpr 42 6)
    ∧ decodeWord (wordA 0x01 0 42 0 6 2) = .ok (.callr 42 6)
    ∧ decodeWord (wordA 0x01 0 0 0 0 3) = .ok .join
    ∧ decodeWord (wordA 0x01 0 0 0 6 4) = .ok (.exit 6)
    ∧ decodeWord (wordA 0x01 0 0 0 0 5) = .ok .clasp
    ∧ decodeWord (wordA 0x01 0 0 0 0 6) = .ok .yield
    ∧ decodeWord (wordA 0x01 0 0 0 0 7) = .ok .nop := by decide +kernel

/-- Major 0x02 (R155, R188). -/
theorem test_decode_scalar :
    decodeWord (wordA 0x02 21 42 11 5 0) = .ok (.sadd 21 42 11 5)
    ∧ decodeWord (wordA 0x02 21 42 11 5 1) = .ok (.ssub 21 42 11 5)
    ∧ decodeWord (wordA 0x02 21 42 11 5 2) = .ok (.smul 21 42 11 5)
    ∧ decodeWord (wordA 0x02 21 42 11 5 3) = .ok (.smulh 21 42 11 5)
    ∧ decodeWord (wordA 0x02 21 42 11 5 4) = .ok (.smulhn 21 42 11 5)
    ∧ decodeWord (wordA 0x02 21 42 11 5 5) = .ok (.sdiv 21 42 11 5)
    ∧ decodeWord (wordA 0x02 21 42 11 5 6) = .ok (.sdivn 21 42 11 5)
    ∧ decodeWord (wordA 0x02 21 42 11 5 7) = .ok (.srem 21 42 11 5)
    ∧ decodeWord (wordA 0x02 21 42 11 5 8) = .ok (.sremn 21 42 11 5)
    ∧ decodeWord (wordA 0x02 21 42 11 5 9) = .ok (.sand 21 42 11 5)
    ∧ decodeWord (wordA 0x02 21 42 11 5 10) = .ok (.sor 21 42 11 5)
    ∧ decodeWord (wordA 0x02 21 42 11 5 11) = .ok (.sxor 21 42 11 5)
    ∧ decodeWord (wordA 0x02 21 42 11 5 12) = .ok (.sshl 21 42 11 5)
    ∧ decodeWord (wordA 0x02 21 42 11 5 13) = .ok (.sshr 21 42 11 5)
    ∧ decodeWord (wordA 0x02 21 42 11 5 14) = .ok (.ssra 21 42 11 5)
    ∧ decodeWord (wordA 0x02 21 42 11 5 15) = .ok (.smin 21 42 11 5)
    ∧ decodeWord (wordA 0x02 21 42 11 5 16) = .ok (.smax 21 42 11 5)
    ∧ decodeWord (wordA 0x02 21 42 11 5 17) = .ok (.sminn 21 42 11 5)
    ∧ decodeWord (wordA 0x02 21 42 11 5 18) = .ok (.smaxn 21 42 11 5)
    ∧ decodeWord (wordA 0x02 21 42 11 5 19) = .ok (.sseq 21 42 11 5)
    ∧ decodeWord (wordA 0x02 21 42 11 5 20) = .ok (.sslt 21 42 11 5)
    ∧ decodeWord (wordA 0x02 21 42 11 5 21) = .ok (.ssltn 21 42 11 5)
    ∧ decodeWord (wordA 0x02 21 42 11 5 22) = .ok (.ssel 21 42 11 5) := by decide +kernel

/-- Major 0x03 (R155, R190); SLI uses no a. -/
theorem test_decode_scalar_immediate :
    decodeWord (wordB 0x03 21 42 5 0 0x9C) = .ok (.saddi 21 42 5 0x9C)
    ∧ decodeWord (wordB 0x03 21 42 5 1 0x9C) = .ok (.sandi 21 42 5 0x9C)
    ∧ decodeWord (wordB 0x03 21 42 5 2 0x9C) = .ok (.sori 21 42 5 0x9C)
    ∧ decodeWord (wordB 0x03 21 42 5 3 0x9C) = .ok (.sxori 21 42 5 0x9C)
    ∧ decodeWord (wordB 0x03 21 42 5 4 0x9C) = .ok (.sshli 21 42 5 0x9C)
    ∧ decodeWord (wordB 0x03 21 42 5 5 0x9C) = .ok (.sshri 21 42 5 0x9C)
    ∧ decodeWord (wordB 0x03 21 42 5 6 0x9C) = .ok (.ssrai 21 42 5 0x9C)
    ∧ decodeWord (wordB 0x03 21 0 5 7 0x9C) = .ok (.sli 21 5 0x9C) := by decide +kernel

/-- Major 0x04 (R155, R192 to R198). -/
theorem test_decode_moves :
    decodeWord (wordS 0x04 21 0 0x01A 0) = .ok (.srd 21 0x01A)
    ∧ decodeWord (wordS 0x04 0 42 0x030 1) = .ok (.swr 42 0x030)
    ∧ decodeWord (wordS 0x04 21 42 0x001 2) = .ok (.vmovs 21 42 0 1)
    ∧ decodeWord (wordS 0x04 20 42 0x002 2) = .ok (.vmovs 20 42 1 0)
    ∧ decodeWord (wordS 0x04 21 42 0x010 3) = .ok (.smovv 21 42 1 0 0 0)
    ∧ decodeWord (wordS 0x04 21 42 0x00B 3) = .ok (.smovv 21 42 0 1 0 3)
    ∧ decodeWord (wordS 0x04 21 42 0x004 3) = .ok (.smovv 21 42 0 0 1 0)
    ∧ decodeWord (wordS 0x04 0 42 0x000 4) = .ok (.sfmt 42) := by decide +kernel

/-- Major 0x06 (R155, R201); words of one operand use no b. -/
theorem test_decode_vector_integer :
    decodeWord (wordA 0x06 21 42 11 5 0) = .ok (.vadd 21 42 11 5)
    ∧ decodeWord (wordA 0x06 21 42 11 5 1) = .ok (.vsub 21 42 11 5)
    ∧ decodeWord (wordA 0x06 21 42 11 5 2) = .ok (.vmul 21 42 11 5)
    ∧ decodeWord (wordA 0x06 21 42 11 5 3) = .ok (.vmulh 21 42 11 5)
    ∧ decodeWord (wordA 0x06 21 42 11 5 4) = .ok (.vmulhn 21 42 11 5)
    ∧ decodeWord (wordA 0x06 21 42 11 5 5) = .ok (.vmad 21 42 11 5)
    ∧ decodeWord (wordA 0x06 21 42 11 5 6) = .ok (.vand 21 42 11 5)
    ∧ decodeWord (wordA 0x06 21 42 11 5 7) = .ok (.vor 21 42 11 5)
    ∧ decodeWord (wordA 0x06 21 42 11 5 8) = .ok (.vxor 21 42 11 5)
    ∧ decodeWord (wordA 0x06 21 42 11 5 9) = .ok (.vandn 21 42 11 5)
    ∧ decodeWord (wordA 0x06 21 42 11 5 10) = .ok (.vshl 21 42 11 5)
    ∧ decodeWord (wordA 0x06 21 42 11 5 11) = .ok (.vshr 21 42 11 5)
    ∧ decodeWord (wordA 0x06 21 42 11 5 12) = .ok (.vsra 21 42 11 5)
    ∧ decodeWord (wordA 0x06 21 42 11 5 13) = .ok (.vmin 21 42 11 5)
    ∧ decodeWord (wordA 0x06 21 42 11 5 14) = .ok (.vmax 21 42 11 5)
    ∧ decodeWord (wordA 0x06 21 42 11 5 15) = .ok (.vminn 21 42 11 5)
    ∧ decodeWord (wordA 0x06 21 42 11 5 16) = .ok (.vmaxn 21 42 11 5)
    ∧ decodeWord (wordA 0x06 21 42 0 5 17) = .ok (.vabs 21 42 5)
    ∧ decodeWord (wordA 0x06 21 42 0 5 18) = .ok (.vneg 21 42 5)
    ∧ decodeWord (wordA 0x06 21 42 0 5 19) = .ok (.vpopc 21 42 5)
    ∧ decodeWord (wordA 0x06 21 42 0 5 20) = .ok (.vclz 21 42 5)
    ∧ decodeWord (wordA 0x06 21 42 0 5 21) = .ok (.vbrev 21 42 5)
    ∧ decodeWord (wordA 0x06 21 42 11 5 22) = .ok (.vsel 21 42 11 5)
    ∧ decodeWord (wordA 0x06 21 42 0 5 23) = .ok (.vmov 21 42 5) := by decide +kernel

/-- Major 0x07 (R155, R202). -/
theorem test_decode_vector_immediate :
    decodeWord (wordB 0x07 21 42 5 0 0x9C) = .ok (.vaddi 21 42 5 0x9C)
    ∧ decodeWord (wordB 0x07 21 42 5 1 0x9C) = .ok (.vandi 21 42 5 0x9C)
    ∧ decodeWord (wordB 0x07 21 42 5 2 0x9C) = .ok (.vori 21 42 5 0x9C)
    ∧ decodeWord (wordB 0x07 21 42 5 3 0x9C) = .ok (.vxori 21 42 5 0x9C)
    ∧ decodeWord (wordB 0x07 21 42 5 4 0x9C) = .ok (.vshli 21 42 5 0x9C)
    ∧ decodeWord (wordB 0x07 21 42 5 5 0x9C) = .ok (.vshri 21 42 5 0x9C)
    ∧ decodeWord (wordB 0x07 21 42 5 6 0x9C) = .ok (.vsrai 21 42 5 0x9C)
    ∧ decodeWord (wordB 0x07 21 0 5 7 0x9C) = .ok (.vli 21 5 0x9C) := by decide +kernel

/-- Major 0x08 (R155, R203). -/
theorem test_decode_predicates :
    decodeWord (wordA 0x08 3 42 11 5 0) = .ok (.vseq 3 42 11 5)
    ∧ decodeWord (wordA 0x08 3 42 11 5 1) = .ok (.vsne 3 42 11 5)
    ∧ decodeWord (wordA 0x08 3 42 11 5 2) = .ok (.vslt 3 42 11 5)
    ∧ decodeWord (wordA 0x08 3 42 11 5 3) = .ok (.vsle 3 42 11 5)
    ∧ decodeWord (wordA 0x08 3 42 11 5 4) = .ok (.vsltn 3 42 11 5)
    ∧ decodeWord (wordA 0x08 3 42 11 5 5) = .ok (.vslen 3 42 11 5)
    ∧ decodeWord (wordA 0x08 3 42 11 5 6) = .ok (.vfseq 3 42 11 5)
    ∧ decodeWord (wordA 0x08 3 42 11 5 7) = .ok (.vfsne 3 42 11 5)
    ∧ decodeWord (wordA 0x08 3 42 11 5 8) = .ok (.vfslt 3 42 11 5)
    ∧ decodeWord (wordA 0x08 3 42 11 5 9) = .ok (.vfsle 3 42 11 5)
    ∧ decodeWord (wordA 0x08 3 42 11 5 10) = .ok (.vfsun 3 42 11 5)
    ∧ decodeWord (wordA 0x08 3 6 1 5 11) = .ok (.pand 3 6 1 5)
    ∧ decodeWord (wordA 0x08 3 6 1 5 12) = .ok (.por 3 6 1 5)
    ∧ decodeWord (wordA 0x08 3 6 1 5 13) = .ok (.pxor 3 6 1 5)
    ∧ decodeWord (wordA 0x08 3 6 1 5 14) = .ok (.pandn 3 6 1 5)
    ∧ decodeWord (wordA 0x08 3 6 0 5 15) = .ok (.pmov 3 6 5) := by decide +kernel

/-- Major 0x09 (R155, R204). -/
theorem test_decode_fields :
    decodeWord (wordA 0x09 21 42 11 5 0) = .ok (.vbfe 21 42 11 5)
    ∧ decodeWord (wordA 0x09 21 42 11 5 1) = .ok (.vbfes 21 42 11 5)
    ∧ decodeWord (wordA 0x09 21 42 11 5 2) = .ok (.vbfi 21 42 11 5) := by decide +kernel

/-- Major 0x0A (R155, R205 to R207). -/
theorem test_decode_float :
    decodeWord (wordA 0x0A 21 42 11 5 0) = .ok (.vfadd 21 42 11 5)
    ∧ decodeWord (wordA 0x0A 21 42 11 5 1) = .ok (.vfsub 21 42 11 5)
    ∧ decodeWord (wordA 0x0A 21 42 11 5 2) = .ok (.vfmul 21 42 11 5)
    ∧ decodeWord (wordA 0x0A 21 42 11 5 3) = .ok (.vfma 21 42 11 5)
    ∧ decodeWord (wordA 0x0A 21 42 11 5 4) = .ok (.vfms 21 42 11 5)
    ∧ decodeWord (wordA 0x0A 21 42 11 5 5) = .ok (.vfnma 21 42 11 5)
    ∧ decodeWord (wordA 0x0A 21 42 11 5 6) = .ok (.vfmin 21 42 11 5)
    ∧ decodeWord (wordA 0x0A 21 42 11 5 7) = .ok (.vfmax 21 42 11 5)
    ∧ decodeWord (wordA 0x0A 21 42 0 5 8) = .ok (.vfabs 21 42 5)
    ∧ decodeWord (wordA 0x0A 21 42 0 5 9) = .ok (.vfneg 21 42 5)
    ∧ decodeWord (wordA 0x0A 21 42 11 5 10) = .ok (.vfcps 21 42 11 5)
    ∧ decodeWord (wordA 0x0A 21 42 0 5 11) = .ok (.vfrnd 21 42 5)
    ∧ decodeWord (wordA 0x0A 21 42 0 5 12) = .ok (.vfcls 21 42 5) := by decide +kernel

/-- Major 0x0B (R155, R208): fn[4] selects f16x2. -/
theorem test_decode_packed :
    decodeWord (wordA 0x0B 21 42 11 5 0) = .ok (.vhadd 21 42 11 5 0)
    ∧ decodeWord (wordA 0x0B 21 42 11 5 17) = .ok (.vhsub 21 42 11 5 1)
    ∧ decodeWord (wordA 0x0B 21 42 11 5 2) = .ok (.vhmul 21 42 11 5 0)
    ∧ decodeWord (wordA 0x0B 21 42 11 5 19) = .ok (.vhfma 21 42 11 5 1)
    ∧ decodeWord (wordA 0x0B 21 42 11 5 4) = .ok (.vhmin 21 42 11 5 0)
    ∧ decodeWord (wordA 0x0B 21 42 11 5 21) = .ok (.vhmax 21 42 11 5 1) := by decide +kernel

/-- Major 0x0C (R155, R209). -/
theorem test_decode_special_functions :
    decodeWord (wordA 0x0C 21 42 0 5 0) = .ok (.vrcp 21 42 5)
    ∧ decodeWord (wordA 0x0C 21 42 0 5 1) = .ok (.vrsq 21 42 5)
    ∧ decodeWord (wordA 0x0C 21 42 0 5 2) = .ok (.vsqrt 21 42 5)
    ∧ decodeWord (wordA 0x0C 21 42 11 5 3) = .ok (.vfdiv 21 42 11 5)
    ∧ decodeWord (wordA 0x0C 21 42 0 5 4) = .ok (.vexp2 21 42 5)
    ∧ decodeWord (wordA 0x0C 21 42 0 5 5) = .ok (.vlog2 21 42 5)
    ∧ decodeWord (wordA 0x0C 21 42 0 5 6) = .ok (.vsin 21 42 5)
    ∧ decodeWord (wordA 0x0C 21 42 0 5 7) = .ok (.vcos 21 42 5)
    ∧ decodeWord (wordA 0x0C 21 42 0 5 8) = .ok (.vtanh 21 42 5) := by decide +kernel

/-- Major 0x0D (R155, R82): fn is the pair. -/
theorem test_decode_conversions :
    decodeWord (wordA 0x0D 21 42 11 5 2) = .ok (.vcvt 21 42 11 5 2)
    ∧ decodeWord (wordA 0x0D 21 42 0 5 0) = .ok (.vcvt 21 42 0 5 0)
    ∧ decodeWord (wordA 0x0D 24 40 0 5 13) = .ok (.vcvt 24 40 0 5 13) := by decide +kernel

/-- Major 0x0E (R155, R214, R215): b is a register, or op with EXCL above it. -/
theorem test_decode_cross_lane :
    decodeWord (wordA 0x0E 21 42 11 5 0) = .ok (.vshfl 21 42 11 5)
    ∧ decodeWord (wordA 0x0E 21 42 11 5 1) = .ok (.vshflx 21 42 11 5)
    ∧ decodeWord (wordA 0x0E 21 42 11 5 2) = .ok (.vshflu 21 42 11 5)
    ∧ decodeWord (wordA 0x0E 21 42 11 5 3) = .ok (.vshfld 21 42 11 5)
    ∧ decodeWord (wordA 0x0E 21 42 0 5 4) = .ok (.vbcst 21 42 5)
    ∧ decodeWord (wordA 0x0E 21 42 0 5 5) = .ok (.vvote 21 42 5)
    ∧ decodeWord (wordA 0x0E 21 42 9 5 6) = .ok (.vreds 21 42 9 5)
    ∧ decodeWord (wordA 0x0E 21 42 41 5 7) = .ok (.vscan 21 42 1 9 5) := by decide +kernel

/-- Majors 0x10 to 0x15 (R155, R156). -/
theorem test_decode_memory :
    decodeWord (wordA 0x10 21 42 11 5 25) = .ok (.vld 21 42 11 5 1 1 1)
    ∧ decodeWord (wordA 0x10 20 42 11 5 4) = .ok (.vld 20 42 11 5 0 0 4)
    ∧ decodeWord (wordA 0x11 22 42 11 5 19) = .ok (.vst 22 42 11 5 1 3)
    ∧ decodeWord (wordA 0x12 21 42 11 5 10) = .ok (.sld 21 42 11 5 1 2)
    ∧ decodeWord (wordA 0x12 21 42 11 5 19) = .ok (.sst 21 42 11 5 3)
    ∧ decodeWord (wordA 0x13 21 42 11 5 8) = .ok (.vlds 21 42 11 5 1 0)
    ∧ decodeWord (wordA 0x13 21 42 11 5 5) = .ok (.vldsDq 21 42 11 5)
    ∧ decodeWord (wordA 0x13 21 42 11 5 18) = .ok (.vsts 21 42 11 5 2)
    ∧ decodeWord (wordA 0x14 20 42 11 4 11) = .ok (.vatom 20 42 11 4 11)
    ∧ decodeWord (wordA 0x15 21 42 11 3 7) = .ok (.vred 21 42 11 3 7) := by decide +kernel

/-- Majors 0x16 and 0x22 (R155, R161, R228 to R237). -/
theorem test_decode_synchronisation :
    decodeWord (wordS 0x16 0 0 0x01C 0) = .ok (.fence 1 1 4)
    ∧ decodeWord (wordS 0x16 0 0 0x003 1) = .ok (.settle 3)
    ∧ decodeWord (wordS 0x16 21 42 0x00B 2) = .ok (.wait 21 42 11)
    ∧ decodeWord (wordS 0x22 21 42 0x00A 0) = .ok (.bara 21 42 1 2)
    ∧ decodeWord (wordS 0x22 21 42 0x00A 1) = .ok (.barw 21 42 1 2)
    ∧ decodeWord (wordS 0x22 21 42 0x00A 2) = .ok (.bar 21 42 1 2)
    ∧ decodeWord (wordS 0x22 0 0 0x000 3) = .ok .gbar
    ∧ decodeWord (wordS 0x22 21 42 0x015 4) = .ok (.sigw 21 42 2 5)
    ∧ decodeWord (wordS 0x22 21 42 0x00D 5) = .ok (.sigp 21 42 1 5)
    ∧ decodeWord (wordS 0x22 21 42 0x019 6) = .ok (.wpop 21 42 1 9) := by decide +kernel

/-- Major 0x18 (R155, R240 to R246). -/
theorem test_decode_copies :
    decodeWord (wordS 0x18 21 42 0x000 0) = .ok (.acopy 21 42)
    ∧ decodeWord (wordS 0x18 21 42 0x000 1) = .ok (.acopyo 21 42)
    ∧ decodeWord (wordS 0x18 21 42 0x000 2) = .ok (.acopyt 21 42)
    ∧ decodeWord (wordS 0x18 21 42 0x00B 3) = .ok (.acopyg 21 42 11)
    ∧ decodeWord (wordS 0x18 21 0 0x000 4) = .ok (.cclose 21)
    ∧ decodeWord (wordS 0x18 0 42 0x000 5) = .ok (.cwait 42) := by decide +kernel

/-- Majors 0x1A to 0x1D (R155, R250 to R260). -/
theorem test_decode_tiles :
    decodeWord (wordT 0x1A 5 0 0 42 0x00 0) = .ok (.tcfg 5 42 0)
    ∧ decodeWord (wordT 0x1A 3 0 0 42 0x01 1) = .ok (.tcb 3 42 1)
    ∧ decodeWord (wordT 0x1A 5 0 0 0 0x00 2) = .ok (.tzero 5)
    ∧ decodeWord (wordT 0x1B 5 0 0 42 0x02 0) = .ok (.tld 5 42 1 0)
    ∧ decodeWord (wordT 0x1B 0 5 0 42 0x01 1) = .ok (.tst 5 42 0 1)
    ∧ decodeWord (wordT 0x1B 5 0 0 42 0x01 2) = .ok (.tldt 5 42 1)
    ∧ decodeWord (wordT 0x1C 0 5 3 42 0x04 0) = .ok (.tmma 5 3 42 4)
    ∧ decodeWord (wordT 0x1C 6 5 3 0 0x6B 1) = .ok (.tmmab 6 5 3 1 5 3)
    ∧ decodeWord (wordT 0x1C 0 5 3 42 0x04 2) = .ok (.tmmas 5 3 42 4)
    ∧ decodeWord (wordT 0x1C 6 5 3 0 0x2B 3) = .ok (.tmmasb 6 5 3 0 5 3)
    ∧ decodeWord (wordT 0x1D 5 0 0 42 0x01 0) = .ok (.tquant 5 42 1)
    ∧ decodeWord (wordT 0x1D 5 0 0 42 0x00 1) = .ok (.tqcb 5 42 0) := by decide +kernel

/-- Major 0x20 (R155, R262, R134). -/
theorem test_decode_bank :
    decodeWord (wordS 0x20 21 42 0x0CB 0) = .ok (.bgemv 21 42 3 11)
    ∧ decodeWord (wordS 0x20 0 0 0x000 1) = .ok .bfence := by decide +kernel

/-- Major 0x24 (R155, R268 to R277). -/
theorem test_decode_system :
    decodeWord (wordS 0x24 21 42 0x2AB 0) = .ok (.trap 21 42 0x2AB)
    ∧ decodeWord (wordS 0x24 0 0 0x2AB 1) = .ok (.brk 0x2AB)
    ∧ decodeWord (wordS 0x24 0 0 0x0AA 2) = .ok (.racqWait 0x55)
    ∧ decodeWord (wordS 0x24 5 0 0x1AA 2) = .ok (.racqTry 5 0x55)
    ∧ decodeWord (wordS 0x24 0 0 0x0AA 3) = .ok (.rrel 0x55)
    ∧ decodeWord (wordS 0x24 5 0 0x3E8 4) = .ok (.boost 5 1000)
    ∧ decodeWord (wordS 0x24 0 0 0x001 5) = .ok (.wmark 1)
    ∧ decodeWord (wordS 0x24 21 0 0x000 6) = .ok (.dlr 21)
    ∧ decodeWord (wordS 0x24 21 0 0x000 7) = .ok (.clk 21)
    ∧ decodeWord (wordS 0x24 21 0 0x000 8) = .ok (.time 21) := by decide +kernel

/-- Major 0x3F (R149, R151, R152). -/
theorem test_decode_prefixes :
    decodeWord (0xFCABCDEF) = .ok (.pfxX 0xABCDEF)
    ∧ decodeWord (0x3F#6 ++ (1#2 ++ (1#1 ++ (6#3 ++ (5#3 ++ (1#1 ++ (2#2 ++ 0#14))))))) = .ok (.pfxM 1 6 5 1 2)
    ∧ decodeWord (0x3F#6 ++ (2#2 ++ (0#20 ++ (2#2 ++ (1#1 ++ 0#1))))) = .ok (.pfxH 2 1 0) := by decide +kernel

/-! ### Witnesses: every word issues somewhere -/

def controlWords : List Instr :=
  [.bra 0 4, .br 1 4, .brany 1 4, .brall 1 4, .call 0 4, .ret 0, .jmpr 2 1, .callr 2 1, .join, .exit 1, .clasp, .yield, .nop]

def scalarWords : List Instr :=
  [.sadd 9 2 3 0, .ssub 9 2 3 0, .smul 9 2 3 0, .smulh 9 2 3 0, .smulhn 9 2 3 0, .sdiv 9 2 3 0, .sdivn 9 2 3 0, .srem 9 2 3 0,
   .sremn 9 2 3 0, .sand 9 2 3 0, .sor 9 2 3 0, .sxor 9 2 3 0, .sshl 9 2 3 0, .sshr 9 2 3 0, .ssra 9 2 3 0, .smin 9 2 3 0,
   .smax 9 2 3 0, .sminn 9 2 3 0, .smaxn 9 2 3 0, .sseq 9 2 3 0, .sslt 9 2 3 0, .ssltn 9 2 3 0, .ssel 9 2 3 0,
   .saddi 9 2 0 255, .sandi 9 2 0 1, .sori 9 2 0 1, .sxori 9 2 0 1, .sshli 9 2 0 63, .sshri 9 2 0 1, .ssrai 9 2 0 1, .sli 9 0 128,
   .srd 9 0x01A, .srd 9 0x000, .swr 2 0x030, .swr 2 0x031, .vmovs 8 2 1 0, .smovv 9 8 1 0 0 0, .sfmt 0]

def vectorWords : List Instr :=
  [.vadd 9 2 3 0, .vsub 9 2 3 0, .vmul 9 2 3 0, .vmulh 9 2 3 0, .vmulhn 9 2 3 0, .vmad 9 2 3 0, .vand 9 2 3 0, .vor 9 2 3 0,
   .vxor 9 2 3 0, .vandn 9 2 3 0, .vshl 9 2 3 0, .vshr 9 2 3 0, .vsra 9 2 3 0, .vmin 9 2 3 0, .vmax 9 2 3 0, .vminn 9 2 3 0,
   .vmaxn 9 2 3 0, .vsel 9 2 3 0, .vabs 9 2 0, .vneg 9 2 0, .vpopc 9 2 0, .vclz 9 2 0, .vbrev 9 2 0, .vmov 9 2 0,
   .vaddi 9 2 0 255, .vandi 9 2 0 1, .vori 9 2 0 1, .vxori 9 2 0 1, .vshli 9 2 0 31, .vshri 9 2 0 1, .vsrai 9 2 0 1, .vli 9 0 128,
   .vbfe 9 2 3 0, .vbfes 9 2 3 0, .vbfi 9 2 3 0, .vseq 1 2 3 0, .vsne 1 2 3 0, .vslt 1 2 3 0, .vsle 1 2 3 0, .vsltn 1 2 3 0,
   .vslen 1 2 3 0, .pand 1 2 3 0, .por 1 2 3 0, .pxor 1 2 3 0, .pandn 1 2 3 0, .pmov 1 2 0, .vfcps 9 2 3 0, .vfabs 9 2 0,
   .vfneg 9 2 0, .vfcls 9 2 0, .vshfl 9 2 3 0, .vshflx 9 2 3 0, .vshflu 9 2 3 0, .vshfld 9 2 3 0, .vbcst 9 2 0, .vvote 9 2 0,
   .vreds 9 2 10 0, .vscan 9 2 1 10 0]

def otherWords : List Instr := [.cclose 9, .wmark 1, .dlr 9, .clk 9, .time 9]

/-- Every word that issues whatever its operands hold. -/
theorem wit_words_issue : ∀ i ∈ controlWords ++ scalarWords ++ vectorWords ++ otherWords, ∃ c, Issues i c (beads aimed) := by
  have key : ((beads aimed).ctx?.any fun c => (controlWords ++ scalarWords ++ vectorWords ++ otherWords).all fun i =>
      (unitTrap i c).isNone && !c.withheld i) = true := by decide +kernel
  intro i hi
  cases hc : (beads aimed).ctx? with
  | none => simp [hc] at key
  | some c =>
    simp only [hc, Option.any_some, List.all_eq_true, Bool.and_eq_true, Bool.not_eq_true', Option.isNone_iff_eq_none] at key
    exact ⟨c, hc, (key i hi).1, (key i hi).2⟩

def floatWords : List (Instr × List FloatRead) :=
  [(.vfadd 9 2 3 0, [.word 2, .word 3]), (.vfsub 9 2 3 0, [.word 2, .word 3]), (.vfmul 9 2 3 0, [.word 2, .word 3]),
   (.vfmin 9 2 3 0, [.word 2, .word 3]), (.vfmax 9 2 3 0, [.word 2, .word 3]), (.vfdiv 9 2 3 0, [.word 2, .word 3]),
   (.vfma 9 2 3 0, [.word 2, .word 3, .word 9]), (.vfms 9 2 3 0, [.word 2, .word 3, .word 9]),
   (.vfnma 9 2 3 0, [.word 2, .word 3, .word 9]), (.vfrnd 9 2 0, [.word 2]), (.vsqrt 9 2 0, [.word 2]), (.vrcp 9 2 0, [.word 2]),
   (.vrsq 9 2 0, [.word 2]), (.vexp2 9 2 0, [.word 2]), (.vlog2 9 2 0, [.word 2]), (.vsin 9 2 0, [.word 2]), (.vcos 9 2 0, [.word 2]),
   (.vtanh 9 2 0, [.word 2]), (.vfseq 1 2 3 0, [.word 2, .word 3]), (.vfsne 1 2 3 0, [.word 2, .word 3]),
   (.vfslt 1 2 3 0, [.word 2, .word 3]), (.vfsle 1 2 3 0, [.word 2, .word 3]), (.vfsun 1 2 3 0, [.word 2, .word 3]),
   (.vhadd 9 2 3 0 0, [.halves 2 (halfFmt 0), .halves 3 (halfFmt 0)]), (.vhsub 9 2 3 0 1, [.halves 2 (halfFmt 1), .halves 3 (halfFmt 1)]),
   (.vhmul 9 2 3 0 0, [.halves 2 (halfFmt 0), .halves 3 (halfFmt 0)]), (.vhmin 9 2 3 0 0, [.halves 2 (halfFmt 0), .halves 3 (halfFmt 0)]),
   (.vhmax 9 2 3 0 1, [.halves 2 (halfFmt 1), .halves 3 (halfFmt 1)]),
   (.vhfma 9 2 3 0 1, [.halves 2 (halfFmt 1), .halves 3 (halfFmt 1), .halves 9 (halfFmt 1)])]

/-- The words that trap on a signalling NaN issue on operands that are none. -/
theorem wit_float_words_issue : ∀ x ∈ floatWords, Met x.1 (quiet 0 x.2) := by
  have key : (floatWords.all fun x => holds x.1 (beads aimed) fun c _ => snanOf c.beads (fun b => b.lanesOn 0 c.neg) x.2 = none) = true := by
    decide +kernel
  intro x hx
  exact met (P := fun c _ => snanOf c.beads (fun b => b.lanesOn 0 c.neg) x.2 = none) (beads aimed) (List.all_eq_true.mp key x hx)

/-- A register that nothing has written holds a signalling NaN (R53). -/
theorem wit_snan : Met (.vfadd 9 2 3 0) (fun c _ => (snanOf c.beads (fun x => x.lanesOn 0 c.neg) [.word 2, .word 3]).isSome = true)
    ∧ Met (.vfma 9 2 3 0) (fun c _ => (snanOf c.beads (fun x => x.lanesOn 0 c.neg) [.word 2, .word 3, .word 9]).isSome = true)
    ∧ Met (.vfseq 1 2 3 0) (fun c _ => (snanOf c.beads (fun x => x.lanesOn 0 c.neg) [.word 2, .word 3]).isSome = true) :=
  ⟨met demo (by decide +kernel), met demo (by decide +kernel), met demo (by decide +kernel)⟩

/-- VCVT at either end of the pair table that FMT does not decide. -/
theorem wit_vcvt : ∀ fn ∈ [(0 : BitVec 5), 13, 28], Met (.vcvt 8 16 0 0 fn)
    (fun c _ => cvtMisaligned fn c.lead.fmt 8 16 = false ∧ (cvtUsesCb fn c.lead.fmt && c.wg.tile.isNone) = false ∧
      snanOf c.beads (fun x => x.lanesOn 0 c.neg) ((cvtPair fn (fmtElem c.lead.fmt)).1.reads 16 0) = none) := by
  have key : ([(0 : BitVec 5), 13, 28].all fun fn => holds (.vcvt 8 16 0 0 fn) (beads aimed)
    (fun c _ => cvtMisaligned fn c.lead.fmt 8 16 = false ∧ (cvtUsesCb fn c.lead.fmt && c.wg.tile.isNone) = false ∧
      snanOf c.beads (fun x => x.lanesOn 0 c.neg) ((cvtPair fn (fmtElem c.lead.fmt)).1.reads 16 0) = none)) = true := by decide +kernel
  intro fn h
  exact met (beads aimed) (List.all_eq_true.mp key fn h)

/-! ### Witnesses: control, moves, registers -/

theorem wit_words_decode_back : Instr.wellFormed (.vadd 63 63 63 7) = true ∧ encode (.vadd 63 63 63 7) = some 0x1BFFFFE0 := by decide

theorem wit_unassigned_majors : (major 0x14000000).toNat ∈ [0x05, 0x0F, 0x17, 0x19, 0x1E, 0x1F, 0x21, 0x23]
    ∧ (0x25 ≤ (major 0x94000000).toNat ∧ (major 0x94000000).toNat ≤ 0x3E) ∧ (0x25 ≤ (major 0xFBFFFFFF).toNat ∧ (major 0xFBFFFFFF).toNat ≤ 0x3E) := by
  decide

/-- A placed word is what the step fetches and runs: the group has its turn. -/
theorem wit_step_runs_fetched_word : ∃ s c i t gang member grp rest, s.agenda = .issue gang member grp :: rest ∧
    State.ctx? { prelude s with agenda := rest, cur := some { gang, member, grp, resv := false } } = some c ∧
    c.lead.mayIssue = true ∧ (c.core (prelude s)).runs = true ∧ c.lead.held = none ∧
    c.onTurn { prelude s with agenda := rest, cur := some { gang, member, grp, resv := false } } = true ∧
    fetch c { prelude s with agenda := rest, cur := some { gang, member, grp, resv := false } } = .run i t := by
  let s := State.reset.withFetchWord 32 0x04000007
  have ha : s.agenda = [.issue 0 0 0] := by decide +kernel
  have key : (State.ctx? { prelude s with agenda := [], cur := some turn0 }).any (fun c => c.lead.mayIssue && (c.core (prelude s)).runs
      && c.lead.held.isNone && c.onTurn { prelude s with agenda := [], cur := some turn0 } && match fetch c { prelude s with agenda := [], cur := some turn0 } with | .run _ _ => true | .stop _ => false) = true := by
    decide +kernel
  cases hc : State.ctx? { prelude s with agenda := [], cur := some turn0 } with
  | none => simp [hc] at key
  | some c =>
    simp only [hc, Option.any_some, Bool.and_eq_true, Option.isNone_iff_eq_none] at key
    cases hf : fetch c { prelude s with agenda := [], cur := some turn0 } with
    | stop t => simp [hf] at key
    | run i t => exact ⟨s, c, i, t, 0, 0, 0, [], ha, hc, key.1.1.1.1, key.1.1.1.2, key.1.1.2, key.1.2, hf⟩

theorem wit_step_keeps_memory_form : State.Inv (State.reset.withFetchWord 32 0x04000007)
    ∧ ∃ t, step (State.reset.withFetchWord 32 0x04000007) = .next t := by
  refine ⟨by unfold State.Inv; decide +kernel, ?_⟩
  have key : (match step (State.reset.withFetchWord 32 0x04000007) with | .next _ => true | _ => false) = true := by decide +kernel
  cases h : step (State.reset.withFetchWord 32 0x04000007) with
  | next t => exact ⟨t, rfl⟩
  | fault r => simp [h] at key
  | refused r => simp [h] at key

theorem wit_fetch_decodes : ∃ c s h i, inCode c.l c.pc = true ∧ confCol s c.tower c.col c.asid c.pc .fetch = .ok h
    ∧ decodeWord (fetchAt c s c.pc h).2 = .ok i ∧ c.lead.xfer = false := by
  have key : (demo.ctx?.any fun c => inCode c.l c.pc && !c.lead.xfer && match confCol demo c.tower c.col c.asid c.pc .fetch with
      | .ok h => (match decodeWord (fetchAt c demo c.pc h).2 with | .ok _ => true | _ => false) | _ => false) = true := by decide +kernel
  cases hc : demo.ctx? with
  | none => simp [hc] at key
  | some c =>
    simp only [hc, Option.any_some, Bool.and_eq_true, Bool.not_eq_true'] at key
    cases hh : confCol demo c.tower c.col c.asid c.pc .fetch with
    | ok h =>
      cases hd : decodeWord (fetchAt c demo c.pc h).2 with
      | ok i => exact ⟨c, demo, h, i, key.1.1, hh, hd, key.1.2⟩
      | reserved i => simp [hh, hd] at key
      | illegal => simp [hh, hd] at key
    | absent e => simp [hh] at key
    | error => simp [hh] at key
    | perm => simp [hh] at key

theorem wit_memory : Memory.wf [] = true ∧ Memory.wf [(3, 7), (4, 1)] = true ∧ Memory.wf [(3, 0)] = false ∧ Memory.wf [(3, 1), (3, 2)] = false := by decide

theorem wit_lane_writes : laneIn (0x8 : Mask) 3 = true ∧ laneIn (0x1 : Mask) 0 = true := by decide

theorem wit_scalar_immediates : ([] : List Pfx).all (·.kind != .x) = true
    ∧ ([{ kind := .m, payload := 0, resv := false }] : List Pfx).all (·.kind != .x) = true := by decide

theorem wit_division : (BitVec.intMin 64).toInt = -2 ^ 63 ∧ (-1 : DWord).toInt = -1 ∧ ¬((7 : DWord).toInt = -2 ^ 63 ∧ (-1 : DWord).toInt = -1)
    ∧ (2 : DWord) ≠ 0 := by decide

theorem wit_special_registers : SReg.ofCode 0x000 = some .lane ∧ SReg.ofCode 0x031 = some .why ∧ SReg.lane.writable = false
    ∧ SReg.ofCode 5 = none ∧ SReg.ofCode 0x3FF = none ∧ ∃ c, Issues (.swr 2 0) c demo := by
  refine ⟨by decide, by decide, by decide, by decide, by decide, ?_⟩
  obtain ⟨c, hc, h⟩ := onCtx (P := fun c => unitTrap (.swr 2 0) c = none ∧ c.withheld (.swr 2 0) = false) demo (by decide +kernel)
  exact ⟨c, hc, h.1, h.2⟩

theorem wit_sfmt : Met (.sfmt 0) fun c _ => fmtReserved ((c.lead.sget 0).setWidth 12) = false := met demo (by decide +kernel)

def entry0 : RecEntry := { maskAll := 0xF, maskNt := 0, pcNt := 0, fmt := 0, phase := false }

def deep (n : Nat) (b : Bead) : Bead := { b with stack := List.replicate n entry0 }

/-- Fifteen entries leave room for one; sixteen leave none. -/
theorem wit_branches : Met (.bra 1 4) (fun c _ => (1 : BitVec 3) = 0 ∨ ∀ b ∈ c.beads, b.stack.length < 16)
    ∧ Met (.call 0 4) (fun c _ => (0 : BitVec 3) = 0 ∨ ∀ b ∈ c.beads, b.stack.length < 16)
    ∧ Met (.bra 1 4) (fun c _ => (1 : BitVec 3) ≠ 0 ∧ ∃ b ∈ c.beads, 16 ≤ b.stack.length)
    ∧ Met (.call 1 4) (fun c _ => (1 : BitVec 3) ≠ 0 ∧ ∃ b ∈ c.beads, 16 ≤ b.stack.length) :=
  ⟨met (beads (deep 15)) (by decide +kernel), met demo (by decide +kernel), met (beads (deep 16)) (by decide +kernel),
   met (beads (deep 16)) (by decide +kernel)⟩

def group0 : Wg := { bootWg true 0 with beads := [Bead.start 0 0 0 0 0 0, Bead.start 0 1 0 0 0 0] }

theorem wit_groups_branch_as_one : group0.group 0 ≠ [] ∧ ∀ b ∈ group0.beads, b.inGrp 0 = true → b.pc = 0 ∧ b.fmt = 0 := by decide

theorem wit_jumps :
    Met (.ret 0) (fun c _ => ∀ b ∈ c.beads, b.guardLow 0 c.neg = true → (b.sget 63).extractLsb' 0 2 = 0)
    ∧ Met (.jmpr 2 0) (fun c _ => ∀ b ∈ c.beads, b.guardLow 0 c.neg = true → (b.sget 2).extractLsb' 0 2 = 0)
    ∧ Met (.callr 2 0) (fun c _ => ∀ b ∈ c.beads, b.guardLow 0 c.neg = true → (b.sget 2).extractLsb' 0 2 = 0)
    ∧ Met (.ret 0) (fun c _ => (c.beads.find? fun b => b.guardLow 0 c.neg && (b.sget 63).extractLsb' 0 2 != 0) ≠ none)
    ∧ Met (.jmpr 2 0) (fun c _ => (c.beads.find? fun b => b.guardLow 0 c.neg && (b.sget 2).extractLsb' 0 2 != 0) ≠ none)
    ∧ Met (.callr 2 0) (fun c _ => (c.beads.find? fun b => b.guardLow 0 c.neg && (b.sget 2).extractLsb' 0 2 != 0) ≠ none) :=
  ⟨met (beads aimed) (by decide +kernel), met (beads aimed) (by decide +kernel), met (beads aimed) (by decide +kernel),
   met (beads (·.sset 63 3)) (by decide +kernel), met (beads (·.sset 2 3)) (by decide +kernel), met (beads (·.sset 2 3)) (by decide +kernel)⟩

/-- A unit that has one prefix takes a second. -/
theorem wit_prefixes : ∃ s c, State.ctx? s = some c ∧ c.pfx.length < 2 ∧ c.pfx ≠ [] := by
  obtain ⟨c, hc, h⟩ := onCtx (P := fun c => c.pfx.length < 2 ∧ c.pfx ≠ [])
    (beads fun b => { b with pfx := [{ kind := .x, payload := 0, resv := false }] }) (by decide +kernel)
  exact ⟨_, c, hc, h⟩

theorem wit_reconvergence : (Bead.start 0 0 0 0 0 0).exited = 0 ∧ ∃ m, (0b0101 : Mask) = (Bead.start 0 0 0 0 0 0).active &&& m :=
  ⟨rfl, 0b0101, by decide⟩

/-- Each check of R159 fails somewhere where the checks before it pass; a third prefix. -/
theorem wit_checks :
    (∃ c, (beads calm).ctx? = some c ∧ illegalFields (.srd 1 5) = true)
    ∧ (∃ c, (beads fun b => { b with pfx := [{ kind := .x, payload := 0, resv := false }] }).ctx? = some c ∧ misuse .nop c.pfx = true)
    ∧ (∃ c, (beads fun b => { b with xfer := true }).ctx? = some c ∧ c.lead.xfer = true)
    ∧ (∃ c, ({ beads calm with cur := some { turn0 with resv := true } } : State).ctx? = some c ∧ misuse (.vvote 9 2 0) c.pfx = false ∧ c.cur.resv = true)
    ∧ (∃ c, (beads fun b => { b with grp := if b.pos = 0 then 0 else 1 }).ctx? = some c ∧ collective (.tzero 0) = true ∧ parted c.wg c.lead = true)
    ∧ (∃ c, (beads fun b => { b with entry := 32 }).ctx? = some c ∧ parted c.wg c.lead = false ∧ 32 ≤ c.lead.entry)
    ∧ (∃ c, (demoWith id (fun w => { w with strands := w.strands.map fun x => { x with blocks := 1 } }) calm).ctx? = some c
        ∧ blockHeld c.blocks (false, 7) = true ∧ blockHeld c.blocks (false, 8) = false)
    ∧ (∃ c, (beads fun b => { b with pendV := 4 }).ctx? = some c ∧ ∃ b ∈ c.beads, pendingIn b (false, 2) = true)
    ∧ ∃ c, (beads fun b => { b with pfx := List.replicate 2 { kind := .x, payload := 0, resv := false } }).ctx? = some c ∧ 2 ≤ c.pfx.length := by
  and_intros <;> exact onCtx _ (by decide +kernel)

/-- A discarded write leaves the rest to happen: blocks that fit, a guarded CALL. -/
theorem wit_discarded_writes :
    Met (.racqTry 0 1) (fun c s => c.holdsAny 1 = false ∧ (1 : BitVec 7) ≠ 0 ∧ c.racqFits (serveCore s c.tower c.col c.wg.tier) 1 = true)
    ∧ Met (.call 1 4) (fun c _ => (1 : BitVec 3) = 0 ∨ ∀ b ∈ c.beads, b.stack.length < 16) :=
  ⟨met (demoWith id (fun w => { w with strands := w.strands.map fun x => { x with blocks := 1 } }) calm) (by decide +kernel), met demo (by decide +kernel)⟩

/-- R64: beads that have come together from groups with different turns still get their turn. -/
theorem test_merged_group_issues : ∃ c, (beads fun b => if b.pos = 0 then { b with turn := 9 } else b).ctx? = some c
    ∧ c.lead.ready = true ∧ c.lead.turn = 9
    ∧ c.onTurn (beads fun b => if b.pos = 0 then { b with turn := 9 } else b) = true :=
  onCtx _ (by decide +kernel)

/-- Two ready groups on one slot: the agenda names one before its turn. -/
theorem wit_not_on_turn : ∃ c, (beads fun b => if b.pos = 0 then { b with turn := 9 } else { b with grp := 1 }).ctx? = some c
    ∧ c.lead.mayIssue = true
    ∧ (c.core (beads fun b => if b.pos = 0 then { b with turn := 9 } else { b with grp := 1 })).runs = true
    ∧ c.onTurn (beads fun b => if b.pos = 0 then { b with turn := 9 } else { b with grp := 1 }) = false :=
  onCtx _ (by decide +kernel)

/-- A fetch beyond the code, without a translation, and from an absent page. -/
theorem wit_fetch_fails :
    (∃ c, (beads fun b => { b with pc := bootVa + 4 }).ctx? = some c ∧ inCode c.l c.pc = false)
    ∧ (∃ c, (demoWith (fun l => { l with asid := 7 }) id id).ctx? = some c
        ∧ c.conf (demoWith (fun l => { l with asid := 7 }) id id) .fetch c.pc = .error)
    ∧ ∃ c, (demoWith (fun l => { l with code := bootVa + 0x10000 }) id fun b => { b with pc := bootVa + 0x10000 }).ctx? = some c
        ∧ inCode c.l c.pc = true
        ∧ (c.conf (demoWith (fun l => { l with code := bootVa + 0x10000 }) id fun b => { b with pc := bootVa + 0x10000 }) .fetch c.pc).isAbsent = true :=
  ⟨onCtx _ (by decide +kernel), onCtx _ (by decide +kernel), onCtx _ (by decide +kernel)⟩

/-- A column whose cache part holds nothing but faulted accumulator lines: no line of it can be replaced (R126). -/
def choked : State := (beads calm).updTower 0 fun tw => { tw with cols := tw.cols.map fun co =>
  { co with steps := 10, lines := [], acc := List.replicate 4096 { asid := bootAsid, va := 0, op := .addI32, words := Vector.replicate 32 0, touched := 1, gang := 0, w := 0, payer := none, faulted := true } } }

theorem wit_no_room : ∃ c, choked.ctx? = some c ∧ (noRoom choked c.tower c.col && c.needsLine choked { b := c.lead, va := c.pc, n := 4 }) = true :=
  onCtx _ (by decide +kernel)

theorem wit_traps : Met (.sadd 9 2 3 0) (fun c _ => (c.l.divertOnTrap && (4 : Byte) != 0x0A) = false)
    ∧ (Bead.start 0 0 0 0 0 0).live = true ∧ ({ Bead.start 0 0 0 0 0 0 with active := 0 } : Bead).live = false
    ∧ ∃ s c, State.ctx? s = some c ∧ (c.l.divertOnTrap && c.lead.diverted) = true := by
  refine ⟨met demo (by decide +kernel), by decide, by decide, ?_⟩
  obtain ⟨c, hc, h⟩ := onCtx (P := fun c => (c.l.divertOnTrap && c.lead.diverted) = true)
    (demoWith (fun l => { l with divertOnTrap := true }) id fun b => { b with diverted := true }) (by decide +kernel)
  exact ⟨_, c, hc, h⟩

/-! ### Witnesses: memory words (R217 to R226) -/

def openOps (b : Bead) : Bead := { aimed b with lops := List.replicate 63 openOp, sops := List.replicate 63 openOp, tops := List.replicate 63 openOp }

/-- s2 holds an address that is no multiple of 2. -/
def crooked (b : Bead) : Bead := (calm b).sset 2 (bootVa + 1)

/-- No predicate but p0 holds. -/
def unguarded (b : Bead) : Bead := { (aimed b) with lanes := Quad.fill { v := Vector.replicate 64 0, p := 1 } }

/-- One bead of one lane at an address. -/
def alone (va : DWord) (b : Bead) : Bead := if b.pos = 0 then { (calm b).sset 2 va with active := 1 } else { b with active := 0 }

def withDefers (n : Nat) (s : State) : State :=
  s.updGang 0 fun g => { g with defers := List.replicate n { va := bootVa + 0x100000, op := .addF32, value := 0, w := 0 } }

def copyOf (glob : Bool) (lo hi : Nat) : Copy :=
  { id := 50, member := 0, home := 0, beadPos := 0, batch := 1, pieces := [{ src := some (true, bootVa), dst := (false, 0), len := 16 }],
    locks := [{ glob, lo, hi, kind := .dest }], hold := none, again := false }

def withCopies (ps : List Copy) (s : State) : State := s.updGang 0 fun g => { g with copies := ps }

def acc (lane : Byte) (ea : DWord) : LaneAcc := { b := Bead.start 0 0 0 0 0 0, k := 0, lane, ea }

/-- Where each check of R217 first fails: the bounds of R93, alignment, the allocation, a lock's last byte and the one after it. -/
theorem wit_access_checks :
    canonicalVa (2 ^ 55 - 1) = true ∧ canonicalVa (2 ^ 55) = false ∧ canonicalVa (0 - 2 ^ 55) = true ∧ canonicalVa (0 - 2 ^ 55 - 1) = false
    ∧ [acc 0 0, acc 1 (2 ^ 55)].find? (fun x => !canonicalVa x.ea) = some (acc 1 (2 ^ 55))
    ∧ [acc 0 8, acc 1 6, acc 2 5].find? (fun x => x.ea.toNat % 4 != 0) = some (acc 1 6)
    ∧ (∃ c, (beads aimed).ctx? = some c ∧ [acc 0 4092, acc 1 4096].find? (fun x => decide (c.scrLen < x.ea.toNat + 4)) = some (acc 1 4096))
    ∧ ∃ c, State.ctx? (withCopies [copyOf true 0x100000 0x10000F] (beads aimed)) = some c
      ∧ [acc 0 0x100010, acc 1 0x10000C].find? (fun x => lockHit (withCopies [copyOf true 0x100000 0x10000F] (beads aimed)) c.tower c.col c.asid
          c.g.id true x.ea.toNat 4 .load) = some (acc 1 0x10000C) := by
  and_intros <;> first | exact onCtx _ (by decide +kernel) | decide +kernel

theorem wit_vld :
    Met (.vld 8 2 0 0 0 0 4) (fun c s => let as := c.laneAccs 0 fun x k => x.sget 2 + laneOffset x k 0 + c.imm (0#0)
        as ≠ [] ∧ (∀ x ∈ as, countOf x.b.lops < 63) ∧ c.accTrap s true (2 ^ 4) (some .load) as = none)
    ∧ Met (.vld 8 2 0 1 0 0 4) (fun c _ => (c.laneAccs 1 fun x k => x.sget 2 + laneOffset x k 0 + c.imm (0#0)) = [])
    ∧ Met (.vld 8 2 0 0 0 0 4) (fun c _ => ∃ x ∈ (c.laneAccs 0 fun x k => x.sget 2 + laneOffset x k 0 + c.imm (0#0)), 63 ≤ countOf x.b.lops)
    ∧ Met (.vld 8 2 0 0 0 0 4) (fun c s => let as := c.laneAccs 0 fun x k => x.sget 2 + laneOffset x k 0 + c.imm (0#0)
        as ≠ [] ∧ (∀ x ∈ as, countOf x.b.lops < 63) ∧ (c.accTrap s true (2 ^ 4) (some .load) as).isSome = true) :=
  ⟨met (beads aimed) (by decide +kernel), met (beads unguarded) (by decide +kernel), met (beads openOps) (by decide +kernel),
   met (beads crooked) (by decide +kernel)⟩

theorem wit_vst :
    Met (.vst 8 2 0 0 0 2) (fun c s => let as := c.laneAccs 0 fun x k => x.sget 2 + laneOffset x k 0 + c.imm (0#0)
        as ≠ [] ∧ (∀ x ∈ as, countOf x.b.sops < 63) ∧ c.accTrap s true (2 ^ 2) (some .store) as = none)
    ∧ Met (.vst 8 2 0 1 0 2) (fun c _ => (c.laneAccs 1 fun x k => x.sget 2 + laneOffset x k 0 + c.imm (0#0)) = [])
    ∧ Met (.vst 8 2 0 0 0 2) (fun c _ => ∃ x ∈ (c.laneAccs 0 fun x k => x.sget 2 + laneOffset x k 0 + c.imm (0#0)), 63 ≤ countOf x.b.sops)
    ∧ Met (.vst 8 2 0 0 0 2) (fun c s => let as := c.laneAccs 0 fun x k => x.sget 2 + laneOffset x k 0 + c.imm (0#0)
        as ≠ [] ∧ (∀ x ∈ as, countOf x.b.sops < 63) ∧ (c.accTrap s true (2 ^ 2) (some .store) as).isSome = true) :=
  ⟨met (beads aimed) (by decide +kernel), met (beads unguarded) (by decide +kernel), met (beads openOps) (by decide +kernel),
   met (beads crooked) (by decide +kernel)⟩

theorem wit_sld :
    Met (.sld 8 2 0 0 0 3) (fun c s => let as := c.beadAccs 0 fun x => x.sget 2 + x.sget 0 + c.imm (0#0)
        as ≠ [] ∧ (∀ x ∈ as, countOf x.b.lops < 63) ∧ c.accTrap s true (2 ^ 3) (some .load) as = none)
    ∧ Met (.sld 8 2 0 1 0 3) (fun c _ => (c.beadAccs 1 fun x => x.sget 2 + x.sget 0 + c.imm (0#0)) = [])
    ∧ Met (.sld 8 2 0 0 0 3) (fun c _ => ∃ x ∈ (c.beadAccs 0 fun x => x.sget 2 + x.sget 0 + c.imm (0#0)), 63 ≤ countOf x.b.lops)
    ∧ Met (.sld 8 2 0 0 0 3) (fun c s => let as := c.beadAccs 0 fun x => x.sget 2 + x.sget 0 + c.imm (0#0)
        as ≠ [] ∧ (∀ x ∈ as, countOf x.b.lops < 63) ∧ (c.accTrap s true (2 ^ 3) (some .load) as).isSome = true) :=
  ⟨met (beads aimed) (by decide +kernel), met (beads unguarded) (by decide +kernel), met (beads openOps) (by decide +kernel),
   met (beads crooked) (by decide +kernel)⟩

theorem wit_sst :
    Met (.sst 8 2 0 0 3) (fun c s => let as := c.beadAccs 0 fun x => x.sget 2 + x.sget 0 + c.imm (0#0)
        as ≠ [] ∧ (∀ x ∈ as, countOf x.b.sops < 63) ∧ c.accTrap s true (2 ^ 3) (some .store) as = none)
    ∧ Met (.sst 8 2 0 1 3) (fun c _ => (c.beadAccs 1 fun x => x.sget 2 + x.sget 0 + c.imm (0#0)) = [])
    ∧ Met (.sst 8 2 0 0 3) (fun c _ => ∃ x ∈ (c.beadAccs 0 fun x => x.sget 2 + x.sget 0 + c.imm (0#0)), 63 ≤ countOf x.b.sops)
    ∧ Met (.sst 8 2 0 0 3) (fun c s => let as := c.beadAccs 0 fun x => x.sget 2 + x.sget 0 + c.imm (0#0)
        as ≠ [] ∧ (∀ x ∈ as, countOf x.b.sops < 63) ∧ (c.accTrap s true (2 ^ 3) (some .store) as).isSome = true) :=
  ⟨met (beads aimed) (by decide +kernel), met (beads unguarded) (by decide +kernel), met (beads openOps) (by decide +kernel),
   met (beads crooked) (by decide +kernel)⟩

/-- p1, which does not hold, guards the unit (R146). -/
def guarded1 (b : Bead) : Bead := { unguarded b with pfx := [{ kind := .m, payload := 0x100000, resv := false }] }

theorem wit_vatom :
    Met (.vatom 8 2 0 4 2) (fun c s => let as := c.laneAccs (modGuard c.pfx) fun x k => x.sget 2 + laneOffset x k 0 + c.imm (0#0)
        as ≠ [] ∧ (∀ x ∈ as, countOf x.b.lops < 63) ∧ c.accTrap s true (atomBytes 2) (some .rmw) as = none
        ∧ snanOf c.beads (fun x => x.lanesOn (modGuard c.pfx) c.neg) [.word 8] = none)
    ∧ Met (.vatom 8 2 0 4 14) (fun c _ => (c.laneAccs (modGuard c.pfx) fun x k => x.sget 2 + laneOffset x k 0 + c.imm (0#0)) = [])
    ∧ Met (.vatom 8 2 0 4 0) (fun c _ => ∃ x ∈ (c.laneAccs (modGuard c.pfx) fun x k => x.sget 2 + laneOffset x k 0 + c.imm (0#0)), 63 ≤ countOf x.b.lops)
    ∧ Met (.vatom 8 2 0 4 0) (fun c s => let as := c.laneAccs (modGuard c.pfx) fun x k => x.sget 2 + laneOffset x k 0 + c.imm (0#0)
        as ≠ [] ∧ (∀ x ∈ as, countOf x.b.lops < 63) ∧ (c.accTrap s true (atomBytes 0) (some .rmw) as).isSome = true) :=
  ⟨met (beads aimed) (by decide +kernel), met (beads guarded1) (by decide +kernel), met (beads openOps) (by decide +kernel),
   met (beads crooked) (by decide +kernel)⟩

/-- Fifteen records leave room, sixteen do not (R226). -/
theorem wit_vred :
    Met (.vred 8 2 0 3 0) (fun c s => let as := c.laneAccs (modGuard c.pfx) fun x k => x.sget 2 + laneOffset x k 0 + c.imm (0#0)
        c.accTrap s true (RedOp.ofCode 0).bytes (some .rmw) as = none
        ∧ snanOf c.beads (fun x => x.lanesOn (modGuard c.pfx) c.neg) (redReads (RedOp.ofCode 0) 8) = none
        ∧ ((3 : BitVec 3).toNat < 3 ∨ c.recordsFull s = false ∨ as = []))
    ∧ Met (.vred 8 2 0 5 9) (fun c s => let as := c.laneAccs (modGuard c.pfx) fun x k => x.sget 2 + laneOffset x k 0 + c.imm (0#0)
        c.accTrap s true (RedOp.ofCode 9).bytes (some .rmw) as = none
        ∧ snanOf c.beads (fun x => x.lanesOn (modGuard c.pfx) c.neg) (redReads (RedOp.ofCode 9) 8) = none
        ∧ 3 ≤ (5 : BitVec 3).toNat ∧ c.recordsFull s = true ∧ as ≠ []) :=
  ⟨met (withDefers 15 (beads aimed)) (by decide +kernel), met (withDefers 16 (beads aimed)) (by decide +kernel)⟩

/-- FMT names e4m3. -/
def fmt3 (b : Bead) : Bead := { calm b with fmt := 3 }

theorem wit_scratch_words :
    Met (.vlds 8 0 0 0 0 4) (fun c s => let as := c.scratchAccs 0 0 0
        as ≠ [] ∧ (∀ x ∈ as, countOf x.b.lops < 63) ∧ c.accTrap s false (2 ^ 4) (some .load) as = none)
    ∧ Met (.vsts 8 0 0 0 2) (fun c s => let as := c.scratchAccs 0 0 0
        as ≠ [] ∧ (∀ x ∈ as, countOf x.b.sops < 63) ∧ c.accTrap s false (2 ^ 2) (some .store) as = none)
    ∧ Met (.vldsDq 8 0 0 0) (fun c s => let as := c.scratchAccs 0 0 0
        as ≠ [] ∧ (∀ x ∈ as, countOf x.b.lops < 63) ∧ (8 : Reg).toNat % elemsOf c.lead.fmt = 0
        ∧ (fmtElem c.lead.fmt = .c4 → c.wg.tile ≠ none) ∧ dqTrap c s (as.map (dqLane c.lead.fmt 0)) = none)
    ∧ Memory.wf [] = true :=
  ⟨met (beads calm) (by decide +kernel), met (beads calm) (by decide +kernel), met (beads fmt3) (by decide +kernel), rfl⟩

/-! ### Witnesses: confirmations and completions -/

/-- The group waits for confirmation 7 of a unit it holds. -/
def held7 (i : Instr) (f : Bead → Bead) (b : Bead) : Bead :=
  { f b with held := some i, wait := some { waitOf .confirm with addr := 7 } }

def finds (s : State) (k : WaitKind) (P : Ctx → State → Prop) [∀ c s, Decidable (P c s)] : Bool :=
  match findGroup s fun b => b.wait.any fun w => w.kind == k && w.addr.toNat == 7 with
  | some cu => (State.ctx? { s with cur := some cu }).any fun c => decide (P c { s with cur := some cu })
  | none => false

theorem found {k : WaitKind} {P : Ctx → State → Prop} [∀ c s, Decidable (P c s)] (s : State) (h : finds s k P = true) :
    ∃ s cu c, findGroup s (fun b => b.wait.any fun w => w.kind == k && w.addr.toNat == 7) = some cu
      ∧ State.ctx? { s with cur := some cu } = some c ∧ P c { s with cur := some cu } := by
  unfold finds at h
  split at h
  · next cu hcu =>
    cases hc : State.ctx? { s with cur := some cu } with
    | none => simp [hc] at h
    | some c => exact ⟨s, cu, c, hcu, hc, by simpa [hc] using h⟩
  · cases h

/-- Accesses that are each confirmed are confirmed by one function of the address. -/
theorem hits {as : List LaneAcc} {f : DWord → Conf} (h : ∀ x ∈ as, ∃ k, f x.ea = .ok k) :
    ∃ hit : DWord → Hit, ∀ x ∈ as, f x.ea = .ok (hit x.ea) := by
  refine ⟨fun va => match f va with | .ok k => k | _ => { pa := 0, attr := attrOf 0 }, fun x hx => ?_⟩
  obtain ⟨k, hk⟩ := h x hx
  simp [hk]

def Confirms (i : Instr) (n : Need) (wr fl : Bool) (bytes : Nat) (as : Ctx → List LaneAcc) : Prop :=
  ∃ s cu c, findGroup s (fun b => b.wait.any fun w => w.kind == .confirm && w.addr.toNat == 7) = some cu
    ∧ State.ctx? { s with cur := some cu } = some c ∧ c.lead.held = some i ∧ as c ≠ []
    ∧ (∃ hit : DWord → Hit, ∀ x ∈ as c, c.conf { s with cur := some cu } n x.ea = .ok (hit x.ea))
    ∧ c.barred (c.clear { s with cur := some cu } wr fl (touches bytes (as c))) wr fl (touches bytes (as c)) = false

theorem confirms {i : Instr} {n : Need} {wr fl : Bool} {bytes : Nat} {as : Ctx → List LaneAcc} (h : letI := decOk
    finds (beads (held7 i aimed)) .confirm (fun c s => c.lead.held = some i ∧ as c ≠ [] ∧ (∀ x ∈ as c, ∃ k, c.conf s n x.ea = .ok k)
      ∧ c.barred (c.clear s wr fl (touches bytes (as c))) wr fl (touches bytes (as c)) = false) = true) : Confirms i n wr fl bytes as := by
  letI := decOk
  obtain ⟨s, cu, c, h1, h2, h3, h4, h5, h6⟩ := found _ h
  exact ⟨s, cu, c, h1, h2, h3, h4, hits h5, h6⟩

theorem wit_confirmations :
    Confirms (.vld 8 2 0 0 0 0 2) .read false true 4 (fun c => c.laneAccs 0 fun x k => x.sget 2 + laneOffset x k 0 + c.imm (0#0))
    ∧ Confirms (.vst 8 2 0 0 0 2) .write true false 4 (fun c => c.laneAccs 0 fun x k => x.sget 2 + laneOffset x k 0 + c.imm (0#0))
    ∧ Confirms (.sld 8 2 0 0 0 3) .read false true 8 (fun c => c.beadAccs 0 fun x => x.sget 2 + x.sget 0 + c.imm (0#0))
    ∧ Confirms (.sst 8 2 0 0 3) .write true false 8 (fun c => c.beadAccs 0 fun x => x.sget 2 + x.sget 0 + c.imm (0#0))
    ∧ Confirms (.vatom 8 2 0 4 0) .write true false 4 (fun c => c.laneAccs (modGuard c.pfx) fun x k => x.sget 2 + laneOffset x k 0 + c.imm (0#0))
    ∧ Confirms (.vred 8 2 0 3 0) .write false false 4 (fun c => c.laneAccs (modGuard c.pfx) fun x k => x.sget 2 + laneOffset x k 0 + c.imm (0#0)) := by
  and_intros <;> exact confirms (by decide +kernel)

/-- A load of a space that has no root table, and one lane's load of a page that is not mapped. -/
theorem wit_confirmations_fail :
    (∃ s cu c, findGroup s (fun b => b.wait.any fun w => w.kind == .confirm && w.addr.toNat == 7) = some cu
      ∧ State.ctx? { s with cur := some cu } = some c ∧ c.lead.held = some (.sld 8 2 0 0 0 3)
      ∧ ((c.beadAccs 0 fun x => x.sget 2 + x.sget 0 + c.imm (0#0)).find? fun x => c.conf { s with cur := some cu } .read x.ea == .error
          || c.conf { s with cur := some cu } .read x.ea == .perm).isSome = true)
    ∧ ∃ s cu c, findGroup s (fun b => b.wait.any fun w => w.kind == .confirm && w.addr.toNat == 7) = some cu
      ∧ State.ctx? { s with cur := some cu } = some c ∧ c.lead.held = some (.vld 8 2 0 0 0 0 2)
      ∧ (c.laneAccs 0 fun x k => x.sget 2 + laneOffset x k 0 + c.imm (0#0)).map (fun x => (x.k, c.conf { s with cur := some cu } .read x.ea)) =
          [(0, .absent 0x31088)] :=
  ⟨found (P := fun c s => c.lead.held = some (.sld 8 2 0 0 0 3) ∧ ((c.beadAccs 0 fun x => x.sget 2 + x.sget 0 + c.imm (0#0)).find? fun x =>
      c.conf s .read x.ea == .error || c.conf s .read x.ea == .perm).isSome = true)
      (demoWith (fun l => { l with asid := 5 }) id (held7 (.sld 8 2 0 0 0 3) aimed)) (by decide +kernel),
   found (P := fun c s => c.lead.held = some (.vld 8 2 0 0 0 0 2) ∧ (c.laneAccs 0 fun x k => x.sget 2 + laneOffset x k 0 + c.imm (0#0)).map
      (fun x => (x.k, c.conf s .read x.ea)) = [(0, .absent 0x31088)])
      (beads (held7 (.vld 8 2 0 0 0 0 2) (alone (bootVa + 0x10000)))) (by decide +kernel)⟩

def store7 (stage : Nat) (va : DWord) : StoreRec :=
  { id := 7, gang := 0, member := 0, home := 0, pos := 0, op := 7, tower := 0, col := 0, asid := bootAsid, va, bytes := [1], pa := bootPage,
    attr := attrOf 0, stage }

def red7 (scope : BitVec 3) : Red :=
  { id := 7, unit := 7, issued := 7, gang := 0, launch := 0, member := 0, home := 0, pos := 0, w := 0, tower := 0, col := 0, asid := bootAsid, va := bootVa, op := .addF32,
    value := 1, scope, bgemv := none }

/-- A line of the demo's page in its home L2: four bytes of it held, dirty. -/
def homeLine (dirty : Bool) (s : State) : State := s.updTower 0 fun tw => { tw with l2 :=
  [{ asid := bootAsid, va := bootVa, data := 0xABCD, dirty, pa := bootPage, attr := attrOf 0, writer := none, valid := if dirty then 0xF else 0 }] }

/-- A store and a reduction land in a line that the L2 holds, and where it holds none; of a BANK page the bytes that wait do not matter. -/
theorem wit_lands :
    (∀ s ∈ [demo, homeLine true demo, homeLine false demo], s.hbm.wf = true ∧ (∀ t, (s.tower t).l2.Pairwise (fun a b => a.pa ≠ b.pa) ∧ ∀ l ∈ (s.tower t).l2,
      l.pa % 128 = 0 ∧ towerOfPa l.pa = t ∧ (l.dirty = true ∨ l.valid = 0)))
    ∧ (∀ s ∈ [demo, homeLine true demo], bootPage % 128 = 0 ∧ lineOff (bootVa + 124) + 4 ≤ 128 ∧ towerOfPa bootPage = homeOf (bootVa + 124)
      ∧ (∀ l ∈ (s.tower (homeOf (bootVa + 124))).l2, isLine bootAsid (bootVa + 124) l = true → l.pa = bootPage)
      ∧ (s.tower (homeOf (bootVa + 124))).bank = []) := by
  decide +kernel

theorem wit_home : (homeLine true demo).HomeOk ∧ (homeLine true demo).Lands bootAsid (bootVa + 124) 4 bootPage (attrOf 0) := by
  have h := wit_lands
  refine ⟨⟨(h.1 _ (by simp)).1, fun t => ⟨((h.1 (homeLine true demo) (by simp)).2 t).1, fun l hl => ?_⟩⟩, ?_⟩
  · obtain ⟨h1, h2, h3⟩ := ((h.1 (homeLine true demo) (by simp)).2 t).2 l hl
    refine ⟨h1, h2, fun hd k _ hv => ?_⟩
    rcases h3 with h3 | h3
    · rw [h3] at hd; cases hd
    · rw [h3] at hv; simp at hv
  · obtain ⟨a, b, c, d, e⟩ := h.2 (homeLine true demo) (by simp)
    exact ⟨a, b, c, d, fun _ x hx => by rw [e] at hx; cases hx⟩

/-- A store at each stage, towards its own tower and another; a contribution at each scope; a completing load. -/
theorem wit_in_flight :
    (∀ stage ∈ [0, 1, 2], let s : State := { demo with stores := [store7 stage bootVa] }
      s.stores.find? (·.id == 7) = some (store7 stage bootVa) ∧ mayAdvance s (store7 stage bootVa) = true)
    ∧ homeOf (store7 1 bootVa).va = (store7 1 bootVa).tower ∧ homeOf (store7 1 (bootVa + 2 ^ 44)).va ≠ (store7 1 (bootVa + 2 ^ 44)).tower
    ∧ demo.stores.find? (·.id == 7) = none ∧ demo.stores.any (·.op == 7) = false
    ∧ mayApply { demo with reds := [red7 3] } (red7 3) = true ∧ (∃ h, confL2 { demo with reds := [red7 3] } bootAsid bootVa .write = .ok h)
    ∧ (contribute { demo with reds := [red7 2] } (red7 2)).2 = true
    ∧ demo.prods.any (·.id == 7) = false ∧ demo.stores.any (fun r => r.op == 7 && r.stage == 0) = false
    ∧ ({ Bead.start 0 0 0 0 0 0 with lops := [{ id := 7, done := false, dests := [(false, 8)], writes := [{ place := some 0, reg := 8, value := 5 }], load := true }] }
        : Bead).lops.find? (fun o => o.id == 7 && !o.done) ≠ none := by
  and_intros <;> first | exact @of_decide_eq_true _ (decOk _) (by decide +kernel) | decide +kernel

/-! ### Witnesses: synchronisation (R228 to R237) -/

def waiting (k : WaitKind) (b : Bead) : Bead := { aimed b with wait := some (waitOf k) }

/-- The release that follows the RESUME of a SETTLE (R330). -/
def resettled (b : Bead) : Bead := { aimed b with wait := some { waitOf .settle with sat := some 0 } }

theorem wit_fences :
    Met (.fence 1 1 4) (fun c s => (∀ b ∈ c.beads, (∀ o ∈ b.lops, o.done = true) ∧ ∀ o ∈ b.tops, o.load = true → o.done = true) ∧ ((1 : BitVec 1) = 0 ∨ c.released s 4 = true))
    ∧ Met (.fence 1 0 4) (fun c s => (∃ b ∈ c.beads, (∃ o ∈ b.lops, o.done = false) ∨ ∃ o ∈ b.tops, o.load = true ∧ o.done = false) ∨ ((0 : BitVec 1) ≠ 0 ∧ c.released s 4 = false))
    ∧ Met (.fence 1 0 4) (fun c _ => (∀ b ∈ c.beads, b.lops = []) ∧ ∃ b ∈ c.beads, ∃ o ∈ b.tops, o.load = true ∧ o.done = false)
    ∧ Met (.fence 0 1 4) (fun c s => (∃ b ∈ c.beads, ∃ o ∈ b.lops, o.done = false) ∨ ((1 : BitVec 1) ≠ 0 ∧ c.released s 4 = false))
    ∧ Met (.settle 2) (fun c s => c.lead.wait = none ∧ c.unsettled s = false ∧ (2 : BitVec 3).toNat ≤ 2 ∧ c.released s 2 = true)
    ∧ Met (.settle 3) (fun c s => c.lead.wait = none ∧ c.unsettled s = false ∧ 3 ≤ (3 : BitVec 3).toNat
        ∧ (((settleWide c s).gang? c.g.id).map (·.defers)).getD [] = [] ∧ c.released (settleWide c s) 3 = true)
    ∧ Met (.settle 5) (fun c s => c.lead.wait = none ∧ c.unsettled s = false ∧ 3 ≤ (5 : BitVec 3).toNat
        ∧ (lowestDefer ((((settleWide c s).gang? c.g.id).map (·.defers)).getD [])).isSome = true)
    ∧ Met (.settle 3) (fun c s => c.lead.wait = none ∧ c.unsettled s = true)
    ∧ Met (.settle 3) (fun c s => (c.lead.wait.any fun w => w.kind == .settle && w.sat.isSome) = true ∧ c.released s 3 = true)
    ∧ Met (.settle 3) (fun c s => (c.lead.wait.any fun w => w.kind == .settle && w.sat.isSome) = true ∧ c.released s 3 = false) :=
  ⟨met demo (by decide +kernel), met (beads openOps) (by decide +kernel),
   met (beads fun b => { aimed b with tops := [{ openOp with load := true }] }) (by decide +kernel), met { beads aimed with stores := [store7 0 bootVa] } (by decide +kernel),
   met demo (by decide +kernel), met demo (by decide +kernel), met (withDefers 1 demo) (by decide +kernel),
   met { demo with reds := [red7 3] } (by decide +kernel), met (beads resettled) (by decide +kernel),
   met { beads resettled with stores := [store7 0 bootVa] } (by decide +kernel)⟩

theorem wit_waits :
    Met (.wait 63 63 63) (fun c _ => ∀ b ∈ c.beads, countOf b.lops ≤ 63 ∧ countOf b.sops ≤ 63 ∧ countOf b.tops ≤ 63)
    ∧ Met (.wait 62 63 63) (fun c _ => ∃ b ∈ c.beads, 62 < countOf b.lops ∨ 63 < countOf b.sops ∨ 63 < countOf b.tops) :=
  ⟨met (beads openOps) (by decide +kernel), met (beads openOps) (by decide +kernel)⟩

theorem wit_barriers :
    Met (.bara 9 0 1 1) (fun c s => c.accTrap s ((1 : BitVec 1) == 0) 8 none (c.wordAccs (barAddr 1 0)) = none ∧ c.released s 1 = true
        ∧ ((1 : BitVec 1) = 0 → ∀ b ∈ c.beads, ∃ h, c.conf s .write (b.sget 0) = .ok h))
    ∧ Met (.bara 9 2 0 4) (fun c s => c.accTrap s ((0 : BitVec 1) == 0) 8 none (c.wordAccs (barAddr 0 2)) = none ∧ c.released s 4 = true
        ∧ ((0 : BitVec 1) = 0 → (∀ b ∈ c.beads, ∃ h, c.conf s .write (b.sget 2) = .ok h) ∧ c.barred (c.clear s true false (touches 8 (c.wordAccs (barAddr 0 2)))) true false (touches 8 (c.wordAccs (barAddr 0 2))) = false))
    ∧ Met (.bar 9 2 0 4) (fun c s => c.lead.wait = none ∧ c.accTrap s ((0 : BitVec 1) == 0) 8 none (c.wordAccs (barAddr 0 2)) = none
        ∧ c.released s 4 = true
        ∧ ((0 : BitVec 1) = 0 → (∀ b ∈ c.beads, ∃ h, c.conf s .write (b.sget 2) = .ok h) ∧ c.barred (c.clear s true false (touches 8 (c.wordAccs (barAddr 0 2)))) true false (touches 8 (c.wordAccs (barAddr 0 2))) = false))
    ∧ Met (.barw 9 2 0 4) (fun c s => c.lead.wait = none ∧ c.accTrap s ((0 : BitVec 1) == 0) 8 none (c.wordAccs (barAddr 0 2)) = none)
    ∧ Met (.bar 9 2 0 4) (fun c _ => (c.lead.wait.any fun w => w.kind == .bar) = true)
    ∧ Met (.barw 9 2 0 4) (fun c _ => (c.lead.wait.any fun w => w.kind == .barw) = true)
    ∧ Met .gbar (fun c _ => c.l.gbar = false)
    ∧ Met .gbar (fun c s => c.l.gbar = true ∧ c.lead.wait = none ∧ c.released s 4 = true ∧ c.lead.diverted = true)
    ∧ Met .gbar (fun c s => c.l.gbar = true ∧ c.lead.wait = none ∧ c.released s 4 = true ∧ c.lead.diverted = false)
    ∧ Met .gbar (fun c s => c.l.gbar = true ∧ c.lead.wait = none ∧ c.released s 4 = false)
    ∧ Met .gbar (fun c _ => c.l.gbar = true ∧ (c.lead.wait.any fun w => w.kind == .gbar) = true) :=
  letI := decOk
  ⟨met (beads calm) (by decide +kernel), met (beads aimed) (by decide +kernel), met (beads aimed) (by decide +kernel),
   met (beads aimed) (by decide +kernel), met (beads (waiting .bar)) (by decide +kernel), met (beads (waiting .barw)) (by decide +kernel),
   met (demoWith (fun l => { l with gbar := false }) id id) (by decide +kernel),
   met (beads fun b => { b with diverted := true }) (by decide +kernel), met demo (by decide +kernel),
   met { demo with stores := [store7 0 bootVa] } (by decide +kernel), met (beads (waiting .gbar)) (by decide +kernel)⟩

/-- The least and the greatest number of arrivals and the last phase. -/
theorem wit_phase : (0 < 1 ∧ 1 < 65536 ∧ 0 < 2 ^ 32) ∧ (0 < 65535 ∧ 65535 < 65536 ∧ 2 ^ 32 - 1 < 2 ^ 32) := by decide

def wqBound (asid : Half) (recs : List (List Byte)) (s : State) : State :=
  s.updTower 0 fun tw => { tw with wqs := tw.wqs.map fun _ => { asid, seq := 1, recs } }

/-- A popped record whose SEQ goes to s0. -/
theorem wit_pop_discards : Met (.wpop 0 0 1 15) (fun c s => ((s.tower c.tower).wq 15).asid = c.asid ∧ (c.lead.sget 0).toNat % 2 ^ 32 % 64 = 0
    ∧ (c.lead.sget 0).toNat % 2 ^ 32 + 64 ≤ c.scrLen ∧ c.lead.wait.all (fun w => w.kind != .wpop) = true
    ∧ c.copyPending s false true { b := c.lead, va := c.lead.sget 0 &&& 0xFFFFFFFF, n := 64 } = false ∧ c.wpopRecord s 15 = some (0, zeros 64)) :=
  met (wqBound bootAsid [zeros 64] (beads calm)) (by decide +kernel)

theorem wit_signals :
    Met (.sigw 9 2 0 4) (fun c s => c.lead.wait = none ∧ c.accTrap s true 8 none (c.wordAccs (·.sget 2)) = none)
    ∧ Met (.sigw 9 2 0 4) (fun c _ => (c.lead.wait.any fun w => w.kind == .sigw) = true)
    ∧ Met (.sigp 9 2 1 5) (fun c s => c.accTrap s true 8 none (c.wordAccs (·.sget 2)) = none ∧ c.released s 5 = true
        ∧ (∀ b ∈ c.beads, ∃ h, c.conf s .write (b.sget 2) = .ok h)
        ∧ c.barred (c.clear s true false (touches 8 (c.wordAccs (·.sget 2)))) true false (touches 8 (c.wordAccs (·.sget 2))) = false)
    ∧ Met (.wpop 9 0 0 15) (fun c s => (((s.tower c.tower).wq 15).asid = c.asid ∧ (c.lead.sget 0 &&& 0xFFFFFFFF).toNat % 64 = 0
          ∧ (c.lead.sget 0 &&& 0xFFFFFFFF).toNat + 64 ≤ c.scrLen ∧ c.lead.wait = none)
        ∧ c.copyPending s false true { b := c.lead, va := c.lead.sget 0 &&& 0xFFFFFFFF, n := 64 } = false
        ∧ ((s.tower c.tower).wq 15).recs[(wpopOrders s c.tower 15).length]? = some (zeros 64))
    ∧ Met (.wpop 9 0 1 0) (fun c s => ((s.tower c.tower).wq 0).asid = c.asid ∧ (c.lead.sget 0 &&& 0xFFFFFFFF).toNat + 64 ≤ c.scrLen
        ∧ c.lead.wait = none ∧ c.copyPending s false true { b := c.lead, va := c.lead.sget 0 &&& 0xFFFFFFFF, n := 64 } = false
        ∧ ((s.tower c.tower).wq 0).recs.length ≤ (wpopOrders s c.tower 0).length)
    ∧ Met (.wpop 9 0 0 0) (fun c s => (((s.tower c.tower).wq 0).asid = c.asid ∧ (c.lead.sget 0 &&& 0xFFFFFFFF).toNat + 64 ≤ c.scrLen)
        ∧ (c.lead.wait.any fun w => w.kind == .wpop && w.addr == 0) = true ∧ ((s.tower c.tower).wq 0).recs[0]? = some (zeros 64))
    ∧ Met (.wpop 9 2 0 0) (fun c s => ((s.tower c.tower).wq 0).asid = c.asid ∧ (c.lead.sget 2 &&& 0xFFFFFFFF).toNat % 64 ≠ 0)
    ∧ Met (.wpop 9 2 0 0) (fun c s => ((s.tower c.tower).wq 0).asid = c.asid ∧ (c.lead.sget 2 &&& 0xFFFFFFFF).toNat % 64 = 0
        ∧ c.scrLen < (c.lead.sget 2 &&& 0xFFFFFFFF).toNat + 64)
    ∧ Met (.wpop 9 0 0 0) (fun c s => ((s.tower c.tower).wq 0).asid ≠ c.asid) :=
  letI := decOk
  ⟨met (beads aimed) (by decide +kernel), met (beads (waiting .sigw)) (by decide +kernel), met (beads aimed) (by decide +kernel),
   met (wqBound bootAsid [zeros 64] (beads calm)) (by decide +kernel), met (wqBound bootAsid [] (beads calm)) (by decide +kernel),
   met (wqBound bootAsid [zeros 64] (beads (waiting .wpop))) (by decide +kernel), met (wqBound bootAsid [] (beads crooked)) (by decide +kernel),
   met (wqBound bootAsid [] (beads aimed)) (by decide +kernel), met (beads calm) (by decide +kernel)⟩

/-! ### Witnesses: copies (R240 to R247) -/

/-- A map of one dimension, sixteen bytes at its base (R241). -/
def map1 : List Byte := leBytes 8 bootVa.toNat ++ [1, 0, 0, 0] ++ zeros 20 ++ leBytes 4 16 ++ [16, 0, 1, 1] ++ zeros 216

/-- Its two lines stand in the column. -/
def withMap (s : State) : State :=
  let line (k : Nat) : Line := { asid := bootAsid, va := bootVa + BitVec.ofNat 64 k, data := BitVec.ofNat 1024 (leNat ((map1.drop k).take 128)),
                                 dirty := false, pa := bootPage + k, attr := attrOf 15, writer := none }
  s.updCol 0 0 fun co => { co with lines := [line 0, line 128] }

/-- s5: a gather of one row of sixteen bytes, pitch sixteen (R243). -/
def gathering (b : Bead) : Bead := ((aimed b).sset 5 0x0001001000000010).sset 6 0x10000000000

theorem wit_copies :
    Met (.acopy 3 2) (fun c _ => c.copyTrap (c.lead.sget 2) (c.loWord 3) (c.hiWord 3) = none)
    ∧ Met (.acopyo 3 2) (fun c _ => c.copyTrap (c.lead.sget 2) (c.loWord 3) (c.hiWord 3) = none)
    ∧ Met (.acopy 3 2) (fun c _ => (c.copyTrap (c.lead.sget 2) (c.loWord 3) (c.hiWord 3)).isSome = true)
    ∧ Met (.acopyg 6 2 5) (fun c s => let g := c.lead.sget 5
        let pitch := (g.extractLsb' 0 32).toNat
        let rowb := (g.extractLsb' 32 16).toNat
        let count := (g.extractLsb' 48 16).toNat
        16 ≤ rowb ∧ rowb ≤ 4096 ∧ count ≤ 4096 ∧ (c.lead.sget 2).toNat % 16 = 0 ∧ pitch % 16 = 0 ∧ rowb % 16 = 0 ∧ c.loWord 6 % 16 = 0
        ∧ (count ≠ 0 → c.scrTrap s (c.hiWord 6) (4 * count) 4 .load = none) ∧ c.loWord 6 + count * rowb ≤ c.scrLen) :=
  letI := decOk
  ⟨met (beads aimed) (by decide +kernel), met (beads aimed) (by decide +kernel), met (beads crooked) (by decide +kernel),
   met (beads gathering) (by decide +kernel)⟩

def mapTouches (c : Ctx) : List Touch := [c.lead.sget 2, c.lead.sget 2 + 128].map fun x => { b := c.lead, va := x, n := 128 }

/-- A map of one dimension, its record of zeros in scratch. -/
theorem wit_box_copy :
    Met (.acopyt 6 2) (fun c s => let va := c.lead.sget 2
        let r := c.readRange (c.clear s false true (mapTouches c)) va 256
        canonicalVa va = true ∧ va.toNat % 128 = 0 ∧ (∀ x ∈ [va, va + 128], ∃ h, c.confVa s .read x = .ok h)
        ∧ c.barred (c.clear s false true (mapTouches c)) false true (mapTouches c) = false
        ∧ tmapOk r.2 = true ∧ c.scrTrap r.1 (c.hiWord 6) (8 * (TMap.ofBytes r.2).rank) 8 .load = none ∧ c.loWord 6 % 16 = 0
        ∧ c.loWord 6 + ((TMap.ofBytes r.2).withRecord (c.scrRead r.1 (c.hiWord 6) (8 * (TMap.ofBytes r.2).rank))).boxBytes ≤ c.scrLen) := by
  letI := decOk
  obtain ⟨c, s, hi, h1, h2, h3, h4, h5, h6, h7, h8, h9, h10⟩ := met (i := .acopyt 6 2) (P := fun c s => canonicalVa (c.lead.sget 2) = true
    ∧ (c.lead.sget 2).toNat % 128 = 0
    ∧ (∃ h, c.confVa s .read (c.lead.sget 2) = .ok h) ∧ (∃ h, c.confVa s .read (c.lead.sget 2 + 128) = .ok h)
    ∧ c.barred (c.clear s false true (mapTouches c)) false true (mapTouches c) = false
    ∧ ((c.readRange (c.clear s false true (mapTouches c)) (c.lead.sget 2) 256).2 == map1) = true
    ∧ c.scrTrap (c.readRange (c.clear s false true (mapTouches c)) (c.lead.sget 2) 256).1 (c.hiWord 6) 8 8 .load = none
    ∧ c.loWord 6 = 0 ∧ c.scrRead (c.readRange (c.clear s false true (mapTouches c)) (c.lead.sget 2) 256).1 (c.hiWord 6) 8 = zeros 8 ∧ c.scrLen = 4096)
    (withMap (beads gathering)) (by decide +kernel)
  replace h6 := eq_of_beq h6
  have rank : 8 * (TMap.ofBytes map1).rank = 8 := by decide +kernel
  have size : ((TMap.ofBytes map1).withRecord (zeros 8)).boxBytes ≤ 4096 := by decide +kernel
  refine ⟨c, s, hi, h1, h2, by rintro x hx; simp only [List.mem_cons, List.not_mem_nil, or_false] at hx; obtain rfl | rfl := hx <;> assumption,
    h5, ?_, ?_, ?_, ?_⟩
  · rw [h6]; decide +kernel
  · rw [h6, rank]; exact h7
  · rw [h8]
  · rw [h6, rank, h8, h9, h10]; omega

/-- A copy stalls on a range that a lock forbids, and for want of an entry; it joins the batch when the sixty-fourth is free. -/
theorem wit_copies_join :
    Met (.acopy 3 2) (fun c s => (lockOf false 0 16 .dest).any (c.lockBlocked s) = true)
    ∧ Met (.acopy 3 2) (fun c s => 64 < locksUsed s c.tower c.col + 1)
    ∧ Met (.acopy 3 2) (fun c s => (lockOf false 0 16 .dest).any (c.lockBlocked s) = false ∧ locksUsed s c.tower c.col + 1 ≤ 64)
    ∧ Met (.cwait 0) (fun c _ => c.lead.wait = none ∧ min (c.lead.sget 0).toNat c.wg.closed = 0)
    ∧ Met (.cwait 2) (fun c _ => c.lead.wait = none ∧ min (c.lead.sget 2).toNat c.wg.closed ≠ 0
        ∧ (∀ p ∈ c.g.copies, p.member = c.cur.member → min (c.lead.sget 2).toNat c.wg.closed < p.batch)
        ∧ ∀ e ∈ c.wg.copyErrs, min (c.lead.sget 2).toNat c.wg.closed < e.batch)
    ∧ Met (.cwait 2) (fun c _ => c.lead.wait = none ∧ min (c.lead.sget 2).toNat c.wg.closed ≠ 0 ∧ c.g.copies = []
        ∧ ∃ e ∈ c.wg.copyErrs, e.batch ≤ min (c.lead.sget 2).toNat c.wg.closed)
    ∧ Met (.cwait 2) (fun c _ => c.lead.wait = none ∧ min (c.lead.sget 2).toNat c.wg.closed ≠ 0
        ∧ ∃ p ∈ c.g.copies, p.member = c.cur.member ∧ p.batch ≤ min (c.lead.sget 2).toNat c.wg.closed) :=
  ⟨met (withCopies [copyOf false 8 23] (beads aimed)) (by decide +kernel),
   met (withCopies (List.replicate 64 (copyOf false 512 527)) (beads aimed)) (by decide +kernel),
   met (withCopies (List.replicate 63 (copyOf false 512 527)) (beads aimed)) (by decide +kernel),
   met (beads aimed) (by decide +kernel),
   met (demoWith id (fun w => { w with closed := 1 }) aimed) (by decide +kernel),
   met (demoWith id (fun w => { w with closed := 1, copyErrs := [{ batch := 1, va := bootVa, cause := 1, need := 1 }] }) aimed) (by decide +kernel),
   met (withCopies [copyOf false 0 15] (demoWith id (fun w => { w with closed := 1 }) aimed)) (by decide +kernel)⟩

def aPiece (va : DWord) : Piece := { src := some (true, va), dst := (false, 0), len := 16 }

def demoGang : Gang :=
  { id := 0, launch := 0, num := 0, tower := 0, place := .resident 0 0, members := [], copies := [], defers := [], pending := none, wake := false, reported := false }

theorem wit_copies_move :
    (∃ x, findCopy (withCopies [copyOf false 0 15] demo) 50 = some x ∧ x.1.resident = true ∧ x.2.hold = none
      ∧ (∀ y ∈ x.2.pieces, ∃ h, pieceConf (withCopies [copyOf false 0 15] demo) x.1 bootAsid y = .ok h)
      ∧ piecesBlocked x.1 bootAsid x.2 (clearPieces x.1 bootAsid x.2 (withCopies [copyOf false 0 15] demo) x.2.pieces) x.2.pieces = false)
    ∧ lowestFail (failing demo demoGang bootAsid [aPiece bootVa, aPiece (bootVa + 0x10000)] Conf.isAbsent) =
        some (bootVa + 0x10000, .read, .absent 0x31088)
    ∧ lowestFail (failing demo demoGang 5 [aPiece (bootVa + 16), aPiece bootVa] Conf.refused) = some (bootVa, .read, .error) := by
  refine ⟨?_, by decide +kernel, by decide +kernel⟩
  letI := decOk
  have key : ((findCopy (withCopies [copyOf false 0 15] demo) 50).any fun x => decide (x.1.resident = true ∧ x.2.hold = none
      ∧ (∀ y ∈ x.2.pieces, ∃ h, pieceConf (withCopies [copyOf false 0 15] demo) x.1 bootAsid y = .ok h)
      ∧ piecesBlocked x.1 bootAsid x.2 (clearPieces x.1 bootAsid x.2 (withCopies [copyOf false 0 15] demo) x.2.pieces) x.2.pieces = false)) = true := by
    decide +kernel
  cases h : findCopy (withCopies [copyOf false 0 15] demo) 50 with
  | none => simp [h] at key
  | some x => exact ⟨x, rfl, by simpa [h] using key⟩

/-! ### Witnesses: tiles, products, bank units (R248 to R264) -/

/-- Eight tiles of one TCTL value (R248). -/
def tset (ctl : Word) : TileSet :=
  { TileSet.start with tiles := List.replicate 8 { ctl, data := List.replicate 32 0, side := List.replicate 32 0 } }

/-- e4m3, one row, one slice. -/
def ts8 : TileSet := tset 0x413

def tiled (ts : Option TileSet) (f : Bead → Bead) : State := demoWith id (fun w => { w with tile := ts }) f

/-- s5 holds a TCTL value; s6 a pitch. -/
def forTcfg (b : Bead) : Bead := ((aimed b).sset 5 0x413).sset 6 16

/-- Words that issue in a workgroup without a tile set. -/
theorem bare {is : List Instr} (h : (is.all fun i => holds i (tiled none forTcfg) fun c _ => c.wg.tile = none) = true) :
    ∀ i ∈ is, Met i fun c _ => c.wg.tile = none :=
  fun i hi => met (P := fun c _ => c.wg.tile = none) _ (List.all_eq_true.mp h i hi)

theorem wit_tile_control :
    Met (.tcfg 7 5 0) (fun c _ => c.wg.tile = some TileSet.start ∧ tctlOk ((c.lead.sget 5).setWidth 32) = true)
    ∧ Met (.tcfg 0 6 1) (fun c _ => c.wg.tile = some TileSet.start ∧ ((c.lead.sget 6).setWidth 32).toNat % 16 = 0)
    ∧ Met (.tcfg 0 6 2) (fun c _ => c.wg.tile = some TileSet.start ∧ ((c.lead.sget 6).setWidth 32).toNat % 4 = 0)
    ∧ (∀ i ∈ ([.tcfg 7 5 0, .tcb 3 0 1, .tzero 7, .tld 7 0 0 1, .tst 7 0 0 1, .tldt 7 0 1, .tmma 6 7 2 5, .tmmas 6 7 2 5, .tmmab 5 6 7 1 2 0,
        .tmmasb 5 6 7 1 2 0, .tquant 7 0 1, .tqcb 7 0 1] : List Instr), Met i fun c _ => c.wg.tile = none)
    ∧ Met (.tcfg 0 2 1) (fun c _ => c.wg.tile = some TileSet.start ∧ ((c.lead.sget 2).setWidth 32).toNat % 16 ≠ 0)
    ∧ Met (.tzero 7) (fun c _ => c.wg.tile = some ts8) :=
  ⟨met (beads forTcfg) (by decide +kernel), met (beads forTcfg) (by decide +kernel), met (beads forTcfg) (by decide +kernel),
   bare (by decide +kernel), met (beads crooked) (by decide +kernel), met (tiled (some ts8) id) (by decide +kernel)⟩

/-- Ranges of scratch pass without a confirmation. -/
theorem passes {c : Ctx} {s : State} {r : Ranges} {addr align : Nat} {a : AccKind} {n : Need}
    (h : c.rangeTrap s r addr align a = none ∧ r.glob = false) : rangesPass c s r addr align a n :=
  ⟨h.1, fun h1 => by simp [h.2] at h1⟩

/-- A T-form word that acts on scratch from offset 0, its count not full, its row length n. -/
def Tiling (i : Instr) (ts : TileSet) (P : Prop) (rows len : Nat) (align : Nat) (a : AccKind) (n : Need) : Prop :=
  P ∧ Met i fun c s => c.wg.tile = some ts ∧ (∀ b ∈ c.beads, countOf b.tops < 63)
    ∧ rangesPass c s (rowRanges 1 (c.lead.sget 0) rows ts.lpitch.toNat len) (tileAddr 1 (c.lead.sget 0)) align a n

theorem tiling {i : Instr} {ts : TileSet} {P : Prop} {rows len align : Nat} {a : AccKind} {n : Need} (hp : P)
    (h : holds i (tiled (some ts) id) (fun c s => c.wg.tile = some ts ∧ (∀ b ∈ c.beads, countOf b.tops < 63)
      ∧ c.rangeTrap s (rowRanges 1 (c.lead.sget 0) rows ts.lpitch.toNat len) (tileAddr 1 (c.lead.sget 0)) align a = none
      ∧ (rowRanges 1 (c.lead.sget 0) rows ts.lpitch.toNat len).glob = false) = true) : Tiling i ts P rows len align a n := by
  refine ⟨hp, ?_⟩
  obtain ⟨c, s, h0, h1, h2, h3⟩ := met _ h
  exact ⟨c, s, h0, h1, h2, passes h3⟩

/-- mx8 and c4, one row, one slice. -/
def tsQ : TileSet := tset 0x419
def tsC : TileSet := tset 0x416

theorem wit_tiles :
    Tiling (.tcb 3 0 1) ts8 True 1 32 32 .load .read
    ∧ Tiling (.tld 7 0 0 1) ts8 (tileRowBytes (ts8.tile 7).ctl 0 = some 96) (tRows (ts8.tile 7).ctl) 96 16 .load .read
    ∧ Tiling (.tld 7 0 1 1) tsQ (tileRowBytes (tsQ.tile 7).ctl 1 = some 3) (tRows (tsQ.tile 7).ctl) 3 16 .load .read
    ∧ Tiling (.tst 7 0 0 1) ts8 (tileRowBytes (ts8.tile 7).ctl 0 = some 96) (tRows (ts8.tile 7).ctl) 96 16 .store .write
    ∧ Tiling (.tldt 7 0 1) ts8 (tRows (ts8.tile 7).ctl ≠ 0 ∧ tldtFmt (tFmt (ts8.tile 7).ctl) = true)
        (tSlices (ts8.tile 7).ctl * 96 / ((tFmt (ts8.tile 7).ctl).width / 8)) (tRows (ts8.tile 7).ctl * ((tFmt (ts8.tile 7).ctl).width / 8)) 16 .load .read
    ∧ Tiling (.tquant 7 0 1) tsQ (tRows (tsQ.tile 7).ctl ≠ 0 ∧ (tFmt (tsQ.tile 7).ctl = .mx8 ∨ tFmt (tsQ.tile 7).ctl = .mx4))
        (tRows (tsQ.tile 7).ctl) (4 * quantK (tsQ.tile 7).ctl) 16 .load .read
    ∧ Tiling (.tqcb 7 0 1) tsC (tRows (tsC.tile 7).ctl ≠ 0 ∧ tFmt (tsC.tile 7).ctl = .c4)
        (tRows (tsC.tile 7).ctl) (4 * quantK (tsC.tile 7).ctl) 16 .load .read :=
  ⟨tiling trivial (by decide +kernel), tiling (by decide +kernel) (by decide +kernel), tiling (by decide +kernel) (by decide +kernel),
   tiling (by decide +kernel) (by decide +kernel), tiling (by decide +kernel) (by decide +kernel),
   tiling (by decide +kernel) (by decide +kernel), tiling (by decide +kernel) (by decide +kernel)⟩

theorem wit_quantiser : (∃ x ∈ [(0x7F800000 : Word)], ∀ n m e, fmt32.val x.toNat ≠ .fin n m e) ∧ 8 * 0 + 8 ≤ 8 ∧ 8 * [(1 : Byte)].length ≤ 8 := by
  refine ⟨⟨_, List.mem_singleton.mpr rfl, ?_⟩, by decide, by decide⟩
  have h : fmt32.val (0x7F800000 : Word).toNat = .inf false := by decide +kernel
  intro n m e; rw [h]; simp

/-- Two slices of compressed e4m3 with N 16 beside one of sixteen times 128/16 stands for 128 (R88). -/
def tsS : TileSet :=
  { ts8 with tiles := (List.range 8).map fun k =>
      { ctl := if k = 0 then 0x10413 + 0x10000 * 0 else 0x2013, data := List.replicate 32 0, side := List.replicate 32 0 } }

theorem wit_products :
    Met (.tmma 6 7 2 5) (fun c s => c.wg.tile = some ts8 ∧ (∀ b ∈ c.beads, countOf b.tops < 63) ∧ productOk (ts8.tile 6) (ts8.tile 7) false = true
      ∧ canonicalVa (c.lead.sget 2) = true ∧ (c.lead.sget 2).toNat % 4 = 0
      ∧ ((5 : BitVec 3).toNat < 3 ∨ c.recordsFull s = false))
    ∧ Met (.tmmas 0 7 2 0) (fun c s => c.wg.tile = some tsS ∧ (∀ b ∈ c.beads, countOf b.tops < 63) ∧ productOk (tsS.tile 0) (tsS.tile 7) true = true
      ∧ canonicalVa (c.lead.sget 2) = true ∧ (c.lead.sget 2).toNat % 4 = 0
      ∧ ((0 : BitVec 3).toNat < 3 ∨ c.recordsFull s = false))
    ∧ Met (.tmmab 5 6 7 1 2 0) (fun c _ => c.wg.tile = some ts8 ∧ (∀ b ∈ c.beads, countOf b.tops < 63) ∧ productOk (ts8.tile 6) (ts8.tile 7) false = true
      ∧ destOk (ts8.tile 6) (ts8.tile 5) 0 2 = true)
    ∧ Met (.tmmasb 5 0 7 0 0 7) (fun c _ => c.wg.tile = some tsS ∧ (∀ b ∈ c.beads, countOf b.tops < 63) ∧ productOk (tsS.tile 0) (tsS.tile 7) true = true
      ∧ destOk (tsS.tile 0) (tsS.tile 5) 7 0 = true) :=
  ⟨met (tiled (some ts8) aimed) (by decide +kernel), met (tiled (some tsS) aimed) (by decide +kernel), met (tiled (some ts8) id) (by decide +kernel),
   met (tiled (some tsS) id) (by decide +kernel)⟩

def product7 : Product :=
  { id := 7, gang := 0, member := 0, home := 0, pos := 8, tower := 0, col := 0, tier := 0, start := 0, drains := [(bootVa, 1)], op := .addF32,
    scope := 3 }

theorem wit_products_end :
    let s : State := { demo with prods := [product7] }
    s.prods.find? (·.id == 7) = some product7 ∧ ((unitProducts s product7.tower product7.col product7.tier).head?.map (·.id)) = some 7
      ∧ destOk (ts8.tile 6) (ts8.tile 5) 0 2 = true ∧ (ts8.tile 5).data.length = 32 := by
  decide +kernel

/-- s5: four rows of bf16 weights, K 16, x as bf16 at offset 0 (R262). -/
def banking (b : Bead) : Bead := (aimed b).sset 5 0x00106004

def bgemv7 (confirmed : Bool) (next : Nat) : Bgemv :=
  { id := 7, gang := 0, launch := 0, member := 0, home := 0, pos := 0, w := 0, tower := 0, col := 0, asid := bootAsid, weight := bootVa, rows := 2, k := 16,
    wf := 3, xf := 0, x := zeros 32, cb := 0, dest := bootVa + 0x8000, scope := 3, confirmed, frames := [], next }

/-- A byte on its way to BANK memory; a BFENCE that waits for store 5. -/
def banked (stamp : Nat) (s : State) : State := s.updTower 3 fun tw => { tw with bank := [{ stamp, pa := 5, byte := 1 }] }
def bfencing (b : Bead) : Bead := { b with wait := some { waitOf .fence with ids := [5] } }

def bankStore (gang : Nat) : StoreRec := { store7 1 bootVa with attr := attrOf 0xEF, gang }

/-- The store is another gang's, whose bead has released since; the issuing group has acquired as late as that, or before. -/
def apart (rel acq : Nat) : State :=
  let s := beads fun b => { b with acq }
  { s with nextId := 9, stores := [bankStore 1]
           gangs := s.gangs ++ demo.gangs.map fun g => { g with id := 1, members := g.members.map fun w => { w with beads := w.beads.map fun b => { b with rel } } } }

theorem wit_bank :
    Met (.bgemv 2 2 3 5) (fun c s => bankOk (BankGeo.ofReg (c.lead.sget 5)) 3 (c.lead.sget 2) (c.lead.sget 2) = true
      ∧ (wfElem (BankGeo.ofReg (c.lead.sget 5)).wf = .c4 → c.wg.tile ≠ none)
      ∧ c.scrTrap s (BankGeo.ofReg (c.lead.sget 5)).xoff (BankGeo.ofReg (c.lead.sget 5)).xBytes 16 .load = none ∧ bgemvCount s c.tower c.col < 16)
    ∧ Met (.bgemv 2 2 3 0) (fun c _ => bankOk (BankGeo.ofReg (c.lead.sget 0)) 3 (c.lead.sget 2) (c.lead.sget 2) = false)
    ∧ Met .bfence (fun c s => c.lead.wait = none ∧ c.bankBefore s = [7] ∧ ∃ r ∈ s.stores, r.id ∈ [7])
    ∧ Met .bfence (fun c s => c.lead.wait = none ∧ c.bankBefore s = [] ∧ s.stores ≠ [])
    ∧ Met .bfence (fun c s => c.lead.wait = none ∧ c.bankBefore s = [7] ∧ ∃ r ∈ s.stores, r.gang = 1 ∧ r.id ∈ [7])
    ∧ Met .bfence (fun c s => c.lead.wait = none ∧ c.bankBefore s = [5] ∧ ∃ t, ∃ b ∈ (s.tower t).bank, b.stamp ∈ [5])
    ∧ Met .bfence (fun c s => (c.lead.wait.any fun w => w.kind == .fence && w.ids == [5]) = true ∧ s.stores = [] ∧ ∀ t, ∀ b ∈ (s.tower t).bank, b.stamp ∉ [5])
    ∧ Met .bfence (fun c s => (c.lead.wait.any fun w => w.kind == .fence && w.ids == [5]) = true ∧ ∃ t, ∃ b ∈ (s.tower t).bank, b.stamp ∈ [5])
    ∧ (∀ b ∈ [bgemv7 true 0, bgemv7 true 1], State.bgemvs { demo with bgemvs := [b] } = [b] ∧ b.confirmed = true) :=
  ⟨met (beads banking) (by decide +kernel), met (beads aimed) (by decide +kernel),
   met { demo with nextId := 9, stores := [bankStore 0] } (by decide +kernel), met (apart 8 7) (by decide +kernel), met (apart 8 8) (by decide +kernel),
   met (banked 5 demo) (by decide +kernel), met (banked 4 (beads bfencing)) (by decide +kernel), met (banked 5 (beads bfencing)) (by decide +kernel),
   by decide +kernel⟩

/-- The demo's address in a 2 MiB BANK page of bf16 (R101, R133). -/
def bankPage (s : State) : State := { s with hbm := s.hbm.write bootL2 (leBytes 8 (15 + 32 + 3 * 64 + 256 + 0x200000)) }

theorem wit_bank_confirm :
    ∃ s cu c, s.bgemvs.find? (·.id == 7) = some (bgemv7 false 0)
      ∧ findGroup s (fun b => b.wait.any fun w => w.kind == .bank && w.addr.toNat == 7) = some cu ∧ State.ctx? { s with cur := some cu } = some c
      ∧ (∃ hit : DWord → Hit, ∀ va ∈ weightVas (bgemv7 false 0), confAtHome { s with cur := some cu } c.asid va .bank = .ok (hit va)
        ∧ (hit va).attr.bfmt = (bgemv7 false 0).wf ∧ homeOf va = homeOf (bgemv7 false 0).weight)
      ∧ c.recordsFull { s with cur := some cu } = false ∧ bgemvCount s c.tower c.col < 16 := by
  let s : State := { bankPage (beads fun b => { aimed b with wait := some { waitOf .bank with addr := 7 } }) with bgemvs := [bgemv7 false 0] }
  have key : (match findGroup s fun b => b.wait.any fun w => w.kind == .bank && w.addr.toNat == 7 with
      | some cu => (State.ctx? { s with cur := some cu }).any fun c => (!c.recordsFull { s with cur := some cu } && decide (bgemvCount s c.tower c.col < 16))
          && decide (confAtHome { s with cur := some cu } c.asid bootVa .bank = .ok { pa := 0x300000, attr := attrOf 0xEF })
      | none => false) = true := by decide +kernel
  have vas : weightVas (bgemv7 false 0) = [bootVa] := by decide +kernel
  cases hf : findGroup s fun b => b.wait.any fun w => w.kind == .bank && w.addr.toNat == 7 with
  | none => simp [hf] at key
  | some cu =>
    simp only [hf] at key
    cases hc : State.ctx? { s with cur := some cu } with
    | none => simp [hc] at key
    | some c =>
      simp only [hc, Option.any_some, Bool.and_eq_true, Bool.not_eq_true', decide_eq_true_eq] at key
      refine ⟨s, cu, c, rfl, hf, hc, ⟨fun _ => { pa := 0x300000, attr := attrOf 0xEF }, ?_⟩, key.1.1, key.1.2⟩
      intro va hva
      rw [vas, List.mem_singleton] at hva
      subst hva
      exact ⟨key.2, by decide +kernel, by decide +kernel⟩

/-- Sixteen confirmed commands of the column: the next finds no place (R264). -/
theorem wit_bank_full : let s : State := { beads (fun b => { aimed b with held := some (.bgemv 2 2 3 5), wait := some { waitOf .bank with addr := 7 } }) with
      bgemvs := bgemv7 false 0 :: (List.range 16).map fun k => { bgemv7 true 0 with id := 10 + k } }
    finds s .bank (fun c _ => c.lead.held = some (.bgemv 2 2 3 5) ∧ 16 ≤ bgemvCount s c.tower c.col) = true := by
  decide +kernel

/-! ### Witnesses: system words (R268 to R277) -/

def loan (bl : BitVec 8) (s : State) : State :=
  s.updWg 0 0 fun w => { w with strands := w.strands.map fun st => { st with blocks := bl } }

theorem wit_system_words :
    Met (.trap 9 2 1) (fun c s => c.released s 5 = true) ∧ Met (.brk 1) (fun c s => c.released s 5 = true)
    ∧ Met (.trap 9 2 1) (fun c s => c.released s 5 = false) ∧ Met (.brk 1) (fun c s => c.released s 5 = false)
    ∧ Met (.racqWait 1) (fun c s => c.lead.wait = none ∧ c.blocks &&& blocksOf 1 = 0 ∧ (1 : BitVec 7) ≠ 0
        ∧ c.racqFits (serveCore s c.tower c.col c.wg.tier) 1 = true)
    ∧ Met (.racqWait 1) (fun c s => c.lead.wait = none ∧ c.blocks &&& blocksOf 1 = 0 ∧ (1 : BitVec 7) ≠ 0
        ∧ c.racqFits (serveCore s c.tower c.col c.wg.tier) 1 = false)
    ∧ Met (.racqWait 1) (fun c _ => c.lead.wait = none ∧ c.blocks &&& blocksOf 1 ≠ 0)
    ∧ Met (.racqTry 3 127) (fun c s => c.blocks &&& blocksOf 127 = 0 ∧ (127 : BitVec 7) ≠ 0
        ∧ c.racqFits (serveCore s c.tower c.col c.wg.tier) 127 = true)
    ∧ Met (.racqTry 3 1) (fun c s => c.blocks &&& blocksOf 1 = 0 ∧ (1 : BitVec 7) ≠ 0
        ∧ c.racqFits (serveCore s c.tower c.col c.wg.tier) 1 = false)
    ∧ Met (.rrel 127) (fun c _ => blocksOf 127 &&& ~~~c.blocks = 0 ∧ pendingBlocks c.wg c.lead.home (blocksOf 127) = none)
    ∧ Met (.rrel 127) (fun c _ => blocksOf 127 &&& ~~~c.blocks ≠ 0)
    ∧ Met (.boost 3 0) (fun _ _ => (0 : BitVec 10) = 0)
    ∧ Met (.boost 3 1000) (fun c s => (1000 : BitVec 10) ≠ 0 ∧ boostGranted s c = true)
    ∧ Met (.boost 3 1) (fun c s => (1 : BitVec 10) ≠ 0 ∧ boostGranted s c = false) :=
  let late : State := { demo with stores := [store7 0 bootVa] }
  let taken : State := (loan 1 demo).updGang 0 fun g => { g with members := g.members ++ [{ bootWg false 0 with
    pos := 1, beads := (List.range 32).map fun k => Bead.start k 0 0 0 0 0
    strands := (List.range 32).map fun k => { id := k, role := 0, blocks := 0xFF, slot := 0 } }] }
  ⟨met demo (by decide +kernel), met demo (by decide +kernel), met late (by decide +kernel), met late (by decide +kernel),
   met (loan 1 demo) (by decide +kernel), met taken (by decide +kernel), met demo (by decide +kernel),
   met (loan 1 demo) (by decide +kernel), met taken (by decide +kernel), met demo (by decide +kernel),
   met (loan 1 demo) (by decide +kernel), met demo (by decide +kernel), met demo (by decide +kernel),
   met (setCore demo 0 0 0 fun x => { x with warn := true }) (by decide +kernel)⟩

/-! ### Witnesses: nodes and launches (R280 to R300) -/

theorem someOf {α : Type} {o : Option α} {P : α → Prop} [DecidablePred P] (h : (o.any fun a => decide (P a)) = true) : ∃ a, o = some a ∧ P a := by
  cases o with
  | none => simp at h
  | some a => exact ⟨a, rfl, by simpa using h⟩

/-- A node of a kind: an address, a second operand, a third. -/
def nodeOf (kind : Byte) (x y : Nat) : Node :=
  { ctr := 3, bytes := kind :: (zeros 31 ++ leBytes 8 bootVa.toNat ++ leBytes 8 x ++ leBytes 8 y ++ zeros 72), succs := [], preds := 0,
    state := .running, moved := 0, launch := none, started := true, since := 0, fate := none, latched := false }

def queueOf (qstate : Nat) (ns : List Node) : Queue :=
  { num := 5, asid := bootAsid, qcb := bootVa + 0x1000, ring := bootVa + 0x2000, rlog := 4, prio := 0, slice := 10, head := 3, tail := 3, ltail := 3,
    eslice := 10, eprio := 0, age := 0, qstate, clamp := false, latch := false, pending := false, badTail := false, slot := some 31, heldTail := none, measure := none,
    srt := 0, mapT := 0, runT := 0, runnable := true, nodes := ns, unread := [], heldRead := none, heldWrite := none, kicked := false }

def queued (q : Queue) (s : State) : State := s.updTower 0 fun tw => { tw with queues := [q], wqs := tw.wqs.map fun w => { w with asid := bootAsid } }

/-- The page of the demo with PIN (R100). -/
def pinned0 (s : State) : State := { s with hbm := s.hbm.write (bootL3 + 8 * 16) (leBytes 8 (31 + bootPage)) }

def theNode (k : Nat) : Node := nodeOf (BitVec.ofNat 8 k) (if k = 6 then bootVa.toNat + 0x8000 else 1) (if k = 6 then 16 else if k = 3 then 8 else 0)

def theQueue (k : Nat) : Queue := queueOf 2 [theNode k]

def nodeTurn (k : Nat) : Bool :=
  let s := queued (theQueue k) demo
  decide (s.queue? 0 5 = some (theQueue k) ∧ (theQueue k).nodes.find? (·.ctr == 3) = some (theNode k) ∧ (theQueue k).qstate = 2
    ∧ (theNode k).kind = k ∧ (theNode k).state = .running ∧ (theNode k).launch = none)

/-- A node of every kind has its turn. -/
theorem wit_node_turns : ∀ k ∈ List.range 9, NodeTurn k 0 5 3 (queued (theQueue k) demo) (theQueue k) (theNode k) := by
  have key : ((List.range 9).all nodeTurn) = true := by decide +kernel
  intro k hk
  have h := List.all_eq_true.mp key k hk
  simp only [nodeTurn, decide_eq_true_eq] at h
  exact ⟨h.1, h.2.1, h.2.2.1, h.2.2.2.1, .inl ⟨h.2.2.2.2.1, h.2.2.2.2.2⟩⟩

theorem wit_nodes :
    (let s0 := startNode (queued (theQueue 2) demo) 0 (theQueue 2) (theNode 2);
      ((s0.tower 0).wq 0).asid ≠ 0 ∧ ((s0.tower 0).wq 0).asid = bootAsid ∧ ((s0.tower 0).wq 0).recs.length + 1 ≤ 4096
      ∧ field (theNode 2).bytes 0x28 4 = 1 ∧ rangeFault s0 bootAsid ((theNode 2).va 0x20) 64 .read false = none)
    ∧ rangeFault (startNode (queued (theQueue 3) demo) 0 (theQueue 3) (theNode 3)) bootAsid ((theNode 3).va 0x20) (field (theNode 3).bytes 0x30 1) .write false = none
    ∧ rangeFault (startNode (queued (theQueue 4) demo) 0 (theQueue 4) (theNode 4)) bootAsid ((theNode 4).va 0x20) 8 .write false = none
    ∧ rangeFault (startNode (queued (theQueue 5) demo) 0 (theQueue 5) (theNode 5)) bootAsid ((theNode 5).va 0x20) 8 .read false = none
    ∧ rangeFault (startNode (queued (theQueue 6) demo) 0 (theQueue 6) (theNode 6)) bootAsid ((theNode 6).va 0x20) (min 4096 (field (theNode 6).bytes 0x30 8)) .read false = none
    ∧ rangeFault (startNode (queued (theQueue 6) demo) 0 (theQueue 6) (theNode 6)) bootAsid ((theNode 6).va 0x28) (min 4096 (field (theNode 6).bytes 0x30 8)) .write false = none
    ∧ (theQueue 7).slot = some 31
    ∧ rangeFault (startNode (queued (theQueue 8) demo) 0 (theQueue 8) (theNode 8)) bootAsid ((theNode 8).va 0x20) 8 .write false = none
    ∧ (rangeFault (startNode (queued { theQueue 3 with asid := 7 } demo) 0 { theQueue 3 with asid := 7 } (theNode 3)) 7 ((theNode 3).va 0x20) 8 .write false).isSome = true := by
  decide +kernel

def overNode7 : Node := { theNode 0 with state := .workOver 3 0 }

/-- Nodes whose access has no translation: a queue of an address space that has none. -/
def lost (k : Nat) : State := queued { theQueue k with asid := 7 } demo

theorem wit_node_faults :
    (rangeFault (startNode (lost 4) 0 { theQueue 4 with asid := 7 } (theNode 4)) 7 ((theNode 4).va 0x20) 8 .write false).isSome = true
    ∧ (rangeFault (startNode (lost 5) 0 { theQueue 5 with asid := 7 } (theNode 5)) 7 ((theNode 5).va 0x20) 8 .read false).isSome = true
    ∧ (rangeFault (startNode (lost 6) 0 { theQueue 6 with asid := 7 } (theNode 6)) 7 ((theNode 6).va 0x20) 16 .read false).isSome = true
    ∧ (rangeFault (startNode (lost 8) 0 { theQueue 8 with asid := 7 } (theNode 8)) 7 ((theNode 8).va 0x20) 8 .write false).isSome = true
    ∧ ((((startNode (lost 2) 0 { theQueue 2 with asid := 7 } (theNode 2)).tower 0).wq 0).asid ≠ 7)
    ∧ (let n := nodeOf 6 (bootVa.toNat + 0x20000) 16
       rangeFault (startNode (queued (queueOf 2 [n]) demo) 0 (queueOf 2 [n]) n) bootAsid (n.va 0x20) 16 .read false = none
        ∧ (rangeFault (startNode (queued (queueOf 2 [n]) demo) 0 (queueOf 2 [n]) n) bootAsid (n.va 0x28) 16 .write false).isSome = true)
    ∧ ((theNode 5).latched || sigCond (BitVec.ofNat 2 (field (theNode 5).bytes 0x30 1)) (BitVec.ofNat 64 (leNat (zeros 8))) ((theNode 5).va 0x28)) = false
    ∧ ({ theNode 5 with latched := true } : Node).latched = true := by
  decide +kernel

theorem wit_node_end : let q := queueOf 2 [overNode7]
    (queued q (pinned0 demo)).queue? 0 5 = some q ∧ q.nodes.find? (·.ctr == 3) = some overNode7 ∧ q.heldRead = none ∧ q.heldWrite = none
      ∧ nodeRecordWaits (queued q (pinned0 demo)) 0 q 3 = false
      ∧ rangeFault (queued q (pinned0 demo)) q.asid (q.recVa 3) 32 .write true = none
      ∧ (rangeFault (queued q demo) q.asid (q.recVa 3) 32 .write true).isSome = true
      ∧ ({ q with heldWrite := some 3 } : Queue).heldWrite ≠ none := by
  decide +kernel

/-- Two nodes behind the head have ended, the third has not. -/
theorem wit_head : let done := { theNode 0 with state := .ended 3 }
    (∀ n ∈ [done, done], n.state = .ended 3) ∧ (theNode 0).state = .running ∧ (theNode 1).kind = 1 ∧ (theNode 0).kind ≠ 1 ∧ (theNode 1).fate = none
      ∧ ({ theNode 1 with fate := some (4, 9) } : Node).fate = some (4, 9) := by
  decide

theorem wit_after_end : let n := theNode 0
    ({ n with ctr := 3 } : Node).ctr = n.ctr ∧ ({ n with ctr := 4, state := .pendingPreds, preds := 1 } : Node).ctr ≠ { n with succs := [4] }.ctr
      ∧ ({ n with succs := [4] } : Node).succs.contains 4 = true := by
  decide

/-- A header of one role of one strand, code of one word at 0x280 (R54). -/
def header : List Byte :=
  leBytes 4 0x315A464B ++ leBytes 2 1 ++ leBytes 2 0 ++ leBytes 4 0x280 ++ leBytes 4 4 ++ [1, 1, 0, 0] ++ zeros 8 ++ leBytes 4 0xFFFFFFFF ++ zeros 16
    ++ leBytes 4 0 ++ [1, 1] ++ zeros 586

/-- A grid of one workgroup, its completion record at bootVa + 0x1000 (R55). -/
def launchBytes : List Byte :=
  1 :: (zeros 31 ++ leBytes 8 bootVa.toNat ++ leBytes 8 bootVa.toNat ++ leBytes 4 1 ++ leBytes 2 1 ++ leBytes 2 1 ++ [1, 0] ++ zeros 38
    ++ leBytes 8 (bootVa.toNat + 0x1000) ++ zeros 24)

/-- The header's lines stand in the L2; every column is present and free. -/
def launching (h : List Byte) : State :=
  let line (k : Nat) : Line := { asid := bootAsid, va := bootVa + BitVec.ofNat 64 (128 * k), data := BitVec.ofNat 1024 (leNat ((h.drop (128 * k)).take 128)),
                                 dirty := false, pa := bootPage + 128 * k, attr := attrOf 31, writer := none }
  let s : State := { pinned0 demo with gangs := [], launches := [] }
  s.updTower 0 fun tw => { tw with l2 := (List.range 5).map line, boot := { tw.boot with cols := BitVec.allOnes 40, maint := false } }

def accepting : Accepting := { t := 0, q := queueOf 2 [], ctr := 3, bytes := launchBytes }

/-- Reads that fault, reads of a header that is refused, and a launch that is taken. -/
theorem wit_acceptance :
    (field launchBytes 0x20 8 % 256 = 0 ∧ field launchBytes 0x40 8 % 8 = 0 ∧ field launchBytes 0x60 8 % 128 = 0)
    ∧ (launchReads (launching header) 7 launchBytes).isNone = true
    ∧ (∃ x, launchReads (launching (zeros 640)) bootAsid launchBytes = some x ∧
        let h := completionHit (launching (zeros 640)) bootAsid launchBytes
        launchRefusal x.1 accepting x.2 h (buildLaunch x.1 accepting x.2 (h.getD { pa := 0, attr := attrOf 0 }) (mapOf accepting x.2.map)) = some 2)
    ∧ ∃ x, launchReads (launching header) bootAsid launchBytes = some x ∧
        let h := completionHit (launching header) bootAsid launchBytes
        launchRefusal x.1 accepting x.2 h (buildLaunch x.1 accepting x.2 (h.getD { pa := 0, attr := attrOf 0 }) (mapOf accepting x.2.map)) = none :=
  ⟨by decide +kernel, by decide +kernel, someOf (by decide +kernel), someOf (by decide +kernel)⟩

/-! ### Witnesses: gangs (R65 to R68, R335 to R338, R351) -/

/-- The launch's queue is mapped, in normal service, its one column all scratch. -/
def serving (s : State) : State :=
  s.updTower 0 fun tw =>
    { tw with queues := [{ queueOf 2 [] with num := 0 }], boot := { tw.boot with cols := 1, maint := false }, cols := tw.cols.map fun co => { co with steps := 10 } }

def gangAt (s : State) (P : Gang → Launch → Prop) [∀ g l, Decidable (P g l)] : Bool :=
  match s.gang? 0 with
  | some g => (match s.launch? g.launch with | some l => decide (P g l) | none => false)
  | none => false

theorem gangOf {s : State} {P : Gang → Launch → Prop} [∀ g l, Decidable (P g l)] (h : gangAt s P = true) :
    ∃ g l, s.gang? 0 = some g ∧ s.launch? g.launch = some l ∧ P g l := by
  unfold gangAt at h
  split at h
  · next g hg =>
    split at h
    · next l hl => exact ⟨g, l, hg, hl, by simpa using h⟩
    · cases h
  · cases h

def mapTowers (f : LaunchTower → LaunchTower) (l : Launch) : Launch := { l with towers := l.towers.map f }

/-- Every bead has waited 50 µs at a barrier. -/
def idling (b : Bead) : Bead := { b with wait := some (waitOf .bar) }

def late (ns : Nat) (s : State) : State := { s with towers := s.towers.map fun tw => { tw with clock := BitVec.ofNat 64 ns } }

def savedGang (s : State) : State := s.updGang 0 fun g => { g with place := .saved 0 [] true }

def exiting (b : Bead) : Bead := { b with active := 0, exited := 0xF }

def savedNext : Option NextGang → Option Gang
  | some (.saved g) => some g
  | _ => none

theorem savedNext_eq {x : Option NextGang} {g : Gang} (h : savedNext x = some g) : x = some (.saved g) := by
  unfold savedNext at h
  split at h
  · simpa using h
  · cases h

theorem wit_gangs :
    (∃ l, (demoWith (mapTowers fun x => { x with listed := false }) id id).launch? 0 = some l ∧ l.finished = none ∧ (l.towers.get 0).listed = false)
    ∧ (∃ g l, (late 50000 (serving (demoWith (fun l => { mapTowers (fun x => { x with todo := [1] }) l with scratch := 262144 * 10 }) id idling))).gang? 0 = some g
        ∧ (late 50000 (serving (demoWith (fun l => { mapTowers (fun x => { x with todo := [1] }) l with scratch := 262144 * 10 }) id idling))).launch? g.launch = some l
        ∧ (g.parkable (late 50000 (serving (demoWith (fun l => { mapTowers (fun x => { x with todo := [1] }) l with scratch := 262144 * 10 }) id idling))) = true
          ∧ g.idle 50000 = true
          ∧ unmet (late 50000 (serving (demoWith (fun l => { mapTowers (fun x => { x with todo := [1] }) l with scratch := 262144 * 10 }) id idling))) 0 = true
          ∧ (cellarRun (late 50000 (serving (demoWith (fun l => { mapTowers (fun x => { x with todo := [1] }) l with scratch := 262144 * 10 }) id idling))) 0 l.id
              (g.granules l)).isSome = true))
    ∧ (∃ g l, (demo.updGang 0 fun g => { g with pending := some (.save .park) }).gang? 0 = some g
        ∧ (demo.updGang 0 fun g => { g with pending := some (.save .park) }).launch? g.launch = some l
        ∧ (g.pending = some (.save .park) ∧ g.resident = true ∧ g.mayLeave = true ∧ (cellarRun demo 0 l.id (g.granules l)).isSome = true))
    ∧ (∃ g l, (serving (savedGang demo)).gang? 0 = some g ∧ (serving (savedGang demo)).launch? g.launch = some l
        ∧ (savedNext (nextGang (serving (savedGang demo)) l 0) = some g ∧ l.mayPlace (serving (savedGang demo)) 0 = true
          ∧ (spotFor (serving (savedGang demo)) l 0 (.saved g) none).isSome = true))
    ∧ (∃ g l, (beads exiting).gang? 0 = some g ∧ (beads exiting).launch? g.launch = some l
        ∧ (mayRetire (beads exiting) g = true ∧ (applyGang (beads exiting) 0).reds.any (·.gang == 0) = false
          ∧ (((reportRetire (applyGang (beads exiting) 0) l g).tower g.tower).fltq.anyWaits fun r => r.gang == 0 && (r.code == 6 || r.code == 9)) = false
          ∧ ((reportRetire (applyGang (beads exiting) 0) l g).gang? 0).isSome = true)) := by
  and_intros <;> first | exact someOf (by decide +kernel) | exact gangOf (by decide +kernel)

/-- A gang whose retirement has been reported. -/
def demoGang0 : Gang :=
  { id := 0, launch := 0, num := 0, tower := 0, place := .resident 0 0, members := [], copies := [], defers := [], pending := none, wake := false, reported := true }

/-- A record of kind 6 of the gang waits: it does not retire. A gang before it waits at GBAR too: it does not save. -/
def twoGangs : State :=
  let s := demo.updGang 0 fun g => { g with pending := some (.save .park) }
  { s with gangs := s.gangs ++ s.gangs.map fun g => { g with id := 1, num := 1 } }

theorem wit_gangs_wait :
    (∃ g, twoGangs.gang? 1 = some g ∧ ∃ l ∈ twoGangs.launches, savesBefore twoGangs l g = true)
    ∧ (((demo.updTower 0 fun tw => { tw with fltq := { tw.fltq with cfg := some { base := bootVa, rlog := 4, asid := bootAsid }, prod := 16, held := [{ blankRec 7 (zeros 64) with code := 6 }] } }).tower 0).fltq.anyWaits
        fun r => r.gang == 0 && (r.code == 6 || r.code == 9)) = true
    ∧ evictsFor (demo.updGang 0 fun g => { g with pending := some (.save (.evict 0)) }) 0 0 = true ∧ evictsFor demo 0 0 = false
    ∧ demoGang0.reported = true ∧ { demoGang0 with reported := false }.reported = false := by
  and_intros <;> first | exact someOf (by decide +kernel) | rfl

/-- Before the divert instant, at it, and at the deadline, which is 100 ns later (R343, R351). -/
theorem wit_instants : ∃ l, (demoWith (fun l => { l with deadline := 1000, wrapBudget := 100 }) id id).launch? 0 = some l
    ∧ (l.deadline ≠ 0 ∧ (l.towers.get 0).divertDue = none ∧ l.deadline.toNat - l.wrapBudget.toNat = 900
      ∧ ((late 899 demo).tower 0).time < 900 ∧ 900 ≤ ((late 900 demo).tower 0).time ∧ ((late 999 demo).tower 0).time < l.deadline.toNat
      ∧ l.deadline.toNat ≤ ((late 1000 demo).tower 0).time) :=
  someOf (by decide +kernel)

/-! ### Witnesses: words that stop (R217, R226, R240 to R243, R253 to R263) -/

/-- Where a target's confirmation is refused, the confirmation fails. -/
theorem refusedFails {c : Ctx} {s : State} {kind : Byte} {n : Need} {ts : List Target} {conf : DWord → Conf}
    (h : (ts.find? fun x => (conf x.va).refused).isSome = true) : ∃ t, ConfirmFails c s kind n ts conf t := by
  obtain ⟨x, hx⟩ := Option.isSome_iff_exists.mp h
  exact ⟨_, .inl ⟨x, hx, rfl⟩⟩

/-- The word i issues in a state in which P holds and a confirmation of its targets fails. -/
def MetFails (i : Instr) (n : Need) (ts : Ctx → List Target) (conf : Ctx → State → DWord → Conf) (P : Ctx → State → Prop) : Prop :=
  ∃ c s, Issues i c s ∧ P c (c.stamp s) ∧ ∃ t, ConfirmFails c (c.stamp s) 1 n (ts c) (conf c (c.stamp s)) t

theorem metFails {i : Instr} {n : Need} {ts : Ctx → List Target} {conf : Ctx → State → DWord → Conf} {P : Ctx → State → Prop}
    [∀ c s, Decidable (P c s)] (s : State)
    (h : holds i s (fun c s => P c s ∧ ((ts c).find? fun x => (conf c s x.va).refused).isSome = true) = true) : MetFails i n ts conf P := by
  obtain ⟨c, s, hi, hp, hq⟩ := met s h
  exact ⟨c, s, hi, hp, refusedFails hq⟩

/-- In an address space that has no root table. -/
def rootless (s : State) : State := { s with launches := s.launches.map fun l => { l with asid := 5 } }

/-- Signalling NaNs in v8. -/
def signalling (b : Bead) : Bead := { aimed b with lanes := Quad.fill { v := Vector.replicate 64 0x7F800001, p := 0xFF } }

theorem wit_word_checks :
    Met (.vred 8 2 0 3 0) (fun c s => (c.accTrap s true (RedOp.ofCode 0).bytes (some .rmw)
        (c.laneAccs (modGuard c.pfx) fun x k => x.sget 2 + laneOffset x k 0 + c.imm (0#0))).isSome = true)
    ∧ Met (.vred 8 2 0 3 0) (fun c s => c.accTrap s true (RedOp.ofCode 0).bytes (some .rmw)
        (c.laneAccs (modGuard c.pfx) fun x k => x.sget 2 + laneOffset x k 0 + c.imm (0#0)) = none
        ∧ (snanOf c.beads (fun x => x.lanesOn (modGuard c.pfx) c.neg) (redReads (RedOp.ofCode 0) 8)).isSome = true)
    ∧ (∀ i ∈ [Instr.bara 9 2 0 4, .bar 9 2 0 4, .barw 9 2 0 4], Met i fun c s => c.lead.wait = none
        ∧ (c.accTrap s ((0 : BitVec 1) == 0) 8 none (c.wordAccs (barAddr 0 2))).isSome = true)
    ∧ (∀ i ∈ [Instr.sigw 9 2 0 4, .sigp 9 2 1 5], Met i fun c s => c.lead.wait = none ∧ (c.accTrap s true 8 none (c.wordAccs (·.sget 2))).isSome = true)
    ∧ MetFails (.bara 9 2 0 4) .write (fun c => (c.wordAccs (barAddr 0 2)).map (·.target)) (fun c s => c.conf s .write) (fun c s =>
        c.accTrap s ((0 : BitVec 1) == 0) 8 none (c.wordAccs (barAddr 0 2)) = none)
    ∧ MetFails (.bar 9 2 0 4) .write (fun c => (c.wordAccs (barAddr 0 2)).map (·.target)) (fun c s => c.conf s .write) (fun c s =>
        c.lead.wait = none ∧ c.accTrap s ((0 : BitVec 1) == 0) 8 none (c.wordAccs (barAddr 0 2)) = none)
    ∧ MetFails (.sigp 9 2 1 5) .write (fun c => (c.wordAccs (·.sget 2)).map (·.target)) (fun c s => c.conf s .write) (fun c s =>
        c.accTrap s true 8 none (c.wordAccs (·.sget 2)) = none)
    ∧ Met (.wpop 9 0 0 15) (fun c s => (((s.tower c.tower).wq 15).asid = c.asid ∧ (c.lead.sget 0 &&& 0xFFFFFFFF).toNat % 64 = 0
          ∧ (c.lead.sget 0 &&& 0xFFFFFFFF).toNat + 64 ≤ c.scrLen) ∧ c.lead.wait = none
        ∧ ¬c.copyPending s false true { b := c.lead, va := c.lead.sget 0 &&& 0xFFFFFFFF, n := 64 } = false) := by
  have each {is : List Instr} {P : Ctx → State → Prop} [∀ c s, Decidable (P c s)] (h : (is.all fun i => holds i (beads crooked) P) = true) :
      ∀ i ∈ is, Met i P := fun i hi => met (beads crooked) (List.all_eq_true.mp h i hi)
  exact ⟨met (beads crooked) (by decide +kernel), met (beads signalling) (by decide +kernel), each (by decide +kernel), each (by decide +kernel),
    metFails (rootless (beads aimed)) (by decide +kernel), metFails (rootless (beads aimed)) (by decide +kernel),
    metFails (rootless (beads aimed)) (by decide +kernel),
    met { wqBound bootAsid [] (withCopies [{ copyOf false 48 63 with pieces := [{ src := none, dst := (false, 48), len := 16 }] }] (beads calm)) with nextId := 51 }
      (by decide +kernel)⟩

/-- s6, s5: a scratch offset and a list that are as named; a geometry. -/
def gathered (d geo : DWord) (b : Bead) : Bead := ((aimed b).sset 6 d).sset 5 geo

/-- A copy word's checks at their bounds: a geometry of fifteen bytes a row and one of 4097, an odd offset, a list and a
destination that end one row beyond the allocation. -/
theorem wit_copy_checks :
    Met (.acopyo 3 2) (fun c _ => (c.copyTrap (c.lead.sget 2) (c.loWord 3) (c.hiWord 3)).isSome = true)
    ∧ (∀ geo ∈ [0x0001000F00000010, 0x0001100100000010, 0x1001001000000010],
      Met (.acopyg 6 2 5) fun c _ => c.lead.sget 5 = geo ∧ ¬(16 ≤ ((c.lead.sget 5).extractLsb' 32 16).toNat ∧ ((c.lead.sget 5).extractLsb' 32 16).toNat ≤ 4096
        ∧ ((c.lead.sget 5).extractLsb' 48 16).toNat ≤ 4096))
    ∧ Met (.acopyg 6 2 5) (fun c _ => c.lead.sget 5 = 0x0001001000000010 ∧ c.loWord 6 = 8)
    ∧ Met (.acopyg 6 2 5) (fun c s => c.lead.sget 5 = 0x0001001000000010 ∧ c.loWord 6 = 0 ∧ (c.scrTrap s (c.hiWord 6) (4 * 1) 4 .load).isSome = true)
    ∧ Met (.acopyg 6 2 5) (fun c s => c.lead.sget 5 = 0x0001001000000010 ∧ c.scrTrap s (c.hiWord 6) (4 * 1) 4 .load = none ∧ c.scrLen < c.loWord 6 + 1 * 16)
    ∧ Met (.acopyt 6 2) (fun c _ => canonicalVa (c.lead.sget 2) = false)
    ∧ Met (.acopyt 6 2) (fun c _ => canonicalVa (c.lead.sget 2) = true ∧ (c.lead.sget 2).toNat % 128 ≠ 0)
    ∧ MetFails (.acopyt 6 2) .read (fun c => [{ lane := 0xFF, va := c.lead.sget 2 }, { lane := 0xFF, va := c.lead.sget 2 + 128 }])
        (fun c s => c.confVa s .read) (fun c _ => canonicalVa (c.lead.sget 2) = true ∧ (c.lead.sget 2).toNat % 128 = 0) := by
  refine ⟨met (beads crooked) (by decide +kernel), ?_, met (beads (gathered 8 0x0001001000000010)) (by decide +kernel),
    met (beads (gathered 0x100000000000 0x0001001000000010)) (by decide +kernel), met (beads (gathered 4096 0x0001001000000010)) (by decide +kernel),
    met (beads fun b => b.sset 2 0x80000000000000) (by decide +kernel), met (beads crooked) (by decide +kernel),
    metFails (rootless (beads aimed)) (by decide +kernel)⟩
  intro geo hg
  have key : (([0x0001000F00000010, 0x0001100100000010, 0x1001001000000010] : List DWord).all fun geo => holds (.acopyg 6 2 5) (beads (gathered 0 geo))
      fun c _ => c.lead.sget 5 = geo ∧ ¬(16 ≤ ((c.lead.sget 5).extractLsb' 32 16).toNat ∧ ((c.lead.sget 5).extractLsb' 32 16).toNat ≤ 4096
        ∧ ((c.lead.sget 5).extractLsb' 48 16).toNat ≤ 4096)) = true := by decide +kernel
  exact met _ (List.all_eq_true.mp key geo hg)

/-- A map of another space's bytes, one whose record lies outside, and boxes at an odd offset and beyond the allocation. -/
theorem wit_box_checks :
    let open_ (c : Ctx) (s : State) : Prop := canonicalVa (c.lead.sget 2) = true ∧ (c.lead.sget 2).toNat % 128 = 0
      ∧ (∃ h, c.confVa s .read (c.lead.sget 2) = .ok h) ∧ (∃ h, c.confVa s .read (c.lead.sget 2 + 128) = .ok h)
    let clear (c : Ctx) (s : State) : State := c.clear s false true (mapTouches c)
    let read (c : Ctx) (s : State) := c.readRange (clear c s) (c.lead.sget 2) 256
    (∃ c s, Issues (.acopyt 6 2) c s ∧ open_ c (c.stamp s) ∧ c.barred (clear c (c.stamp s)) false true (mapTouches c) = false
      ∧ tmapOk (read c (c.stamp s)).2 = false)
    ∧ (∀ d ∈ [0x100000000000, 8, 4096], ∃ c s, Issues (.acopyt 6 2) c s ∧ open_ c (c.stamp s) ∧ c.barred (clear c (c.stamp s)) false true (mapTouches c) = false
      ∧ c.lead.sget 6 = d ∧ (read c (c.stamp s)).2 = map1)
    ∧ tmapOk map1 = true ∧ 8 * (TMap.ofBytes map1).rank = 8 ∧ ((TMap.ofBytes map1).withRecord (zeros 8)).boxBytes = 16 := by
  letI := decOk
  refine ⟨?_, ?_, by decide +kernel, by decide +kernel, by decide +kernel⟩
  · obtain ⟨c, s, hi, h1, h2, h3⟩ := met (i := .acopyt 6 2) (P := fun c s => (canonicalVa (c.lead.sget 2) = true ∧ (c.lead.sget 2).toNat % 128 = 0
      ∧ (∃ h, c.confVa s .read (c.lead.sget 2) = .ok h) ∧ (∃ h, c.confVa s .read (c.lead.sget 2 + 128) = .ok h))
      ∧ c.barred (c.clear s false true (mapTouches c)) false true (mapTouches c) = false
      ∧ ((c.readRange (c.clear s false true (mapTouches c)) (c.lead.sget 2) 256).2 == zeros 256) = true) (beads aimed) (by decide +kernel)
    exact ⟨c, s, hi, h1, h2, by rw [eq_of_beq h3]; decide +kernel⟩
  · intro d hd
    have key : (([0x100000000000, 8, 4096] : List DWord).all fun d => holds (.acopyt 6 2) (withMap (beads (gathered d 0))) fun c s =>
      (canonicalVa (c.lead.sget 2) = true ∧ (c.lead.sget 2).toNat % 128 = 0
      ∧ (∃ h, c.confVa s .read (c.lead.sget 2) = .ok h) ∧ (∃ h, c.confVa s .read (c.lead.sget 2 + 128) = .ok h))
      ∧ c.barred (c.clear s false true (mapTouches c)) false true (mapTouches c) = false ∧ c.lead.sget 6 = d
      ∧ ((c.readRange (c.clear s false true (mapTouches c)) (c.lead.sget 2) 256).2 == map1) = true) = true := by decide +kernel
    obtain ⟨c, s, hi, h1, h2, h3, h4⟩ := met _ (List.all_eq_true.mp key d hd)
    exact ⟨c, s, hi, h1, h2, h3, eq_of_beq h4⟩

/-- A tile without rows; its TCTL value of reset. -/
def ts0 : TileSet := tset 0

/-- T-form words on tiles that they do not take, with a full count, and on ranges whose check or confirmation fails. -/
theorem wit_tile_checks :
    tileRowBytes 0 0 = none ∧ tileRowBytes 0x413 1 = none ∧ tRows (ts0.tile 7).ctl = 0 ∧ tldtFmt (tFmt (tsC.tile 7).ctl) = false
    ∧ (∀ i ∈ [Instr.tld 7 0 0 1, .tst 7 0 0 1, .tldt 7 0 1, .tquant 7 0 1, .tqcb 7 0 1], Met i fun c _ => c.wg.tile = some ts0 ∧ ∀ b ∈ c.beads, countOf b.tops < 63)
    ∧ (∀ i ∈ [Instr.tld 7 2 0 0, .tst 7 2 0 0, .tldt 7 2 0], Met i fun c s => (c.wg.tile = some ts8 ∧ ∀ b ∈ c.beads, countOf b.tops < 63)
        ∧ (c.rangeTrap s (rowRanges 0 (c.lead.sget 2) 1 0 96) (tileAddr 0 (c.lead.sget 2)) 16 .load).isSome = true)
    ∧ (∀ i ∈ [Instr.tld 7 2 0 0, .tst 7 2 0 0, .tldt 7 2 0, .tmma 6 7 2 5, .tmmas 6 7 2 5, .tmmab 5 6 7 1 2 0, .tmmasb 5 6 7 1 2 0, .tquant 7 2 0, .tqcb 7 2 0],
        Met i fun c _ => c.wg.tile = some ts8 ∧ ∃ b ∈ c.beads, 63 ≤ countOf b.tops)
    ∧ MetFails (.tld 7 2 0 0) .read (fun c => (rowRanges 0 (c.lead.sget 2) 1 0 96).parts.map fun x => { lane := 0xFF, va := x.1 })
        (fun c s => c.confVa s .read) (fun c s => (c.wg.tile = some ts8 ∧ ∀ b ∈ c.beads, countOf b.tops < 63)
          ∧ c.rangeTrap s (rowRanges 0 (c.lead.sget 2) 1 0 96) (tileAddr 0 (c.lead.sget 2)) 16 .load = none)
    ∧ MetFails (.tcb 3 2 0) .read (fun c => (rowRanges 0 (c.lead.sget 2) 1 0 32).parts.map fun x => { lane := 0xFF, va := x.1 })
        (fun c s => c.confVa s .read) (fun c s => c.wg.tile = some ts8
          ∧ c.rangeTrap s (rowRanges 0 (c.lead.sget 2) 1 0 32) (tileAddr 0 (c.lead.sget 2)) 32 .load = none) := by
  have each (s : State) {is : List Instr} {P : Ctx → State → Prop} [∀ c s, Decidable (P c s)] (h : (is.all fun i => holds i s P) = true) :
      ∀ i ∈ is, Met i P := fun i hi => met s (List.all_eq_true.mp h i hi)
  exact ⟨by decide +kernel, by decide +kernel, by decide +kernel, by decide +kernel, each (tiled (some ts0) id) (by decide +kernel),
    each (tiled (some ts8) crooked) (by decide +kernel), each (tiled (some ts8) openOps) (by decide +kernel),
    metFails (rootless (tiled (some ts8) aimed)) (by decide +kernel), metFails (rootless (tiled (some ts8) aimed)) (by decide +kernel)⟩

/-- Products whose operands do not fit, whose base is bad, or whose drain is refused while sixteen records stand. -/
theorem wit_product_checks :
    productOk (tsS.tile 0) (tsS.tile 7) false = false ∧ productOk (ts8.tile 6) (ts8.tile 7) true = false ∧ destOk (ts8.tile 6) (ts8.tile 5) 1 2 = false
    ∧ Met (.tmma 6 7 2 5) (fun c _ => c.wg.tile = some ts8 ∧ productOk (ts8.tile 6) (ts8.tile 7) false = true ∧ canonicalVa (c.lead.sget 2) = false)
    ∧ Met (.tmma 6 7 2 5) (fun c _ => c.wg.tile = some ts8 ∧ canonicalVa (c.lead.sget 2) = true ∧ (c.lead.sget 2).toNat % 4 ≠ 0)
    ∧ MetFails (.tmma 6 7 2 3) .write (fun c => drainTargets (drainWords ts8 (ts8.tile 6) (ts8.tile 7) false (c.lead.sget 2)))
        (fun c s => c.confVa s .write) (fun c s => (c.wg.tile = some ts8 ∧ ∀ b ∈ c.beads, countOf b.tops < 63)
          ∧ productOk (ts8.tile 6) (ts8.tile 7) false = true ∧ canonicalVa (c.lead.sget 2) = true ∧ (c.lead.sget 2).toNat % 4 = 0 ∧ c.recordsFull s = true) :=
  ⟨by decide +kernel, by decide +kernel, by decide +kernel, met (tiled (some ts8) fun b => b.sset 2 0x80000000000000) (by decide +kernel),
   met (tiled (some ts8) crooked) (by decide +kernel), metFails (withDefers 16 (rootless (tiled (some ts8) aimed))) (by decide +kernel)⟩

/-- c4 weights without a tile set; an x at an odd offset; sixteen commands in the column. -/
theorem wit_bank_checks :
    Met (.bgemv 2 2 3 5) (fun c _ => bankOk (BankGeo.ofReg (c.lead.sget 5)) 3 (c.lead.sget 2) (c.lead.sget 2) = true
      ∧ wfElem (BankGeo.ofReg (c.lead.sget 5)).wf = .c4 ∧ c.wg.tile = none)
    ∧ Met (.bgemv 2 2 3 5) (fun c s => bankOk (BankGeo.ofReg (c.lead.sget 5)) 3 (c.lead.sget 2) (c.lead.sget 2) = true
      ∧ wfElem (BankGeo.ofReg (c.lead.sget 5)).wf ≠ .c4 ∧ (c.scrTrap s (BankGeo.ofReg (c.lead.sget 5)).xoff (BankGeo.ofReg (c.lead.sget 5)).xBytes 16 .load).isSome = true)
    ∧ Met (.bgemv 2 2 3 5) (fun c s => bankOk (BankGeo.ofReg (c.lead.sget 5)) 3 (c.lead.sget 2) (c.lead.sget 2) = true
      ∧ wfElem (BankGeo.ofReg (c.lead.sget 5)).wf ≠ .c4 ∧ c.scrTrap s (BankGeo.ofReg (c.lead.sget 5)).xoff (BankGeo.ofReg (c.lead.sget 5)).xBytes 16 .load = none
      ∧ 16 ≤ bgemvCount s c.tower c.col)
    ∧ (∃ s cu c, findGroup s (fun b => b.wait.any fun w => w.kind == .bank && w.addr.toNat == 7) = some cu ∧ State.ctx? { s with cur := some cu } = some c
      ∧ ((((weightVas (bgemv7 false 0)).map fun va => ({ lane := 0xFF, va } : Target)).find? fun x =>
        (confAtHome { s with cur := some cu } c.asid x.va .bank).refused).isSome = true))
    ∧ (∃ s cu c, findGroup s (fun b => b.wait.any fun w => w.kind == .bank && w.addr.toNat == 7) = some cu ∧ State.ctx? { s with cur := some cu } = some c
      ∧ (confAtHome { s with cur := some cu } c.asid bootVa .bank = .ok { pa := 0x300000, attr := attrOf 0xEF }))
    ∧ (attrOf 0xEF).bfmt ≠ { bgemv7 false 0 with wf := 0 }.wf :=
  ⟨met (tiled none fun b => (aimed b).sset 5 0x00204004) (by decide +kernel), met (beads fun b => (aimed b).sset 5 0x0000080000106004) (by decide +kernel),
   met { beads banking with bgemvs := (List.range 16).map fun k => { bgemv7 true 0 with id := k } } (by decide +kernel),
   found (P := fun c s => (((weightVas (bgemv7 false 0)).map fun va => ({ lane := 0xFF, va } : Target)).find? fun x => (confAtHome s c.asid x.va .bank).refused).isSome = true)
     { rootless (beads fun b => { aimed b with wait := some { waitOf .bank with addr := 7 } }) with bgemvs := [bgemv7 false 0] } (by decide +kernel),
   found (P := fun c s => confAtHome s c.asid bootVa .bank = .ok { pa := 0x300000, attr := attrOf 0xEF })
     { bankPage (beads fun b => { aimed b with wait := some { waitOf .bank with addr := 7 } }) with bgemvs := [{ bgemv7 false 0 with wf := 0 }] } (by decide +kernel),
   by decide +kernel⟩

/-- A copy whose lead bead's product has still to drain to the bytes that it writes waits; own contributions gone, it does not. -/
theorem wit_copy_waits :
    (let p : Copy := { copyOf true 0 15 with id := 8, pieces := [{ src := none, dst := (true, bootVa), len := 16 }] }
     let s : State := { demo with prods := [{ product7 with pos := 0 }] }
     piecesBlocked demoGang bootAsid p (clearPieces demoGang bootAsid p s p.pieces) p.pieces = true)
    ∧ ((∀ r ∈ demo.reds, r.gang ≠ demoGang.id) ∧ (∀ x ∈ demo.prods, x.gang ≠ demoGang.id) ∧ (∀ b ∈ demo.bgemvs, b.gang ≠ demoGang.id)
      ∧ (demo.col demoGang.tower demoGang.col).acc = []) := by
  decide +kernel

/-- A diversion still on its way to a tower, before the divert instant and after it; a launch without a wrap entry, and one that is
diverted there; a port's second just not over and over; a third failed start. -/
theorem wit_firsts :
    (∃ l, (demoWith (fun l => { l with deadline := 1000, wrapBudget := 100, towers := l.towers.upd 0 fun x => { x with divertDue := some (2, 1, 899) } }) id id).launch? 0 = some l
      ∧ (l.towers.get 0).divertDue = some (2, 1, 899) ∧ ¬l.deadline.toNat - l.wrapBudget.toNat < 899)
    ∧ (∃ l, (demoWith (fun l => { l with deadline := 1000, wrapBudget := 100, towers := l.towers.upd 0 fun x => { x with divertDue := some (2, 1, 901) } }) id id).launch? 0 = some l
      ∧ (l.towers.get 0).divertDue = some (2, 1, 901) ∧ l.deadline.toNat - l.wrapBudget.toNat < 901)
    ∧ (∃ l, (demoWith (fun l => { l with wrap := false }) id id).launch? 0 = some l ∧ l.wrap = false)
    ∧ (∃ l, (demoWith (fun l => { l with wrap := true, towers := l.towers.map fun x => { x with diverted := true } }) id id).launch? 0 = some l
      ∧ l.wrap = true ∧ (l.towers.get 0).diverted = true)
    ∧ ((demo.tower 0).ports.get 1).since + 1000000000 ≤ ((late 1000000000 demo).tower 0).time
    ∧ ¬((demo.tower 0).ports.get 1).since + 1000000000 ≤ ((late 999999999 demo).tower 0).time
    ∧ 3 ≤ (({ demo with towers := demo.towers.map fun (tw : Tower) => { tw with boot := { tw.boot with fails := 3 } } } : State).tower 0).boot.fails := by
  and_intros <;> first | exact someOf (by decide +kernel) | decide +kernel

def killed0 (b : Bead) : Bead := { b with grp := if b.pos = 0 then 1 else 0 }

/-- A stop that awaits a reply to record 7, the group's own. -/
def stopped (b : Bead) : Bead := { b with stop := some { trap := 7, own := true, code := 0x20, used := 0, reply := none } }

theorem wit_gangs_go_on :
    (∃ g l, (demoWith (fun l => { l with restring := true, roles := l.roles.map fun r => { r with tile := false } }) id killed0).gang? 0 = some g
        ∧ (demoWith (fun l => { l with restring := true, roles := l.roles.map fun r => { r with tile := false } }) id killed0).launch? g.launch = some l
        ∧ (g.resident = true ∧ g.pending = none ∧ ∃ w ∈ g.members, g.member? 0 = some w
          ∧ mayRestring (demoWith (fun l => { l with restring := true, roles := l.roles.map fun r => { r with tile := false } }) id killed0) l g w
              (w.beads.filter fun b => [(0, 0), (0, 1)].contains (b.home, b.pos)) = true))
    ∧ (∃ g l, (savedGang (beads fun b => { b with wait := some { waitOf .bar with sat := some 1 } })).gang? 0 = some g
        ∧ (savedGang (beads fun b => { b with wait := some { waitOf .bar with sat := some 1 } })).launch? g.launch = some l
        ∧ (g.place = .saved 0 [] true ∧ ∃ w ∈ g.members, ∃ b ∈ w.beads, b.live = true
          ∧ (b.wait.any fun x => parkedMet (savedGang (beads fun b => { b with wait := some { waitOf .bar with sat := some 1 } })) g l x) = true))
    ∧ (∃ l, (demoWith (fun l => { l with deadline := 1000, wrapBudget := 100 }) id id).launch? 0 = some l ∧ (l.map.contains 0 = true ∧ l.deadline ≠ 0
        ∧ l.deadline.toNat - l.wrapBudget.toNat ≤ ((late 900 demo).tower 0).time ∧ l.deadline.toNat ≤ ((late 1000 demo).tower 0).time))
    ∧ ∃ l, (demoWith (mapTowers fun x => { x with divertDue := some (1, 2, 0) }) id id).launch? 0 = some l ∧ ((l.towers.get 0).divertDue = some (1, 2, 0)
        ∧ l.deadline = 0 ∧ 0 + 2000 ≤ ((late 2000 demo).tower 2).time) :=
  ⟨gangOf (by decide +kernel), gangOf (by decide +kernel), someOf (by decide +kernel), someOf (by decide +kernel)⟩

/-! ### Witnesses: rings and replies (R318 to R331, R345) -/

def ringRec (divert : Bool) : RingRec := { blankRec 7 (zeros 128) with awaits := true, code := 0x20, dst := 9, divert }

/-- Both rings of tower 0 configured in the demo's page, with a record held and one waiting at index 2. -/
def ringed (f : Ring → Ring) (s : State) : State :=
  let r : Ring := f { Ring.reset with cfg := some { base := bootVa, rlog := 4, asid := bootAsid }, prod := 3, waiting := [(2, ringRec false)] }
  s.updTower 0 fun tw => { tw with trapq := r, fltq := r }

/-- The block of a reply of a kind to index 2, at bootVa + 0x1000. -/
def replying (kind : Byte) (s : State) : State :=
  let s1 := pinned0 s
  { s1 with hbm := s1.hbm.write (bootPage + 0x1000) ([2, 0, 0, 0, 0, 0, 0, 0] ++ [kind]) }

/-- RESUME, KILL and DIVERT each find their record. -/
theorem wit_replies : ∀ kind ∈ [(1 : Byte), 2, 3], ∃ x, replyBlock (ringed id (replying kind demo)) 0 (bootVa + 0x1000) = some x ∧
    ((x.1.tower 0).trapq.waiting.find? (·.1 == BitVec.ofNat 32 (field x.2 0 4)) = some (2, ringRec false) ∧ recordKilled x.1 0 (ringRec false) = false
      ∧ field x.2 8 1 = kind.toNat) := by
  intro kind h
  simp only [List.mem_cons, List.not_mem_nil, or_false] at h
  obtain rfl | rfl | rfl := h
  · exact someOf (by decide +kernel)
  · exact someOf (by decide +kernel)
  · exact someOf (by decide +kernel)

theorem wit_stops_end : (stopped (Bead.start 0 0 0 0 0 0)).stop = some { trap := 7, own := true, code := 0x20, used := 0, reply := none }
    ∧ (stopped (Bead.start 0 0 0 0 0 0)).divertDue = none ∧ (ringRec false).id = 7 ∧ (ringRec false).code ≠ 0x10 ∧ (ringRec false).dst ≠ 0
    ∧ ((ringed id demo).tower 0).fltq.waiting.find? (·.1 == 2) = some (2, ringRec false)
    ∧ (∃ c, (late 2000000000 demo).ctx? = some c ∧ (c.lead.stop = none ∧ c.lead.park = none ∧ c.lead.wait = none
        ∧ c.lead.lastIssue + (((late 2000000000 demo).tower c.tower).watchdogMs * 1000000) ≤ ((late 2000000000 demo).tower c.tower).time))
    ∧ (idling (Bead.start 0 0 0 0 0 0)).wait = some (waitOf .bar) ∧ (waitOf .bar).kind ≠ .wpop ∧ (waitOf .wpop).dst ≠ 0 := by
  and_intros <;> first | exact onCtx _ (by decide +kernel) | rfl | decide +kernel

/-- A park that RETRY has freed, one that FAIL has, and one whose 0x0A record is not yet written. -/
def parkOf (replay fail : Bool) : Park :=
  { record := 9, trap := 8, pc := bootVa, next := bootVa + 4, va := bootVa, lane := 0, replay, fail, used := 5 }

def parkedOn (p : Park) (b : Bead) : Bead := { b with park := some p }

theorem wit_parks :
    (∃ c, (beads (parkedOn (parkOf true false))).ctx? = some c ∧ c.lead.park = some (parkOf true false))
    ∧ (∃ c, (beads (parkedOn (parkOf false true))).ctx? = some c ∧ c.lead.park = some (parkOf false true))
    ∧ (∃ g, demo.gang? 0 = some g ∧ ((parkOf true false).freed demo g = true ∧ (parkOf false false).freed demo g = false
        ∧ (parkOf true false).freed (ringed (fun r => { r with prod := 19, held := [blankRec 8 (zeros 128)] }) demo) g = false))
    ∧ (∃ c, (beads fun b => { b with wait := some (waitOf .clasp) }).ctx? = some c ∧ (c.lead.wait.any fun w => w.kind == .clasp && w.hits.isEmpty) = true)
    ∧ (∃ c, (beads fun b => { b with wait := some { waitOf .bank with addr := 7 } }).ctx? = some c ∧ (c.lead.wait.any fun w => w.kind == .bank && w.hits.isEmpty) = true)
    ∧ (∃ c, (beads fun b => { b with wait := some { waitOf .confirm with hits := [(bootVa, bootPage, attrOf 0)] } }).ctx? = some c
        ∧ (c.lead.wait.any fun w => !w.hits.isEmpty) = true) :=
  ⟨onCtx _ (by decide +kernel), onCtx _ (by decide +kernel), someOf (by decide +kernel), onCtx _ (by decide +kernel), onCtx _ (by decide +kernel), onCtx _ (by decide +kernel)⟩

/-- A bead at a boundary, one in a unit, one that is stopped; each kind of wait has its number. -/
theorem wit_diversions : let b := Bead.start 0 0 0 0 0 0
    (b.live = true ∧ b.diverted = false ∧ b.divertDue = none ∧ b.stop = none ∧ b.atBoundary = true)
    ∧ ({ b with wait := some (waitOf .confirm) } : Bead).atBoundary = false ∧ (stopped b).stop ≠ none ∧ (parkedOn (parkOf false false) b).park ≠ none
    ∧ (idling b).wait = some (waitOf .bar) := by
  decide

/-- A covered trap's record is written: the launch not killed in the tower; an earlier diversion. A gang that is saved, or saves. -/
theorem wit_strands_out :
    { ringRec false with strand := some true }.strand = some true ∧ { ringRec true with strand := some false }.strand = some false
    ∧ ((demo.launch? 0).any fun l => (l.towers.get 0).killed.isSome) = false
    ∧ (∃ g l, demo.gang? 0 = some g ∧ demo.launch? g.launch = some l ∧ (g.resident = true ∧ g.saving = false))
    ∧ (∃ g l, (demo.updGang 0 fun g => { g with pending := some (.save .park) }).gang? 0 = some g
        ∧ (demo.updGang 0 fun g => { g with pending := some (.save .park) }).launch? g.launch = some l ∧ g.saving = true)
    ∧ (∃ r, ((ringed (fun r => { r with held := [ringRec true] }) demo).tower 0).trapq.held.find? (·.id == 7) = some r ∧ (r.divert = true ∧ r.strand = none)) :=
  ⟨rfl, rfl, by decide +kernel, gangOf (by decide +kernel), gangOf (by decide +kernel), someOf (by decide +kernel)⟩

/-- A ring with room for one record, on pages with PIN and without. -/
theorem wit_records :
    let full (r : Ring) : Ring := { r with held := [ringRec false], prod := 18, cons := 3 }
    ((ringed full (pinned0 demo)).tower 0).trapq.held = [ringRec false] ∧ ((ringed full (pinned0 demo)).tower 0).trapq.blocked = false
    ∧ (((ringed full (pinned0 demo)).tower 0).trapq.prod - ((ringed full (pinned0 demo)).tower 0).trapq.cons).toNat < 2 ^ 4
    ∧ rangeFault (ringed full (pinned0 demo)) bootAsid (bootVa + BitVec.ofNat 64 (128 * (18 % 2 ^ 4))) 128 .write true = none
    ∧ rangeFault (ringed full demo) bootAsid (bootVa + BitVec.ofNat 64 (128 * (18 % 2 ^ 4))) 128 .write true ≠ none
    ∧ rangeFault (ringed full (pinned0 demo)) bootAsid (bootVa + BitVec.ofNat 64 (64 * (18 % 2 ^ 4))) 64 .write true = none
    ∧ rangeFault (ringed full demo) bootAsid (bootVa + BitVec.ofNat 64 (64 * (18 % 2 ^ 4))) 64 .write true ≠ none := by
  decide +kernel

/-! ### Witnesses: queues (R291 to R296) -/

/-- Tail 3, ring of sixteen: 19 is the last tail with room, 20 and 3 + 2^31 - 1 are beyond it, 3 + 2^31 lies behind. -/
theorem wit_wake_writes : let q := queueOf 2 []
    q.judge 3 = .kick ∧ q.judge 19 = .tail 19 ∧ q.judge 20 = .ignored true ∧ q.judge (3 + 0x7FFFFFFF) = .ignored true
      ∧ q.judge (3 + 0x80000000) = .ignored false ∧ (queued q demo).queue? 0 5 = some q ∧ (4 : Word) ≠ q.tail := by
  decide +kernel

/-- A LAUNCH node whose launch has completed. -/
def doneLaunch : Node := { overNode7 with launch := some 9 }

theorem wit_queues :
    (let q := queueOf 2 []; (queued q (late 10000 demo)).queue? 0 5 = some q ∧ q.qstate = 2 ∧ q.mapT + q.eslice * 1000 ≤ ((queued q (late 10000 demo)).tower 0).time)
    ∧ (let q := queueOf 3 []; (queued q demo).queue? 0 5 = some q ∧ q.qstate = 3 ∧ q.latch = false)
    ∧ (let q := queueOf 1 []; (queued q demo).queue? 0 5 = some q ∧ q.qstate = 1 ∧ (∀ x ∈ ((queued q demo).tower 0).queues, x.qstate = 3 → x.slot ≠ q.slot)
      ∧ q.ltail = q.tail ∧ q.heldTail = none ∧ q.pending = false)
    ∧ (let q := queueOf 1 [doneLaunch]; (queued q demo).queue? 0 5 = some q ∧ q.qstate = 1 ∧ (∀ x ∈ ((queued q demo).tower 0).queues, x.qstate = 3 → x.slot ≠ q.slot)
      ∧ (∃ n ∈ q.nodes, n.completed = true) ∧ q.nodes.filter Node.completed = [doneLaunch] ∧ q.nodes.find? (·.ctr == doneLaunch.ctr) = some doneLaunch
      ∧ q.heldRead = none ∧ q.heldWrite = none ∧ nodeRecordWaits (queued q demo) 0 q doneLaunch.ctr = false ∧ doneLaunch.state = .workOver 3 0
      ∧ rangeFault (queued q demo) q.asid (q.recVa doneLaunch.ctr) 32 .write true ≠ none)
    ∧ (let q := queueOf 1 [doneLaunch]; rangeFault (queued q (pinned0 demo)) q.asid (q.recVa doneLaunch.ctr) 32 .write true = none)
    ∧ (let q := { queueOf 3 [] with latch := true }; (queued q demo).queue? 0 5 = some q ∧ q.qstate = 3 ∧ q.latch = true)
    ∧ (let q := { queueOf 2 [overNode7] with heldWrite := some 3 };
        (queued q demo).queue? 0 5 = some q ∧ q.heldRead = none ∧ nodeRecordWaits (queued q demo) 0 q 3 = false ∧ q.nodes.find? (·.ctr == 3) = some overNode7)
    ∧ (let s := queued (queueOf 2 []) (late 100000 demo); (s.tower 0).queues ≠ [] ∧ (s.tower 0).lastPass + 100000 ≤ (s.tower 0).time)
    ∧ (newRunnable (queued { queueOf 0 [] with pending := true, runnable := false } demo) 0).length = 1
    ∧ (queueOf 0 []).qstate = 0 ∧ ((demo.updTower 1 fun tw => { tw with boot := { tw.boot with minimal := true } }).tower 1).boot.minimal = true := by
  decide +kernel

/-! ### Witnesses: power (R303 to R317) -/

/-- Every column of tower 0 drains. -/
def drained0 (s : State) : State := s.updTower 0 fun tw => { tw with cols := tw.cols.map fun co => { co with draining := true } }

def pend (p : Pending) (s : State) : State := s.updGang 0 fun g => { g with pending := some p }

/-- The workgroup's pending layer move. -/
def moving (tier : Four) (other : Option (Nat × Nat)) (s : State) : State :=
  s.updWg 0 0 fun w => { w with move := some { tier, other, since := 0 } }

/-- Two gangs of one workgroup each, on tiers 0 and 1, that exchange places. -/
def exchanging : State :=
  let s := moving 1 (some (1, 0)) demo
  { s with gangs := s.gangs ++ s.gangs.map fun g => { g with id := 1, num := 1, members := g.members.map fun w =>
      { w with tier := 1, move := some { tier := 0, other := some (0, 0), since := 0 } } } }

def moveAt (s : State) (P : Gang → Wg → LayerMove → Prop) [∀ g w m, Decidable (P g w m)] : Bool :=
  (s.gang? 0).any fun g => (g.member? 0).any fun w => w.move.any fun m => decide (P g w m)

theorem moveOf {s : State} {P : Gang → Wg → LayerMove → Prop} [∀ g w m, Decidable (P g w m)] (h : moveAt s P = true) :
    ∃ g w m, s.gang? 0 = some g ∧ g.member? 0 = some w ∧ w.move = some m ∧ P g w m := by
  unfold moveAt at h
  simp only [Option.any_eq_true, decide_eq_true_eq] at h
  obtain ⟨g, hg, w, hw, m, hm, hp⟩ := h
  exact ⟨g, w, m, hg, hw, hm, hp⟩

/-- Every core of tower 0 is gated. -/
def asleep (s : State) : State := s.updTower 0 fun tw => { tw with cols := tw.cols.map fun co => { co with cores := co.cores.map fun c => { c with gated := true } } }

/-- A move that crosses, one that finds no room, one before its migration point, one into a gated core, one in a draining column, and an
exchange. -/
theorem wit_layer_moves :
    (∃ g w m, (moving 1 none demo).gang? 0 = some g ∧ g.member? 0 = some w ∧ w.move = some m ∧ (g.resident = true ∧ g.saving = false
      ∧ (((moving 1 none demo).col g.tower g.col).cores.get m.tier).trip = false
      ∧ w.atMigration = true ∧ coresAwake (moving 1 none demo) g.tower g.col [m.tier, w.tier] = true ∧ m.other = none ∧ (coreUse (moving 1 none demo) g.tower g.col m.tier).fits w.use = true))
    ∧ (∃ g w m, (moving 0 none demo).gang? 0 = some g ∧ g.member? 0 = some w ∧ w.move = some m ∧ (w.atMigration = true
      ∧ coresAwake (moving 0 none demo) g.tower g.col [m.tier, w.tier] = true ∧ m.other = none
      ∧ (coreUse (moving 0 none demo) g.tower g.col m.tier).fits w.use = false))
    ∧ (∃ g w m, (moving 1 none (beads fun b => { b with wait := some (waitOf .confirm) })).gang? 0 = some g ∧ g.member? 0 = some w ∧ w.move = some m
      ∧ (g.resident = true ∧ g.saving = false ∧ w.atMigration = false))
    ∧ (∃ g w m, (moving 1 none (asleep demo)).gang? 0 = some g ∧ g.member? 0 = some w ∧ w.move = some m
      ∧ (w.atMigration = true ∧ coresAwake (moving 1 none (asleep demo)) g.tower g.col [m.tier, w.tier] = false))
    ∧ (∃ g w m, (moving 1 none (drained0 demo)).gang? 0 = some g ∧ g.member? 0 = some w ∧ w.move = some m
      ∧ (((moving 1 none (drained0 demo)).col g.tower g.col).draining = true ∧ w.atMigration = true
        ∧ coresAwake (moving 1 none (drained0 demo)) g.tower g.col [m.tier, w.tier] = true ∧ (coreUse (moving 1 none (drained0 demo)) g.tower g.col m.tier).fits w.use = true))
    ∧ (∃ g w m, exchanging.gang? 0 = some g ∧ g.member? 0 = some w ∧ w.move = some m ∧ (w.atMigration = true ∧ coresAwake exchanging g.tower g.col [m.tier, w.tier] = true
      ∧ (m.other.any fun o => (partnerReady exchanging g 0 o).any fun x => x.2.1.atMigration) = true)) := by
  and_intros <;> exact moveOf (by decide +kernel)

theorem wit_power :
    ((late 10000 demo).tower 0).lastEval + 10000 ≤ ((late 10000 demo).tower 0).time ∧ ((late 9999 demo).tower 0).time < ((late 9999 demo).tower 0).lastEval + 10000
    ∧ (∃ g l, (pend (.column 1 0 [(0, 0)] 0) demo).gang? 0 = some g ∧ (pend (.column 1 0 [(0, 0)] 0) demo).launch? g.launch = some l
        ∧ (g.mayLeave = true ∧ ((pend (.column 1 0 [(0, 0)] 0) (late 20000 demo)).tower g.tower).time ≤ 0 + 20000
          ∧ ((pend (.column 1 0 [(0, 0)] 0) demo).col g.tower 1).draining = false ∧ coresAwake (pend (.column 1 0 [(0, 0)] 0) demo) g.tower 1 [0] = true
          ∧ (applyGang (pend (.column 1 0 [(0, 0)] 0) demo) 0).reds.any (·.gang == 0) = false
          ∧ ((applyGang (pend (.column 1 0 [(0, 0)] 0) demo) 0).gang? 0).isSome = true))
    ∧ ((drained0 demo).col 0 1).draining = true ∧ coresAwake (asleep demo) 0 1 [0] = false ∧ [(0 : Four)].Nodup ∧ 1 < (demo.tower 0).cols.length
    ∧ (((asleep demo).col 0 1).cores.get 0).gated = true ∧ (((asleep demo).col 0 1).cores.get 0).waking = none
    ∧ ((late 1000000 demo).tower 0).lastValve + 1000000 ≤ ((late 1000000 demo).tower 0).time
    ∧ (({ setpt := 0, gain := 0, base := 0, min := 255 } : ValveLaw).min ≤ 255)
    ∧ ((demo.tower 0).hbmStacks.get 3).wanted 2000 0 ≠ ((demo.tower 0).hbmStacks.get 3).state
    ∧ ((demo.col 0 1).cores.get 3).gated = false ∧ (∀ x ∈ coreWgs demo 0 1 3, x.2.heldStrands = []) ∧ ((demo.col 0 1).cores.get 3).emptySince + 50000 ≤ ((late 50000 demo).tower 0).time
    ∧ (demo.col 0 1).gated = false ∧ residents demo 0 1 = [] ∧ columnExpects demo 0 1 = false ∧ (demo.col 0 1).emptySince + 50000 ≤ ((late 50000 demo).tower 0).time
    ∧ ((evictAll demo 0 1 fun _ => true).col 0 1).acc = []
    ∧ (let s := late 2000 (setCore demo 0 1 3 fun c => { c with gated := true, waking := some 0 })
       ((s.col 0 1).cores.get 3).waking = some 0 ∧ ((s.col 0 1).cores.get 3).trip = false ∧ 0 + 2000 ≤ (s.tower 0).time) := by
  and_intros <;> first | exact gangOf (by decide +kernel) | decide +kernel

/-- Where the two limits of a sensor meet: 3 below 10, at 7 and just under it (R305). -/
theorem wit_crossed : 10 * 16 ≤ 160 ∧ 111 < (10 - 3) * 16 ∧ (10 - 3) * 16 ≤ 112 ∧ 159 < 10 * 16 := by decide

/-! ### Witnesses: reserved formats, pairs, exits, gatherings (R194, R198, R42, R182) -/

theorem wit_reserved_format : Met (.sfmt 2) (fun c _ => fmtReserved ((c.lead.sget 2).setWidth 12) = true) := met (beads (·.sset 2 12)) (by decide +kernel)

theorem wit_pairs : (∃ c, (beads calm).ctx? = some c ∧ c.pfx = [] ∧ c.lead.xfer = false) ∧ (9 : Reg).toNat % 2 = 1
    ∧ (Instr.sadd 9 2 3 0).wellFormed = true ∧ encode (.sadd 9 2 3 0) ≠ none :=
  ⟨onCtx _ (by decide +kernel), by decide⟩

/-- Every lane exits with no entry left, with one whose lanes stay, and with one whose lanes exit too. -/
theorem wit_exits : let b := Bead.start 0 0 0 0 0 0
    let idle (b : Bead) : Prop := (b.active &&& ~~~(0xF : Mask)) = 0 ∧ b.stack ≠ []
    ¬idle b ∧ idle (deep 1 b) ∧ entry0.phase = false ∧ entry0.maskNt = 0 ∧ { entry0 with maskNt := 3 }.maskNt ≠ 0 := by
  decide

/-- Two beads at a CLASP, the second at the lower PC; one of them still running. -/
theorem wit_gatherings :
    let at_ (p : Nat) : Bead := { Bead.start 0 p 0 0 0 0 with wait := some (waitOf .clasp), pc := if p = 0 then 8 else 4 }
    let w : Wg := { group0 with beads := [at_ 0, at_ 1], nextGrp := 1 }
    ((at_ 0).live = true ∧ (at_ 0).home = 0 ∧ (at_ 0).pos < 8 ∧ (∀ b ∈ w.beads, (at_ 0).pos ≤ b.pos ∧ (b.pos = (at_ 0).pos → b = at_ 0))
      ∧ (∀ b ∈ w.beads, b.wait = some (waitOf .clasp)) ∧ (waitOf .clasp).kind = .clasp ∧ (∀ b ∈ w.beads, (at_ 1).pc.toNat ≤ b.pc.toNat ∧ b.grp < w.nextGrp))
    ∧ (∃ b ∈ group0.beads, b.home = 0 ∧ b.live = true ∧ b.wait = none) := by
  decide

/-! ### Witnesses: exact values and conversions (R80, R206 to R212) -/

/-- 2 and its kin, the largest and least magnitudes, zeros, infinities and a NaN. -/
theorem wit_exact_values :
    (fmt32.val (0x40000000 : Word).toNat).num = some 2 ∧ (fmt32.val (0xC1800000 : Word).toNat).num = some (-16) ∧ (fmt32.val (0x43000000 : Word).toNat).num = some 128
    ∧ (fmt32.val (0 : Word).toNat).num = some 0 ∧ fmt32.val (0x7FC00001 : Word).toNat = .nan ∧ fmt32.val (0xFF800000 : Word).toNat = .inf true
    ∧ (fmt32.val (0x41800000 : Word).toNat).num = some 16 ∧ (2 : Rat) ^ (128 : Int) ≤ 1 / (2 : Rat) ^ (-149 : Int) ∧ (fmt32.val (1 : Word).toNat).num = some ((2 : Rat) ^ (-149 : Int)) := by
  decide +kernel

/-- A group that the format misaligns, the last it aligns, and a codebook without a tile set. -/
theorem wit_conversion_traps :
    (∃ c, Issues (.vcvt 8 9 0 0 29) c (beads fun b => { calm b with fmt := 1 }) ∧ (9 : Reg).toNat % elemsOf c.lead.fmt ≠ 0 ∧ (8 : Reg).toNat % elemsOf c.lead.fmt = 0)
    ∧ (∃ c, Issues (.vcvt 8 8 0 0 16) c (demoWith id (fun w => { w with tile := none }) calm) ∧ c.wg.tile = none)
    ∧ (32 : Nat) * [Val.nan].length ≤ 32 ∧ (60 : Reg).toNat + [(0 : Word), 0, 0, 0].length ≤ 64 := by
  have h : ∀ {i s} {P : Ctx → Prop} [∀ c, Decidable (P c)], (s.ctx?.any fun c => decide ((unitTrap i c = none ∧ c.withheld i = false) ∧ P c)) = true →
      ∃ c, Issues i c s ∧ P c := fun h => by
    obtain ⟨c, hc, hi, hp⟩ := onCtx _ h
    exact ⟨c, ⟨hc, hi.1, hi.2⟩, hp⟩
  exact ⟨h (by decide +kernel), h (by decide +kernel), by decide⟩

/-! ### Witnesses: scratch words that do not pass (R160, R217, R222) -/

/-- Sixty-three operations outstanding. -/
def fullCount (b : Bead) : Bead := { aimed b with lops := List.replicate 63 openOp, sops := List.replicate 63 openOp }

theorem wit_scratch_stops :
    Met (.vlds 8 3 0 1 0 2) (fun c _ => c.scratchAccs 1 3 0 = [])
    ∧ Met (.vlds 8 3 0 0 0 2) (fun c _ => ∃ x ∈ c.scratchAccs 0 3 0, 63 ≤ countOf x.b.lops)
    ∧ Met (.vlds 8 3 0 0 0 2) (fun c s => (c.scratchAccs 0 3 0 ≠ [] ∧ (∀ x ∈ c.scratchAccs 0 3 0, countOf x.b.lops < 63))
        ∧ c.accTrap s false 4 (some .load) (c.scratchAccs 0 3 0) = some { code := 0x06, va := 2, lane := 0 })
    ∧ Met (.vsts 8 3 0 0 2) (fun c _ => ∃ x ∈ c.scratchAccs 0 3 0, 63 ≤ countOf x.b.sops)
    ∧ Met (.vsts 8 3 0 1 2) (fun c _ => c.scratchAccs 1 3 0 = [])
    ∧ Met (.vsts 8 3 0 0 2) (fun c s => (c.scratchAccs 0 3 0 ≠ [] ∧ (∀ x ∈ c.scratchAccs 0 3 0, countOf x.b.sops < 63))
        ∧ c.accTrap s false 4 (some .store) (c.scratchAccs 0 3 0) = some { code := 0x07, va := 4096, lane := 0 }) := by
  and_intros
  · exact met (beads fun b => { aimed b with lanes := Quad.fill { v := Vector.replicate 64 0, p := 1 } }) (by decide +kernel)
  · exact met (beads fullCount) (by decide +kernel)
  · exact met (beads fun b => (aimed b).sset 3 2) (by decide +kernel)
  · exact met (beads fullCount) (by decide +kernel)
  · exact met (beads fun b => { aimed b with lanes := Quad.fill { v := Vector.replicate 64 0, p := 1 } }) (by decide +kernel)
  · exact met (beads fun b => (aimed b).sset 3 4096) (by decide +kernel)

/-- VLDS.DQ: a full count, a misaligned group of bf16, c4 without a tile set, no lane, a word that is not aligned. -/
theorem wit_dequantising_stops :
    Met (.vldsDq 8 3 0 0) (fun c _ => ∃ x ∈ c.scratchAccs 0 3 0, 63 ≤ countOf x.b.lops)
    ∧ Met (.vldsDq 9 3 0 0) (fun c _ => (∀ x ∈ c.scratchAccs 0 3 0, countOf x.b.lops < 63) ∧ ¬((9 : Reg).toNat % elemsOf c.lead.fmt = 0))
    ∧ Met (.vldsDq 8 3 0 0) (fun c _ => (∀ x ∈ c.scratchAccs 0 3 0, countOf x.b.lops < 63) ∧ (8 : Reg).toNat % elemsOf c.lead.fmt = 0
        ∧ fmtElem c.lead.fmt = .c4 ∧ c.wg.tile = none)
    ∧ Met (.vldsDq 8 3 0 1) (fun c _ => c.scratchAccs 1 3 0 = [] ∧ (8 : Reg).toNat % elemsOf c.lead.fmt = 0 ∧ fmtElem c.lead.fmt ≠ .c4)
    ∧ Met (.vldsDq 8 3 0 0) (fun c s => c.scratchAccs 0 3 0 ≠ [] ∧ dqTrap c s ((c.scratchAccs 0 3 0).map (dqLane c.lead.fmt 3))
        = some { code := 0x06, va := 2, lane := 0 }) := by
  and_intros
  · exact met (beads fullCount) (by decide +kernel)
  · exact met (beads fun b => { aimed b with fmt := 1 }) (by decide +kernel)
  · exact met (demoWith id (fun w => { w with tile := none }) fun b => { aimed b with fmt := 6 }) (by decide +kernel)
  · exact met (beads fun b => { aimed b with lanes := Quad.fill { v := Vector.replicate 64 0, p := 1 } }) (by decide +kernel)
  · exact met (beads fun b => (aimed b).sset 3 2) (by decide +kernel)

/-! ### Witnesses: launches, saves, ends (R57, R297, R335, R343, R351) -/

/-- A gang that holds an eviction save and is in its wrap-up; a diversion of tower 2 that fell 2 µs ago beside the divert instant. -/
theorem wit_wrapping :
    (∃ g l, (demoWith id id fun b => { b with diverted := true }).gang? 0 = some g
      ∧ (demoWith id id fun b => { b with diverted := true }).launch? g.launch = some l ∧ g.inWrap = true)
    ∧ (∃ l, (demoWith (fun l => { mapTowers (fun x => { x with divertDue := some (1, 2, 0) }) l with deadline := 3000, wrapBudget := 100 }) id id).launch? 0 = some l
      ∧ (l.deadline ≠ 0 ∧ (l.towers.get 0).divertDue = some (1, 2, 0) ∧ 0 + 2000 ≤ ((late 2900 demo).tower 2).time
        ∧ l.deadline.toNat - l.wrapBudget.toNat ≤ ((late 2900 demo).tower 0).time ∧ ((late 2900 demo).tower 0).time < l.deadline.toNat))
    ∧ (∃ l, demo.launch? 0 = some l ∧ (l.finished = none ∧ (l.towers.get 0).killed = none ∧ (l.towers.get 0).diverted = false ∧ l.deadline = 0
      ∧ ∀ g ∈ demo.gangs, g.id ≠ demo.nextId))
    ∧ (∃ l, (demoWith (mapTowers fun x => { x with killed := some .deadline, diverted := true }) id id).launch? 0 = some l
      ∧ ((l.towers.get 0).killed ≠ none ∧ (l.towers.get 0).diverted = true))
    ∧ (queueOf 2 []).slot = some 31 ∧ 31 < ((queued (queueOf 2 []) demo).tower 0).phases.length := by
  and_intros <;> first | exact gangOf (by decide +kernel) | exact someOf (by decide +kernel) | decide +kernel

/-- What a save keeps and a restore finds; a gang that leaves no record waiting. -/
theorem wit_saves :
    (∃ g l, demo.gang? 0 = some g ∧ demo.launch? g.launch = some l ∧ (g.place = .resident g.col 0 ∧ g.resident = true ∧ g.saving = false
      ∧ g.col < (demo.tower g.tower).cols.length ∧ ((demo.tower g.tower).fltq.anyWaits fun r => r.gang == g.id && r.code == 5) = false ∧ g.defers = []))
    ∧ (∃ g l, (savedGang demo).gang? 0 = some g ∧ (savedGang demo).launch? g.launch = some l ∧ g.place = .saved 0 [] true)
    ∧ (∃ l, (demoWith (mapTowers fun x => { x with todo := [] }) id exiting).launch? 0 = some l ∧ l.spent (demoWith (mapTowers fun x => { x with todo := [] }) id exiting) = false)
    ∧ (∃ l, ({ demoWith (mapTowers fun x => { x with todo := [] }) id id with gangs := [] } : State).launch? 0 = some l
      ∧ l.spent { demoWith (mapTowers fun x => { x with todo := [] }) id id with gangs := [] } = true)
    ∧ (let b := Bead.start 0 0 0 0 0 0; b.atBoundary = true ∧ ({ b with wait := some (waitOf .issue) } : Bead).wait.any (·.kind == .issue) = true
      ∧ ({ b with wait := some (waitOf .confirm) } : Bead).atBoundary = false) := by
  and_intros <;> first | exact gangOf (by decide +kernel) | exact someOf (by decide +kernel) | decide +kernel

/-- Groups that wait for a word, met and not, at GBAR, and for a work queue. -/
theorem wit_rechecks : ∀ k ∈ [WaitKind.bar, .barw, .sigw, .gbar, .wpop, .cwait], ∃ c, (beads fun b => { b with wait := some (waitOf k) }).ctx? = some c
    ∧ (c.lead.stop = none ∧ c.lead.park = none ∧ c.lead.wait = some (waitOf k)) := by
  simp only [List.forall_mem_cons]
  and_intros <;> first | exact onCtx _ (by decide +kernel) | simp

/-! ### Witnesses: kicks, unmaps, moves that end, cores, ports (R280, R292, R312, R316, R367) -/

theorem wit_kicks :
    (let q := queueOf 2 [overNode7];
      (queued { q with heldWrite := some 3 } demo).queue? 0 5 = some { q with heldWrite := some 3 } ∧ nodeRecordWaits (queued { q with heldWrite := some 3 } demo) 0 { q with heldWrite := some 3 } 3 = false
      ∧ (((queued { q with kicked := true } demo).tower 0).queues.filter fun q => q.kicked && q.qstate == 2 && !heldRecordWaits (queued { q with kicked := true } demo) 0 q)
        = [{ q with kicked := true }])
    ∧ (let q := queueOf 3 [overNode7]; (queued q demo).queue? 0 5 = some q ∧ q.qstate = 3 ∧ q.heldRead = none ∧ ∃ n ∈ q.nodes, n.state = .workOver 3 0)
    ∧ (let q := queueOf 3 [theNode 5]; (queued q demo).queue? 0 5 = some q ∧ ∀ n ∈ q.nodes, n.state = .running) := by
  decide +kernel

theorem wit_moves_end :
    (∃ g l, (pend (.column 1 0 [(0, 0)] 0) (late 20000 demo)).gang? 0 = some g ∧ (pend (.column 1 0 [(0, 0)] 0) (late 20000 demo)).launch? g.launch = some l
      ∧ (g.pending = some (.column 1 0 [(0, 0)] 0) ∧ 0 + 20000 ≤ ((pend (.column 1 0 [(0, 0)] 0) (late 20000 demo)).tower g.tower).time))
    ∧ ((demo.updCol 0 1 fun co => { co with halved := true }).col 0 1).halved = true
    ∧ ((demo.tower 0).ports.get 3).state ≠ 2
    ∧ (let p : Port := { state := 2, retries := 0, peersw := 0, flits := 999999, errs := 1, since := 0 };
        p.flits < p.errs * 1000000 ∧ ¬({ p with flits := 1000000 }.flits < p.errs * 1000000) ∧ p.since + 1000000000 ≤ ((late 1000000000 demo).tower 0).time) := by
  and_intros <;> first | exact gangOf (by decide +kernel) | decide +kernel

/-! ### Witnesses: the admin queue's commands (R357 to R371) -/

/-- Tower 0 leads, READY, the command at the head of its admin queue. -/
def commanded (op : Nat) (operands : List Byte) (s : State) : State :=
  ({ s with hbm := s.hbm.write 0x50000 (leBytes 2 op ++ zeros 6 ++ operands) }).updTower 0 fun tw =>
    { tw with boot := { tw.boot with state := 4, leader := true }, admq := { base := 0x50000, head := 0, tail := 1 } }

def commands (op : Nat) (s : State) (P : List Byte → Prop) [DecidablePred P] : Bool :=
  (admCommand s 0).any fun c => field c 0 2 == op && operandsClean op c && (!leaderOp op || leaderLive s) && decide (P c)

theorem commandAt {op : Nat} {P : List Byte → Prop} [DecidablePred P] (s : State) (h : commands op s P = true) : ∃ c, CommandAt op 0 s c ∧ P c := by
  unfold commands at h
  cases hc : admCommand s 0 with
  | none => simp [hc] at h
  | some c =>
    simp only [hc, Option.any_some, Bool.and_eq_true, Bool.or_eq_true, Bool.not_eq_true', beq_iff_eq, decide_eq_true_eq] at h
    refine ⟨c, ⟨hc, h.1.1.1, h.1.1.2, ?_⟩, h.2⟩
    intro hl
    cases h.1.2 with
    | inl h => simp [hl] at h
    | inr h => exact h

def cmdSpace : State := commanded 1 (leBytes 2 7 ++ zeros 6 ++ leBytes 8 0x60000) demo
def cmdNoSpace : State := commanded 2 (leBytes 2 7) demo

/-- A QCB of software at bootVa + 0x1000: ring at bootVa + 0x2000, sixteen nodes. -/
def cmdQueue : State :=
  let s1 := pinned0 demo;
  commanded 3 (leBytes 2 9 ++ leBytes 2 0xFFFF ++ zeros 4 ++ leBytes 8 (bootVa.toNat + 0x1000))
    { s1 with hbm := s1.hbm.write (bootPage + 0x1000) (leBytes 8 (bootVa.toNat + 0x2000) ++ [4, 1, 0, 0] ++ leBytes 4 1000) }

/-- A space with a line of a gang that is gone, which cannot go home, and one whose line's record waits. -/
def lastLine : AccLine := { asid := 7, va := bootVa, op := .addI32, words := Vector.replicate 32 0, touched := 1, gang := 9, w := 0, payer := none, faulted := true }

def withLine : State := commanded 2 (leBytes 2 7) (demo.updCol 3 39 fun co => { co with acc := [lastLine] })

def fullFault (s : State) : State :=
  s.updTower 3 fun tw => { tw with fltq := { Ring.reset with cfg := some { base := bootVa, rlog := 4, asid := bootAsid }, prod := 16 } }

theorem wit_space_lines :
    (∃ c, CommandAt 0x02 0 withLine c ∧ (field c 8 2 = 7 ∧ spaceUsed withLine 7 = false
      ∧ ((dropSpan withLine (inSpan 7 0 none)).col 3 39).acc = [lastLine]
      ∧ ((discardLine 3 39 (dropSpan withLine (inSpan 7 0 none)) lastLine).col 3 39).acc = []
      ∧ discardWaits (discardLine 3 39 (dropSpan withLine (inSpan 7 0 none)) lastLine) 7 = false))
    ∧ discardWaits (discardLine 3 39 (dropSpan (fullFault withLine) (inSpan 7 0 none)) lastLine) 7 = true
    ∧ (∃ c, CommandAt 0x02 0 cmdNoSpace c ∧ (spaceUsed cmdNoSpace (BitVec.ofNat 16 (field c 8 2)) = false ∧ discardWaits (dropSpan cmdNoSpace (inSpan 7 0 none)) 7 = false))
    ∧ 39 < (withLine.tower 3).cols.length := by
  and_intros <;> first | exact commandAt _ (by decide +kernel) | decide +kernel

theorem wit_spaces_and_queues :
    (∃ c, CommandAt 0x01 0 cmdSpace c ∧ (field c 8 2 ≠ 0 ∧ physOk (field c 0x10 8) 65536 65536 = true ∧ (∀ x ∈ cmdSpace.spaces, x.1 ≠ BitVec.ofNat 16 (field c 8 2))))
    ∧ (∃ c, CommandAt 0x02 0 cmdNoSpace c ∧ (spaceUsed cmdNoSpace (BitVec.ofNat 16 (field c 8 2)) = false))
    ∧ ((List.range 4).all fun t => (List.range 40).all fun k => ((dropSpan cmdNoSpace (inSpan 7 0 none)).col (Four.ofNat t) k).acc.all (·.asid != 7)) = true
    ∧ (∃ c, CommandAt 0x03 0 cmdQueue c ∧ ((cmdQueue.tower 0).boot.minimal = false ∧ field c 8 2 = 9 ∧ field c 0xA 2 = 0xFFFF ∧ field c 0x10 8 = 0x101000
        ∧ cmdQueue.queue? 0 9 = none))
    ∧ (let r := sysRead cmdQueue 0xFFFF 0x101000 16;
        rangeFault cmdQueue 0xFFFF 0x101000 256 .read true = none ∧ qcbOk r.2 = true
          ∧ rangeFault cmdQueue 0xFFFF (BitVec.ofNat 64 (field r.2 0 8)) (128 * 2 ^ field r.2 8 1) .read true = none)
    ∧ (let s := commanded 4 (leBytes 2 5) (queued (queueOf 0 []) State.reset);
        ∃ c, CommandAt 0x04 0 s c ∧ (field c 8 2 = 5 ∧ s.queue? 0 5 = some (queueOf 0 []) ∧ s.launches = []))
    ∧ (queueOf 0 []).accepted = (queueOf 0 []).head := by
  and_intros <;> first | exact commandAt _ (by decide +kernel) | decide +kernel

def cmdRing (which : Byte) : State := commanded 6 ([which, 4] ++ leBytes 2 0xFFFF ++ zeros 4 ++ leBytes 8 bootVa.toNat) (pinned0 demo)

theorem wit_bindings_and_rings :
    (let s := commanded 5 ([15, 0] ++ leBytes 2 3) demo; ∃ c, CommandAt 0x05 0 s c ∧ (field c 8 1 ≤ 15 ∧ ((s.tower 0).wq (field c 8 1)).recs = []))
    ∧ (∃ c, CommandAt 0x06 0 (cmdRing 0) c ∧ (field c 8 1 = 0 ∧ field c 9 1 = 4 ∧ (BitVec.ofNat 64 (field c 0x10 8)).toNat % 128 = 0
        ∧ rangeFault (cmdRing 0) (BitVec.ofNat 16 (field c 0xA 2)) (BitVec.ofNat 64 (field c 0x10 8)) (128 * 2 ^ 4) .read true = none
        ∧ ((cmdRing 0).tower 0).trapq.prod = ((cmdRing 0).tower 0).trapq.cons))
    ∧ (∃ c, CommandAt 0x06 0 (cmdRing 1) c ∧ (field c 8 1 = 1 ∧ field c 9 1 = 4 ∧ (BitVec.ofNat 64 (field c 0x10 8)).toNat % 64 = 0
        ∧ rangeFault (cmdRing 1) (BitVec.ofNat 16 (field c 0xA 2)) (BitVec.ofNat 64 (field c 0x10 8)) (64 * 2 ^ 4) .read true = none
        ∧ ((cmdRing 1).tower 0).fltq.prod = ((cmdRing 1).tower 0).fltq.cons))
    ∧ (let s := commanded 7 (leBytes 2 7 ++ zeros 6 ++ leBytes 8 0x10000 ++ leBytes 8 0x10000) demo;
        ∃ c, CommandAt 0x07 0 s c ∧ (field c 0x10 8 = 0x10000 ∧ field c 0x18 8 = 0x10000 ∧ spanBusy s 7 (inSpan 7 0x10000 (some 0x20000)) = false))
    ∧ (let s := commanded 7 (leBytes 2 7) demo; ∃ c, CommandAt 0x07 0 s c ∧ (field c 0x18 8 = 0 ∧ spanBusy s 7 (inSpan 7 0 none) = false)) := by
  and_intros <;> exact commandAt _ (by decide +kernel)

/-- The settings at the ends of their ranges. -/
theorem wit_settings :
    (let s := commanded 8 [39, 10] demo; ∃ c, CommandAt 0x08 0 s c ∧ (field c 8 1 = 39 ∧ field c 9 1 = 10 ∧ columnFree s 0 39 = true))
    ∧ (let s := commanded 9 [32] demo; ∃ c, CommandAt 0x09 0 s c ∧ (field c 8 1 = 32 ∧ ∀ q ∈ (s.tower 0).queues, q.qstate = 0))
    ∧ (let s := commanded 9 [8] demo; ∃ c, CommandAt 0x09 0 s c ∧ (field c 8 1 = 8 ∧ ∀ q ∈ (s.tower 0).queues, q.qstate = 0))
    ∧ (∃ c, CommandAt 0x0A 0 (commanded 10 (leBytes 4 60000) demo) c ∧ field c 8 4 = 60000)
    ∧ (∃ c, CommandAt 0x0A 0 (commanded 10 (leBytes 4 1) demo) c ∧ field c 8 4 = 1)
    ∧ (∃ c, CommandAt 0x0B 0 (commanded 11 [4] demo) c ∧ field c 8 1 ≤ 4)
    ∧ (∃ c, CommandAt 0x0B 0 (commanded 11 [0xFF, 0, 1, 2, 3, 4, 5] demo) c ∧ field c 8 1 = 0xFF)
    ∧ (∃ c, CommandAt 0x0C 0 (commanded 12 ([3, 1, 3, 3] ++ leBytes 2 1200 ++ leBytes 2 1199 ++ [100]) demo) c
        ∧ (field c 8 1 ≤ 3 ∧ field c 9 1 ≤ 1 ∧ field c 0xA 1 ≤ 3 ∧ field c 0xB 1 ≤ 3 ∧ field c 0xE 2 < field c 0xC 2 ∧ field c 0x10 1 ≤ 100))
    ∧ (∃ c, CommandAt 0x0D 0 (commanded 13 [0, 40, 0] demo) c ∧ (1 ≤ field c 9 1 ∧ field c 8 1 + field c 9 1 ≤ 40 ∧ field c 0xA 1 = 0))
    ∧ (∃ c, CommandAt 0x0D 0 (commanded 13 [39, 1, 1] demo) c ∧ (1 ≤ field c 9 1 ∧ field c 8 1 + field c 9 1 ≤ 40 ∧ field c 0xA 1 = 1)) := by
  and_intros <;> exact commandAt _ (by decide +kernel)

/-- Every column drains. -/
def drained (s : State) : State := s.updTower 0 fun tw => { tw with cols := tw.cols.map fun co => { co with draining := true } }

def onAdm (s : State) : State := s.updTower 0 fun tw => { tw with admSince := some 0 }

theorem wit_tests_and_maintenance :
    (let s := commanded 14 [0, 39] (drained demo); ∃ c, CommandAt 0x0E 0 s c ∧ (field c 8 1 = 0 ∧ field c 9 1 = 39 ∧ testable s 0 [39] = true))
    ∧ (∃ c, CommandAt 0x0E 0 (commanded 14 [1, 15] demo) c ∧ (field c 8 1 = 1 ∧ field c 9 1 < 16))
    ∧ (∃ c, CommandAt 0x0E 0 (commanded 14 [2, 3] demo) c ∧ (field c 8 1 = 2 ∧ field c 9 1 < 4))
    ∧ (∃ c, CommandAt 0x0E 0 (commanded 14 [3, 127] demo) c ∧ (field c 8 1 = 3 ∧ field c 9 1 < 128))
    ∧ (let s := commanded 15 ([4] ++ zeros 7 ++ leBytes 8 0x80000) (drained demo);
        ∃ c, CommandAt 0x0F 0 s c ∧ (field c 8 1 = 4 ∧ physOk (field c 0x10 8) (64 + 8 * 65536) 64 = true ∧ testable s 0 [32, 33, 34, 35, 36, 37, 38, 39] = true))
    ∧ (let s := commanded 16 [1] State.reset;
        ∃ c, CommandAt 0x10 0 s c ∧ (field c 8 1 ≤ 1 ∧ (s.tower 0).boot.minimal = false ∧ ∀ g ∈ s.gangs, g.tower ≠ 0))
    ∧ (let s := onAdm (late 100000000 (commanded 15 [4] demo));
        ∃ c, admCommand s 0 = some c ∧ (field c 0 2 = 0x0F ∧ (s.tower 0).admSince = some 0 ∧ 0 + 100000000 ≤ (s.tower 0).time
          ∧ testable s 0 [32, 33, 34, 35, 36, 37, 38, 39] = false)) := by
  and_intros <;> first | exact commandAt _ (by decide +kernel) | exact someOf (by decide +kernel)

/-- A patch with an empty body at 0x60000. -/
def cmdPatch : State :=
  let s1 := commanded 20 (zeros 8 ++ leBytes 8 0x60000 ++ leBytes 4 448) demo;
  { s1 with hbm := s1.hbm.write 0x60000 (leBytes 4 0x50483031 ++ leBytes 4 1) }

def aWindow : Window := { num := 3, asid := bootAsid, va := bootVa, len := 0x2000, write := true, anyPeer := false, peer := 9 }

/-- A connection that fails with a spare on its boundary, and one with none (R370). -/
theorem wit_connections : let x : ConnFail := { col := 39, boundary := 0, conn := 2047 }
    (((demo.tower 0).col x.col.toNat).conns.get (Four.ofNat x.boundary.toNat) ≠ 0)
    ∧ ((({ demo.tower 0 with cols := updAt (demo.tower 0).cols 39 fun co => { co with conns := co.conns.upd 0 fun _ => 0 } } : Tower).col x.col.toNat).conns.get
        (Four.ofNat x.boundary.toNat) = 0) := by
  decide +kernel

theorem wit_restart_clears : ∃ c, CommandAt 0x16 0 (commanded 22 [1] demo) c ∧ field c 8 1 = 1 := commandAt _ (by decide +kernel)

theorem wit_leader_commands :
    (∃ c, CommandAt 0x11 0 (commanded 17 (leBytes 2 1023 ++ leBytes 2 0xFFFF) demo) c ∧ field c 8 2 ≤ 1023)
    ∧ (let s := commanded 18 ([3, 3] ++ leBytes 2 0xFFFF ++ leBytes 2 9 ++ zeros 2 ++ leBytes 8 0x1000 ++ leBytes 8 0x2000) demo;
        ∃ c, CommandAt 0x12 0 s c ∧ (field c 9 1 ≤ 3 ∧ field c 0xA 2 = 0xFFFF ∧ field c 0xC 2 ≤ 1023 ∧ field c 0x10 8 % 4096 = 0
          ∧ field c 0x18 8 = 0x2000 ∧ s.windows = []))
    ∧ (let s := commanded 19 [3] { demo with windows := [aWindow] }; ∃ c, CommandAt 0x13 0 s c ∧ ∃ w ∈ s.windows, w.num = field c 8 1)
    ∧ (∃ c, CommandAt 0x14 0 cmdPatch c ∧ (field c 0x10 8 = 0x60000 ∧ field c 0x18 4 = 448))
    ∧ (let h := physRead cmdPatch 0x60000 64;
        physOk 0x60000 64 64 = true ∧ 448 = 64 + field h 8 4 + 384 ∧ physOk 0x60000 448 64 = true ∧ field h 8 4 % 4 = 0 ∧ field h 0 4 = 0x50483031
          ∧ zeroAt h 0xC 4 = true ∧ zeroAt h 0x30 16 = true)
    ∧ (∃ c, CommandAt 0x15 0 (commanded 21 (zeros 8 ++ leBytes 8 0x60000) demo) c ∧ physOk (field c 0x10 8) 1024 64 = true)
    ∧ (∃ c, CommandAt 0x16 0 (commanded 22 [0] demo) c ∧ field c 8 1 = 0) := by
  and_intros <;> first | exact commandAt _ (by decide +kernel) | decide +kernel

/-- 256 published and none executed: no more room; the queue empty: room for 256. -/
theorem wit_admin_tail :
    (let q : CmdQueue := { base := 0, head := 0, tail := 256 }; ((256 : Word) - q.tail).toNat ≤ 256 - (q.tail - q.head).toNat ∧ 256 - (q.tail - q.head).toNat < ((257 : Word) - q.tail).toNat)
    ∧ (let q : CmdQueue := { base := 0, head := 9, tail := 9 }; ((265 : Word) - q.tail).toNat ≤ 256 - (q.tail - q.head).toNat ∧ 256 - (q.tail - q.head).toNat < ((266 : Word) - q.tail).toNat) := by
  decide

/-! ### Witnesses: links, the host, the lease (R103, R355, R360, R368, R374) -/

/-- A read of 16 bytes from peer 9 to bootVa, its word at bootVa + 0x1000. -/
def aTransfer (dir : Byte) : List Byte :=
  leBytes 2 0xFFFF ++ [dir, 0] ++ leBytes 2 9 ++ [3, 0] ++ leBytes 8 bootVa.toNat ++ leBytes 8 0 ++ leBytes 8 16 ++ leBytes 8 (bootVa.toNat + 0x1000) ++ zeros 24

def xferOf (started : Bool) (status : Option Byte) : LinkXfer := { ctr := 5, bytes := aTransfer 1, started, status, answered := false }

def linked (x : LinkXfer) (s : State) : State := s.updTower 0 fun tw => { tw with
  links := [x], linkq := { base := 0x50000, head := 5, tail := 6 }, boot := { tw.boot with state := 4 } }

theorem wit_links :
    linksRun (linked (xferOf true none) demo) 0 = true ∧ linksRun (linked (xferOf false none) demo) 0 = true
    ∧ linksRun (linked (xferOf true none) (pinned0 demo)) 0 = true ∧ linksRun demo 0 = false
    ∧ ((linked (xferOf true none) demo).tower 0).linkq.judge 7 = some 7 ∧ ((linked (xferOf true none) demo).tower 0).linkq.judge 261 = some 261
    ∧ ((linked (xferOf true none) demo).tower 0).linkq.baseOk 0 = true
    ∧ ((linked (xferOf false none) demo).tower 0).links.find? (fun x => x.ctr.toNat % 256 == 5 && !x.started) = some (xferOf false none)
    ∧ ((linked (xferOf true none) demo).tower 0).links.find? (fun x => x.ctr.toNat % 256 == 5 && x.started && !x.answered) = some (xferOf true none)
    ∧ linkAnswer (xferOf true none) 0 (zeros 16) = true ∧ linkAnswer (xferOf true (some 5)) 0 [] = true
    ∧ rangeFault (linkEffect (countRetries (linked (xferOf true none) (pinned0 demo))).fresh (xferOf true none) 0 (zeros 16)).1 0xFFFF (bootVa + 0x1000) 8 .write true = none
    ∧ (xferOf true none).status = none ∧ field (xferOf true none).bytes 2 1 = 1
    ∧ rangeFault demo (xferOf true none).lasid (xferOf true none).lva (xferOf true none).count .write false = none := by
  and_intros <;> rfl

/-- The last bytes of a window, and one byte more. -/
theorem wit_windows : let s : State := { demo with windows := [aWindow] };
    windowFor s 3 9 (0x1FF8 : DWord).toNat (zeros 8).length true = some aWindow ∧ windowFor s 3 9 (0x1FF8 : DWord).toNat 8 false = some aWindow
      ∧ windowFor s 3 9 (0x1FF9 : DWord).toNat 8 false = none ∧ rangeFault s aWindow.asid (aWindow.va + 0x1FF8) 8 .write false = none
      ∧ rangeFault s aWindow.asid (aWindow.va + 0x1FF8) 8 .read false = none ∧ rangeFault s 7 0 8 .write false ≠ none := by
  decide +kernel

theorem wit_ports : ((0 : BitVec 2) ≠ 3) ∧ ((2 : BitVec 2) ≠ 3 ∧ portEnabled { demo with portMask := 0xFFFF } 0 3 = true)
    ∧ (((demo.updTower 0 fun tw => { tw with ports := tw.ports.upd 1 fun p => { p with state := 2 } }).tower 0).ports.get 1).state ≠ 0 := by
  decide +kernel

theorem wit_lease :
    (let s := commanded 0 [] demo; (s.tower 0).boot.leader = true ∧ s.lease.leader = 0 ∧ s.lease.expiry.toNat ≤ (s.tower 0).time + 8000000)
    ∧ (let s := late 15000000 { demo with lease := { demo.lease with leader := 1, expiry := 15000000 } };
       let s1 := s.updTower 0 fun tw => { tw with boot := { tw.boot with state := 4 } };
       s1.lease.leader ≠ 0 ∧ (s1.tower 0).boot.state = 4 ∧ s1.lease.expiry.toNat + 5000000 * leaseRank s1 0 ≤ (s1.tower 0).time)
    ∧ ((4 : Nat) ≠ 8) ∧ (0x2C : BitVec 18).toNat % 8 ≠ 0 ∧ (1023 : Nat) < 1024 := by
  decide +kernel

/-! ### Witnesses: starts, time, errors (R341, R361, R364, R365) -/

def goodStart : TowerStart := { coreBad := [], storeBad := [], vertBad := [], stackBad := none, uncorrected := none, stalls := none, noLeader := false }

def badUnit (unit : Byte) (s : State) : State := s.updTower 0 fun tw => { tw with errUnits := [{ unit, index := 3, sub := 0 }] }

def locked (b : Bool) (k : TimeLock) : TimeLock := { k with locked := b }

/-- A start that fails at the self-test, at the training, for its patch, for its leader, and one that stalls. -/
def patchOf : Patch := { version := 0, digest := 0, image := [] }

theorem wit_starts_fail :
    let first (x : TowerStart) (s : State) := startStage { s with towers := s.towers.map Tower.numbered } (Quad.fill x) 1 Tower.selfTested
    let second (x : TowerStart) (s : State) := startStage (first x s).1 (Quad.fill x) 2 fun x tw => ({ (tw.trained x).1 with failNext := none }, (tw.trained x).2)
    (first goodStart demo).2 = none ∧ (second goodStart demo).2 = none
    ∧ (first { goodStart with storeBad := List.range 40 } demo).2.isSome = true
    ∧ (first { goodStart with uncorrected := some (9, 3, 0) } demo).2 = none
    ∧ (second { goodStart with uncorrected := some (9, 3, 0) } demo).2 = some 8 ∧ (second { goodStart with uncorrected := some (9, 4, 0) } demo).2 = none
    ∧ { goodStart with stalls := some 2 }.stalls = some 2 ∧ { goodStart with noLeader := true }.noLeader = true := by
  decide +kernel

/-- Starts that have failed; of the towers only tower 0 has not passed. -/
def failed (n : Nat) (s : State) : State :=
  State.updTower { s with towers := s.towers.map fun tw => { tw with boot := { tw.boot with fails := n, passed := true } } } 0 fun tw => { tw with boot := { tw.boot with passed := false } }

theorem wit_starts : (∀ t, ((Quad.fill goodStart).get t).coreBad = [] ∧ ((Quad.fill goodStart).get t).stalls = none ∧ (demo.tower t).failNext = none)
    ∧ ((late 5000000000 { demo with startAt := some 0 }).startAt = some 0 ∧ 0 + 5000000000 ≤ ((late 5000000000 { demo with startAt := some 0 }).tower 0).time)
    ∧ ((late 4999999999 { demo with startAt := some 0 }).startAt = some 0 ∧ ((late 4999999999 { demo with startAt := some 0 }).tower 0).time < 0 + 5000000000)
    ∧ (∀ t, (demo.tower t).boot.fails = (demo.tower 0).boot.fails) ∧ (demo.tower 0).boot.fails + 1 < 3
    ∧ (let s := failed 2 demo; (∀ t, (s.tower t).boot.fails = (s.tower 0).boot.fails) ∧ 3 ≤ (s.tower 0).boot.fails + 1
        ∧ (s.tower 1).boot.passed = true ∧ ∀ k < (1 : Four), (s.tower k).boot.passed = false) := by
  decide +kernel

/-- The three ends of an attempt. -/
theorem wit_attempts :
    (∃ u, attemptOnce demo (Quad.fill goodStart) = .ready u)
    ∧ (∃ u, attemptOnce demo (Quad.fill { goodStart with stalls := some 2 }) = .stalled u)
    ∧ ∃ u, attemptOnce demo (Quad.fill { goodStart with noLeader := true }) = .failed u 7 := by
  refine ⟨?_, ?_, ?_⟩
  · have h : (match attemptOnce demo (Quad.fill goodStart) with | .ready _ => true | _ => false) = true := by decide +kernel
    split at h
    · next u hu => exact ⟨u, hu⟩
    · cases h
  · have h : (match attemptOnce demo (Quad.fill { goodStart with stalls := some 2 }) with | .stalled _ => true | _ => false) = true := by decide +kernel
    split at h
    · next u hu => exact ⟨u, hu⟩
    · cases h
  · have h : (match attemptOnce demo (Quad.fill { goodStart with noLeader := true }) with | .failed _ r => r == 7 | _ => false) = true := by decide +kernel
    split at h
    · next u r hu => exact ⟨u, by rw [hu, eq_of_beq h]⟩
    · cases h

/-- A sample 50 ns off, tower time locked and not; 10 ms without one. -/
theorem wit_time :
    (let s := (late 1000 demo).updTower 0 fun tw => { tw with lock := locked true tw.lock }; (s.tower 0).lock.locked = true ∧ (s.tower 0).time ≤ 950 + 50 ∧ 950 ≤ (s.tower 0).time + 50)
    ∧ (((late 1000 demo).tower 0).lock.locked = false ∧ ((late 1000 demo).tower 0).time ≤ 1050 + 50 ∧ 1050 ≤ ((late 1000 demo).tower 0).time + 50)
    ∧ (let s := (late 10000000 demo).updTower 0 fun tw => { tw with lock := locked true tw.lock }; (s.tower 0).lock.locked = true ∧ (s.tower 0).lock.lastSample + 10000000 ≤ (s.tower 0).time)
    ∧ ((late 9999999 demo).tower 0).time < ((late 9999999 demo).tower 0).lock.lastSample + 10000000 := by
  decide +kernel

/-- The units that an event may name, at the ends of their ranges (R372). -/
theorem wit_error_units :
    ([((0 : Byte), (39 : Byte)), (1, 39), (2, 39), (3, 15), (4, 3), (5, 255), (6, 127), (7, 5), (8, 9), (9, 3)].all fun x => (ErrUnit.named x.1 x.2 5).exists) = true
    ∧ ([((0 : Byte), (40 : Byte)), (1, 40), (2, 40), (3, 16), (4, 4), (6, 128), (7, 6), (9, 4), (10, 0)].all fun x => !(ErrUnit.named x.1 x.2 0).exists) = true
    ∧ ErrUnit.named 2 3 5 = { unit := 2, index := 3, sub := 1 } ∧ ErrUnit.named 8 3 5 = { unit := 8, index := 0, sub := 0xFF } := by
  decide

theorem wit_errors : ((9 : Byte).toNat ≤ 9 ∧ (0 : Byte).toNat ≤ 9) ∧ (2 : Byte).toNat ≤ 2 ∧ ((3 : Byte).toNat < (demo.tower 0).cols.length)
    ∧ ((badUnit 4 demo).tower 0).errUnits.find? (fun e => e.unit == 4 && e.index == 3) = some { unit := 4, index := 3, sub := 0 } ∧ 2 < (4 : Byte).toNat
    ∧ ((badUnit 2 demo).tower 0).errUnits.find? (fun e => e.unit == 2 && e.index == 3) = some { unit := 2, index := 3, sub := 0 }
    ∧ columnFree (badUnit 2 demo) 0 3 = true
    ∧ (∀ x ∈ (((concludeColumn (badUnit 2 demo) 0 2 3 0 .pass).updTower 0 fun tw => { tw with errUnits := tw.errUnits.filter (· != { unit := 2, index := 3, sub := 0 }) }).tower 0).errUnits,
        ¬(x.unit.toNat ≤ 2 ∧ x.index = 3)) := by
  decide +kernel

/-! ### Witnesses: special registers, scans, the lanes of a VATOM, a SETTLE that waits for its release -/

theorem wit_tables : (∀ x ∈ specialTable, Met (.srd 9 x.1) fun _ _ => True) ∧ (∀ x ∈ scanTable, Met (.vreds 9 2 x.1 0) (fun _ _ => True) ∧ Met (.vscan 9 2 1 x.1 0) fun _ _ => True)
    ∧ ∀ code ∈ [(0x000 : BitVec 10), 0x026], code ∈ 0x000 :: 0x001 :: specialTable.map (·.1) ∧ code ≠ 0x030 ∧ code ≠ 0x031 := by
  have h1 : (specialTable.all fun x => holds (.srd 9 x.1) (beads calm) fun _ _ => True) = true := by decide +kernel
  have h2 : (scanTable.all fun x => holds (.vreds 9 2 x.1 0) (beads calm) (fun _ _ => True) && holds (.vscan 9 2 1 x.1 0) (beads calm) fun _ _ => True) = true := by decide +kernel
  exact ⟨fun x hx => met (beads calm) (List.all_eq_true.mp h1 x hx), fun x hx =>
    have h := List.all_eq_true.mp h2 x hx
    ⟨met (beads calm) (by simpa using (Bool.and_eq_true _ _ ▸ h).1), met (beads calm) (by simpa using (Bool.and_eq_true _ _ ▸ h).2)⟩, by decide⟩

/-- A VATOM that has come to a lane: the frames of the lanes to come, the old values of those past. -/
def midway (hits : List (DWord × Nat × Attr)) (olds : List DWord) (b : Bead) : Bead :=
  { aimed b with held := some (.vatom 8 2 0 4 0), wait := some { waitOf .confirm with addr := 7, hits, olds } }

def atLane (s : State) (n left : Nat) : Prop :=
  ∃ s1 cu c, findGroup s1 (fun b => b.wait.any fun w => w.kind == .confirm && w.addr.toNat == 7) = some cu
    ∧ State.ctx? { s1 with cur := some cu } = some c ∧ s1 = s ∧ c.lead.held = some (.vatom 8 2 0 4 0)
    ∧ (c.lead.wait.any fun w => w.addr.toNat == 7 && w.hits.length == left && w.olds.length == n) = true
    ∧ ((c.laneAccs (modGuard c.pfx) fun x k => x.sget 2 + laneOffset x k 0 + c.imm (0#0))[n]?).isSome = true

/-- The first lane, one in the middle, the last of the eight beads. -/
theorem wit_vatom_lanes : ∃ s0 s1 s2, atLane s0 0 0 ∧ atLane s1 1 31 ∧ atLane s2 31 1 := by
  have key (s : State) (n left : Nat) (h : finds s .confirm (fun c _ => c.lead.held = some (.vatom 8 2 0 4 0)
      ∧ (c.lead.wait.any fun w => w.addr.toNat == 7 && w.hits.length == left && w.olds.length == n) = true
      ∧ ((c.laneAccs (modGuard c.pfx) fun x k => x.sget 2 + laneOffset x k 0 + c.imm (0#0))[n]?).isSome = true) = true) : atLane s n left := by
    unfold finds at h
    split at h
    · next cu hcu =>
      cases hc : State.ctx? { s with cur := some cu } with
      | none => simp [hc] at h
      | some c =>
        simp only [hc, Option.any_some, decide_eq_true_eq] at h
        exact ⟨s, cu, c, hcu, hc, rfl, h.1, h.2.1, h.2.2⟩
    · cases h
  exact ⟨beads (midway [] []), beads (midway (List.replicate 31 (bootVa, bootPage, attrOf 0)) [0]), beads (midway [(bootVa, bootPage, attrOf 0)] (List.replicate 31 0)),
    key _ _ _ (by decide +kernel), key _ _ _ (by decide +kernel), key _ _ _ (by decide +kernel)⟩

theorem wit_settle_waits :
    Met (.settle 2) (fun c s => c.lead.wait = none ∧ c.unsettled s = false ∧ (2 : BitVec 3).toNat ≤ 2 ∧ c.released s 2 = false)
    ∧ Met (.settle 3) (fun c s => c.lead.wait = none ∧ c.unsettled s = false ∧ 3 ≤ (3 : BitVec 3).toNat
        ∧ (((settleWide c s).gang? c.g.id).map (·.defers)).getD [] = [] ∧ c.released (settleWide c s) 3 = false) :=
  ⟨met { beads aimed with stores := [store7 0 bootVa] } (by decide +kernel), met { beads aimed with stores := [store7 0 bootVa] } (by decide +kernel)⟩

/-! ### Witnesses: products, codebooks, bytes (R84, R86 to R89) -/

def ctlOf (fmt rows slices nsel : Nat) : Word := BitVec.ofNat 32 (fmt + rows * 16 + slices * 1024 + nsel * 65536)

theorem wit_product_elements :
    (let a : Tile := { Tile.blank with ctl := ctlOf 3 32 8 1 }; tRows a.ctl = 32 ∧ intPair (tFmt a.ctl) = false ∧ nOf (tNsel a.ctl) = 16
      ∧ ((List.range 128).filter fun p => (a.side.getD 0 0).getLsbD p).length ≠ nOf (tNsel a.ctl) ∧ 0 < tSlices a.ctl * (768 / (tFmt a.ctl).width / nOf (tNsel a.ctl)))
    ∧ (let a : Tile := { Tile.blank with ctl := ctlOf 7 1 1 0 }; tRows a.ctl = 1 ∧ intPair (tFmt a.ctl) = true ∧ pairOk (tFmt a.ctl) (tFmt a.ctl) = true)
    ∧ tFmt (ctlOf 9 1 1 0) = .mx8 ∧ (fmtE4m3.val 0x7E).num ≠ none ∧ fmtE4m3.val 0x7F = .nan := by
  decide +kernel

theorem wit_quantise : (fmt32.val 0x7F7FFFFF ≠ .nan) ∧ (∀ n m e, fmt32.val 0x7F800000 ≠ .fin n m e) ∧ 4 * 31 + 4 ≤ (zeros 128).length
    ∧ 0 < (wordsOf (zeros 128)).length / 32 ∧ (∃ i, i < 16 ∧ fmtBf16.val ((0 : BitVec 256).extractLsb' (16 * i) 16).toNat ≠ .nan) := by
  refine ⟨by decide +kernel, ?_, by decide +kernel, by decide +kernel, 15, by decide, by decide +kernel⟩
  intro n m e h
  have h1 : fmt32.val 0x7F800000 = .inf false := by decide +kernel
  rw [h1] at h
  cases h

/-! ### Witnesses: a launch after its divert instant, a node's line in the remote-data cache -/

theorem wit_late_launch : let l : Launch := { bootLaunch 0 true with deadline := 5, wrapBudget := 9 };
    l.deadline ≠ 0 ∧ l.deadline.toNat - l.wrapBudget.toNat ≤ (demo.tower 0).time := by
  decide +kernel

theorem wit_past_copy : (∃ h, confL2 demo bootAsid bootVa .write = .ok h) ∧ homeOf bootVa ≠ 3 := by
  and_intros <;> first | exact @of_decide_eq_true _ (decOk _) (by decide +kernel) | decide +kernel

/-! ### Witnesses: admin commands that fail (R358, R371) -/

/-- Work queue 15 holds a record; queue 5 has a published node and is mapped; a gang stands in tower 0; window 3 is open. -/
def busyTower (s : State) : State := s.updTower 0 fun tw => { tw with
  wqs := tw.wqs.map fun w => { w with recs := [zeros 64] }
  queues := [{ queueOf 2 [] with ltail := 4, tail := 4 }] }

def minimalTower (s : State) : State := s.updTower 0 fun tw => { tw with boot := { tw.boot with minimal := true } }

theorem wit_spaces_fail :
    (∃ c, CommandAt 0x01 0 (commanded 1 (zeros 8 ++ leBytes 8 0x60000) demo) c ∧ field c 8 2 = 0)
    ∧ (∃ c, CommandAt 0x01 0 (commanded 1 (leBytes 2 7 ++ zeros 6 ++ leBytes 8 0x60001) demo) c ∧ physOk (field c 0x10 8) 65536 65536 = false)
    ∧ (let s := commanded 1 (leBytes 2 7 ++ zeros 6 ++ leBytes 8 0x60000) { demo with spaces := [(7, 0x60000)] }
       ∃ c, CommandAt 0x01 0 s c ∧ ¬(field c 8 2 = 0 ∨ physOk (field c 0x10 8) 65536 65536 = false) ∧ ∃ x ∈ s.spaces, x.1 = BitVec.ofNat 16 (field c 8 2))
    ∧ (let s := busyTower (commanded 2 (leBytes 2 0xFFFF) demo)
       ∃ c, CommandAt 0x02 0 s c ∧ ∃ q ∈ (s.tower 0).queues, q.asid = BitVec.ofNat 16 (field c 8 2))
    ∧ (let s := minimalTower (commanded 3 (zeros 16) demo); ∃ c, CommandAt 0x03 0 s c ∧ (s.tower 0).boot.minimal = true)
    ∧ (let s := commanded 3 (leBytes 2 1024 ++ leBytes 2 0xFFFF) demo; ∃ c, CommandAt 0x03 0 s c ∧ (s.tower 0).boot.minimal = false ∧ 1023 < field c 8 2)
    ∧ (let s := commanded 3 (leBytes 2 9 ++ leBytes 2 7 ++ zeros 4 ++ leBytes 8 0x1000) demo
       ∃ c, CommandAt 0x03 0 s c ∧ ¬(1023 < field c 8 2 ∨ field c 0xA 2 = 0 ∨ field c 0x10 8 % 256 ≠ 0 ∨ (s.queue? 0 (field c 8 2)).isSome = true)
        ∧ (rangeFault s (BitVec.ofNat 16 (field c 0xA 2)) (BitVec.ofNat 64 (field c 0x10 8)) 256 .read true).isSome = true)
    ∧ (let s := commanded 3 (leBytes 2 9 ++ leBytes 2 0xFFFF ++ zeros 4 ++ leBytes 8 (bootVa.toNat + 0x1000)) (pinned0 demo)
       ∃ c, CommandAt 0x03 0 s c ∧ rangeFault s 0xFFFF (bootVa + 0x1000) 256 .read true = none ∧ field (sysRead s 0xFFFF (bootVa + 0x1000) 16).2 8 1 < 4) := by
  and_intros <;> exact commandAt _ (by decide +kernel)

theorem wit_queues_fail :
    (let s := commanded 4 (leBytes 2 9) demo; ∃ c, CommandAt 0x04 0 s c ∧ s.queue? 0 (field c 8 2) = none)
    ∧ (let s := busyTower (commanded 4 (leBytes 2 5) demo)
       ∃ c, CommandAt 0x04 0 s c ∧ ((s.queue? 0 (field c 8 2)).any fun q => q.accepted != q.head) = true)
    ∧ (∃ c, CommandAt 0x05 0 (commanded 5 [16] demo) c ∧ 15 < field c 8 1)
    ∧ (let s := busyTower (commanded 5 [15] demo); ∃ c, CommandAt 0x05 0 s c ∧ ¬15 < field c 8 1 ∧ ((s.tower 0).wq (field c 8 1)).recs ≠ [])
    ∧ (∃ c, CommandAt 0x06 0 (commanded 6 [2, 4] demo) c ∧ 1 < field c 8 1) ∧ (∃ c, CommandAt 0x06 0 (commanded 6 [0, 17] demo) c ∧ 16 < field c 9 1)
    ∧ (let s := commanded 6 ([0, 4] ++ leBytes 2 7) demo
       ∃ c, CommandAt 0x06 0 s c ∧ (rangeFault s (BitVec.ofNat 16 (field c 0xA 2)) 0 (128 * 2 ^ 4) .read true).isSome = true)
    ∧ (let s := (cmdRing 0).updTower 0 fun tw => { tw with trapq := { tw.trapq with prod := 1 } }
       ∃ c, CommandAt 0x06 0 s c ∧ field c 8 1 = 0 ∧ (s.tower 0).trapq.prod ≠ (s.tower 0).trapq.cons)
    ∧ (∃ c, CommandAt 0x07 0 (commanded 7 (leBytes 2 7 ++ zeros 6 ++ leBytes 8 0x8000) demo) c ∧ field c 0x10 8 % 65536 ≠ 0) := by
  and_intros <;> exact commandAt _ (by decide +kernel)

theorem wit_settings_fail :
    (∃ c, CommandAt 0x08 0 (commanded 8 [40, 0] demo) c ∧ 39 < field c 8 1) ∧ (∃ c, CommandAt 0x08 0 (commanded 8 [39, 16] demo) c ∧ 15 < field c 9 1)
    ∧ (∃ c, CommandAt 0x08 0 (commanded 8 [39, 11] demo) c ∧ ¬(39 < field c 8 1 ∨ 15 < field c 9 1) ∧ 10 < field c 9 1)
    ∧ (let s := commanded 8 [0, 10] demo; ∃ c, CommandAt 0x08 0 s c ∧ ¬10 < field c 9 1 ∧ columnFree s 0 (field c 8 1) = false)
    ∧ (∃ c, CommandAt 0x09 0 (commanded 9 [7] demo) c ∧ field c 8 1 < 8) ∧ (∃ c, CommandAt 0x09 0 (commanded 9 [33] demo) c ∧ 32 < field c 8 1)
    ∧ (let s := busyTower (commanded 9 [32] demo); ∃ c, CommandAt 0x09 0 s c ∧ ¬(field c 8 1 < 8 ∨ 32 < field c 8 1) ∧ ∃ q ∈ (s.tower 0).queues, q.qstate ≠ 0)
    ∧ (∃ c, CommandAt 0x0A 0 (commanded 10 [] demo) c ∧ field c 8 4 < 1) ∧ (∃ c, CommandAt 0x0A 0 (commanded 10 (leBytes 4 60001) demo) c ∧ 60000 < field c 8 4)
    ∧ (∃ c, CommandAt 0x0B 0 (commanded 11 [5] demo) c ∧ 4 < field c 8 1 ∧ field c 8 1 ≠ 0xFF)
    ∧ (∃ c, CommandAt 0x0C 0 (commanded 12 [4] demo) c ∧ 3 < field c 8 1 ∧ field c 8 1 ≠ 0xFF) ∧ (∃ c, CommandAt 0x0C 0 (commanded 12 [0] demo) c ∧ field c 0xC 2 ≤ field c 0xE 2)
    ∧ (∃ c, CommandAt 0x0D 0 (commanded 13 [0, 0, 1] demo) c ∧ field c 9 1 < 1) ∧ (∃ c, CommandAt 0x0D 0 (commanded 13 [1, 40, 1] demo) c ∧ 40 < field c 8 1 + field c 9 1) := by
  and_intros <;> exact commandAt _ (by decide +kernel)

theorem wit_others_fail :
    (∃ c, CommandAt 0x0E 0 (commanded 14 [4] demo) c ∧ 3 < field c 8 1) ∧ (∃ c, CommandAt 0x0E 0 (commanded 14 [1, 16] demo) c ∧ [40, 16, 4, 128].getD (field c 8 1) 0 ≤ field c 9 1)
    ∧ (∃ c, CommandAt 0x0F 0 (commanded 15 [5] demo) c ∧ 4 < field c 8 1)
    ∧ (∃ c, CommandAt 0x10 0 (commanded 16 [2] demo) c ∧ 1 < field c 8 1)
    ∧ (let s := minimalTower (commanded 16 [1] demo); ∃ c, CommandAt 0x10 0 s c ∧ ¬1 < field c 8 1 ∧ (s.tower 0).boot.minimal = true)
    ∧ (let s := commanded 16 [1] demo; ∃ c, CommandAt 0x10 0 s c ∧ ¬1 < field c 8 1 ∧ (s.tower 0).boot.minimal = false ∧ ∃ g ∈ s.gangs, g.tower = 0)
    ∧ (∃ c, CommandAt 0x11 0 (commanded 17 (leBytes 2 1024) demo) c ∧ 1023 < field c 8 2)
    ∧ (∃ c, CommandAt 0x12 0 (commanded 18 [3, 4] demo) c ∧ 3 < field c 9 1)
    ∧ (let s := commanded 18 ([3, 3] ++ leBytes 2 0xFFFF ++ zeros 4 ++ leBytes 8 0x1000 ++ leBytes 8 0x1000) { demo with windows := [aWindow] }
       ∃ c, CommandAt 0x12 0 s c ∧ ∃ w ∈ s.windows, w.num = field c 8 1)
    ∧ (let s := commanded 19 [3] demo; ∃ c, CommandAt 0x13 0 s c ∧ ∀ w ∈ s.windows, w.num ≠ field c 8 1)
    ∧ (∃ c, CommandAt 0x14 0 (commanded 20 (zeros 8 ++ leBytes 8 0x60001) demo) c ∧ physOk (field c 0x10 8) 64 64 = false)
    ∧ (∃ c, CommandAt 0x15 0 (commanded 21 (zeros 8 ++ leBytes 8 0x60001) demo) c ∧ physOk (field c 0x10 8) 1024 64 = false)
    ∧ (∃ c, CommandAt 0x16 0 (commanded 22 [2] demo) c ∧ 1 < field c 8 1) := by
  and_intros <;> exact commandAt _ (by decide +kernel)

/-- No command; an OP beyond the last; a reserved byte; a leader's command with no leader; a test that waits, and one whose time is up. -/
theorem wit_commands_turned_away : admCommand demo 0 = none
    ∧ (∃ c, admCommand (commanded 0x17 [] demo) 0 = some c ∧ 0x16 < field c 0 2)
    ∧ (∃ c, admCommand (commanded 10 (leBytes 4 1 ++ [0, 0, 0, 1]) demo) 0 = some c ∧ field c 0 2 = 0x0A ∧ operandsClean 0x0A c = false)
    ∧ (let s := (commanded 0x15 [] demo).updTower 0 fun tw => { tw with boot := { tw.boot with leader := false } }
       (∃ c, admCommand s 0 = some c ∧ 0x11 ≤ field c 0 2 ∧ field c 0 2 ≤ 0x15) ∧ leaderOp 0x15 = true ∧ leaderLive s = false)
    ∧ (∃ c, CommandAt 0x0E 0 (commanded 14 [0, 39] demo) c ∧ field c 8 1 = 0 ∧ field c 9 1 < 40) ∧ testable (commanded 14 [0, 39] demo) 0 [39] = false
    ∧ (let s := onAdm (late 100000000 (commanded 14 [0, 39] demo))
       (∃ c, admCommand s 0 = some c ∧ field c 0 2 = 0x0E ∧ field c 8 1 = 0 ∧ field c 9 1 = 39) ∧ (s.tower 0).admSince = some 0 ∧ 0 + 100000000 ≤ (s.tower 0).time
        ∧ testable s 0 [39] = false)
    ∧ ((onAdm (late 99999999 demo)).tower 0).time < 0 + 100000000 := by
  and_intros <;> first | exact commandAt _ (by decide +kernel) | exact someOf (by decide +kernel) | decide +kernel

/-! ### Witnesses: registers, an access of the host that faults, a launch that an error strikes -/

theorem wit_register_writes :
    replyBlock demo 0 5 = none ∧ (demo.tower 0).fltq.waiting.find? (·.1 == 0) = none ∧ (2 ^ 33 : DWord).getLsbD 33 = true
    ∧ (0xA0 : BitVec 18).toNat ∉ [0x18, 0x20, 0x28, 0x48, 0x50, 0x58, 0x68, 0x70, 0x78, 0x80, 0x88, 0x90] ∧ 0x12000 ≤ (0x12000 : BitVec 18).toNat
    ∧ rangeFault demo 7 0 8 .read false ≠ none ∧ ((demo.tower 0).ports.get 1).state = 0 := by
  decide +kernel

theorem wit_error_strikes : ((demo.launches.map (·.id)).filter fun id => (demo.launch? id).any (·.finished.isNone)) ≠ [] := by decide +kernel

/-! ### What the rules state of a replacement, a re-issue and a failed start -/

/-- R151: a streaming line leaves first, a kept one last; with one such, whatever is drawn. -/
theorem test_streaming_leaves_first (n : Nat) : victimAt [2, 0, 1, 0] n = 2 ∧ victimAt [2, 0, 2] n = 1 := by
  have h1 : ((List.range 4).filter fun k => goesFirst [2, 0, 1, 0] (([2, 0, 1, 0] : List (BitVec 2)).getD k 0)) = [2] := by decide
  have h2 : ((List.range 3).filter fun k => goesFirst [2, 0, 2] (([2, 0, 2] : List (BitVec 2)).getD k 0)) = [1] := by decide
  unfold victimAt
  simp only [List.length_cons, List.length_nil, Nat.reduceAdd, h1, h2, Nat.mod_one]
  decide

/-- R184: a bead that waits at CLASP when its workgroup is saved issues the CLASP again, at its PC; one in a BAR keeps its record. -/
theorem test_clasp_reissued : let b := Bead.start 0 0 0 0 0 0
    ({ b with pc := 64, wait := some (waitOf .clasp) } : Bead).reissued = { b with pc := 64 }
    ∧ ({ b with pc := 64, wait := some (waitOf .bar) } : Bead).reissued.wait = some (waitOf .bar) := by
  decide

/-- R361: the third failed start leaves minimal mode, with FAILS 3 and its REASON; an earlier one is attempted again. -/
theorem test_third_failure :
    (((failStart (failed 2 demo) 5 []).tower 1).boot.fails = 3 ∧ ((failStart (failed 2 demo) 5 []).tower 1).boot.state = 5
      ∧ ((failStart (failed 2 demo) 5 []).tower 0).boot.state = 6 ∧ ((failStart (failed 2 demo) 5 []).tower 3).boot.reason = 5)
    ∧ ((failStart (failed 1 demo) 5 [Quad.fill goodStart]).tower 0).boot.state = 4 := by
  decide +kernel

/-! ### Single steps, their results worked out by hand from the rules -/

/-- Bead 0 of the group after a word, where it goes on. -/
def bead0 (i : Instr) (f : Bead → Bead) : Option Bead :=
  match exec i (beads f) with
  | .next s => ((s.gang? 0).bind (·.member? 0)).bind (·.beads.head?)
  | _ => none

def sget0 (i : Instr) (f : Bead → Bead) (r : Reg) : Option DWord := (bead0 i f).map (·.sget r)

def vget0 (i : Instr) (f : Bead → Bead) (r : Reg) : Option Word := (bead0 i f).map (·.vget 0 r)

/-- s2 and s3, z2 and z3 in every lane. -/
def sAB (x y : DWord) (b : Bead) : Bead := ((calm b).sset 2 x).sset 3 y

def vAB (x y : Word) (b : Bead) : Bead := (calm b).onLanes 15 fun k l => (l.vset k 2 x).vset k 3 y

/-- NOP runs as the first word after reset, and every bead stands behind it. -/
theorem test_first_step :
    (match step (State.reset.withFetchWord 32 0x04000007) with
      | .next s => s.gangs.flatMap (fun g => g.members.flatMap fun w => w.beads.map fun b => b.pc == bootVa + 4)
      | _ => []) = List.replicate 8 true := by
  decide +kernel

/-- R188: sums wrap modulo 2^64. -/
theorem test_sadd_wraps : sget0 (.sadd 9 2 3 0) (sAB (-1) 2) 9 = some 1 := by decide +kernel

/-- R189: truncation toward zero, the divisor 0, the one quotient out of range. -/
theorem test_sdiv_corners : sget0 (.sdiv 9 2 3 0) (sAB (-7) 2) 9 = some (-3) ∧ sget0 (.srem 9 2 3 0) (sAB (-7) 2) 9 = some (-1)
    ∧ sget0 (.sdiv 9 2 3 0) (sAB 5 0) 9 = some (-1) ∧ sget0 (.srem 9 2 3 0) (sAB 0x8000000000000000 (-1)) 9 = some 0 := by
  decide +kernel

/-- R188: shifts by the count modulo 64. -/
theorem test_sshl_count : sget0 (.sshl 9 2 3 0) (sAB 3 65) 9 = some 6 := by decide +kernel

/-- R142: s0 reads zero and discards writes; the group moves on. -/
theorem test_s0_discards : sget0 (.sadd 0 2 3 0) (sAB 1 1) 0 = some 0 ∧ (bead0 (.sadd 0 2 3 0) (sAB 1 1)).map (·.pc) = some (bootVa + 4) := by
  decide +kernel

/-- R201: the high word of a signed product, of an unsigned one. -/
theorem test_vmulh : vget0 (.vmulh 9 2 3 0) (vAB (-1) 2) 9 = some 0xFFFFFFFF ∧ vget0 (.vmulhn 9 2 3 0) (vAB (-1) 2) 9 = some 1 := by
  decide +kernel

/-- R174: the offset counts words from the next word; -1 is the branch itself. -/
theorem test_bra_target : (bead0 (.bra 0 3) calm).map (·.pc) = some (bootVa + 16) ∧ (bead0 (.bra 0 0xFFFFF) calm).map (·.pc) = some bootVa := by
  decide +kernel

/-- R75: 1 + 2^-24 lies halfway and goes to the even 1; 1 + 3 × 2^-24 goes up. -/
theorem test_vfadd_ties : vget0 (.vfadd 9 2 3 0) (vAB 0x3F800000 0x33800000) 9 = some 0x3F800000
    ∧ vget0 (.vfadd 9 2 3 0) (vAB 0x3F800001 0x33800000) 9 = some 0x3F800002 := by
  decide +kernel

/-- R78: a signalling NaN stops the strand, the register unwritten. -/
theorem test_snan_traps : (bead0 (.vfadd 9 2 3 0) (vAB 0x7F800001 0)).map (fun b => (b.stop.isSome, b.vget 0 9, b.pc)) = some (true, 0, bootVa) := by
  decide +kernel

/-- R268: TRAP 5 writes 0x20 into the strand's stop; the destination is written by the reply. -/
theorem test_trap_stops : (bead0 (.trap 9 2 5) calm).map (fun b => (b.stop.isSome, b.sget 9)) = some (true, 0) := by decide +kernel

end Sys2Proof.Tests
end

