-- ==== Sys2Proof/Proofs/MemoryFrame.lean ====
section
/-!
SUPPORT. What leaves module memory as it was: every operation on towers, gangs, launches, queues and rings that does not reach HBM.
-/

set_option Elab.async false

namespace Sys2Proof.Machine

/-! ### Folds and groups -/

/-- Steps that each leave module memory as it was leave it so one after another. -/
theorem foldl_hbm {α : Type} {f : State → α → State} {l : List α} {s : State} (h : ∀ s a, (f s a).hbm = s.hbm) :
    (l.foldl f s).hbm = s.hbm := by
  induction l generalizing s with
  | nil => rfl
  | cons a l ih => exact (ih (s := f s a)).trans (h s a)

@[simp] theorem ite_hbm {p : Prop} [Decidable p] {s t : State} : (if p then s else t).hbm = if p then s.hbm else t.hbm :=
  apply_ite State.hbm p s t

/-- What a step does in a group leaves module memory as it was if its effect does. -/
theorem withGroup_hbm {s : State} {cu : Cursor} {f : Ctx → State → State} (h : ∀ c s, (f c s).hbm = s.hbm) :
    (withGroup s cu f).hbm = s.hbm := by
  unfold withGroup
  split
  · rfl
  · exact h _ _

/-! ### Of Machine/Cache -/

@[simp] theorem raiseIrq_hbm (s : State) (t : Four) (bit : Nat) : (raiseIrq s t bit).hbm = s.hbm := rfl
@[simp] theorem chargeRead_hbm (s : State) (who : Option Nat) (n m : Nat) : (s.chargeRead who n m).hbm = s.hbm := by
  simp [State.chargeRead]

@[simp] theorem chargeWrite_hbm (s : State) (who : Option Nat) (n : Nat) : (s.chargeWrite who n).hbm = s.hbm := by
  simp [State.chargeWrite]

@[simp] theorem remember_hbm (s : State) (asid : Half) (va : DWord) : (remember s asid va).hbm = s.hbm := by
  unfold remember; split <;> simp

@[simp] theorem roomRdc_hbm (s : State) (t : Four) : (roomRdc s t).hbm = s.hbm := by
  simp [roomRdc]

@[simp] theorem fillRest_hbm (s : State) (l : Line) (h : Hit) : (fillRest s l h).1.hbm = s.hbm := by
  simp [fillRest]

@[simp] theorem snoop_hbm (s : State) (pa : Nat) : (snoop s pa).hbm = s.hbm := foldl_hbm fun _ _ => rfl
@[simp] theorem rdcUpdate_hbm (s : State) (t : Four) (asid : Half) (va : DWord) (pa : Nat) (bs : List Byte) :
    (rdcUpdate s t asid va pa bs).hbm = s.hbm := rfl

@[simp] theorem rdcPass_hbm (s : State) (r : StoreRec) : (rdcPass s r).hbm = s.hbm := by
  unfold rdcPass; split <;> rfl

@[simp] theorem dropColLine_hbm (s : State) (t : Four) (c : Nat) (asid : Half) (va : DWord) : (dropColLine s t c asid va).hbm = s.hbm := rfl
@[simp] theorem dropPassed_hbm (s : State) (t : Four) (c : Nat) (asid : Half) (va : DWord) (pa : Nat) :
    (dropPassed s t c asid va pa).hbm = s.hbm := by
  simp [dropPassed]

@[simp] theorem colStore_hbm (s : State) (r : StoreRec) (na : Bool) : (colStore s r na).hbm = s.hbm := rfl
@[simp] theorem dropSpaceCol_hbm (s : State) (t : Four) (c : Nat) (asid : Half) : (dropSpaceCol s t c asid).hbm = s.hbm := rfl
@[simp] theorem acquire_hbm (s : State) (t : Four) (c : Nat) (asid : Half) (scope : BitVec 3) : (acquire s t c asid scope).hbm = s.hbm := by
  simp [acquire]

@[simp] theorem phaseAcquire_hbm (s : State) (t : Four) (asid : Half) (who : Option Nat) : (phaseAcquire s t asid who).hbm = s.hbm := by
  simp [phaseAcquire]

/-! ### Of Machine/Reduce -/

@[simp] theorem putAcc_hbm (s : State) (t : Four) (c : Nat) (l : AccLine) : (putAcc s t c l).hbm = s.hbm := rfl
@[simp] theorem pushDefer_hbm (s : State) (gang : Nat) (d : Defer) : (pushDefer s gang d).hbm = s.hbm := rfl
@[simp] theorem newDefer_hbm (s : State) (gang : Nat) (d : Defer) (f : Conf) : (newDefer s gang d f).hbm = s.hbm := by
  fun_cases newDefer s gang d f <;> simp +zetaDelta

@[simp] theorem putRed_hbm (s : State) (r : Red) : (putRed s r).hbm = s.hbm := rfl
@[simp] theorem dropRed_hbm (s : State) (r : Red) : (dropRed s r).hbm = s.hbm := rfl

/-! ### Of Machine/Access -/

@[simp] theorem countLoad_hbm (c : Ctx) (s : State) (id : Nat) (as : List LaneAcc) (ds : List (Bool × Reg)) (ws : List (Nat × RegWrite)) :
    (c.countLoad s id as ds ws).hbm = s.hbm := rfl

@[simp] theorem countStore_hbm (c : Ctx) (s : State) (id : Nat) (as : List LaneAcc) : (c.countStore s id as).hbm = s.hbm := rfl
@[simp] theorem scrWrite_hbm (c : Ctx) (s : State) (o : Nat) (bs : List Byte) : (c.scrWrite s o bs).hbm = s.hbm := rfl
@[simp] theorem Ctx.acquire_hbm (c : Ctx) (s : State) (scope : BitVec 3) : (c.acquire s scope).hbm = s.hbm := by simp [Ctx.acquire]

/-! ### Of Machine/Resources -/

@[simp] theorem setCore_hbm (s : State) (t : Four) (col : Nat) (k : Four) (f : Core → Core) : (setCore s t col k f).hbm = s.hbm := rfl
@[simp] theorem setGov_hbm (s : State) (t : Four) (col : Nat) (k : Four) (r : Nat) : (setGov s t col k r).hbm = s.hbm := rfl
@[simp] theorem recoverRatios_hbm (s : State) (t : Four) (col : Nat) :
    (recoverRatios s t col).hbm = s.hbm := foldl_hbm fun s k => by dsimp only; split <;> rfl

@[simp] theorem settleStarts_hbm (t : Four) (col : Nat) (rank : Four → Bool × Option Int) (fuel : Nat) (ks : List Four) (s : State) :
    (settleStarts t col rank fuel ks s).hbm = s.hbm := by
  fun_induction settleStarts t col rank fuel ks s with
  | case1 | case2 => rfl
  | case3 fuel ks s r hr least win s1 beside s2 ih =>
    have h1 : s1.hbm = s.hbm := by simp only [s1]; split <;> rfl
    have h2 : s2.hbm = s1.hbm := by simp only [s2]; exact foldl_hbm fun _ _ => setCore_hbm ..
    exact ih.trans (h2.trans h1)

@[simp] theorem startUnit_hbm (s : State) (t : Four) (col : Nat) (k : Four) : (startUnit s t col k).hbm = s.hbm := by
  unfold startUnit; split <;> simp

@[simp] theorem reclass_hbm (s : State) (t : Four) (col : Nat) (k : Four) (before : Quad CoreClass) :
    (reclass s t col k before).hbm = s.hbm := by
  simp [reclass]

@[simp] theorem reclassAll_hbm (s : State) (t : Four) (col : Nat) (before : Quad CoreClass) : (reclassAll s t col before).hbm = s.hbm := by
  have h : ∀ (ks : List Four) (r : State × Quad CoreClass), (ks.foldl (fun r k =>
      (reclass r.1 t col k r.2, r.2.upd k fun _ => coreClass r.1 t col k)) r).1.hbm = r.1.hbm := fun ks => by
    induction ks with
    | nil => exact fun _ => rfl
    | cons k ks ih => exact fun r => (ih _).trans (reclass_hbm ..)
  exact h Four.all (s, before)

@[simp] theorem noteEmpty_hbm (before s : State) (t : Four) (col : Nat) : (noteEmpty before s t col).hbm = s.hbm := by
  have h : (noteEmpty before s t col).hbm = (Four.all.foldl (fun s' k =>
      if coreHeld before t col k && !coreHeld s' t col k then setCore s' t col k fun c => { c with emptySince := (s.tower t).time } else s') s).hbm := by
    simp only [noteEmpty]; split <;> rfl
  exact h.trans (foldl_hbm fun _ _ => by split <;> rfl)

@[simp] theorem grantBlocks_hbm (s : State) (gang member home : Nat) (bl : BitVec 8) :
    (grantBlocks s gang member home bl).hbm = s.hbm := rfl

@[simp] theorem serveRacq_hbm (t : Four) (col : Nat) (k : Four) (fuel : Nat) (s : State) : (serveRacq t col k fuel s).hbm = s.hbm := by
  fun_induction serveRacq t col k fuel s <;> simp_all +zetaDelta

@[simp] theorem serveCore_hbm (s : State) (t : Four) (col : Nat) (k : Four) : (serveCore s t col k).hbm = s.hbm := by
  simp [serveCore]

@[simp] theorem serveColumn_hbm (s : State) (t : Four) (col : Nat) :
    (serveColumn s t col).hbm = s.hbm := foldl_hbm fun _ _ => serveCore_hbm ..

/-! ### Of Machine/MemInstr -/

@[simp] theorem await_hbm (c : Ctx) (s : State) (i : Instr) : (c.await s i).hbm = s.hbm := rfl
@[simp] theorem globalAcc_hbm (c : Ctx) (s : State) (i : Instr) (n : Nat) (a : AccKind) (ops : Bead → List CountedOp) (as : List LaneAcc)
    (extra : Option TrapReq) :
    (c.globalAcc s i n a ops as extra).hbm = s.hbm := by
  fun_cases Ctx.globalAcc c s i n a ops as extra <;> simp +zetaDelta

@[simp] theorem storeEach_hbm (c : Ctx) (s : State) (op : Nat) (na : Bool) (as : List LaneAcc) (bytes : LaneAcc → List Byte) (hit : DWord → Hit) :
    (c.storeEach s op na as bytes hit).hbm = s.hbm := foldl_hbm fun _ _ => rfl

@[simp] theorem sendVred_hbm (c : Ctx) (s : State) (d a b : Reg) (scope : BitVec 3) (op : BitVec 5) :
    (sendVred c s d a b scope op).hbm = s.hbm := foldl_hbm (s := s.fresh) fun _ _ => rfl

/-! ### Of Machine/Copies -/

@[simp] theorem takeCopy_hbm (c : Ctx) (s : State) (i : Instr) (ps : List Piece) (ks : List Lock) : (c.takeCopy s i ps ks).hbm = s.hbm := by
  simp [Ctx.takeCopy]

@[simp] theorem acopytBox_hbm (c : Ctx) (s : State) (d a : Reg) (bs : List Byte) : (acopytBox c s d a bs).hbm = s.hbm := by
  fun_cases acopytBox c s d a bs <;> simp +zetaDelta

@[simp] theorem finishCwait_hbm (c : Ctx) (s : State) (m : Nat) : (finishCwait c s m).hbm = s.hbm := by
  fun_cases finishCwait c s m <;> simp +zetaDelta

@[simp] theorem updCopy_hbm (s : State) (gang id : Nat) (f : Copy → Copy) : (s.updCopy gang id f).hbm = s.hbm := rfl
@[simp] theorem dropCopy_hbm (s : State) (gang id : Nat) : (s.dropCopy gang id).hbm = s.hbm := rfl
@[simp] theorem stopCopy_hbm (s : State) (g : Gang) (p : Copy) (va : DWord) (cause need : Byte) :
    (stopCopy s g p va cause need).hbm = s.hbm := rfl

/-! ### Of Machine/Tiles -/

@[simp] theorem setTiles_hbm (c : Ctx) (s : State) (ts : TileSet) : (c.setTiles s ts).hbm = s.hbm := rfl
@[simp] theorem countTile_hbm (c : Ctx) (s : State) (id : Nat) (load : Bool) : (c.countTile s id load).hbm = s.hbm := rfl
@[simp] theorem tileDone_hbm (c : Ctx) (s : State) (load : Bool) : (c.tileDone s load).hbm = s.hbm := rfl
@[simp] theorem storeRow_hbm (c : Ctx) (op : Nat) (s : State) (va : DWord) (bs : List Byte) : (c.storeRow op s va bs).hbm = s.hbm := by
  refine foldl_hbm fun s p => ?_
  dsimp only
  split <;> rfl

/-! ### Of Machine/Matrix -/

@[simp] theorem startProduct_hbm (c : Ctx) (s : State) (drains : List (DWord × Word)) (op : RedOp) (scope : BitVec 3) :
    (c.startProduct s drains op scope).hbm = s.hbm := by
  simp [Ctx.startProduct]

@[simp] theorem drainReds_hbm (s : State) (p : Product) (launch w : Nat) (asid : Half) :
    (drainReds s p launch w asid).hbm = s.hbm := foldl_hbm fun _ _ => rfl

/-! ### Of Machine/Bank -/

@[simp] theorem confirmBgemv_hbm (c : Ctx) (s : State) (b : Bgemv) : (confirmBgemv c s b).hbm = s.hbm := by
  fun_cases confirmBgemv c s b with
  | case1 | case2 | case4 | case6 => simp
  | case3 _ _ _ _ s1 h => exact confFail_hbm c (dropBgemv s b.id) h
  | case5 _ _ _ _ _ _ _ s1 h =>
    split at h
    · exact confFail_hbm c (dropBgemv s b.id) h
    · cases h

/-! ### Of Machine/Control -/

@[simp] theorem transfer_hbm (c : Ctx) (s : State) (f : Bead → Bead) : (c.transfer s f).hbm = s.hbm := rfl

/-! ### Of Machine/Sync -/

@[simp] theorem settleRelease_hbm (c : Ctx) (s : State) (scope : BitVec 3) : (settleRelease c s scope).hbm = s.hbm := by
  unfold settleRelease; split <;> rfl

@[simp] theorem announce_hbm (s : State) (p : Gang → Bool) (val : Wait → Option DWord) : (announce s p val).hbm = s.hbm := rfl
@[simp] theorem announcePhase_hbm (s : State) (c : Ctx) (scr : Bool) (va : DWord) (phase : Nat) :
    (announcePhase s c scr va phase).hbm = s.hbm := rfl

@[simp] theorem finishWaits_hbm (c : Ctx) (s : State) (scope : BitVec 3) : (finishWaits c s scope).hbm = s.hbm := by simp [finishWaits]
@[simp] theorem waitWord_hbm (c : Ctx) (s : State) (i : Instr) (k : WaitKind) (scr : Bool) (scope : BitVec 3) (cond : BitVec 2)
    (d : Reg) (addr cmp : Bead → DWord) :
    (c.waitWord s i k scr scope cond d addr cmp).hbm = s.hbm := rfl

@[simp] theorem awaitPhase_hbm (c : Ctx) (w : Wait) (scr : BitVec 1) (scope : BitVec 3) (d : Reg) (x : LaneAcc) (phase : Nat) (s : State) :
    (c.awaitPhase w scr scope d x phase s).hbm = s.hbm := rfl

@[simp] theorem announceGbar_hbm (s : State) (l : Launch) : (announceGbar s l).hbm = s.hbm := rfl
@[simp] theorem recheckGbar_hbm (c : Ctx) (s : State) : (recheckGbar c s).hbm = s.hbm := by
  unfold recheckGbar; split <;> rfl

@[simp] theorem popRecord_hbm (c : Ctx) (s : State) (d a : Reg) (q k : Nat) (rec : List Byte) :
    (popRecord c s d a q k rec).hbm = s.hbm := by simp [popRecord]

@[simp] theorem serveWaiters_hbm (t : Four) (q : Nat) (os : List Nat) (k : Nat) (s : State) : (serveWaiters t q os k s).hbm = s.hbm := by
  fun_induction serveWaiters t q os k s with
  | case1 | case2 => rfl
  | case3 => assumption
  | case4 o os k s rec cu _ _ ih =>
    refine ih.trans (withGroup_hbm fun c s => ?_)
    split <;> simp

@[simp] theorem serveWpop_hbm (s : State) (t : Four) (q : Nat) : (serveWpop s t q).hbm = s.hbm := by
  simp [serveWpop]

@[simp] theorem recheckWpop_hbm (c : Ctx) (s : State) (d a : Reg) (q : Nat) : (recheckWpop c s d a q).hbm = s.hbm := by
  fun_cases recheckWpop c s d a q <;> simp +zetaDelta

/-! ### Of Machine/System -/

@[simp] theorem setPredAll_hbm (c : Ctx) (s : State) (d : BitVec 3) (v : Bool) : (c.setPredAll s d v).hbm = s.hbm := rfl

/-! ### Of Machine/Ending -/

@[simp] theorem countGang_hbm (s : State) (g : Gang) : (countGang s g).hbm = s.hbm := rfl
@[simp] theorem updNode_hbm (s : State) (t : Four) (q : Nat) (ctr : Word) (f : Node → Node) : (s.updNode t q ctr f).hbm = s.hbm := rfl
@[simp] theorem leftColumn_hbm (before s : State) (t : Four) (col : Nat) : (leftColumn before s t col).hbm = s.hbm := by simp [leftColumn]
@[simp] theorem endMove_hbm (s : State) (id : Nat) : (s.endMove id).hbm = s.hbm := by
  fun_cases State.endMove s id <;> simp +zetaDelta

@[simp] theorem freeSlot_hbm (s : State) (g : Gang) : (freeSlot s g).hbm = s.hbm := rfl
@[simp] theorem dropGang_hbm (s : State) (id : Nat) : (s.dropGang id).hbm = s.hbm := rfl
@[simp] theorem discardDefers_hbm (s : State) (l : Launch) (g : Gang) (col : Nat) (ds : List Defer) :
    (discardDefers s l g col ds).hbm = s.hbm := by
  unfold discardDefers; split <;> rfl

@[simp] theorem leaveSlot_hbm (s : State) (id : Nat) : (leaveSlot s id).hbm = s.hbm := by
  unfold leaveSlot; split <;> simp

@[simp] theorem discardGang_hbm (by_ : KillBy) (s : State) (l : Launch) (g : Gang) : (discardGang by_ s l g).hbm = s.hbm := by
  simp [discardGang]

@[simp] theorem killGang_hbm (by_ : KillBy) (l : Launch) (s : State) (g : Gang) : (killGang by_ l s g).hbm = s.hbm := by
  simp [killGang]

@[simp] theorem killTower_hbm (by_ : KillBy) (s : State) (id : Nat) (t : Four) : (killTower by_ s id t).hbm = s.hbm := by
  fun_cases killTower by_ s id t with
  | case1 | case2 => rfl
  | case3 => exact foldl_hbm fun _ _ => killGang_hbm ..

@[simp] theorem divertGang_hbm (l : Launch) (cause : BitVec 4) (s : State) (g : Gang) : (divertGang l cause s g).hbm = s.hbm := by
  unfold divertGang; split <;> simp

/-! ### Of Machine/Gangs -/

@[simp] theorem takeSlot_hbm (s : State) (t : Four) (gang first n : Nat) : (takeSlot s t gang first n).hbm = s.hbm := rfl
@[simp] theorem wakeCores_hbm (s : State) (t : Four) (col : Nat) (ks : List Four) :
    (wakeCores s t col ks).hbm = s.hbm := foldl_hbm fun _ _ => rfl

@[simp] theorem startGang_hbm (s : State) (l : Launch) (t : Four) (num col base : Nat) (ks : List Four) :
    (startGang s l t num col base ks).hbm = s.hbm := by
  simp [startGang]

@[simp] theorem rejoinRacq_hbm (s : State) (g : Gang) (ws : List Wg) : (rejoinRacq s g ws).hbm = s.hbm := foldl_hbm fun _ _ => rfl
@[simp] theorem leaveRacq_hbm (s : State) (t : Four) (col : Nat) (p : Nat × Nat × Nat → Bool) : (leaveRacq s t col p).hbm = s.hbm := rfl
@[simp] theorem failGroup_hbm (c : Ctx) (s : State) : (failGroup c s).hbm = s.hbm := by
  unfold failGroup; split <;> rfl

@[simp] theorem releasePark_hbm (s : State) (cu : Cursor) : (releasePark s cu).hbm = s.hbm := by
  refine withGroup_hbm fun c s => ?_
  split <;> simp

@[simp] theorem releaseCopies_hbm (s : State) : (releaseCopies s).hbm = s.hbm := rfl
@[simp] theorem releaseParks_hbm (s : State) :
    (releaseParks s).hbm = s.hbm := (foldl_hbm fun _ _ => releasePark_hbm _ _).trans (releaseCopies_hbm s)

@[simp] theorem restoreGang_hbm (s : State) (l : Launch) (g : Gang) (col base : Nat) (ks : List Four) :
    (restoreGang s l g col base ks).hbm = s.hbm := by
  unfold restoreGang; split <;> simp

@[simp] theorem placeNext_hbm (s : State) (l : Launch) (t : Four) (n : NextGang) (x : Nat × Nat × List Four) :
    (placeNext s l t n x).hbm = s.hbm := by
  unfold placeNext; split <;> simp

@[simp] theorem beginSave_hbm (cause : SaveCause) (s : State) (id : Nat) : (beginSave cause s id).hbm = s.hbm := rfl
@[simp] theorem evictGangs_hbm (s : State) (l : Launch) (t : Four) (n : NextGang) : (evictGangs s l t n).hbm = s.hbm := by
  fun_cases evictGangs s l t n with
  | case1 | case2 | case4 => rfl
  | case3 => exact foldl_hbm fun _ _ => beginSave_hbm ..

@[simp] theorem gbarSaves_hbm (s : State) (l : Launch) (t : Four) : (gbarSaves s l t).hbm = s.hbm := by
  unfold gbarSaves; split <;> simp

@[simp] theorem offerLaunch_hbm (t : Four) (freed : Option Nat) (id fuel : Nat) (s : State) :
    (offerLaunch t freed id fuel s).hbm = s.hbm := by
  fun_induction offerLaunch t freed id fuel s <;> simp_all

@[simp] theorem offer_hbm (s : State) (t : Four) (freed : Option Nat) :
    (offer s t freed).hbm = s.hbm := foldl_hbm fun _ _ => offerLaunch_hbm ..

@[simp] theorem endSave_hbm (s : State) (id : Nat) : (s.endSave id).hbm = s.hbm := by
  fun_cases State.endSave s id <;> simp +zetaDelta

@[simp] theorem afterSave_hbm (s : State) (t : Four) (col : Nat) (cause : SaveCause) : (afterSave s t col cause).hbm = s.hbm := by
  unfold afterSave; split <;> simp

@[simp] theorem offerUrgent_hbm (s : State) (t : Four) (id : Nat) :
    (offerUrgent s t id).hbm = s.hbm := foldl_hbm fun _ _ => offerLaunch_hbm ..

@[simp] theorem retireFault_hbm (l : Launch) (g : Gang) (kind : Byte) (s : State) (w : Nat) (va : DWord) (cause need : Byte) :
    (retireFault l g kind s w va cause need).hbm = s.hbm := rfl

@[simp] theorem retireRecords_hbm (s : State) (l : Launch) (g : Gang) :
    (retireRecords s l g).hbm = s.hbm := (foldl_hbm fun _ _ => retireFault_hbm ..).trans (foldl_hbm fun _ _ => retireFault_hbm ..)

@[simp] theorem retireCopies_hbm (l : Launch) (g : Gang) (s : State) (w : Wg) :
    (retireCopies l g s w).hbm = s.hbm := by unfold retireCopies; dsimp only; split <;> simp

/-! ### Of Machine/Launch -/

@[simp] theorem changePhase_hbm (s : State) (a : Accepting) (id : Nat) (map : List Four) (phase : Half) :
    (changePhase s a id map phase).hbm = s.hbm := by
  have h : ∀ us : List Four, (us.foldl (fun s u => phaseAcquire s u a.q.asid (some id)) s).hbm = s.hbm := fun _ => foldl_hbm fun _ _ => by simp
  fun_cases changePhase s a id map phase <;> simp [h]

/-! ### Of Machine/Queues -/

@[simp] theorem reportNode_hbm (s : State) (t : Four) (q : Queue) (ctr : Word) (va : DWord) (cause need : Byte) :
    (reportNode s t q ctr va cause need).hbm = s.hbm := rfl

@[simp] theorem startNode_hbm (s : State) (t : Four) (q : Queue) (n : Node) : (startNode s t q n).hbm = s.hbm := by
  simp [startNode]

@[simp] theorem overNode_hbm (s : State) (t : Four) (q : Queue) (n : Node) (state : Byte) (status : Half) :
    (overNode s t q n state status).hbm = s.hbm := rfl

@[simp] theorem nodeFault_hbm (s : State) (t : Four) (q : Queue) (n : Node) (va : DWord) (f : Conf) (need : Need) :
    (nodeFault s t q n va f need).hbm = s.hbm := rfl

@[simp] theorem appendRecords_hbm (t : Four) (k : Nat) (rs : List (List Byte)) (s : State) : (appendRecords t k rs s).hbm = s.hbm := by
  fun_induction appendRecords t k rs s <;> simp_all

/-! ### Of Machine/Power -/

@[simp] theorem sampleAll_hbm (s : State) (t : Four) (samples : List Nat) : (sampleAll s t samples).hbm = s.hbm := rfl
@[simp] theorem reportTrip_hbm (s : State) (t : Four) (col : Nat) (k : Four) : (reportTrip s t col k).hbm = s.hbm := rfl
@[simp] theorem tripCore_hbm (t : Four) (s : State) (x : Nat × Four) :
    (tripCore t s x).hbm = s.hbm := (foldl_hbm fun _ _ => by simp).trans ((foldl_hbm fun _ _ => endMove_hbm _ _).trans (reportTrip_hbm ..))

@[simp] theorem gateTripped_hbm (t : Four) (s : State) (x : Nat × Four) : (gateTripped t s x).hbm = s.hbm := by
  simp [gateTripped]

@[simp] theorem setMove_hbm (s : State) (gang member : Nat) (m : Option LayerMove) : (s.setMove gang member m).hbm = s.hbm := rfl
@[simp] theorem chooseLayer_hbm (t : Four) (s : State) (x : Nat × Four) : (chooseLayer t s x).hbm = s.hbm := by
  fun_cases chooseLayer t s x <;> simp +zetaDelta

@[simp] theorem chooseColumn_hbm (t : Four) (s : State) (col : Nat) : (chooseColumn t s col).hbm = s.hbm := by
  fun_cases chooseColumn t s col <;> simp +zetaDelta

@[simp] theorem countHot_hbm (s : State) (t : Four) : (countHot s t).hbm = s.hbm := rfl
@[simp] theorem giveRatios_hbm (t : Four) (col : Nat) (ks : List Four) (left : Nat) (s : State) :
    (giveRatios t col ks left s).hbm = s.hbm := by
  fun_induction giveRatios t col ks left s <;> simp_all

@[simp] theorem columnRatios_hbm (t : Four) (s : State) (col : Nat) : (columnRatios t s col).hbm = s.hbm := by
  simp [columnRatios]

@[simp] theorem evaluate_hbm (s : State) (t : Four) (samples : List Nat) : (evaluate s t samples).hbm = s.hbm := by
  unfold evaluate
  extract_lets cores before s1 trips s2 s3 s4 s5
  have h1 : s1.hbm = s.hbm := by simp [s1]
  have h2 : s2.hbm = s1.hbm := (foldl_hbm fun _ _ => gateTripped_hbm ..).trans (foldl_hbm fun _ _ => tripCore_hbm ..)
  have h3 : s3.hbm = s2.hbm := by
    simp only [s3]
    split
    · rfl
    · exact (foldl_hbm fun _ _ => chooseLayer_hbm ..).trans (foldl_hbm fun _ _ => chooseColumn_hbm ..)
  have h4 : s4.hbm = s3.hbm := foldl_hbm fun _ _ => by simp
  have h5 : s5.hbm = s.hbm := (h4.trans h3).trans (h2.trans h1)
  split
  · exact h5
  · exact (offer_hbm ..).trans h5

@[simp] theorem crossTo_hbm (s : State) (g : Gang) (member : Nat) (k : Four) (leaving : Option (Nat × Nat)) :
    (crossTo s g member k leaving).hbm = s.hbm := by
  fun_cases crossTo s g member k leaving <;> simp +zetaDelta

/-! ### Of Machine/Rings -/

@[simp] theorem mapStrand_hbm (s : State) (gang trap : Nat) (f : Option Stop → Bead → Bead) : (s.mapStrand gang trap f).hbm = s.hbm := rfl
@[simp] theorem mapTrapped_hbm (s : State) (gang trap : Nat) (f : Bead → Bead) : (s.mapTrapped gang trap f).hbm = s.hbm := rfl
@[simp] theorem divertStrand_hbm (s : State) (r : RingRec) (cause : BitVec 4) (again : Bool) :
    (divertStrand s r cause again).hbm = s.hbm := by
  unfold divertStrand; split <;> simp

@[simp] theorem strandOut_hbm (s : State) (t : Four) (r : RingRec) : (strandOut s t r).hbm = s.hbm := by
  unfold strandOut; split <;> simp

@[simp] theorem updHeld_hbm (s : State) (t : Four) (id : Nat) (f : RingRec → RingRec) : (s.updHeld t id f).hbm = s.hbm := rfl
@[simp] theorem resumeStrand_hbm (s : State) (t : Four) (r : RingRec) (block : List Byte) : (resumeStrand s t r block).hbm = s.hbm := by
  unfold resumeStrand; split <;> simp

@[simp] theorem badTrapReply_hbm (s : State) (t : Four) : (badTrapReply s t).hbm = s.hbm := rfl
@[simp] theorem markParks_hbm (s : State) (id : Nat) (f : Park → Park) : (markParks s id f).hbm = s.hbm := rfl
@[simp] theorem retryRecord_hbm (s : State) (id : Nat) : (retryRecord s id).hbm = s.hbm := by
  simp [retryRecord]

@[simp] theorem failCopy_hbm (id : Nat) (s : State) (x : Gang × Copy) : (failCopy id s x).hbm = s.hbm := by
  unfold failCopy; split <;> simp

@[simp] theorem failRecord_hbm (s : State) (id : Nat) :
    (failRecord s id).hbm = s.hbm := (releaseParks_hbm _).trans (foldl_hbm fun _ _ => failCopy_hbm _ _ _)

@[simp] theorem faultReply_hbm (s : State) (t : Four) (index : Word) (kind : BitVec 2) : (faultReply s t index kind).hbm = s.hbm := by
  fun_cases faultReply s t index kind <;> simp +zetaDelta

/-! ### Of Machine/Boot -/

@[simp] theorem lead_hbm (s : State) (t : Four) (epoch : Half) : (lead s t epoch).hbm = s.hbm := rfl
@[simp] theorem minimalMode_hbm (s : State) : (minimalMode s).hbm = s.hbm := by
  fun_cases minimalMode s <;> simp +zetaDelta

@[simp] theorem readyAll_hbm (s : State) : (readyAll s).hbm = s.hbm := rfl
@[simp] theorem startStage_hbm (s : State) (starts : Quad TowerStart) (state : Nat) (f : TowerStart → Tower → Tower × Option Byte) :
    (startStage s starts state f).1.hbm = s.hbm := rfl

@[simp] theorem minimalStart_hbm (s : State) (starts : Quad TowerStart) : (minimalStart s starts).hbm = s.hbm := by
  simp [minimalStart]

@[simp] theorem cancelMoves_hbm (s : State) (t : Four) (cols : List Nat) : (cancelMoves s t cols).hbm = s.hbm := by
  refine (offer_hbm ..).trans ((foldl_hbm fun _ _ => endSave_hbm _ _).trans (foldl_hbm fun s g => ?_))
  split
  · split <;> simp
  · rfl

@[simp] theorem concludeUnit_hbm (s : State) (t : Four) (unit index sub : Byte) (v : TestVerdict) :
    (concludeUnit s t unit index sub v).hbm = s.hbm := rfl

theorem claimLease_hbm (s : State) (t : Four) : ∀ u, claimLease s t = some u → u.hbm = s.hbm := by
  intro u h
  simp only [claimLease] at h
  split at h <;> cases h
  exact lead_hbm ..

/-! ### Of Machine/Links -/

@[simp] theorem setPort_hbm (s : State) (t k : Four) (p : Port) : (setPort s t k p).hbm = s.hbm := by
  simp [setPort]

@[simp] theorem endSecond_hbm (s : State) (t k : Four) : (endSecond s t k).hbm = s.hbm := by
  simp [endSecond]

@[simp] theorem countRetries_hbm (s : State) : (countRetries s).hbm = s.hbm := rfl
@[simp] theorem portSeconds_hbm (s : State) (t : Four) : (portSeconds s t).hbm = s.hbm := foldl_hbm fun s k => by split <;> simp

/-! ### Of Machine/Admin -/

@[simp] theorem discardLine_hbm (t : Four) (col : Nat) (s : State) (l : AccLine) : (discardLine t col s l).hbm = s.hbm := rfl
@[simp] theorem applyMask_hbm (s : State) : (applyMask s).hbm = s.hbm := foldl_hbm fun s t => foldl_hbm fun s k => by split <;> simp

/-! ### Of Machine/Fetch -/

@[simp] theorem tick_hbm (s : State) : (tick s).hbm = s.hbm := rfl
@[simp] theorem passTurn_hbm (c : Ctx) (s : State) : (c.passTurn s).hbm = s.hbm := rfl

/-! ### Of Machine/Between -/

@[simp] theorem takeDue_hbm (s : State) : (takeDue s).hbm = s.hbm := rfl
@[simp] theorem freeGang_hbm (s : State) (g : Gang) : (freeGang s g).hbm = s.hbm := by
  simp only [freeGang, offer_hbm, serveColumn_hbm]
  refine foldl_hbm fun s k => ?_
  simp only [reclass_hbm]
  split <;> rfl

@[simp] theorem freeEnded_hbm (s : State) : (freeEnded s).hbm = s.hbm := foldl_hbm fun _ _ => freeGang_hbm _ _
@[simp] theorem announceGbars_hbm (s : State) : (announceGbars s).hbm = s.hbm := foldl_hbm fun _ _ => announceGbar_hbm _ _
@[simp] theorem saveGbars_hbm (s : State) : (saveGbars s).hbm = s.hbm := foldl_hbm fun _ _ => foldl_hbm fun _ _ => gbarSaves_hbm _ _ _

/-! ### Of Machine/Host -/

@[simp] theorem writePlain_hbm (t : Four) (off : Nat) (v : DWord) (s : State) : (writePlain t off v s).hbm = s.hbm := rfl

end Sys2Proof.Machine
end

