-- ==== Sys2Proof/Proofs/MemoryForm.lean ====
section
/-!
SUPPORT. What keeps the canonical form of module memory: every operation that may reach HBM.
-/

set_option Elab.async false

namespace Sys2Proof.Machine

/-! ### Lists of writes and of steps -/

/-- Bytes set one after another keep the canonical form. -/
theorem Memory.wf_foldl_set {α : Type} {a : α → Nat} {b : α → Byte} {l : List α} {m : Memory} (w : m.wf) :
    (l.foldl (fun m x => m.set (a x) (b x)) m).wf := by
  induction l generalizing m with
  | nil => exact w
  | cons x l ih => exact ih (wf_set w)

@[simp] theorem Memory.wf_ite {p : Prop} [Decidable p] {m n : Memory} : (if p then m else n).wf = if p then m.wf else n.wf :=
  apply_ite Memory.wf p m n

/-- Steps that each keep the canonical form keep it one after another. -/
theorem foldl_wf {α : Type} {f : State → α → State} {l : List α} {s : State} (h : ∀ s a, s.hbm.wf → (f s a).hbm.wf) (w : s.hbm.wf) :
    (l.foldl f s).hbm.wf := by
  induction l generalizing s with
  | nil => exact w
  | cons a l ih => exact ih (h s a w)

/-- The same of steps that gather something beside the state. -/
theorem foldl_fst_wf {α β : Type} {f : State × β → α → State × β} {l : List α} {r : State × β}
    (h : ∀ r a, r.1.hbm.wf → (f r a).1.hbm.wf) (w : r.1.hbm.wf) : (l.foldl f r).1.hbm.wf := by
  induction l generalizing r with
  | nil => exact w
  | cons a l ih => exact ih (h r a w)

/-- What a step does in a group keeps the canonical form if its effect does. -/
theorem withGroup_wf {s : State} {cu : Cursor} {f : Ctx → State → State} (h : ∀ c s, s.hbm.wf → (f c s).hbm.wf) (w : s.hbm.wf) :
    (withGroup s cu f).hbm.wf := by
  unfold withGroup
  split
  · exact w
  · exact h _ { s with cur := some cu } w

/-! ### HBM and the home L2 (R95 to R98, R133) -/

section
variable {s : State} (w : s.hbm.wf)
include w

@[simp] theorem flushBankLine_wf {pa : Nat} : (flushBankLine s pa).hbm.wf :=
  Memory.wf_foldl_set (a := BankByte.pa) (b := BankByte.byte) w

@[simp] theorem writeBack_wf {l : Line} : (writeBack s l).hbm.wf := by
  unfold writeBack
  dsimp only
  split
  · rw [chargeWrite_hbm]
    exact Memory.wf_foldl_set (flushBankLine_wf w)
  · exact flushBankLine_wf w

@[simp] theorem remapFilter_wf {t : Four} {asid : Half} {va : DWord} {pa : Nat} : (remapFilter s t asid va pa).hbm.wf :=
  foldl_wf (fun _ _ w => writeBack_wf w) w

@[simp] theorem roomL2_wf {t : Four} : (roomL2 s t).hbm.wf := by
  unfold roomL2
  dsimp only
  split
  · exact w
  · split
    · exact w
    · exact writeBack_wf w

/-- The state in which a copy of the line under another name has been written back, where the line is not present. -/
theorem remapFilter_remember_wf {t : Four} {asid : Half} {va : DWord} {pa : Nat} : (remapFilter (remember s asid va) t asid va pa).hbm.wf :=
  remapFilter_wf (by simpa using w)

@[simp] theorem homeFill_wf {asid : Half} {va : DWord} {h : Hit} : (homeFill s asid va h).1.hbm.wf := by
  fun_cases homeFill s asid va h with
  | case1 => exact w
  | case2 => simpa using w
  | case3 | case4 => simp_all +zetaDelta

/-- A write at the home L2 keeps the canonical form, whether its bytes wait in the controller, go to HBM or stay in the line. -/
@[simp] theorem homeWrite_wf {asid : Half} {va : DWord} {bs : List Byte} {h : Hit} : (homeWrite s asid va bs h).hbm.wf := by
  unfold homeWrite
  extract_lets t at_ there s1 queued l s2
  have w1 : s1.hbm.wf := by
    simp only [s1]
    split
    · exact w
    · exact remapFilter_remember_wf w
  suffices w2 : s2.hbm.wf by simpa using w2
  simp only [s2]
  split
  · simpa using w1
  · split
    · rw [chargeWrite_hbm]
      exact Memory.wf_write w1
    · split
      · exact w1
      · exact roomL2_wf w1

end

/-! ### Of Machine/Cache -/

@[simp] theorem storeHome_wf {s : State} {r : StoreRec} (w : s.hbm.wf) : (storeHome s r).hbm.wf := by
  simp [storeHome, w]

@[simp] theorem advanceStore_wf {s : State} {r : StoreRec} (w : s.hbm.wf) : (advanceStore s r).hbm.wf := by
  simp [advanceStore, w]

@[simp] theorem pushPassed_wf {s : State} {t : Four} {pa : Nat} (w : s.hbm.wf) : (pushPassed s t pa).hbm.wf := by
  unfold pushPassed
  exact foldl_wf (fun _ _ w => by simp [w]) w

@[simp] theorem pushStores_wf {s : State} {t : Four} {c : Nat} {asid : Half} {va : DWord} {pa : Nat} (w : s.hbm.wf) :
    (pushStores s t c asid va pa).hbm.wf := by
  refine foldl_wf (fun s r w => ?_) (pushPassed_wf w)
  dsimp only
  split
  · split <;> simp [w]
  · simp [w]

@[simp] theorem towerFill_wf {s : State} {t : Four} {asid : Half} {va : DWord} {h : Hit} (w : s.hbm.wf) :
    (towerFill s t asid va h).1.hbm.wf := by
  fun_cases towerFill s t asid va h <;> simp +zetaDelta [w]

@[simp] theorem towerRead_wf {s : State} {t : Four} {asid : Half} {va : DWord} {n : Nat} {h : Hit} (w : s.hbm.wf) :
    (towerRead s t asid va n h).1.hbm.wf := by
  simp [towerRead, w]

@[simp] theorem homeRead_wf {s : State} {asid : Half} {va : DWord} {n : Nat} {h : Hit} (w : s.hbm.wf) :
    (homeRead s asid va n h).1.hbm.wf := by
  simp [homeRead, w]

/-! ### Of Machine/Reduce -/

theorem reduceHome_wf {s : State} {who : Option Nat} {t : Four} {c : Nat} {asid : Half} {va : DWord} {op : RedOp}
    {y : DWord} {u : State} (e : reduceHome s who t c asid va op y = .ok u) (w : s.hbm.wf) : u.hbm.wf := by
  unfold reduceHome at e
  split at e
  · cases e
    exact homeWrite_wf (homeRead_wf (by simpa using pushStores_wf w))
  · cases e

@[simp] theorem flushWord_wf {t : Four} {c : Nat} {sl : State × AccLine} {k : Nat} (w : sl.1.hbm.wf) : (flushWord t c sl k).1.hbm.wf := by
  unfold flushWord
  dsimp only
  split
  · exact w
  · split
    · rename_i e
      simpa using reduceHome_wf e w
    · split
      · simpa using w
      · exact w

@[simp] theorem evictAcc_wf {s : State} {t : Four} {c : Nat} {l : AccLine} (w : s.hbm.wf) : (evictAcc s t c l).hbm.wf := by
  unfold evictAcc
  exact foldl_fst_wf (fun _ _ w => by simp [w]) w

@[simp] theorem evictAll_wf {s : State} {t : Four} {c : Nat} {p : AccLine → Bool} (w : s.hbm.wf) : (evictAll s t c p).hbm.wf := by
  unfold evictAll
  exact foldl_wf (fun _ _ w => by simp [w]) w

@[simp] theorem evictTower_wf {s : State} {t : Four} {p : AccLine → Bool} (w : s.hbm.wf) : (evictTower s t p).hbm.wf := by
  unfold evictTower
  exact foldl_wf (fun _ _ w => by simp [w]) w

@[simp] theorem reflushes_wf {s : State} {t : Four} (w : s.hbm.wf) : (reflushes s t).hbm.wf := by
  simp [reflushes, w]

@[simp] theorem evictFor_wf {s : State} {t : Four} {c : Nat} {asid : Half} {va : DWord} (w : s.hbm.wf) :
    (evictFor s t c asid va).hbm.wf := by
  simp [evictFor, w]

@[simp] theorem roomCol_wf {n : Nat} {s : State} {t : Four} {c : Nat} (w : s.hbm.wf) : (roomCol n s t c).1.hbm.wf := by
  fun_induction roomCol n s t c <;> simp_all +zetaDelta

@[simp] theorem makeRoom_wf {s : State} {t : Four} {c : Nat} (w : s.hbm.wf) : (makeRoom s t c).1.hbm.wf := by
  simp [makeRoom, w]

@[simp] theorem colFill_wf {s : State} {t : Four} {c : Nat} {asid : Half} {va : DWord} {h : Hit} {na : Bool} (w : s.hbm.wf) :
    (colFill s t c asid va h na).1.hbm.wf := by
  fun_cases colFill s t c asid va h na <;> simp +zetaDelta [w]

@[simp] theorem colRead_wf {s : State} {t : Four} {c : Nat} {asid : Half} {va : DWord} {n : Nat} {h : Hit} {na : Bool} (w : s.hbm.wf) :
    (colRead s t c asid va n h na).1.hbm.wf := by
  simp [colRead, w]

@[simp] theorem contribute_wf {s : State} {r : Red} (w : s.hbm.wf) : (contribute s r).1.hbm.wf := by
  unfold contribute
  extract_lets s1 m l
  have w1 : s1.hbm.wf := by
    simp only [s1]
    split
    · split
      · exact evictAcc_wf w
      · exact w
    · exact w
  have wm : m.1.hbm.wf := makeRoom_wf (by simpa using w1)
  split
  · split
    · simpa using w1
    · exact w1
  · split
    · simpa using wm
    · exact wm

@[simp] theorem applyRed_wf {s : State} {r : Red} (w : s.hbm.wf) : (applyRed s r).hbm.wf := by
  fun_cases applyRed s r with
  | case1 | case2 => simp_all +zetaDelta
  | case3 _ s1 h => simpa using reduceHome_wf h w
  | case4 => simpa using w

@[simp] theorem applyAll_wf {s : State} {rs : List Red} (w : s.hbm.wf) :
    (applyAll s rs).hbm.wf := foldl_wf (fun _ _ w => by split <;> simp [w]) w

@[simp] theorem applyOwn_wf {s : State} {gang member home pos issued : Nat} {asid : Half} {va : DWord} {n : Nat} (w : s.hbm.wf) :
    (applyOwn s gang member home pos issued asid va n).hbm.wf := by
  simp [applyOwn, w]

@[simp] theorem applyGang_wf {s : State} {gang : Nat} (w : s.hbm.wf) : (applyGang s gang).hbm.wf := by
  simp [applyGang, w]

@[simp] theorem retryDefer_wf {t : Four} {c : Nat} {asid : Half} {gang : Nat} {s : State} {d : Defer} (w : s.hbm.wf) :
    (retryDefer t c asid gang s d).hbm.wf := by
  unfold retryDefer
  split
  · rename_i h
    exact reduceHome_wf h w
  · simpa using w

@[simp] theorem retryDefers_wf {s : State} {g : Gang} {asid : Half} (w : s.hbm.wf) :
    (retryDefers s g asid).hbm.wf := evictTower_wf (foldl_wf (fun _ _ w => retryDefer_wf w) w)

@[simp] theorem replaceLine_wf {s : State} {level : Level} {t : Four} {c : Nat} {asid : Half} {va : DWord} (w : s.hbm.wf) :
    (replaceLine s level t c asid va).hbm.wf := by
  fun_cases replaceLine s level t c asid va with
  | case1 | case5 => exact w
  | case2 => simpa using w
  | case3 => simp [w]
  | case4 => exact foldl_wf (fun _ _ w => writeBack_wf w) w

@[simp] theorem drainBank_wf {s : State} {t : Four} {k : Nat} (w : s.hbm.wf) : (drainBank s t k).hbm.wf := by
  fun_cases drainBank s t k with
  | case1 | case2 => exact w
  | case3 => exact Memory.wf_set w

/-! ### Of Machine/Access -/

@[simp] theorem readAt_wf {s : State} {t : Four} {col : Nat} {asid : Half} {va : DWord} {n : Nat} {scope : BitVec 3} {h : Hit} (w : s.hbm.wf) :
    (readAt s t col asid va n scope h).1.hbm.wf := by
  fun_cases readAt s t col asid va n scope h <;> simp +zetaDelta [w]

@[simp] theorem ownFirst_wf {c : Ctx} {s : State} {b : Bead} {va : DWord} {n : Nat} (w : s.hbm.wf) : (c.ownFirst s b va n).hbm.wf := by
  simp [Ctx.ownFirst, w]

@[simp] theorem rmw_wf {c : Ctx} {s : State} {b : Bead} {scope : BitVec 3} {va : DWord} {n op stage : Nat} {h : Hit} {f : Nat → Nat} (w : s.hbm.wf) :
    (c.rmw s b scope va n op stage h f).1.hbm.wf := by
  unfold Ctx.rmw
  split
  · simp [w]
  · exact homeWrite_wf (homeRead_wf (by simpa using pushStores_wf w))

@[simp] theorem clear_wf {c : Ctx} {s : State} {writes fills : Bool} {xs : List Touch} (w : s.hbm.wf) :
    (c.clear s writes fills xs).hbm.wf := by
  have own : ∀ s : State, s.hbm.wf → (xs.foldl (fun s x => c.ownFirst s x.b x.va x.n) s).hbm.wf := fun _ => foldl_wf fun _ _ w => ownFirst_wf w
  unfold Ctx.clear
  extract_lets s1 s2
  have w1 : s1.hbm.wf := by
    simp only [s1]
    split
    · exact own s w
    · exact w
  have w2 : s2.hbm.wf := foldl_wf (fun _ _ w => evictFor_wf w) w1
  split
  · exact makeRoom_wf w2
  · exact w2

/-! ### Of Machine/MemInstr -/

/-- A lane after lane reads, what each read keeps. -/
theorem readEach_wf {as : List LaneAcc} {rd : State → LaneAcc → State × List Byte} {wr : LaneAcc → List Byte → List RegWrite}
    {s : State} (h : ∀ s x, s.hbm.wf → (rd s x).1.hbm.wf) (w : s.hbm.wf) : (readEach as rd wr s).1.hbm.wf :=
  foldl_fst_wf (fun _ _ w => h _ _ w) w

/-- An access that is confirmed keeps the canonical form if its performance does. -/
theorem confirmed_wf {c : Ctx} {s : State} {need : Need} {as : List LaneAcc} {n : Nat} {writes fills : Bool}
    {perform : State → (DWord → Hit) → State} (h : ∀ s hit, s.hbm.wf → (perform s hit).hbm.wf) (w : s.hbm.wf) :
    (c.confirmed s need as n writes fills perform).hbm.wf := by
  unfold Ctx.confirmed
  split
  · rename_i e
    simpa [confFail_hbm c s e] using w
  · dsimp only
    split
    · exact clear_wf w
    · exact h _ _ (clear_wf w)

@[simp] theorem confirmVld_wf {c : Ctx} {s : State} {d a b : Reg} {g : BitVec 3} {na sx : BitVec 1} {size : BitVec 3} (w : s.hbm.wf) :
    (confirmVld c s d a b g na sx size).hbm.wf := confirmed_wf (fun s hit w => by simp [readEach_wf (fun s x w => colRead_wf w) w]) w

@[simp] theorem confirmVst_wf {c : Ctx} {s : State} {d a b : Reg} {g : BitVec 3} {na : BitVec 1} {size : BitVec 3} (w : s.hbm.wf) :
    (confirmVst c s d a b g na size).hbm.wf := confirmed_wf (fun s hit w => by simpa using w) w

@[simp] theorem confirmSld_wf {c : Ctx} {s : State} {d a b : Reg} {g : BitVec 3} {sx : BitVec 1} {size : BitVec 3} (w : s.hbm.wf) :
    (confirmSld c s d a b g sx size).hbm.wf := confirmed_wf (fun s hit w => by simp [readEach_wf (fun s x w => colRead_wf w) w]) w

@[simp] theorem confirmSst_wf {c : Ctx} {s : State} {d a b : Reg} {g size : BitVec 3} (w : s.hbm.wf) :
    (confirmSst c s d a b g size).hbm.wf := confirmed_wf (fun s hit w => by simpa using w) w

@[simp] theorem nextAtom_wf {c : Ctx} {s : State} {id : Nat} {as : List LaneAcc} {d : Reg} {scope : BitVec 3} {op : BitVec 5}
    {hits : List (DWord × Nat × Attr)} {olds : List DWord} (w : s.hbm.wf) :
    (c.nextAtom s id as d scope op hits olds).hbm.wf := by
  fun_cases Ctx.nextAtom c s id as d scope op hits olds <;> simp +zetaDelta [w]

@[simp] theorem confirmVatom_wf {c : Ctx} {s : State} {d a b : Reg} {scope : BitVec 3} {op : BitVec 5} (w : s.hbm.wf) :
    (confirmVatom c s d a b scope op).hbm.wf := by
  unfold confirmVatom
  dsimp only
  split
  · exact w
  · split
    · split
      · rename_i h
        simpa [confFail_hbm c s h] using w
      · exact nextAtom_wf w
    · exact nextAtom_wf w

@[simp] theorem confirmUnit_wf {c : Ctx} {s : State} (w : s.hbm.wf) : (confirmUnit c s).hbm.wf := by
  unfold confirmUnit
  split
  · exact confirmVld_wf w
  · exact confirmVst_wf w
  · exact confirmSld_wf w
  · exact confirmSst_wf w
  · exact confirmVatom_wf w
  · split
    · rename_i h
      simpa [confFail_hbm c s h] using w
    · simpa using w
  · exact w

/-! ### Of Machine/Copies -/

@[simp] theorem readRange_wf {c : Ctx} {s : State} {va : DWord} {n : Nat} (w : s.hbm.wf) :
    (c.readRange s va n).1.hbm.wf := foldl_fst_wf (fun r p w => by dsimp only; split <;> simp [w]) w

@[simp] theorem pieceRead_wf {s : State} {g : Gang} {asid : Half} {p : Piece} {h : Hit} (w : s.hbm.wf) :
    (pieceRead s g asid p h).1.hbm.wf := by
  fun_cases pieceRead s g asid p h <;> simp +zetaDelta [w]

@[simp] theorem copyHome_wf {s : State} {t : Four} {col : Nat} {asid : Half} {va : DWord} {bs : List Byte} {h : Hit} (w : s.hbm.wf) :
    (copyHome s t col asid va bs h).hbm.wf := by
  simp [copyHome, w]

@[simp] theorem movePiece_wf {g : Gang} {asid : Half} {hint : BitVec 2} {s : State} {p : Piece} (w : s.hbm.wf) :
    (movePiece g asid hint s p).hbm.wf := by
  fun_cases movePiece g asid hint s p <;> simp +zetaDelta [w]

@[simp] theorem clearPieces_wf {g : Gang} {asid : Half} {p : Copy} {s : State} {ps : List Piece} (w : s.hbm.wf) :
    (clearPieces g asid p s ps).hbm.wf := by
  refine foldl_wf (fun s x w => ?_) (foldl_wf (fun s x w => ?_) w)
  · split <;> simp [w]
  · split <;> simp [w]

@[simp] theorem moveSome_wf {s : State} {g : Gang} {asid : Half} {p : Copy} {moved : List Nat} (w : s.hbm.wf) :
    (moveSome s g asid p moved).1.hbm.wf := by
  unfold moveSome
  dsimp only
  split
  · exact clearPieces_wf w
  · exact foldl_wf (fun _ _ w => movePiece_wf w) (clearPieces_wf w)

/-! ### Of Machine/Tiles -/

@[simp] theorem readRanges_wf {c : Ctx} {s : State} {r : Ranges} (w : s.hbm.wf) :
    (c.readRanges s r).1.hbm.wf := foldl_fst_wf (fun r p w => by split <;> simp [w]) w

/-! ### Of Machine/Agents -/

@[simp] theorem sysRead_wf {s : State} {asid : Half} {va : DWord} {n : Nat} (w : s.hbm.wf) :
    (sysRead s asid va n).1.hbm.wf := foldl_fst_wf (fun r p w => by dsimp only; split <;> simp [w]) w

@[simp] theorem sysWrite_wf {s : State} {asid : Half} {va : DWord} {bs : List Byte} (w : s.hbm.wf) :
    (sysWrite s asid va bs).hbm.wf := foldl_wf (fun r p w => by dsimp only; split <;> simp [w]) w

@[simp] theorem sysWriteHit_wf {s : State} {asid : Half} {va : DWord} {bs : List Byte} {h : Hit} (w : s.hbm.wf) :
    (sysWriteHit s asid va bs h).hbm.wf := by
  unfold sysWriteHit
  exact foldl_wf (fun _ _ w => by simp [w]) w

@[simp] theorem sysReadNat_wf {s : State} {asid : Half} {va : DWord} {n : Nat} (w : s.hbm.wf) : (sysReadNat s asid va n).1.hbm.wf := by
  simp [sysReadNat, w]

@[simp] theorem physWriteLine_wf {s : State} {pa : Nat} {bs : List Byte} (w : s.hbm.wf) : (physWriteLine s pa bs).hbm.wf := by
  unfold physWriteLine
  dsimp only
  rw [updTower_hbm, snoop_hbm]
  exact Memory.wf_write (flushBankLine_wf w)

@[simp] theorem physWrite_wf {s : State} {pa : Nat} {bs : List Byte} (w : s.hbm.wf) : (physWrite s pa bs).hbm.wf := by
  unfold physWrite
  exact foldl_wf (fun _ _ w => by simp [w]) w

@[simp] theorem sysWritePin_wf {s : State} {asid : Half} {va : DWord} {bs : List Byte} (w : s.hbm.wf) :
    (sysWritePin s asid va bs).hbm.wf := by
  simp [sysWritePin, w]

@[simp] theorem mirror_wf {s : State} {t : Four} {num : Nat} (w : s.hbm.wf) : (mirror s t num).hbm.wf := by
  unfold mirror
  split
  · exact w
  · exact sysWritePin_wf (sysWritePin_wf (sysWritePin_wf w))

/-! ### Of Machine/Sync -/

@[simp] theorem settleWide_wf {c : Ctx} {s : State} (w : s.hbm.wf) : (settleWide c s).hbm.wf := by
  simp [settleWide, w]

@[simp] theorem announceSignal_wf {s : State} {asid : Half} {va x : DWord} (w : s.hbm.wf) :
    (announceSignal s asid va x).hbm.wf := foldl_wf (fun _ _ w => foldl_wf (fun _ _ w => mirror_wf w) w) (by simpa using w)

@[simp] theorem pollWord_wf {c : Ctx} {s : State} {x : Wait} (w : s.hbm.wf) : (pollWord c s x).1.hbm.wf := by
  fun_cases pollWord c s x <;> simp_all +zetaDelta

@[simp] theorem recheckWord_wf {c : Ctx} {s : State} (w : s.hbm.wf) : (recheckWord c s).hbm.wf := by
  unfold recheckWord
  extract_lets open_ glob ts xs fills s1 r s2
  split
  · rename_i e
    simpa [confFail_hbm c s e] using w
  · have w1 : s1.hbm.wf := clear_wf w
    have w2 : s2.hbm.wf := foldl_fst_wf (fun _ _ w => pollWord_wf w) w1
    split
    · exact w1
    · split
      · simpa using w2
      · exact w2

@[simp] theorem arriveOne_wf {c : Ctx} {scr : BitVec 1} {scope : BitVec 3} {s : State} {x : LaneAcc} (w : s.hbm.wf) :
    (arriveOne c scr scope s x).1.hbm.wf := by
  unfold arriveOne
  extract_lets new o r a
  have wr : r.1.hbm.wf := by
    simp only [r]
    split
    · simpa using w
    · split
      · exact rmw_wf w
      · exact w
  exact wr

@[simp] theorem arrivals_wf {c : Ctx} {x : Wait} {scr : BitVec 1} {scope : BitVec 3} {d : Reg} {wait : Bool} {s : State} {as : List LaneAcc} (w : s.hbm.wf) :
    (arrivals c x scr scope d wait s as).1.hbm.wf := foldl_fst_wf (fun r x w => by
    have w1 := arriveOne_wf (c := c) (scr := scr) (scope := scope) (x := x) w
    dsimp only
    split <;> split <;> simpa using w1) w

@[simp] theorem arriveAll_wf {c : Ctx} {s : State} {i : Instr} {d a : Reg} {scr : BitVec 1} {scope : BitVec 3} {wait : Bool} (w : s.hbm.wf) :
    (arriveAll c s i d a scr scope wait).hbm.wf := by
  unfold arriveAll
  extract_lets as xs fills s1 r s2
  split
  · simpa using w
  · split
    · rename_i e
      split at e
      · cases e
      · simpa [confFail_hbm c s e] using w
    · have w1 : s1.hbm.wf := clear_wf w
      have w2 : s2.hbm.wf := arrivals_wf (by simpa using w1)
      split
      · simpa using w1
      · split <;> simpa using w2

@[simp] theorem signalOne_wf {c : Ctx} {set : BitVec 1} {scope : BitVec 3} {d : Reg} {s : State} {x : LaneAcc} (w : s.hbm.wf) :
    (signalOne c set scope d s x).hbm.wf := by
  fun_cases signalOne c set scope d s x <;> simp +zetaDelta [w]

@[simp] theorem recheckGroup_wf {c : Ctx} {s : State} (w : s.hbm.wf) : (recheckGroup c s).hbm.wf := by
  fun_cases recheckGroup c s <;> simp +zetaDelta [w]

@[simp] theorem parkedChecks_wf {s : State} {t : Four} (w : s.hbm.wf) : (parkedChecks s t).hbm.wf := by
  unfold parkedChecks
  dsimp only
  split
  · exact foldl_wf (fun _ _ w => by simpa using w) w
  · exact w

/-! ### Of Machine/Ending -/

@[simp] theorem finishLaunch_wf {s : State} {l : Launch} (w : s.hbm.wf) : (finishLaunch s l).hbm.wf := by
  simp [finishLaunch, w]

@[simp] theorem checkDone_wf {s : State} {id : Nat} (w : s.hbm.wf) : (checkDone s id).hbm.wf := by
  fun_cases checkDone s id <;> simp +zetaDelta [w]

@[simp] theorem leaveSlots_wf {s : State} (w : s.hbm.wf) : (leaveSlots s).hbm.wf := by
  unfold leaveSlots
  exact foldl_wf (fun _ _ w => by simp [w]) w

@[simp] theorem killLaunch_wf {by_ : KillBy} {s : State} {id : Nat} (w : s.hbm.wf) : (killLaunch by_ s id).hbm.wf := by
  unfold killLaunch
  split
  · exact w
  · exact checkDone_wf (foldl_wf (fun _ _ w => by simpa using w) w)

@[simp] theorem divertTower_wf {cause : BitVec 4} {s : State} {id : Nat} {t : Four} (w : s.hbm.wf) : (divertTower cause s id t).hbm.wf := by
  unfold divertTower
  split
  · exact w
  · dsimp only
    split
    · exact w
    · refine checkDone_wf ?_
      split
      · exact foldl_wf (fun _ _ w => by simpa using w) w
      · exact w

@[simp] theorem divertLaunch_wf {cause : BitVec 4} {by_ : KillBy} {s : State} {id : Nat} {t : Four} (w : s.hbm.wf) :
    (divertLaunch cause by_ s id t).hbm.wf := by
  fun_cases divertLaunch cause by_ s id t <;> simp +zetaDelta [w]

@[simp] theorem dueIn_wf {id : Nat} {s : State} {t : Four} (w : s.hbm.wf) : (dueIn id s t).hbm.wf := by
  fun_cases dueIn id s t <;> simp +zetaDelta [w]

@[simp] theorem launchesDue_wf {s : State} (w : s.hbm.wf) :
    (launchesDue s).hbm.wf := foldl_wf (fun _ _ w => foldl_wf (fun _ _ w => dueIn_wf w) w) w

/-! ### Of Machine/Gangs -/

@[simp] theorem pushGang_wf {s : State} {g : Gang} {asid : Half} (w : s.hbm.wf) : (pushGang s g asid).hbm.wf := by
  unfold pushGang
  exact foldl_wf (fun _ _ w => by simp [w]) w

@[simp] theorem saveGang_wf {s : State} {l : Launch} {g : Gang} {cause : SaveCause} {first : Nat} (w : s.hbm.wf) :
    (saveGang s l g cause first).hbm.wf := by
  fun_cases saveGang s l g cause first <;> simp +zetaDelta [w]

@[simp] theorem reportRetire_wf {s : State} {l : Launch} {g : Gang} (w : s.hbm.wf) : (reportRetire s l g).hbm.wf := by
  unfold reportRetire
  split
  · exact w
  · have w1 := retryDefers_wf (g := g) (asid := l.asid) (evictAll_wf (t := g.tower) (c := g.col) (p := fun x => x.asid == l.asid) w)
    exact foldl_wf (fun _ _ w => by simpa using w) (by simpa using w1)

/-! ### Of Machine/Launch -/

theorem readPart_wf {asid : Half} {pin : Bool} {s : State} {va : DWord} {n : Nat} {u} (e : readPart asid pin s va n = some u) (w : s.hbm.wf) :
    u.1.hbm.wf := by
  unfold readPart at e
  split at e <;> cases e
  exact sysRead_wf w

theorem readParts_wf {asid : Half} {s : State} {xs : List (DWord × Nat)} {u} (e : readParts asid s xs = some u) (w : s.hbm.wf) :
    u.1.hbm.wf := by
  fun_induction readParts asid s xs generalizing u with
  | case1 => cases e; exact w
  | case2 => cases e
  | case3 s va n rest s1 bs h ih =>
    obtain ⟨r, hr, rfl⟩ := Option.map_eq_some_iff.mp e
    exact ih (u := r) hr (readPart_wf h w)

/-- A part that is read only where it is there. -/
theorem readPartUnless_wf {p : Prop} [Decidable p] {asid : Half} {pin : Bool} {s : State} {va : DWord} {n : Nat} {x : List Byte} {u}
    (e : (if p then some (s, x) else readPart asid pin s va n) = some u) (w : s.hbm.wf) : u.1.hbm.wf := by
  split at e
  · cases e; exact w
  · exact readPart_wf e w

theorem launchReads_wf {s : State} {asid : Half} {nb : List Byte} {u} (e : launchReads s asid nb = some u) (w : s.hbm.wf) :
    u.1.hbm.wf := by
  revert e
  fun_cases launchReads s asid nb with
  | case1 | case2 | case3 | case4 | case5 | case6 | case7 => simp
  | case8 _ _ _ s1 _ h1 s2 _ h2 _ _ s3 _ h3 s4 _ h4 _ s5 _ h5 s6 _ h6 s7 _ h7 =>
    intro e
    cases e
    have w4 := readParts_wf h4 (readParts_wf h3 (readPart_wf h2 (readPart_wf h1 w)))
    exact readPartUnless_wf h7 (readPartUnless_wf h6 (readPartUnless_wf h5 w4))

@[simp] theorem refuseLaunch_wf {s : State} {a : Accepting} {h : Option Hit} {code : Byte} (w : s.hbm.wf) :
    (refuseLaunch s a h code).hbm.wf := by
  unfold refuseLaunch
  dsimp only
  split <;> simp [w]

@[simp] theorem takeLaunch_wf {s : State} {a : Accepting} {l : Launch} (w : s.hbm.wf) : (takeLaunch s a l).hbm.wf := by
  unfold takeLaunch
  extract_lets l1 s1 s2 now
  have w2 : s2.hbm.wf := by simpa [s2, s1] using w
  split
  · exact foldl_wf (fun _ _ w => divertTower_wf w) w2
  · simpa using w2

@[simp] theorem acceptLaunch_wf {s : State} {a : Accepting} (w : s.hbm.wf) : (acceptLaunch s a).hbm.wf := by
  unfold acceptLaunch
  dsimp only
  split
  · exact refuseLaunch_wf w
  · split
    · exact refuseLaunch_wf w
    · rename_i e
      have w1 := launchReads_wf e w
      split
      · exact refuseLaunch_wf w1
      · exact takeLaunch_wf w1

/-! ### Of Machine/Queues -/

@[simp] theorem readRecords_wf {t : Four} {num n : Nat} {s : State} (w : s.hbm.wf) : (readRecords t num n s).hbm.wf := by
  fun_induction readRecords t num n s <;> simp_all +zetaDelta

@[simp] theorem readAll_wf {s : State} {t : Four} {num : Nat} (w : s.hbm.wf) : (readAll s t num).hbm.wf := by
  fun_cases readAll s t num <;> simp +zetaDelta [w]

@[simp] theorem publish_wf {s : State} {t : Four} {num : Nat} {tail : Word} (w : s.hbm.wf) : (publish s t num tail).hbm.wf := by
  simp [publish, w]

@[simp] theorem checkWaitmem_wf {t : Four} {s : State} {q : Queue} {n : Node} (w : s.hbm.wf) : (checkWaitmem t s q n).hbm.wf := by
  fun_cases checkWaitmem t s q n <;> simp +zetaDelta [w]

@[simp] theorem waitChecks_wf {s : State} {t : Four} (w : s.hbm.wf) : (waitChecks s t).hbm.wf := by
  unfold waitChecks
  dsimp only
  split
  · exact foldl_wf (fun _ _ w => checkWaitmem_wf w) (foldl_wf (fun _ _ w => withGroup_wf (fun _ _ w => recheckGroup_wf w) w) w)
  · exact w

@[simp] theorem towerRange_wf {t : Four} {asid : Half} {s : State} {va : DWord} {n : Nat} (w : s.hbm.wf) :
    (towerRange t asid s va n).1.hbm.wf := foldl_fst_wf (fun r p w => by dsimp only; split <;> simp [w]) w

@[simp] theorem towerWrite_wf {t : Four} {asid : Half} {s : State} {va : DWord} {bs : List Byte} (w : s.hbm.wf) :
    (towerWrite t asid s va bs).hbm.wf := by
  refine foldl_wf (fun s p w => ?_) w
  dsimp only
  split
  · split <;> simp [w]
  · exact w

@[simp] theorem endNode_wf {s : State} {t : Four} {q : Queue} {n : Node} {state : Byte} {status : Half} (w : s.hbm.wf) :
    (endNode s t q n state status).hbm.wf := by
  simp [endNode, w]

@[simp] theorem tryEnd_wf {s : State} {t : Four} {q : Queue} {n : Node} (w : s.hbm.wf) : (tryEnd s t q n).hbm.wf := by
  fun_cases tryEnd s t q n <;> simp +zetaDelta [w]

@[simp] theorem kick_wf {s : State} {t : Four} {num : Nat} (w : s.hbm.wf) : (kick s t num).hbm.wf := by
  unfold kick
  split
  · exact w
  · split
    · exact w
    · refine readAll_wf ?_
      split
      · exact tryEnd_wf w
      · exact w

@[simp] theorem wakeLands_wf {s : State} {t : Four} {q : Queue} {v : Word} (w : s.hbm.wf) : (wakeLands s t q v).hbm.wf := by
  fun_cases wakeLands s t q v <;> simp +zetaDelta [w]

@[simp] theorem noteRunnable_wf {s : State} {t : Four} (w : s.hbm.wf) : (noteRunnable s t).hbm.wf := by
  unfold noteRunnable
  exact foldl_wf (fun _ _ w => by simp [w]) w

@[simp] theorem beginUnmap_wf {s : State} {t : Four} {num : Nat} (w : s.hbm.wf) : (beginUnmap s t num).hbm.wf := by
  simp [beginUnmap, w]

@[simp] theorem beginMap_wf {s : State} {t : Four} {num slot : Nat} (w : s.hbm.wf) : (beginMap s t num slot).hbm.wf := by
  simp [beginMap, w]

@[simp] theorem mapRunnable_wf {t : Four} {ks : List Nat} {s : State} (w : s.hbm.wf) : (mapRunnable t ks s).hbm.wf := by
  fun_induction mapRunnable t ks s <;> simp_all +zetaDelta

@[simp] theorem schedule_wf {s : State} {t : Four} (w : s.hbm.wf) : (schedule s t).hbm.wf := by
  unfold schedule
  split
  · exact w
  · exact foldl_wf (fun _ _ w => mirror_wf w) (mapRunnable_wf (foldl_wf (fun _ _ w => beginUnmap_wf w) (by simpa using noteRunnable_wf w)))

@[simp] theorem endCompleted_wf {s : State} {t : Four} {num : Nat} (w : s.hbm.wf) : (endCompleted s t num).hbm.wf := by
  refine foldl_wf (fun s ctr w => ?_) w
  split
  · exact w
  · split
    · exact w
    · split
      · exact w
      · exact tryEnd_wf w

@[simp] theorem unmapIdle_wf {s : State} {t : Four} (w : s.hbm.wf) : (unmapIdle s t).hbm.wf := by
  unfold unmapIdle
  exact foldl_wf (fun _ _ w => by simp [w]) w

@[simp] theorem retryKicks_wf {s : State} {t : Four} (w : s.hbm.wf) : (retryKicks s t).hbm.wf := by
  unfold retryKicks
  exact foldl_wf (fun _ _ w => by simp [w]) w

@[simp] theorem runnablePass_wf {s : State} {t : Four} (w : s.hbm.wf) : (runnablePass s t).hbm.wf := by
  simp [runnablePass, w]

@[simp] theorem timedPass_wf {s : State} {t : Four} (w : s.hbm.wf) : (timedPass s t).hbm.wf := by
  simp [timedPass, w]

/-! ### Of Machine/Power -/

@[simp] theorem moveGang_wf {s : State} {l : Launch} {g : Gang} {col base : Nat} {tiers : List (Nat × Four)} (w : s.hbm.wf) :
    (moveGang s l g col base tiers).hbm.wf := by
  simp [moveGang, w]

/-! ### Of Machine/Rings -/

theorem ringWrite_wf {s : State} {r : Ring} {size : Nat} {u} (e : ringWrite s r size = some u) (w : s.hbm.wf) : u.1.hbm.wf := by
  unfold ringWrite at e
  split at e
  · split at e
    · cases e
    · dsimp only at e
      split at e <;> cases e
      · exact w
      · exact sysWrite_wf w
  · cases e

@[simp] theorem settleTrap_wf {t : Four} {s : State} {id : Nat} (w : s.hbm.wf) : (settleTrap t s id).hbm.wf := by
  fun_cases settleTrap t s id <;> simp +zetaDelta [w]

@[simp] theorem settleTraps_wf {s : State} (w : s.hbm.wf) : (settleTraps s).hbm.wf := by
  unfold settleTraps
  exact foldl_wf (fun _ _ w => foldl_wf (fun _ _ w => settleTrap_wf w) w) w

@[simp] theorem divertReply_wf {s : State} {t : Four} {r : RingRec} (w : s.hbm.wf) : (divertReply s t r).hbm.wf := by
  fun_cases divertReply s t r <;> simp +zetaDelta [w]

theorem replyBlock_wf {s : State} {t : Four} {va : DWord} {u} (e : replyBlock s t va = some u) (w : s.hbm.wf) : u.1.hbm.wf := by
  unfold replyBlock at e
  split at e
  · cases e
  · split at e
    · cases e
    · exact readPart_wf e w

@[simp] theorem trapReply_wf {s : State} {t : Four} {va : DWord} (w : s.hbm.wf) : (trapReply s t va).hbm.wf := by
  unfold trapReply
  dsimp only
  split
  · simpa using w
  · rename_i e
    have w1 := replyBlock_wf e w
    split
    · simpa using w1
    · split
      · simpa using w1
      · split
        · exact w1
        · split
          · simpa using w1
          · split
            · exact killLaunch_wf w1
            · exact divertReply_wf w1

/-! ### Of Machine/Boot -/

@[simp] theorem writeBackAll_wf {s : State} (w : s.hbm.wf) : (writeBackAll s).hbm.wf := by
  unfold writeBackAll
  extract_lets s0 s1
  have w0 : s0.hbm.wf := foldl_wf (fun _ _ w => foldl_wf (fun _ _ w => evictAll_wf w) w) w
  have w1 : s1.hbm.wf := foldl_wf (fun _ _ w => foldl_wf (fun _ _ w => writeBack_wf w) w) w0
  exact foldl_wf (fun _ _ w => foldl_wf (fun _ _ w => flushBankLine_wf w) w) w1

@[simp] theorem resetModule_wf {s : State} (w : s.hbm.wf) : (resetModule s).hbm.wf := by
  simp [resetModule, w]

/-- The state in which an attempt to start ends. -/
def Attempt.state : Attempt → State
  | .ready s | .stalled s | .failed s _ => s

theorem attemptOnce_hbm (s : State) (starts : Quad TowerStart) : (attemptOnce s starts).state.hbm = s.hbm := by
  fun_cases attemptOnce s starts <;> simp +zetaDelta [Attempt.state]

theorem attemptOnce_wf {s : State} {starts : Quad TowerStart} {a : Attempt} (e : attemptOnce s starts = a) (w : s.hbm.wf) :
    a.state.hbm.wf := by
  rwa [← e, attemptOnce_hbm]

@[simp] theorem startFrom_wf {starts : List (Quad TowerStart)} {s : State} (w : s.hbm.wf) : (startFrom starts s).hbm.wf := by
  fun_induction startFrom starts s with
  | case1 => exact w
  | case2 x xs s s1 e => exact attemptOnce_wf e w
  | case3 x xs s s1 e => exact attemptOnce_wf e w
  | case4 x xs s s1 reason e s2 _ ih => exact ih (resetModule_wf (attemptOnce_wf e w))
  | case5 x xs s s1 reason e s2 => exact (minimalMode_hbm s2).symm ▸ attemptOnce_wf e w

@[simp] theorem failStart_wf {s : State} {reason : Byte} {starts : List (Quad TowerStart)} (w : s.hbm.wf) :
    (failStart s reason starts).hbm.wf := by
  simp [failStart, w]

@[simp] theorem startDue_wf {s : State} (w : s.hbm.wf) : (startDue s).hbm.wf := by
  simp [startDue, w]

@[simp] theorem emptyCachePart_wf {s : State} {t : Four} {col : Nat} (w : s.hbm.wf) : (emptyCachePart s t col).hbm.wf := by
  simp [emptyCachePart, w]

@[simp] theorem concludeColumn_wf {s : State} {t : Four} {unit index sub : Byte} {v : TestVerdict} (w : s.hbm.wf) :
    (concludeColumn s t unit index sub v).hbm.wf := by
  simp [concludeColumn, w]

/-! ### Of Machine/Links -/

@[simp] theorem linkEffect_wf {s : State} {x : LinkXfer} {status : Byte} {data : List Byte} (w : s.hbm.wf) :
    (linkEffect s x status data).1.hbm.wf := by
  fun_cases linkEffect s x status data <;> simp +zetaDelta [w]

@[simp] theorem agentAccess_wf {s : State} {asid : Half} {va : DWord} {len : Nat} {write : Option (List Byte)} (w : s.hbm.wf) :
    (agentAccess s asid va len write).hbm.wf := by
  fun_cases agentAccess s asid va len write <;> simp +zetaDelta [w]

/-! ### Of Machine/Admin -/

@[simp] theorem endCommand_wf {s : State} {t : Four} {status : Nat} (w : s.hbm.wf) : (endCommand s t status).hbm.wf := by
  simp [endCommand, w]

@[simp] theorem dropSpan_wf {s : State} {p : Half → DWord → Nat → Bool} (w : s.hbm.wf) : (dropSpan s p).hbm.wf := by
  unfold dropSpan
  extract_lets cols s1 s2
  have w1 : s1.hbm.wf := foldl_wf (fun _ _ w => evictAll_wf w) w
  have w2 : s2.hbm.wf := foldl_wf (fun _ _ w => foldl_wf (fun _ _ w => writeBack_wf w) w) w1
  clear_value s2
  exact w2

@[simp] theorem testOver_wf {s : State} {t : Four} (w : s.hbm.wf) : (testOver s t).hbm.wf := by
  fun_cases testOver s t <;> simp +zetaDelta [w]

@[simp] theorem loseLeader_wf {s : State} {t : Four} (w : s.hbm.wf) : (loseLeader s t).hbm.wf := by
  fun_cases loseLeader s t <;> simp +zetaDelta [w]

/-! ### Of Machine/Fetch -/

@[simp] theorem fetchAt_wf {c : Ctx} {s : State} {pc : DWord} {h : Hit} (w : s.hbm.wf) : (fetchAt c s pc h).1.hbm.wf := by
  simp [fetchAt, w]

@[simp] theorem markXfer_wf {c : Ctx} {s : State} (w : s.hbm.wf) : (markXfer c s).hbm.wf := by
  simp [markXfer, w]

/-! ### Of Machine/Between -/

@[simp] theorem settleStep_wf {s : State} (w : s.hbm.wf) : (settleStep s).hbm.wf := by
  unfold settleStep
  exact foldl_wf (fun _ _ w => runnablePass_wf (retryKicks_wf w)) (settleTraps_wf w)

@[simp] theorem settleTower_wf {s : State} {t : Four} (w : s.hbm.wf) :
    (settleTower s t).hbm.wf := timedPass_wf (parkedChecks_wf (waitChecks_wf (reflushes_wf (testOver_wf (by simpa using w)))))

@[simp] theorem settleTime_wf {s : State} (w : s.hbm.wf) : (settleTime s).hbm.wf := by
  unfold settleTime
  exact foldl_wf (fun _ _ w => settleTower_wf w) (launchesDue_wf (startDue_wf w))

@[simp] theorem prelude_wf {s : State} (w : s.hbm.wf) : (prelude s).hbm.wf := by
  have w1 : (settleTime (tick (settleStep s))).hbm.wf := settleTime_wf (by rw [tick_hbm]; exact settleStep_wf w)
  rw [prelude, saveGbars_hbm, freeEnded_hbm, announceGbars_hbm]
  exact leaveSlots_wf (by rwa [releaseParks_hbm, takeDue_hbm])

/-- A failed confirmation keeps the canonical form. -/
theorem confFail_wf {c : Ctx} {s t : State} {kind : Byte} {n : Need} {ts : List Target} {conf : DWord → Conf}
    (e : confFail c s kind n ts conf = some t) (w : s.hbm.wf) : t.hbm.wf := by
  rwa [confFail_hbm c s e]

/-- A word on ranges keeps the canonical form if its own effect does. -/
theorem onRanges_wf {c : Ctx} {s : State} {i : Instr} {r : Ranges} {addr align : Nat} {a : AccKind} {n : Need} {own : State → State}
    (h : ∀ s, s.hbm.wf → (own s).hbm.wf) (w : s.hbm.wf) : (c.onRanges s i r addr align a n own).hbm.wf := by
  unfold Ctx.onRanges
  split
  · exact w
  · split
    · exact h s w
    · dsimp only
      split
      · rename_i e
        simpa [confFail_hbm c s e] using w
      · have w1 := clear_wf (c := c) (writes := a == .store) (fills := a == .load)
          (xs := r.parts.map fun p => ({ b := c.lead, va := p.1, n := p.2 } : Touch)) w
        split
        · simpa using w1
        · exact h _ w1

end Sys2Proof.Machine
end

