-- ==== Sys2Proof/Proofs/FormOfWords.lean ====
section
/-!
SUPPORT. The outcome of a word that issues from a live group: a next state that keeps the canonical form.
-/

set_option Elab.async false

namespace Sys2Proof.Machine

/-! ### What an outcome keeps -/

/-- The outcome is a next state, and its module memory is in canonical form if that of `s` is. -/
def KeepsForm (s : State) (r : Res) : Prop := ∃ t, r = .next t ∧ (s.hbm.wf → t.hbm.wf)

theorem keepsForm_next {s t : State} (h : s.hbm.wf → t.hbm.wf) : KeepsForm s (.next t) := ⟨t, rfl, h⟩

/-- A word issues from a live group: a trap and a held unit leave module memory alone, so the word's own effect decides. -/
theorem issue_keepsForm {i : Instr} {s : State} {own : Ctx → State → State} (hc : s.ctx? ≠ none)
    (h : ∀ c s, s.hbm.wf → (own c s).hbm.wf) : KeepsForm s (issue i s own) := by
  obtain ⟨t, e⟩ := issue_next (i := i) hc own
  exact ⟨t, e, fun w => issue_keeps (P := fun t => t.hbm.wf) e (fun c q => by simpa using w) (fun c => by simpa using w)
    fun c _ => h c _ (by simpa using w)⟩

/-- A word whose own effect leaves module memory as it was. -/
theorem issue_keepsForm_of_hbm {i : Instr} {s : State} {own : Ctx → State → State} (hc : s.ctx? ≠ none)
    (h : ∀ c s, (own c s).hbm = s.hbm) : KeepsForm s (issue i s own) :=
  issue_keepsForm hc fun c s w => by rwa [h]

/-! ### The operand forms -/

section
variable {i : Instr} {s : State} (hc : s.ctx? ≠ none)
include hc

theorem scalarOp_keepsForm {g : BitVec 3} {d : Reg} {f : Ctx → Bead → DWord} : KeepsForm s (scalarOp i g d s f) :=
  issue_keepsForm_of_hbm hc fun _ _ => rfl

theorem laneOp_keepsForm {g : BitVec 3} {d : Reg} {f : Ctx → Bead → Four → Word} : KeepsForm s (laneOp i g d s f) :=
  issue_keepsForm_of_hbm hc fun _ _ => rfl

theorem predOp_keepsForm {g d : BitVec 3} {f : Bead → Four → Bool} : KeepsForm s (predOp i g d s f) :=
  issue_keepsForm_of_hbm hc fun _ _ => rfl

theorem floatOp_keepsForm {g : BitVec 3} {d : Reg} {reads : List FloatRead} {f : Ctx → Bead → Four → Word} :
    KeepsForm s (floatOp i g d reads s f) := by
  refine issue_keepsForm_of_hbm hc fun c s => ?_
  split <;> rfl

theorem cmpFloat_keepsForm {g d : BitVec 3} {a b : Reg} {f : Val → Val → Bool} : KeepsForm s (cmpFloat i g d a b s f) := by
  refine issue_keepsForm_of_hbm hc fun c s => ?_
  split <;> rfl

theorem branch_keepsForm {g : BitVec 3} {off : BitVec 20} {link : Bool} : KeepsForm s (branch i g off link s) := by
  refine issue_keepsForm_of_hbm hc fun c s => ?_
  dsimp only
  split <;> simp

theorem groupBranch_keepsForm {off : BitVec 20} {taken : Ctx → Bool} : KeepsForm s (groupBranch i off taken s) :=
  issue_keepsForm_of_hbm hc fun _ _ => rfl

theorem jump_keepsForm {g : BitVec 3} {target : Bead → DWord} {link : Bool} : KeepsForm s (jump i g target link s) := by
  refine issue_keepsForm_of_hbm hc fun c s => ?_
  split <;> rfl

theorem hostCall_keepsForm {q : TrapReq} : KeepsForm s (hostCall i q s) := by
  refine issue_keepsForm_of_hbm hc fun c s => ?_
  split <;> rfl

theorem tileWord_keepsForm {counted : Bool} {own : Ctx → TileSet → State → State}
    (h : ∀ c ts s, s.hbm.wf → (own c ts s).hbm.wf) : KeepsForm s (tileWord i counted s own) := by
  refine issue_keepsForm hc fun c s w => ?_
  split
  · exact w
  · split
    · exact w
    · exact h _ _ _ w

theorem drained_keepsForm {ta tb : BitVec 3} {rs : Reg} {scope : BitVec 3} {sparse : Bool} :
    KeepsForm s (drained i ta tb rs scope sparse s) := by
  refine tileWord_keepsForm hc fun c ts s w => ?_
  dsimp only
  split
  · exact w
  · split
    · exact w
    · split
      · exact w
      · split
        · rename_i e
          split at e
          · exact confFail_wf e w
          · cases e
        · simpa using w

theorem intoTileWord_keepsForm {td ta tb : BitVec 3} {sat : BitVec 1} {p q : BitVec 3} {sparse : Bool} :
    KeepsForm s (intoTileWord i td ta tb sat p q sparse s) := by
  refine tileWord_keepsForm hc fun c ts s w => ?_
  dsimp only
  split <;> simpa using w

/-- A word on ranges: a trap, a failed confirmation and a held unit keep the form, and so its own effect decides. -/
theorem quantWord_keepsForm {td : BitVec 3} {rs : Reg} {scr : BitVec 1} {ok : Elem → Bool} {f : TileSet → Word → List (List Byte) → Tile → Tile} :
    KeepsForm s (quantWord i td rs scr ok s f) := by
  refine tileWord_keepsForm hc fun c ts s w => ?_
  dsimp only
  split
  · exact w
  · exact onRanges_wf (fun s w => by simp [w]) w

theorem takePrefix_keepsForm {k : PfxKind} {payload : BitVec 24} : KeepsForm s (takePrefix k payload s) := by
  unfold takePrefix
  split
  · contradiction
  · refine keepsForm_next fun w => ?_
    split <;> exact w

end

/-! ### The words with an effect of their own -/

section
variable {s : State} (hc : s.ctx? ≠ none)
include hc

theorem execVlds_keepsForm {d a b : Reg} {g : BitVec 3} {sx : BitVec 1} {size : BitVec 3} : KeepsForm s (execVlds d a b g sx size s) := by
  refine issue_keepsForm hc fun c s w => ?_
  dsimp only
  split
  · exact w
  · split
    · exact w
    · split
      · exact w
      · exact readEach_wf (fun _ _ w => w) w

theorem execVldsDq_keepsForm {d a b : Reg} {g : BitVec 3} : KeepsForm s (execVldsDq d a b g s) := by
  refine issue_keepsForm_of_hbm hc fun c s => ?_
  dsimp only
  split
  · rfl
  · split
    · rfl
    · split
      · rfl
      · split
        · rfl
        · split <;> rfl

theorem execVsts_keepsForm {d a b : Reg} {g size : BitVec 3} : KeepsForm s (execVsts d a b g size s) := by
  refine issue_keepsForm_of_hbm hc fun c s => ?_
  dsimp only
  split
  · rfl
  · split
    · rfl
    · split
      · rfl
      · exact foldl_hbm fun _ _ => rfl

theorem execVred_keepsForm {d a b : Reg} {scope : BitVec 3} {op : BitVec 5} : KeepsForm s (execVred d a b scope op s) := by
  refine issue_keepsForm_of_hbm hc fun c s => ?_
  dsimp only
  split
  · rfl
  · split
    · rfl
    · split <;> simp

theorem execVcvt_keepsForm {d a b : Reg} {g : BitVec 3} {fn : BitVec 5} : KeepsForm s (execVcvt d a b g fn s) := by
  refine issue_keepsForm_of_hbm hc fun c s => ?_
  dsimp only
  split
  · rfl
  · split
    · rfl
    · split <;> rfl

theorem execSrd_keepsForm {d : Reg} {code : BitVec 10} : KeepsForm s (execSrd d code s) := by
  refine issue_keepsForm_of_hbm hc fun c s => ?_
  split <;> rfl

theorem execSwr_keepsForm {a : Reg} {code : BitVec 10} : KeepsForm s (execSwr a code s) := by
  refine issue_keepsForm_of_hbm hc fun c s => ?_
  split <;> rfl

theorem execSettle_keepsForm {scope : BitVec 3} : KeepsForm s (execSettle scope s) := by
  refine issue_keepsForm hc fun c s w => ?_
  dsimp only
  split
  · simpa using w
  · split
    · exact w
    · split
      · simpa using w
      · split <;> simp [w]

theorem execAcopy_keepsForm {d a : Reg} : KeepsForm s (execAcopy d a s) := by
  refine issue_keepsForm_of_hbm hc fun c s => ?_
  dsimp only
  split <;> simp

theorem execAcopyo_keepsForm {d a : Reg} : KeepsForm s (execAcopyo d a s) := by
  refine issue_keepsForm_of_hbm hc fun c s => ?_
  dsimp only
  split <;> simp

theorem execAcopyt_keepsForm {d a : Reg} : KeepsForm s (execAcopyt d a s) := by
  refine issue_keepsForm hc fun c s w => ?_
  extract_lets va ts xs s1 r
  have w1 : s1.hbm.wf := clear_wf w
  split
  · exact w
  · split
    · exact w
    · split
      · rename_i e
        exact confFail_wf e w
      · split
        · exact w1
        · simpa using readRange_wf w1

theorem execAcopyg_keepsForm {d a geo : Reg} : KeepsForm s (execAcopyg d a geo s) := by
  refine issue_keepsForm_of_hbm hc fun c s => ?_
  dsimp only
  split
  · rfl
  · split
    · rfl
    · split
      · rfl
      · split <;> simp

theorem execTcfg_keepsForm {td : BitVec 3} {rs : Reg} {target : BitVec 3} : KeepsForm s (execTcfg td rs target s) := by
  refine tileWord_keepsForm hc fun c ts s w => ?_
  dsimp only
  split <;> split <;> exact w

theorem execTcb_keepsForm {cb : BitVec 2} {rs : Reg} {scr : BitVec 1} : KeepsForm s (execTcb cb rs scr s) :=
  tileWord_keepsForm hc fun _ _ _ w => onRanges_wf (fun _ w => readRanges_wf w) w

theorem execTld_keepsForm {td : BitVec 3} {rs : Reg} {sb scr : BitVec 1} : KeepsForm s (execTld td rs sb scr s) := by
  refine tileWord_keepsForm hc fun c ts s w => ?_
  dsimp only
  split
  · exact w
  · exact onRanges_wf (fun _ w => readRanges_wf w) w

theorem execTst_keepsForm {ta : BitVec 3} {rs : Reg} {sb scr : BitVec 1} : KeepsForm s (execTst ta rs sb scr s) := by
  refine tileWord_keepsForm hc fun c ts s w => ?_
  dsimp only
  split
  · exact w
  · exact onRanges_wf (fun _ w => foldl_wf (fun _ _ w => by split <;> simpa using w) w) w

theorem execTldt_keepsForm {td : BitVec 3} {rs : Reg} {scr : BitVec 1} : KeepsForm s (execTldt td rs scr s) := by
  refine tileWord_keepsForm hc fun c ts s w => ?_
  dsimp only
  split
  · exact w
  · exact onRanges_wf (fun _ w => readRanges_wf w) w

theorem execBgemv_keepsForm {d a : Reg} {scope : BitVec 3} {geo : Reg} : KeepsForm s (execBgemv d a scope geo s) := by
  refine issue_keepsForm_of_hbm hc fun c s => ?_
  dsimp only
  split
  · rfl
  · split
    · rfl
    · split
      · rfl
      · split <;> rfl

theorem execBfence_keepsForm : KeepsForm s (execBfence s) := by
  refine issue_keepsForm_of_hbm hc fun c s => ?_
  dsimp only
  split <;> split <;> rfl

theorem execBara_keepsForm {d a : Reg} {scr : BitVec 1} {scope : BitVec 3} : KeepsForm s (execBara d a scr scope s) :=
  issue_keepsForm hc fun _ _ w => arriveAll_wf w

theorem execBar_keepsForm {d a : Reg} {scr : BitVec 1} {scope : BitVec 3} : KeepsForm s (execBar d a scr scope s) := by
  refine issue_keepsForm hc fun c s w => ?_
  split
  · exact recheckWord_wf w
  · exact arriveAll_wf w

theorem execBarw_keepsForm {d a : Reg} {scr : BitVec 1} {scope : BitVec 3} : KeepsForm s (execBarw d a scr scope s) := by
  refine issue_keepsForm hc fun c s w => ?_
  split
  · exact recheckWord_wf w
  · split
    · exact w
    · simpa using w

theorem execSigw_keepsForm {d a : Reg} {cond : BitVec 2} {scope : BitVec 3} : KeepsForm s (execSigw d a cond scope s) := by
  refine issue_keepsForm hc fun c s w => ?_
  split
  · exact recheckWord_wf w
  · split
    · exact w
    · simpa using w

theorem execSigp_keepsForm {d a : Reg} {set : BitVec 1} {scope : BitVec 3} : KeepsForm s (execSigp d a set scope s) := by
  refine issue_keepsForm hc fun c s w => ?_
  extract_lets as fills s1
  have w1 : s1.hbm.wf := clear_wf w
  split
  · exact w
  · split
    · rename_i e
      exact confFail_wf e w
    · split
      · exact w1
      · exact foldl_wf (fun _ _ w => signalOne_wf w) w1

theorem execWpop_keepsForm {d a : Reg} {try_ : BitVec 1} {q : BitVec 4} : KeepsForm s (execWpop d a try_ q s) := by
  refine issue_keepsForm_of_hbm hc fun c s => ?_
  dsimp only
  split
  · rfl
  · split
    · rfl
    · split
      · rfl
      · split
        · simp
        · split
          · rfl
          · split
            · simp
            · split <;> rfl

theorem execRrel_keepsForm {bl : BitVec 7} : KeepsForm s (execRrel bl s) := by
  refine issue_keepsForm_of_hbm hc fun c s => ?_
  dsimp only
  split
  · rfl
  · split <;> simp

end

end Sys2Proof.Machine
end

