-- ==== Sys2Proof/Proofs/FormOfNodes.lean ====
section
/-!
SUPPORT. The outcome of a node of a queue and of an admin command: a next state that keeps the canonical form.
-/

set_option Elab.async false

namespace Sys2Proof.Machine

/-! ### Nodes and admin commands -/

section
variable {s : State}

theorem nodeStep_keepsForm {kind : Nat} {t : Four} {queue : Nat} {ctr : Word} {f : State → Queue → Node → State}
    (h : ∀ s q n, s.hbm.wf → (f s q n).hbm.wf) : KeepsForm s (nodeStep kind t queue ctr f s) := by
  refine keepsForm_next fun w => ?_
  split
  · exact w
  · split
    · exact w
    · split
      · exact h _ _ _ (by simpa using w)
      · exact w

theorem adminRun_keepsForm {op : Nat} {t : Four} {f : List Byte → State × Option Nat} (h : ∀ cmd, s.hbm.wf → (f cmd).1.hbm.wf) :
    KeepsForm s (adminRun op t s f) := by
  refine keepsForm_next fun w => ?_
  split
  · exact w
  · rename_i cmd _
    dsimp only
    split
    · exact endCommand_wf w
    · split
      · exact w
      · split
        · exact endCommand_wf w
        · have w1 := h cmd w
          split <;> rename_i e <;> rw [e] at w1
          · exact w1
          · exact endCommand_wf w1

/-- An admin command: whatever state it answers is in canonical form. -/
theorem adminCmd_keepsForm {op : Nat} {t : Four} {f : List Byte → Option (State × Nat)}
    (h : ∀ cmd, s.hbm.wf → ∀ r ∈ f cmd, r.1.hbm.wf) : KeepsForm s (adminCmd op t s f) := by
  refine adminRun_keepsForm fun cmd w => ?_
  split
  · exact w
  · rename_i r e
    exact h cmd w r e

/-- A command that fails leaves module memory as it was. -/
theorem failWith_wf {status : Nat} (w : s.hbm.wf) : ∀ r ∈ failWith s status, r.1.hbm.wf := by
  rintro r ⟨⟩
  exact w

/-- A command that is not over answers no state. -/
theorem none_wf : ∀ r ∈ (none : Option (State × Nat)), r.1.hbm.wf := fun _ h => nomatch h

theorem some_wf {t : State} {n : Nat} (w : t.hbm.wf) : ∀ r ∈ some (t, n), r.1.hbm.wf := by
  rintro r ⟨⟩
  exact w

@[simp] theorem execFeed_keepsForm {t : Four} {queue : Nat} {ctr : Word} : KeepsForm s (execFeed t queue ctr s) := by
  refine nodeStep_keepsForm fun s q n w => ?_
  dsimp only
  split
  · simpa using w
  · split
    · exact w
    · split
      · simpa using w
      · simpa using sysRead_wf w

@[simp] theorem execCopy_keepsForm {t : Four} {queue : Nat} {ctr : Word} : KeepsForm s (execCopy t queue ctr s) := by
  refine nodeStep_keepsForm fun s q n w => ?_
  dsimp only
  split
  · simpa using w
  · simpa using w
  · split
    · simpa using towerWrite_wf (towerRange_wf w)
    · simpa using towerWrite_wf (towerRange_wf w)

@[simp] theorem execPhase_keepsForm {t : Four} {queue : Nat} {ctr : Word} : KeepsForm s (execPhase t queue ctr s) := by
  refine nodeStep_keepsForm fun s q n w => ?_
  split
  · exact w
  · simpa using w

@[simp] theorem execCreateSpace_keepsForm {t : Four} : KeepsForm s (execCreateSpace t s) := by
  refine adminCmd_keepsForm fun cmd w => ?_
  dsimp only
  split
  · exact failWith_wf w
  · split
    · exact failWith_wf w
    · exact some_wf (by simpa using w)

@[simp] theorem execDestroySpace_keepsForm {t : Four} : KeepsForm s (execDestroySpace t s) := by
  refine adminRun_keepsForm fun cmd w => ?_
  extract_lets id s1 cols s2
  have w2 : s2.hbm.wf := foldl_wf (fun _ _ w => foldl_wf (fun _ _ w => by simpa using w) w) (dropSpan_wf w)
  split
  · exact w
  · split <;> simpa using w2

@[simp] theorem execCreateQueue_keepsForm {t : Four} : KeepsForm s (execCreateQueue t s) := by
  refine adminCmd_keepsForm fun cmd w => ?_
  dsimp only
  split
  · exact failWith_wf w
  · split
    · exact failWith_wf w
    · split
      · exact failWith_wf w
      · split
        · exact failWith_wf w
        · split
          · exact failWith_wf w
          · exact some_wf (mirror_wf (sysRead_wf w))

@[simp] theorem execDestroyQueue_keepsForm {t : Four} : KeepsForm s (execDestroyQueue t s) := by
  refine adminCmd_keepsForm fun cmd w => ?_
  split
  · exact failWith_wf w
  · split
    · exact failWith_wf w
    · exact some_wf (by simpa using w)

@[simp] theorem execBindWq_keepsForm {t : Four} : KeepsForm s (execBindWq t s) := by
  refine adminCmd_keepsForm fun cmd w => ?_
  dsimp only
  split
  · exact failWith_wf w
  · split
    · exact failWith_wf w
    · exact some_wf (by simpa using w)

@[simp] theorem execSetRing_keepsForm {t : Four} : KeepsForm s (execSetRing t s) := by
  refine adminCmd_keepsForm fun cmd w => ?_
  extract_lets which x size r
  split
  · exact failWith_wf w
  · split
    · exact failWith_wf w
    · split
      · exact failWith_wf w
      · exact some_wf (by simpa using w)

@[simp] theorem execXlateInval_keepsForm {t : Four} : KeepsForm s (execXlateInval t s) := by
  refine adminCmd_keepsForm fun cmd w => ?_
  extract_lets id va len p
  split
  · exact failWith_wf w
  · split
    · exact none_wf
    · exact some_wf (dropSpan_wf w)

@[simp] theorem execSetCarveout_keepsForm {t : Four} : KeepsForm s (execSetCarveout t s) := by
  refine adminCmd_keepsForm fun cmd w => ?_
  dsimp only
  split
  · exact failWith_wf w
  · split
    · exact failWith_wf w
    · split
      · exact failWith_wf w
      · exact some_wf (by simpa using emptyCachePart_wf w)

@[simp] theorem execSetSlots_keepsForm {t : Four} : KeepsForm s (execSetSlots t s) := by
  refine adminCmd_keepsForm fun cmd w => ?_
  dsimp only
  split
  · exact failWith_wf w
  · split
    · exact failWith_wf w
    · exact some_wf (by simpa using w)

@[simp] theorem execSetWatchdog_keepsForm {t : Four} : KeepsForm s (execSetWatchdog t s) := by
  refine adminCmd_keepsForm fun cmd w => ?_
  dsimp only
  split
  · exact failWith_wf w
  · exact some_wf (by simpa using w)

@[simp] theorem execSetValves_keepsForm {t : Four} : KeepsForm s (execSetValves t s) := by
  refine adminCmd_keepsForm fun cmd w => ?_
  dsimp only
  split
  · exact failWith_wf w
  · exact some_wf (by simpa using w)

@[simp] theorem execSetHbm_keepsForm {t : Four} : KeepsForm s (execSetHbm t s) := by
  refine adminCmd_keepsForm fun cmd w => ?_
  dsimp only
  split
  · exact failWith_wf w
  · exact some_wf (by simpa using w)

@[simp] theorem execDrain_keepsForm {t : Four} : KeepsForm s (execDrain t s) := by
  refine adminCmd_keepsForm fun cmd w => ?_
  dsimp only
  split
  · exact failWith_wf w
  · split
    · exact some_wf (by simpa using w)
    · exact some_wf (by simpa using w)

@[simp] theorem execMaint_keepsForm {t : Four} : KeepsForm s (execMaint t s) := by
  refine adminCmd_keepsForm fun cmd w => ?_
  extract_lets enter s1 s2
  have w2 : s2.hbm.wf := by
    rw [updTower_hbm]
    exact foldl_wf (fun _ _ w => writeBack_wf w) (foldl_wf (fun _ _ w => emptyCachePart_wf w) w)
  split
  · exact failWith_wf w
  · split
    · exact failWith_wf w
    · split
      · exact failWith_wf w
      · refine some_wf ?_
        split
        · simpa using w2
        · exact w2

@[simp] theorem execSelfTest_keepsForm {t : Four} {v : TestVerdict} : KeepsForm s (execSelfTest t v s) := by
  refine adminCmd_keepsForm fun cmd w => ?_
  dsimp only
  split
  · exact failWith_wf w
  · split
    · split
      · exact some_wf (concludeColumn_wf w)
      · exact none_wf
    · exact some_wf (by simpa using w)

@[simp] theorem execStackTest_keepsForm {t : Four} {failing : List ConnFail} : KeepsForm s (execStackTest t failing s) := by
  refine adminCmd_keepsForm fun cmd w => ?_
  extract_lets row log cols fs r bad s1 s2
  have w1 : s1.hbm.wf := foldl_wf (fun _ _ w => emptyCachePart_wf w) (by simpa using w)
  split
  · exact failWith_wf w
  · split
    · exact none_wf
    · exact some_wf (physWrite_wf (by simpa [s2] using w1))

@[simp] theorem execSetLink_keepsForm {t : Four} : KeepsForm s (execSetLink t s) := by
  refine adminCmd_keepsForm fun cmd w => ?_
  split
  · exact failWith_wf w
  · exact some_wf (by simpa using w)

@[simp] theorem execOpenWindow_keepsForm {t : Four} : KeepsForm s (execOpenWindow t s) := by
  refine adminCmd_keepsForm fun cmd w => ?_
  dsimp only
  split
  · exact failWith_wf w
  · split
    · exact failWith_wf w
    · exact some_wf (by simpa using w)

@[simp] theorem execCloseWindow_keepsForm {t : Four} : KeepsForm s (execCloseWindow t s) := by
  refine adminCmd_keepsForm fun cmd w => ?_
  dsimp only
  split
  · exact failWith_wf w
  · split
    · exact failWith_wf (s := s.fresh) w
    · exact some_wf (by simpa using w)

@[simp] theorem execPatch_keepsForm {t : Four} : KeepsForm s (execPatch t s) := by
  refine adminCmd_keepsForm fun cmd w => ?_
  dsimp only
  split
  · exact failWith_wf w
  · split
    · exact failWith_wf w
    · split
      · exact failWith_wf w
      · exact some_wf (by simpa using w)

@[simp] theorem execAttest_keepsForm {t : Four} : KeepsForm s (execAttest t s) := by
  refine adminCmd_keepsForm fun cmd w => ?_
  dsimp only
  split
  · exact failWith_wf w
  · exact some_wf (physWrite_wf w)

@[simp] theorem execRestart_keepsForm {t : Four} {starts : List (Quad TowerStart)} : KeepsForm s (execRestart t starts s) := by
  unfold execRestart
  split
  · exact keepsForm_next id
  · extract_lets x s1 s2
    split
    · exact keepsForm_next endCommand_wf
    · split
      · exact keepsForm_next id
      · split
        · exact keepsForm_next endCommand_wf
        · refine keepsForm_next fun w => startFrom_wf (resetModule_wf ?_)
          have w1 : s1.hbm.wf := endCommand_wf w
          simp only [s2]
          split <;> exact w1

end

end Sys2Proof.Machine
end

