-- ==== Sys2Proof/Proofs/FormOfHardware.lean ====
section
/-!
SUPPORT. The outcome of the other steps of the hardware: a next state that keeps the canonical form.
-/

set_option Elab.async false

namespace Sys2Proof.Machine

/-! ### The steps of the hardware -/

section
variable {s : State}

@[simp] theorem execAccessConfirm_keepsForm {id : Nat} : KeepsForm s (execAccessConfirm id s) := by
  refine keepsForm_next fun w => ?_
  split
  · exact w
  · exact withGroup_wf (fun _ _ w => confirmUnit_wf w) w

@[simp] theorem execStoreAck_keepsForm {id : Nat} : KeepsForm s (execStoreAck id s) := by
  refine keepsForm_next fun w => ?_
  split
  · split <;> simp [w]
  · split <;> exact w

@[simp] theorem execReductionApply_keepsForm {id : Nat} : KeepsForm s (execReductionApply id s) := by
  refine keepsForm_next fun w => ?_
  split
  · split <;> simp [w]
  · exact w

@[simp] theorem execCopyComplete_keepsForm {id : Nat} : KeepsForm s (execCopyComplete id s) := by
  refine keepsForm_next fun w => ?_
  split
  · exact w
  · dsimp only
    split
    · exact w
    · split
      · exact clearPieces_wf w
      · simpa using foldl_wf (fun _ _ w => movePiece_wf w) (clearPieces_wf w)

@[simp] theorem execCopyPageHold_keepsForm {id : Nat} {moved : List Nat} : KeepsForm s (execCopyPageHold id moved s) := by
  refine keepsForm_next fun w => ?_
  split
  · exact w
  · dsimp only
    split
    · split
      · exact w
      · simpa using moveSome_wf w
    · exact w

@[simp] theorem execCopyError_keepsForm {id : Nat} {moved : List Nat} : KeepsForm s (execCopyError id moved s) := by
  refine keepsForm_next fun w => ?_
  split
  · exact w
  · dsimp only
    split
    · exact w
    · split
      · exact w
      · simpa using moveSome_wf w

@[simp] theorem execMatrixProductComplete_keepsForm {id : Nat} : KeepsForm s (execMatrixProductComplete id s) := by
  refine keepsForm_next fun w => ?_
  split
  · exact w
  · split
    · exact w
    · simpa using w

@[simp] theorem execBgemvConfirm_keepsForm {id : Nat} : KeepsForm s (execBgemvConfirm id s) := by
  refine keepsForm_next fun w => ?_
  split
  · exact withGroup_wf (fun _ _ w => by simpa using w) w
  · exact w

@[simp] theorem execBgemvRowDeliver_keepsForm {id : Nat} : KeepsForm s (execBgemvRowDeliver id s) := by
  refine keepsForm_next fun w => ?_
  split
  · exact w
  · split
    · exact w
    · dsimp only
      split <;> simpa using w

@[simp] theorem execWaitRecheck_keepsForm {gang member grp : Nat} : KeepsForm s (execWaitRecheck gang member grp s) :=
  keepsForm_next fun w => withGroup_wf (fun _ _ w => recheckGroup_wf w) w

@[simp] theorem execWatchdog_keepsForm {gang member grp : Nat} : KeepsForm s (execWatchdog gang member grp s) := by
  refine keepsForm_next fun w => withGroup_wf (fun c s w => ?_) w
  split
  · exact w
  · simpa using w

@[simp] theorem execRestring_keepsForm {gang member : Nat} {beads : List (Nat × Nat)} : KeepsForm s (execRestring gang member beads s) := by
  refine keepsForm_next fun w => ?_
  split
  · exact w
  · split
    · dsimp only
      split <;> exact w
    · exact w

@[simp] theorem execPlacementForward_keepsForm {t : Four} {launch : Nat} : KeepsForm s (execPlacementForward t launch s) := by
  refine keepsForm_next fun w => ?_
  split
  · split
    · exact w
    · simpa using w
  · exact w

@[simp] theorem execGangRetire_keepsForm {gang : Nat} : KeepsForm s (execGangRetire gang s) := by
  refine keepsForm_next fun w => ?_
  split
  · exact w
  · rename_i g _
    split
    · exact w
    · rename_i l _
      extract_lets s1 s3
      have w1 : s1.hbm.wf := applyGang_wf w
      have w3 : s3.hbm.wf := reportRetire_wf w1
      split
      · exact w
      · split
        · exact w1
        · split
          · exact w3
          · split
            · exact w3
            · exact checkDone_wf (by simpa using w3)

@[simp] theorem execParkGang_keepsForm {gang : Nat} : KeepsForm s (execParkGang gang s) := by
  refine keepsForm_next fun w => ?_
  split
  · exact w
  · split
    · split
      · simpa using w
      · exact w
    · exact w

@[simp] theorem execGangSaveComplete_keepsForm {gang : Nat} : KeepsForm s (execGangSaveComplete gang s) := by
  refine keepsForm_next fun w => ?_
  split
  · exact w
  · split
    · split
      · simpa using w
      · split
        · split
          · simpa using saveGang_wf w
          · exact w
        · exact w
    · exact w

@[simp] theorem execGangRestore_keepsForm {gang : Nat} : KeepsForm s (execGangRestore gang s) := by
  refine keepsForm_next fun w => ?_
  split
  · exact w
  · split
    · exact w
    · split
      · split
        · dsimp only
          split <;> simpa using w
        · exact w
      · exact w

@[simp] theorem execWakeRegisterWrite_keepsForm {t : Four} {queue : Nat} {v : DWord} : KeepsForm s (execWakeRegisterWrite t queue v s) := by
  refine keepsForm_next fun w => ?_
  split
  · exact w
  · extract_lets s1 x
    have w1 : s1.hbm.wf := by
      simp only [s1]
      split <;> exact w
    split
    · exact schedule_wf (mirror_wf (wakeLands_wf w1))
    · exact schedule_wf (mirror_wf (wakeLands_wf w1))
    · refine mirror_wf ?_
      split <;> exact w1

@[simp] theorem execNodeEnd_keepsForm {t : Four} {queue : Nat} {ctr : Word} : KeepsForm s (execNodeEnd t queue ctr s) := by
  refine keepsForm_next fun w => ?_
  split
  · exact w
  · split
    · exact w
    · split
      · split
        · exact w
        · exact schedule_wf (tryEnd_wf w)
      · exact w

@[simp] theorem execQueueUnmapComplete_keepsForm {t : Four} {queue : Nat} : KeepsForm s (execQueueUnmapComplete t queue s) := by
  refine keepsForm_next fun w => ?_
  split
  · split
    · exact w
    · extract_lets s1
      have w1 : s1.hbm.wf := mirror_wf w
      split
      · exact schedule_wf w1
      · exact w1
  · exact w

@[simp] theorem execSliceExpiry_keepsForm {t : Four} {queue : Nat} : KeepsForm s (execSliceExpiry t queue s) := by
  refine keepsForm_next fun w => ?_
  split
  · split
    · exact schedule_wf w
    · exact w
  · exact w

@[simp] theorem execQueueMapComplete_keepsForm {t : Four} {queue : Nat} : KeepsForm s (execQueueMapComplete t queue s) := by
  refine keepsForm_next fun w => ?_
  split
  · split
    · exact w
    · extract_lets s1 s2 s3 kicked s4 s5 s6
      have w2 : s2.hbm.wf := by
        simp only [s2]
        split
        · exact w
        · exact publish_wf w
      have w3 : s3.hbm.wf := by
        simp only [s3]
        split
        · split
          · exact w2
          · exact publish_wf w2
        · exact w2
      have w4 : s4.hbm.wf := by
        simp only [s4]
        split
        · exact kick_wf w3
        · exact w3
      have w6 : s6.hbm.wf := mirror_wf (foldl_wf (fun _ _ w => by simpa using w) (endCompleted_wf w4))
      split
      · exact schedule_wf w6
      · exact w6
  · exact w

@[simp] theorem execLayerMove_keepsForm {gang member : Nat} : KeepsForm s (execLayerMove gang member s) := by
  refine keepsForm_next fun w => ?_
  split
  · exact w
  · split
    · exact w
    · split
      · exact w
      · extract_lets freed cancel
        have wc : cancel.hbm.wf := by simpa [cancel, freed] using w
        split
        · exact wc
        · split
          · exact w
          · split
            · simpa using w
            · split
              · split
                · simpa [freed] using w
                · exact wc
              · split
                · exact wc
                · split
                  · exact w
                  · simpa [freed] using w

@[simp] theorem execColumnMove_keepsForm {gang : Nat} : KeepsForm s (execColumnMove gang s) := by
  refine keepsForm_next fun w => ?_
  split
  · exact w
  · split
    · extract_lets s1
      have w1 : s1.hbm.wf := applyGang_wf w
      split
      · simpa using w
      · split
        · exact w
        · split
          · simpa using w
          · split
            · exact w1
            · split
              · exact moveGang_wf w1
              · exact w1
    · exact w

@[simp] theorem execColumnMoveCancel_keepsForm {gang : Nat} : KeepsForm s (execColumnMoveCancel gang s) := by
  refine keepsForm_next fun w => ?_
  split
  · exact w
  · split
    · split
      · simpa using w
      · exact w
    · exact w

@[simp] theorem execCoreWake_keepsForm {t : Four} {col : Nat} {tier : Four} : KeepsForm s (execCoreWake t col tier s) := by
  refine keepsForm_next fun w => ?_
  dsimp only
  split
  · split
    · exact w
    · simpa using w
  · exact w

@[simp] theorem execTrapRecordWrite_keepsForm {t : Four} : KeepsForm s (execTrapRecordWrite t s) := by
  refine keepsForm_next fun w => ?_
  split
  · exact w
  · rename_i e
    have w1 := ringWrite_wf e w
    dsimp only
    split
    · exact w1
    · simpa using w1

@[simp] theorem execFaultRecordWrite_keepsForm {t : Four} : KeepsForm s (execFaultRecordWrite t s) := by
  refine keepsForm_next fun w => ?_
  split
  · exact w
  · rename_i e
    have w1 := ringWrite_wf e w
    dsimp only
    split <;> simpa using w1

@[simp] theorem execErrorDetected_keepsForm {t : Four} {e : ErrorEvent} : KeepsForm s (execErrorDetected t e s) := by
  refine keepsForm_next fun w => ?_
  extract_lets u killed outcome s1 s2 s3
  have w3 : s3.hbm.wf := by
    simp only [s3]
    split
    · simpa [s2, s1] using w
    · exact w
  split
  · exact foldl_wf (fun _ _ w => killLaunch_wf w) w3
  · exact w

@[simp] theorem execTargetedSelfTest_keepsForm {t : Four} {unit index : Byte} {v : TestVerdict} :
    KeepsForm s (execTargetedSelfTest t unit index v s) := by
  refine keepsForm_next fun w => ?_
  split
  · exact w
  · extract_lets clear s1 more
    have wc : ∀ s, s.hbm.wf → (clear s).hbm.wf := fun s w => by simpa [clear] using w
    have w1 : s1.hbm.wf := wc _ (concludeColumn_wf w)
    split
    · split
      · split
        · exact w1
        · simpa using w1
      · exact w
    · exact wc _ (by simpa using w)

@[simp] theorem execLinkqTailWrite_keepsForm {t : Four} {v : DWord} : KeepsForm s (execLinkqTailWrite t v s) := by
  refine keepsForm_next fun w => ?_
  dsimp only
  split
  · split <;> exact w
  · exact w

@[simp] theorem execLinkTransfer_keepsForm {t : Four} {slot : Nat} : KeepsForm s (execLinkTransfer t slot s) := by
  refine keepsForm_next fun w => ?_
  split
  · simpa using w
  · exact w

@[simp] theorem execLinkTransferComplete_keepsForm {t : Four} {slot : Nat} {status : Byte} {data : List Byte} :
    KeepsForm s (execLinkTransferComplete t slot status data s) := by
  refine keepsForm_next fun w => ?_
  split
  · exact w
  · split
    · exact w
    · extract_lets r cva
      have wr : r.1.hbm.wf := linkEffect_wf (by simpa using w)
      split
      · exact wr
      · exact sysWrite_wf wr

@[simp] theorem execPeerAccess_keepsForm {t : Four} {win : Byte} {peer : Half} {off : DWord} {len : Nat} {write : Option (List Byte)} :
    KeepsForm s (execPeerAccess t win peer off len write s) := by
  refine keepsForm_next fun w => ?_
  dsimp only
  split
  · exact agentAccess_wf w
  · exact w

@[simp] theorem execLeaseClaim_keepsForm {t : Four} : KeepsForm s (execLeaseClaim t s) := by
  refine keepsForm_next fun w => ?_
  split
  · rename_i e
    exact foldl_wf (fun _ _ w => loseLeader_wf w) (by rwa [claimLease_hbm _ _ _ e])
  · exact w

@[simp] theorem execReset_keepsForm {starts : List (Quad TowerStart)} : KeepsForm s (execReset starts s) := by
  refine keepsForm_next fun w => ?_
  have w1 : (resetModule s).hbm.wf := resetModule_wf w
  split
  · exact startFrom_wf w1
  · split
    · simpa using w1
    · exact w1

@[simp] theorem execPowerLoss_keepsForm : KeepsForm s (execPowerLoss s) := keepsForm_next fun _ => rfl

@[simp] theorem execRegisterWrite_keepsForm {t : Four} {off : BitVec 18} {size : Nat} {v : DWord} :
    KeepsForm s (execRegisterWrite t off size v s) := by
  unfold execRegisterWrite
  dsimp only
  split
  · exact keepsForm_next id
  · split
    · exact keepsForm_next id
    · split
      · exact keepsForm_next id
      · split
        · exact keepsForm_next trapReply_wf
        · split
          · exact keepsForm_next id
          · split
            · exact keepsForm_next fun w => by simpa using w
            · split
              · exact execLinkqTailWrite_keepsForm
              · split
                · exact execWakeRegisterWrite_keepsForm
                · exact keepsForm_next fun w => by simpa using w

end

section
variable {s : State}

@[simp] theorem execBoostLeaseExpiry_keepsForm {gang member : Nat} : KeepsForm s (execBoostLeaseExpiry gang member s) :=
  keepsForm_next fun w => w

@[simp] theorem execHbmRetrainComplete_keepsForm {t : Four} {stack : Four} : KeepsForm s (execHbmRetrainComplete t stack s) :=
  keepsForm_next fun w => w

@[simp] theorem execLoadComplete_keepsForm {id : Nat} : KeepsForm s (execLoadComplete id s) :=
  keepsForm_next fun w => w

@[simp] theorem execLockTimeout_keepsForm {t : Four} : KeepsForm s (execLockTimeout t s) :=
  keepsForm_next fun w => w

@[simp] theorem execColumnGate_keepsForm {t : Four} {col : Nat} : KeepsForm s (execColumnGate t col s) :=
  keepsForm_next fun w => by simp [w]

@[simp] theorem execCoreGate_keepsForm {t : Four} {col : Nat} {tier : Four} : KeepsForm s (execCoreGate t col tier s) :=
  keepsForm_next fun w => by simp [w]

@[simp] theorem execFaultedLineReflush_keepsForm {t : Four} {col : Nat} {asid : Half} {va : DWord} : KeepsForm s (execFaultedLineReflush t col asid va s) :=
  keepsForm_next fun w => by simp [w]

@[simp] theorem execGovernorEvaluation_keepsForm {t : Four} {samples : List Nat} : KeepsForm s (execGovernorEvaluation t samples s) :=
  keepsForm_next fun w => by simp [w]

@[simp] theorem execHbmStateChange_keepsForm {t : Four} {stack : Four} {temp traffic : Nat} : KeepsForm s (execHbmStateChange t stack temp traffic s) :=
  keepsForm_next fun w => by simp [w]

@[simp] theorem execLeaseRenew_keepsForm {t : Four} : KeepsForm s (execLeaseRenew t s) :=
  keepsForm_next fun w => by simp [w]

@[simp] theorem execParkedRecordCheck_keepsForm {gang : Nat} : KeepsForm s (execParkedRecordCheck gang s) :=
  keepsForm_next fun w => by simp [w]

@[simp] theorem execSchedulingPass_keepsForm {t : Four} : KeepsForm s (execSchedulingPass t s) :=
  keepsForm_next fun w => by simp [w]

@[simp] theorem execSelfTestTimeout_keepsForm {t : Four} : KeepsForm s (execSelfTestTimeout t s) :=
  keepsForm_next fun w => by simp [w]

@[simp] theorem execTileOpComplete_keepsForm {id : Nat} : KeepsForm s (execTileOpComplete id s) :=
  keepsForm_next fun w => by simp [w]

@[simp] theorem execValveUpdate_keepsForm {t : Four} {base : List Nat} : KeepsForm s (execValveUpdate t base s) :=
  keepsForm_next fun w => by simp [w]

@[simp] theorem execDeadlineKill_keepsForm {t : Four} {launch : Nat} : KeepsForm s (execDeadlineKill t launch s) :=
  keepsForm_next fun w => by split <;> simp [w]

@[simp] theorem execDivertInstant_keepsForm {t : Four} {launch : Nat} : KeepsForm s (execDivertInstant t launch s) :=
  keepsForm_next fun w => by split <;> simp [w]

@[simp] theorem execRemoteDivert_keepsForm {t : Four} {launch : Nat} : KeepsForm s (execRemoteDivert t launch s) :=
  keepsForm_next fun w => by split <;> simp [w]

@[simp] theorem execPortDown_keepsForm {t : Four} {port : Four} {retries : Word} : KeepsForm s (execPortDown t port retries s) := by
  unfold execPortDown
  extract_lets s1
  have e1 : s1.hbm = s.hbm := by rw [updTower_hbm]
  refine keepsForm_next fun w => ?_
  rw [fresh_hbm]
  split
  · rwa [endSecond_hbm, e1]
  · rwa [e1]

end

end Sys2Proof.Machine
end

