-- ==== Sys2Proof/Proofs/FormOfExec.lean ====
section
/-!
SUPPORT. The outcome of exec, and of the steps that the machine takes of itself.
-/

set_option Elab.async false

namespace Sys2Proof.Machine

section
variable {s : State}

theorem nodeWrite_wf {t : Four} {q : Queue} {n : Node} {va : DWord} {bytes : Nat} {new : Nat → Nat} {after : State → Nat → State}
    (h : ∀ s x, s.hbm.wf → (after s x).hbm.wf) (w : s.hbm.wf) : (nodeWrite s t q n va bytes new after).hbm.wf := by
  unfold nodeWrite
  split
  · simpa using w
  · extract_lets s1 r
    have w1 : s1.hbm.wf := by
      simp only [s1]
      split
      · simpa [dropRdc] using pushPassed_wf w
      · exact w
    rw [overNode_hbm]
    exact h _ _ (sysWrite_wf (sysReadNat_wf w1))

theorem execTzero_keepsForm {td : BitVec 3} (hc : s.ctx? ≠ none) : KeepsForm s (execTzero td s) :=
  tileWord_keepsForm hc fun _ _ _ w => w

@[simp] theorem execLaunch_keepsForm {t : Four} {queue : Nat} {ctr : Word} : KeepsForm s (execLaunch t queue ctr s) :=
  nodeStep_keepsForm fun _ _ _ w => acceptLaunch_wf w

@[simp] theorem execNodeNop_keepsForm {t : Four} {queue : Nat} {ctr : Word} : KeepsForm s (execNodeNop t queue ctr s) :=
  nodeStep_keepsForm fun _ _ _ w => w

@[simp] theorem execWaitmem_keepsForm {t : Four} {queue : Nat} {ctr : Word} : KeepsForm s (execWaitmem t queue ctr s) :=
  nodeStep_keepsForm fun _ _ _ w => checkWaitmem_wf w

@[simp] theorem execWrite_keepsForm {t : Four} {queue : Nat} {ctr : Word} : KeepsForm s (execWrite t queue ctr s) :=
  nodeStep_keepsForm fun _ _ _ w => nodeWrite_wf (fun _ _ w => w) w

@[simp] theorem execTimestamp_keepsForm {t : Four} {queue : Nat} {ctr : Word} : KeepsForm s (execTimestamp t queue ctr s) :=
  nodeStep_keepsForm fun _ _ _ w => nodeWrite_wf (fun _ _ w => w) w

@[simp] theorem execSignal_keepsForm {t : Four} {queue : Nat} {ctr : Word} : KeepsForm s (execSignal t queue ctr s) :=
  nodeStep_keepsForm fun _ _ _ w => nodeWrite_wf (fun _ _ w => announceSignal_wf w) w

end

/-- Every word of a live group and every step of the hardware answers a next state whose memory is in canonical form. -/
theorem exec_keepsForm (i : Instr) {s : State} (hc : (encode i).isSome → s.ctx? ≠ none) : KeepsForm s (exec i s) := by
  cases i with
  | bra | call =>
    exact branch_keepsForm (hc rfl)
  | brany | brall =>
    exact groupBranch_keepsForm (hc rfl)
  | ret | jmpr | callr =>
    exact jump_keepsForm (hc rfl)
  | trap | brk =>
    exact hostCall_keepsForm (hc rfl)
  | sadd | ssub | smul | smulh | smulhn | sdiv | sdivn | srem | sremn | sand | sor | sxor | sshl | sshr | ssra | smin | smax |
    sminn | smaxn | sseq | sslt | ssltn | ssel | sli | saddi | sandi | sori | sxori | sshli | sshri | ssrai =>
    exact scalarOp_keepsForm (hc rfl)
  | vadd | vsub | vmul | vmulh | vmulhn | vand | vor | vxor | vandn | vshl | vshr | vsra | vmin | vmax | vminn | vmaxn | vbfe |
    vbfes | vfcps | vmad | vsel | vbfi | vabs | vneg | vpopc | vclz | vbrev | vmov | vfabs | vfneg | vfcls | vaddi | vandi | vori
    | vxori | vshli | vshri | vsrai | vli | vshfl | vshflx | vshflu | vshfld | vbcst | vvote | vreds | vscan =>
    exact laneOp_keepsForm (hc rfl)
  | vseq | vsne | vslt | vsle | vsltn | vslen | pand | por | pxor | pandn | pmov =>
    exact predOp_keepsForm (hc rfl)
  | vfseq | vfsne | vfslt | vfsle | vfsun =>
    unfold exec
    exact cmpFloat_keepsForm (hc rfl)
  | vfadd | vfsub | vfmul | vfmin | vfmax | vfdiv | vfma | vfms | vfnma | vfrnd | vsqrt | vhadd | vhsub | vhmul | vhmin | vhmax |
    vhfma | vrcp | vrsq | vexp2 | vlog2 | vsin | vcos | vtanh =>
    unfold exec
    exact floatOp_keepsForm (hc rfl)
  | tmma | tmmas =>
    exact drained_keepsForm (hc rfl)
  | tmmab | tmmasb =>
    exact intoTileWord_keepsForm (hc rfl)
  | tquant | tqcb =>
    unfold exec
    exact quantWord_keepsForm (hc rfl)
  | pfxX | pfxM | pfxH =>
    exact takePrefix_keepsForm (hc rfl)
  | br | cclose | clasp | clk | dlr | exit | join | nop | smovv | time | vmovs | wmark | yield =>
    unfold exec
    refine issue_keepsForm_of_hbm (hc rfl) fun c s => ?_
    rfl
  | boost | cwait | fence | gbar | racqTry | racqWait | sfmt | sld | sst | vatom | vld | vst | wait =>
    unfold exec
    refine issue_keepsForm_of_hbm (hc rfl) fun c s => ?_
    simp
  | admqTailWrite | fltqConsWrite | trapqConsWrite | ptpSample =>
    exact keepsForm_next fun w => w
  | divert | fail | hostAccess | kill | portStateChange | resume | retry | startTimeout =>
    exact keepsForm_next fun w => by simp [w]
  | srd => exact execSrd_keepsForm (hc rfl)
  | swr => exact execSwr_keepsForm (hc rfl)
  | vcvt => exact execVcvt_keepsForm (hc rfl)
  | vlds => exact execVlds_keepsForm (hc rfl)
  | vldsDq => exact execVldsDq_keepsForm (hc rfl)
  | vsts => exact execVsts_keepsForm (hc rfl)
  | vred => exact execVred_keepsForm (hc rfl)
  | settle => exact execSettle_keepsForm (hc rfl)
  | acopy => exact execAcopy_keepsForm (hc rfl)
  | acopyo => exact execAcopyo_keepsForm (hc rfl)
  | acopyt => exact execAcopyt_keepsForm (hc rfl)
  | acopyg => exact execAcopyg_keepsForm (hc rfl)
  | tcfg => exact execTcfg_keepsForm (hc rfl)
  | tcb => exact execTcb_keepsForm (hc rfl)
  | tld => exact execTld_keepsForm (hc rfl)
  | tst => exact execTst_keepsForm (hc rfl)
  | tldt => exact execTldt_keepsForm (hc rfl)
  | bgemv => exact execBgemv_keepsForm (hc rfl)
  | bfence => exact execBfence_keepsForm (hc rfl)
  | bara => exact execBara_keepsForm (hc rfl)
  | barw => exact execBarw_keepsForm (hc rfl)
  | bar => exact execBar_keepsForm (hc rfl)
  | sigw => exact execSigw_keepsForm (hc rfl)
  | sigp => exact execSigp_keepsForm (hc rfl)
  | wpop => exact execWpop_keepsForm (hc rfl)
  | rrel => exact execRrel_keepsForm (hc rfl)
  | accessConfirm => exact execAccessConfirm_keepsForm
  | loadComplete => exact execLoadComplete_keepsForm
  | storeAck => exact execStoreAck_keepsForm
  | reductionApply => exact execReductionApply_keepsForm
  | faultedLineReflush => exact execFaultedLineReflush_keepsForm
  | copyComplete => exact execCopyComplete_keepsForm
  | copyPageHold => exact execCopyPageHold_keepsForm
  | copyError => exact execCopyError_keepsForm
  | tileOpComplete => exact execTileOpComplete_keepsForm
  | matrixProductComplete => exact execMatrixProductComplete_keepsForm
  | bgemvConfirm => exact execBgemvConfirm_keepsForm
  | bgemvRowDeliver => exact execBgemvRowDeliver_keepsForm
  | restring => exact execRestring_keepsForm
  | placementForward => exact execPlacementForward_keepsForm
  | gangRetire => exact execGangRetire_keepsForm
  | parkGang => exact execParkGang_keepsForm
  | gangSaveComplete => exact execGangSaveComplete_keepsForm
  | gangRestore => exact execGangRestore_keepsForm
  | waitRecheck => exact execWaitRecheck_keepsForm
  | parkedRecordCheck => exact execParkedRecordCheck_keepsForm
  | wakeRegisterWrite => exact execWakeRegisterWrite_keepsForm
  | feed => exact execFeed_keepsForm
  | copy => exact execCopy_keepsForm
  | phase => exact execPhase_keepsForm
  | nodeEnd => exact execNodeEnd_keepsForm
  | schedulingPass => exact execSchedulingPass_keepsForm
  | queueUnmapComplete => exact execQueueUnmapComplete_keepsForm
  | sliceExpiry => exact execSliceExpiry_keepsForm
  | governorEvaluation => exact execGovernorEvaluation_keepsForm
  | layerMove => exact execLayerMove_keepsForm
  | columnMove => exact execColumnMove_keepsForm
  | columnMoveCancel => exact execColumnMoveCancel_keepsForm
  | valveUpdate => exact execValveUpdate_keepsForm
  | hbmStateChange => exact execHbmStateChange_keepsForm
  | hbmRetrainComplete => exact execHbmRetrainComplete_keepsForm
  | coreGate => exact execCoreGate_keepsForm
  | columnGate => exact execColumnGate_keepsForm
  | coreWake => exact execCoreWake_keepsForm
  | boostLeaseExpiry => exact execBoostLeaseExpiry_keepsForm
  | trapRecordWrite => exact execTrapRecordWrite_keepsForm
  | faultRecordWrite => exact execFaultRecordWrite_keepsForm
  | watchdog => exact execWatchdog_keepsForm
  | divertInstant => exact execDivertInstant_keepsForm
  | remoteDivert => exact execRemoteDivert_keepsForm
  | deadlineKill => exact execDeadlineKill_keepsForm
  | createSpace => exact execCreateSpace_keepsForm
  | destroySpace => exact execDestroySpace_keepsForm
  | createQueue => exact execCreateQueue_keepsForm
  | destroyQueue => exact execDestroyQueue_keepsForm
  | bindWq => exact execBindWq_keepsForm
  | setRing => exact execSetRing_keepsForm
  | xlateInval => exact execXlateInval_keepsForm
  | setCarveout => exact execSetCarveout_keepsForm
  | setSlots => exact execSetSlots_keepsForm
  | setWatchdog => exact execSetWatchdog_keepsForm
  | setValves => exact execSetValves_keepsForm
  | setHbm => exact execSetHbm_keepsForm
  | drain => exact execDrain_keepsForm
  | selfTest => exact execSelfTest_keepsForm
  | stackTest => exact execStackTest_keepsForm
  | maint => exact execMaint_keepsForm
  | setLink => exact execSetLink_keepsForm
  | openWindow => exact execOpenWindow_keepsForm
  | closeWindow => exact execCloseWindow_keepsForm
  | patch => exact execPatch_keepsForm
  | attest => exact execAttest_keepsForm
  | restart => exact execRestart_keepsForm
  | linkqTailWrite => exact execLinkqTailWrite_keepsForm
  | linkTransfer => exact execLinkTransfer_keepsForm
  | linkTransferComplete => exact execLinkTransferComplete_keepsForm
  | peerAccess t => exact execPeerAccess_keepsForm (t := t)
  | portDown => exact execPortDown_keepsForm
  | leaseRenew => exact execLeaseRenew_keepsForm
  | leaseClaim => exact execLeaseClaim_keepsForm
  | reset => exact execReset_keepsForm
  | lockTimeout => exact execLockTimeout_keepsForm
  | errorDetected => exact execErrorDetected_keepsForm
  | targetedSelfTest => exact execTargetedSelfTest_keepsForm
  | registerWrite => exact execRegisterWrite_keepsForm
  | queueMapComplete => exact execQueueMapComplete_keepsForm
  | selfTestTimeout => exact execSelfTestTimeout_keepsForm
  | powerLoss => exact execPowerLoss_keepsForm
  | launch => exact execLaunch_keepsForm
  | nodeNop => exact execNodeNop_keepsForm
  | waitmem => exact execWaitmem_keepsForm
  | write => exact execWrite_keepsForm
  | timestamp => exact execTimestamp_keepsForm
  | signal => exact execSignal_keepsForm
  | tzero => exact execTzero_keepsForm (hc rfl)

/-! ### The steps the machine takes of itself -/

/-- From every state, each of these doings answers a next state that keeps the canonical form. -/
def AllKeepForm (fs : List Doing) : Prop := ∀ f ∈ fs, ∀ s, KeepsForm s (f s)

@[simp] theorem allKeepForm_nil : AllKeepForm [] := fun _ h => nomatch h

@[simp] theorem allKeepForm_cons {f : Doing} {fs : List Doing} :
    AllKeepForm (f :: fs) ↔ (∀ s, KeepsForm s (f s)) ∧ AllKeepForm fs := List.forall_mem_cons

@[simp] theorem allKeepForm_append {fs gs : List Doing} : AllKeepForm (fs ++ gs) ↔ AllKeepForm fs ∧ AllKeepForm gs :=
  List.forall_mem_append

@[simp] theorem allKeepForm_map {α : Type} {g : α → Doing} {l : List α} :
    AllKeepForm (l.map g) ↔ ∀ a ∈ l, ∀ s, KeepsForm s (g a s) := List.forall_mem_map

@[simp] theorem allKeepForm_flatMap {α : Type} {g : α → List Doing} {l : List α} :
    AllKeepForm (l.flatMap g) ↔ ∀ a ∈ l, AllKeepForm (g a) := List.forall_mem_flatMap

@[simp] theorem allKeepForm_ite {p : Prop} [Decidable p] {fs : List Doing} (h : AllKeepForm fs) :
    AllKeepForm (if p then fs else []) := by
  split
  · exact h
  · exact allKeepForm_nil

@[simp] theorem beadSteps_keepForm {g : Gang} {w : Wg} {b : Bead} : AllKeepForm (beadSteps g w b) := by
  unfold beadSteps
  split
  · split
    · simp
    · split <;> simp
  · simp

@[simp] theorem gangSteps_keepForm {g : Gang} : AllKeepForm (gangSteps g) := by
  unfold gangSteps
  split <;> simp

@[simp] theorem nodeSteps_keepForm {t : Four} {q : Queue} {n : Node} : AllKeepForm (nodeSteps t q n) := by
  unfold nodeSteps
  split
  · simp
  · simp
  · split <;> simp

@[simp] theorem queueSteps_keepForm {t : Four} {q : Queue} : AllKeepForm (queueSteps t q) := by
  simp [queueSteps]

@[simp] theorem adminStep_keepForm {s : State} {t : Four} : AllKeepForm (adminStep s t) := by
  unfold adminStep
  split
  · simp
  · split <;> simp

@[simp] theorem columnSteps_keepForm {t : Four} {now c : Nat} {co : Column} : AllKeepForm (columnSteps t now c co) := by
  simp [columnSteps]

@[simp] theorem towerSteps_keepForm {s : State} {t : Four} : AllKeepForm (towerSteps s t) := by
  have bank : ∀ (k : Nat) (s : State), KeepsForm s (.next (drainBank s t k)) := fun k s => keepsForm_next drainBank_wf
  simp [towerSteps, List.mapIdx_eq_zipIdx_map, ← List.flatMap_def, bank]

@[simp] theorem launchSteps_keepForm {l : Launch} : AllKeepForm (launchSteps l) := by
  unfold launchSteps
  split <;> simp

@[simp] theorem startStep_keepForm {s : State} : AllKeepForm (startStep s) := by
  simp [startStep]

theorem hardwareSteps_keepForm {s : State} : AllKeepForm (hardwareSteps s) := by
  simp [hardwareSteps]

theorem nextStep_keepsForm {s : State} {f : Doing} (e : nextStep s = some f) (s : State) : KeepsForm s (f s) :=
  hardwareSteps_keepForm f (List.mem_of_getElem? e) s

end Sys2Proof.Machine
end

