-- ==== Sys2Proof/Proofs/Seats.lean ====
section
/-!
SUPPORT. What decides that the current group is a live group of a resident gang, and that a fetch leaves it so.
-/

set_option Elab.async false

namespace Sys2Proof.Machine

/-! ### Who sits where: what a fetch leaves of gangs, launches and the turn -/

/-- What `Wg.group` reads of a bead. -/
def Bead.seat (b : Bead) : Nat × Nat × Bool := (b.pos, b.grp, b.live)

/-- What `State.ctx?` reads of a workgroup. -/
def Wg.seat (w : Wg) : Nat × List (Nat × Nat × Bool) := (w.pos, w.beads.map Bead.seat)

/-- What `State.ctx?` reads of a gang. -/
def Gang.seat (g : Gang) : Nat × Nat × Bool × List (Nat × List (Nat × Nat × Bool)) :=
  (g.id, g.launch, g.resident, g.members.map Wg.seat)

/-- The group that has the turn, without the mark of a reserved word. -/
def Cursor.seat (c : Cursor) : Nat × Nat × Nat := (c.gang, c.member, c.grp)

/-- All that decides whether the current group has a context. -/
structure Seats where
  cur : Option (Nat × Nat × Nat)
  launches : List Nat
  gangs : List (Nat × Nat × Bool × List (Nat × List (Nat × Nat × Bool)))

def State.seats (s : State) : Seats := ⟨s.cur.map Cursor.seat, s.launches.map (·.id), s.gangs.map Gang.seat⟩

theorem find?_of_map_eq {α β : Type} {f : α → β} {p : α → Bool} {l m : List α} {a : α} (q : β → Bool) (h : ∀ a, q (f a) = p a)
    (e : m.map f = l.map f) (hl : l.find? p = some a) : ∃ b, m.find? p = some b ∧ f b = f a := by
  have swap : ∀ l : List α, (l.map f).find? q = (l.find? p).map f := fun l => by
    rw [List.find?_map]
    congr 2
    exact funext h
  have hm : (m.find? p).map f = some (f a) := by rw [← swap, e, swap, hl, Option.map_some]
  simpa using hm

theorem group_ne_nil_iff {w : Wg} {grp : Nat} : w.group grp ≠ [] ↔ ∃ b ∈ w.beads, b.pos < 8 ∧ b.inGrp grp = true := by
  constructor
  · intro h
    obtain ⟨b, hb⟩ := List.exists_mem_of_ne_nil _ h
    obtain ⟨p, hp, hf⟩ := List.mem_filterMap.1 hb
    have here : (b.pos == p && b.inGrp grp) = true := List.find?_some (p := fun b : Bead => b.pos == p && b.inGrp grp) hf
    obtain ⟨hbp, hin⟩ := (Bool.and_eq_true _ _).mp here
    refine ⟨b, List.mem_of_find?_eq_some hf, ?_, hin⟩
    rw [eq_of_beq hbp]
    exact List.mem_range.1 hp
  · rintro ⟨b, hb, hp, hin⟩ hnil
    have hf := List.filterMap_eq_nil_iff.1 hnil b.pos (List.mem_range.2 hp)
    exact List.find?_eq_none.1 hf b hb ((Bool.and_eq_true _ _).mpr ⟨beq_self_eq_true _, hin⟩)

theorem ctx?_ne_none_iff {s : State} :
    s.ctx? ≠ none ↔ ∃ c g l w, s.cur = some c ∧ s.gang? c.gang = some g ∧ s.launch? g.launch = some l
      ∧ g.member? c.member = some w ∧ g.resident = true ∧ w.group c.grp ≠ [] := by
  unfold State.ctx?
  constructor
  · intro h
    split at h
    · contradiction
    · rename_i c hc
      split at h
      · contradiction
      · rename_i g hg
        split at h
        · rename_i l w hl hw
          split at h
          · rename_i b bs hr hb
            exact ⟨c, g, l, w, hc, hg, hl, hw, hr, by simp [hb]⟩
          · contradiction
        · contradiction
  · rintro ⟨c, g, l, w, hc, hg, hl, hw, hr, hb⟩
    obtain ⟨b, bs, hb⟩ := List.exists_cons_of_ne_nil hb
    simp [hc, hg, hl, hw, hr, hb]

/-- States with the same seats agree on whether the current group is a live group of a resident gang. -/
theorem ctx?_ne_none_of_seats {s t : State} (e : t.seats = s.seats) (h : s.ctx? ≠ none) : t.ctx? ≠ none := by
  obtain ⟨c, g, l, w, hc, hg, hl, hw, hr, hb⟩ := ctx?_ne_none_iff.1 h
  obtain ⟨ec, el, eg⟩ := Seats.mk.inj e
  obtain ⟨c', hc', ec⟩ : ∃ c', t.cur = some c' ∧ c'.seat = c.seat := by simpa [hc] using ec
  obtain ⟨hcg, hcm, hcr⟩ : c'.gang = c.gang ∧ c'.member = c.member ∧ c'.grp = c.grp := by simpa [Cursor.seat] using ec
  obtain ⟨g', hg', eg⟩ := find?_of_map_eq (f := Gang.seat) (fun x => x.1 == c.gang) (fun _ => rfl) eg hg
  obtain ⟨-, hgl, hgr, hgm⟩ : g'.id = g.id ∧ g'.launch = g.launch ∧ g'.resident = g.resident ∧ g'.members.map Wg.seat = g.members.map Wg.seat := by
    simpa [Gang.seat] using eg
  obtain ⟨l', hl', -⟩ := find?_of_map_eq (· == g.launch) (fun _ => rfl) el hl
  obtain ⟨w', hw', ew⟩ := find?_of_map_eq (f := Wg.seat) (fun x => x.1 == c.member) (fun _ => rfl) hgm hw
  obtain ⟨-, hwb⟩ : w'.pos = w.pos ∧ w'.beads.map Bead.seat = w.beads.map Bead.seat := by simpa [Wg.seat] using ew
  obtain ⟨b, hb, hp, hin⟩ := group_ne_nil_iff.1 hb
  obtain ⟨b', hb', eb⟩ := List.mem_map.1 (hwb ▸ List.mem_map_of_mem hb)
  obtain ⟨hbp, hbg, hbl⟩ : b'.pos = b.pos ∧ b'.grp = b.grp ∧ b'.live = b.live := by simpa [Bead.seat] using eb
  refine ctx?_ne_none_iff.2 ⟨c', g', l', w', hc', ?_, ?_, ?_, hgr.trans hr, group_ne_nil_iff.2 ⟨b', hb', ?_, ?_⟩⟩
  · rwa [hcg]
  · rwa [hgl]
  · rwa [hcm]
  · rwa [hbp]
  · rwa [Bead.inGrp, hbg, hbl, hcr]

/-! The seats through the operations of a fetch -/

theorem foldl_seats {α : Type} {f : State → α → State} {l : List α} {s : State} (h : ∀ s a, (f s a).seats = s.seats) :
    (l.foldl f s).seats = s.seats := by
  induction l generalizing s with
  | nil => rfl
  | cons a l ih => exact (ih (s := f s a)).trans (h s a)

theorem seats_eq {s t : State} (hc : t.cur = s.cur) (hl : t.launches.map (·.id) = s.launches.map (·.id))
    (hg : t.gangs.map Gang.seat = s.gangs.map Gang.seat) : t.seats = s.seats := by
  simp only [State.seats, hc, hl, hg]

theorem map_if_of_eq {α β : Type} {f : α → β} {g : α → α} {p : α → Bool} (l : List α) (h : ∀ a, f (g a) = f a) :
    (l.map fun a => if p a then g a else a).map f = l.map f := by
  simp only [List.map_map, List.map_inj_left, Function.comp_apply]
  intro a _
  split
  · exact h a
  · rfl

@[simp] theorem updTower_seats (s : State) (t : Four) (f : Tower → Tower) : (s.updTower t f).seats = s.seats := rfl
@[simp] theorem updCol_seats (s : State) (t : Four) (c : Nat) (f : Column → Column) : (s.updCol t c f).seats = s.seats := rfl
@[simp] theorem fresh_seats (s : State) : s.fresh.seats = s.seats := rfl

@[simp] theorem updLaunch_seats {s : State} {id : Nat} {f : Launch → Launch} (h : ∀ l, (f l).id = l.id) :
    (s.updLaunch id f).seats = s.seats := seats_eq rfl (map_if_of_eq _ h) rfl

@[simp] theorem updGang_seats {s : State} {id : Nat} {f : Gang → Gang} (h : ∀ g, (f g).seat = g.seat) :
    (s.updGang id f).seats = s.seats := seats_eq rfl rfl (map_if_of_eq _ h)

theorem updGrp_seats {s : State} {c : Cursor} {f : Bead → Bead} (h : ∀ b, (f b).seat = b.seat) : (s.updGrp c f).seats = s.seats := by
  refine updGang_seats fun g => ?_
  have hw : ∀ w : Wg, (w.updBeads (Bead.inGrp c.grp) f).seat = w.seat := fun w => by
    simp only [Wg.seat, Wg.updBeads, map_if_of_eq _ h]
  simp only [Gang.seat, Gang.updMember, map_if_of_eq _ hw]
  rfl

@[simp] theorem mapBeads_completeStore_seats (s : State) (id : Nat) : (s.mapBeads (Bead.completeStore id)).seats = s.seats := by
  refine seats_eq rfl rfl ?_
  have hb : Bead.seat ∘ Bead.completeStore id = Bead.seat := rfl
  have hw : (Wg.seat ∘ fun w : Wg => { w with beads := w.beads.map (Bead.completeStore id) }) = Wg.seat := by
    funext w
    simp [Wg.seat, hb]
  simp only [State.mapBeads, List.map_map]
  congr 1
  funext g
  simp only [Function.comp_apply, Gang.seat, List.map_map, hw]
  rfl

@[simp] theorem charge_seats {s : State} {who : Option Nat} {f : Charges → Charges} : (s.charge who f).seats = s.seats := by
  cases who with
  | none => rfl
  | some id => exact updLaunch_seats fun _ => rfl

@[simp] theorem chargeRead_seats {s : State} {who : Option Nat} {n m : Nat} : (s.chargeRead who n m).seats = s.seats := charge_seats
@[simp] theorem chargeWrite_seats {s : State} {who : Option Nat} {n : Nat} : (s.chargeWrite who n).seats = s.seats := charge_seats

@[simp] theorem remember_seats {s : State} {asid : Half} {va : DWord} : (remember s asid va).seats = s.seats := by
  unfold remember
  split
  · dsimp only
    split <;> rfl
  · rfl

@[simp] theorem writeBack_seats {s : State} {l : Line} : (writeBack s l).seats = s.seats := by
  unfold writeBack
  dsimp only
  split
  · exact chargeWrite_seats
  · rfl

@[simp] theorem remapFilter_seats {s : State} {t : Four} {asid : Half} {va : DWord} {pa : Nat} :
    (remapFilter s t asid va pa).seats = s.seats := foldl_seats fun _ _ => writeBack_seats

@[simp] theorem roomL2_seats {s : State} {t : Four} : (roomL2 s t).seats = s.seats := by
  unfold roomL2
  dsimp only
  split
  · rfl
  · split
    · rfl
    · exact writeBack_seats

@[simp] theorem roomRdc_seats {s : State} {t : Four} : (roomRdc s t).seats = s.seats := by
  unfold roomRdc
  dsimp only
  split <;> rfl

@[simp] theorem snoop_seats {s : State} {pa : Nat} : (snoop s pa).seats = s.seats := foldl_seats fun _ _ => rfl

@[simp] theorem fillRest_seats {s : State} {l : Line} {h : Hit} : (fillRest s l h).1.seats = s.seats := chargeRead_seats

@[simp] theorem homeFill_seats {s : State} {asid : Half} {va : DWord} {h : Hit} : (homeFill s asid va h).1.seats = s.seats := by
  unfold homeFill
  dsimp only
  split
  · split
    · rfl
    · exact fillRest_seats
  · split <;> simp

@[simp] theorem homeRead_seats {s : State} {asid : Half} {va : DWord} {n : Nat} {h : Hit} : (homeRead s asid va n h).1.seats = s.seats :=
  homeFill_seats

@[simp] theorem homeWrite_seats {s : State} {asid : Half} {va : DWord} {bs : List Byte} {h : Hit} :
    (homeWrite s asid va bs h).seats = s.seats := by
  unfold homeWrite
  extract_lets t at_ there s1 queued l s2
  have e1 : s1.seats = s.seats := by
    simp only [s1]
    split <;> simp
  have e2 : s2.seats = s1.seats := by
    simp only [s2]
    split
    · simp
    · split
      · exact chargeWrite_seats
      · split <;> simp
  rw [updTower_seats, snoop_seats, e2, e1]

@[simp] theorem storeHome_seats {s : State} {r : StoreRec} : (storeHome s r).seats = s.seats := homeWrite_seats

@[simp] theorem rdcPass_seats {s : State} {r : StoreRec} : (rdcPass s r).seats = s.seats := by
  unfold rdcPass
  split <;> rfl

@[simp] theorem pushPassed_seats {s : State} {t : Four} {pa : Nat} : (pushPassed s t pa).seats = s.seats :=
  foldl_seats fun _ _ => storeHome_seats

@[simp] theorem pushStores_seats {s : State} {t : Four} {c : Nat} {asid : Half} {va : DWord} {pa : Nat} :
    (pushStores s t c asid va pa).seats = s.seats := by
  refine (foldl_seats fun s r => ?_).trans pushPassed_seats
  dsimp only
  split
  · split <;> simp
  · simp

@[simp] theorem dropPassed_seats {s : State} {t : Four} {c : Nat} {asid : Half} {va : DWord} {pa : Nat} :
    (dropPassed s t c asid va pa).seats = s.seats := by
  unfold dropPassed dropRdc
  split <;> rfl

theorem reduceHome_seats {s u : State} {who : Option Nat} {t : Four} {c : Nat} {asid : Half} {va : DWord} {op : RedOp} {y : DWord}
    (e : reduceHome s who t c asid va op y = .ok u) : u.seats = s.seats := by
  unfold reduceHome at e
  split at e
  · cases e
    simp
  · contradiction

@[simp] theorem newDefer_seats {s : State} {gang : Nat} {d : Defer} {f : Conf} : (newDefer s gang d f).seats = s.seats := by
  have e : (pushDefer s gang d).seats = s.seats := updGang_seats fun _ => rfl
  unfold newDefer
  dsimp only
  split
  · exact e
  · split
    · exact e
    · exact e

@[simp] theorem flushWord_seats {t : Four} {c : Nat} {sl : State × AccLine} {k : Nat} : (flushWord t c sl k).1.seats = sl.1.seats := by
  unfold flushWord
  dsimp only
  split
  · rfl
  · split
    · rename_i e
      simp [reduceHome_seats e]
    · split <;> simp

theorem foldl_flushWord_seats {t : Four} {c : Nat} {ks : List Nat} {sl : State × AccLine} :
    (ks.foldl (flushWord t c) sl).1.seats = sl.1.seats := by
  induction ks generalizing sl with
  | nil => rfl
  | cons k ks ih => exact ih.trans flushWord_seats

@[simp] theorem evictAcc_seats {s : State} {t : Four} {c : Nat} {l : AccLine} : (evictAcc s t c l).seats = s.seats :=
  foldl_flushWord_seats (sl := (s, l))

@[simp] theorem roomCol_seats {n : Nat} {s : State} {t : Four} {c : Nat} : (roomCol n s t c).1.seats = s.seats := by
  induction n generalizing s with
  | zero => rfl
  | succ n ih =>
    unfold roomCol
    dsimp only
    split
    · rfl
    · split
      · rfl
      · split
        · simp [ih]
        · rfl

@[simp] theorem makeRoom_seats {s : State} {t : Four} {c : Nat} : (makeRoom s t c).1.seats = s.seats := roomCol_seats

@[simp] theorem towerFill_seats {s : State} {t : Four} {asid : Half} {va : DWord} {h : Hit} : (towerFill s t asid va h).1.seats = s.seats := by
  unfold towerFill
  dsimp only
  split
  · exact homeFill_seats
  · split
    · rfl
    · split <;> simp

@[simp] theorem colFill_seats {s : State} {t : Four} {c : Nat} {asid : Half} {va : DWord} {h : Hit} {na : Bool} :
    (colFill s t c asid va h na).1.seats = s.seats := by
  unfold colFill
  dsimp only
  split
  · rfl
  · split
    · split <;> simp
    · simp

@[simp] theorem fetchAt_seats {c : Ctx} {s : State} {pc : DWord} {h : Hit} : (fetchAt c s pc h).1.seats = s.seats := colFill_seats

@[simp] theorem markXfer_seats {c : Ctx} {s : State} : (markXfer c s).seats = s.seats := by
  unfold markXfer
  split
  · exact updGrp_seats fun _ => rfl
  · rfl

@[simp] theorem withResv_seats {s : State} {r : Bool} : (s.withResv r).seats = s.seats := by
  simp only [State.withResv, State.seats, Option.map_map]
  rfl

end Sys2Proof.Machine
end

