-- ==== Sys2Proof/Proofs/Step.lean ====
section
/-!
The step goes on from every state and keeps the canonical form of module memory.
-/

set_option Elab.async false

namespace Sys2Proof.Machine

/-! ### The fetch and the turn -/

/-- A fetch ends the turn, or answers the word and leaves the group its seat; either way the canonical form is kept. -/
theorem fetch_keeps (c : Ctx) (s : State) :
    (∃ t, fetch c s = .stop t ∧ (s.hbm.wf → t.hbm.wf))
    ∨ ∃ i t, fetch c s = .run i t ∧ (s.hbm.wf → t.hbm.wf) ∧ t.seats = s.seats := by
  unfold fetch
  split
  · exact .inl ⟨_, rfl, fun w => by simpa using w⟩
  · split
    · exact .inl ⟨_, rfl, fun w => by simpa using w⟩
    · exact .inl ⟨_, rfl, fun w => by simpa using w⟩
    · exact .inl ⟨_, rfl, fun w => by simpa using w⟩
    · rename_i h _
      extract_lets x s1 r
      have ws : s.hbm.wf → s1.hbm.wf := fun w => by
        simp only [s1]
        split
        · exact makeRoom_wf w
        · exact w
      have wr : s.hbm.wf → r.1.hbm.wf := fun w => fetchAt_wf (ws w)
      have es : r.1.seats = s.seats := by
        simp only [r, fetchAt_seats, s1]
        split
        · exact makeRoom_seats
        · rfl
      split
      · exact .inl ⟨_, rfl, fun w => by simpa using ws w⟩
      · split
        · exact .inl ⟨_, rfl, fun w => by simpa using wr w⟩
        · exact .inr ⟨_, _, rfl, fun w => markXfer_wf (wr w), markXfer_seats.trans es⟩
        · exact .inr ⟨_, _, rfl, fun w => markXfer_wf (wr w), withResv_seats.trans (markXfer_seats.trans es)⟩

theorem keepsForm_of_wf {s t : State} {r : Res} (h : KeepsForm t r) (w : s.hbm.wf → t.hbm.wf) : KeepsForm s r := by
  obtain ⟨u, e, hu⟩ := h
  exact ⟨u, e, fun ws => hu (w ws)⟩

theorem runGroup_keepsForm {s : State} : KeepsForm s (runGroup s) := by
  unfold runGroup
  split
  · exact keepsForm_next id
  · rename_i c hc
    have live : s.ctx? ≠ none := by simp [hc]
    split
    · exact keepsForm_next id
    · split
      · exact exec_keepsForm _ fun _ => live
      · obtain ⟨t, e, w⟩ | ⟨i, t, e, w, seats⟩ := fetch_keeps c s
        · rw [e]
          exact keepsForm_next w
        · rw [e]
          exact keepsForm_of_wf (exec_keepsForm i fun _ => ctx?_ne_none_of_seats seats live) w

theorem perform_keepsForm {s : State} {c : Choice} : KeepsForm s (perform s c) := by
  cases c with
  | issue g m grp => exact runGroup_keepsForm (s := { s with cur := some { gang := g, member := m, grp, resv := false } })
  | event i =>
    simp only [perform]
    split
    · exact keepsForm_next id
    · rename_i h
      exact exec_keepsForm i fun hi => absurd hi h
  | replace level t col asid va => exact keepsForm_next replaceLine_wf
  | drainBank t k => exact keepsForm_next drainBank_wf
  | idle => exact keepsForm_next id

theorem defaultTurn_keepsForm {s : State} : KeepsForm s (defaultTurn s) := by
  have own : ∀ f, nextStep s = some f → KeepsForm s (f { s with turn := s.turn + 1 }) := fun f e =>
    nextStep_keepsForm e { s with turn := s.turn + 1 }
  have group : ∀ c, KeepsForm s (perform { s with turn := s.turn + 1 } c) := fun c =>
    perform_keepsForm (s := { s with turn := s.turn + 1 })
  unfold defaultTurn
  dsimp only
  split
  · unfold turnOf
    split
    · exact group _
    · exact own _ ‹_›
    · exact keepsForm_next id
  · split
    · exact own _ ‹_›
    · unfold turnOf
      split
      · exact group _
      · contradiction
      · exact keepsForm_next id

/-- Every step answers a next state, in the canonical form if it began in it. -/
theorem step_keepsForm (s : State) : KeepsForm s (step s) := by
  have w : s.hbm.wf → (prelude s).hbm.wf := fun w => prelude_wf w
  unfold step
  generalize prelude s = p at w
  split
  · exact keepsForm_of_wf perform_keepsForm w
  · exact keepsForm_of_wf defaultTurn_keepsForm w

/-- Settles O4: the outcome of a step is one next state, and it keeps the canonical form. -/
theorem stepKeepsMemoryForm : Obligations.StepKeepsMemoryForm := by
  unfold Obligations.StepKeepsMemoryForm
  intro s t inv e
  obtain ⟨u, eu, w⟩ := step_keepsForm s
  cases eu.symm.trans e
  exact w inv

/-- Settles O3: a word runs only in a live group, where it issues or traps, and every step of the hardware answers a next state. -/
theorem stepGoesOn : Obligations.StepGoesOn := by
  unfold Obligations.StepGoesOn
  intro s
  obtain ⟨t, e, -⟩ := step_keepsForm s
  exact ⟨t, e⟩

/-- Settles O8 by the laws of a write to memory. -/
theorem memoryReadsWhatWasWritten : Obligations.MemoryReadsWhatWasWritten := by
  unfold Obligations.MemoryReadsWhatWasWritten
  exact fun m a bs w => ⟨Memory.wf_write w, Memory.read_write w, fun x h => Memory.get_write_other w h⟩

end Sys2Proof.Machine
end

