-- ==== Sys2Proof/Proofs/RegisterWords.lean ====
section
/-!
What the scalar, vector and predicate words change and leave.
-/

set_option Elab.async false

namespace Sys2Proof.Machine

/-! ### Register words: one update of the group's beads -/

theorem map_if_map_if {α : Type} {p : α → Bool} {f g : α → α} (h : ∀ a, p (f a) = p a) (l : List α) :
    (l.map fun a => if p a then f a else a).map (fun a => if p a then g a else a) = l.map fun a => if p a then g (f a) else a := by
  simp only [List.map_map, List.map_inj_left, Function.comp_apply]
  intro a _
  by_cases ha : p a = true
  · simp only [ha, if_true, h]
  · simp only [ha, if_false, Bool.false_eq_true]

theorem updBeads_updBeads {w : Wg} {p : Bead → Bool} {f g : Bead → Bead} (h : ∀ b, p (f b) = p b) :
    (w.updBeads p f).updBeads p g = w.updBeads p fun b => g (f b) :=
  congrArg (fun bs => { w with beads := bs }) (map_if_map_if h _)

theorem updMember_updMember {x : Gang} {m : Nat} {f g : Wg → Wg} (h : ∀ w, (f w).pos = w.pos) :
    (x.updMember m f).updMember m g = x.updMember m fun w => g (f w) :=
  congrArg (fun ws => { x with members := ws }) (map_if_map_if (fun w => by rw [h]) _)

theorem updGang_updGang {s : State} {id : Nat} {f g : Gang → Gang} (h : ∀ x, (f x).id = x.id) :
    (s.updGang id f).updGang id g = s.updGang id fun x => g (f x) :=
  congrArg (fun gs => { s with gangs := gs }) (map_if_map_if (fun x => by rw [h]) _)

/-- Two updates of one group are one, if the first leaves every bead in its group. -/
theorem updGrp_updGrp {s : State} {c : Cursor} {f g : Bead → Bead} (h : ∀ b, (f b).inGrp c.grp = b.inGrp c.grp) :
    (s.updGrp c f).updGrp c g = s.updGrp c fun b => g (f b) := by
  unfold State.updGrp State.updWg
  rw [updGang_updGang]
  · congr 1
    funext x
    rw [updMember_updMember]
    · congr 1
      funext w
      exact updBeads_updBeads h
    · exact fun _ => rfl
  · exact fun _ => rfl

/-- `f` changes nothing of a bead but its registers. -/
def RegistersOnly (f : Bead → Bead) : Prop := ∀ b, f b = { b with s := (f b).s, lanes := (f b).lanes }

/-- A register update that ends the unit has the frame of a register word. -/
theorem registerFrame_eachBead {c : Ctx} {s : State} {f : Bead → Bead} {keeps : Bead → Bead → Prop} (hf : RegistersOnly f)
    (hk : ∀ b, keeps b { (f b).advance with lastIssue := c.now s }) : RegisterFrame c s (c.eachBead s f) keeps := by
  refine ⟨fun b => { (f b).advance with lastIssue := c.now s }, updGrp_updGrp fun b => ?_, fun b => ⟨hk b, ?_⟩⟩
  · rw [hf b]
    rfl
  · dsimp only
    rw [hf b]
    rfl

theorem registersOnly_onLanes {m : Bead → Mask} {f : Bead → Four → Bead → Bead} (h : ∀ b k, RegistersOnly (f b k)) :
    RegistersOnly fun b => b.onLanes (m b) (f b) := by
  intro b
  have fold : ∀ (ks : List Four) (r : Bead), ks.foldl (fun r k => if laneIn (m b) k then f b k r else r) r
      = { r with s := (ks.foldl (fun r k => if laneIn (m b) k then f b k r else r) r).s,
                 lanes := (ks.foldl (fun r k => if laneIn (m b) k then f b k r else r) r).lanes } := by
    intro ks
    induction ks with
    | nil => exact fun _ => rfl
    | cons k ks ih =>
      intro r
      rw [List.foldl_cons, ih]
      split
      · rw [h b k r]
      · rfl
  exact fold Four.all b

/-- What a lane reads after an update lane by lane, if an update of one lane leaves the others as they were. -/
theorem read_onLanes {α : Type} {read : Bead → Four → α} {f : Four → Bead → Bead} {g : Four → α → α}
    (h : ∀ k r j, read (f k r) j = if j = k then g k (read r j) else read r j) (b : Bead) (m : Mask) (j : Four) :
    read (b.onLanes m f) j = if laneIn m j then g j (read b j) else read b j := by
  have fold : ∀ ks : List Four, ks.Nodup → ∀ r, read (ks.foldl (fun r k => if laneIn m k then f k r else r) r) j
      = if j ∈ ks ∧ laneIn m j then g j (read r j) else read r j := by
    intro ks
    induction ks with
    | nil => simp
    | cons k ks ih =>
      intro hd r
      obtain ⟨hk, hd⟩ := List.nodup_cons.1 hd
      rw [List.foldl_cons, ih hd]
      by_cases e : j = k
      · subst e
        by_cases hj : laneIn m j = true <;> simp [hk, hj, h]
      · by_cases hl : laneIn m k = true <;> simp [e, hl, h]
  have all : ∀ j, j ∈ Four.all := by decide
  have h4 := fold Four.all (by decide) b
  simp only [all, true_and] at h4
  exact h4

theorem registersOnly_vset (k : Four) (r : Reg) (x : Bead → Word) : RegistersOnly fun b => b.vset k r (x b) := fun _ => rfl

theorem registersOnly_pset (k : Four) (p : BitVec 3) (v : Bool) : RegistersOnly fun b => b.pset k p v := by
  intro b
  dsimp only
  unfold Bead.pset
  split <;> rfl

theorem registersOnly_sset_if (p : Bead → Bool) (d : Reg) (x : Bead → DWord) : RegistersOnly fun b => if p b then b.sset d (x b) else b := by
  intro b
  dsimp only
  unfold Bead.sset
  split
  · split <;> rfl
  · rfl

@[simp] theorem onLanes_vset_s (b : Bead) (m : Mask) (d : Reg) (x : Four → Word) : (b.onLanes m fun k r => r.vset k d (x k)).s = b.s := by
  simpa using read_onLanes (read := fun b _ => b.s) (f := fun k r => r.vset k d (x k)) (g := fun _ v => v) (by simp) b m 0

@[simp] theorem onLanes_pset_s (b : Bead) (m : Mask) (d : BitVec 3) (x : Four → Bool) : (b.onLanes m fun k r => r.pset k d (x k)).s = b.s := by
  simpa using read_onLanes (read := fun b _ => b.s) (f := fun k r => r.pset k d (x k)) (g := fun _ v => v) (by simp) b m 0

@[simp] theorem onLanes_vset_p (b : Bead) (m : Mask) (d : Reg) (x : Four → Word) (j : Four) :
    ((b.onLanes m fun k r => r.vset k d (x k)).lanes.get j).p = (b.lanes.get j).p := by
  simpa using read_onLanes (read := fun b k => (b.lanes.get k).p) (f := fun k r => r.vset k d (x k)) (g := fun _ v => v)
    (fun k r j => by by_cases e : j = k <;> simp [Bead.vset, Quad.get_upd, e]) b m j

theorem pset_lane_v (b : Bead) (k j : Four) (d : BitVec 3) (x : Bool) : ((b.pset k d x).lanes.get j).v = (b.lanes.get j).v := by
  unfold Bead.pset
  split
  · rfl
  · simp only [Quad.get_upd]
    split <;> rfl

@[simp] theorem onLanes_pset_v (b : Bead) (m : Mask) (d : BitVec 3) (x : Four → Bool) (j : Four) :
    ((b.onLanes m fun k r => r.pset k d (x k)).lanes.get j).v = (b.lanes.get j).v := by
  simpa using read_onLanes (read := fun b k => (b.lanes.get k).v) (f := fun k r => r.pset k d (x k)) (g := fun _ v => v)
    (fun k r j => by simp [pset_lane_v]) b m j

theorem vget_onLanes_vset (b : Bead) (m : Mask) (d q : Reg) (x : Four → Word) (j : Four) :
    (b.onLanes m fun k r => r.vset k d (x k)).vget j q = if laneIn m j = true ∧ q = d then x j else b.vget j q := by
  have h := read_onLanes (read := fun b k => b.vget k q) (f := fun k r => r.vset k d (x k)) (g := fun k v => if q = d then x k else v)
    (fun k r j => by by_cases e : j = k <;> simp [Bead.vget_vset, e]) b m j
  rw [h]
  by_cases hj : laneIn m j = true
  · simp only [hj, if_true, true_and]
  · rw [if_neg hj, if_neg fun h => hj h.1]

theorem pget_onLanes_pset (b : Bead) (m : Mask) (d q : BitVec 3) (x : Four → Bool) (j : Four) :
    (b.onLanes m fun k r => r.pset k d (x k)).pget j q = if laneIn m j = true ∧ q = d ∧ d ≠ 0 then x j else b.pget j q := by
  have h := read_onLanes (read := fun b k => b.pget k q) (f := fun k r => r.pset k d (x k))
    (g := fun k v => if q = d ∧ d ≠ 0 then x k else v) (fun k r j => by by_cases e : j = k <;> simp [Bead.pget_pset, e]) b m j
  rw [h]
  by_cases hj : laneIn m j = true
  · simp only [hj, if_true, true_and]
  · rw [if_neg hj, if_neg fun h => hj h.1]

/-- Settles O11: a register word is one update of the group's beads, and the register laws say what each register reads after it. -/
theorem registerWordsLeaveTheRest : Obligations.RegisterWordsLeaveTheRest := by
  unfold Obligations.RegisterWordsLeaveTheRest
  intro c s g
  refine ⟨fun d f => ?_, fun d f => ?_, fun d f => ?_⟩
  · refine registerFrame_eachBead (registersOnly_sset_if _ _ _) fun b => ?_
    split
    · refine ⟨Bead.sset_lanes .., fun q hq => ?_, fun hd _ => ?_⟩
      · exact (Bead.sget_sset b d q _).trans (if_neg fun h => hq h.1)
      · exact (Bead.sget_sset b d d _).trans (if_pos ⟨rfl, hd⟩)
    · rename_i hg
      exact ⟨rfl, fun _ _ => rfl, fun _ h => absurd h hg⟩
  · refine registerFrame_eachBead (registersOnly_onLanes fun b k => registersOnly_vset k d fun _ => f c b k) fun b => ?_
    refine ⟨onLanes_vset_s .., fun k => ⟨onLanes_vset_p .., fun q hq => ?_, fun hk => ?_⟩⟩
    · refine (vget_onLanes_vset b _ d q _ k).trans (if_neg fun ⟨hk, e⟩ => ?_)
      obtain hq | hq := hq
      · exact hq e
      · simp [hk] at hq
    · exact (vget_onLanes_vset b _ d d _ k).trans (if_pos ⟨hk, rfl⟩)
  · refine registerFrame_eachBead (registersOnly_onLanes fun b k => registersOnly_pset k d (f b k)) fun b => ?_
    refine ⟨onLanes_pset_s .., fun k => ⟨onLanes_pset_v .., fun q hq => ?_, fun hd hk => ?_⟩⟩
    · refine (pget_onLanes_pset b _ d q _ k).trans (if_neg fun ⟨hk, e, _⟩ => ?_)
      obtain hq | hq := hq
      · exact hq e
      · simp [hk] at hq
    · exact (pget_onLanes_pset b _ d d _ k).trans (if_pos ⟨hk, rfl, hd⟩)

end Sys2Proof.Machine
end

