-- ==== Sys2Proof/Proofs/HostWindow.lean ====
section
/-!
What a read of the host window returns.
-/

set_option Elab.async false

namespace Sys2Proof.Machine

/-! ### The host window, offset by offset -/

section
variable (s : State) (t : Four)

theorem readRegister_misaligned {off : BitVec 18} {size : Nat} (h : size ≠ 8 ∨ off.toNat % 8 ≠ 0) : s.readRegister t off size = 0 :=
  if_pos h

/-- Outside the ports, the error log and the wake registers, an aligned read takes the fixed table. -/
theorem readRegister_fixed {off : BitVec 18} (ha : off.toNat % 8 = 0)
    (ho : off.toNat < 0x100 ∨ (0x120 ≤ off.toNat ∧ off.toNat < 0x400) ∨ (0x800 ≤ off.toNat ∧ off.toNat < 0x10000) ∨ 0x12000 ≤ off.toNat) :
    s.readRegister t off 8 = (s.tower t).fixedRegister off.toNat := by
  unfold State.readRegister
  dsimp only
  rw [if_neg (by omega), if_neg (by omega), if_neg (by omega), if_neg (by omega)]

theorem readRegister_port (k : Four) :
    s.readRegister t (BitVec.ofNat 18 (0x100 + 8 * k.val)) 8 = ((s.tower t).ports.get k).word := by
  have hk := k.isLt
  have ho : (BitVec.ofNat 18 (0x100 + 8 * k.val)).toNat = 0x100 + 8 * k.val := by
    rw [BitVec.toNat_ofNat]
    omega
  have hn : Four.ofNat ((0x100 + 8 * k.val - 0x100) / 8) = k := Fin.ext (by simp only [Four.ofNat]; omega)
  unfold State.readRegister
  dsimp only
  rw [ho, if_neg (by omega), if_pos (by omega), hn]

theorem readRegister_errlog {n : Nat} (hn : n < 64) :
    s.readRegister t (BitVec.ofNat 18 (0x400 + 16 * n)) 8 = ((s.tower t).errlog.getD n (0, 0)).1 := by
  have ho : (BitVec.ofNat 18 (0x400 + 16 * n)).toNat = 0x400 + 16 * n := by
    rw [BitVec.toNat_ofNat]
    omega
  have hd : (0x400 + 16 * n - 0x400) / 16 = n := by omega
  unfold State.readRegister
  dsimp only
  rw [ho, if_neg (by omega), if_neg (by omega), if_pos (by omega), if_pos (by omega), hd]

theorem readRegister_errlog_second {n : Nat} (hn : n < 64) :
    s.readRegister t (BitVec.ofNat 18 (0x408 + 16 * n)) 8 = ((s.tower t).errlog.getD n (0, 0)).2 := by
  have ho : (BitVec.ofNat 18 (0x408 + 16 * n)).toNat = 0x408 + 16 * n := by
    rw [BitVec.toNat_ofNat]
    omega
  have hd : (0x408 + 16 * n - 0x400) / 16 = n := by omega
  unfold State.readRegister
  dsimp only
  rw [ho, if_neg (by omega), if_neg (by omega), if_pos (by omega), if_neg (by omega), hd]

theorem readRegister_wake {n : Nat} (hn : n < 1024) :
    s.readRegister t (BitVec.ofNat 18 (0x10000 + 8 * n)) 8 = ((s.queue? t n).map fun q => q.accepted.setWidth 64).getD 0 := by
  have ho : (BitVec.ofNat 18 (0x10000 + 8 * n)).toNat = 0x10000 + 8 * n := by
    rw [BitVec.toNat_ofNat]
    omega
  have hd : (0x10000 + 8 * n - 0x10000) / 8 = n := by omega
  unfold State.readRegister
  dsimp only
  rw [ho, if_neg (by omega), if_neg (by omega), if_neg (by omega), if_pos (by omega), hd]
  cases s.queue? t n <;> rfl

theorem fixedRegister_reserved {tw : Tower} {off : Nat} (h : off = 0x38 ∨ 0xA8 ≤ off) : tw.fixedRegister off = 0 := by
  unfold Tower.fixedRegister
  split
  case h_21 => rfl
  all_goals omega

theorem readRegister_reserved {off : BitVec 18}
    (h : off.toNat = 0x38 ∨ (0xA8 ≤ off.toNat ∧ off.toNat < 0x100) ∨ (0x120 ≤ off.toNat ∧ off.toNat < 0x400)
      ∨ (0x800 ≤ off.toNat ∧ off.toNat < 0x10000) ∨ 0x12000 ≤ off.toNat) : s.readRegister t off 8 = 0 := by
  by_cases ha : off.toNat % 8 = 0
  · rw [readRegister_fixed s t ha (by omega), fixedRegister_reserved (by omega)]
  · exact readRegister_misaligned s t (.inr ha)

end

/-- Two flags in a register, and nothing above them. -/
theorem flags_two : ∀ a b : Bool, let x := BitVec.ofNat 64 (a.toNat + 2 * b.toNat)
    x.getLsbD 0 = a ∧ x.getLsbD 1 = b ∧ x &&& ~~~3 = 0 := by
  decide

/-- Four flags in a register, and nothing above them. -/
theorem flags_four : ∀ a b c d : Bool, let x := BitVec.ofNat 64 (a.toNat + 2 * b.toNat + 4 * c.toNat + 8 * d.toNat)
    x.getLsbD 0 = a ∧ x.getLsbD 1 = b ∧ x.getLsbD 2 = c ∧ x.getLsbD 3 = d ∧ x &&& ~~~15 = 0 := by
  decide

theorem ring_isFull_iff (r : Ring) :
    r.isFull = true ↔ ∃ c, r.cfg = some c ∧ r.held ≠ [] ∧ 2 ^ c.rlog ≤ (r.prod - r.cons).toNat := by
  unfold Ring.isFull
  split
  · rename_i c hc
    simp [hc, Ring.room]
  · rename_i hc
    simp [hc]

theorem port_word_fields (p : Port) :
    p.word.extractLsb' 0 2 = p.state ∧ p.word.extractLsb' 2 14 = 0 ∧ p.word.extractLsb' 16 32 = p.retries
      ∧ p.word.extractLsb' 48 16 = p.peersw := by
  unfold Port.word
  refine ⟨?_, ?_, ?_, ?_⟩ <;> ext i hi <;> simp only [BitVec.getElem_extractLsb', BitVec.getLsbD_append]
  · rw [if_pos (by omega), if_pos (by omega), if_pos (by omega), Nat.zero_add, BitVec.getLsbD_eq_getElem hi]
  · rw [if_pos (by omega), if_pos (by omega), if_neg (by omega)]
    simp only [BitVec.getLsbD_zero, BitVec.ofNat_eq_ofNat, BitVec.getElem_zero]
  · rw [if_pos (by omega), if_neg (by omega), Nat.add_sub_cancel_left, BitVec.getLsbD_eq_getElem hi]
  · rw [if_neg (by omega), Nat.add_sub_cancel_left, BitVec.getLsbD_eq_getElem hi]

/-- Settles O59: the read of the window takes one of four paths by its offset, and each path is one row of the tables. -/
theorem hostReadsTheWindow : Obligations.HostReadsTheWindow := by
  unfold Obligations.HostReadsTheWindow
  refine ⟨fun s t off size => readRegister_misaligned s t, fun s t => ?_, fun s t off => readRegister_reserved s t, ring_isFull_iff,
    fun s t k => ?_, fun s t n hn => ⟨readRegister_errlog s t hn, readRegister_errlog_second s t hn⟩, fun s t n hn => ?_⟩
  · intro tw rd
    have fixed : ∀ off : BitVec 18, off.toNat % 8 = 0 → off.toNat < 0x100 → rd off = tw.fixedRegister off.toNat :=
      fun off ha ho => readRegister_fixed s t ha (.inl ho)
    have lock : rd 0x18 = BitVec.ofNat 64 (tw.lock.locked.toNat + 2 * tw.lock.lost.toNat) := fixed 0x18 rfl (by decide)
    have trapStat : rd 0x58 = BitVec.ofNat 64 tw.trapq.stat := fixed 0x58 rfl (by decide)
    have faultStat : rd 0x78 = BitVec.ofNat 64 tw.fltq.stat := fixed 0x78 rfl (by decide)
    obtain ⟨locked, lost, lock0⟩ := flags_two tw.lock.locked tw.lock.lost
    obtain ⟨tbad, tfull, terr, tcons, t0⟩ := flags_four tw.trapq.badReply tw.trapq.isFull tw.trapq.ringErr tw.trapq.badCons
    obtain ⟨fbad, ffull, ferr, fcons, f0⟩ := flags_four tw.fltq.badReply tw.fltq.isFull tw.fltq.ringErr tw.fltq.badCons
    rw [lock, trapStat, faultStat]
    exact ⟨fixed 0x00 rfl (by decide), fixed 0x08 rfl (by decide), fixed 0x10 rfl (by decide), locked, lost, lock0,
      fixed 0x20 rfl (by decide), fixed 0x28 rfl (by decide), fixed 0x30 rfl (by decide),
      fixed 0x40 rfl (by decide), fixed 0x48 rfl (by decide), fixed 0x50 rfl (by decide), tbad, tfull, terr, tcons, t0,
      fixed 0x60 rfl (by decide), fixed 0x68 rfl (by decide), fixed 0x70 rfl (by decide), fbad, ffull, ferr, fcons, f0,
      fixed 0x80 rfl (by decide), fixed 0x88 rfl (by decide), fixed 0x90 rfl (by decide), fixed 0x98 rfl (by decide), fixed 0xA0 rfl (by decide)⟩
  · rw [readRegister_port]
    exact port_word_fields _
  · rw [readRegister_wake s t hn]
    exact ⟨fun q hq => by rw [hq]; rfl, fun hq => by rw [hq]; rfl⟩

end Sys2Proof.Machine
end

