-- ==== Sys2Proof/Proofs/ServiceFrame.lean ====
section
/-!
SUPPORT. What start-up, errors and tests go by in the state (boot registers, the error count, units that await a test, columns that
drain, the kept patch), and that write-backs, kills of gangs and offers leave it as it was.
-/

set_option Elab.async false

namespace Sys2Proof.Machine

/-! ### The view -/

/-- What R361 to R365 and R369 read of a tower. -/
structure Service where
  boot : Boot
  failNext : Option Byte
  errcnt : Word
  errUnits : List ErrUnit
  draining : List Bool

/-- Those fields of a tower; reducible, so that what an update leaves of them closes by simp. -/
@[reducible, simp] def Tower.service (tw : Tower) : Service := ⟨tw.boot, tw.failNext, tw.errcnt, tw.errUnits, tw.cols.map (·.draining)⟩

/-- The same of every tower, with the kept patch. -/
def State.service (s : State) : (Four → Service) × Option Patch := (fun t => (s.tower t).service, s.patch)

theorem service_tower {s u : State} (h : u.service = s.service) (t : Four) : (u.tower t).service = (s.tower t).service :=
  congrFun (congrArg Prod.fst h) t

theorem service_patch {s u : State} (h : u.service = s.service) : u.patch = s.patch := congrArg Prod.snd h

theorem service_boot {s u : State} (h : u.service = s.service) (t : Four) : (u.tower t).boot = (s.tower t).boot :=
  congrArg Service.boot (service_tower h t)

theorem service_failNext {s u : State} (h : u.service = s.service) (t : Four) : (u.tower t).failNext = (s.tower t).failNext :=
  congrArg Service.failNext (service_tower h t)

theorem service_errcnt {s u : State} (h : u.service = s.service) (t : Four) : (u.tower t).errcnt = (s.tower t).errcnt :=
  congrArg Service.errcnt (service_tower h t)

theorem service_errUnits {s u : State} (h : u.service = s.service) (t : Four) : (u.tower t).errUnits = (s.tower t).errUnits :=
  congrArg Service.errUnits (service_tower h t)

theorem col_draining (s : State) (t : Four) (c : Nat) : (s.col t c).draining = (s.tower t).service.draining.getD c false := by
  simp only [State.col, Tower.col, List.getD_eq_getElem?_getD, List.getElem?_map]
  cases (s.tower t).cols[c]? <;> rfl

theorem service_draining {s u : State} (h : u.service = s.service) (t : Four) (c : Nat) :
    (u.col t c).draining = (s.col t c).draining := by
  rw [col_draining, col_draining, service_tower h]

/-! ### Folds and the plain updates -/

theorem foldl_service {α : Type} {f : State → α → State} {l : List α} {s : State} (h : ∀ s a, (f s a).service = s.service) :
    (l.foldl f s).service = s.service := by
  induction l generalizing s with
  | nil => rfl
  | cons a l ih => exact (ih (s := f s a)).trans (h s a)

/-- The same of steps that gather something beside the state. -/
theorem foldl_fst_service {α β : Type} {f : State × β → α → State × β} {l : List α} {r : State × β}
    (h : ∀ r a, (f r a).1.service = r.1.service) : (l.foldl f r).1.service = r.1.service := by
  induction l generalizing r with
  | nil => rfl
  | cons a l ih => exact (ih (r := f r a)).trans (h r a)

@[simp] theorem ite_service {p : Prop} [Decidable p] {s u : State} : (if p then s else u).service = if p then s.service else u.service :=
  apply_ite State.service p s u

@[simp] theorem updTower_service {s : State} {t : Four} {f : Tower → Tower} (h : ∀ tw, (f tw).service = tw.service) :
    (s.updTower t f).service = s.service := by
  refine Prod.ext (funext fun u => ?_) rfl
  simp only [State.service, updTower_tower]
  split
  · exact h _
  · rfl

theorem updAt_map_of_eq {α β : Type} {g : α → β} {f : α → α} (l : List α) (n : Nat) (h : ∀ a, g (f a) = g a) :
    (updAt l n f).map g = l.map g := by
  refine List.ext_getElem? fun i => ?_
  simp only [updAt, List.getElem?_map, List.getElem?_mapIdx, Option.map_map]
  congr 1
  funext a
  simp only [Function.comp_apply]
  split
  · exact h a
  · rfl

@[simp] theorem updCol_service {s : State} {t : Four} {c : Nat} {f : Column → Column} (h : ∀ co, (f co).draining = co.draining) :
    (s.updCol t c f).service = s.service :=
  updTower_service fun tw => by simp [updAt_map_of_eq (g := Column.draining) tw.cols c h]

section
variable (s : State)

@[simp] theorem fresh_service : s.fresh.service = s.service := rfl
@[simp] theorem updLaunch_service (id : Nat) (f : Launch → Launch) : (s.updLaunch id f).service = s.service := rfl
@[simp] theorem updGang_service (id : Nat) (f : Gang → Gang) : (s.updGang id f).service = s.service := rfl
@[simp] theorem updWg_service (g m : Nat) (f : Wg → Wg) : (s.updWg g m f).service = s.service := rfl
@[simp] theorem mapBeads_service (f : Bead → Bead) : (s.mapBeads f).service = s.service := rfl
@[simp] theorem onGrp_service (c : Ctx) (f : Bead → Bead) : (c.onGrp s f).service = s.service := rfl

/-- What a step does in a group keeps the view if its effect does. -/
theorem withGroup_service {cu : Cursor} {f : Ctx → State → State} (h : ∀ c s, (f c s).service = s.service) :
    (withGroup s cu f).service = s.service := by
  unfold withGroup
  split
  · rfl
  · exact h _ { s with cur := some cu }

@[simp] theorem charge_service (who : Option Nat) (f : Charges → Charges) : (s.charge who f).service = s.service := by
  cases who <;> rfl

@[simp] theorem chargeRead_service (who : Option Nat) (n m : Nat) : (s.chargeRead who n m).service = s.service := charge_service ..
@[simp] theorem chargeWrite_service (who : Option Nat) (n : Nat) : (s.chargeWrite who n).service = s.service := charge_service ..

/-! ### Caches, write-backs and accumulator lines -/

@[simp] theorem remember_service (asid : Half) (va : DWord) : (remember s asid va).service = s.service := by
  unfold remember
  split <;> simp

@[simp] theorem flushBankLine_service (pa : Nat) : (flushBankLine s pa).service = s.service :=
  updTower_service (s := { s with hbm := _ }) fun _ => rfl

@[simp] theorem writeBack_service (l : Line) : (writeBack s l).service = s.service := by
  unfold writeBack
  dsimp only
  split
  · exact (chargeWrite_service ..).trans (flushBankLine_service ..)
  · exact flushBankLine_service ..

@[simp] theorem remapFilter_service (t : Four) (asid : Half) (va : DWord) (pa : Nat) : (remapFilter s t asid va pa).service = s.service := by
  simp [remapFilter, foldl_service writeBack_service]

@[simp] theorem roomL2_service (t : Four) : (roomL2 s t).service = s.service := by
  fun_cases roomL2 s t <;> simp

@[simp] theorem homeFill_service (asid : Half) (va : DWord) (h : Hit) : (homeFill s asid va h).1.service = s.service := by
  fun_cases homeFill s asid va h <;> simp +zetaDelta [fillRest]

@[simp] theorem snoop_service (pa : Nat) : (snoop s pa).service = s.service :=
  foldl_service fun _ _ => updTower_service fun _ => by simp [Function.comp_def]

@[simp] theorem homeWrite_service (asid : Half) (va : DWord) (bs : List Byte) (h : Hit) :
    (homeWrite s asid va bs h).service = s.service := by
  unfold homeWrite
  extract_lets t at_ there s1 queued l s2
  have e1 : s1.service = s.service := by
    simp only [s1]
    split <;> simp
  have e2 : s2.service = s1.service := by
    simp only [s2]
    split
    · simp
    · split
      · exact chargeWrite_service ..
      · split <;> simp
  simp [e2, e1]

@[simp] theorem storeHome_service (r : StoreRec) : (storeHome s r).service = s.service := homeWrite_service ..

@[simp] theorem rdcPass_service (r : StoreRec) : (rdcPass s r).service = s.service := by
  simp [rdcPass, rdcUpdate]

@[simp] theorem pushStores_service (t : Four) (c : Nat) (asid : Half) (va : DWord) (pa : Nat) :
    (pushStores s t c asid va pa).service = s.service :=
  (foldl_service fun s r => by simp).trans (foldl_service storeHome_service)

@[simp] theorem dropPassed_service (t : Four) (c : Nat) (asid : Half) (va : DWord) (pa : Nat) :
    (dropPassed s t c asid va pa).service = s.service := by
  simp [dropPassed, dropRdc, dropColLine]

theorem reduceHome_service {u : State} {who : Option Nat} {t : Four} {c : Nat} {asid : Half} {va : DWord} {op : RedOp} {y : DWord}
    (e : reduceHome s who t c asid va op y = .ok u) : u.service = s.service := by
  unfold reduceHome at e
  split at e
  · cases e
    simp [homeRead]
  · contradiction

@[simp] theorem pushTrap_service (t : Four) (r : RingRec) : (pushTrap s t r).service = s.service := updTower_service fun _ => rfl
@[simp] theorem pushFault_service (t : Four) (r : RingRec) : (pushFault s t r).service = s.service := updTower_service fun _ => rfl

@[simp] theorem reportFault_service (t : Four) (kind cause need : Byte) (l : Launch) (g : Option Gang) (col : Nat) (va : DWord)
    (w n : Nat) : (reportFault s t kind cause need l g col va w n).service = s.service := pushFault_service ..

@[simp] theorem newDefer_service (gang : Nat) (d : Defer) (f : Conf) : (newDefer s gang d f).service = s.service := by
  fun_cases newDefer s gang d f <;> simp +zetaDelta [pushDefer]

theorem flushWord_service (t : Four) (c : Nat) (r : State × AccLine) (k : Nat) : (flushWord t c r k).1.service = r.1.service := by
  unfold flushWord
  dsimp only
  split
  · rfl
  · split
    · rename_i e
      simp [reduceHome_service _ e]
    · split <;> simp

@[simp] theorem evictAcc_service (t : Four) (c : Nat) (l : AccLine) : (evictAcc s t c l).service = s.service := by
  simp [evictAcc, putAcc, foldl_fst_service (flushWord_service t c)]

@[simp] theorem evictAll_service (t : Four) (c : Nat) (p : AccLine → Bool) : (evictAll s t c p).service = s.service :=
  foldl_service fun s l => evictAcc_service s t c l

/-- Entry into maintenance mode at a reset changes nothing that the start goes by. -/
@[simp] theorem writeBackAll_service : (writeBackAll s).service = s.service := by
  unfold writeBackAll
  extract_lets s0 s1
  have e0 : s0.service = s.service := foldl_service fun _ _ => foldl_service fun s c => evictAll_service ..
  have e1 : s1.service = s0.service := foldl_service fun _ _ => foldl_service writeBack_service
  exact (foldl_service fun _ _ => foldl_service fun s _ => flushBankLine_service ..).trans (e1.trans e0)

/-! ### Columns and cores -/

@[simp] theorem acquire_service (t : Four) (c : Nat) (asid : Half) (scope : BitVec 3) : (acquire s t c asid scope).service = s.service := by
  simp [acquire, dropSpaceCol]

@[simp] theorem setCore_service (t : Four) (col : Nat) (k : Four) (f : Core → Core) : (setCore s t col k f).service = s.service :=
  updCol_service fun _ => rfl

@[simp] theorem reclass_service (t : Four) (col : Nat) (k : Four) (before : Quad CoreClass) :
    (reclass s t col k before).service = s.service := by
  simp [reclass, setGov]

@[simp] theorem reclassAll_service (t : Four) (col : Nat) (before : Quad CoreClass) : (reclassAll s t col before).service = s.service :=
  foldl_fst_service fun r k => reclass_service r.1 t col k r.2

@[simp] theorem noteEmpty_service (before : State) (t : Four) (col : Nat) : (noteEmpty before s t col).service = s.service := by
  unfold noteEmpty
  extract_lets now s1
  have e1 : s1.service = s.service := foldl_service fun _ _ => by simp
  simp [e1]

theorem serveRacq_service (t : Four) (col : Nat) (k : Four) (fuel : Nat) : (serveRacq t col k fuel s).service = s.service := by
  fun_induction serveRacq t col k fuel s <;> simp_all +zetaDelta [grantBlocks]

@[simp] theorem serveColumn_service (t : Four) (col : Nat) : (serveColumn s t col).service = s.service :=
  foldl_service fun s k => serveRacq_service s t col k _

@[simp] theorem leftColumn_service (before : State) (t : Four) (col : Nat) : (leftColumn before s t col).service = s.service := by
  simp [leftColumn]

@[simp] theorem wakeCores_service (t : Four) (col : Nat) (ks : List Four) : (wakeCores s t col ks).service = s.service :=
  foldl_service fun _ _ => setCore_service ..

/-! ### Moves and saves given up, gangs that meet a kill -/

@[simp] theorem endMove_service (id : Nat) : (s.endMove id).service = s.service := by
  fun_cases State.endMove s id <;> simp

@[simp] theorem discardDefers_service (l : Launch) (g : Gang) (col : Nat) (ds : List Defer) :
    (discardDefers s l g col ds).service = s.service := by
  unfold discardDefers
  split <;> simp

@[simp] theorem freeSlot_service (g : Gang) : (freeSlot s g).service = s.service := updTower_service fun _ => rfl

@[simp] theorem leaveSlot_service (id : Nat) : (leaveSlot s id).service = s.service := by
  unfold leaveSlot
  split
  · rfl
  · split
    · rfl
    · exact freeSlot_service ..

@[simp] theorem killGang_service (by_ : KillBy) (l : Launch) (g : Gang) : (killGang by_ l s g).service = s.service := by
  simp [killGang, discardGang]

@[simp] theorem endSave_service (id : Nat) : (s.endSave id).service = s.service := by
  fun_cases State.endSave s id <;> simp +zetaDelta [beginSave]

/-! ### Placement and offers -/

@[simp] theorem takeTrapAt_service (c : Ctx) (q : TrapReq) (pc next : DWord) : (takeTrapAt c s q pc next).service = s.service :=
  pushTrap_service ..

@[simp] theorem releasePark_service (cu : Cursor) : (releasePark s cu).service = s.service :=
  withGroup_service s fun c s => by
    unfold failGroup
    split
    · split <;> simp
    · rfl

@[simp] theorem releaseParks_service : (releaseParks s).service = s.service :=
  foldl_service (s := releaseCopies s) releasePark_service

@[simp] theorem startGang_service (l : Launch) (t : Four) (num col base : Nat) (ks : List Four) :
    (startGang s l t num col base ks).service = s.service := by
  unfold startGang
  extract_lets g s1 s2 s3
  have e3 : s3.service = s.service := updCol_service (s := s2) fun _ => rfl
  simp [e3]

@[simp] theorem rejoinRacq_service (g : Gang) (ws : List Wg) : (rejoinRacq s g ws).service = s.service :=
  foldl_service fun _ _ => setCore_service ..

@[simp] theorem restoreGang_service (l : Launch) (g : Gang) (col base : Nat) (ks : List Four) :
    (restoreGang s l g col base ks).service = s.service := by
  unfold restoreGang
  split <;> simp

@[simp] theorem placeNext_service (l : Launch) (t : Four) (n : NextGang) (x : Nat × Nat × List Four) :
    (placeNext s l t n x).service = s.service := by
  cases n <;> simp [placeNext]

@[simp] theorem evictGangs_service (l : Launch) (t : Four) (n : NextGang) : (evictGangs s l t n).service = s.service := by
  fun_cases evictGangs s l t n with
  | case1 | case2 | case4 => rfl
  | case3 => exact foldl_service fun _ _ => updGang_service ..

theorem offerLaunch_service (t : Four) (freed : Option Nat) (id fuel : Nat) : (offerLaunch t freed id fuel s).service = s.service := by
  fun_induction offerLaunch t freed id fuel s <;> simp_all

@[simp] theorem offer_service (t : Four) (freed : Option Nat) : (offer s t freed).service = s.service :=
  foldl_service fun s l => offerLaunch_service s t freed l.id _

/-- The moves that a drain cancels, and the offer after them, change nothing that errors and tests go by. -/
@[simp] theorem cancelMoves_service (t : Four) (cols : List Nat) : (cancelMoves s t cols).service = s.service := by
  refine (offer_service ..).trans ((foldl_service fun s (g : Gang) => endSave_service s g.id).trans (foldl_service fun s g => ?_))
  split
  · simp
  · rfl

end

end Sys2Proof.Machine
end

