-- ==== Sys2Proof/Proofs/Starts.lean ====
section
/-!
What a reset and the starts after it leave (R361 to R363, R369).
-/

set_option Elab.async false

namespace Sys2Proof.Machine

/-! ### Four towers -/

theorem Quad.findSome?_toList_eq_none {α β : Type} (q : Quad α) (f : α → Option β) :
    q.toList.findSome? f = none ↔ ∀ k, f (q.get k) = none := by
  simp [Quad.toList, Quad.get, Fin.forall_fin_succ]

theorem Quad.any_toList {α : Type} (q : Quad α) (p : α → Bool) : q.toList.any p = true ↔ ∃ k, p (q.get k) = true := by
  simp [Quad.toList, Quad.get, Fin.exists_fin_succ]

theorem Quad.any_toList_eq_false {α : Type} (q : Quad α) (p : α → Bool) : q.toList.any p = false ↔ ∀ k, p (q.get k) = false := by
  simp [Quad.toList, Quad.get, Fin.forall_fin_succ]

@[simp] theorem Quad.get_fill {α : Type} (x : α) (k : Four) : (Quad.fill x).get k = x := by
  match k with
  | 0 | 1 | 2 | 3 => rfl

/-- The lowest of the four numbers that a predicate picks. -/
theorem Four.find?_all {p : Four → Bool} {t : Four} (ht : p t = true) (hlow : ∀ k, k < t → p k = false) : Four.all.find? p = some t := by
  obtain ⟨below, above, split, lower⟩ : ∃ below above, Four.all = below ++ t :: above ∧ ∀ k ∈ below, k < t :=
    match t with
    | 0 => ⟨[], [1, 2, 3], rfl, by decide⟩
    | 1 => ⟨[0], [2, 3], rfl, by decide⟩
    | 2 => ⟨[0, 1], [3], rfl, by decide⟩
    | 3 => ⟨[0, 1, 2], [], rfl, by decide⟩
  rw [List.find?_eq_some_iff_append]
  exact ⟨ht, below, above, split, fun k hk => by rw [hlow k (lower k hk)]; rfl⟩

/-! ### IRQ.STAT.BOOT and STATE -/

@[simp] theorem Tower.raise_boot (bit : Nat) (tw : Tower) : (tw.raise bit).boot = tw.boot := by
  unfold Tower.raise
  split <;> rfl

@[simp] theorem Tower.raise_queues (bit : Nat) (tw : Tower) : (tw.raise bit).queues = tw.queues := by
  unfold Tower.raise
  split <;> rfl

theorem Tower.raise_irq {bit : Nat} (h : bit < 5) (tw : Tower) : (tw.raise bit).irq.getLsbD bit = true := by
  unfold Tower.raise
  split
  · assumption
  · simp [h]

@[simp] theorem Tower.enter_boot (state : Nat) (tw : Tower) : (tw.enter state).boot = { tw.boot with state } := by
  unfold Tower.enter
  dsimp only
  split <;> simp

@[simp] theorem Tower.enter_queues (state : Nat) (tw : Tower) : (tw.enter state).queues = tw.queues := by
  unfold Tower.enter
  dsimp only
  split <;> simp

theorem Tower.enter_irq {state : Nat} (h : 4 ≤ state) (tw : Tower) : (tw.enter state).irq.getLsbD 3 = true := by
  unfold Tower.enter
  rw [if_pos h]
  exact raise_irq (by decide) _

/-- The lease names a tower: LEADER is set there alone, and BOOT stays raised. -/
theorem lead_tower (s : State) (t u : Four) (epoch : Half) :
    ((lead s t epoch).tower u).boot = { (s.tower u).boot with leader := u == t }
    ∧ ((lead s t epoch).tower u).queues = (s.tower u).queues
    ∧ ((s.tower u).irq.getLsbD 3 = true → ((lead s t epoch).tower u).irq.getLsbD 3 = true) := by
  have e : (lead s t epoch).tower u = (let tw1 := { s.tower u with boot := { (s.tower u).boot with leader := u == t }, epoch }
      if (s.tower u).boot.leader == (u == t) then tw1 else tw1.raise 3) := Quad.get_mapIdx ..
  rw [e]
  dsimp only
  split
  · exact ⟨rfl, rfl, id⟩
  · exact ⟨Tower.raise_boot .., Tower.raise_queues .., fun _ => Tower.raise_irq (by decide) _⟩

/-! ### A module after a reset -/

@[simp] theorem resetModule_tower (s : State) (t : Four) : (resetModule s).tower t = ((writeBackAll s).tower t).afterReset :=
  Quad.get_map ..

@[simp] theorem resetModule_patch (s : State) : (resetModule s).patch = s.patch := by
  simp only [resetModule]
  exact service_patch (writeBackAll_service s)

theorem resetModule_failNext (s : State) (t : Four) : ((resetModule s).tower t).failNext = (s.tower t).failNext := by
  rw [resetModule_tower]
  exact service_failNext (writeBackAll_service s) t

@[simp] theorem resetModule_hbm (s : State) : (resetModule s).hbm = (writeBackAll s).hbm := by
  simp only [resetModule]

@[simp] theorem resetModule_launches (s : State) : (resetModule s).launches = [] := by
  simp only [resetModule, State.reset]

@[simp] theorem resetModule_gangs (s : State) : (resetModule s).gangs = [] := by
  simp only [resetModule, State.reset]

@[simp] theorem resetModule_spaces (s : State) : (resetModule s).spaces = [] := by
  simp only [resetModule, State.reset]

@[simp] theorem resetModule_startAt (s : State) : (resetModule s).startAt = some 0 := by
  simp only [resetModule, State.reset]

@[simp] theorem resetModule_tries (s : State) : (resetModule s).tries = [] := by
  simp only [resetModule, State.reset]

/-- STATE and the leadership start anew; COLS, FAILS and REASON outlive a reset. -/
theorem resetModule_boot (s : State) (t : Four) : ((resetModule s).tower t).boot =
    { Boot.reset with cols := (s.tower t).boot.cols, numbered := (s.tower t).boot.numbered, fails := (s.tower t).boot.fails,
                      reason := (s.tower t).boot.reason } := by
  rw [resetModule_tower, ← service_boot (writeBackAll_service s) t]
  rfl

theorem resetModule_queues (s : State) (t : Four) : ((resetModule s).tower t).queues = [] := by
  rw [resetModule_tower]
  rfl

/-! ### A stage of a start -/

/-- A stage meets a tower that comes to its end. -/
def stageOf (starts : Quad TowerStart) (state : Nat) (f : TowerStart → Tower → Tower × Option Byte) (t : Four) (tw : Tower) :
    Tower × Option Byte :=
  if stallsBy state (starts.get t) then (tw, none) else f (starts.get t) tw

theorem startStage_tower (s : State) (starts : Quad TowerStart) (state : Nat) (f : TowerStart → Tower → Tower × Option Byte) (t : Four) :
    (startStage s starts state f).1.tower t = (stageOf starts state f t (s.tower t)).1 :=
  (Quad.get_map ..).trans (congrArg Prod.fst (Quad.get_mapIdx ..))

theorem startStage_passes_iff (s : State) (starts : Quad TowerStart) (state : Nat) (f : TowerStart → Tower → Tower × Option Byte) :
    (startStage s starts state f).2 = none ↔ ∀ t, (stageOf starts state f t (s.tower t)).2 = none := by
  refine (Quad.findSome?_toList_eq_none ..).trans (forall_congr' fun t => ?_)
  rw [Quad.get_mapIdx]
  rfl

/-- A tower that has passed its self-test, with nothing left to fail for. -/
def Tower.tested (tw : Tower) : Tower := { tw with boot := { tw.boot with passed := true }, failNext := none }

/-- A tower whose parts all pass its self-test. -/
theorem selfTested_good {x : TowerStart} {tw : Tower} (hc : x.coreBad = []) (hs : x.storeBad = []) (hv : x.vertBad = [])
    (hf : tw.failNext = none) : tw.selfTested x = (tw.tested, none) := by
  simp [Tower.selfTested, Tower.tested, badColumns, hc, hs, hv, hf]

/-- A tower that training and what else a start meets leave as it was. -/
theorem trained_good {x : TowerStart} {tw : Tower} (hk : x.stackBad = none) (hu : x.uncorrected = none) (hf : tw.failNext = none) :
    tw.trained x = (tw, none) := by
  simp [Tower.trained, hk, hu, hf]

/-- An uncorrected error of a unit that R372 names fails the start and is logged, its unit's test pending. -/
theorem trained_uncorrected {x : TowerStart} {tw : Tower} {e : Byte × Byte × Byte} (hk : x.stackBad = none) (hu : x.uncorrected = some e)
    (he : (ErrUnit.named e.1 e.2.1 e.2.2).exists = true) : tw.trained x =
      ({ tw.logError ((ErrUnit.named e.1 e.2.1 e.2.2).word false 2 0) with
          errUnits := tw.errUnits ++ [ErrUnit.named e.1 e.2.1 e.2.2] }, some 8) := by
  have some_ : (x.uncorrected.map fun e => ErrUnit.named e.1 e.2.1 e.2.2).filter ErrUnit.exists = some (ErrUnit.named e.1 e.2.1 e.2.2) := by
    rw [hu]
    exact Option.filter_eq_some_iff.mpr ⟨rfl, he⟩
  simp only [Tower.trained, hk, some_]

/-! ### An attempt to start -/

/-- The state after the self-test stage of an attempt, and why it failed. -/
def afterSelfTest (s : State) (x : Quad TowerStart) : State × Option Byte :=
  startStage { s with towers := s.towers.map Tower.numbered } x 1 Tower.selfTested

/-- The state after the training stage of an attempt, and why it failed. -/
def afterTraining (s : State) (x : Quad TowerStart) : State × Option Byte :=
  startStage (afterSelfTest s x).1 x 2 fun x tw => ({ (tw.trained x).1 with failNext := none }, (tw.trained x).2)

section
variable {s : State} {x : Quad TowerStart}

theorem attemptOnce_selfTest {r : Byte} (h1 : (afterSelfTest s x).2 = some r) : attemptOnce s x = .failed (afterSelfTest s x).1 r := by
  rw [afterSelfTest] at *
  simp only [attemptOnce, h1]

theorem attemptOnce_training {r : Byte} (h1 : (afterSelfTest s x).2 = none) (h2 : (afterTraining s x).2 = some r) :
    attemptOnce s x = .failed (afterTraining s x).1 r := by
  rw [afterTraining, afterSelfTest] at *
  simp only [attemptOnce, h1, h2]

/-- What an attempt comes to once training is over. -/
theorem attemptOnce_trained (h1 : (afterSelfTest s x).2 = none) (h2 : (afterTraining s x).2 = none) : attemptOnce s x =
    let u := (afterTraining s x).1
    if x.toList.any (·.stalls.isSome) then
      .stalled { u with towers := u.towers.mapIdx fun t tw => tw.enter (((x.get t).stalls.map (·.toNat)).getD 3) }
    else if x.toList.any (·.noLeader) then .failed u 7
    else if u.patch.any (!·.stands) then .failed u 6
    else .ready (readyAll u) := by
  rw [afterTraining, afterSelfTest] at *
  simp only [attemptOnce, h1, h2]

/-- Towers that stall hold the STATE in which they do. -/
theorem attemptOnce_stalled (h1 : (afterSelfTest s x).2 = none) (h2 : (afterTraining s x).2 = none)
    (hs : ∃ t, (x.get t).stalls ≠ none) : ∃ u, attemptOnce s x = .stalled u ∧ ∀ t n, (x.get t).stalls = some n → (u.tower t).boot.state = n.toNat := by
  have any : x.toList.any (·.stalls.isSome) = true := by
    rw [Quad.any_toList]
    simpa [Option.isSome_iff_ne_none] using hs
  rw [attemptOnce_trained h1 h2]
  dsimp only
  rw [if_pos any]
  refine ⟨_, rfl, fun t n hn => ?_⟩
  simp [State.tower, hn]

section
variable (h1 : (afterSelfTest s x).2 = none) (h2 : (afterTraining s x).2 = none) (hs : ∀ t, (x.get t).stalls = none)
include h1 h2 hs

theorem attemptOnce_moving : attemptOnce s x =
    let u := (afterTraining s x).1
    if x.toList.any (·.noLeader) then .failed u 7 else if u.patch.any (!·.stands) then .failed u 6 else .ready (readyAll u) := by
  rw [attemptOnce_trained h1 h2]
  dsimp only
  exact if_neg (ne_true_of_eq_false ((Quad.any_toList_eq_false ..).mpr fun t => by rw [hs t]; rfl))

theorem attemptOnce_noLeader (hl : ∃ t, (x.get t).noLeader = true) : attemptOnce s x = .failed (afterTraining s x).1 7 := by
  rw [attemptOnce_moving h1 h2 hs]
  exact if_pos ((Quad.any_toList ..).mpr hl)

theorem attemptOnce_badPatch (hl : ∀ t, (x.get t).noLeader = false) {p : Patch} (hp : (afterTraining s x).1.patch = some p)
    (hb : p.stands = false) : attemptOnce s x = .failed (afterTraining s x).1 6 := by
  rw [attemptOnce_moving h1 h2 hs]
  dsimp only
  rw [if_neg (ne_true_of_eq_false ((Quad.any_toList_eq_false ..).mpr hl)), if_pos (by simp [hp, hb])]

theorem attemptOnce_ready (hl : ∀ t, (x.get t).noLeader = false) (hp : ∀ p, (afterTraining s x).1.patch = some p → p.stands = true) :
    attemptOnce s x = .ready (readyAll (afterTraining s x).1) := by
  rw [attemptOnce_moving h1 h2 hs]
  dsimp only
  rw [if_neg (ne_true_of_eq_false ((Quad.any_toList_eq_false ..).mpr hl)), if_neg]
  cases hq : (afterTraining s x).1.patch with
  | none => simp
  | some p => simp [hp p hq]

end
end

/-! ### A start that meets nothing bad -/

/-- What a start finds of a tower where all its parts pass and nothing holds it up. -/
structure GoodStart (x : TowerStart) : Prop where
  cores : x.coreBad = []
  stores : x.storeBad = []
  verts : x.vertBad = []
  hbm : x.stackBad = none
  errors : x.uncorrected = none
  goes : x.stalls = none

theorem GoodStart.not_stallsBy {x : TowerStart} (h : GoodStart x) (state : Nat) : stallsBy state x = false := by
  rw [stallsBy, h.goes]
  rfl

section
variable {s : State} {x : Quad TowerStart} (hx : ∀ t, GoodStart (x.get t)) (hf : ∀ t, (s.tower t).failNext = none)
include hx hf

theorem afterSelfTest_good : (afterSelfTest s x).2 = none ∧ ∀ t, ((afterSelfTest s x).1.tower t) = (s.tower t).numbered.tested := by
  have good : ∀ t, stageOf x 1 Tower.selfTested t (State.tower { s with towers := s.towers.map Tower.numbered } t) =
      ((s.tower t).numbered.tested, none) := fun t => by
    have e : State.tower { s with towers := s.towers.map Tower.numbered } t = (s.tower t).numbered := Quad.get_map ..
    rw [stageOf, e, (hx t).not_stallsBy]
    exact selfTested_good (hx t).cores (hx t).stores (hx t).verts (hf t)
  refine ⟨(startStage_passes_iff ..).mpr fun t => by rw [good], fun t => ?_⟩
  rw [afterSelfTest, startStage_tower, good]

theorem afterTraining_good : (afterTraining s x).2 = none ∧ ∀ t, ((afterTraining s x).1.tower t) = (s.tower t).numbered.tested := by
  obtain ⟨-, tested⟩ := afterSelfTest_good hx hf
  have good : ∀ t, stageOf x 2 (fun x tw => ({ (tw.trained x).1 with failNext := none }, (tw.trained x).2)) t ((afterSelfTest s x).1.tower t) =
      ((s.tower t).numbered.tested, none) := fun t => by
    rw [stageOf, tested, (hx t).not_stallsBy, trained_good (hx t).hbm (hx t).errors rfl]
    rfl
  refine ⟨(startStage_passes_iff ..).mpr fun t => by rw [good], fun t => ?_⟩
  rw [afterTraining, startStage_tower, good]

/-- Such an attempt makes every tower READY where there is a leader and the kept patch verifies again. -/
theorem attemptOnce_good (hl : ∀ t, (x.get t).noLeader = false) (hp : ∀ p, s.patch = some p → p.stands = true) :
    attemptOnce s x = .ready (readyAll (afterTraining s x).1) :=
  attemptOnce_ready (afterSelfTest_good hx hf).1 (afterTraining_good hx hf).1 (fun t => (hx t).goes) hl hp

end

/-- READY: STATE 4, out of maintenance mode, FAILS 0, LEADER set in tower 0 alone, BOOT raised. -/
theorem readyAll_tower (s : State) (t : Four) :
    ((readyAll s).tower t).boot = { (s.tower t).boot with fails := 0, maint := false, state := 4, leader := t == 0 }
    ∧ ((readyAll s).tower t).queues = (s.tower t).queues ∧ ((readyAll s).tower t).irq.getLsbD 3 = true := by
  unfold readyAll
  generalize hu : ({ s with startAt := none, tries := [], applied := s.patch, towers := _ } : State) = u
  have e : u.tower t = (Tower.carved { s.tower t with boot := { (s.tower t).boot with fails := 0, maint := false } }).enter 4 := by
    subst hu
    exact Quad.get_map ..
  obtain ⟨boot, queues, irq⟩ := lead_tower u 0 t s.lease.epoch
  rw [boot, queues, e]
  refine ⟨?_, ?_, irq ?_⟩
  · simp [Tower.carved]
  · simp [Tower.carved]
  · rw [e]
    exact Tower.enter_irq (by decide) _

/-- What an attempt that makes the towers READY leaves of the rest of the state. -/
theorem readyAll_afterTraining (s : State) (x : Quad TowerStart) : let u := readyAll (afterTraining s x).1
    u.hbm = s.hbm ∧ u.patch = s.patch ∧ u.applied = s.patch ∧ u.launches = s.launches ∧ u.gangs = s.gangs ∧ u.spaces = s.spaces
    ∧ u.startAt = none ∧ u.lease.leader = 0 :=
  ⟨rfl, rfl, rfl, rfl, rfl, rfl, rfl, rfl⟩

/-- A reset that meets nothing bad reaches READY (R361, R369). -/
theorem reset_good {s : State} {x : Quad TowerStart} (more : List (Quad TowerStart)) (hx : ∀ t, GoodStart (x.get t))
    (hf : ∀ t, (s.tower t).failNext = none) (hl : ∀ t, (x.get t).noLeader = false) (hp : ∀ p, s.patch = some p → p.stands = true)
    (hn : (s.tower 0).boot.fails < 3) : exec (.reset (x :: more)) s = .next (readyAll (afterTraining (resetModule s) x).1) := by
  have good := attemptOnce_good hx (s := resetModule s) (fun t => (resetModule_failNext s t).trans (hf t)) hl
    (fun p h => hp p ((resetModule_patch s).symm.trans h))
  have below : ((resetModule s).tower 0).boot.fails < 3 := by rwa [resetModule_boot]
  change execReset _ _ = _
  simp only [execReset, below, if_true, startFrom, good]

theorem reset_good_tower {s : State} {x : Quad TowerStart} (hx : ∀ t, GoodStart (x.get t)) (hf : ∀ t, (s.tower t).failNext = none) (t : Four) :
    let tw := (readyAll (afterTraining (resetModule s) x).1).tower t
    tw.boot.state = 4 ∧ tw.boot.maint = false ∧ tw.boot.fails = 0 ∧ tw.boot.leader = (t == 0) ∧ tw.queues = [] ∧ tw.irq.getLsbD 3 = true := by
  obtain ⟨boot, queues, irq⟩ := readyAll_tower (afterTraining (resetModule s) x).1 t
  dsimp only
  rw [boot, queues]
  refine ⟨rfl, rfl, rfl, rfl, ?_, irq⟩
  rw [(afterTraining_good hx fun t => (resetModule_failNext s t).trans (hf t)).2]
  exact resetModule_queues s t

/-! ### Failed starts -/

/-- After the third failed start a reset comes up in minimal mode. -/
theorem reset_minimal {s : State} (x : Quad TowerStart) (xs : List (Quad TowerStart)) (h : 3 ≤ ((resetModule s).tower 0).boot.fails) :
    exec (.reset (x :: xs)) s = .next (minimalMode (afterSelfTest (resetModule s) x).1) := by
  change execReset _ _ = _
  simp only [execReset, if_neg (Nat.not_lt.mpr h), minimalStart, afterSelfTest]

theorem startFrom_nil {s : State} (h : s.tries = []) : startFrom [] s = s := by
  rw [startFrom, ← h]

/-- A reset of which no attempt is known stands reset. -/
theorem reset_nil (s : State) : exec (.reset []) s = .next (resetModule s) := by
  change execReset _ _ = _
  simp only [execReset, startFrom_nil (resetModule_tries s), ite_self]

theorem failStart_restarts {s : State} (reason : Byte) (starts : List (Quad TowerStart)) (h : (s.tower 0).boot.fails + 1 < 3) :
    failStart s reason starts = startFrom starts (resetModule (countFailure reason s)) := by
  have below : ((countFailure reason s).tower 0).boot.fails < 3 := by
    rw [countFailure_tower]
    simp only
    omega
  simp only [failStart, if_pos below]

theorem failStart_minimal {s : State} (reason : Byte) (starts : List (Quad TowerStart)) (h : 3 ≤ (s.tower 0).boot.fails + 1) :
    failStart s reason starts = minimalMode (countFailure reason s) := by
  have third : ¬((countFailure reason s).tower 0).boot.fails < 3 := by
    rw [countFailure_tower]
    simp only
    omega
  simp only [failStart, if_neg third]

/-- A failure below the third with no further attempt known leaves the module reset, the failure counted. -/
theorem failStart_nil {s : State} (reason : Byte) (h : (s.tower 0).boot.fails + 1 < 3)
    (same : ∀ t, (s.tower t).boot.fails = (s.tower 0).boot.fails) :
    let u := failStart s reason []
    u.startAt = some 0
    ∧ ∀ t, (u.tower t).boot.reason = reason ∧ (u.tower t).boot.fails = (s.tower t).boot.fails + 1 ∧ (u.tower t).boot.state = 0 := by
  rw [failStart_restarts reason [] h, startFrom_nil (resetModule_tries _)]
  refine ⟨resetModule_startAt _, fun t => ?_⟩
  have := same t
  rw [resetModule_boot, countFailure_tower]
  refine ⟨rfl, ?_, rfl⟩
  simp only
  omega

theorem minimalMode_ends (s : State) : (minimalMode s).startAt = none ∧ (minimalMode s).tries = [] := by
  unfold minimalMode
  dsimp only
  split <;> exact ⟨rfl, rfl⟩

/-- What minimal mode makes of BOOTSTAT: the lowest tower that passed leads in STATE 5, the others hold in STATE 6 (R363). -/
theorem minimalMode_boot (s : State) (u : Four) :
    let b := ((minimalMode s).tower u).boot
    let up := Four.all.find? fun t => (s.tower t).boot.passed
    b.reason = (s.tower u).boot.reason ∧ b.fails = (s.tower u).boot.fails
    ∧ (up = some u → b.state = 5 ∧ b.minimal = true ∧ b.leader = true) ∧ (up ≠ some u → b.state = 6) := by
  unfold minimalMode
  extract_lets up s1 b
  have e : s1.tower u = if up = some u then (Tower.carved { s.tower u with boot := { (s.tower u).boot with minimal := true } }).enter 5
      else (s.tower u).enter 6 := Quad.get_mapIdx ..
  have held : up ≠ some u → (s1.tower u).boot = { (s.tower u).boot with state := 6 } := fun h => by rw [e, if_neg h, Tower.enter_boot]
  have runs : up = some u → (s1.tower u).boot = { (s.tower u).boot with minimal := true, state := 5 } := fun h => by
    rw [e, if_pos h, Tower.enter_boot]
    rfl
  have leads : ∀ t, up = some t → b = { (s1.tower u).boot with leader := u == t } := fun t h => by
    simp only [b, h]
    exact (lead_tower ..).1
  have off : up = none → b = (s1.tower u).boot := fun h => by simp only [b, h]
  cases hup : up with
  | none =>
    rw [off hup, held (by simp [hup])]
    exact ⟨rfl, rfl, nofun, fun _ => rfl⟩
  | some t =>
    rw [leads t hup]
    by_cases htu : u = t
    · subst htu
      rw [runs hup]
      exact ⟨rfl, rfl, fun _ => ⟨rfl, rfl, beq_self_eq_true u⟩, fun h => absurd rfl h⟩
    · rw [held (by simpa [hup] using Ne.symm htu)]
      exact ⟨rfl, rfl, fun h => absurd (Option.some.inj h).symm htu, fun _ => rfl⟩

/-- The third failure: minimal mode, in which the lowest tower that passed its self-test leads. -/
theorem minimalMode_third {s : State} (reason : Byte) (t : Four) (h : 3 ≤ (s.tower 0).boot.fails + 1)
    (same : ∀ t, (s.tower t).boot.fails = (s.tower 0).boot.fails) :
    let u := minimalMode (countFailure reason s)
    (u.tower t).boot.reason = reason ∧ (u.tower t).boot.fails = 3
    ∧ ((s.tower t).boot.passed = true → (∀ k, k < t → (s.tower k).boot.passed = false) →
      (u.tower t).boot.state = 5 ∧ (u.tower t).boot.minimal = true ∧ (u.tower t).boot.leader = true ∧ ∀ k, k ≠ t → (u.tower k).boot.state = 6) := by
  intro u
  have boot := minimalMode_boot (countFailure reason s)
  simp only [countFailure_tower] at boot
  obtain ⟨hr, hn, up, -⟩ := boot t
  have := same t
  refine ⟨hr, hn.trans (by omega), fun hp hlow => ?_⟩
  have first := Four.find?_all hp hlow
  obtain ⟨h5, hm, hl⟩ := up first
  exact ⟨h5, hm, hl, fun k hk => (boot k).2.2.2 (by simpa [first] using Ne.symm hk)⟩

/-! ### The 5 s, and a loss of power -/

theorem startOver_iff {s : State} {t0 : Nat} (h : s.startAt = some t0) : startOver s = true ↔ t0 + 5000000000 ≤ (s.tower 0).time := by
  rw [startOver, h, Option.any_some, decide_eq_true_iff]

theorem startTimeout_due {s : State} (starts : List (Quad TowerStart)) (h : startOver s = true) :
    exec (.startTimeout starts) s = .next (failStart s 5 starts) ∧ startDue s = failStart s 5 s.tries :=
  ⟨congrArg Host.Outcome.next (if_pos h), if_pos h⟩

theorem startTimeout_early {s : State} (starts : List (Quad TowerStart)) (h : startOver s = false) :
    exec (.startTimeout starts) s = .next s ∧ startDue s = s :=
  ⟨congrArg Host.Outcome.next (if_neg (Bool.eq_false_iff.mp h)), if_neg (Bool.eq_false_iff.mp h)⟩

end Sys2Proof.Machine
end

