-- ==== Sys2Proof/Proofs/TimeAndErrors.lean ====
section
/-!
Tower time (R341), errors and the tests that they start (R364, R365, R372).
-/

set_option Elab.async false

namespace Sys2Proof.Machine

/-! ### Tower time -/

@[simp] theorem Tower.lapse_time (tw : Tower) : tw.lapse.time = tw.time := by
  unfold Tower.lapse
  split <;> rfl

@[simp] theorem Tower.lapse_rate (tw : Tower) : tw.lapse.rate = tw.rate := by
  unfold Tower.lapse
  split <;> rfl

/-- 10 ms without a sample lose the lock. -/
theorem Tower.lapse_late {tw : Tower} (hl : tw.lock.locked = true) (h : tw.lock.lastSample + 10000000 ≤ tw.time) :
    tw.lapse.lock = tw.lock.unlock := by
  simp only [Tower.lapse, hl, h, decide_true, Bool.and_self, if_true]

theorem Tower.lapse_of_not_late {tw : Tower} (h : ¬(tw.lock.locked = true ∧ tw.lock.lastSample + 10000000 ≤ tw.time)) :
    tw.lapse = tw := by
  unfold Tower.lapse
  exact if_neg (by simpa using h)

/-- A tower that is not locked counts good samples; one that has just lost its lock counts from none. -/
theorem Tower.lapse_unheld {tw : Tower} (h : ¬(tw.lock.locked = true ∧ tw.time < tw.lock.lastSample + 10000000)) :
    tw.lapse.lock.locked = false
    ∧ (16 ≤ tw.lapse.lock.good + 1 ↔ tw.lock.locked = false ∧ 16 ≤ tw.lock.good + 1) := by
  by_cases hl : tw.lock.locked = true
  · rw [lapse_late hl (Nat.le_of_not_lt fun hlt => h ⟨hl, hlt⟩)]
    simp [TimeLock.unlock, hl]
  · rw [lapse_of_not_late fun hx => hl hx.1]
    simp [hl]

/-- A sample is good within 50 ns of the reference. -/
def Tower.nearTo (tw : Tower) (ref : Nat) : Prop := tw.time ≤ ref + 50 ∧ ref ≤ tw.time + 50

theorem Tower.nearTo_iff (tw : Tower) (ref : Nat) :
    (decide (tw.time ≤ ref + 50) && decide (ref ≤ tw.time + 50)) = true ↔ tw.nearTo ref := by
  rw [Bool.and_eq_true, decide_eq_true_iff, decide_eq_true_iff, nearTo]

section
variable (draw reference : Nat) {tw : Tower}

/-- Of a tower that keeps its lock until the sample, which keeps it exactly where it is good, only the rate changes. -/
theorem Tower.sampleTime_held (hl : tw.lock.locked = true) (h : tw.time < tw.lock.lastSample + 10000000) :
    let u := tw.sampleTime draw reference
    let ref := reference % 2 ^ 64
    u.time = tw.time ∧ (u.lock.locked = true ↔ tw.nearTo ref) ∧ (tw.nearTo ref → u.rate = clampRate (Config.rateStep draw))
    ∧ (¬tw.nearTo ref → u.rate = tw.rate) := by
  intro u ref
  have e : u = if decide (tw.time ≤ ref + 50) && decide (ref ≤ tw.time + 50) then
        { tw with rate := clampRate (Config.rateStep draw), lock := { tw.lock with lastSample := tw.time } }
      else { tw with lock := { tw.lock.unlock with lastSample := tw.time } } := by
    simp only [u, Tower.sampleTime, lapse_of_not_late fun hx => absurd hx.2 (Nat.not_le.mpr h), if_pos hl, ref]
  by_cases near : tw.nearTo ref
  · rw [e, if_pos ((nearTo_iff tw ref).mpr near)]
    exact ⟨rfl, iff_of_true hl near, fun _ => rfl, fun hn => absurd near hn⟩
  · rw [e, if_neg (near ∘ (nearTo_iff tw ref).mp)]
    exact ⟨rfl, iff_of_false Bool.false_ne_true near, fun hn => absurd hn near, fun _ => rfl⟩

/-- One without a lock takes it at the sixteenth good sample; a bad one steps its count, never back. -/
theorem Tower.sampleTime_unheld (h : ¬(tw.lock.locked = true ∧ tw.time < tw.lock.lastSample + 10000000)) :
    let u := tw.sampleTime draw reference
    let ref := reference % 2 ^ 64
    u.rate = tw.rate
    ∧ (tw.nearTo ref → u.time = tw.time ∧ (u.lock.locked = true ↔ tw.lock.locked = false ∧ 16 ≤ tw.lock.good + 1))
    ∧ (¬tw.nearTo ref → u.lock.locked = false ∧ u.time = max tw.time ref) := by
  intro u ref
  obtain ⟨unlocked, sixteen⟩ := lapse_unheld h
  have e : u = if decide (tw.time ≤ ref + 50) && decide (ref ≤ tw.time + 50) then
        { tw.lapse with lock := { tw.lapse.lock with
            good := tw.lapse.lock.good + 1, locked := decide (16 ≤ tw.lapse.lock.good + 1), lastSample := tw.time } }
      else { tw.lapse with clock := BitVec.ofNat 64 (max tw.time ref),
                           lock := { tw.lapse.lock with good := 0, lastSample := max tw.time ref } } := by
    simp only [u, Tower.sampleTime, unlocked, lapse_time, ref, Bool.false_eq_true, if_false]
  by_cases near : tw.nearTo ref
  · rw [e, if_pos ((nearTo_iff tw ref).mpr near)]
    exact ⟨lapse_rate tw, fun _ => ⟨lapse_time tw, decide_eq_true_iff.trans sixteen⟩, fun hn => absurd near hn⟩
  · rw [e, if_neg (near ∘ (nearTo_iff tw ref).mp)]
    refine ⟨lapse_rate tw, fun hn => absurd hn near, fun _ => ⟨unlocked, ?_⟩⟩
    refine BitVec.toNat_ofNat .. |>.trans (Nat.mod_eq_of_lt (Nat.max_lt.mpr ⟨tw.clock.isLt, Nat.mod_lt _ (by decide)⟩))

/-- The count never steps back. -/
theorem Tower.time_le_sampleTime : tw.time ≤ (tw.sampleTime draw reference).time := by
  by_cases held : tw.lock.locked = true ∧ tw.time < tw.lock.lastSample + 10000000
  · exact Nat.le_of_eq (sampleTime_held draw reference held.1 held.2).1.symm
  · obtain ⟨-, near, far⟩ := sampleTime_unheld draw reference held
    by_cases hn : tw.nearTo (reference % 2 ^ 64)
    · exact Nat.le_of_eq (near hn).1.symm
    · exact (far hn).2 ▸ Nat.le_max_left ..

end

theorem clampRate_within (r : Int) : -100000 ≤ clampRate r ∧ clampRate r ≤ 100000 := by
  unfold clampRate
  omega

/-! ### Units and their errors -/

theorem named_sub (unit index sub : Byte) :
    (unit ≠ 0 → unit ≠ 2 → (ErrUnit.named unit index sub).sub = 0xFF)
    ∧ (unit = 0 ∨ unit = 2 → (ErrUnit.named unit index sub).sub.toNat = sub.toNat % 4) := by
  refine ⟨fun h0 h2 => if_neg (not_or.mpr ⟨h0, h2⟩), fun h => ?_⟩
  have e : (ErrUnit.named unit index sub).sub = sub &&& 3 := if_pos h
  rw [e, BitVec.toNat_and]
  exact Nat.and_two_pow_sub_one_eq_mod sub.toNat 2

/-- The units of R372 are those whose index lies below the number that there are of their kind. -/
theorem named_exists_iff (unit index sub : Byte) : let u := ErrUnit.named unit index sub
    u.exists = true ↔ unit = 5 ∨ unit = 8 ∨ u.index.toNat < [40, 40, 40, 16, 4, 0, 128, 6, 0, 4].getD unit.toNat 0 := by
  intro u
  have five : unit = 5 ↔ unit.toNat = 5 := BitVec.toNat_eq
  have eight : unit = 8 ↔ unit.toNat = 8 := BitVec.toNat_eq
  rw [five, eight]
  simp only [ErrUnit.exists, show u.unit = unit from rfl]
  generalize unit.toNat = n
  match n with
  | 0 | 1 | 2 | 3 | 4 | 5 | 6 | 7 | 8 | 9 => simp
  | n + 10 => simp

/-! ### What an error leaves -/

theorem updTower_updTower (s : State) (t : Four) (f g : Tower → Tower) :
    (s.updTower t f).updTower t g = s.updTower t fun tw => g (f tw) := by
  simp only [State.updTower]
  congr 1
  match t with
  | 0 | 1 | 2 | 3 => rfl

theorem getD_updAt {α : Type} {l : List α} {n : Nat} (h : n < l.length) (f : α → α) (d : α) : (updAt l n f).getD n d = f l[n] := by
  simp [updAt, List.getD_eq_getElem?_getD, h]

/-- The launches that an error ends: those whose state or data an uncorrected one struck, if they still run. -/
def struckBy (s : State) (e : ErrorEvent) : List Nat :=
  if e.corrected then [] else e.launches.filter fun id => (s.launch? id).any (·.finished.isNone)

/-- An error logged, its unit's test queued, its column draining. -/
def noteError (s : State) (t : Four) (e : ErrorEvent) : State :=
  let u := ErrUnit.named e.unit e.index e.sub
  let outcome : BitVec 3 := if e.corrected then 0 else if struckBy s e = [] then 2 else 1
  s.updTower t fun tw => { tw.logError (errWord u.unit u.index u.sub e.corrected outcome e.loc) with
    errUnits := tw.errUnits ++ [u]
    cols := if u.unit.toNat ≤ 2 then updAt tw.cols u.index.toNat fun co => { co with draining := true } else tw.cols }

/-- An error noted, and the moves that the drain of its column cancels. -/
def meetError (s : State) (t : Four) (e : ErrorEvent) : State :=
  let u := ErrUnit.named e.unit e.index e.sub
  if u.unit.toNat ≤ 2 then cancelMoves (noteError s t e) t [u.index.toNat] else noteError s t e

section
variable (s : State) (t : Four) (e : ErrorEvent)

theorem errorDetected_named (h : (ErrUnit.named e.unit e.index e.sub).exists = true) :
    exec (.errorDetected t e) s = .next ((struckBy s e).foldl (killLaunch .device) (meetError s t e)) := by
  change execErrorDetected t e s = _
  simp only [execErrorDetected, if_pos h, updTower_updTower, List.isEmpty_iff]
  rfl

theorem errorDetected_unnamed (h : (ErrUnit.named e.unit e.index e.sub).exists = false) : exec (.errorDetected t e) s = .next s :=
  congrArg Host.Outcome.next (if_neg (Bool.eq_false_iff.mp h))

@[simp] theorem meetError_service : (meetError s t e).service = (noteError s t e).service := by
  unfold meetError
  dsimp only
  split
  · exact cancelMoves_service ..
  · rfl

theorem meetError_errcnt : ((meetError s t e).tower t).errcnt = (s.tower t).errcnt + 1 := by
  rw [service_errcnt (meetError_service s t e), noteError, updTower_tower_self]
  rfl

theorem meetError_errUnits :
    ((meetError s t e).tower t).errUnits = (s.tower t).errUnits ++ [ErrUnit.named e.unit e.index e.sub] := by
  rw [service_errUnits (meetError_service s t e), noteError, updTower_tower_self]

theorem meetError_draining (hu : (ErrUnit.named e.unit e.index e.sub).unit.toNat ≤ 2)
    (hc : (ErrUnit.named e.unit e.index e.sub).index.toNat < (s.tower t).cols.length) :
    ((meetError s t e).col t (ErrUnit.named e.unit e.index e.sub).index.toNat).draining = true := by
  rw [service_draining (meetError_service s t e), State.col, noteError, updTower_tower_self, Tower.col, if_pos hu, getD_updAt hc]

end

/-! ### Kills and tests -/

theorem killLaunch_eq {s : State} {id : Nat} {l : Launch} (by_ : KillBy) (h : s.launch? id = some l) :
    killLaunch by_ s id = checkDone (l.map.eraseDups.foldl (fun s t => killTower by_ s id t)
      (s.updLaunch id fun x => { x with
        hostKill := x.hostKill || (by_ == .host && x.finished.isNone)
        deviceKill := x.deviceKill || (by_ == .device && x.finished.isNone) })) id := by
  rw [killLaunch, h]

section
variable {s : State} {t : Four} {unit index : Byte} {e : ErrUnit}
  (he : (s.tower t).errUnits.find? (fun e => e.unit == unit && e.index == index) = some e)
include he

theorem targetedSelfTest_unit (v : TestVerdict) (h : 2 < unit.toNat) : exec (.targetedSelfTest t unit index v) s =
    .next ((concludeUnit s t unit index e.sub v).updTower t fun tw => { tw with errUnits := tw.errUnits.filter (· != e) }) := by
  change execTargetedSelfTest t unit index v s = _
  simp only [execTargetedSelfTest, he, if_neg (Nat.not_le.mpr h)]

/-- The test that finds no further error of a free column ends its drain. -/
theorem targetedSelfTest_column (v : TestVerdict) (h : unit.toNat ≤ 2) (free : columnFree s t index.toNat = true)
    {s1 : State} (hs : s1 = (concludeColumn s t unit index e.sub v).updTower t fun tw => { tw with errUnits := tw.errUnits.filter (· != e) })
    (last : ∀ x ∈ (s1.tower t).errUnits, ¬(x.unit.toNat ≤ 2 ∧ x.index = index)) : exec (.targetedSelfTest t unit index v) s =
      .next (offer (s1.updCol t index.toNat fun co => { co with draining := false }) t (some index.toNat)) := by
  have none_ : ((s1.tower t).errUnits.any fun x => decide (x.unit.toNat ≤ 2) && x.index == index) = false := by
    simpa using last
  change execTargetedSelfTest t unit index v s = _
  simp only [execTargetedSelfTest, he, if_pos h, if_pos free, ← hs, none_, Bool.false_eq_true, if_false]

end

end Sys2Proof.Machine
end

