-- ==== Sys2Proof/Proofs/ResetAndStarts.lean ====
section
/-!
What reset leaves, and how starts, tower time, errors and tests go on from it.
-/

set_option Elab.async false

namespace Sys2Proof.Machine

/-! ### A loss of power, a sample, 10 ms without one -/

/-- A loss of power leaves HBM blank and no patch; sites that were used up stay so. -/
theorem powerLoss_leaves (s : State) : ∃ u, exec .powerLoss s = .next u ∧ u.hbm = [] ∧ u.patch = none ∧ u.gangs = [] ∧ u.launches = []
    ∧ u.startAt = some 0 ∧ ∀ t, (u.tower t).boot.state = 0 ∧ (u.tower t).boot.fails = 0 ∧ (u.tower t).boot.cols = (s.tower t).boot.cols
      ∧ (u.tower t).spares = (s.tower t).spares := by
  refine ⟨_, rfl, rfl, rfl, rfl, rfl, rfl, fun t => ?_⟩
  rw [State.tower, Quad.get_map]
  exact ⟨rfl, rfl, rfl, rfl⟩

theorem ptpSample_tower (t : Four) (reference : Nat) (s : State) :
    ∃ u, exec (.ptpSample t reference) s = .next u ∧ u.tower t = (s.tower t).sampleTime s.nextId reference ∧ u.hbm = s.hbm :=
  ⟨_, rfl, updTower_tower_self .., rfl⟩

theorem lockTimeout_tower (t : Four) (s : State) : ∃ u, exec (.lockTimeout t) s = .next u ∧ u.tower t = (s.tower t).lapse :=
  ⟨_, rfl, updTower_tower_self ..⟩

/-- Settles O58: a reset keeps what starts go by, each attempt is judged stage by stage, a sample finds a tower with its lock or
without, and the moves that a drain cancels leave counts and drains as they were. -/
theorem startsErrorsAndTime : Obligations.StartsErrorsAndTime := by
  unfold Obligations.StartsErrorsAndTime
  refine ⟨fun starts more s good leaders patch fails => ?_, fun x xs s h => reset_minimal x xs h, reset_nil, fun x s => ?_,
    fun x xs s => ⟨by rw [startFrom], fun u h => by rw [startFrom, h], fun u h => by rw [startFrom, h], fun u r h => by rw [startFrom, h]; rfl⟩,
    fun s reason starts same => ?_, fun tw x e => trained_uncorrected, fun unit index sub => ?_, fun starts s t0 h => ?_,
    fun starts s h => startTimeout_early starts (by rw [startOver, h]; rfl), powerLoss_leaves, fun t reference s => ?_, fun t s => ?_,
    fun t e s => ?_, fun by_ s id l h => killLaunch_eq by_ h,
    fun t unit index v s e he => ⟨targetedSelfTest_unit he v, fun h free => targetedSelfTest_column he v h free rfl⟩⟩
  · have hx : ∀ t, GoodStart (starts.get t) := fun t =>
      let ⟨cores, stores, verts, hbm, errors, goes, _⟩ := good t
      ⟨cores, stores, verts, hbm, errors, goes⟩
    have hf : ∀ t, (s.tower t).failNext = none := fun t => (good t).2.2.2.2.2.2
    obtain ⟨hbm, kept, applied, launches, gangs, spaces, startAt, leader⟩ := readyAll_afterTraining (resetModule s) starts
    exact ⟨_, reset_good more hx hf leaders patch fails, hbm.trans (resetModule_hbm s), kept.trans (resetModule_patch s),
      applied.trans (resetModule_patch s), launches.trans (resetModule_launches s), gangs.trans (resetModule_gangs s),
      spaces.trans (resetModule_spaces s), startAt, leader, reset_good_tower hx hf⟩
  · exact ⟨fun r => attemptOnce_selfTest, fun h1 => ⟨fun r => attemptOnce_training h1, fun h2 => ⟨attemptOnce_stalled h1 h2, fun hs =>
      ⟨attemptOnce_noLeader h1 h2 hs, fun hl => ⟨fun p => attemptOnce_badPatch h1 h2 hs hl, attemptOnce_ready h1 h2 hs hl⟩⟩⟩⟩⟩
  · refine ⟨failStart_restarts reason starts, fun h hnil => hnil ▸ failStart_nil reason h same, fun h => ?_⟩
    have third := failStart_minimal reason starts h
    obtain ⟨startAt, tries⟩ := minimalMode_ends (countFailure reason s)
    exact ⟨third, third ▸ startAt, third ▸ tries, fun t => third ▸ minimalMode_third reason t h same⟩
  · obtain ⟨other, place⟩ := named_sub unit index sub
    exact ⟨rfl, fun h => if_neg h, fun h => if_pos h, other, place, named_exists_iff unit index sub⟩
  · have due := startOver_iff h
    exact ⟨fun late => startTimeout_due starts (due.mpr late),
      fun early => startTimeout_early starts (Bool.eq_false_iff.mpr fun o => absurd (due.mp o) (Nat.not_le.mpr early))⟩
  · obtain ⟨u, eu, tower, hbm⟩ := ptpSample_tower t reference s
    refine ⟨u, eu, tower ▸ Tower.time_le_sampleTime .., hbm, fun held => ?_, fun unheld => ?_⟩
    · obtain ⟨time, near, rate, same⟩ := Tower.sampleTime_held s.nextId reference held.1 held.2
      rw [tower]
      exact ⟨time, near, fun h => rate h ▸ clampRate_within _, same⟩
    · obtain ⟨rate, near, far⟩ := Tower.sampleTime_unheld s.nextId reference unheld
      rw [tower]
      exact ⟨rate, fun h => (near h).2, far⟩
  · obtain ⟨u, eu, tower⟩ := lockTimeout_tower t s
    refine ⟨u, eu, fun locked late => ?_, fun early => ?_⟩
    · rw [tower, Tower.lapse_late locked late]
      exact ⟨rfl, rfl⟩
    · rw [tower, Tower.lapse_of_not_late fun late => absurd late.2 (Nat.not_le.mpr early)]
  · refine ⟨fun h => ⟨errorDetected_named s t e h, fun spared => ⟨meetError s t e, ?_, meetError_errcnt s t e, meetError_errUnits s t e,
      meetError_draining s t e⟩⟩, errorDetected_unnamed s t e⟩
    rw [errorDetected_named s t e h, show struckBy s e = [] from spared, List.foldl_nil]

/-- Settles O60: each register is read off the state after reset, alike in every tower and stack. -/
theorem resetLeavesTheRegistersSo : Obligations.ResetLeavesTheRegistersSo := by
  unfold Obligations.ResetLeavesTheRegistersSo
  refine ⟨rfl, rfl, rfl, rfl, rfl, rfl, rfl, fun t => ?_⟩
  have same : State.reset.tower t = Tower.reset := Quad.get_fill ..
  intro tw
  simp only [tw, same]
  refine ⟨rfl, rfl, rfl, rfl, rfl, rfl, rfl, rfl, rfl, rfl, rfl, rfl, rfl, rfl, rfl, rfl, rfl, rfl, rfl, fun x hx => List.eq_of_mem_replicate hx,
    rfl, fun k => ?_⟩
  have stack : Tower.reset.hbmStacks.get k = Stack.reset := Quad.get_fill ..
  rw [stack]
  exact ⟨rfl, rfl, rfl, rfl, rfl⟩

end Sys2Proof.Machine
end

