-- ==== Sys2Proof/Proofs/VectorIntegers.lean ====
section
/-!
The vector integer words and the values of their rows, with the counts, the reversal and the bit fields said bit by bit.
-/

set_option Elab.async false

namespace Sys2Proof.Machine

/-! ### The rows of major 0x06 (R201) -/

/-- A word whose meaning is the lane form with `f`, which agrees with the value of its row in each lane, gives the row. -/
theorem gives_laneWrites {i : Instr} {g : BitVec 3} {d : Reg} {f r : Ctx → Bead → Four → Word}
    (he : ∀ s, exec i s = laneOp i g d s f) (hf : ∀ c b k, f c b k = r c b k) : Gives i (laneWrites g d r) := by
  intro c s h
  obtain rfl : f = r := funext fun c => funext fun b => funext fun k => hf c b k
  exact (he s).trans (issue_own h _)

theorem if_slt (x y z w : Word) : (if x.slt y then z else w) = if x.toInt < y.toInt then z else w := by
  simp only [BitVec.slt_iff_toInt_lt]

theorem if_ult (x y z w : Word) : (if x.ult y then z else w) = if x.toNat < y.toNat then z else w := by
  simp only [BitVec.ult_iff_lt, BitVec.lt_def]

theorem if_bne_zero (x z w : Word) : (if x != 0 then z else w) = if x = 0 then w else z := by
  by_cases h : x = 0 <;> simp [h]

/-- The high half of a product of two words read as unsigned numbers (R201). -/
theorem mulHigh_toNat (x y : Word) : (mulHigh x.toNat y.toNat : Word) = BitVec.ofNat 32 (x.toNat * y.toNat / 2 ^ 32) := by
  unfold mulHigh
  exact_mod_cast BitVec.ofInt_natCast 32 _

/-- Settles O23: each word is a lane-wise word that issues, and its value is that of its row; in all but seven rows the two are
written alike. -/
theorem vectorIntegerWordsGiveTheirResult : Obligations.VectorIntegerWordsGiveTheirResult := by
  unfold Obligations.VectorIntegerWordsGiveTheirResult
  intro d a b g
  refine ⟨?vadd, ?vsub, ?vmul, ?vmulh, ?vmulhn, ?vmad, ?vand, ?vor, ?vxor, ?vandn, ?vshl, ?vshr, ?vsra, ?vmin, ?vmax, ?vminn, ?vmaxn,
    ?vsel, ?vabs, ?vneg, ?vpopc, ?vclz, ?vbrev, ?vmov⟩
  case vmulhn => exact gives_laneWrites (fun _ => rfl) fun _ _ _ => mulHigh_toNat ..
  case vmin | vmax | vabs => exact gives_laneWrites (fun _ => rfl) fun _ _ _ => if_slt ..
  case vminn | vmaxn => exact gives_laneWrites (fun _ => rfl) fun _ _ _ => if_ult ..
  case vsel => exact gives_laneWrites (fun _ => rfl) fun _ _ _ => if_bne_zero ..
  all_goals exact gives_laneWrites (fun _ => rfl) fun _ _ _ => rfl

/-! ### Counts, reversal and fields, bit by bit (R201, R204) -/

theorem popcount_toNat (x : Word) : (popcount x).toNat = ((List.range 32).filter x.getLsbD).length := by
  have h := List.length_filter_le x.getLsbD (List.range 32)
  rw [List.length_range] at h
  exact Nat.mod_eq_of_lt (by omega)

/-- A bit shifted in from the right is the lowest, and each other moves up by one place. -/
theorem shiftIn_getLsbD (r : Word) (b : Bool) {j : Nat} (hj : j < 32) :
    ((r <<< 1) ||| bit b).getLsbD j = if j = 0 then b else r.getLsbD (j - 1) := by
  have low : (bit b : Word).getLsbD j = (b && decide (j = 0)) := by
    cases b
    · exact BitVec.getLsbD_zero
    · simp [bit, BitVec.getLsbD_one]
  rw [BitVec.getLsbD_or, BitVec.getLsbD_shiftLeft, low]
  cases j with
  | zero => simp
  | succ j => simp [hj]

/-- Bits shifted in one after another from the right: the last one is the lowest. -/
theorem foldl_shiftIn_getLsbD (f : Nat → Bool) (n : Nat) {j : Nat} (hj : j < 32) :
    ((List.range n).foldl (fun (r : Word) k => (r <<< 1) ||| bit (f k)) 0).getLsbD j = (decide (j < n) && f (n - 1 - j)) := by
  induction n generalizing j with
  | zero => exact BitVec.getLsbD_zero
  | succ n ih =>
    rw [List.range_succ, List.foldl_append, List.foldl_cons, List.foldl_nil, shiftIn_getLsbD _ _ hj]
    cases j with
    | zero => simp
    | succ j =>
      have place : n - (j + 1) = n - 1 - j := by omega
      simp only [Nat.add_one_ne_zero, if_false, Nat.add_sub_cancel, ih (Nat.lt_of_succ_lt hj), Nat.succ_lt_succ_iff, place]

theorem bitReverse_getLsbD (x : Word) {k : Nat} (hk : k < 32) : (bitReverse x).getLsbD k = x.getLsbD (31 - k) := by
  rw [bitReverse, foldl_shiftIn_getLsbD x.getLsbD 32 hk, decide_eq_true hk, Bool.true_and]

/-- The place of the highest 1 bit is the binary logarithm. -/
theorem log2_of_highest {x : Word} {k : Nat} (hk : x.getLsbD k = true) (above : ∀ j, k < j → x.getLsbD j = false) : Nat.log2 x.toNat = k := by
  have low : 2 ^ k ≤ x.toNat := Nat.ge_two_pow_of_testBit hk
  have high : x.toNat < 2 ^ (k + 1) := Nat.lt_pow_two_of_testBit _ above
  exact (Nat.log2_eq_iff (Nat.ne_zero_of_lt (Nat.lt_of_lt_of_le (Nat.two_pow_pos k) low))).mpr ⟨low, high⟩

theorem leadingZeros_zero : leadingZeros 0 = 32 := rfl

theorem leadingZeros_of_highest {x : Word} {k : Nat} (hk : x.getLsbD k = true) (above : ∀ j, k < j → x.getLsbD j = false) :
    (leadingZeros x).toNat = 31 - k := by
  have ne : x ≠ 0 := fun h => by simp [h] at hk
  rw [leadingZeros, if_neg ne, log2_of_highest hk above]
  exact Nat.mod_eq_of_lt (by omega)

theorem fieldMask_getLsbD (y : Word) {k : Nat} (hk : k < 32) :
    (fieldMask y).getLsbD k = decide (fieldPos y ≤ k ∧ k < fieldPos y + fieldWidth y) := by
  rw [fieldMask, BitVec.getLsbD_ofNat, Nat.testBit_mul_two_pow, Nat.testBit_two_pow_sub_one]
  by_cases low : fieldPos y ≤ k
  · simp [hk, low, Nat.sub_lt_iff_lt_add' low]
  · simp [low]

/-- VBFI (R204): inside the field the inserted bits, moved up to its place; outside it the old ones. -/
theorem insertField_getLsbD (x y z : Word) {k : Nat} (hk : k < 32) :
    ((z &&& ~~~fieldMask y) ||| ((x <<< fieldPos y) &&& fieldMask y)).getLsbD k =
      if fieldPos y ≤ k ∧ k < fieldPos y + fieldWidth y then x.getLsbD (k - fieldPos y) else z.getLsbD k := by
  simp only [BitVec.getLsbD_or, BitVec.getLsbD_and, BitVec.getLsbD_not, BitVec.getLsbD_shiftLeft, fieldMask_getLsbD y hk]
  split
  case isTrue inside => simp [hk, inside]
  case isFalse outside => simp [hk, outside]

/-- Settles O24: each clause is the law of its operation. -/
theorem bitCountsMeanWhatTheySay : Obligations.BitCountsMeanWhatTheySay := by
  unfold Obligations.BitCountsMeanWhatTheySay
  exact fun x y z => ⟨popcount_toNat x, fun _ => bitReverse_getLsbD x, fun h => h ▸ leadingZeros_zero, fun _ _ => leadingZeros_of_highest,
    fun _ => fieldMask_getLsbD y, fun _ => insertField_getLsbD x y z⟩

end Sys2Proof.Machine
end

