-- ==== Sys2Proof/Proofs/BarrierPhases.lean ====
section
/-!
The word of a barrier over all its arrivals (R231, R232).
-/

namespace Sys2Proof.Machine

/-- One arrival, by the three fields of the word: what it expects, what has arrived, the phase. -/
theorem arrive_fields {e a : Nat} (ph : Nat) (he : e < 65536) (ha : a < 65536) : arrive (e + a * 65536 + ph * 2 ^ 32) =
    if e ≤ a + 1 then (e + (ph + 1) % 2 ^ 32 * 2 ^ 32, true, ph) else (e + (a + 1) * 65536 + ph * 2 ^ 32, false, ph) := by
  have expect : (e + a * 65536 + ph * 2 ^ 32) % 65536 = e := by omega
  have arrived : (e + a * 65536 + ph * 2 ^ 32) / 65536 % 65536 = a := by omega
  have phase : (e + a * 65536 + ph * 2 ^ 32) / 2 ^ 32 = ph := by omega
  simp only [arrive, expect, arrived, phase]

/-- An arrival that is not the last one is counted. -/
theorem arrive_counts {n k : Nat} (ph : Nat) (hn : n < 65536) (hk : k + 1 < n) :
    arrive (n + k * 65536 + ph * 2 ^ 32) = (n + (k + 1) * 65536 + ph * 2 ^ 32, false, ph) := by
  rw [arrive_fields ph hn (by omega), if_neg (by omega)]

/-- The last arrival completes the phase. -/
theorem arrive_completes {n k : Nat} (ph : Nat) (hn : n < 65536) (hk : k + 1 = n) :
    arrive (n + k * 65536 + ph * 2 ^ 32) = (n + (ph + 1) % 2 ^ 32 * 2 ^ 32, true, ph) := by
  rw [arrive_fields ph hn (by omega), if_pos (by omega)]

/-- At a word that expects 0 every arrival completes a phase. -/
theorem arrive_expecting_zero (ph : Nat) : arrive (ph * 2 ^ 32) = ((ph + 1) % 2 ^ 32 * 2 ^ 32, true, ph) := by
  simpa using arrive_fields (e := 0) (a := 0) ph (by decide) (by decide)

/-- Before the last arrival the word has counted each. -/
theorem arrivals_before_last {n k : Nat} (ph : Nat) (hn : n < 65536) (hk : k < n) :
    Nat.repeat (fun o => (arrive o).1) k (n + ph * 2 ^ 32) = n + k * 65536 + ph * 2 ^ 32 := by
  induction k with
  | zero => simp [Nat.repeat]
  | succ k ih => rw [Nat.repeat, ih (by omega), arrive_counts ph hn hk]

/-- The arrivals expected make one phase. -/
theorem arrivals_complete {n : Nat} (ph : Nat) (pos : 0 < n) (hn : n < 65536) :
    Nat.repeat (fun o => (arrive o).1) n (n + ph * 2 ^ 32) = n + (ph + 1) % 2 ^ 32 * 2 ^ 32 := by
  obtain ⟨k, rfl⟩ := Nat.exists_eq_succ_of_ne_zero (Nat.ne_of_gt pos)
  rw [Nat.repeat, arrivals_before_last ph hn (Nat.lt_succ_self k), arrive_completes ph hn rfl]

/-- Where none is expected, each arrival is a phase. -/
theorem arrivals_expecting_zero {ph : Nat} (hp : ph < 2 ^ 32) (k : Nat) :
    Nat.repeat (fun o => (arrive o).1) k (ph * 2 ^ 32) = (ph + k) % 2 ^ 32 * 2 ^ 32 := by
  induction k with
  | zero => rw [Nat.repeat, Nat.add_zero, Nat.mod_eq_of_lt hp]
  | succ k ih => rw [Nat.repeat, ih, arrive_expecting_zero, Nat.mod_add_mod, Nat.add_assoc]

/-- Settles O39: by induction on the arrivals, from what one arrival makes of the fields of the word. -/
theorem aPhaseTakesEveryArrival : Obligations.APhaseTakesEveryArrival := by
  unfold Obligations.APhaseTakesEveryArrival
  refine ⟨fun n ph pos hn _ => ⟨fun k hk => ⟨arrivals_before_last ph hn hk, ?_⟩, arrivals_complete ph pos hn⟩,
    fun k ph hp => ⟨arrivals_expecting_zero hp k, congrArg Prod.snd (arrive_expecting_zero ph)⟩, fun e a ph he ha _ => ?_⟩
  · by_cases last : k + 1 = n
    · rw [arrive_completes ph hn last, decide_eq_true last]
    · rw [arrive_counts ph hn (by omega), decide_eq_false last]
  · have always : (e = 0 ∨ e ≤ a + 1) ↔ e ≤ a + 1 := by omega
    simp only [arrive_fields ph he ha, always]

end Sys2Proof.Machine
end

