-- ==== Sys2Proof/Proofs/NodeKinds.lean ====
section
/-!
The steps of a node by its kind, and the end of a node (R284 to R289).
-/

namespace Sys2Proof.Machine

section
variable {s : State} {t : Four} {queue : Nat} {ctr : Word} {q : Queue} {n : Node}

/-! ### A step at its turn -/

/-- At its turn a node starts, where it has not, and then makes the step of its kind. -/
theorem NodeTurn.step {kind : Nat} (turn : NodeTurn kind t queue ctr s q n) (f : State → Queue → Node → State) :
    nodeStep kind t queue ctr f s = .next (f (startNode s t q n) q n) := by
  obtain ⟨found, node, mapped, kindIs, next⟩ := turn
  have goes : (q.qstate == 2 && n.kind == kind && ((n.state == .running && n.launch.isNone) || mayStart s t q n)) = true := by
    simpa [mapped, kindIs] using next
  simp only [nodeStep, found, node, goes, if_true]

/-! ### WRITE, SIGNAL and TIMESTAMP at the home L2 (R288, R289) -/

theorem nodeWrite_faults {va x : DWord} {bytes : Nat} {f : Conf} (new : Nat → Nat) (after : State → Nat → State)
    (h : rangeFault s q.asid va bytes .write false = some (x, f)) :
    nodeWrite s t q n va bytes new after = nodeFault s t q n x f .write := by
  simp only [nodeWrite, h]

theorem nodeWrite_over {va : DWord} {bytes : Nat} (new : Nat → Nat) (after : State → Nat → State)
    (h : rangeFault s q.asid va bytes .write false = none) :
    nodeWrite s t q n va bytes new after =
      (let r := sysRead (pastCopy s t q.asid va) q.asid va bytes
      overNode (after (sysWrite r.1 q.asid va (leBytes bytes (new (leNat r.2)))) (new (leNat r.2))) t q n 3 0) := by
  simp only [nodeWrite, h]
  rfl

theorem exec_write (turn : NodeTurn 3 t queue ctr s q n) : exec (.write t queue ctr) s = .next
    (nodeWrite (startNode s t q n) t q n (n.va 0x20) (field n.bytes 0x30 1) (fun _ => field n.bytes 0x28 8) fun s _ => s) := by
  change execWrite t queue ctr s = _
  rw [execWrite, turn.step]

theorem exec_signal (turn : NodeTurn 4 t queue ctr s q n) : exec (.signal t queue ctr) s = .next
    (nodeWrite (startNode s t q n) t q n (n.va 0x20) 8
      (fun o => if field n.bytes 0x30 1 = 1 then field n.bytes 0x28 8 else (o + field n.bytes 0x28 8) % 2 ^ 64)
      fun s x => announceSignal s q.asid (n.va 0x20) (BitVec.ofNat 64 x)) := by
  change execSignal t queue ctr s = _
  rw [execSignal, turn.step]

theorem exec_timestamp (turn : NodeTurn 8 t queue ctr s q n) : exec (.timestamp t queue ctr) s = .next
    (nodeWrite (startNode s t q n) t q n (n.va 0x20) 8 (fun _ => ((startNode s t q n).tower t).time) fun s _ => s) := by
  change execTimestamp t queue ctr s = _
  rw [execTimestamp, turn.step]

theorem exec_waitmem (turn : NodeTurn 5 t queue ctr s q n) :
    exec (.waitmem t queue ctr) s = .next (checkWaitmem t (startNode s t q n) q n) := by
  change execWaitmem t queue ctr s = _
  rw [execWaitmem, turn.step]

/-! ### Past the tower's copy (R109, R110) -/

/-- Stores brought home leave the list, and the gangs are as they were. -/
theorem foldl_storeHome (rs : List StoreRec) (s : State) :
    (rs.foldl storeHome s).gangs = s.gangs ∧ ∀ x ∈ (rs.foldl storeHome s).stores, x ∈ s.stores ∧ ∀ r ∈ rs, x.id ≠ r.id := by
  induction rs generalizing s with
  | nil => simp
  | cons r rs ih =>
    obtain ⟨stores, gangs⟩ := storeHome_holds s r
    obtain ⟨same, left⟩ := ih (storeHome s r)
    refine ⟨same.trans gangs, fun x hx => ?_⟩
    obtain ⟨here, others⟩ := left x hx
    rw [stores, List.mem_filter, bne_iff_ne] at here
    exact ⟨here.1, List.forall_mem_cons.mpr ⟨here.2, others⟩⟩

theorem pushPassed_gangs (s : State) (t : Four) (pa : Nat) : (pushPassed s t pa).gangs = s.gangs := (foldl_storeHome _ s).1

/-- No store of the line is left on its way past the tower's remote-data cache. -/
theorem pushPassed_none_passed (s : State) (t : Four) (pa : Nat) :
    ∀ r ∈ (pushPassed s t pa).stores, ¬(r.tower = t ∧ r.stage = 2 ∧ r.pa = pa) := by
  rintro r hr ⟨tower, stage, line⟩
  obtain ⟨here, gone⟩ := (foldl_storeHome _ s).2 r hr
  exact gone r (List.mem_filter.mpr ⟨here, by simp [tower, stage, line, StoreRec.ofPhys]⟩) rfl

@[simp] theorem dropRdc_stores (s : State) (t : Four) (asid : Half) (va : DWord) (pa : Nat) : (dropRdc s t asid va pa).stores = s.stores := by
  unfold dropRdc; split <;> rfl

@[simp] theorem dropRdc_gangs (s : State) (t : Four) (asid : Half) (va : DWord) (pa : Nat) : (dropRdc s t asid va pa).gangs = s.gangs := by
  unfold dropRdc; split <;> rfl

/-- A copy of the line is gone from a tower that is not its home, under its own name and under every other. -/
theorem dropRdc_drops {va : DWord} (s : State) (asid : Half) (pa : Nat) (away : homeOf va ≠ t) :
    ∀ l ∈ ((dropRdc s t asid va pa).tower t).rdc, l.pa ≠ pa ∧ (l.asid = asid → l.va ≠ lineOf va) := by
  intro l hl
  rw [dropRdc, if_neg away, updTower_tower_self, List.mem_filter] at hl
  obtain ⟨name, line⟩ := Bool.and_eq_true_iff.mp hl.2
  refine ⟨bne_iff_ne.mp line, fun space same => ?_⟩
  rw [isLine, beq_iff_eq.mpr space, beq_iff_eq.mpr same] at name
  exact absurd name (by decide)

/-! ### WAITMEM (R288) -/

theorem checkWaitmem_faults {x : DWord} {f : Conf} (h : rangeFault s q.asid (n.va 0x20) 8 .read false = some (x, f)) :
    checkWaitmem t s q n = nodeFault s t q n x f .read := by
  simp only [checkWaitmem, h]

theorem checkWaitmem_reads (h : rangeFault s q.asid (n.va 0x20) 8 .read false = none) :
    checkWaitmem t s q n =
      (let r := sysRead s q.asid (n.va 0x20) 8
      if (n.latched || sigCond (BitVec.ofNat 2 (field n.bytes 0x30 1)) (BitVec.ofNat 64 (leNat r.2)) (n.va 0x28)) = true
      then overNode (r.1.updTower t fun tw => { tw with rdc := tw.rdc.filter (·.asid != q.asid) }) t q n 3 0 else r.1) := by
  simp only [checkWaitmem, h, sysReadNat]
  rfl

/-! ### NODE_END (R284, R285) -/

theorem tryEnd_faults {state : Byte} {status : Half} {va : DWord} {f : Conf} (isOver : n.state = .workOver state status)
    (h : rangeFault s q.asid (q.recVa n.ctr) 32 .write true = some (va, f)) :
    tryEnd s t q n = (reportNode s t q n.ctr va f.cause 2).updQueue t q.num fun q => { q with heldWrite := some n.ctr } := by
  simp only [tryEnd, isOver, h]

theorem tryEnd_ends {state : Byte} {status : Half} (isOver : n.state = .workOver state status)
    (h : rangeFault s q.asid (q.recVa n.ctr) 32 .write true = none) :
    tryEnd s t q n = mirror (endNode s t q n state status) t q.num := by
  simp only [tryEnd, isOver, h]

/-- A node whose work is over, in a queue that is mapped or being unmapped, ends and brings a pass, unless an access is held. -/
theorem exec_nodeEnd {state : Byte} {status : Half} (found : s.queue? t queue = some q) (node : q.nodes.find? (·.ctr == ctr) = some n)
    (isOver : n.state = .workOver state status) (mapped : q.qstate = 2 ∨ q.qstate = 3) :
    exec (.nodeEnd t queue ctr) s =
      .next (if q.heldRead ≠ none ∨ q.heldWrite ≠ none ∨ nodeRecordWaits s t q ctr = true then s else schedule (tryEnd s t q n) t) := by
  have still : (q.qstate != 2 && q.qstate != 3) = false := by
    obtain h | h := mapped <;> simp [h]
  change execNodeEnd t queue ctr s = _
  simp [execNodeEnd, found, node, isOver, still, Option.isSome_iff_ne_none, or_assoc]

/-- HEAD passes the nodes that have ended, up to the first that has not. -/
theorem advanceHead_append {q : Queue} {gone rest : List Node} (ended : ∀ n ∈ gone, ∃ st, n.state = .ended st)
    (stays : ∀ n, rest.head? = some n → ∀ st, n.state ≠ .ended st) (nodes : q.nodes = gone ++ rest) :
    q.advanceHead = { q with head := q.head + BitVec.ofNat 32 gone.length, nodes := rest } := by
  have all : ∀ n ∈ gone, n.state.isEnded = true := fun n hn => by
    obtain ⟨st, h⟩ := ended n hn
    rw [h]; rfl
  have split : rest.takeWhile (·.state.isEnded) = [] ∧ rest.dropWhile (·.state.isEnded) = rest := by
    cases rest with
    | nil => exact ⟨rfl, rfl⟩
    | cons n rest =>
      have first : n.state.isEnded = false := by
        have h := stays n rfl
        cases e : n.state with
        | ended st => exact absurd e (h st)
        | _ => rfl
      simp [first]
  simp only [Queue.advanceHead, nodes, List.takeWhile_append_of_pos all, List.dropWhile_append_of_pos all, split, List.append_nil]

end

/-! ### What an end makes of the other nodes (R284, R285) -/

section
variable {n m : Node} {state : Byte} {status : Half}

theorem afterEnd_self (same : m.ctr = n.ctr) : n.afterEnd state m = { m with state := .ended state } := by
  simp [Node.afterEnd, same]

theorem afterEnd_other (ne : m.ctr ≠ n.ctr) (apart : n.succs.contains m.ctr = false) : n.afterEnd state m = m := by
  simp only [Node.afterEnd, beq_eq_false_iff_ne.mpr ne, apart]; rfl

/-- A node that ended DONE counts down at its successor. -/
theorem afterEnd_done (ne : m.ctr ≠ n.ctr) (succ : n.succs.contains m.ctr = true) : n.afterEnd 3 m = m.decrement := by
  simp only [Node.afterEnd, beq_eq_false_iff_ne.mpr ne, succ]; rfl

/-- A node that ended otherwise skips its successor. -/
theorem afterEnd_not_done (ne : m.ctr ≠ n.ctr) (succ : n.succs.contains m.ctr = true) (failed : state ≠ 3) :
    n.afterEnd state m = m.skip := by
  simp only [Node.afterEnd, beq_eq_false_iff_ne.mpr ne, succ, beq_eq_false_iff_ne.mpr failed]; rfl

theorem decrement_pending (pending : m.state = .pendingPreds) (more : m.preds ≠ 0) : m.decrement = { m with preds := m.preds - 1 } := by
  simp [Node.decrement, pending, more]

theorem decrement_below_zero (zero : m.preds = 0) : m.decrement = m.doom 4 9 := by
  simp [Node.decrement, zero]

theorem decrement_started (started : m.state ≠ .pendingPreds) : m.decrement = m.doom 4 9 := by
  simp [Node.decrement, started]

theorem doom_pending (pending : m.state = .pendingPreds) : m.doom state status = { m with state := .workOver state status } := by
  simp only [Node.doom, pending]

theorem doom_running (running : m.state = .running) (kind : m.kind ≠ 1) :
    m.doom state status = { m with state := .workOver state status, fate := some (state, status) } := by
  simp only [Node.doom, running, if_neg kind]

/-- A LAUNCH that runs keeps the end for the end of its launch. -/
theorem doom_launch (running : m.state = .running) (kind : m.kind = 1) (free : m.fate = none) :
    m.doom state status = { m with fate := some (state, status) } := by
  simp [Node.doom, running, kind, free]

/-- The first such end stands. -/
theorem doom_fated {st : Byte} {su : Half} (isOver : m.state = .workOver st su) (fated : m.fate ≠ none) : m.doom state status = m := by
  simp [Node.doom, isOver, fated]

/-- A successor whose end is settled takes no other. -/
theorem afterEnd_fated {st : Byte} {su : Half} (ne : m.ctr ≠ n.ctr) (isOver : m.state = .workOver st su) (fated : m.fate ≠ none) :
    n.afterEnd state m = m := by
  cases succ : n.succs.contains m.ctr with
  | false => exact afterEnd_other ne succ
  | true =>
    by_cases done : state = 3
    · subst done
      exact (afterEnd_done ne succ).trans ((decrement_started (by simp [isOver])).trans (doom_fated isOver fated))
    · exact (afterEnd_not_done ne succ done).trans (doom_fated isOver fated)

theorem finish_free (free : n.fate = none) : n.finish state status = { n with state := .workOver state status } := by
  simp only [Node.finish, free]

theorem finish_fated {x : Byte × Half} (fated : n.fate = some x) : n.finish state status = { n with state := .workOver x.1 x.2 } := by
  simp only [Node.finish, fated]

end

/-- Settles O53: a node at its turn makes the step of its kind, and an end tells the other nodes of the queue by their states. -/
theorem nodesRunAndEnd : Obligations.NodesRunAndEnd := by
  unfold Obligations.NodesRunAndEnd
  refine ⟨fun t queue ctr s q n turn => ?nop, fun t queue ctr s q n turn => ?feed,
    fun t queue ctr s q n turn h => (exec_write turn).trans (congrArg _ (nodeWrite_over _ _ h)),
    fun t queue ctr s q n turn h => (exec_signal turn).trans (congrArg _ (nodeWrite_over _ _ h)),
    fun t queue ctr s q n turn h => ?waitmem, fun t queue ctr s q n turn => ?copy, fun t queue ctr s q n k turn slot => ?phase,
    fun t queue ctr s q n turn h => (exec_timestamp turn).trans (congrArg _ (nodeWrite_over _ _ h)),
    fun s t asid va h ok => ?past,
    fun t queue ctr s q n x f turn h => (exec_write turn).trans (congrArg _ (nodeWrite_faults _ _ h)),
    fun t queue ctr s q n x f turn h => (exec_signal turn).trans (congrArg _ (nodeWrite_faults _ _ h)),
    fun t queue ctr s q n x f turn h => (exec_waitmem turn).trans (congrArg _ (checkWaitmem_faults h)),
    fun t queue ctr s q n x f turn h => (exec_timestamp turn).trans (congrArg _ (nodeWrite_faults _ _ h)),
    fun _ _ _ _ _ _ _ => rfl, fun t queue ctr s q n state status found node isOver mapped => ?nodeEnd, fun _ _ _ _ _ _ => rfl,
    fun q gone rest => advanceHead_append, fun n m state => afterEnd_self, fun n m state => afterEnd_other,
    fun n m ne succ pending => ?pending, fun n m ne succ running => ?running,
    fun n m state st status ne isOver => afterEnd_fated ne isOver, fun n state status => ⟨finish_free, fun x => finish_fated⟩⟩
  case nop =>
    change execNodeNop t queue ctr s = _
    rw [execNodeNop, turn.step]
  case feed =>
    have step := (show exec (.feed t queue ctr) s = execFeed t queue ctr s from rfl).trans (turn.step _)
    simp only [Bool.or_eq_true, beq_iff_eq, bne_iff_ne] at step
    simp only [step]
    refine ⟨fun unbound => by rw [if_pos unbound], fun bound own => ?_⟩
    rw [if_neg (not_or.mpr ⟨bound, not_not_intro own⟩)]
    refine ⟨fun full => by rw [if_pos full], fun room => ?_⟩
    rw [if_neg (Nat.not_lt.mpr room)]
    exact ⟨fun x f fault => by rw [fault], fun fine => by rw [fine]⟩
  case waitmem =>
    have step := (exec_waitmem turn).trans (congrArg _ (checkWaitmem_reads h))
    exact ⟨fun met => step.trans (congrArg _ (if_pos met)), fun unmet => step.trans (congrArg _ (if_neg (Bool.eq_false_iff.mp unmet)))⟩
  case copy =>
    have step := (show exec (.copy t queue ctr) s = execCopy t queue ctr s from rfl).trans (turn.step _)
    simp only [step, vaPlus]
    exact ⟨fun x f fault => by rw [fault], fun x f fine fault => by rw [fine, fault], fun src dst => by rw [src, dst]⟩
  case phase =>
    change execPhase t queue ctr s = _
    rw [execPhase, turn.step, slot]
  case past =>
    have past : pastCopy s t asid va = dropRdc (pushPassed s t h.pa) t asid va h.pa := by simp only [pastCopy, ok]
    simp only [past, dropRdc_stores, dropRdc_gangs]
    exact ⟨pushPassed_none_passed s t h.pa, dropRdc_drops _ asid h.pa, pushPassed_gangs s t h.pa⟩
  case nodeEnd =>
    rw [exec_nodeEnd found node isOver mapped]
    refine ⟨fun read write waits => ?_, fun held => by rw [if_pos held]⟩
    rw [if_neg (by simp [read, write, waits])]
    exact ⟨fun va f fault => by rw [tryEnd_faults isOver fault], fun fine => by rw [tryEnd_ends isOver fine]⟩
  case pending =>
    have done := afterEnd_done ne succ
    have skip (state : Byte) (h : state ≠ 3) := (afterEnd_not_done ne succ h).trans (doom_pending pending)
    exact ⟨fun more => done.trans (decrement_pending pending more),
      fun zero => done.trans ((decrement_below_zero zero).trans (doom_pending pending)), skip 4 (by decide), skip 5 (by decide)⟩
  case running =>
    have done := (afterEnd_done ne succ).trans (decrement_started (by simp [running]))
    have skip (state : Byte) (h : state ≠ 3) : n.afterEnd state m = m.doom 5 11 := afterEnd_not_done ne succ h
    have failed := skip 4 (by decide)
    have skipped := skip 5 (by decide)
    exact ⟨fun kind => ⟨done.trans (doom_running running kind), failed.trans (doom_running running kind), skipped.trans (doom_running running kind)⟩,
      fun kind free => ⟨done.trans (doom_launch running kind free), failed.trans (doom_launch running kind free),
        skipped.trans (doom_launch running kind free)⟩⟩

end Sys2Proof.Machine
end

