-- ==== Sys2Proof/Proofs/SystemWords.lean ====
section
/-!
The words of a strand to the system: calls to the host, register blocks, leases, marks and clocks (R265 to R278).
-/

namespace Sys2Proof.Machine

/-! ### A word by its own effect -/

/-- A word whose meaning is its own effect at issue gives it. -/
theorem gives_own {i : Instr} {own : Ctx → State → State} (he : ∀ s, exec i s = issue i s own) : Gives i own :=
  fun _ s hi => (he s).trans (issue_own hi own)

/-- Where p holds, a word gives what its own effect comes to there. -/
theorem Gives.when {i : Instr} {p : Ctx → State → Prop} {own r : Ctx → State → State} (gives : Gives i own)
    (h : ∀ c s, p c s → own c s = r c s) : GivesWhen i p r :=
  fun c s hi hp => (gives c s hi).trans (congrArg _ (h c _ hp))

/-! ### Calls to the host (R268, R269) -/

section
variable {i : Instr} {t : TrapReq} (he : ∀ s, exec i s = hostCall i t s)
include he

theorem hostCall_traps : GivesWhen i (fun c s => c.released s 5 = true) fun c s => takeTrap c (c.noteRelease s) t :=
  (gives_own he).when fun _ _ released => if_pos released

theorem hostCall_waits : GivesWhen i (fun c s => c.released s 5 = false) fun c s => c.holdIssue s i :=
  (gives_own he).when fun _ _ pending => if_neg (Bool.eq_false_iff.mp pending)

end

/-! ### Conditions of the words on register blocks (R270, R271) -/

section
variable {c : Ctx} {bl : BitVec 7}

theorem any_kind_iff {o : Option Wait} {k : WaitKind} : o.any (·.kind == k) = true ↔ ∃ w, o = some w ∧ w.kind = k := by
  simp only [Option.any_eq_true, beq_iff_eq]

theorem not_any_kind {o : Option Wait} {k : WaitKind} (h : ∀ w, o = some w → w.kind ≠ k) : ¬o.any (·.kind == k) = true :=
  fun waits => have ⟨w, hw, kind⟩ := any_kind_iff.mp waits; h w hw kind

theorem holdsAny_iff : c.holdsAny bl = true ↔ c.blocks &&& blocksOf bl ≠ 0 := bne_iff_ne

theorem not_holdsAny (free : c.blocks &&& blocksOf bl = 0) : ¬c.holdsAny bl = true := fun held => holdsAny_iff.mp held free

theorem not_holdsAny_zero : ¬c.holdsAny 0 = true := not_holdsAny BitVec.and_zero

end

/-- Settles O47: each word has its own effect at issue, and each clause is one path through its conditions. -/
theorem systemWordsAct : Obligations.SystemWordsAct := by
  unfold Obligations.SystemWordsAct
  have racqWait bl := gives_own (i := .racqWait bl) fun s => show execRacqWait bl s = _ from rfl
  have racqTry d bl := gives_own (i := .racqTry d bl) fun s => show execRacqTry d bl s = _ from rfl
  have rrel bl := gives_own (i := .rrel bl) fun s => show execRrel bl s = _ from rfl
  have boost d us := gives_own (i := .boost d us) fun s => show execBoost d us s = _ from rfl
  refine ⟨fun d a call => ⟨hostCall_traps fun _ => rfl, hostCall_waits fun _ => rfl, hostCall_traps fun _ => rfl, hostCall_waits fun _ => rfl⟩,
    fun bl => ⟨?waitGrants, ?waitQueues, ?waitHeld, fun d => ⟨?tryGrants, ?tryFails⟩, ?rrel, ?waitAgain, ?waitNone,
      fun d => ⟨?tryNone, ?tryHeld⟩, fun r => ?rrelPending, ?rrelNotHeld⟩,
    fun d us => ⟨?boostEnds, ?boostGranted, ?boostDenied⟩, fun valid => gives_own fun _ => rfl,
    fun d => ⟨gives_own fun _ => rfl, gives_own fun _ => rfl⟩⟩
  case waitGrants =>
    exact (racqWait bl).when fun c s ⟨idle, free, named, fits⟩ =>
      (if_neg (not_any_kind idle)).trans <| (if_neg (not_holdsAny free)).trans <| (if_neg named).trans <| if_pos fits
  case waitQueues =>
    exact (racqWait bl).when fun c s ⟨idle, free, named, full⟩ =>
      (if_neg (not_any_kind idle)).trans <| (if_neg (not_holdsAny free)).trans <| (if_neg named).trans <| if_neg (Bool.eq_false_iff.mp full)
  case waitHeld =>
    exact (racqWait bl).when fun c s ⟨idle, held⟩ =>
      (if_neg (not_any_kind idle)).trans <| if_pos (holdsAny_iff.mpr held)
  case waitAgain => exact (racqWait bl).when fun c s waits => if_pos (any_kind_iff.mpr waits)
  case waitNone =>
    exact (racqWait 0).when fun c s idle =>
      (if_neg (not_any_kind idle)).trans <| (if_neg not_holdsAny_zero).trans <| if_pos rfl
  case tryGrants =>
    exact (racqTry d bl).when fun c s ⟨free, named, fits⟩ =>
      (if_neg (not_holdsAny free)).trans <| (if_neg named).trans <| if_pos fits
  case tryFails =>
    exact (racqTry d bl).when fun c s ⟨free, named, full⟩ =>
      (if_neg (not_holdsAny free)).trans <| (if_neg named).trans <| if_neg (Bool.eq_false_iff.mp full)
  case tryNone => exact (racqTry d 0).when fun c s _ => (if_neg not_holdsAny_zero).trans <| if_pos rfl
  case tryHeld => exact (racqTry d bl).when fun c s held => if_pos (holdsAny_iff.mpr held)
  case rrel =>
    refine (rrel bl).when fun c s ⟨owned, landed⟩ => ?_
    simp only [owned, landed, bne_self_eq_false, Bool.false_eq_true, if_false]
  case rrelPending =>
    refine (rrel bl).when fun c s ⟨owned, pending⟩ => ?_
    simp only [owned, pending, bne_self_eq_false, Bool.false_eq_true, if_false]
  case rrelNotHeld => exact (rrel bl).when fun c s other => if_pos (bne_iff_ne.mpr other)
  case boostEnds => exact (boost d us).when fun c s ends => if_pos ends
  case boostGranted => exact (boost d us).when fun c s ⟨asks, granted⟩ => (if_neg asks).trans <| if_pos granted
  case boostDenied => exact (boost d us).when fun c s ⟨asks, denied⟩ => (if_neg asks).trans <| if_neg (Bool.eq_false_iff.mp denied)

/-! ### The time left (R275) -/

/-- Settles O48: the value is that of the table, and a launch with a deadline of 1 ns is past it at 5 ns. -/
theorem dlrReadsTheTimeLeft : Obligations.DlrReadsTheTimeLeft := by
  unfold Obligations.DlrReadsTheTimeLeft
  exact ⟨fun d => gives_own fun _ => rfl, { bootLaunch 0 false with deadline := 1 }, 5, Bead.start 0 0 0 0 0 0, rfl, by decide, by decide⟩

end Sys2Proof.Machine
end

