-- ==== Sys2Proof/Proofs/RecordRings.lean ====
section
/-!
Records on their way into the trap and fault rings, CONS, the interrupt bits, and what a covered trap does to its launch and its
strand (R326, R332, R333, R355).
-/

namespace Sys2Proof.Machine

/-! ### The write of a held record (R326) -/

section
variable {s : State} {r : Ring} {size : Nat} {c : RingCfg} {x : RingRec} {rest : List RingRec}

/-- The ring once its oldest held record is in it. -/
def Ring.wrote (r : Ring) (x : RingRec) (rest : List RingRec) : Ring :=
  { r with held := rest, prod := r.prod + 1, waiting := if x.awaits then r.waiting ++ [(r.prod, x)] else r.waiting }

theorem not_blocked_or_full (free : r.blocked = false) (room : (r.prod - r.cons).toNat < 2 ^ c.rlog) :
    ¬(r.blocked || !r.room c) = true := by
  rw [free, Ring.room, decide_eq_true room]
  decide

/-- A ring that is configured, not held and has room takes its oldest held record. -/
theorem ringWrite_fits (cfg : r.cfg = some c) (held : r.held = x :: rest) (free : r.blocked = false)
    (room : (r.prod - r.cons).toNat < 2 ^ c.rlog) (fits : rangeFault s c.asid (c.recVa r.prod size) size .write true = none) :
    ringWrite s r size = some (sysWrite s c.asid (c.recVa r.prod size) x.bytes, r.wrote x rest, some x) := by
  simp only [ringWrite, cfg, held, if_neg (not_blocked_or_full free room), fits, Ring.wrote]

/-- A ring access that faults raises RINGERR and holds the ring. -/
theorem ringWrite_faults (cfg : r.cfg = some c) (held : r.held = x :: rest) (free : r.blocked = false)
    (room : (r.prod - r.cons).toNat < 2 ^ c.rlog) (faults : rangeFault s c.asid (c.recVa r.prod size) size .write true ≠ none) :
    ringWrite s r size = some (s, { r with ringErr := true, blocked := true }, none) := by
  obtain ⟨f, fault⟩ := Option.ne_none_iff_exists'.mp faults
  simp only [ringWrite, cfg, held, if_neg (not_blocked_or_full free room), fault]

end

section
variable {s s1 : State} {t : Four} {r : Ring} {x : RingRec}

theorem exec_trapRecordWrite_written (h : ringWrite s (s.tower t).trapq 128 = some (s1, r, some x)) :
    exec (.trapRecordWrite t) s = .next (strandOut (raiseIrq (s1.updTower t fun tw => { tw with trapq := r }) t 1) t x) := by
  change execTrapRecordWrite t s = _
  rw [execTrapRecordWrite, h]

theorem exec_trapRecordWrite_faulted (h : ringWrite s (s.tower t).trapq 128 = some (s1, r, none)) :
    exec (.trapRecordWrite t) s = .next (s1.updTower t fun tw => { tw with trapq := r }) := by
  change execTrapRecordWrite t s = _
  rw [execTrapRecordWrite, h]

theorem exec_faultRecordWrite_written (h : ringWrite s (s.tower t).fltq 64 = some (s1, r, some x)) :
    exec (.faultRecordWrite t) s = .next (raiseIrq (s1.updTower t fun tw => { tw with fltq := r }) t 2) := by
  change execFaultRecordWrite t s = _
  rw [execFaultRecordWrite, h]
  rfl

theorem exec_faultRecordWrite_faulted (h : ringWrite s (s.tower t).fltq 64 = some (s1, r, none)) :
    exec (.faultRecordWrite t) s = .next (s1.updTower t fun tw => { tw with fltq := r }) := by
  change execFaultRecordWrite t s = _
  rw [execFaultRecordWrite, h]
  rfl

end

/-! ### Interrupt bits (R355) -/

/-- Of the five bits the one raised is set, the others are as they were. -/
theorem raise_irq (tw : Tower) (k : Fin 5) (j : Nat) : (tw.raise k.val).irq.getLsbD j = (decide (j = k.val) || tw.irq.getLsbD j) := by
  rw [Tower.raise]
  split
  case isTrue set =>
    by_cases e : j = k.val
    · simp [e, set]
    · simp [e]
  case isFalse clear =>
    have bit : (1#5 <<< k.val).getLsbD j = decide (j = k.val) := by
      rw [← BitVec.twoPow_eq, BitVec.getLsbD_twoPow]
      simp [k.isLt, eq_comm]
    rw [BitVec.getLsbD_or, bit, Bool.or_comm]

/-- A bit that rises sends one message, one that is set sends none. -/
theorem raise_sent (tw : Tower) (bit : Nat) :
    (tw.raise bit).sent = if tw.irq.getLsbD bit = true then tw.sent else tw.sent ++ [bit] := by
  rw [Tower.raise]
  split <;> rfl

theorem raiseIrq_tower_self (s : State) (t : Four) (bit : Nat) : (raiseIrq s t bit).tower t = (s.tower t).raise bit :=
  updTower_tower_self ..

/-! ### A covered trap (R332, R333) -/

section
variable {s : State} {t : Four} {r : RingRec}

/-- The strand of a launch that its tower has not killed is diverted, or, diverted before, its lanes end. -/
theorem strandOut_alive {again : Bool} (strand : r.strand = some again)
    (alive : ((s.launch? r.launch).any fun l => (l.towers.get t).killed.isSome) = false) :
    strandOut s t r = if again = true then
      s.updWg r.gang r.member fun w => w.updBeads (Bead.ofHomes r.homes) fun b => { b with dying := true, stop := none }
    else divertStrand s r 2 false := by
  simp only [strandOut, strand, alive, Bool.false_eq_true, if_false]

theorem divertStrand_found {cause : BitVec 4} {again : Bool} {g : Gang} {l : Launch} (gang : s.gang? r.gang = some g)
    (launch : s.launch? r.launch = some l) :
    divertStrand s r cause again = if (g.resident && !g.saving) = true then
      s.mapStrand r.gang r.id fun other b => b.divertStopped l r.id cause g.wrapBack again other (s.tower g.tower).time
    else s.mapTrapped r.gang r.id (Bead.keepReply fun _ => .divert cause) := by
  simp only [divertStrand, gang, launch]

/-- A trap whose strand has been seen to still diverts its launch. -/
theorem settleTrap_strandless {id : Nat} (held : (s.tower t).trapq.held.find? (·.id == id) = some r) (due : r.divert = true)
    (strand : r.strand = none) :
    settleTrap t s id = divertLaunch 2 .device (s.updHeld t id fun r => { r with divert := false }) r.launch t := by
  simp only [settleTrap, held, due, strand, Option.isNone_none, Bool.true_or, if_true]

end

/-- Settles O51: a ring that has room takes its oldest held record or is held by a fault, and the rest is the law of each operation. -/
theorem recordsReachTheirRings : Obligations.RecordsReachTheirRings := by
  unfold Obligations.RecordsReachTheirRings
  refine ⟨fun t s c x rest cfg held free room => ⟨fun fits => ?trapWritten, fun faults => ?trapFaulted⟩,
    fun t s c x rest cfg held free room => ⟨fun fits => ?faultWritten, fun faults => ?faultFaulted⟩, fun t v s => ⟨rfl, rfl⟩,
    fun s t k => ?irq, fun s t r => ⟨fun seen => by rw [strandOut, seen], fun again strand alive => ⟨fun before => ?dies, fun first => ?diverts⟩⟩,
    fun s r cause again g l gang launch => ⟨fun here still => ?resident, fun away => ?saved⟩,
    fun s t id r held due strand => settleTrap_strandless held due strand⟩
  case trapWritten => exact exec_trapRecordWrite_written (ringWrite_fits cfg held free room fits)
  case trapFaulted => exact exec_trapRecordWrite_faulted (ringWrite_faults cfg held free room faults)
  case faultWritten => exact exec_faultRecordWrite_written (ringWrite_fits cfg held free room fits)
  case faultFaulted => exact exec_faultRecordWrite_faulted (ringWrite_faults cfg held free room faults)
  case irq =>
    rw [raiseIrq_tower_self]
    refine ⟨?_, fun j other => ?_, raise_sent .., rfl, rfl⟩
    · rw [raise_irq, decide_eq_true rfl, Bool.true_or]
    · rw [raise_irq, decide_eq_false other, Bool.false_or]
  case dies =>
    rw [strandOut_alive strand alive, if_pos before]
    simp only [Wg.updBeads, Bead.ofHomes, List.contains_iff_mem]
  case diverts => rw [strandOut_alive strand alive, if_neg (Bool.eq_false_iff.mp first)]
  case resident => rw [divertStrand_found gang launch, if_pos (by simp [here, still])]
  case saved =>
    have elsewhere : (g.resident && !g.saving) = false := by obtain h | h := away <;> simp [h]
    rw [divertStrand_found gang launch, if_neg (Bool.eq_false_iff.mp elsewhere)]
    rfl

end Sys2Proof.Machine
end
